-- ==== Sys2Proof/Word.lean ====
section
/-! DEFINITION. The word types and the sparse table type of the MX1 model. -/

namespace Sys2Proof

/-- One byte. -/
abbrev Byte := BitVec 8

/-- A run of bytes, lowest address first (R7). -/
abbrev Bytes := List (BitVec 8)

/-- A 64-bit word: registers, manifest words, tag words, header words, page table entries. -/
abbrev Word := BitVec 64

/-- A 128-bit Smirax instruction word (R108). -/
abbrev InsnWord := BitVec 128

/-- A sparse table from natural keys to values: an unlisted key holds the table's default.
The canonical form (`Tab.wf`) lists keys strictly rising and lists no default. -/
abbrev Tab (β : Type) := List (Nat × β)

/-- A 16-bit status value of Table 17.1. -/
abbrev Status := BitVec 16

end Sys2Proof
end

