-- ==== Sys2Proof/Syntax.lean ====
section
/-! DEFINITION. The commands of the MX1 block: one constructor of `Instr` per row of spec/opcode_table.json,
and the data their operands carry (manifests, tags, frames, route books, records). -/

namespace Sys2Proof

abbrev PartId := Fin 16
abbrev PortId := Fin 8
abbrev MuId := Fin 32
abbrev CxlId := Fin 24
abbrev QueueId := Fin 9
abbrev JobId := Fin 16
abbrev RingId := Fin 64
abbrev NodeId := Fin 1024
abbrev ReqId := BitVec 48

/-- Roles a partition carries (R2, Table 3.10); `unset` before any image gave one. -/
inductive Role where
  | prompt | generate | cache | unset
  deriving DecidableEq, Repr

/-- The two acts of an engine instruction that are steps of its own row: the drover issues it into its
queue (R79 to R84), and its engine, having started it at the queue head (QUEUE_HEAD_START), carries out its effect.
(DEDUCED: log 7) -/
inductive Act where
  | issue | run
  deriving DecidableEq, Repr

/-- The 64-byte manifest, eight words (R49, Table 2.2). -/
structure Manifest where
  w0 : Word
  w1 : Word
  w2 : Word
  w3 : Word
  w4 : Word
  w5 : Word
  w6 : Word
  w7 : Word
  deriving DecidableEq, Repr

/-- The 16-byte tag (R60, Table 2.5). -/
structure Tag where
  w0 : Word
  w1 : Word
  deriving DecidableEq, Repr

/-- State of a node in the route book's node table (Table 1.3). -/
inductive NodeState where
  | active | draining | removed
  deriving DecidableEq, Repr

/-- One node of the route book's node table (Table 1.3). -/
structure NodeEntry where
  node : NodeId
  caps : Word
  state : NodeState
  roles : List Role
  slices : List (BitVec 16)
  deriving DecidableEq, Repr

/-- One entry of a pool list (Table 1.3). -/
structure PoolEntry where
  role : Role
  node : NodeId
  slice : BitVec 16
  weight : Nat
  deriving DecidableEq, Repr

/-- One cache set of the cache-set table (Table 1.3): five members when coded, two when mirrored. -/
structure CacheSet where
  number : BitVec 12
  coded : Bool
  members : List NodeId
  tclasses : List (BitVec 8)
  deriving DecidableEq, Repr

/-- One tenant class (Table 1.3). -/
structure TenantClass where
  number : BitVec 8
  coded : Bool
  leaseSeconds : Nat
  share : BitVec 5
  deriving DecidableEq, Repr

/-- One combinable fabric range, both ends included (R287). -/
structure FabRange where
  first : BitVec 52
  last : BitVec 52
  deriving DecidableEq, Repr

/-- A route book (R22, Table 1.3). (DESIGN CHOICE: log 51) -/
structure Book where
  epoch : BitVec 16
  mgr : NodeId
  stby : Option NodeId
  issuedNs : Nat
  bytes : Nat
  digest : BitVec 512
  nodes : List NodeEntry
  pools : List PoolEntry
  sets : List CacheSet
  tclasses : List TenantClass
  ranges : List FabRange
  deriving DecidableEq, Repr

/-- A host's admission request (R17, R19, R54, R56, R188, R204); `host` is the node whose host submits it (R43). -/
structure Admission where
  host : NodeId
  tenant : BitVec 16
  tclass : BitVec 8
  share : BitVec 5
  prio : BitVec 3
  precision : BitVec 16
  adapter : Option (BitVec 12 × BitVec 16)
  strict : Bool
  keep : Bool
  sharedPrefix : Bool
  grammar : Bool
  seed : BitVec 32
  prompt : List (BitVec 18)
  sampler : Bytes
  deriving DecidableEq, Repr

/-- A request as the manager's request table holds it (R14): beside its owner, the node of the host that admitted it,
whether its admission has been acknowledged to that host (R34, R38), and the entries its log held when it was last
launched (R40). -/
structure ReqRec where
  id : ReqId
  tenant : BitVec 16
  phase : BitVec 4
  node : NodeId
  part : PartId
  mft : Manifest
  parkedNs : Nat
  host : NodeId
  acked : Bool
  base : Nat
  deriving DecidableEq, Repr

/-- A prompt log: the sampler record given at admission, the header's counts and the entries (R73). -/
structure PromptLog where
  id : ReqId
  tenant : BitVec 16
  turn : BitVec 16
  admittedNs : Nat
  sampler : Bytes
  entries : List (BitVec 32)
  deriving DecidableEq, Repr

/-- A copy the manager mirrors to the standby (R34, R35, R422). -/
inductive Mirror where
  | book (b : Book)
  | log (l : PromptLog)
  | request (r : ReqRec)
  | idBlock (firstId : Nat)
  deriving DecidableEq, Repr

/-- Why a node reports a request's state lost: the state itself (R298), an unreadable shared page (R395), or its partition
taken out of service (R340). -/
inductive LostWhy where
  | state | sharedPage | offline
  deriving DecidableEq, Repr

/-- The parked copies of a request that a release frees (R20, R297): the one kept at an address, and those of NEXT_POS below
a position; with neither named, every copy. `hops` is HOPS of the frame 0 that brought the copy named by its address, by
which a transfer that has not come to its end is known. (DESIGN CHOICE: log 58) -/
structure ParkedCopies where
  id : ReqId
  copy : Option Nat
  hops : Option Nat
  upTo : Option Nat
  deriving DecidableEq, Repr

/-- A CONTROL payload. The specification names the messages and what they carry and gives no byte layout.
(DESIGN CHOICE: log 51) -/
inductive Ctl where
  | bookPart (b : Book)
  | bookAck (epoch : BitVec 16) (status : Status) (current : BitVec 16)
  | accept (id : ReqId) (slots : List Nat)
  | refuse (id : ReqId) (status : Status) (epoch : BitVec 16)
  | commitAck (id : ReqId)
  | ownership (id : ReqId) (phase : BitVec 4) (node : NodeId) (part : PartId) (m : Option Manifest)
  | ownershipAck (id : ReqId)
  | finalManifest (m : Manifest)
  | cancel (id : ReqId) (canceller : NodeId) (forwarded : Bool)
  | cancelAnswer (id : ReqId) (status : Status) (outputTokens : Nat)
  | abandon (unit : Nat) (seq : BitVec 32)
  | abort (tag : Tag)
  | logAppend (id : ReqId) (index : Nat) (entries : List (BitVec 32))
  | logAck (id : ReqId) (entries : Nat)
  | logRefuse (id : ReqId) (entries : Nat)
  | release (c : ParkedCopies)
  | evict (id : ReqId)
  | assign (m : Manifest) (node : NodeId) (part : PartId)
  | staleReport (id : ReqId) (receiver : NodeId) (phase : BitVec 4) (epoch : BitVec 16) (status : Status)
  | stateLost (id : ReqId) (restart : Nat)
  | admission (a : Admission)
  | admitted (id : ReqId)
  | lostRequest (id : ReqId) (why : LostWhy) (m : Option Manifest)
  | mirror (m : Mirror)
  | mirrorAck
  | copyAck
  | heartbeat
  | liveness
  | failureNote (code : BitVec 16)
  | joinAnswer (status : Status) (b : Option Book)
  deriving DecidableEq, Repr

/-- Kinds of PTP message that the servo and the delay measurement use (R299). (PRESUMED: log 102) -/
inductive PtpKind where
  | announce | sync | followUp | delayReq | delayResp | pdelayReq | pdelayResp
  deriving DecidableEq, Repr

/-- The grandmaster that an Announce message names, with what the best master clock algorithm compares (R299).
(PRESUMED: log 102) -/
structure PtpClock where
  prio1 : Nat
  quality : Nat
  prio2 : Nat
  identity : Nat
  steps : Nat
  deriving DecidableEq, Repr

/-- A PTP message (R299): its domain, the grandmaster of an Announce, the time it carries and its correction, both in
nanoseconds, and whether a Follow_Up brings the time of a Sync. (PRESUMED: log 102) -/
structure PtpMsg where
  kind : PtpKind
  domain : BitVec 8
  twoStep : Bool
  carries : Int
  correction : Int
  clock : PtpClock
  deriving DecidableEq, Repr

/-- What follows a frame's header and manifest (Table 11.3). A KV_PAGE frame of a transfer that carries no page table
brings the FMT and COMPRESSED of its page with its bytes (R178, R217). (DESIGN CHOICE: log 43; DESIGN CHOICE: log 51) -/
inductive Body where
  | bytes (b : Bytes)
  | page (fmt : BitVec 4) (compressed : Bool) (b : Bytes)
  | ctl (c : Ctl)
  | acks (l : List Word)
  | ptp (m : PtpMsg)
  | join (caps : Word)
  | notice (src : NodeId) (unit : Nat) (seq : BitVec 32) (path : Fin 8) (dst : NodeId)
  deriving DecidableEq, Repr

/-- The 64-byte link header, eight words; words 0 and 1 are the tag (R272, Table 11.2). -/
structure Hdr where
  tag : Tag
  w2 : Word
  w3 : Word
  w4 : Word
  w5 : Word
  w6 : Word
  w7 : Word
  deriving DecidableEq, Repr

/-- An Auduel frame (R272). -/
structure Frame where
  hdr : Hdr
  mft : Option Manifest
  body : Body
  deriving DecidableEq, Repr

/-- An IEEE 802.1Q C-tag (R276). -/
structure CTag where
  pcp : BitVec 3
  dei : Bool
  vid : BitVec 12
  deriving DecidableEq, Repr

/-- The Ethernet header of an encapsulated frame (R276). -/
structure Ether where
  dst : BitVec 48
  src : BitVec 48
  tag : Option CTag
  deriving DecidableEq, Repr

/-- The encapsulation of a frame (R276); `native` on a NATIVE port. A checksum is carried as whether it is right. -/
inductive Encap where
  | native
  | enet (h : Ether) (etherType : BitVec 16)
  | ipv4 (h : Ether) (dst src : BitVec 32) (dscp : BitVec 6) (dontFragment headerOk : Bool) (udpSrc udpDst : BitVec 16)
      (udpZero : Bool)
  | ipv6 (h : Ether) (dst src : BitVec 128) (dscp : BitVec 6) (udpSrc udpDst : BitVec 16) (udpOk : Bool)
  deriving DecidableEq, Repr

/-- What the self-test of one partition found (R140, R341, R372): the passing physical cores of each
cluster, the failing rows of each matrix unit, and whether hold SRAM and the drover's stores passed. -/
structure PartTest where
  cores : List (BitVec 9)
  badRows : List Nat
  holdOk : Bool
  droverOk : Bool
  deriving DecidableEq, Repr

/-- The data of a BAR2 write, which may be poisoned (Table 14.1). -/
structure HostData where
  bytes : Bytes
  poisoned : Bool
  deriving DecidableEq, Repr

/-- The errors that the march of S4 finds in a near frame (R373). (DEDUCED: log 87) -/
structure FrameMarch where
  frame : BitVec 16
  uncorrected : Bool             -- an error that on-die ECC does not correct
  corrected : Nat                -- corrected errors
  deriving DecidableEq, Repr

/-- One CXL device as enumerated at S5 (R233, R246, R374). -/
structure CxlDevice where
  port : CxlId
  bytes : Nat
  marchOk : Bool
  serial : Word
  dirty : Nat
  width : BitVec 3
  rate : BitVec 4
  deriving DecidableEq, Repr

/-- An ordinary access to an MU (R261). -/
inductive MuAccess where
  | read (device : Nat) (bytes : Nat)
  | write (device : Nat) (data : Bytes)
  deriving DecidableEq, Repr

/-- The partition that an ownership note names, with the manifest it brings (R14). (DESIGN CHOICE: log 54) -/
structure NotedOwner where
  part : PartId
  mft : Option Manifest
  deriving DecidableEq, Repr

/-- The phase of a refused caravan, and the epoch of the receiver's book (R13, R28). -/
structure RefusedAt where
  phase : BitVec 4
  epoch : BitVec 16
  deriving DecidableEq, Repr

/-- The commands: one constructor per row of spec/opcode_table.json. (DESIGN CHOICE: log 1) (DESIGN CHOICE: log 92) -/
inductive Instr where
  -- Chapter 1: caravans, the route book, the manager
  | admissionRequest (a : Admission)
  | standbyMirrorAck
  | caravanFrame0 (f : Frame)
  | caravanFrame (f : Frame)
  | commitAck (src : NodeId) (id : ReqId)
  | caravanRefusal (src : NodeId) (id : ReqId) (status : Status) (epoch : BitVec 16)
  | staleEpochRefusal (owner receiver : NodeId) (id : ReqId) (refused : RefusedAt)
  | ownershipNote (id : ReqId) (phase : BitVec 4) (node : NodeId) (owner : NotedOwner)
  | finalManifest (m : Manifest)
  | promptLogAppend (src : NodeId) (id : ReqId) (index : Nat) (entries : List (BitVec 32))
  | ownerResend (id : ReqId)
  | parkLeaseExpiry (id : ReqId)
  | sessionClose (id : ReqId)
  | continuationAdmit (id : ReqId) (tokens : List (BitVec 18)) (gen : BitVec 16) (keep : Bool)
  | managerEvict (id : ReqId)
  | bookIssue (b : Book)
  | bookInstall (src : NodeId) (b : Book)
  | caravanReexamine (p : PartId) (slot : BitVec 10)
  | bookAck (node : NodeId) (epoch : BitVec 16) (status : Status)
  | epochHoldExpiry (id : ReqId)
  | epochRetryExpiry
  | installTimeout (node : NodeId)
  | heartbeatSend
  | managerLossExpiry
  | cancel (src : NodeId) (id : ReqId) (canceller : NodeId) (forwarded : Bool)
  | transferAbort (src : NodeId) (t : Tag)
  | nodeFailed (node : NodeId)
  | livenessNote
  | nodeSilenceExpiry (node : NodeId)
  | failureNote (node : NodeId) (code : BitVec 16)
  -- Chapter 3: queues, packets, images
  | queueHeadStart (p : PartId) (q : QueueId)
  | instructionRetire (p : PartId) (q : QueueId) (extraClk : Nat)
  | remotePostArrival (p : PartId) (job : JobId) (g : BitVec 8)
  | dispatchPacketTake (p : PartId)
  | packetEnd (p : PartId)
  | packetCompletion (p : PartId)
  | dispatchWaitExpiry (p : PartId)
  | imageInstall (p : PartId)
  -- Chapter 4: control
  | nop (p : PartId)
  | ldi (p : PartId)
  | mov (p : PartId)
  | add (p : PartId)
  | sub (p : PartId)
  | mul (p : PartId)
  | and (p : PartId)
  | or (p : PartId)
  | xor (p : PartId)
  | shl (p : PartId)
  | shr (p : PartId)
  | cmp (p : PartId)
  | br (p : PartId)
  | call (p : PartId)
  | ret (p : PartId)
  | halt (p : PartId)
  | yieldInsn (p : PartId)
  | endInsn (p : PartId)
  | start (p : PartId)
  -- Chapter 4: move, DMA, accounting
  | dmaCopy (p : PartId) (a : Act)
  | dmaGather (p : PartId) (a : Act)
  | dmaFill (p : PartId) (a : Act)
  | dmaLds (p : PartId) (a : Act)
  | dmaSts (p : PartId) (a : Act)
  | descLd (p : PartId)
  | descSt (p : PartId)
  | lds (p : PartId)
  | sts (p : PartId)
  | acctAdd (p : PartId) (a : Act)
  | acctRd (p : PartId) (a : Act)
  | timeRd (p : PartId)
  -- Chapter 4: matrix and vector
  | mxGemm (p : PartId) (a : Act)
  | mxLora (p : PartId) (a : Act)
  | vxAdd (p : PartId) (a : Act)
  | vxMul (p : PartId) (a : Act)
  | vxScale (p : PartId) (a : Act)
  | vxRmsnorm (p : PartId) (a : Act)
  | vxRope (p : PartId) (a : Act)
  | vxSwiglu (p : PartId) (a : Act)
  | vxGelu (p : PartId) (a : Act)
  | vxCvt (p : PartId) (a : Act)
  | vxReduce (p : PartId) (a : Act)
  | vxSfu (p : PartId) (a : Act)
  -- Chapter 4: attention and sampling
  | attBlock (p : PartId) (a : Act)
  | attChunk (p : PartId) (a : Act)
  | scatterKv (p : PartId) (a : Act)
  | scatterChunk (p : PartId) (a : Act)
  | smpStep (p : PartId) (a : Act)
  | smpGrammar (p : PartId) (a : Act)
  | smpCancel (p : PartId)
  -- Chapter 4: state, manifest, synchronisation
  | mfRd (p : PartId)
  | mfPhase (p : PartId)
  | mfFlag (p : PartId)
  | mfFree (p : PartId)
  | cvJoin (p : PartId)
  | cvLeave (p : PartId)
  | sigSet (p : PartId)
  | wait (p : PartId)
  | fence (p : PartId)
  | sigRemote (p : PartId) (a : Act)
  | abort (p : PartId)
  | faultPop (p : PartId)
  | sigRd (p : PartId)
  -- Chapter 4: fabric, near-bank, tier
  | fabWr (p : PartId) (a : Act)
  | fabRd (p : PartId) (a : Act)
  | fabFence (p : PartId) (a : Act)
  | fabCaravan (p : PartId) (a : Act)
  | fabLog (p : PartId) (a : Act)
  | nbGemv (p : PartId) (a : Act)
  | nbMode (p : PartId) (a : Act)
  | nbSumx (p : PartId) (a : Act)
  | nbAtt (p : PartId) (a : Act)
  | tierMove (p : PartId) (a : Act)
  | tierHint (p : PartId) (a : Act)
  | tierPin (p : PartId) (a : Act)
  -- Chapters 5 to 8: unit events and partition registers
  | mxUnitParityError (p : PartId) (u : Fin 4)
  | holdSramUncorrectable (p : PartId) (offset : Nat)
  | partitionFault (p : PartId)
  | coreSelfCheckFail (p : PartId) (core : Fin 128)
  | attGeomWrite (p : PartId) (v : BitVec 32)
  | smpCvCfgWrite (p : PartId) (n : Fin 4) (v : Word)
  | adapterLoad (a : Word)
  | adapterRetire (a : Word)
  | adapterCheckDone (handle : BitVec 12) (slot : Fin 2) (ok : Bool)
  | cmpRecBaseWrite (p : PartId) (v : Word)
  -- Chapter 9: tiers
  | map (a : Word)
  | unmap (a : Word)
  | clearPoison (a : Word)
  | mapZero (a : Word)
  | migrationAutonomous (page : BitVec 21)
  | accessBitSample
  | migrationPassEnd (page : BitVec 21)
  | oldFrameRelease (tierBit : Bool) (frame : Nat)
  | muCrcFailure (m : MuId)
  | muRetrainDone (m : MuId) (ok : Bool)
  | refreshDue (m : MuId)
  | farReadLate (k : CxlId) (beyondNs : Nat)
  | cxlTimeoutExpiry (k : CxlId)
  | cxlPortDown (k : CxlId)
  | cxlRetrainAttempt (k : CxlId)
  | cxlLinkReturn (k : CxlId) (serial : Word) (dirty : Nat) (width : BitVec 3) (rate : BitVec 4)
  -- Chapter 10: near-bank units
  | parkedAccessArrival (m : MuId) (a : MuAccess)
  | nbuYield (m : MuId)
  | nbuYieldEnd (m : MuId)
  | modeSwitchComplete (m : MuId)
  | nbuPcfgWrite (p : PartId) (v : Word)
  -- Chapter 11: ports, frames, memory semantics
  | portLinkUp (k : PortId) (peer : NodeId) (peerMode : BitVec 2)
  | portLinkDown (k : PortId)
  | frameReceive (k : PortId) (f : Frame) (e : Encap) (linkCrcOk : Bool) (stomped : Bool)
  | switchForward (k : PortId)
  | switchCombine (k : PortId)
  | creditReturn (k : PortId) (c : Fin 8) (blocks : Nat)
  | write (f : Frame)
  | flaggedLineRelease (src : NodeId) (unit : Fin 32)
  | readReq (f : Frame)
  | readResp (f : Frame)
  | ack (src : NodeId) (entries : List Word)
  | ackFlush (dst : NodeId)
  | pathNotice (unit : Fin 32) (seq : BitVec 32) (path : Fin 8) (dst : NodeId)
  | pathNoticeExpiry (dst : NodeId) (path : Fin 8)
  | pathRestored (dst : NodeId)
  | replayExpiry (unit : Fin 32) (dst : NodeId) (seq : BitVec 32)
  | abandonNotice (src : NodeId) (unit : Fin 32) (seq : BitVec 32)
  | combineExpiry (dst : NodeId) (addr : BitVec 52) (lines : Nat)
  | windowIdleRelease (src : NodeId) (unit : Fin 32)
  | fenceTimeoutExpiry (p : PartId)
  | parkRelease (src : NodeId) (copies : ParkedCopies)
  | ptpMessage (k : PortId) (m : PtpMsg) (stampNs : Int) (slewNs : Int)
  | ptpMasterLoss
  | join (node : NodeId) (caps : Word)
  | joinAnswer (status : Status) (b : Option Book)
  | retry
  -- Chapter 12: scheduler, shapers, gates, histograms
  | frameTxEnd (k : PortId)
  | schedulerRetest (k : PortId)
  | refillTick
  | shaperWrite (k : PortId) (c : Fin 8) (policer : Bool) (v : Word)
  | change (k : PortId) (v : Word)
  | gateListEffect (k : PortId)
  | gateEntryBoundary (k : PortId)
  | queueSample
  | clear
  -- Chapter 13: jobs, partitions, metering
  | jobRegisterWrite (j : JobId) (reg : Fin 4) (v : Word)
  | fabShareWrite (j : JobId) (v : Word)
  | assign (p : PartId) (v : Word)
  | switchOut (p : PartId) (v : Word)
  | switchIn (p : PartId) (v : Word)
  | release (p : PartId) (v : Word)
  | offline (p : PartId) (v : Word)
  | retest (p : PartId) (v : Word)
  | retestDone (p : PartId) (t : PartTest) (nbuOk : BitVec 2)
  | online (p : PartId) (v : Word)
  | ptCtlReservedOp (p : PartId) (v : Word)
  | controlForSwitchedJob (p : PartId) (j : JobId) (src : NodeId) (c : Ctl)
  | mtrMap (v : Word)
  | snap (v : Word)
  | dump (v : Word)
  | tariffTick
  -- Chapter 14: host
  | bar2Read (fn : Fin 17) (offset : Nat) (len : Nat)
  | bar2Write (fn : Fin 17) (offset : Nat) (data : HostData)
  | sqTailDb (r : RingId) (v : BitVec 16)
  | cqHeadDb (r : RingId) (v : BitVec 16)
  | ringEnable (cq : Bool) (r : RingId) (v : Word)
  | packetPrefetch (r : RingId) (data : Bytes)
  | coalesceExpiry (r : Fin 65)
  | go (v : Word)
  | imageCheckDone
  | perstN
  | flrPf
  | flrVf (k : Fin 16)
  -- Chapters 15 and 19: bring-up and pins
  | pwrGoodRise
  | pwrGoodFall
  | sysRstNAssert
  | sysRstNDeassert (bootMode : BitVec 2)
  | stageS0 (rootLocked : Bool) (us : Nat)
  | rootLockRetry (rootLocked : Bool) (us : Nat)
  | stageS1 (romOk secOk flashOk corrected : Bool) (response : Bytes) (us : Nat)
  | stageS2 (hubOk : Bool) (parts : List PartTest) (us : Nat)
  | stageS3 (linksUp : BitVec 6) (retrains : BitVec 16) (us : Nat)
  | stageS4 (trained nbuBad : BitVec 32) (march : List FrameMarch) (eccCorr : Word) (us : Nat)
  | stageS5 (devices : List CxlDevice) (us : Nat)
  | retentionWaitExpiry (badPorts : BitVec 24) (badBlocks : BitVec 32) (us : Nat)
  | stageS6 (us : Nat)
  | stageS7 (us : Nat)
  | stageS8 (us : Nat)
  | read (v : Word)
  | program (v : Word)
  | erase4k (v : Word)
  | quoteGo
  -- Chapter 17 and 18: events, registers
  | evtHeadDb (v : BitVec 16)
  | evtRingEnable (v : Word)
  | standbyEnable (v : Word)
  | standbyCopyAck (node : NodeId)
  | seqMftBaseWrite (p : PartId) (v : Word)
  | registerWrite (fn : Fin 17) (offset : Nat) (size : Nat) (v : Word)
  | rcRegisterRead (fn : Fin 17) (offset : Nat) (size : Nat)
  | tempRefresh (temps : List (BitVec 16))
  | thermtrip
  | rootLockLoss
  | avsAdjust (acked : Bool) (temp : BitVec 16)
  | ppsPulse
  | smbusTempHighWrite (v : BitVec 16)
  | smbusAlertResponse
  | bypass
  | idcode
  | samplePreload (cells : List Bool)
  | extest
  | clamp
  | highz
  | extestPulse
  | extestTrain
  | caravanAccept (src : NodeId) (id : ReqId) (slots : List Nat)
  | mirrorCopy (m : Mirror)
  | heartbeatReceipt
  | livenessNoteReceipt (node : NodeId)
  | appendRefusal (id : ReqId) (entries : Nat)
  | transitRouterError (p : PartId)
  | perstNDeassert
  | hostLinkUp (rate width : BitVec 4) (flit : Bool)
  | priorityFlowControl (k : PortId) (paused : BitVec 8)
  deriving DecidableEq, Repr

end Sys2Proof
end

