-- ==== Sys2Proof/Decode.lean ====
section
/-! DEFINITION. Words of the command table: no row of spec/opcode_table.json gives its command any bits. -/

namespace Sys2Proof

/-- The command a word spells by the bits of the command table: none, for the table gives no row any bits
(assumption log 1). -/
def decodeTableWord (_nbits _w : Nat) : Option Instr := none

end Sys2Proof
end

