-- ==== Sys2Proof/Config.lean ====
section
/-! DEFINITION. What the specification leaves open: free values, constants without a body.
No proof can see their values, so a statement holds whatever they are (assumption log 3). -/

namespace Sys2Proof.Config

/-- What a special function gives (Table 5.8 states only how far it may lie from the exact result): the function's
number and the FP32 codes of its operands. The model takes the value only where it lies in the allowed band (R152).
(DESIGN CHOICE: log 3) -/
opaque sfuValue : Nat → Nat → Nat → BitVec 32

/-- Element codes of a block whose scale byte is 255 (R144 gives the scale byte alone). -/
opaque nanBlockCode : Nat → Nat

/-- Sine and cosine of a rotary angle (Table 5.8 gives only an absolute accuracy): position, pair index,
half dimension, base. Taken only where they lie within the accuracy. (DESIGN CHOICE: log 21) -/
opaque ropeSin : Nat → Nat → Nat → BitVec 32 → BitVec 32
/-- DESIGN CHOICE: log 21. -/
opaque ropeCos : Nat → Nat → Nat → BitVec 32 → BitVec 32

/-- Whether VX_ROPE pairs neighbouring elements of a head rather than its two halves (R444 does not say).
(DESIGN CHOICE: log 21) -/
opaque ropeAdjacent : Bool

/-- Where a matrix unit cuts K into ranges (R139 fixes how many ranges, not where they begin):
number of 32-element blocks, number of ranges, index of the boundary. (DESIGN CHOICE: log 20) -/
opaque kCut : Nat → Nat → Nat → Nat

/-- CLK_A that the ports of an instruction's accesses wait for hold-SRAM banks (R136), and single-bit errors corrected on
its reads (R137): a running count; the model takes them within the rule's bound. (DESIGN CHOICE: log 80) -/
opaque hsramWait : Nat → Nat
/-- DESIGN CHOICE: log 80. -/
opaque hsramCorrected : Nat → Nat

/-- Errors that the on-die ECC of an MU's device corrected in a millisecond (R229): running count, MU.
(DESIGN CHOICE: log 73) -/
opaque eccCorrected : Nat → Nat → Nat

/-- The 64-byte lines for which a device of the near (`false`) or far (`true`) tier comes to hold poison in a millisecond, an
uncorrectable error of a near device or poisoned data of a far one (R229, R245): running count, tier.
(DESIGN CHOICE: log 73) -/
opaque poisonedLines : Nat → Bool → List Nat

/-- Whether a cancel written between a member's commit and the retire of its SMP_STEP came in the commit cycle itself
(R198): free at each use. (DESIGN CHOICE: log 31) -/
opaque inCommitCycle : Nat → Bool

/-- Which cluster sums a row of VX_RMSNORM or VX_REDUCE (R151 does not say). (DESIGN CHOICE: log 20) -/
opaque rowCluster : Nat → Nat

/-- On which (core, lane) an element of a row sum falls (R151 does not say): columns, element.
(DESIGN CHOICE: log 20) -/
opaque elemSlot : Nat → Nat → Nat

/-- CLK_A that matrix units waited on their fall-back expanders during one MX_GEMM (R219 counts them and no rule gives the
schedule of tiles and bales): a running count. (DESIGN CHOICE: log 37) -/
opaque portWait : Nat → Nat

/-- CLK_A that the DMA engine and the attention unit waited for each other at the main-path expander while an instruction of
the one ran beside one of the other (R174, R219): a running count. (DESIGN CHOICE: log 37) -/
opaque shareWait : Nat → Nat

/-- A byte of hold SRAM left undefined when an instruction is stopped before its commit point (R121):
a running count and the offset. (DEDUCED: log 19) -/
opaque stoppedByte : Nat → Nat → BitVec 8

/-- CLK_A that an instruction stopped before its retire has run (no rule gives the time of a stop within it): a running
count. (DESIGN CHOICE: log 17) -/
opaque stoppedClk : Nat → Nat

/-- The public key of Dahiez held in ROM (R382); its bytes are not in the specification. -/
opaque rootKey : List (BitVec 8)

/-- A byte of the 32 that randomise the signature of a quote (R385, ML-DSA.Sign of FIPS 204): a running count and the
place. (DEDUCED: log 88) -/
opaque signRandom : Nat → Nat → BitVec 8

/-- A byte of a quote's signature where every one of 814 tries was rejected, for which FIPS 204 gives no signature: a running
count and the place. (DEDUCED: log 88) -/
opaque noSignature : Nat → Nat → BitVec 8

/-- Where the identity region of the flash holds the digest of the device's public key (R384, Table 15.5 gives the region alone).
(DEDUCED: log 87) -/
opaque idDigestPlace : Nat

/-- Whether the regulator acknowledges the voltage request of S1 (R430): a running count. (DEDUCED: log 89) -/
opaque startAck : Nat → Bool

/-- The ROM's own digest, measured at S1 (R385, Table 15.11). -/
opaque romDigest : Nat → BitVec 8

/-- Digest of the ROM default block, used in a quote when the configuration is defaulted (R385). -/
opaque romDefaultDigest : Nat → BitVec 8

/-- The manufacturer field of IDCODE: the JEP106 code is not in the specification (R441). (DEDUCED: log 89) -/
opaque jep106 : BitVec 11

/-- The draw r that a warm start takes to choose its memory-test sample (R373). (DEDUCED: log 87) -/
opaque warmDraw : Nat → Nat

/-- Bytes of a save image whose layout the specification does not give (R333): count, offset. (DESIGN CHOICE: log 76) -/
opaque saveByte : Nat → Nat → BitVec 8

/-- Bytes of accumulators that stand open when the engines stop for a save (Table 13.3): matrix units with a tile in
progress, and the occupied part of the partial store; count, engine queue. (DESIGN CHOICE: log 76) -/
opaque openAccumulators : Nat → Nat → Nat

/-- KV_FMT of a partition of another node, as the manager knows it (R178): node, partition. (DESIGN CHOICE: log 46) -/
opaque targetKvFmt : Nat → Nat → Nat

/-- Package power estimate of POWER_EST: the specification gives its unit, not its value (R442). (DEDUCED: log 89) -/
opaque powerEstimate : Nat → BitVec 16

/-- The measured requests of VDD_HUB during S1 in millivolts (R430), before the limits are applied. -/
opaque speedMonitorMillivolts : Int → Nat

/-- Which of a class's eligible targets of a pool list the manager takes (R19, Table 1.3 gives weights
but no draw): running count, list length. (DESIGN CHOICE: log 46) -/
opaque poolPick : Nat → Nat → Nat

/-- Hops a frame is given when it leaves its source (Table 11.2 gives only the range 1 to 63).
(DESIGN CHOICE: log 38) -/
opaque firstTtl : Nat

/-- Payload bytes of a CONTROL frame: the specification gives 64 for a cancel and no layout for any other message.
(DESIGN CHOICE: log 51) -/
opaque ctlBytes : Ctl → Nat

/-- Payload bytes of a PTP message, a JOIN frame and a PATH_NOTICE, by TYPE. (DESIGN CHOICE: log 51) -/
opaque plainBytes : Nat → Nat

/-- Traffic class of the READ_REQ frames of a DMA instruction (R443 names none), by opcode. (DESIGN CHOICE: log 38) -/
opaque dmaClass : Nat → Nat

/-- SRC_UNIT of a frame that no unit of Table 11.2 sends: an answer to a read, an ACK frame, by TYPE.
(DESIGN CHOICE: log 38) -/
opaque answerUnit : Nat → Nat

/-- Bytes of a class that an encapsulated port holds before it pauses the class at its peer (R275 has it send priority flow
control and gives no threshold), at most 256 KiB. (DESIGN CHOICE: log 63) -/
opaque pauseAbove : Nat

/-- Frames that a NATIVE peer, whose link CRC failed, has had sent again since the last frame boundary (R274): running count.
(DESIGN CHOICE: log 63) -/
opaque linkResent : Nat → Nat

/-- Whether the switch had begun to forward a frame when its link CRC proved wrong (R274): running count.
(DESIGN CHOICE: log 63) -/
opaque begunForward : Nat → Bool

/-- Quality and identity of the node's own PTP clock, and whether it measures delay peer to peer (R299 names the standard and
gives none of them). (PRESUMED: log 102) -/
opaque ptpQuality : Nat
/-- PRESUMED: log 102. -/
opaque ptpIdentity : Nat
/-- PRESUMED: log 102. -/
opaque ptpPeerToPeer : Bool
/-- Whether the node sends its Sync in two steps. (PRESUMED: log 102) -/
opaque ptpTwoStep : Bool

/-- Delay bin of a head frame that has waited less than 10 ns (Table 12.3 gives none). (DESIGN CHOICE: log 63) -/
opaque shortDelayBin : Nat

/-- Where a receiver puts its own copies of a request's structures (R52 and R64 do not say): the structure (0 page table,
1 sampler record, 2 token log), the job, the partition and the slot; in units of 64 bytes. (DESIGN CHOICE: log 42) -/
opaque ownCopy : Nat → Nat → Nat → Nat → Nat

/-- Where every member of a cache set keeps a parked copy of a request (R53 and R297 do not say): the structure (0 manifest,
sampler record and page table, 1 token log), the request, NEXT_POS of the copy, the first slot address that the set's lead
has allocated to it; in units of 4,096 bytes. (DESIGN CHOICE: log 42) -/
opaque parkedCopy : Nat → Nat → Nat → Nat → Nat

/-- Length in bytes and digest of a route book (Table 1.3), whose byte layout the specification does not give.
(DESIGN CHOICE: log 51) -/
opaque bookBytes : Book → Nat
/-- DESIGN CHOICE: log 51. -/
opaque bookDigest : Book → BitVec 512

/-- The job that serves a tenant's requests (R389 has a member of a cache set know it, and no manifest or frame names it):
TENANT. (DESIGN CHOICE: log 45) -/
opaque requestJob : Nat → Nat

/-- Layers of the model of a program image (R64 takes them from the loaded program, whose header has no such field):
IMAGE_ID. (DESIGN CHOICE: log 44) -/
opaque layersOf : Nat → Nat

/-- The token that CV_JOIN writes where the log entry cannot be read (R182 states none): running count.
(DESIGN CHOICE: log 33) -/
opaque unreadToken : Nat → Nat

/-- Where the manager keeps a request's prompt log, which begins with the sampler record (Tables 2.10, 2.12; no rule places
it): the request; in units of 64 bytes. (DESIGN CHOICE: log 42) -/
opaque promptLogAddr : Nat → Nat

/-- Which status of Table 17.1 FAB_CARAVAN writes to sC where its request ends before a send and none is named (Table 4.14),
as a place among those other than OK: running count. (DESIGN CHOICE: log 48) -/
opaque unstatedStatus : Nat → Nat

/-- Duration that PT_LAST_NS reports (R332 and R340 to R342 give bounds, no value): running count. (DEDUCED: log 75) -/
opaque commandNs : Nat → BitVec 64

/-- What the host's configuration requests set, none where none came: VFs enabled, the size of the PF's BAR2 as the power of two
above 1 GiB modulo 7, the functions with MSI-X enabled, those with it masked (R349, R351). No command of the table carries a
configuration request: a running count. (DESIGN CHOICE: log 83) -/
opaque hostSetup : Nat → Option (Nat × Nat × BitVec 17 × BitVec 17)

/-- CERT_LEN and CERT_OFF: where the device certificate lies in the identity region (R384), whose layout the specification
does not give. -/
opaque certPlace : BitVec 64

/-- What a flash byte holds after PROGRAM where it was not erased (R381 says what programming does to erased flash):
the byte before, the byte programmed. (DEDUCED: log 88) -/
opaque programmedOver : BitVec 8 → BitVec 8 → BitVec 8

end Sys2Proof.Config
end

