-- ==== Sys2Proof/Machine/Bits.lean ====
section
/-! DEFINITION. Bit fields, little-endian bytes (R7), sparse tables, CRC-32C (R58) and SHA3-512. -/

namespace Sys2Proof.Machine

/-! ## Bit fields -/

/-- Field `[hi:lo]` of a word as a number (R6). -/
def fld {n : Nat} (w : BitVec n) (hi lo : Nat) : Nat := (w.toNat >>> lo) % 2 ^ (hi + 1 - lo)

/-- One bit of a word. -/
def bitOf {n : Nat} (w : BitVec n) (i : Nat) : Bool := w.getLsbD i

/-- The word with field `[hi:lo]` replaced by the low bits of `v`; every other bit stands. -/
def setFld {n : Nat} (w : BitVec n) (hi lo v : Nat) : BitVec n :=
  (w &&& ~~~(BitVec.ofNat n ((2 ^ (hi + 1 - lo) - 1) <<< lo))) |||
    BitVec.ofNat n ((v % 2 ^ (hi + 1 - lo)) <<< lo)

/-- The mask whose bits `hi` to `lo` are one. -/
def maskBits (n hi lo : Nat) : BitVec n := BitVec.ofNat n ((2 ^ (hi + 1 - lo) - 1) <<< lo)

def b2n (b : Bool) : Nat := if b then 1 else 0

/-- Quotient rounded up. -/
def ceilDiv (a b : Nat) : Nat := if b = 0 then 0 else (a + b - 1) / b

/-- A number of `w` bits read as two's complement. -/
def signedOf (w v : Nat) : Int := if v % 2 ^ w < 2 ^ (w - 1) then (v % 2 ^ w : Nat) else ((v % 2 ^ w : Nat) : Int) - (2 ^ w : Nat)

/-- An integer in `w`-bit two's complement. -/
def toTwos (w : Nat) (i : Int) : Nat := (i % ((2 ^ w : Nat) : Int)).toNat

/-! ## Little-endian bytes -/

/-- The `n` low bytes of a number, lowest first (R7). -/
def leBytes : Nat → Nat → Bytes
  | 0, _ => []
  | n + 1, v => BitVec.ofNat 8 v :: leBytes n (v / 256)

/-- The number whose little-endian bytes these are (R7). -/
def ofLe : Bytes → Nat
  | [] => 0
  | b :: r => b.toNat + 256 * ofLe r

def wordBytes (w : Word) : Bytes := leBytes 8 w.toNat
def wordOf (b : Bytes) : Word := BitVec.ofNat 64 (ofLe (b.take 8))

/-- Bytes `off` to `off + n - 1`, as a number. -/
def leAt (b : Bytes) (off n : Nat) : Nat := ofLe ((b.drop off).take n)

/-- The bytes with `n` bytes from `off` replaced by the little-endian bytes of `v`. -/
def setLe (b : Bytes) (off n v : Nat) : Bytes := b.take off ++ leBytes n v ++ b.drop (off + n)

def zeros (n : Nat) : Bytes := List.replicate n 0

/-- Pad with zero bytes, or cut, to a length. -/
def fitBytes (n : Nat) (b : Bytes) : Bytes := (b ++ zeros (n - b.length)).take n

/-! ## Sparse tables -/

/-- The value a table holds at a key; `d` gives what an unlisted key holds. -/
def tabGet {β : Type} (d : Nat → β) : Tab β → Nat → β
  | [], k => d k
  | (k', v) :: r, k => if k' = k then v else tabGet d r k

/-- Insert at the place that keeps the keys rising. -/
def tabInsert {β : Type} (k : Nat) (v : β) : Tab β → Tab β
  | [] => [(k, v)]
  | (k', v') :: r => if k < k' then (k, v) :: (k', v') :: r else (k', v') :: tabInsert k v r

/-- Remove every entry of a key. -/
def tabErase {β : Type} (k : Nat) : Tab β → Tab β
  | [] => []
  | (k', v') :: r => if k' = k then tabErase k r else (k', v') :: tabErase k r

/-- Write a value: the default removes the entry, so that equal tables are equal data. -/
def tabSet {β : Type} [DecidableEq β] (d : Nat → β) (t : Tab β) (k : Nat) (v : β) : Tab β :=
  if v = d k then tabErase k t else tabInsert k v (tabErase k t)

/-- Remove the entries of the keys `lo` to `lo + n - 1`: they hold the default again. -/
def tabClear {β : Type} (t : Tab β) (lo n : Nat) : Tab β :=
  t.filter fun e => decide (e.1 < lo) || decide (lo + n ≤ e.1)

/-- The canonical form: keys strictly rising, no entry equal to what an unlisted key holds. -/
def tabWf {β : Type} [DecidableEq β] (d : Nat → β) : Tab β → Bool
  | [] => true
  | (k, v) :: r =>
    decide (v ≠ d k) && (match r with | [] => true | (k', _) :: _ => decide (k < k')) && tabWf d r

/-- Lookup of a key that may be absent. -/
def tabFind {β : Type} (t : Tab β) (k : Nat) : Option β :=
  match t with
  | [] => none
  | (k', v) :: r => if k' = k then some v else tabFind r k

/-- Write or remove a key of a table whose unlisted keys hold nothing. -/
def tabPut {β : Type} (t : Tab β) (k : Nat) (v : β) : Tab β := tabInsert k v (tabErase k t)

/-! ## Byte memories: sparse tables of bytes -/

/-- What an unlisted byte of a memory reads as (assumption log 4). -/
def memDefault : Nat → Byte := fun _ => 0

/-- DESIGN CHOICE: log 4. -/
def memByte (m : Tab Byte) (a : Nat) : Byte := tabGet memDefault m a

def memSet (m : Tab Byte) (a : Nat) (b : Byte) : Tab Byte := tabSet memDefault m a b

def memRead (m : Tab Byte) (a : Nat) : Nat → Bytes
  | 0 => []
  | n + 1 => memByte m a :: memRead m (a + 1) n

def memWrite (m : Tab Byte) (a : Nat) : Bytes → Tab Byte
  | [] => m
  | b :: r => memWrite (memSet m a b) (a + 1) r

/-- The memory after a run of bytes is set to zero. -/
def memZero (m : Tab Byte) (a n : Nat) : Tab Byte := tabClear m a n

/-- Copy `n` bytes from `src` to `dst` of two key ranges of one memory, listed entries only. -/
def memMoveRange (from_ to_ : Tab Byte) (src dst n : Nat) : Tab Byte :=
  ((from_.filter fun e => decide (src ≤ e.1) && decide (e.1 < src + n)).foldl
    (fun m e => memSet m (e.1 - src + dst) e.2) (memZero to_ dst n))

def memLe (m : Tab Byte) (a n : Nat) : Nat := ofLe (memRead m a n)
def memWord (m : Tab Byte) (a : Nat) : Word := BitVec.ofNat 64 (memLe m a 8)

/-! ## CRC-32C -/

/-- One bit of the reflected CRC-32C division, polynomial 0x1EDC6F41 reflected (R58). -/
def crcBit (c : BitVec 32) : BitVec 32 :=
  if c.getLsbD 0 then (c >>> 1) ^^^ 0x82F63B78#32 else c >>> 1

def crcByte (c : BitVec 32) (b : Byte) : BitVec 32 :=
  crcBit (crcBit (crcBit (crcBit (crcBit (crcBit (crcBit (crcBit (c ^^^ b.setWidth 32))))))))

/-- CRC-32C (R58): initial value and final XOR of all ones. -/
def crc32c (b : Bytes) : BitVec 32 := (b.foldl crcByte 0xFFFFFFFF#32) ^^^ 0xFFFFFFFF#32

/-! ## SHA3-512 -/

abbrev Keccak := List (BitVec 64)

def lane (a : Keccak) (x y : Nat) : BitVec 64 := a.getD ((x % 5) + 5 * (y % 5)) 0

def rotl64 (w : BitVec 64) (n : Nat) : BitVec 64 := w.rotateLeft n

def keccakRot : List Nat :=
  [0, 1, 62, 28, 27, 36, 44, 6, 55, 20, 3, 10, 43, 25, 39, 41, 45, 15, 21, 8, 18, 2, 61, 56, 14]

def keccakRC : List (BitVec 64) :=
  [0x0000000000000001, 0x0000000000008082, 0x800000000000808A, 0x8000000080008000,
   0x000000000000808B, 0x0000000080000001, 0x8000000080008081, 0x8000000000008009,
   0x000000000000008A, 0x0000000000000088, 0x0000000080008009, 0x000000008000000A] ++
  [0x000000008000808B, 0x800000000000008B, 0x8000000000008089, 0x8000000000008003,
   0x8000000000008002, 0x8000000000000080, 0x000000000000800A, 0x800000008000000A,
   0x8000000080008081, 0x8000000000008080, 0x0000000080000001, 0x8000000080008008]

/-- One round of Keccak-f[1600]: theta, rho and pi, chi, iota. -/
def keccakRound (a : Keccak) (rc : BitVec 64) : Keccak :=
  let c := (List.range 5).map fun x => lane a x 0 ^^^ lane a x 1 ^^^ lane a x 2 ^^^ lane a x 3 ^^^ lane a x 4
  let d := (List.range 5).map fun x => c.getD ((x + 4) % 5) 0 ^^^ rotl64 (c.getD ((x + 1) % 5) 0) 1
  let t := (List.range 25).map fun i => lane a i (i / 5) ^^^ d.getD (i % 5) 0
  let r := (List.range 25).map fun i => rotl64 (t.getD i 0) (keccakRot.getD i 0)
  -- pi: B[y][2x + 3y] takes the lane (x, y)
  let b := (List.range 25).map fun i =>
    let x := i % 5
    let y := i / 5
    r.getD (((x + 3 * y) % 5) + 5 * x) 0
  (List.range 25).map fun i =>
    let x := i % 5
    let y := i / 5
    let v := lane b x y ^^^ (~~~(lane b (x + 1) y) &&& lane b (x + 2) y)
    if i = 0 then v ^^^ rc else v

def keccakF (a : Keccak) : Keccak := keccakRC.foldl keccakRound a

/-- Absorb whole 72-byte blocks, `n` of them at most. -/
def sha3Absorb : Nat → Keccak → Bytes → Keccak
  | 0, a, _ => a
  | n + 1, a, b =>
    if b.length < 72 then a
    else
      let w := (List.range 9).map fun i => wordOf (b.drop (8 * i))
      let a' := (List.range 25).map fun i => a.getD i 0 ^^^ w.getD i 0
      sha3Absorb n (keccakF a') (b.drop 72)

/-- The SHA3-512 digest, 64 bytes (R103, R385, R418). -/
def sha3_512 (b : Bytes) : Bytes :=
  let r := b.length % 72
  let pad : Bytes := if r = 71 then [0x86] else [0x06] ++ zeros (70 - r) ++ [0x80]
  let p := b ++ pad
  let a := sha3Absorb (p.length / 72) (List.replicate 25 0) p
  (List.range 8).foldl (fun acc i => acc ++ wordBytes (a.getD i 0)) []

end Sys2Proof.Machine
end

