-- ==== Sys2Proof/Machine/Regs.lean ====
section
/-! DEFINITION. The register tables of BAR0: every register of Tables 6.1 to 18.8 with its fields, their access
types (R8), reset values (R417) and ranges. Offsets are those of Tables 18.1 and 18.2. -/

namespace Sys2Proof.Machine

/-- One field of a register: bits `hi` to `lo`, the access type of Table 0.5, the reset value and, for `rwIn`,
the least and greatest value and the multiple a written value keeps (a value outside leaves the field unchanged). -/
inductive RegField where
  | ro (hi lo reset : Nat)
  | rw (hi lo reset : Nat)
  | rwIn (hi lo reset least greatest multiple : Nat)
  | w1c (hi lo : Nat)
  | w1s (hi lo : Nat)
  | rc (hi lo : Nat)
  deriving DecidableEq, Repr

/-- A family of registers: the first offset, two strides with their counts, the fields. -/
structure RegFamily where
  base : Nat
  stride1 : Nat
  count1 : Nat
  stride2 : Nat
  count2 : Nat
  fields : List RegField
  deriving DecidableEq, Repr

/-- A 64-bit counter, read only, reset 0. -/
def counter64 : List RegField := [.ro 63 0 0]

def regsGlb : List RegFamily := [
  /- GLB_ID -/ ⟨0x0, 0x1, 1, 0x1, 1, [.ro 63 32 0xa450, .ro 23 20 0x2, .ro 19 12 0x12, .ro 7 4 0x3, .ro 3 0 0x3]⟩,
  /- GLB_SERIAL -/ ⟨0x8, 0x1, 1, 0x1, 1, [.ro 63 0 0x0]⟩,
  /- GLB_SCRATCH -/ ⟨0x10, 0x1, 1, 0x1, 1, [.rw 63 0 0x0]⟩,
  /- CLK_STAT -/ ⟨0x800, 0x1, 1, 0x1, 1, [.w1c 37 37, .ro 36 13 0x0, .ro 12 5 0x0, .ro 4 4 0x0, .ro 3 3 0x0, .ro 2 2 0x0, .ro 1 1 0x0, .ro 0 0 0x0]⟩,
  /- CLK_T_CNT -/ ⟨0x810, 0x1, 1, 0x1, 1, counter64⟩,
  /- TEMP0 -/ ⟨0x818, 0x1, 1, 0x1, 1, [.ro 63 48 0x8000, .ro 47 32 0x8000, .ro 31 16 0x8000, .ro 15 0 0x8000]⟩,
  /- TEMP1 -/ ⟨0x820, 0x1, 1, 0x1, 1, [.ro 47 32 0x8000, .ro 31 16 0x8000, .ro 15 0 0x8000]⟩,
  /- BOOT_REPORT -/ ⟨0x1000, 0x1, 1, 0x1, 1, [.ro 63 48 0x0, .ro 40 32 0x0, .ro 19 19 0x0, .ro 18 18 0x0, .ro 17 17 0x0, .ro 16 16 0x0, .ro 9 8 0x0, .ro 7 4 0x0, .ro 3 0 0x0]⟩,
  /- WARM_NEXT -/ ⟨0x1008, 0x1, 1, 0x1, 1, [.w1s 0 0]⟩,
  /- BOOT_REC -/ ⟨0x1040, 0x40, 9, 0x8, 8, counter64⟩,
  /- RK_PARAM0 -/ ⟨0x2000, 0x1, 1, 0x1, 1, [.rwIn 57 48 0xa 1 1000 1, .rwIn 45 36 0x14 0 1000 1, .rwIn 34 24 0x40 1 1024 1, .rwIn 22 8 0x800 0 16384 1, .rwIn 5 0 0x18 4 63 1]⟩,
  /- RK_PARAM1 -/ ⟨0x2008, 0x1, 1, 0x1, 1, [.rwIn 61 48 0x32 1 10000 1, .rwIn 39 32 0xa 2 255 1, .rwIn 29 16 0x64 10 10000 1, .rwIn 9 0 0xa 1 1000 1]⟩,
  /- RK_STAT -/ ⟨0x2010, 0x1, 1, 0x1, 1, [.ro 45 44 0x0, .ro 43 43 0x0, .ro 42 42 0x0, .ro 41 32 0x0, .ro 31 16 0x0, .ro 15 0 0x0]⟩,
  /- RK_DRAIN -/ ⟨0x2018, 0x1, 1, 0x1, 1, [.ro 31 0 0x0]⟩,
  /- RK_STBY -/ ⟨0x2020, 0x1, 1, 0x1, 1, [.ro 63 48 0x0, .ro 31 31 0x0, .w1s 16 16, .rw 9 0 0x0]⟩,
  /- ADP_CMD_A -/ ⟨0x9000, 0x1, 1, 0x1, 1, [.rw 57 56 0x0, .rw 55 52 0x0, .rw 51 44 0x0, .rw 43 28 0x0, .rw 27 16 0x0]⟩,
  /- ADP_CMD_B -/ ⟨0x9008, 0x1, 1, 0x1, 1, [.rwIn 41 0 0x0 0 4398046511103 4096]⟩,
  /- ADP_STATUS -/ ⟨0x9010, 0x1, 1, 0x1, 1, [.ro 47 32 0x0, .ro 31 31 0x0, .ro 30 30 0x0]⟩,
  /- JOB_MASKS -/ ⟨0xa000, 0x40, 16, 0x1, 1, [.rw 63 63 0x0, .rw 60 56 0x0, .rw 55 32 0x0, .rw 15 0 0x0]⟩,
  /- FAB_SHARE -/ ⟨0xa008, 0x40, 16, 0x1, 1, [.rw 63 0 0x0]⟩,
  /- POOL_BASE -/ ⟨0xa010, 0x40, 16, 0x1, 1, [.rwIn 41 0 0x0 0 4398046511103 2097152]⟩,
  /- POOL_SLOTS -/ ⟨0xa018, 0x40, 16, 0x1, 1, [.rw 63 32 0x0, .rwIn 31 0 0x0 0 4294967295 4096]⟩,
  /- POOL_FREE -/ ⟨0xa020, 0x40, 16, 0x1, 1, [.ro 31 0 0x0]⟩]

def regsPart : List RegFamily := [
  /- PT_CTL -/ ⟨0x100000, 0x10000, 16, 0x1, 1, [.rw 12 12 0x0, .rw 11 8 0x0, .rw 4 4 0x0, .rw 3 0 0x0]⟩,
  /- SAVE_ADDR -/ ⟨0x100008, 0x10000, 16, 0x1, 1, [.rwIn 41 0 0x0 0 4398046511103 2097152]⟩,
  /- PT_STAT -/ ⟨0x100010, 0x10000, 16, 0x1, 1, [.ro 63 48 0x0, .ro 47 38 0x200, .ro 37 30 0x80, .ro 29 27 0x4, .ro 24 24 0x0, .ro 23 20 0x0, .ro 19 17 0x1, .ro 16 16 0x0]⟩,
  /- PT_LAST_L -/ ⟨0x100018, 0x10000, 16, 0x1, 1, counter64⟩,
  /- PT_LAST_NS -/ ⟨0x100020, 0x10000, 16, 0x1, 1, counter64⟩,
  /- PT_LIVE -/ ⟨0x100028, 0x10000, 16, 0x8, 3, [.w1c 63 0]⟩,
  /- CLUSTER -/ ⟨0x100100, 0x10000, 16, 0x8, 16, [.ro 9 9 0x0, .ro 7 0 0x0]⟩,
  /- SEQ_STAT -/ ⟨0x101000, 0x10000, 16, 0x1, 1, [.ro 61 48 0x0, .ro 45 32 0x0, .ro 20 16 0x0, .ro 8 8 0x0, .ro 4 4 0x0, .ro 2 0 0x0]⟩,
  /- SEQ_CFG -/ ⟨0x101008, 0x10000, 16, 0x1, 1, [.rwIn 15 0 0x3e8 1 65535 1]⟩,
  /- SEQ_MFT_BASE -/ ⟨0x101010, 0x10000, 16, 0x1, 1, [.rw 23 0 0xbf0000]⟩,
  /- SEQ_FAULT_CNT -/ ⟨0x101018, 0x10000, 16, 0x1, 1, counter64⟩,
  /- SEQ_FAULT_DROP_CNT -/ ⟨0x101020, 0x10000, 16, 0x1, 1, counter64⟩,
  /- SEQ_HSRAM_WAIT_CLK -/ ⟨0x101028, 0x10000, 16, 0x1, 1, counter64⟩,
  /- SEQ_HSRAM_CORR_CNT -/ ⟨0x101030, 0x10000, 16, 0x1, 1, counter64⟩,
  /- SEQ_PERF -/ ⟨0x101100, 0x10000, 16, 0x8, 48, counter64⟩,
  /- MX_STAT -/ ⟨0x102000, 0x10000, 16, 0x1, 1, [.ro 7 4 0x0, .ro 3 0 0x0]⟩,
  /- MX_PARITY_CNT -/ ⟨0x102008, 0x10000, 16, 0x1, 1, counter64⟩,
  /- MX_BUSY_CLK -/ ⟨0x102010, 0x10000, 16, 0x1, 1, counter64⟩,
  /- DMA_BYTES_CNT -/ ⟨0x103000, 0x10000, 16, 0x1, 1, counter64⟩,
  /- DMA_BUSY_CLK -/ ⟨0x103008, 0x10000, 16, 0x1, 1, counter64⟩,
  /- ATT_GEOM -/ ⟨0x104000, 0x10000, 16, 0x1, 1, [.rw 27 24 0x3, .rwIn 23 16 0x1 1 16 1, .rwIn 15 8 0x1 1 64 1, .rwIn 1 0 0x1 0 2 1]⟩,
  /- ATT_WIDEN_CNT -/ ⟨0x104008, 0x10000, 16, 0x1, 1, counter64⟩,
  /- ATT_MISMATCH_CNT -/ ⟨0x104010, 0x10000, 16, 0x1, 1, counter64⟩,
  /- CV_BASE -/ ⟨0x105000, 0x10000, 16, 0x1, 1, [.rwIn 23 0 0x0 0 12574464 64]⟩,
  /- SMP_CV_CFG -/ ⟨0x105008, 0x10000, 16, 0x8, 4, [.rwIn 25 16 0x0 0 512 1, .rw 8 0 0x0]⟩,
  /- MIX_BUDGET -/ ⟨0x105028, 0x10000, 16, 0x1, 1, [.rwIn 11 0 0x200 0 2048 1]⟩,
  /- SMP counters -/ ⟨0x105040, 0x10000, 16, 0x8, 6, counter64⟩,
  /- CMP_REC_BASE -/ ⟨0x107000, 0x10000, 16, 0x1, 1, [.rwIn 23 0 0x0 0 12580864 32]⟩,
  /- CMP_REC_PTR -/ ⟨0x107008, 0x10000, 16, 0x1, 1, [.rw 13 8 0x0, .ro 5 0 0x0]⟩,
  /- CMP counters -/ ⟨0x107010, 0x10000, 16, 0x8, 8, counter64⟩]

def regsMu : List RegFamily := [
  /- MU_STAT -/ ⟨0x200000, 0x100, 32, 0x1, 1, [.ro 15 8 0x0, .ro 0 0 0x0]⟩,
  /- MU counters -/ ⟨0x200008, 0x100, 32, 0x8, 5, counter64⟩,
  /- NBU_STAT -/ ⟨0x200030, 0x100, 32, 0x1, 1, [.ro 22 16 0x0, .ro 13 13 0x0, .ro 12 12 0x0, .ro 11 8 0x0, .ro 3 3 0x0, .ro 2 2 0x0, .ro 1 1 0x0, .ro 0 0 0x0]⟩,
  /- NBU_PARK_CNT -/ ⟨0x200038, 0x100, 32, 0x1, 1, counter64⟩,
  /- NBU_PARK_MAX_NS -/ ⟨0x200040, 0x100, 32, 0x1, 1, [.rc 63 0]⟩,
  /- NBU counters -/ ⟨0x200048, 0x100, 32, 0x8, 6, counter64⟩,
  /- TIER_CFG -/ ⟨0x208000, 0x1, 1, 0x1, 1, [.ro 35 32 0x3, .rw 31 16 0x400, .rw 15 0 0x100]⟩,
  /- TIER_TIME -/ ⟨0x208008, 0x1, 1, 0x1, 1, [.rwIn 47 32 0x2710 50 65535 1, .rwIn 15 0 0x3e8 600 65535 1]⟩,
  /- TIER_MAP_B -/ ⟨0x208010, 0x1, 1, 0x1, 1, [.rw 63 0 0x0]⟩,
  /- TIER_MAP_A -/ ⟨0x208018, 0x1, 1, 0x1, 1, [.rw 63 62 0x0, .rw 20 0 0x0]⟩,
  /- TIER_MAP_STAT -/ ⟨0x208020, 0x1, 1, 0x1, 1, [.ro 47 32 0x0, .ro 31 31 0x0]⟩,
  /- TIER_FREE -/ ⟨0x208028, 0x1, 1, 0x1, 1, [.ro 52 32 0x0, .ro 16 0 0x0]⟩,
  /- FAR_FRAMES -/ ⟨0x208030, 0x1, 1, 0x1, 1, [.ro 20 0 0x0]⟩,
  /- TIER counters -/ ⟨0x208040, 0x8, 6, 0x1, 1, counter64⟩,
  /- NBU_PCFG -/ ⟨0x209000, 0x8, 16, 0x1, 1, [.rw 19 19 0x0, .rw 18 16 0x1, .rw 11 11 0x0, .rw 10 8 0x0, .rw 4 4 0x0, .rw 3 3 0x0, .rw 2 2 0x0, .rw 0 0 0x0]⟩]

def regsFab : List RegFamily := [
  /- PORT_CTL -/ ⟨0x300000, 0x100, 8, 0x1, 1, [.rw 28 28 0x0, .rw 27 16 0x1, .rw 3 3 0x1, .rw 2 1 0x0, .rw 0 0 0x0]⟩,
  /- PORT_STAT -/ ⟨0x300008, 0x100, 8, 0x1, 1, [.ro 41 32 0x0, .ro 2 2 0x0, .ro 1 1 0x0, .ro 0 0 0x0]⟩,
  /- MACs -/ ⟨0x300010, 0x100, 8, 0x8, 2, [.rw 47 0 0x0]⟩,
  /- IPV4 -/ ⟨0x300020, 0x100, 8, 0x1, 1, [.rw 63 32 0x0, .rw 31 0 0x0]⟩,
  /- IPV6 -/ ⟨0x300028, 0x100, 8, 0x8, 4, [.rw 63 0 0x0]⟩,
  /- TS_DELAY -/ ⟨0x300048, 0x100, 8, 0x1, 1, [.rw 63 32 0x0, .rw 31 0 0x0]⟩,
  /- PORT counters -/ ⟨0x300050, 0x100, 8, 0x8, 3, counter64⟩,
  /- FAB_NODE -/ ⟨0x301000, 0x1, 1, 0x1, 1, [.ro 41 32 0x0, .ro 25 16 0x0, .ro 9 0 0x0]⟩,
  /- FAB_JOIN -/ ⟨0x301008, 0x1, 1, 0x1, 1, [.ro 63 48 0x0, .ro 1 1 0x0, .w1s 0 0]⟩,
  /- CAPS -/ ⟨0x301010, 0x1, 1, 0x1, 1, counter64⟩,
  /- FAB_TIMERS -/ ⟨0x301018, 0x1, 1, 0x1, 1, [.rwIn 47 32 0x64 10 10000 1, .rwIn 31 16 0x14 5 1000 1, .rwIn 15 0 0xa 2 1000 1]⟩,
  /- FAB_ENCAP -/ ⟨0x301020, 0x1, 1, 0x1, 1, [.rw 31 16 0x88b5, .rw 15 0 0xa0f3]⟩,
  /- FAB counters -/ ⟨0x301040, 0x8, 10, 0x1, 1, counter64⟩,
  /- WINDOW +0 -/ ⟨0x302000, 0x400, 16, 0x10, 64, [.rw 63 63 0x0, .rw 62 62 0x0, .rw 61 61 0x0, .rw 60 60 0x0, .rw 59 50 0x0, .rw 47 32 0x0]⟩,
  /- WINDOW +8 -/ ⟨0x302008, 0x400, 16, 0x10, 64, [.rw 41 21 0x0, .rwIn 20 0 0x0 1 1245184 1]⟩,
  /- PTP_STAT -/ ⟨0x30a000, 0x1, 1, 0x1, 1, [.ro 2 2 0x0, .ro 1 1 0x0, .ro 0 0 0x0]⟩,
  /- PTP_OFFSET_NS -/ ⟨0x30a008, 0x1, 1, 0x1, 1, counter64⟩,
  /- PTP_CFG -/ ⟨0x30a010, 0x1, 1, 0x1, 1, [.rw 23 16 0x80, .rw 15 8 0x80, .rw 7 0 0x0]⟩,
  /- SHP -/ ⟨0x30b000, 0x100, 8, 0x10, 8, [.rw 48 48 0x0, .rwIn 47 32 0x400 66 65535 1, .rwIn 16 0 0x13880 0 80000 1]⟩,
  /- SHP_HOLD_CNT -/ ⟨0x30b008, 0x100, 8, 0x10, 8, counter64⟩,
  /- POL -/ ⟨0x30b800, 0x100, 8, 0x10, 8, [.rw 49 49 0x0, .rw 48 48 0x0, .rwIn 47 32 0x400 66 65535 1, .rwIn 16 0 0x13880 0 80000 1]⟩,
  /- POL_EXCEED_CNT -/ ⟨0x30b808, 0x100, 8, 0x10, 8, counter64⟩,
  /- DRR_W -/ ⟨0x30c000, 0x10, 8, 0x1, 1, [.rwIn 47 40 0x8 1 255 1, .rwIn 39 32 0x8 1 255 1, .rwIn 31 24 0x8 1 255 1, .rwIn 23 16 0x8 1 255 1, .rwIn 15 8 0x8 1 255 1, .rwIn 7 0 0x8 1 255 1]⟩,
  /- GATE_CTL -/ ⟨0x30d000, 0x100, 8, 0x1, 1, [.rwIn 44 18 0x0 1 100000000 1, .rwIn 17 9 0x0 1 256 1, .w1c 3 3, .ro 2 2 0x0, .w1s 1 1, .rw 0 0 0x0]⟩,
  /- ADMIN_BASE -/ ⟨0x30d008, 0x100, 8, 0x1, 1, [.rw 63 0 0x0]⟩,
  /- OPER_BASE -/ ⟨0x30d010, 0x100, 8, 0x1, 1, counter64⟩,
  /- OPER_CTL -/ ⟨0x30d018, 0x100, 8, 0x1, 1, [.ro 44 18 0x0, .ro 17 9 0x0]⟩,
  /- GATE_HOLD_CNT -/ ⟨0x30d020, 0x100, 8, 0x1, 1, counter64⟩,
  /- ADMIN_LIST -/ ⟨0x30e000, 0x1000, 8, 0x8, 256, [.rw 63 35 0x0, .rwIn 34 8 0x0 1 100000000 1, .rw 7 0 0x0]⟩,
  /- OPER_LIST -/ ⟨0x30e800, 0x1000, 8, 0x8, 256, counter64⟩]

def regsHist : List RegFamily := [
  /- HIST bins -/ ⟨0x320000, 0x200, 64, 0x8, 32, counter64⟩,
  /- HIST max -/ ⟨0x320100, 0x200, 64, 0x8, 2, [.rc 63 0]⟩,
  /- HIST_CTL -/ ⟨0x32f000, 0x1, 1, 0x1, 1, [.w1s 1 1, .rw 0 0 0x1]⟩]

def regsCxl : List RegFamily := [
  /- CXL_STAT -/ ⟨0x400000, 0x100, 24, 0x1, 1, [.w1c 15 15, .ro 14 14 0x0, .ro 13 13 0x0, .ro 6 4 0x0, .ro 3 0 0x0]⟩,
  /- CXL counters -/ ⟨0x400008, 0x100, 24, 0x8, 5, counter64⟩]

def regsHst : List RegFamily := [
  /- HST_LINK -/ ⟨0x500000, 0x1, 1, 0x1, 1, [.ro 11 8 0x0, .ro 7 4 0x0, .ro 0 0 0x0]⟩,
  /- BAR2_BASE -/ ⟨0x500010, 0x1, 1, 0x1, 1, [.rw 41 30 0x0]⟩,
  /- VF_BAR2_BASE -/ ⟨0x500108, 0x8, 16, 0x1, 1, [.rw 41 30 0x0]⟩,
  /- IMG_ADDR -/ ⟨0x500200, 0x1, 1, 0x1, 1, [.rwIn 41 0 0x0 0 4398046511103 4096]⟩,
  /- IMG_CTL -/ ⟨0x500208, 0x1, 1, 0x1, 1, [.w1s 16 16, .rw 15 0 0x0]⟩,
  /- IMG_STAT -/ ⟨0x500210, 0x1, 1, 0x1, 1, [.ro 63 48 0x0, .ro 47 32 0x0, .ro 31 16 0x0, .ro 0 0 0x0]⟩,
  /- HST counters -/ ⟨0x500300, 0x8, 4, 0x1, 1, counter64⟩,
  /- SQ_BASE -/ ⟨0x501000, 0x20, 64, 0x1, 1, [.rwIn 63 0 0x0 0 18446744073709551615 4096]⟩,
  /- SQ_CTL -/ ⟨0x501008, 0x20, 64, 0x1, 1, [.rw 4 4 0x0, .rwIn 3 0 0x4 4 12 1]⟩,
  /- SQ_HEAD -/ ⟨0x501010, 0x20, 64, 0x1, 1, [.ro 11 0 0x0]⟩,
  /- CQ_BASE -/ ⟨0x502000, 0x20, 64, 0x1, 1, [.rwIn 63 0 0x0 0 18446744073709551615 4096]⟩,
  /- CQ_CTL -/ ⟨0x502008, 0x20, 64, 0x1, 1, [.rw 42 32 0x0, .rw 31 24 0x0, .rw 23 8 0x0, .rw 5 5 0x0, .rwIn 4 0 0x4 4 16 1]⟩,
  /- CQ_TAIL -/ ⟨0x502010, 0x20, 64, 0x1, 1, [.ro 15 0 0x0]⟩,
  /- SQ_TAIL_DB -/ ⟨0x504000, 0x8, 64, 0x1, 1, [.rw 11 0 0x0]⟩,
  /- CQ_HEAD_DB -/ ⟨0x504800, 0x8, 64, 0x1, 1, [.rw 15 0 0x0]⟩,
  /- MSIX_TABLE: address -/ ⟨0x508000, 0x10, 2048, 0x1, 1, [.rw 63 32 0x0, .rw 31 0 0x0]⟩,
  /- MSIX_TABLE: vector control, data -/ ⟨0x508008, 0x10, 2048, 0x1, 1, [.rw 63 32 0x1, .rw 31 0 0x0]⟩,
  /- MSIX_PBA -/ ⟨0x510000, 0x8, 32, 0x1, 1, counter64⟩]

def regsSec : List RegFamily := [
  /- SEC_STAT -/ ⟨0x600000, 0x1, 1, 0x1, 1, [.ro 23 16 0x0, .ro 11 8 0x0, .ro 3 3 0x0, .ro 2 2 0x0, .ro 1 1 0x0, .ro 0 0 0x0]⟩,
  /- CFG_SEQ -/ ⟨0x600008, 0x1, 1, 0x1, 1, counter64⟩,
  /- CFG_CHECK -/ ⟨0x600010, 0x1, 1, 0x1, 1, counter64⟩,
  /- CERT -/ ⟨0x600018, 0x1, 1, 0x1, 1, [.ro 63 32 0x0, .ro 31 0 0x0]⟩,
  /- QUOTE_NONCE -/ ⟨0x600100, 0x8, 8, 0x1, 1, [.rw 63 0 0x0]⟩,
  /- QUOTE_ADDR -/ ⟨0x600140, 0x1, 1, 0x1, 1, [.rwIn 41 0 0x0 0 4398046511103 4096]⟩,
  /- QUOTE_CTL -/ ⟨0x600148, 0x1, 1, 0x1, 1, [.ro 63 48 0x0, .ro 1 1 0x0, .w1s 0 0]⟩,
  /- FLASH_CMD -/ ⟨0x600200, 0x1, 1, 0x1, 1, [.rw 63 32 0x0, .rw 15 13 0x0, .rw 12 0 0x0]⟩,
  /- FLASH_STAT -/ ⟨0x600208, 0x1, 1, 0x1, 1, [.ro 63 48 0x0, .ro 0 0 0x0]⟩,
  /- FLASH_BUF -/ ⟨0x601000, 0x8, 512, 0x1, 1, [.rw 63 0 0x0]⟩]

def regsMtr : List RegFamily := [
  /- MTR_MAP -/ ⟨0x700000, 0x1, 1, 0x1, 1, [.rw 63 63 0x0, .rw 43 32 0x0, .rw 15 0 0x0]⟩,
  /- MTR_CMD -/ ⟨0x700008, 0x1, 1, 0x1, 1, [.rw 63 62 0x0, .rw 11 0 0x0]⟩,
  /- DUMP_ADDR -/ ⟨0x700010, 0x1, 1, 0x1, 1, [.rwIn 41 0 0x0 0 4398046511103 64]⟩,
  /- MTR_STAT -/ ⟨0x700018, 0x1, 1, 0x1, 1, [.ro 63 48 0x0, .ro 31 31 0x0]⟩,
  /- MTR_SNAP -/ ⟨0x700040, 0x8, 8, 0x1, 1, counter64⟩,
  /- MTR_SNAP_TIME -/ ⟨0x700080, 0x1, 1, 0x1, 1, counter64⟩,
  /- MTR_UNMAPPED -/ ⟨0x700100, 0x8, 8, 0x1, 1, counter64⟩,
  /- SHARE_W -/ ⟨0x700200, 0x8, 4, 0x1, 1, [.rw 63 0 0x1010101010101010]⟩,
  /- ENG_CLK and SHR_BYTES -/ ⟨0x701000, 0x80, 32, 0x8, 10, counter64⟩,
  /- EVT_BASE -/ ⟨0x708000, 0x1, 1, 0x1, 1, [.rwIn 63 0 0x0 0 18446744073709551615 4096]⟩,
  /- EVT_CTL -/ ⟨0x708008, 0x1, 1, 0x1, 1, [.rw 33 32 0x0, .rw 31 24 0x0, .rw 23 8 0x0, .rw 5 5 0x0, .rwIn 4 0 0x4 4 16 1]⟩,
  /- EVT_TAIL -/ ⟨0x708010, 0x1, 1, 0x1, 1, [.ro 15 0 0x0]⟩,
  /- EVT_HEAD_DB -/ ⟨0x708018, 0x1, 1, 0x1, 1, [.rw 15 0 0x0]⟩,
  /- EVT_STAT -/ ⟨0x708020, 0x1, 1, 0x1, 1, [.ro 63 48 0x0, .ro 1 1 0x0, .w1c 0 0]⟩,
  /- EVT_DROP_CNT -/ ⟨0x708028, 0x1, 1, 0x1, 1, counter64⟩,
  /- EVT_CLASS_CNT -/ ⟨0x708040, 0x8, 8, 0x1, 1, counter64⟩,
  /- RK counters -/ ⟨0x708080, 0x8, 7, 0x1, 1, counter64⟩]

/-- The MSI-X tables and PBAs of the VFs, at places beyond the 64 MiB of the PF's BAR0 (Table 14.3). (DEDUCED: log 81) -/
def regsVf : List RegFamily := [
  /- MSIX_TABLE: address -/ ⟨0x4001000, 0x1000, 16, 0x10, 64, [.rw 63 32 0x0, .rw 31 0 0x0]⟩,
  /- MSIX_TABLE: vector control, data -/ ⟨0x4001008, 0x1000, 16, 0x10, 64, [.rw 63 32 0x1, .rw 31 0 0x0]⟩,
  /- MSIX_PBA -/ ⟨0x4001400, 0x1000, 16, 0x1, 1, counter64⟩]

/-- DESIGN CHOICE: log 80. -/
def regTable : List RegFamily :=
  regsGlb ++ regsPart ++ regsMu ++ regsFab ++ regsHist ++ regsCxl ++ regsHst ++ regsSec ++ regsMtr ++ regsVf

/-- Whether an offset is the first byte of a register of the family. -/
def RegFamily.holds (f : RegFamily) (off : Nat) : Bool :=
  decide (f.base ≤ off) &&
    (let d := off - f.base
     let i := min (d / f.stride1) (f.count1 - 1)
     let r := d - i * f.stride1
     let j := r / f.stride2
     decide (j < f.count2) && decide (r = j * f.stride2))

/-- The fields of the register at an offset; none where no register table defines it (R411). -/
def regFields (off : Nat) : Option (List RegField) :=
  (regTable.find? fun f => f.holds off).map (·.fields)

def RegField.resetInto (f : RegField) (w : Word) : Word :=
  match f with
  | .ro hi lo r | .rw hi lo r | .rwIn hi lo r _ _ _ => setFld w hi lo r
  | .w1c _ _ | .w1s _ _ | .rc _ _ => w

/-- The first of the two MU indices a partition's NBU queues drive at reset (Table 10.7). -/
def pcfgResetMu (n : Nat) : Nat := 2 * (n % 4)

/-- The value a register takes when SYS_RST_N deasserts (R417). Table 10.7 gives the MU index fields of
NBU_PCFGn by the partition's place on its bank die. (DESIGN CHOICE: log 2) -/
def regReset (off : Nat) : Word :=
  let w := ((regFields off).getD []).foldl (fun w f => f.resetInto w) 0
  if 0x209000 ≤ off ∧ off < 0x209080 then
    let k := pcfgResetMu ((off - 0x209000) / 8)
    setFld (setFld w 10 8 k) 18 16 (k + 1)
  else w

/-- The bits a read returns: those of the fields; a reserved bit reads as zero (R8). -/
def RegField.mask : RegField → Word
  | .ro hi lo _ | .rw hi lo _ | .rwIn hi lo _ _ _ _ | .w1c hi lo | .w1s hi lo | .rc hi lo => maskBits 64 hi lo

def fieldsMask (fs : List RegField) : Word := fs.foldl (fun m f => m ||| f.mask) 0

/-- One field after a host write of `v` whose bytes reach the bits of `lanes` (R8, R414): a value outside the
field's range leaves the field unchanged; the range is checked against the value that results. -/
def RegField.write (f : RegField) (lanes old v w : Word) : Word :=
  let merged := (v &&& lanes) ||| (old &&& ~~~lanes)
  match f with
  | .ro _ _ _ | .rc _ _ => w
  | .rw hi lo _ => setFld w hi lo (fld merged hi lo)
  | .rwIn hi lo _ a b m =>
    let x := fld merged hi lo
    if a ≤ x ∧ x ≤ b ∧ x % m = 0 then setFld w hi lo x else w
  | .w1c hi lo => w &&& ~~~(maskBits 64 hi lo &&& v &&& lanes)
  | .w1s hi lo => w ||| (maskBits 64 hi lo &&& v &&& lanes)

/-- A register after a host write under the access rules. -/
def fieldsWrite (fs : List RegField) (lanes old v : Word) : Word :=
  fs.foldl (fun w f => f.write lanes old v w) old

/-- Whether an RW or W1S field spans bit 31 and bit 32: only an 8-byte write reaches such a register (R414).
(DEDUCED: log 82) -/
def RegField.spansHalves : RegField → Bool
  | .rw hi lo _ | .rwIn hi lo _ _ _ _ | .w1s hi lo => decide (32 ≤ hi) && decide (lo < 32)
  | _ => false

def hasRc (fs : List RegField) : Bool := fs.any fun f => match f with | .rc _ _ => true | _ => false

/-! ## Offsets -/

def ptBase (p : PartId) : Nat := 0x100000 + p.val * 0x10000
def muBase (m : Nat) : Nat := 0x200000 + m * 0x100
def portBase (k : PortId) : Nat := 0x300000 + k.val * 0x100
def cxlBase (k : Nat) : Nat := 0x400000 + k * 0x100
def jobBase (j : Nat) : Nat := 0xA000 + j * 0x40
def pcfgOff (p : PartId) : Nat := 0x209000 + 8 * p.val
def shpOff (k : PortId) (c : Nat) : Nat := 0x30B000 + 0x100 * k.val + 0x10 * c
def polOff (k : PortId) (c : Nat) : Nat := 0x30B800 + 0x100 * k.val + 0x10 * c
def gateOff (k : PortId) : Nat := 0x30D000 + 0x100 * k.val
def sqOff (r : Nat) : Nat := 0x501000 + 0x20 * r
def cqOff (r : Nat) : Nat := 0x502000 + 0x20 * r
def sqDbOff (r : Nat) : Nat := 0x504000 + 8 * r
def cqDbOff (r : Nat) : Nat := 0x504800 + 8 * r

end Sys2Proof.Machine
end

