-- ==== Sys2Proof/Machine/Status.lean ====
section
/-! DEFINITION. The status values of Table 17.1 (R397) and the event codes of Table 17.4 (R400). -/

namespace Sys2Proof.Machine

def St.ok : Status := 0x0000#16
def St.cancelled : Status := 0x1001#16
def St.alreadyDone : Status := 0x1002#16
def St.staleEpoch : Status := 0x1003#16
def St.epochBusy : Status := 0x1004#16
def St.stateLost : Status := 0x1005#16
def St.reconstructed : Status := 0x1006#16
def St.recomputed : Status := 0x1007#16
def St.adapterPending : Status := 0x1008#16
def St.phaseIllegal : Status := 0x1009#16
def St.pagesExhausted : Status := 0x100A#16
def St.cxlLate : Status := 0x2001#16
def St.cxlPoison : Status := 0x2002#16
def St.cxlLinkDown : Status := 0x2003#16
def St.fenceTimeout : Status := 0x3001#16
def St.pathLost : Status := 0x3002#16
def St.joinVersion : Status := 0x3003#16
def St.joinDuplicate : Status := 0x3004#16
def St.abortLate : Status := 0x4001#16
def St.precisionWidened : Status := 0x4002#16
def St.precisionMismatch : Status := 0x4003#16
def St.baleOverrun : Status := 0x4004#16
def St.baleShort : Status := 0x4005#16
def St.baleInvalid : Status := 0x4006#16
def St.illegalInsn : Status := 0x4007#16
def St.stackFault : Status := 0x4008#16
def St.operandRange : Status := 0x4009#16
def St.descInvalid : Status := 0x400A#16
def St.coreAbsent : Status := 0x400B#16
def St.partOffline : Status := 0x5001#16
def St.cfgDefaulted : Status := 0x6001#16
def St.imgVersion : Status := 0x6002#16
def St.imgMalformed : Status := 0x6003#16
def St.imgCaps : Status := 0x6004#16
def St.imgKey : Status := 0x6005#16
def St.imgSignature : Status := 0x6006#16
def St.imgAltered : Status := 0x6007#16
def St.idUnavailable : Status := 0x6008#16
def St.pktInvalid : Status := 0x7001#16

/-- The codes of Table 17.1 other than OK. -/
def St.notOk : List Status :=
  [St.cancelled, St.alreadyDone, St.staleEpoch, St.epochBusy, St.stateLost, St.reconstructed, St.recomputed,
   St.adapterPending, St.phaseIllegal, St.pagesExhausted, St.cxlLate, St.cxlPoison, St.cxlLinkDown, St.fenceTimeout,
   St.pathLost, St.joinVersion, St.joinDuplicate, St.abortLate, St.precisionWidened, St.precisionMismatch,
   St.baleOverrun, St.baleShort, St.baleInvalid, St.illegalInsn, St.stackFault, St.operandRange, St.descInvalid,
   St.coreAbsent, St.partOffline, St.cfgDefaulted, St.imgVersion, St.imgMalformed, St.imgCaps, St.imgKey,
   St.imgSignature, St.imgAltered, St.idUnavailable, St.pktInvalid]

def Ev.bookInstalled : BitVec 16 := 0x0001#16
def Ev.nodeReady : BitVec 16 := 0x0002#16
def Ev.phaseReserved : BitVec 16 := 0x1801#16
def Ev.manifestRefused : BitVec 16 := 0x1802#16
def Ev.logCapReached : BitVec 16 := 0x1403#16
def Ev.logOverlapMismatch : BitVec 16 := 0x1804#16
def Ev.noTokenAllowed : BitVec 16 := 0x1405#16
def Ev.requestStateLost : BitVec 16 := 0x1806#16
def Ev.requestFailed : BitVec 16 := 0x1807#16
def Ev.cxlLate : BitVec 16 := 0x2401#16
def Ev.cxlPortDown : BitVec 16 := 0x2802#16
def Ev.pagePoisoned : BitVec 16 := 0x2803#16
def Ev.cxlContentsLost : BitVec 16 := 0x2804#16
def Ev.muFailed : BitVec 16 := 0x2C05#16
def Ev.tagMismatch : BitVec 16 := 0x3801#16
def Ev.manifestCrcRx : BitVec 16 := 0x3802#16
def Ev.writeUnmapped : BitVec 16 := 0x3803#16
def Ev.pathLost : BitVec 16 := 0x3804#16
def Ev.timeStepped : BitVec 16 := 0x3405#16
def Ev.nodeFailed : BitVec 16 := 0x3806#16
def Ev.droverFault : BitVec 16 := 0x4801#16
def Ev.manifestCrcLocal : BitVec 16 := 0x4802#16
def Ev.faultQueueFull : BitVec 16 := 0x4403#16
def Ev.mxWithdrawn : BitVec 16 := 0x4404#16
def Ev.cmpRingFull : BitVec 16 := 0x4405#16
def Ev.hubVoltage : BitVec 16 := 0x4C06#16
def Ev.partitionFault : BitVec 16 := 0x5801#16
def Ev.spareUsed : BitVec 16 := 0x5402#16
def Ev.coreAbsent : BitVec 16 := 0x5803#16
def Ev.numbering : BitVec 16 := 0x5004#16
def Ev.transitFailed : BitVec 16 := 0x5C05#16
def Ev.standbyTakeover : BitVec 16 := 0x6801#16
def Ev.imageRefused : BitVec 16 := 0x6802#16
def Ev.joinRefused : BitVec 16 := 0x6803#16
def Ev.cfgDefaulted : BitVec 16 := 0x6804#16
def Ev.stageFatal : BitVec 16 := 0x6C05#16
def Ev.idFailed : BitVec 16 := 0x6806#16
def Ev.imageAltered : BitVec 16 := 0x6807#16
def Ev.bootImageRefused : BitVec 16 := 0x6808#16
def Ev.managerStopped : BitVec 16 := 0x6809#16
def Ev.dispatchWait : BitVec 16 := 0x7401#16
def Ev.writeIgnored : BitVec 16 := 0x7402#16
def Ev.gateListRefused : BitVec 16 := 0x7403#16
def Ev.doorbellRange : BitVec 16 := 0x7404#16
def Ev.bar2Refused : BitVec 16 := 0x7405#16
def Ev.adapterDone : BitVec 16 := 0x7006#16

/-- Class of an event code, bits [15:12] (R399). -/
def evClass (e : BitVec 16) : Nat := fld e 15 12
/-- Severity of an event code, bits [11:10] (R399). -/
def evSeverity (e : BitVec 16) : Nat := fld e 11 10

end Sys2Proof.Machine
end

