-- ==== Sys2Proof/Machine/State.lean ====
section
/-! DEFINITION. The state of the MX1 block: everything the specification gives it, as plain data. -/

namespace Sys2Proof.Machine

/-! ## Drover (chapters 3 and 4) -/

/-- Drover states (R98, Table 3.8). -/
inductive DState where
  | reset | halted | running | dispatch | faulted | switchedOut | offline
  deriving DecidableEq, Repr

/-- Where an instruction of an engine queue stands: not started; started; started and waiting for the fabric,
the manager or another unit; its effect done and its retire due; skipped by ABORT. (DEDUCED: log 7) -/
inductive QPhase where
  | queued | running | waiting | done | skipped
  deriving DecidableEq, Repr

/-- What an instruction will say in an expansion completion record (Table 8.5). -/
structure BaleSum where
  tag : Nat
  unit : Nat
  exceeding : Nat
  short : Nat
  first : Nat
  deriving DecidableEq, Repr

/-- The geometry of a partition's KV pages (Table 6.1). -/
structure Geom where
  d : Nat
  kv : Nat
  qper : Nat
  kvFmt : Nat
  deriving DecidableEq, Repr

/-- What one member of an attention instruction will do, fixed when the instruction starts: its rows of the operands with
the number of positions each attends, and the descriptors of the pages attended (R164, R446). -/
structure Plan where
  slot : Nat
  qf : Nat
  strict : Bool
  layers : Nat
  layer : Nat
  rows : List (Nat × Nat)
  descs : List Word
  pageBytes : Nat
  deriving DecidableEq, Repr

/-- What an attention instruction takes at its start: the geometry (R156), the present cores (R167, R179), the plans of the
members that pass the checks of R446, and the output rows that get zeros (R166). -/
structure AttStart where
  geom : Geom
  cores : Nat
  plans : List Plan
  zeroRows : List Nat
  deriving DecidableEq, Repr

/-- What an instruction that waits for lines of another node has expanded so far and not yet counted (R219, R220). -/
structure BaleSeen where
  bales : Nat
  raws : Nat
  exceeding : Nat
  short : Nat
  starved : Nat
  deriving DecidableEq, Repr

/-- One entry of an engine queue: the instruction word and its captured operands (R79, R82). -/
structure QEntry where
  uid : Nat                  -- order of issue in this partition
  insn : InsnWord
  pc : Nat
  pkt : Option Nat           -- serial of the dispatch packet that issued it; none for the main context
  tag : Nat                  -- effective tag reference (R93, R113)
  waitOn : Option (Nat × BitVec 32)   -- wait condition gN ≥ sK, captured
  da : BitVec 256
  db : BitVec 256
  dc : BitVec 256
  sa : Word
  sb : Word
  sc : Word
  wb : Option Nat            -- scalar register written at retire (R83); 64 to 71 the dispatch bank
  wbVal : Word
  wbOk : Bool                -- the instruction had its effect: the register is written at retire
  phase : QPhase
  faultPost : Bool           -- the post sets FAULT (R94, R96, R121)
  committed : Bool           -- its commit point has passed (R121)
  cost : Nat                 -- CLK_A from start to retire (R122)
  members : List Nat         -- slots served, in row order (R336)
  bales : List BaleSum       -- completion records due at retire (R220)
  lines : List (Nat × Bytes) -- 64-byte lines read from another node (R443), by fabric address
  owed : Nat                 -- answers still outstanding
  sentN : Nat                    -- frames already sent
  waitFrom : Option Nat          -- CLK_T count at which it began to wait for replay-buffer room (R291)
  att : Option AttStart := none  -- what an attention instruction took at its start
  spt : Option (Tab Word) := none    -- page table entries as an NB instruction translated them at its start (R252)
  jobShare : Nat := 0            -- SHARE of the job at the start, charged for an instruction of no request (R336)
  seen : Option BaleSeen := none -- bales expanded while it waits for lines of another node
  deriving DecidableEq, Repr

/-- A fault record (R97, Table 3.7). -/
structure FaultRec where
  status : Status
  event : BitVec 16
  queue : Nat
  opcode : Nat
  tag : Nat
  pc : Nat
  disp : Bool
  signal : Nat
  insn : InsnWord
  detail0 : Word
  detail1 : Word
  time : Word
  seq : BitVec 32
  deriving DecidableEq, Repr

/-- A dispatch packet (R100, Table 3.9) with the ring it came from. -/
structure Packet where
  ring : Nat
  immediate : Bool
  target : Nat
  job : Nat
  cq : Nat
  id : Word
  args : List Word
  insns : List InsnWord
  sqHead : Nat                   -- head of its ring after it was taken
  discard : Bool                 -- a host reset came after it was taken: its record is discarded (R363)
  deriving DecidableEq, Repr

/-- A packet that has ended and waits for the instructions it issued (R101). -/
structure EndedPkt where
  serial : Nat
  pkt : Packet
  status : Status
  s56 : Word
  s57 : Word
  deriving DecidableEq, Repr

/-- A program image as read and checked (R103, Table 3.10), and where it was read from (R362). -/
structure Image where
  id : Word
  role : Role
  entries : List (BitVec 14)
  isaMax : Nat
  autostart : Bool
  code : List InsnWord
  data : Bytes
  dataLoad : Nat
  key : Nat
  digest : Bytes
  signed : Bytes                 -- header, code and data as read
  addr : Nat                     -- state address, or flash address of a boot image
  boot : Bool
  deriving DecidableEq, Repr

/-- The state of a drover (R98, Table 3.1). -/
structure Drover where
  dstate : DState
  resume : DState                -- the state a packet interrupted, or SWITCHED_OUT left
  mainPc : BitVec 14
  dispPc : BitVec 14
  stalled : Bool
  sregs : Vector Word 64
  bank : Vector Word 8           -- the dispatch context's s56 to s63
  dregs : Vector (BitVec 256) 16
  preds : BitVec 8               -- bit i is p_i; p0 always reads as true
  dpreds : BitVec 8              -- the dispatch context's p6 and p7, in bits 6 and 7
  stack : List (Bool × BitVec 14)  -- call stack, top first, at most 16; true: pushed by the dispatch context
  sigCount : Tab (BitVec 32)     -- 256 signals
  sigFault : Tab Bool
  queues : Vector (List QEntry) 9
  nextUid : Nat
  faults : List FaultRec         -- oldest first, at most 16
  faultSeq : BitVec 32
  pkt : Option Packet            -- the dispatch buffer
  pktSerial : Nat
  pktFault : Option Status       -- status of the running packet's first fault
  pktStarted : Bool              -- the running packet executed START
  ended : List EndedPkt
  fenceMain : Option Nat         -- entries issued before a stalled FENCE have a smaller uid
  fenceDisp : Option Nat
  lastRing : Nat                 -- ring of the packet taken last, for the round robin of R358
  waitRaised : Bool              -- DISPATCH_WAIT raised since the last YIELD (R102)
  waitAt : Option (Nat × Nat × Nat)  -- the dispatch wait being measured: CLK_T_CNT at its start, limit in µs, ring (R424)
  istore : List InsnWord
  image : Option Image           -- the installed image
  deriving DecidableEq, Repr

/-! ## Partitions (chapters 5 to 8 and 13) -/

/-- Partition states (R329, Table 13.2). -/
inductive PState where
  | serving | vacant | offline | testing | failed
  deriving DecidableEq, Repr

/-- What the MX1 keeps beside a manifest-table slot: whether it holds a request (R127), its bit of the request
fault map (R94), of the cancel table and of the done marks (R195, R196), where a cancel came from, and how much
of its token log the manager has acknowledged (R21). -/
structure Slot where
  held : Bool := false
  faulted : Bool := false
  cancel : Bool := false
  cancellers : List NodeId := []    -- nodes whose cancel frames have not been answered
  done : Bool := false
  logged : Nat := 0
  sentLog : Nat := 0             -- positions below it have been sent in appends (R21)
  leaving : Bool := false        -- frame 0 of a transfer has been sent
  gone : Bool := false           -- the commit point of its transfer has passed (R12, R13)
  stale : Bool := false          -- its transfer was refused with STALE_EPOCH (R28)
  oldSet : Option Nat := none    -- cache set that still holds its parked pages of an earlier PARK (R20)
  oldCopy : Option Nat := none   -- where that set keeps the copy that it was resumed from (R20)
  target : Option (NodeId × Nat) := none   -- target that the manager has assigned after a refusal (R13, R28)
  refuser : Option (NodeId × Nat) := none  -- target that refused its HANDOFF (R13, R28)
  parkAfter : Option (BitVec 16) := none   -- epoch under which a member refused its PARK or was lost (R297, Table 1.7)
  tokenHere : Bool := false      -- a token of it has been committed on this partition (Table 1.2)
  turnEnded : Bool := false      -- its turn has ended, as far as this partition knows (Table 1.2, Table 7.3)
  lost : Bool := false           -- reported STATE_LOST while its job was switched out (R395)
  deriving DecidableEq, Repr

/-- A parked request as a member of its cache set holds it (R53, R297): the partition that took it, its manifest, the
slot addresses of its pages, and the state address at which every member keeps this copy. -/
structure Parked where
  id : ReqId
  part : PartId
  mft : Manifest
  slots : List Nat
  base : Nat
  deriving DecidableEq, Repr

/-- A caravan being received (R45 to R48, R297). A member of a cache set receives one with `park` set.
(DESIGN CHOICE: log 43) -/
structure Incoming where
  src : NodeId
  unit : Nat                     -- the sending partition
  slot : Nat                     -- manifest-table slot it will take; 0 on a member of a cache set
  park : Bool
  mft : Manifest
  sampler : Bytes                -- empty until it is known
  accepted : Bool                -- frame 0 has been accepted
  frame0 : Frame
  lines : Tab Bytes              -- 64-byte lines read from other nodes before acceptance, by fabric address
  owed : Nat                     -- answers still outstanding
  got : Tab Bytes                -- payloads of the frames held, by frame index
  forms : Tab (Nat × Bool)       -- FMT and COMPRESSED that a page's frames brought, by frame index
  last : Option Nat              -- index that carried LAST
  pages : List Nat               -- pool slots taken, in the order of the page frames
  late : List Frame := []        -- frames not yet acknowledged: the place of their lines is not yet known (R278)
  deriving DecidableEq, Repr

/-- A caravan being sent by FAB_CARAVAN (R45, R296). -/
structure Outgoing where
  uid : Nat
  slot : Nat
  id : ReqId
  park : Bool
  dsts : List (NodeId × Nat)     -- destination nodes and partitions; one for a HANDOFF
  mft : Manifest                 -- as sent with frame 0; the later frames' tags go by it (R47)
  lead : NodeId
  accepted : List NodeId
  sentRest : List (NodeId × Nat) -- frames after frame 0 already sent to a destination
  allSent : List NodeId          -- destinations to which the last frame has gone
  slots : List Nat               -- slot addresses given by the lead
  deriving DecidableEq, Repr

/-- The fetch of a resumed request's parked pages (R298). -/
structure Fetch where
  slot : Nat
  id : ReqId
  base : Nat                     -- state address at which every member keeps the request's parked structures
  lines : Tab Bytes
  owed : Nat
  lost : List NodeId             -- members treated as lost
  pages : List Nat               -- pool slots taken for its pages
  deriving DecidableEq, Repr

/-- An installed grammar: its hold-SRAM offset and its length (R190). -/
structure Grammar where
  addr : Nat
  len : Nat
  deriving DecidableEq, Repr

/-- The rotary angles VX_ROPE holds from its last computation (Table 4.11). -/
structure RopeHeld where
  convoy : Nat
  rows : Nat
  half : Nat
  param : BitVec 32
  pos : List Nat
  deriving DecidableEq, Repr

/-- One of the 16 partitions. -/
structure Part where
  drv : Drover
  st : PState
  curJob : Option JobId
  role : Role
  staged : Option Image
  hsram : Tab Byte
  slots : Tab Slot
  absent : Vector (BitVec 8) 16  -- absent logical cores of each cluster
  spareUsed : BitVec 16
  mxAbsent : BitVec 4            -- matrix units absent since the last numbering
  mxSpare : BitVec 4
  retested : Option PartTest     -- result of the last RETEST, applied at ONLINE
  grammars : Tab Grammar
  mixRows : Nat                  -- prompt rows taken since the last reset of the count (R200)
  rope : Option RopeHeld
  incoming : List Incoming
  outgoing : List Outgoing
  fetches : List Fetch
  scopeDue : Bool                -- a write of SERVICE into SCOPE has not completed: an MU has still to switch (R388)
  deriving DecidableEq, Repr

/-- A job saved from a partition by SWITCH_OUT, with the save image's header as written (R333). (DESIGN CHOICE: log 76) -/
structure Saved where
  serial : Nat                   -- the number that the header of its image carries
  out : Bool                     -- the job stands SWITCHED_OUT in it; clear once it has been switched in
  part : PartId
  job : JobId
  addr : Nat
  saved : Part
  mftBase : Nat                  -- SEQ_MFT_BASE as saved
  liveMap : List Nat             -- live regions, rising
  header : Bytes
  accBytes : Nat
  perf : List Word               -- the drover's performance counters, part of its state (Table 3.1)
  modes : List (Nat × Bool)      -- modes of the partition's MUs, as the header records them (R333)
  deriving DecidableEq, Repr

/-- CONTROL frames held for a switched-out job (R348). -/
structure HeldCtl where
  part : PartId
  job : JobId
  src : NodeId
  ctl : Ctl
  deriving DecidableEq, Repr

/-! ## Memories and tiers (chapters 9 and 10) -/

/-- The byte memories. Near bytes stand at MU × 2^32 + device address, far bytes at port × 2^37 + device address
(R224). `poisonNear` and `poisonFar` list the 64-byte lines for which the device holds poison (R245). -/
structure Mem where
  near : Tab Byte
  far : Tab Byte
  poisonNear : List Nat
  poisonFar : List Nat
  deriving DecidableEq, Repr

/-- A write that pass 5 of a move holds (R240): its offset in the page, its bytes, when it came, and the instruction that
waits for it (partition, uid). -/
structure HeldWrite where
  off : Nat
  data : Bytes
  came : Nat
  who : Option (Nat × Nat)
  fn : Option Nat
  deriving DecidableEq, Repr

/-- A page being moved by a migration engine (R240). -/
structure Move where
  page : Nat
  die : Option Nat               -- bank die whose engine carries it; none: the engine of port die E (R239)
  farSrc : Bool
  farDst : Bool
  src : Nat
  dst : Nat
  pass : Nat
  dirty : List Nat               -- blocks written since the current pass began
  copying : List Nat             -- blocks the current pass copies
  held : List HeldWrite          -- writes held in pass 5, oldest first
  by_ : Option (PartId × Nat)    -- the TIER_MOVE (partition, uid) that asked; none for an autonomous move
  deriving DecidableEq, Repr

/-- Tier state beside the state page table. (DEDUCED: log 68) -/
structure Tier where
  moves : List Move
  oldFrames : List (Bool × Nat)  -- frames of moved pages not yet released
  retired : List Nat             -- near frames retired at S4
  accessed : List Nat            -- pages accessed since the last sample
  samples : Nat                  -- samples of the accessed bits taken (R237)
  lastSet : Tab Nat              -- per page, the last sample that found its accessed bit set
  demoting : Bool                -- FAR pages are being demoted, until NEAR_FREE reaches NEAR_HIGH_WM (Table 9.5)
  busLast : Vector Nat 4         -- NBU (index on its die) whose partial sums each die's bus carried last (R266)
  wrr : Tab (Nat × Nat)          -- per migration engine (0 of the port die, 1 + d of bank die d): as Port.wrr (R335)
  deriving DecidableEq, Repr

/-- An ordinary access waiting at an MU (R230, R261): when it arrived, when it took one of the 64 entries of the parked
queue, in nanoseconds of fabric time, and the function whose BAR2 access it is (R353). -/
structure ParkEntry where
  acc : MuAccess
  arrived : Nat
  entered : Option Nat
  who : Option (Nat × Nat)       -- the queue instruction that waits for it
  fn : Option Nat                -- the function whose BAR2 write it is (R353)
  deriving DecidableEq, Repr

/-- One memory unit and its near-bank unit. -/
structure Mu where
  trained : Bool
  proc : Bool
  switching : Bool
  target : Bool                  -- mode a switch in progress goes to
  before : Nat                   -- uid below which the driving queue's entries retire before the switch (R255)
  absent : Bool
  parked : List ParkEntry        -- oldest first; those past the 64th wait outside the queue
  held : List ParkEntry          -- accesses that wait for the end of a retrain, oldest first (R230)
  yielding : Bool
  refreshDue : Bool
  retraining : Bool
  retries : Nat                  -- retries of the transfer in progress
  resultBuf : List (BitVec 32)
  deriving DecidableEq, Repr

/-- One CXL root port. -/
structure Cxl where
  present : Bool
  up : Bool
  serial : Word
  dirtyCnt : Nat
  lateAt : Option Nat            -- fabric time of the last CXL_LATE event, in milliseconds (R244)
  deriving DecidableEq, Repr

/-! ## Fabric (chapters 11 and 12) -/

/-- A sequenced frame kept in the source replay buffer until it is acknowledged or abandoned (R291). -/
structure Sent where
  unit : Nat
  dst : NodeId
  seq : Nat
  frame : Frame
  sends : Nat                    -- sends counted under R293 and R286
  path : Option Nat              -- path of the last send; none before the first
  heldBack : Bool                -- no valid path: kept here and not sent (R286)
  owner : Option (PartId × Nat × Nat)  -- partition, queue and uid of the instruction that waits for it
  place : Nat                    -- where a read's answer goes: byte offset in the destination
  deriving DecidableEq, Repr

/-- A flagged line held until its source's earlier frames are visible (R280). -/
structure HeldLine where
  seq : Nat
  addr : Nat
  data : Bytes
  fence : Nat
  tag : Tag
  via : Nat                      -- port by which its frame came
  deriving DecidableEq, Repr

/-- A receiver window (R292). -/
structure RxWin where
  src : NodeId
  unit : Nat
  base : Nat
  marks : List Nat               -- SEQs above the base already visible, or held
  held : List HeldLine
  deriving DecidableEq, Repr

/-- One waiter of a combining entry (R288). -/
structure Waiter where
  src : NodeId
  unit : Nat
  seq : Nat
  tag : Tag
  cls : Nat                      -- class of its READ_REQ (R394)
  deriving DecidableEq, Repr

/-- A combining entry (R288). -/
structure Comb where
  dst : NodeId
  addr : Nat
  lines : Nat
  waiters : List Waiter          -- oldest first
  seq : Nat
  sends : Nat
  path : Option Nat              -- path of the last send; none before the first
  cls : Nat
  held : Bool                    -- no valid path: kept and not sent (R286)
  deriving DecidableEq, Repr

/-- A frame that waits for room in its unit's replay buffer (R291), with what `Sent` keeps of it. -/
structure Unsent where
  frame : Frame
  owner : Option (PartId × Nat × Nat)
  place : Nat
  deriving DecidableEq, Repr

/-- A fence being waited for by a FAB_FENCE (R294). -/
structure Fence where
  part : PartId
  uid : Nat
  id : Nat
  owed : List (NodeId × Nat)
  deriving DecidableEq, Repr

/-- A queued egress frame, with the CLK_T count at which it entered its queue; a stomped one ends with its link CRC inverted
(R274). -/
structure Queued where
  frame : Frame
  at_ : Nat
  stomped : Bool := false
  deriving DecidableEq, Repr

/-- A fabric port. -/
structure Port where
  up : Bool
  trained : Bool
  mismatch : Bool
  mode : BitVec 2                -- mode in effect since the link started
  peer : NodeId
  ingress : List Frame           -- received, waiting for the switch
  egress : Vector (List Queued) 8
  inject : List (Nat × Frame)    -- (job, frame) waiting for the job's injection bucket (R326)
  onWire : Option Queued
  encap : Encap                  -- encapsulation of the frame sent last (R276)
  sent : List Frame              -- link replay buffer, newest first (R274)
  again : List Frame             -- frames of it that the peer has asked for again, oldest first (R274)
  wrr : Tab (Nat × Nat)          -- per traffic class: share class served last at the injection, sends it still has (R335)
  deficit : Vector Nat 8
  turn : Nat                     -- class of 2 to 7 whose visit is current (R308)
  visited : Bool                 -- the current visit has added its quantum
  credit : Vector Nat 8          -- 64-byte blocks of credit held
  paused : BitVec 8              -- priorities that the peer pauses (R275)
  given : Vector Nat 8           -- 64-byte blocks of credit given to the peer since the link came up (R275)
  pausing : BitVec 8             -- priorities that this port pauses at its peer (R275)
  gateT : Option Nat             -- T of a pending list (R319)
  pathDelay : Int                -- mean path delay of the port's PTP link, ns (R299)
  syncAt : Option Int            -- corrected arrival of a two-step Sync whose Follow_Up is to come
  lastSync : Option (Int × Int)  -- the last Sync: its time and its corrected arrival
  askedAt : Option Int           -- departure of a delay request that is not yet answered
  deriving DecidableEq, Repr

/-- Fabric state of the node as a whole. -/
structure Fab where
  node : NodeId
  via : Nat                      -- port by which the frame being taken came, 0xFF for none (Table 17.5)
  fwd : Tab (BitVec 32)          -- forwarding entries (R305)
  seqs : Tab Nat                 -- next SEQ of (unit, destination), keyed unit × 1024 + node
  sent : List Sent               -- oldest first
  marks : List (NodeId × Nat)    -- (destination, path) marked invalid by a PATH_NOTICE
  wins : List RxWin
  acks : List (NodeId × List Word)   -- ack entries waiting for an ACK frame
  comb : List Comb
  fences : List Fence
  late : List (Nat × NodeId × Nat)   -- frames a faulted fence owed: (unit, destination, SEQ) (R295)
  backlog : List Unsent          -- frames that wait for room in the replay buffer, oldest first (R291)
  shp : Tab Word                 -- shaper and policer settings in effect, keyed by register offset (R311)
  shpWrites : Tab (Nat × Word)   -- CLK_T count, plus 1, of the last write of such a register, and its value before (R311)
  share : Tab Word               -- FAB_SHARE in effect (R326)
  tokens : Tab Int               -- token counts in bits, keyed by register offset
  inj : Tab Int                  -- injection buckets in half bits, keyed job × 8 + port
  locked : Bool
  holdover : Bool
  slew : Int                     -- nanoseconds of fabric time the servo still has to slew (R300)
  master : Option (PortId × PtpClock)  -- the grandmaster selected, and the port it is heard on (R299)
  foreign : List (PortId × Nat × Nat)  -- clocks heard: port, identity, fabric time of the last Announce (R299)
  within : Nat                   -- consecutive Sync messages inside 50 ns
  outside : Nat                  -- consecutive Sync messages outside 200 ns
  joined : Bool
  joinRefused : Bool
  aborted : List (NodeId × Word × Nat)   -- transfers a sender aborted: source, tag word 0, PHASE and EPOCH (R63)
  dropped : List (NodeId × Word × Nat)   -- transfers that failed here, whose late frames are discarded (R47)
  deriving DecidableEq, Repr

/-! ## Route keeper (chapter 1) -/

/-- Role of the node's route keeper (Table 18.5). -/
inductive RkRole where
  | worker | manager | standby | none
  deriving DecidableEq, Repr

/-- A manifest held for a newer book (R27). -/
structure HeldMft where
  src : NodeId
  frame : Frame
  deriving DecidableEq, Repr

/-- What the manager does once the standby has acknowledged a mirror (R34). -/
inductive AfterMirror where
  | admitted (r : ReqRec)
  | install
  | ackAppend (node : NodeId) (id : ReqId) (entries : Nat)
  | nothing
  deriving DecidableEq, Repr

/-- A book install in progress on the manager (R32). -/
structure Install where
  book : Book
  sent : Bool
  waiting : List NodeId          -- nodes that have not acknowledged
  busy : List NodeId             -- nodes that answered EPOCH_BUSY
  deriving DecidableEq, Repr

/-- A caravan that the manager sends: the ADMIT or RESUME caravan of a request (Table 1.2, R45). -/
structure MgrSend where
  id : ReqId
  dst : NodeId
  part : Nat
  accepted : Bool
  sent : Nat                     -- token-log frames already sent
  deriving DecidableEq, Repr

structure Mgr where
  role : RkRole
  cur : Option Book
  prev : Option Book
  requests : List ReqRec
  logs : List PromptLog
  nextId : Nat
  held : List HeldMft
  mirrors : List AfterMirror     -- waits for the standby's acknowledgement, oldest first
  install : Option Install
  waitingJoins : List (NodeId × Word)   -- nodes that have joined since the last book
  heldJoins : List (NodeId × Word)      -- JOINs that arrived during an install (R302)
  copyTo : Option NodeId         -- candidate standby of the standby command in progress (R422)
  copyStarted : Bool
  copyAcked : Bool
  failedNodes : List NodeId      -- nodes declared failed, to be marked REMOVED by the next book (R406)
  idBlock : Nat                  -- standby: first id of the last mirrored block (R35)
  takeover : Nat                 -- R36: 1 completing the last mirrored book, 2 installing the one after it
  mirrored : Option Book         -- standby: last mirrored book
  owners : Tab (NodeId × Nat)    -- hub directory: forwarded requests' new owner (R44)
  unacked : List Frame           -- ownership notes and appends to re-send (R38)
  lostCancels : List (ReqId × NodeId)   -- cancels abandoned on their way to a lead, for the next book's lead (R44)
  sends : List MgrSend
  deriving DecidableEq, Repr

/-! ## Host interface, metering, adapters, events, bring-up (chapters 7, 13 to 15, 17 and 19) -/

/-- A submission or completion ring's state beside its registers. -/
structure Ring where
  fetched : List Packet          -- prefetch slots (R358)
  phase : Bool                   -- PHASE bit of the current pass
  unsignalled : Nat              -- records written since the last signal (R360)
  reserved : Nat                 -- records reserved for packets taken and not yet completed (R358)
  deriving DecidableEq, Repr

/-- What the manager tells the host that admitted a request: that it is admitted (R34, R38), or that its state is lost,
with the restart position (R43). (DESIGN CHOICE: log 101) -/
inductive HostNote where
  | admitted (id : ReqId)
  | stateLost (id : ReqId) (restart : Nat)
  deriving DecidableEq, Repr

/-- DESIGN CHOICE: log 83. -/
structure HostIf where
  mem : Tab Byte                 -- host memory as the MX1 has written it
  rings : Vector Ring 64
  msix : Tab Nat                 -- signals sent, keyed function × 2048 + vector
  messages : List (Word × BitVec 32)   -- MSI-X messages sent: address and data, newest first (R350)
  vfEnable : Nat                 -- VFs enabled
  bar2Log : Nat                  -- the PF's BAR2 is 2 to this bytes (Table 14.2)
  msixOn : BitVec 17             -- functions whose MSI-X Enable is set
  msixMask : BitVec 17           -- functions whose Function Mask is set
  pba : List Nat                 -- vectors whose pending bit is set, function × 2048 + vector
  up : Bool
  training : Bool
  rate : BitVec 4
  width : BitVec 4
  flit : Bool
  latch : Tab Nat                -- R413: per function, (offset + 4) × 2^32 + latched half, plus one
  waiting : List (Nat × Bytes)   -- completion records waiting for room, with their ring
  bar2 : List (Nat × Bytes)      -- answers to BAR2 reads: status and data, newest first
  bar2Held : List (Nat × Nat × Nat)  -- BAR2 reads behind writes not yet visible: function, offset, length (R353)
  writer : Option Nat            -- the function whose BAR2 write is being made
  regAnswer : Option (Option Word)   -- answer to the last BAR0 read; inner none is Completer Abort
  notes : List HostNote          -- what the manager has told this node's host, oldest first
  loading : Option Image         -- image whose checks are running
  loadStatus : Status
  deriving DecidableEq, Repr

/-- One adapter slot (R75, Table 2.13). -/
structure AdSlot where
  gen : BitVec 16
  rank : Nat
  st : Nat                       -- 0 EMPTY, 1 LOADING, 2 READY, 3 RETIRING
  fmt : Nat
  refs : Nat
  addr : Nat
  deriving DecidableEq, Repr

structure Adapters where
  slots : Tab AdSlot             -- keyed handle × 2 + slot
  waiting : List (Word × Word)   -- pending commands (ADP_CMD_A, ADP_CMD_B), oldest first
  deriving DecidableEq, Repr

/-- Tariff counters and the tenant map (R337). -/
structure Meter where
  map : Tab Nat                  -- tenant to counter set
  sets : Tab Word                -- set × 8 + kind
  deriving DecidableEq, Repr

/-- An event as raised (Table 17.5). -/
structure EvRec where
  event : BitVec 16
  status : Status
  source : Nat
  unit : Nat
  time : Nat
  seq : BitVec 32
  req : Word
  detail : Bytes
  deriving DecidableEq, Repr

structure Events where
  seq : BitVec 32
  bootQueue : List EvRec         -- oldest first, at most 32 (R402)
  phase : Bool
  unsignalled : Nat
  everEnabled : Bool
  deriving DecidableEq, Repr

/-- Pins and clocks (chapters 18 and 19). -/
structure Pins where
  pwrGood : Bool
  sysRstN : Bool
  perstN : Bool
  bootMode : BitVec 2
  faultN : Bool
  thermAlertN : Bool
  thermtripN : Bool
  smbAlertN : Bool
  pps : Nat                      -- whole seconds pulsed on PPS_OUT
  ppsAt : Nat                    -- the whole second of fabric time last pulsed
  clkT : Nat                     -- CLK_T cycles since PWR_GOOD
  fabNs : Nat                    -- fabric time
  deriving DecidableEq, Repr

/-- The configuration in use (R377 to R380, Tables 15.7 and 15.9). -/
structure Cfg where
  node : NodeId
  mgr : NodeId
  stby : NodeId
  system : Bool
  stbyValid : Bool
  rate : Nat
  farIlv : Nat
  warmSample : Nat
  retentionS : Nat
  ports : List (Nat × List Word)
  ptp : Option (Nat × Nat × Nat) -- DOMAIN, PRIORITY1, PRIORITY2
  requireCustomer : Bool
  flashLock : Bool
  keys : List (Nat × Bytes)
  images : List (Nat × Nat × BitVec 16)   -- FLASH_OFF, IMAGE_BYTES, PMASK
  defaulted : Bool
  cause : Nat                    -- CFG_CAUSE (Table 15.8)
  seq : Nat
  check : Word
  bodyBytes : Nat
  digest : Bytes                 -- CFG_DIGEST of a quote
  deriving DecidableEq, Repr

/-- Bring-up (chapter 15). -/
structure Boot where
  started : Bool                 -- a start has begun since the last reset
  stage : Nat                    -- stages below this one have ended
  ready : Bool                   -- S8 reached
  fatal : Bool
  warm : Bool
  warmEligible : Bool            -- R366
  fullTest : Bool                -- the running start makes the full memory test
  cfg : Cfg
  idOk : Bool
  idDigest : Bytes               -- SHA3-512 digest of the derived device public key
  deviceSeed : Bytes             -- the seed that stands for the device key pair inside the security engine (R384)
  flash : Tab Byte
  flashBytes : Nat               -- 0 with no flash
  retention : Bool               -- the retention wait of S5 runs
  bootDigest : Bytes             -- BOOT_DIGEST, taken at S8
  startUs : Nat                  -- start time of the stage that runs, µs from PWR_GOOD
  farPresent : BitVec 24         -- ports whose device has passed the march of S5
  cold : Bool                    -- the start follows PWR_GOOD: S0 has run since then
  forceFull : Bool               -- the start follows a loss of root lock: FULL (R428)
  recovery : Bool                -- RECOVERY start
  flashOk : Bool                 -- S1 found a flash with a valid SFDP table
  deriving DecidableEq, Repr

/-- Supply control and the SMBus registers of Table 19.11 (R430, R442). -/
structure Board where
  hubMv : Nat                    -- voltage acknowledged last
  wantMv : Nat                   -- voltage requested
  unacked : Bool
  covers : Int                   -- temperature, in units of 0.125 °C, that the acknowledged voltage covers
  tempHigh : BitVec 16
  avsOn : Bool
  smbusUp : Bool                 -- S0 has ended since PWR_GOOD rose: the management block answers
  powerFrom : Nat                -- CLK_T count at the last reset
  deriving DecidableEq, Repr

/-- Boundary-scan instructions (R441). -/
inductive JtagInsn where
  | bypass | idcode | samplePreload | extest | clamp | highz | extestPulse | extestTrain
  deriving DecidableEq, Repr

/-- The test access port: the instruction in effect, the data register it selects, the boundary cells. -/
structure Jtag where
  insn : JtagInsn
  effect : JtagInsn              -- BYPASS where the instruction acts as BYPASS
  data : BitVec 32
  cells : List Bool
  driven : Bool                  -- pins are driven from the boundary cells
  floating : Bool                -- outputs are at high impedance
  deriving DecidableEq, Repr

/-- Why a step stops with a fault. -/
inductive Fault where
  /-- Raised by no command of this block: every command of the table has an effect or leaves the state as it is.
  Safe. -/
  | noSuchFault
  deriving DecidableEq, Repr

/-- Why a step refuses. -/
inductive Refusal where
  /-- A command that has no meaning yet; its arm in Dispatch.lean raises it. Safe. -/
  | notModelled (mnemonic : String)
  deriving DecidableEq, Repr

/-- The state of the MX1. (DESIGN CHOICE: log 92) -/
structure State where
  pending : List Instr           -- commands that wait, first in, first out
  pins : Pins
  bar0 : Tab Word                -- registers, keyed by offset; an unlisted one holds its reset value
  parts : Vector Part 16
  saves : List Saved
  remotePosts : List (PartId × JobId × Nat)   -- SIG_REMOTE posts on their way: target, job, signal (R91)
  heldCtl : List HeldCtl         -- R348
  mem : Mem
  spt : Tab Word                 -- state page table, keyed by page index (R68)
  tier : Tier
  mus : Vector Mu 32
  cxl : Vector Cxl 24
  pools : Vector (List Nat) 16   -- slots of each job's KV page pool in use, rising (R328)
  parked : List Parked           -- parked requests stored here, oldest first (R53, R297)
  ports : Vector Port 8
  fab : Fab
  mgr : Mgr
  host : HostIf
  adapters : Adapters
  meter : Meter
  events : Events
  boot : Boot
  board : Board
  jtag : Jtag
  freeCount : Nat                -- the model's own: numbers the free values it takes
  deriving DecidableEq, Repr

/-! ## Reset -/

/-- DESIGN CHOICE: log 2. -/
def Drover.reset : Drover where
  dstate := .reset
  resume := .reset
  mainPc := 0
  dispPc := 0
  stalled := false
  sregs := Vector.replicate 64 0
  bank := Vector.replicate 8 0
  dregs := Vector.replicate 16 0
  preds := 0
  dpreds := 0
  stack := []
  sigCount := []
  sigFault := []
  queues := Vector.replicate 9 []
  nextUid := 0
  faults := []
  faultSeq := 0
  pkt := none
  pktSerial := 0
  pktFault := none
  pktStarted := false
  ended := []
  fenceMain := none
  fenceDisp := none
  lastRing := 0
  waitRaised := false
  waitAt := none
  istore := []
  image := none

/-- DESIGN CHOICE: log 2. -/
def Part.reset : Part where
  drv := Drover.reset
  st := .vacant
  curJob := none
  role := .unset
  staged := none
  hsram := []
  slots := []
  absent := Vector.replicate 16 0
  spareUsed := 0
  mxAbsent := 0
  mxSpare := 0
  retested := none
  grammars := []
  mixRows := 0
  rope := none
  incoming := []
  outgoing := []
  fetches := []
  scopeDue := false

def Mu.reset : Mu where
  trained := false
  proc := false
  switching := false
  target := false
  before := 0
  absent := false
  parked := []
  held := []
  yielding := false
  refreshDue := false
  retraining := false
  retries := 0
  resultBuf := []

def Cxl.reset : Cxl where
  present := false
  up := false
  serial := 0
  dirtyCnt := 0
  lateAt := none

def Port.reset : Port where
  up := false
  trained := false
  mismatch := false
  mode := 0
  peer := 0
  ingress := []
  egress := Vector.replicate 8 []
  inject := []
  onWire := none
  encap := .native
  sent := []
  again := []
  wrr := []
  deficit := Vector.replicate 8 0
  turn := 2
  visited := false
  credit := Vector.replicate 8 0
  paused := 0
  given := Vector.replicate 8 0
  pausing := 0
  gateT := none
  pathDelay := 0
  syncAt := none
  lastSync := none
  askedAt := none

def Fab.reset : Fab where
  node := 0
  via := 0xFF
  fwd := []
  seqs := []
  sent := []
  marks := []
  wins := []
  acks := []
  comb := []
  fences := []
  late := []
  backlog := []
  shp := []
  shpWrites := []
  share := []
  tokens := []
  inj := []
  locked := false
  holdover := false
  slew := 0
  master := none
  foreign := []
  within := 0
  outside := 0
  joined := false
  joinRefused := false
  aborted := []
  dropped := []

def Mgr.reset : Mgr where
  role := .worker
  cur := none
  prev := none
  requests := []
  logs := []
  nextId := 0
  held := []
  mirrors := []
  install := none
  waitingJoins := []
  heldJoins := []
  copyTo := none
  copyStarted := false
  copyAcked := false
  failedNodes := []
  idBlock := 0
  takeover := 0
  mirrored := none
  owners := []
  unacked := []
  lostCancels := []
  sends := []

def Ring.reset : Ring where
  fetched := []
  phase := true
  unsignalled := 0
  reserved := 0

def HostIf.reset : HostIf where
  mem := []
  rings := Vector.replicate 64 Ring.reset
  msix := []
  messages := []
  vfEnable := 0
  bar2Log := 30
  msixOn := 0
  msixMask := 0
  pba := []
  up := false
  training := false
  rate := 0
  width := 0
  flit := false
  latch := []
  waiting := []
  bar2 := []
  bar2Held := []
  writer := none
  regAnswer := none
  notes := []
  loading := none
  loadStatus := 0

/-- ROM defaults of Table 15.9. -/
def Cfg.default : Cfg where
  node := 0
  mgr := 0
  stby := 0
  system := false
  stbyValid := false
  rate := 28
  farIlv := 3
  warmSample := 5
  retentionS := 60
  ports := []
  ptp := none
  requireCustomer := false
  flashLock := false
  keys := []
  images := []
  defaulted := false
  cause := 0
  seq := 0
  check := 0
  bodyBytes := 0
  digest := []

def Boot.reset : Boot where
  started := true
  stage := 0
  ready := false
  fatal := false
  warm := false
  warmEligible := false
  fullTest := true
  cfg := Cfg.default
  idOk := false
  idDigest := []
  deviceSeed := []
  flash := []
  flashBytes := 0x1000000
  retention := false
  bootDigest := []
  startUs := 0
  farPresent := 0
  cold := true
  forceFull := false
  recovery := false
  flashOk := false

def Board.reset : Board where
  hubMv := 800
  wantMv := 800
  unacked := false
  covers := 840
  tempHigh := 0x0320
  avsOn := false
  smbusUp := false
  powerFrom := 0

/-- IDCODE: version 0x2, part number 0xA450, the manufacturer's code, and a 1 in bit 0 (R441). -/
def idcodeWord : BitVec 32 := BitVec.ofNat 32 (2 * 2 ^ 28 + 0xA450 * 2 ^ 12 + Config.jep106.toNat * 2 + 1)

def Jtag.reset : Jtag where
  insn := .idcode
  effect := .idcode
  data := idcodeWord
  cells := []
  driven := false
  floating := false

/-- The machine when SYS_RST_N has just been deasserted after power-up, before stage S0 ends (R365, R417): every
register at its reset value, every partition empty, no command waiting. The values the specification does not
give are named in assumption log 2. -/
def State.reset : State where
  pending := []
  pins := { pwrGood := true, sysRstN := true, perstN := false, bootMode := 0, faultN := true, thermAlertN := true,
            thermtripN := true, smbAlertN := true, pps := 0, ppsAt := 0, clkT := 0, fabNs := 0 }
  bar0 := []
  parts := Vector.replicate 16 Part.reset
  saves := []
  remotePosts := []
  heldCtl := []
  mem := { near := [], far := [], poisonNear := [], poisonFar := [] }
  spt := []
  tier := { moves := [], oldFrames := [], retired := [], accessed := [],
            samples := 0, lastSet := [], demoting := false, busLast := Vector.replicate 4 7, wrr := [] }
  mus := Vector.replicate 32 Mu.reset
  cxl := Vector.replicate 24 Cxl.reset
  pools := Vector.replicate 16 []
  parked := []
  ports := Vector.replicate 8 Port.reset
  fab := Fab.reset
  mgr := Mgr.reset
  host := HostIf.reset
  adapters := { slots := [], waiting := [] }
  meter := { map := [], sets := [] }
  events := { seq := 0, bootQueue := [], phase := true, unsignalled := 0, everEnabled := false }
  boot := Boot.reset
  board := Board.reset
  jtag := Jtag.reset
  freeCount := 0

end Sys2Proof.Machine
end

