-- ==== Sys2Proof/Machine/Ops.lean ====
section
/-! DEFINITION. The named operations over the state: registers, partitions, hold SRAM, signals, events. -/

namespace Sys2Proof.Machine

abbrev Res := Host.Outcome State Fault Refusal

/-- One idle CLK_T cycle of 10 ns (assumption log 5). Fabric time slews by at most 1 ns in 10 µs, 100 ppm, and never
runs back (R300). (DESIGN CHOICE: log 77) (DESIGN CHOICE: log 93) -/
def State.idleTick (s : State) : State :=
  let t := s.pins.clkT + 1
  let d : Int := if t % 1000 ≠ 0 then 0 else if 0 < s.fab.slew then 1 else if s.fab.slew < 0 then -1 else 0
  { s with
    pins := { s.pins with clkT := t, fabNs := s.pins.fabNs + (10 + d).toNat }
    fab := { s.fab with slew := s.fab.slew - d } }

/-! ## Commands that bring-up keeps off (R370, R433, R434, R437) -/

/-- Whether S0 of a start has ended: registers are clocked and the management block answers. -/
def State.clocked (s : State) : Bool := s.boot.started && decide (1 ≤ s.boot.stage)

/-- What a write of a register outside the BOOT and SEC blocks does: nothing before S8, where it is ignored (R370). -/
def State.ifReady (s t : State) : State := if s.boot.ready then t else s

/-- What happens inside the chip: nothing while it has no power or is held in reset (R433, R434, R437). -/
def State.ifClocked (s t : State) : State := if s.clocked then t else s

/-- The save images in which a job stands SWITCHED_OUT (R332). -/
def State.switchedOut (s : State) : List Saved := s.saves.filter (·.out)

/-! ## Vectors indexed by numbers -/

def vget {β : Type} {n : Nat} (v : Vector β n) (i : Nat) (d : β) : β := v[i]?.getD d
def vset {β : Type} {n : Nat} (v : Vector β n) (i : Nat) (x : β) : Vector β n := v.setIfInBounds i x

/-! ## Registers -/

/-- The word a register holds. -/
def State.reg (s : State) (off : Nat) : Word := tabGet regReset s.bar0 off

def State.setReg (s : State) (off : Nat) (w : Word) : State := { s with bar0 := tabSet regReset s.bar0 off w }

def State.regFld (s : State) (off hi lo : Nat) : Nat := fld (s.reg off) hi lo

def State.setRegFld (s : State) (off hi lo v : Nat) : State := s.setReg off (setFld (s.reg off) hi lo v)

def State.regBit (s : State) (off i : Nat) : Bool := bitOf (s.reg off) i

/-- Add to a counter; counters wrap modulo 2^64. -/
def State.addReg (s : State) (off n : Nat) : State := s.setReg off (s.reg off + BitVec.ofNat 64 n)

/-! ## Partitions and drovers -/

def State.part (s : State) (p : PartId) : Part := s.parts[p]

def State.setPart (s : State) (p : PartId) (x : Part) : State := { s with parts := s.parts.set p x }

def State.modPart (s : State) (p : PartId) (f : Part → Part) : State := s.setPart p (f (s.part p))

def State.drv (s : State) (p : PartId) : Drover := (s.part p).drv

def State.setDrv (s : State) (p : PartId) (d : Drover) : State := s.modPart p fun x => { x with drv := d }

def State.modDrv (s : State) (p : PartId) (f : Drover → Drover) : State := s.setDrv p (f (s.drv p))

/-- The entries of a drover's queue, head first. -/
def Drover.queue (d : Drover) (q : Nat) : List QEntry := vget d.queues q []

def Drover.setQueue (d : Drover) (q : Nat) (l : List QEntry) : Drover := { d with queues := vset d.queues q l }

/-- The job a partition serves, as a number. -/
def State.jobOf (s : State) (p : PartId) : Option Nat := (s.part p).curJob.map (·.val)

/-- Performance counter `i` of a partition (Table 18.8). -/
def State.perf (s : State) (p : PartId) (i : Nat) : State := s.addReg (ptBase p + 0x1100 + 8 * i) 1

def State.slot (s : State) (p : PartId) (k : Nat) : Slot := tabGet (fun _ => {}) (s.part p).slots k

def State.setSlot (s : State) (p : PartId) (k : Nat) (x : Slot) : State :=
  s.modPart p fun q => { q with slots := tabSet (fun _ => {}) q.slots k x }

/-- Slots of the manifest table that hold a request, rising (R127). -/
def State.heldSlots (s : State) (p : PartId) : List Nat :=
  ((s.part p).slots.filter fun e => e.2.held).map (·.1)

/-- Present logical cores of a partition (R344). -/
def Part.absentBit (x : Part) (core : Nat) : Bool := bitOf (vget x.absent (core / 8) 0) (core % 8)

def Part.presentCores (x : Part) : Nat := ((List.range 128).filter fun c => !x.absentBit c).length

/-- ROW_LIMIT (R344). -/
def Part.rowLimit (x : Part) : Nat := min 512 (4 * x.presentCores)

/-- Matrix units neither absent since the last numbering nor withdrawn in service (Table 18.7). -/
def State.mxPresentMask (s : State) (p : PartId) : BitVec 4 :=
  ~~~(s.part p).mxAbsent &&& ~~~(BitVec.ofNat 4 (s.regFld (ptBase p + 0x2000) 3 0))

def State.mxPresent (s : State) (p : PartId) : Nat :=
  ((List.range 4).filter fun u => bitOf (s.mxPresentMask p) u).length

/-- Fabric time in nanoseconds (R300). -/
def State.now (s : State) : Nat := s.pins.fabNs

/-! ## Hold SRAM -/

def hsramBytes : Nat := 12582912

/-- Mark the 64 KiB regions that a write touches as live (R332). -/
def State.markLive (s : State) (p : PartId) (off n : Nat) : State :=
  if n = 0 then s else
  (List.range ((off + n - 1) / 65536 - off / 65536 + 1)).foldl
    (fun s i =>
      let r := off / 65536 + i
      let a := ptBase p + 0x28 + 8 * (r / 64)
      s.setReg a (s.reg a ||| BitVec.ofNat 64 (2 ^ (r % 64)))) s

def State.hsRead (s : State) (p : PartId) (off n : Nat) : Bytes := memRead (s.part p).hsram off n

def State.hsWrite (s : State) (p : PartId) (off : Nat) (b : Bytes) : State :=
  (s.modPart p fun x => { x with hsram := memWrite x.hsram off b }).markLive p off b.length

def State.hsWord (s : State) (p : PartId) (off : Nat) : Word := wordOf (s.hsRead p off 8)

/-- The waits for banks and the corrected errors of accesses to at most `g` granules of hold SRAM: a port waits at most 8 CLK_A
for a granule, and a read corrects at most one bit of it. No rule gives the accesses of a cycle nor when a bit fails, so both
counters rise by free values within those bounds (R136, R137). (DESIGN CHOICE: log 80) -/
def State.hsramCounts (s : State) (p : PartId) (g : Nat) : State :=
  let n := s.freeCount
  (({ s with freeCount := n + 1 }).addReg (ptBase p + 0x1028) (Config.hsramWait n % (8 * g + 1))).addReg
    (ptBase p + 0x1030) (Config.hsramCorrected n % (g + 1))

/-- Granules of 32 bytes that a run of hold SRAM touches. -/
def granules (a n : Nat) : Nat := if n = 0 then 0 else (a + n - 1) / 32 - a / 32 + 1

/-- The counts of one access of the drover's own port (Table 5.2). (DESIGN CHOICE: log 80) -/
def State.hsramUse (s : State) (p : PartId) (a n : Nat) : State := s.hsramCounts p (granules a n)

/-- Hold SRAM zeroed: no region is live (R332). -/
def State.hsZero (s : State) (p : PartId) : State :=
  let s := s.modPart p fun x => { x with hsram := [] }
  ((s.setReg (ptBase p + 0x28) 0).setReg (ptBase p + 0x30) 0).setReg (ptBase p + 0x38) 0

/-! ## Shares (R335) -/

/-- SHARE_W of a share class. (DESIGN CHOICE: log 104) -/
def State.shareWeight (s : State) (c : Nat) : Nat := s.regFld (0x700200 + 8 * (c / 8)) (8 * (c % 8) + 7) (8 * (c % 8))

/-- Weighted round robin over the share classes that wait: a class is served up to its weight in a row, then the next class
in turn; a class of weight 0 only where no other waits (R335). `x` is the class served last and the turns it still has; the
class to serve is returned with the new `x`. (DESIGN CHOICE: log 104) -/
def wrrPick (weight : Nat → Nat) (waiting : List Nat) (x : Nat × Nat) : Option (Nat × Nat × Nat) :=
  let after := (List.range 32).map fun i => (x.1 + 1 + i) % 32
  let heavy := waiting.filter fun c => 0 < weight c
  if heavy.contains x.1 ∧ 0 < x.2 then some (x.1, x.1, x.2 - 1)
  else
    match after.find? heavy.contains with
    | some c => some (c, c, weight c - 1)
    | none => (after.find? waiting.contains).map fun c => (c, c, 0)

/-- A number put into its place in a rising list. -/
def insertRising (k : Nat) : List Nat → List Nat
  | [] => [k]
  | a :: r => if k < a then k :: a :: r else if k = a then a :: r else a :: insertRising k r

/-! ## Host memory and interrupts -/

def State.modHost (s : State) (f : HostIf → HostIf) : State := { s with host := f s.host }

/-- A write to host memory. Whether the host link is up is not looked at: what a link that goes down drops is dropped where
it goes down (R363, `State.hostReset`). (DEDUCED: log 85) -/
def State.hostWrite (s : State) (a : Nat) (b : Bytes) : State :=
  s.modHost fun h => { h with mem := memWrite h.mem a b }

/-- MSI-X table words of a function, two for each vector: the PF's in BAR0, a VF's own beyond the 64 MiB of BAR0 (Table 14.3). -/
def msixOff (fn i : Nat) : Nat := if fn = 0 then 0x508000 + 8 * i else 0x4000000 + 0x1000 * fn + 8 * i

/-- The MSI-X message of a vector: the data `d` of its table entry is sent to the address `a`, and counted.
(PRESUMED: log 9) -/
def HostIf.send (h : HostIf) (fn vec : Nat) (a : Word) (d : BitVec 32) : HostIf :=
  { h with
    msix := tabSet (fun _ => 0) h.msix (fn * 2048 + vec) (tabGet (fun _ => 0) h.msix (fn * 2048 + vec) + 1)
    messages := (a, d) :: h.messages }

/-- A vector is signalled: nothing where the function's MSI-X is not enabled or it has no such vector, a pending bit where the
vector is masked, else its message (R350, R364). (PRESUMED: log 9) -/
def HostIf.signal (h : HostIf) (fn vec : Nat) (masked : Bool) (a : Word) (d : BitVec 32) : HostIf :=
  if bitOf h.msixOn fn = false ∨ (fn ≠ 0 ∧ 64 ≤ vec) then h
  else if masked then { h with pba := insertRising (fn * 2048 + vec) h.pba }
  else h.send fn vec a d

/-- A vector that is not masked any more sends the message that was pending. (PRESUMED: log 9) -/
def HostIf.unmask (h : HostIf) (fn vec : Nat) (masked : Bool) (a : Word) (d : BitVec 32) : HostIf :=
  if h.pba.contains (fn * 2048 + vec) && bitOf h.msixOn fn && !masked then
    { h with pba := h.pba.erase (fn * 2048 + vec) }.send fn vec a d
  else h

/-- Whether a function's vector is masked, by itself or with its function. (PRESUMED: log 9) -/
def State.msixMasked (s : State) (fn vec : Nat) : Bool :=
  bitOf s.host.msixMask fn || s.regBit (msixOff fn (2 * vec + 1)) 32

/-- Signal vector `vec` of a function. (PRESUMED: log 9) -/
def State.signalMsix (s : State) (fn vec : Nat) : State :=
  s.modHost fun h => h.signal fn vec (s.msixMasked fn vec) (s.reg (msixOff fn (2 * vec)))
    ((s.reg (msixOff fn (2 * vec + 1))).setWidth 32)

/-- What is pending of a vector is sent, where it is not masked. -/
def State.msixUnmask (s : State) (fn vec : Nat) : State :=
  s.modHost fun h => h.unmask fn vec (s.msixMasked fn vec) (s.reg (msixOff fn (2 * vec)))
    ((s.reg (msixOff fn (2 * vec + 1))).setWidth 32)

/-- Word `i` of a function's PBA: the pending bits of 64 vectors. -/
def State.pbaWord (s : State) (fn i : Nat) : Word :=
  BitVec.ofNat 64 ((List.range 64).map fun b => if s.host.pba.contains (fn * 2048 + 64 * i + b) then 2 ^ b else 0).sum

/-! ## Events (R399 to R402, R408) -/

def evtBase : Nat := 0x708000

/-- The 64-byte event record (Table 17.5). -/
def evRecBytes (node : NodeId) (phase : Bool) (e : EvRec) : Bytes :=
  leBytes 2 e.event.toNat ++ leBytes 2 e.status.toNat ++ leBytes 1 (b2n phase) ++ leBytes 1 e.source ++
    leBytes 2 node.val ++ leBytes 8 e.time ++ leBytes 4 e.seq.toNat ++ leBytes 1 e.unit ++ zeros 3 ++
    wordBytes e.req ++ fitBytes 32 e.detail

/-- Number of records of the event ring. -/
def State.evtSize (s : State) : Nat := 2 ^ s.regFld (evtBase + 8) 4 0

/-- Count a record dropped: EVT_DROP_CNT rises and OVERFLOW is set (R402). -/
def State.evtDrop (s : State) : State := (s.addReg (evtBase + 0x28) 1).setRegFld (evtBase + 0x20) 0 0 1

/-- Signal vector 0 of the PF under the coalescing rule (R360, R401). -/
def State.evtSignal (s : State) : State :=
  let n := s.regFld (evtBase + 8) 31 24
  let k := s.events.unsignalled + 1
  if n = 0 ∨ n ≤ k then
    { (s.signalMsix 0 0) with events := { s.events with unsignalled := 0 } }
  else { s with events := { s.events with unsignalled := k } }

/-- Write one event record into the ring, or drop it when the ring is full (R401, R402). -/
def State.evtWrite (s : State) (e : EvRec) : State :=
  let n := s.evtSize
  let tail := s.regFld (evtBase + 0x10) 15 0
  let head := s.regFld (evtBase + 0x18) 15 0
  if (tail + 1) % n = head % n then s.evtDrop
  else
    let s := s.hostWrite ((s.reg evtBase).toNat + 64 * tail) (evRecBytes s.fab.node s.events.phase e)
    let t := (tail + 1) % n
    let s := s.setRegFld (evtBase + 0x10) 15 0 t
    let s := if t = 0 then { s with events := { s.events with phase := !s.events.phase } } else s
    s.evtSignal

/-- An event is counted: SEQ rises, the count of its class rises, severity 3 is latched in LAST_FATAL (R401). -/
def State.evtCount (s : State) (ev : BitVec 16) : State :=
  let s := { s with events := { s.events with seq := s.events.seq + 1 } }
  let s := s.addReg (evtBase + 0x40 + 8 * (evClass ev % 8)) 1
  if evSeverity ev = 3 then s.setRegFld (evtBase + 0x20) 63 48 ev.toNat else s

/-- An event record is held in the boot queue until the ring is first enabled, then written unless its severity is
below EVT_MIN_SEV (R401, R402). (DEDUCED: log 85) -/
def State.evtDeliver (s : State) (e : EvRec) : State :=
  if !s.events.everEnabled then
    if s.events.bootQueue.length < 32 then
      { s with events := { s.events with bootQueue := s.events.bootQueue ++ [e] } }
    else s.evtDrop
  else if evSeverity e.event < s.regFld (evtBase + 8) 33 32 then s
  else if s.regBit (evtBase + 8) 5 then s.evtWrite e
  else s.evtDrop

/-- Raise an event (R401, R402). What a severity-3 event does to the chip is `chipFail`. (DESIGN CHOICE: log 36) -/
def State.raise (s : State) (ev : BitVec 16) (status : Status) (source : Nat) (unit : Nat := 0xFF)
    (req : Word := 0) (detail : Bytes := []) : State :=
  (s.evtCount ev).evtDeliver
    { event := ev, status := status, source := source, unit := unit, time := s.now, seq := s.events.seq,
      req := req, detail := detail }

/-- DETAIL bytes of an event: bytes 0 to 15 as in a fault record, bytes 16 to 31 from `x` (Table 17.5). -/
def evDetail (d0 d1 : Nat) (x : Nat) : Bytes := leBytes 8 d0 ++ leBytes 8 d1 ++ leBytes 16 x

/-- The host-class event of an ignored register write, with the offset in DETAIL bytes 16 to 23 (R412). -/
def State.writeIgnored (s : State) (off : Nat) : State :=
  s.raise Ev.writeIgnored St.ok 19 0xFF 0 (evDetail 0 0 off)

/-! ## Signals (R86 to R88) -/

def Drover.count (d : Drover) (g : Nat) : BitVec 32 := tabGet (fun _ => 0) d.sigCount g
def Drover.sfault (d : Drover) (g : Nat) : Bool := tabGet (fun _ => false) d.sigFault g

def Drover.setSignal (d : Drover) (g : Nat) (c : BitVec 32) (f : Bool) : Drover :=
  { d with sigCount := tabSet (fun _ => 0) d.sigCount g c, sigFault := tabSet (fun _ => false) d.sigFault g f }

/-- A post adds 1 to the count and may set the FAULT bit; it never clears it (R86). -/
def Drover.post (d : Drover) (g : Nat) (f : Bool) : Drover :=
  d.setSignal g (d.count g + 1) (d.sfault g || f)

/-- The post an instruction names; 0xFF posts nothing (R112). -/
def State.post (s : State) (p : PartId) (g : Nat) (f : Bool) : State :=
  if g = 0xFF then s else (s.modDrv p fun d => d.post g f).perf p 26

/-- Whether gN ≥ sK holds: the difference modulo 2^32 is less than 2^31 (R87). -/
def waitHolds (count k : BitVec 32) : Bool := decide ((count - k).toNat < 2 ^ 31)

/-! ## Fault records (R97) -/

/-- Eight 64-bit words of a fault record, offset 0x00 first (Table 3.7). -/
def faultRecWords (r : FaultRec) : List Word :=
  let w0 := leBytes 2 r.status.toNat ++ leBytes 2 r.event.toNat ++ leBytes 1 r.queue ++ leBytes 1 r.opcode ++
    leBytes 2 r.tag
  let w1 := leBytes 4 r.pc ++ leBytes 1 (b2n r.disp) ++ leBytes 1 r.signal ++ zeros 2
  [wordOf w0, wordOf w1, r.insn.setWidth 64, (r.insn >>> 64).setWidth 64, r.detail0, r.detail1, r.time,
    r.seq.setWidth 64]

/-- The first fault of a packet decides its status (R101): of the packet that runs, or of one that has ended since. -/
def Drover.pktFaulted (d : Drover) (pkt : Option Nat) (st : Status) : Drover :=
  match pkt with
  | none => d
  | some n =>
    if d.pkt.isSome ∧ d.pktSerial = n then { d with pktFault := some (d.pktFault.getD st) }
    else { d with ended := d.ended.map fun e => if e.serial = n ∧ e.status = St.ok then { e with status := st } else e }

/-- A fault record takes the next SEQ and joins the queue, unless 16 are queued (R97). -/
def Drover.pushFault (d : Drover) (r : FaultRec) : Drover :=
  { d with
    faultSeq := d.faultSeq + 1
    faults := if 16 ≤ d.faults.length then d.faults else d.faults ++ [{ r with seq := d.faultSeq }] }

/-- Write a fault record, or drop and count it when 16 are queued (R97). -/
def State.faultRecord (s : State) (p : PartId) (pkt : Option Nat) (r : FaultRec) : State :=
  let r := { r with time := BitVec.ofNat 64 s.now }
  let t := s.modDrv p fun d => (d.pktFaulted pkt r.status).pushFault r
  if 16 ≤ (s.drv p).faults.length then (t.addReg (ptBase p + 0x1020) 1).raise Ev.faultQueueFull St.ok p.val
  else t.addReg (ptBase p + 0x1018) 1

/-! ## Job registers (Table 13.1) -/

def State.jobValid (s : State) (j : Nat) : Bool := s.regBit (jobBase j) 63
def State.jobShare (s : State) (j : Nat) : Nat := s.regFld (jobBase j) 60 56
def State.jobCxlMask (s : State) (j : Nat) : Nat := s.regFld (jobBase j) 55 32
def State.jobPartMask (s : State) (j : Nat) : Nat := s.regFld (jobBase j) 15 0
def State.poolBase (s : State) (j : Nat) : Nat := s.regFld (jobBase j + 0x10) 41 0
def State.poolSlots (s : State) (j : Nat) : Nat := s.regFld (jobBase j + 0x18) 63 32
def State.slotBytes (s : State) (j : Nat) : Nat := s.regFld (jobBase j + 0x18) 31 0
def State.poolUsed (s : State) (j : Nat) : List Nat := vget s.pools j []
def State.poolFree (s : State) (j : Nat) : Nat := s.poolSlots j - (s.poolUsed j).length

/-- The lowest free slot of a job's pool (R328). -/
def State.poolLowest (s : State) (j : Nat) : Option Nat :=
  let used := s.poolUsed j
  -- the used slots rise, so the first gap in them is the lowest free slot
  let k := used.zipIdx.findIdx fun e => decide (e.1 ≠ e.2)
  if k < s.poolSlots j then some k else none

def State.poolTake (s : State) (j k : Nat) : State :=
  { s with pools := vset s.pools j (insertRising k (s.poolUsed j)) }

def State.poolGive (s : State) (j k : Nat) : State :=
  { s with pools := vset s.pools j ((s.poolUsed j).filter (· ≠ k)) }

/-- Give back the pool slot that a state address names, if it lies in the job's pool. -/
def State.poolGiveAddr (s : State) (j a : Nat) : State :=
  let b := s.poolBase j
  let z := s.slotBytes j
  if b ≤ a ∧ 0 < z ∧ (a - b) / z < s.poolSlots j then s.poolGive j ((a - b) / z) else s

end Sys2Proof.Machine
end

