-- ==== Sys2Proof/Machine/Memory.lean ====
section
/-! DEFINITION. The state range: translation through the state page table (R224 to R226), reads and writes of the
near and the far tier, poison (R229, R245), frames and their free pools. -/

namespace Sys2Proof.Machine

/-! ## State page table entries (Table 2.9) -/

def ePage (a : Nat) : Nat := a / 2 ^ 21
def eValid (e : Word) : Bool := bitOf e 63
def eTier (e : Word) : Nat := fld e 62 61
def eMigrating (e : Word) : Bool := bitOf e 60
def eHint (e : Word) : Nat := fld e 59 57
def ePinned (e : Word) : Bool := bitOf e 56
def ePoisoned (e : Word) : Bool := bitOf e 55
def eJob (e : Word) : Nat := fld e 51 48
def eFrame (e : Word) : Nat := fld e 20 0
def eFar (e : Word) : Bool := decide (eTier e = 1)

def State.entry (s : State) (page : Nat) : Word := tabGet (fun _ => 0) s.spt page
def State.setEntry (s : State) (page : Nat) (e : Word) : State := { s with spt := tabSet (fun _ => 0) s.spt page e }

/-- One past the highest state address: 2,432 GiB. -/
def stateEnd : Nat := 0x26000000000

/-- Ways of the far interleave (Table 9.3). -/
def ilvWays (v : Nat) : Nat := [1, 2, 3, 4, 6, 8, 12, 24].getD v 4

def State.ways (s : State) : Nat := ilvWays (s.regFld 0x208000 35 32)

def nearFrames : Nat := 65536
def nearMappable : Nat := 65520
def farFramesMax : Nat := 1179648

/-- The MU or CXL port, and the byte address in its device, of offset `o` of a frame (R224). -/
def frameByte (w : Nat) (far : Bool) (frame o : Nat) : Nat × Nat :=
  if far then
    let g := frame / (49152 * w)
    let f := frame % (49152 * w)
    let l := f * 512 + o / 4096
    (g * w + l % w, l / w * 4096 + o % 4096)
  else (frame / 2048, frame % 2048 * 2 ^ 21 + o)

/-- The key under which the memories hold that byte. -/
def frameKey (w : Nat) (far : Bool) (frame o : Nat) : Nat :=
  let d := frameByte w far frame o
  if far then d.1 * 2 ^ 37 + d.2 else d.1 * 2 ^ 32 + d.2

def State.cxlPort (s : State) (k : Nat) : Cxl := vget s.cxl k Cxl.reset
def State.setCxl (s : State) (k : Nat) (c : Cxl) : State := { s with cxl := vset s.cxl k c }
def State.mu (s : State) (m : Nat) : Mu := vget s.mus m Mu.reset
def State.setMu (s : State) (m : Nat) (x : Mu) : State := { s with mus := vset s.mus m x }

/-- Ports of an interleave group. -/
def groupPorts (w g : Nat) : List Nat := (List.range w).map fun i => g * w + i

/-- Whether a far interleave group serves: every port of it present and up (R233, R246). -/
def State.groupUp (s : State) (g : Nat) : Bool :=
  (groupPorts s.ways g).all fun k => decide (k < 24) && (s.cxlPort k).present && (s.cxlPort k).up

def State.groupPresent (s : State) (g : Nat) : Bool :=
  (groupPorts s.ways g).all fun k => decide (k < 24) && (s.cxlPort k).present

/-- The interleave group of a far frame. -/
def State.groupOf (s : State) (frame : Nat) : Nat := frame / (49152 * s.ways)

/-- A refused or failed access: its status, the address that failed and the MU or CXL port. -/
structure AccErr where
  status : Status
  addr : Nat
  unit : Nat
  deriving DecidableEq, Repr

/-- Where a state address lies. -/
structure Place where
  far : Bool
  frame : Nat
  key : Nat
  unit : Nat
  entry : Word
  deriving DecidableEq, Repr

/-- Translate a state address (R224, R226, R68): `job` is the job that must own the page, none where the rule omits
the job check. A far group that is down faults with CXL_LINK_DOWN (R246). -/
def State.translate (s : State) (job : Option Nat) (a : Nat) : Except AccErr Place :=
  let e := s.entry (ePage a)
  let far := eFar e
  let d := frameByte s.ways far (eFrame e) (a % 2 ^ 21)
  if stateEnd ≤ a ∨ eValid e = false ∨ 2 ≤ eTier e
      ∨ (if far then farFramesMax ≤ eFrame e else nearFrames ≤ eFrame e) then
    .error ⟨St.operandRange, a, 0⟩
  else if (match job with | some j => decide (j ≠ eJob e) | none => false) then .error ⟨St.operandRange, a, 0⟩
  else if far ∧ s.groupUp (s.groupOf (eFrame e)) = false then .error ⟨St.cxlLinkDown, a, d.1⟩
  else .ok ⟨far, eFrame e, frameKey s.ways far (eFrame e) (a % 2 ^ 21), d.1, e⟩

/-- The MU or CXL port that the entry of a state address names for it (Table 17.3). -/
def State.unitAt (s : State) (a : Nat) : Nat :=
  let e := s.entry (ePage a)
  (frameByte s.ways (eFar e) (eFrame e) (a % 2 ^ 21)).1

/-! ## Access bookkeeping -/

/-- Set a page's accessed bit (R237). -/
def State.touch (s : State) (page : Nat) : State :=
  if s.tier.accessed.contains page then s
  else { s with tier := { s.tier with accessed := insertRising page s.tier.accessed } }

/-- A write to a frame that a page is moving from marks its 4 KiB block dirty (R240). -/
def State.markDirty (s : State) (far : Bool) (frame block : Nat) : State :=
  { s with tier := { s.tier with moves := s.tier.moves.map fun m =>
      if m.farSrc = far ∧ m.src = frame then { m with dirty := insertRising block m.dirty } else m } }

def Mem.line (m : Mem) (far : Bool) (key : Nat) : Bool :=
  if far then m.poisonFar.contains (key / 64) else m.poisonNear.contains (key / 64)

/-- Whether any 64-byte line of a run of bytes holds poison. -/
def Mem.anyPoison (m : Mem) (far : Bool) (key n : Nat) : Bool :=
  (if far then m.poisonFar else m.poisonNear).any fun l =>
    decide (key / 64 ≤ l) && decide (l ≤ (key + n - 1) / 64)

/-- A write of whole lines clears the poison the device holds for them; part of a line leaves it (R245). -/
def Mem.clearPoison (m : Mem) (far : Bool) (key n : Nat) : Mem :=
  let keep := fun l : Nat => !(decide (key ≤ l * 64) && decide (l * 64 + 64 ≤ key + n))
  if far then { m with poisonFar := m.poisonFar.filter keep }
  else { m with poisonNear := m.poisonNear.filter keep }

def Mem.bytes (m : Mem) (far : Bool) (key n : Nat) : Bytes := memRead (if far then m.far else m.near) key n

def Mem.write (m : Mem) (far : Bool) (key : Nat) (b : Bytes) : Mem :=
  let m := m.clearPoison far key b.length
  if far then { m with far := memWrite m.far key b } else { m with near := memWrite m.near key b }

/-- A read of poisoned data: POISONED is set in the page's entry and the cause counted; the first such read of a
page raises PAGE_POISONED (R229, R245). -/
def State.poisonHit (s : State) (a : Nat) (pl : Place) : State :=
  let s := if pl.far then s.addReg (cxlBase pl.unit + 0x18) 1 else s.addReg (muBase pl.unit + 0x10) 1
  if ePoisoned pl.entry then s
  else
    (s.setEntry (ePage a) (setFld pl.entry 55 55 1)).raise Ev.pagePoisoned St.cxlPoison (if pl.far then 22 else 21)
      pl.unit 0 (evDetail a (1 + pl.unit * 65536) a)

/-! ## Driving assignments (R269) -/

/-- The MU that queue NBU0 (`k` 0) or NBU1 (`k` 1) of a partition drives. -/
def State.driven (s : State) (p k : Nat) : Option Nat :=
  let o := 0x209000 + 8 * p
  if s.regBit o (11 + 8 * k) then none else some (8 * (p / 4) + s.regFld o (10 + 8 * k) (8 + 8 * k))

/-- The MUs of a partition: those its queues drive. -/
def State.partMus (s : State) (p : Nat) : List Nat := [0, 1].filterMap (s.driven p)

/-- The queue that drives an MU, as partition and 0 or 1. -/
def State.driverOf (s : State) (m : Nat) : Option (Nat × Nat) :=
  (List.range 16).findSome? fun p => [0, 1].findSome? fun k => if s.driven p k = some m then some (p, k) else none

/-- Whether an NB instruction of the driving queue runs on an MU: started and not yet retired. -/
def State.nbRunning (s : State) (m : Nat) : Bool :=
  match s.driverOf m with
  | none => false
  | some (p, k) =>
    match ((vget s.parts p Part.reset).drv.queue (6 + k)).head? with
    | some e => decide (fld e.insn 127 124 = 8) && (e.phase = .running || e.phase = .waiting || e.phase = .done)
    | none => false

/-! ## Memory units (R230, R254 to R263) -/

/-- What an access does to its MU's device. -/
def muApply (m : Nat) (x : MuAccess) (v : Mem) : Mem :=
  match x with
  | .read _ _ => v
  | .write d b => v.write false (m * 2 ^ 32 + d) b

/-- A transfer of an MU has completed: the count of its CRC retries ends (R230). -/
def State.muDone (s : State) (m : Nat) : State :=
  if (s.mu m).retries = 0 then s else s.setMu m { s.mu m with retries := 0 }

/-- A waiting access is served: it acts on the device, or, while the link is retrained, waits for the end of that
(R230). -/
def State.serve (s : State) (m : Nat) (e : ParkEntry) : State :=
  let x := s.mu m
  if x.retraining then s.setMu m { x with held := x.held ++ [e] }
  else
    let s := s.muDone m
    { s with mem := muApply m e.acc s.mem }

/-- Give free entries of the parked queue to accesses that wait outside it; the time they waited is counted (R261). -/
def State.admitParked (s : State) (m : Nat) : State :=
  let x := s.mu m
  let new := (x.parked.take 64).filter fun e => e.entered = none
  let wait := (new.map fun e => s.now - e.arrived).sum
  let s := (s.addReg (muBase m + 0x38) new.length).addReg (muBase m + 0x48) wait
  s.setMu m { x with parked := x.parked.zipIdx.map fun e =>
    if e.2 < 64 ∧ e.1.entered = none then { e.1 with entered := some s.now } else e.1 }

/-- Keep the longest time from entry to completion of accesses that complete now (R263). -/
def State.longest (s : State) (m : Nat) (l : List ParkEntry) : State :=
  let n := l.foldl (fun a e => max a (s.now - e.entered.getD s.now)) 0
  s.setReg (muBase m + 0x40) (BitVec.ofNat 64 (max (s.reg (muBase m + 0x40)).toNat n))

/-- Serve the accesses of the parked queue, in arrival order; those that waited outside then take entries.
(DEDUCED: log 70) -/
def State.serveQueue (s : State) (m : Nat) : State :=
  let now := (s.mu m).parked.take 64
  let s := if (s.mu m).retraining then s else s.longest m now
  let s := s.setMu m { s.mu m with parked := (s.mu m).parked.drop 64 }
  (now.foldl (fun (s : State) (e : ParkEntry) => s.serve m e) s).admitParked m

/-- Serve everything that waits at an MU. -/
def State.serveAll (s : State) (m : Nat) : State :=
  (List.range ((s.mu m).parked.length / 64 + 1)).foldl (fun s _ => s.serveQueue m) s

/-- The accesses that waited for a retrain complete (R230). -/
def State.serveHeld (s : State) (m : Nat) : State :=
  let l := (s.mu m).held
  let s := (s.setMu m { s.mu m with held := [], retries := 0 }).longest m l
  { s with mem := l.foldl (fun v e => muApply m e.acc v) s.mem }

/-- Whether an ordinary access of an MU waits: in processor mode, while a mode switch runs, and while its link is
retrained (R230, R254, R255). -/
def Mu.holds (x : Mu) : Bool := x.proc || x.switching || x.retraining

/-- The parked-queue entries of an access: 256 bytes at most each (R261). -/
def parkPieces : MuAccess → List MuAccess
  | .read d n => (List.range (max 1 ((n + 255) / 256))).map fun i => .read (d + 256 * i) (min 256 (n - 256 * i))
  | .write d b => (List.range (max 1 ((b.length + 255) / 256))).map fun i => .write (d + 256 * i) ((b.drop (256 * i)).take 256)

/-- An ordinary access to an MU: it parks in processor mode and while a switch runs, and is served as it arrives where
the NBU runs nothing; it waits while the link is retrained; else it is served at once, and its transfer ends the count of CRC
retries (R230). (DEDUCED: log 70) -/
def State.muAccess (s : State) (m : Nat) (a : MuAccess) : State :=
  let x := s.mu m
  if x.proc || x.switching then
    let new := (parkPieces a).map fun a => ({ acc := a, arrived := s.now, entered := none, who := none, fn := s.host.writer } : ParkEntry)
    let s := (s.setMu m { x with parked := x.parked ++ new }).admitParked m
    if x.proc && !x.switching && !s.nbRunning m then s.serveAll m else s
  else if x.retraining then
    s.setMu m { x with held := x.held ++ [{ acc := a, arrived := s.now, entered := none, who := none, fn := s.host.writer }] }
  else
    let s := s.muDone m
    { s with mem := muApply m a s.mem }

/-- The memories as an access that arrives now at an MU finds them: after every access that waits there before it. -/
def State.muView (s : State) (m : Nat) : Mem :=
  let x := s.mu m
  (x.held ++ x.parked).foldl (fun v e => muApply m e.acc v) s.mem

/-! ## Reads and writes -/

/-- Bytes from `a` to the end of its 4 KiB block, at most `n`. -/
def chunkLen (a n : Nat) : Nat := min n (4096 - a % 4096)

/-- The memories as a read of page `page` at place `pl` finds them: after the accesses that wait at its MU, and after the
writes that pass 5 of a move of the page holds. (DEDUCED: log 69; DEDUCED: log 70) -/
def State.memView (s : State) (page : Nat) (pl : Place) : Mem :=
  let v := if pl.far then s.mem else s.muView pl.unit
  match s.tier.moves.find? fun m => m.page = page with
  | some m => m.held.foldl (fun v h => v.write pl.far (frameKey s.ways pl.far pl.frame h.off) h.data) v
  | none => v

/-- Read up to `fuel` blocks. -/
def State.readBlocks : Nat → State → Option Nat → Nat → Nat → Bytes → Except AccErr Bytes × State
  | 0, s, _, _, _, acc => (.ok acc, s)
  | fuel + 1, s, job, a, n, acc =>
    if n = 0 then (.ok acc, s)
    else
      match s.translate job a with
      | .error e => (.error e, s)
      | .ok pl =>
        let k := chunkLen a n
        let v := s.memView (ePage a) pl
        let s := s.touch (ePage a)
        let s := if pl.far then s else s.muAccess pl.unit (.read (pl.key % 2 ^ 32) k)
        if ePoisoned pl.entry ∨ v.anyPoison pl.far pl.key k then
          (.error ⟨St.cxlPoison, a, pl.unit⟩, s.poisonHit a pl)
        else State.readBlocks fuel s job (a + k) (n - k) (acc ++ v.bytes pl.far pl.key k)

/-- Read `n` bytes of the state range. -/
def State.stRead (s : State) (job : Option Nat) (a n : Nat) : Except AccErr Bytes × State :=
  State.readBlocks (n / 4096 + 2) s job a n []

/-- The first refusal that a write of `n` bytes would meet. -/
def State.checkBlocks : Nat → State → Option Nat → Nat → Nat → Option AccErr
  | 0, _, _, _, _ => none
  | fuel + 1, s, job, a, n =>
    if n = 0 then none
    else
      match s.translate job a with
      | .error e => some e
      | .ok _ => State.checkBlocks fuel s job (a + chunkLen a n) (n - chunkLen a n)

def State.stCheck (s : State) (job : Option Nat) (a n : Nat) : Option AccErr :=
  State.checkBlocks (n / 4096 + 2) s job a n

/-- A write within one 4 KiB block reaches the memory at its place: the far tier at once, an MU as its mode has it. -/
def State.placeWrite (s : State) (far : Bool) (unit key : Nat) (b : Bytes) : State :=
  if far then { s with mem := s.mem.write true key b } else s.muAccess unit (.write (key % 2 ^ 32) b)

/-- A write of a page whose move is in pass 5 is held (R240). (DEDUCED: log 69) -/
def State.holdWrite (s : State) (page off : Nat) (b : Bytes) : State :=
  { s with tier := { s.tier with moves := s.tier.moves.map fun m =>
      if m.page = page then { m with held := m.held ++ [{ off := off, data := b, came := s.now, who := none, fn := s.host.writer }] } else m } }

/-- One block of a write. -/
def State.writeBlock (s : State) (a : Nat) (pl : Place) (b : Bytes) : State :=
  let s := s.touch (ePage a)
  if s.tier.moves.any fun m => m.page = ePage a ∧ m.pass = 5 then s.holdWrite (ePage a) (a % 2 ^ 21) b
  else (s.markDirty pl.far pl.frame (a % 2 ^ 21 / 4096)).placeWrite pl.far pl.unit pl.key b

def State.writeBlocks : Nat → State → Option Nat → Nat → Bytes → State
  | 0, s, _, _, _ => s
  | fuel + 1, s, job, a, b =>
    if b.length = 0 then s
    else
      match s.translate job a with
      | .error _ => s
      | .ok pl =>
        let k := chunkLen a b.length
        State.writeBlocks fuel (s.writeBlock a pl (b.take k)) job (a + k) (b.drop k)

/-- Write bytes to the state range, all of them or, where any part is refused, none. -/
def State.stWrite (s : State) (job : Option Nat) (a : Nat) (b : Bytes) : Option AccErr × State :=
  match s.stCheck job a b.length with
  | some e => (some e, s)
  | none => (none, State.writeBlocks (b.length / 4096 + 2) s job a b)

/-! ## Instructions that wait for their accesses -/

/-- The entries of a list beyond the first `n` that belong to no instruction belong to `who`. -/
def ownEntries (who : Nat × Nat) (n : Nat) (l : List ParkEntry) : List ParkEntry :=
  l.zipIdx.map fun x => if n ≤ x.2 ∧ x.1.who = none then { x.1 with who := some who } else x.1

/-- The accesses of an MU that came to wait since it was `x0`. -/
def State.claimMu (s : State) (x0 : Mu) (who : Nat × Nat) (m : Nat) : State :=
  let x := s.mu m
  s.setMu m { x with parked := ownEntries who x0.parked.length x.parked, held := ownEntries who x0.held.length x.held }

/-- The writes that a move came to hold since the moves were `l`. -/
def claimMove (l : List Move) (who : Nat × Nat) (m : Move) : Move :=
  if l.contains m then m
  else
    let n := match l.find? fun v => v.page = m.page with | some v => v.held.length | none => 0
    { m with held := m.held.zipIdx.map fun x => if n ≤ x.2 ∧ x.1.who = none then { x.1 with who := some who } else x.1 }

/-- The accesses that came to wait since `s0` belong to the instruction `who`. -/
def State.claim (s0 s : State) (who : Nat × Nat) : State :=
  if s.mus = s0.mus ∧ s.tier.moves = s0.tier.moves then s
  else
    let s := (List.range 32).foldl (fun (s : State) m => s.claimMu (s0.mu m) who m) s
    { s with tier := { s.tier with moves := s.tier.moves.map (claimMove s0.tier.moves who) } }

/-- Whether an access of an instruction still waits (R230, R240, R261). -/
def State.accessOpen (s : State) (who : Nat × Nat) : Bool :=
  ((List.range 32).any fun m => ((s.mu m).held ++ (s.mu m).parked).any fun e => e.who = some who) ||
    s.tier.moves.any fun m => m.held.any fun h => h.who = some who

/-! ## Frames -/

/-- Number of far frames that may exist: those of present groups. -/
def State.farGroups (s : State) : Nat := 24 / s.ways

/-- Whether a frame is in use: mapped, being moved to, not yet released, retired, reserved or absent (R225, R233,
R240, R373). -/
def State.frameUsed (s : State) (far : Bool) (f : Nat) : Bool :=
  (s.spt.any fun e => eValid e.2 && decide (eFar e.2 = far) && decide (eFrame e.2 = f)) ||
  (s.tier.moves.any fun m => decide (m.farDst = far) && decide (m.dst = f)) ||
  (s.tier.oldFrames.contains (far, f)) ||
  (if far then decide (farFramesMax ≤ f) || !s.groupPresent (s.groupOf f)
   else decide (nearMappable ≤ f) || s.tier.retired.contains f)

/-- Far frames present (R233). -/
def State.farPresentFrames (s : State) : Nat :=
  ((List.range s.farGroups).filter fun g => s.groupPresent g).length * (49152 * s.ways)

/-- Frames of a tier in use other than reserved, retired and absent ones. -/
def State.framesBusy (s : State) (far : Bool) : Nat :=
  (s.spt.filter fun e => eValid e.2 && decide (eFar e.2 = far)).length +
  (s.tier.moves.filter fun m => m.farDst = far).length + (s.tier.oldFrames.filter fun o => o.1 = far).length

/-- NEAR_FREE and FAR_FREE (Table 9.6). -/
def State.nearFree (s : State) : Nat := nearMappable - s.tier.retired.length - s.framesBusy false
def State.farFree (s : State) : Nat := s.farPresentFrames - s.framesBusy true

/-- The lowest free frame of a range, looking at no more frames than can be in use, and one. -/
def State.lowestFree (s : State) (far : Bool) (lo n : Nat) : Option Nat :=
  let tries := min n (s.spt.length + s.tier.moves.length + s.tier.oldFrames.length + s.tier.retired.length + 17)
  ((List.range tries).map (lo + ·)).find? fun f => !s.frameUsed far f

/-- Copy one 4 KiB block of a frame to another: the reads and the writes of a near block come to its MU like any other
(R240, R254). -/
def State.copyBlock (s : State) (farA : Bool) (fa : Nat) (farB : Bool) (fb b : Nat) : State :=
  let ka := frameKey s.ways farA fa (b * 4096)
  let kb := frameKey s.ways farB fb (b * 4096)
  let v := if farA then s.mem else s.muView (fa / 2048)
  let src := if farA then v.far else v.near
  let s := if farA then s else s.muAccess (fa / 2048) (.read (ka % 2 ^ 32) 4096)
  if !farB && (s.mu (fb / 2048)).holds then s.muAccess (fb / 2048) (.write (kb % 2 ^ 32) (memRead src ka 4096))
  else
    let s := if farB then s else s.muDone (fb / 2048)
    let m := s.mem.clearPoison farB kb 4096
    { s with mem := if farB then { m with far := memMoveRange src m.far ka kb 4096 }
                    else { m with near := memMoveRange src m.near ka kb 4096 } }

/-- Copy 4 KiB blocks of one frame to another (R240). -/
def State.copyBlocks (s : State) (farA : Bool) (fa : Nat) (farB : Bool) (fb : Nat) (blocks : List Nat) : State :=
  blocks.foldl (fun s b => s.copyBlock farA fa farB fb b) s

/-- Set a whole frame to zero (MAP_ZERO, R235). -/
def State.zeroFrame (s : State) (far : Bool) (f : Nat) : State :=
  (List.range 512).foldl (fun s b =>
    let k := frameKey s.ways far f (b * 4096)
    if !far && (s.mu (f / 2048)).holds then s.muAccess (f / 2048) (.write (k % 2 ^ 32) (zeros 4096))
    else
      let s := if far then s else s.muDone (f / 2048)
      let m := s.mem.clearPoison far k 4096
      { s with mem := if far then { m with far := memZero m.far k 4096 } else { m with near := memZero m.near k 4096 } }) s

end Sys2Proof.Machine
end

