-- ==== Sys2Proof/Machine/Manifest.lean ====
section
/-! DEFINITION. The manifest (R49 to R59), the tag (R60), KV page descriptors (R64, R65), the sampler record (R69) and
the manifest table in hold SRAM (R93, R423). -/

namespace Sys2Proof.Machine

/-! ## Manifest fields (Table 2.2) -/

def mBytes (m : Manifest) : Bytes :=
  wordBytes m.w0 ++ wordBytes m.w1 ++ wordBytes m.w2 ++ wordBytes m.w3 ++ wordBytes m.w4 ++ wordBytes m.w5 ++
    wordBytes m.w6 ++ wordBytes m.w7

def manifestOf (b : Bytes) : Manifest :=
  { w0 := wordOf b, w1 := wordOf (b.drop 8), w2 := wordOf (b.drop 16), w3 := wordOf (b.drop 24),
    w4 := wordOf (b.drop 32), w5 := wordOf (b.drop 40), w6 := wordOf (b.drop 48), w7 := wordOf (b.drop 56) }

def mTenant (m : Manifest) : Nat := fld m.w0 63 48
def mReqId (m : Manifest) : ReqId := m.w0.setWidth 48
def mFmtVer (m : Manifest) : Nat := fld m.w1 59 56
def mOwnerPart (m : Manifest) : Nat := fld m.w1 55 52
def mOwnerNode (m : Manifest) : Nat := fld m.w1 51 42
def mTclass (m : Manifest) : Nat := fld m.w1 41 34
def mShare (m : Manifest) : Nat := fld m.w1 33 29
def mPrio (m : Manifest) : Nat := fld m.w1 28 26
def mHops (m : Manifest) : Nat := fld m.w1 25 20
def mPhase (m : Manifest) : Nat := fld m.w1 19 16
def mEpoch (m : Manifest) : BitVec 16 := m.w1.setWidth 16
def mFlags (m : Manifest) : Nat := fld m.w2 59 44
def mFlag (m : Manifest) (i : Nat) : Bool := bitOf m.w2 (44 + i)
def mPrecision (m : Manifest) : Nat := fld m.w2 43 28
def mQfmt (m : Manifest) : Nat := fld m.w2 43 40
def mVfmt (m : Manifest) : Nat := fld m.w2 39 36
def mKfmt (m : Manifest) : Nat := fld m.w2 35 32
def mWfmt (m : Manifest) : Nat := fld m.w2 31 28
def mAdapterGen (m : Manifest) : Nat := fld m.w2 27 12
def mAdapter (m : Manifest) : Nat := fld m.w2 11 0
def mTurn (m : Manifest) : Nat := fld m.w3 63 48
def mInput (m : Manifest) : Nat := fld m.w3 47 24
def mNextPos (m : Manifest) : Nat := fld m.w3 23 0
def mCacheSet (m : Manifest) : Nat := fld m.w4 51 40
def mTurnOutput (m : Manifest) : Nat := fld m.w4 39 24
def mOutput (m : Manifest) : Nat := fld m.w4 23 0
def mPtAddr (m : Manifest) : Nat := fld m.w5 51 0
def mSrAddr (m : Manifest) : Nat := fld m.w6 51 0
def mCrc (m : Manifest) : Nat := fld m.w7 63 32
def mSeed (m : Manifest) : BitVec 32 := m.w7.setWidth 32

/-- The CRC-32C of manifest bytes 0 to 59 (R58). -/
def mCrcCalc (m : Manifest) : BitVec 32 := crc32c ((mBytes m).take 60)

/-- The manifest with its CRC recomputed. Byte 60 on holds the CRC: bits [63:32] of word 7. -/
def mSeal (m : Manifest) : Manifest := { m with w7 := setFld m.w7 63 32 (mCrcCalc m).toNat }

def mCrcOk (m : Manifest) : Bool := decide (mCrc m = (mCrcCalc m).toNat)

/-- Phases (Table 1.1). -/
def Ph.atAdmit : Nat := 0
def Ph.prefill : Nat := 1
def Ph.handoff : Nat := 2
def Ph.decode : Nat := 3
def Ph.park : Nat := 4
def Ph.resume : Nat := 5
def Ph.done : Nat := 6
def Ph.cancelled : Nat := 7
def Ph.failed : Nat := 8

/-- DONE, CANCELLED and FAILED are terminal. -/
def terminal (ph : Nat) : Bool := decide (6 ≤ ph) && decide (ph ≤ 8)

def mWithPhase (m : Manifest) (ph : Nat) (epoch : BitVec 16) : Manifest :=
  mSeal { m with w1 := setFld (setFld m.w1 19 16 ph) 15 0 epoch.toNat }

def mWithFlag (m : Manifest) (i : Nat) (v : Bool) : Manifest :=
  mSeal { m with w2 := setFld m.w2 (44 + i) (44 + i) (b2n v) }

def mWithOwner (m : Manifest) (node part : Nat) : Manifest :=
  { m with w1 := setFld (setFld m.w1 51 42 node) 55 52 part }

/-- Every reserved bit zero, as a writer leaves it (R50, R56). -/
def mClean (m : Manifest) : Manifest :=
  { m with w1 := setFld m.w1 63 60 0, w2 := setFld m.w2 63 55 0, w4 := setFld m.w4 63 52 0,
           w5 := setFld m.w5 63 52 0, w6 := setFld m.w6 63 52 0 }

def flWidened : Nat := 0
def flReconstructed : Nat := 1
def flStateLost : Nat := 2
def flRecomputed : Nat := 3
def flStrict : Nat := 4
def flAdapter : Nat := 5
def flKeep : Nat := 6
def flEvicted : Nat := 7
def flCancelFwd : Nat := 8
def flSharedPrefix : Nat := 9
def flGrammar : Nat := 10

/-- Sticky flags (Table 2.4). -/
def stickyFlag (i : Nat) : Bool := i = 0 || i = 1 || i = 2 || i = 3 || i = 8

/-- A manifest with the sticky flags of another copy of it set too (R56). -/
def mMerge (m n : Manifest) : Manifest :=
  ((List.range 16).filter fun i => stickyFlag i && mFlag n i).foldl (fun m i => mWithFlag m i true) m

/-! ## Tag (Table 2.5) -/

def tagTenant (t : Tag) : Nat := fld t.w0 63 48
def tagReqId (t : Tag) : ReqId := t.w0.setWidth 48
def tagAbort (t : Tag) : Bool := bitOf t.w1 56
def tagManifest (t : Tag) : Bool := bitOf t.w1 55
def tagLast (t : Tag) : Bool := bitOf t.w1 54
def tagShare (t : Tag) : Nat := fld t.w1 53 49
def tagIndex (t : Tag) : Nat := fld t.w1 48 24
def tagContent (t : Tag) : Nat := fld t.w1 23 20
def tagPhase (t : Tag) : Nat := fld t.w1 19 16
def tagEpoch (t : Tag) : BitVec 16 := t.w1.setWidth 16

/-- Content codes (Table 2.6). -/
def Ct.manifest : Nat := 0
def Ct.tokenLog : Nat := 1
def Ct.kvPage : Nat := 2
def Ct.sampler : Nat := 3
def Ct.promptLog : Nat := 4
def Ct.control : Nat := 5
def Ct.sharedRead : Nat := 6
def Ct.adapter : Nat := 7
def Ct.plain : Nat := 8

def mkTag (tenant : Nat) (id : ReqId) (content share phase epoch index : Nat) (last manifest : Bool) : Tag :=
  { w0 := setFld (id.setWidth 64) 63 48 tenant
    w1 := BitVec.ofNat 64 (epoch % 2 ^ 16 + phase % 16 * 2 ^ 16 + content % 16 * 2 ^ 20 + index % 2 ^ 25 * 2 ^ 24 +
      share % 32 * 2 ^ 49 + b2n last * 2 ^ 54 + b2n manifest * 2 ^ 55) }

/-- A tag with another CONTENT code. -/
def tagWithContent (t : Tag) (content : Nat) : Tag := { t with w1 := setFld t.w1 23 20 content }

/-- The tag of a request's transfer, built from its manifest (R93). -/
def tagOfManifest (m : Manifest) (content index : Nat) (last manifest : Bool) : Tag :=
  mkTag (mTenant m) (mReqId m) content (mShare m) (mPhase m) (mEpoch m).toNat index last manifest

/-- The tag of traffic of no request: REQ_ID 0 and CONTENT PLAIN, charged to the job's share class (R62, R93). -/
def tagOfJob (share : Nat) : Tag := mkTag 0 0 Ct.plain share 0 0 0 false false

/-! ## KV page descriptors and the request page table (Tables 2.7, 2.8) -/

def dCompressed (d : Word) : Bool := bitOf d 59
def dParked (d : Word) : Bool := bitOf d 58
def dShared (d : Word) : Bool := bitOf d 57
def dValid (d : Word) : Bool := bitOf d 56
def dFmt (d : Word) : Nat := fld d 55 52
def dAddr (d : Word) : Nat := fld d 51 12 * 4096
def dTokens (d : Word) : Nat := fld d 8 0

def mkDesc (addr fmt tokens : Nat) : Word :=
  setFld (setFld (setFld (setFld (0 : Word) 56 56 1) 55 52 fmt) 51 12 (addr / 4096)) 8 0 tokens

/-- Request page table header. -/
structure PtHdr where
  reqId : Nat
  layers : Nat
  pageCap : Nat
  pages : Nat
  pageBytes : Nat
  prefixPages : Nat
  deriving DecidableEq, Repr

def ptHdrOf (b : Bytes) : PtHdr :=
  { reqId := leAt b 0 6, layers := leAt b 8 2, pageCap := leAt b 0xC 4, pages := leAt b 0x10 4,
    pageBytes := leAt b 0x14 4, prefixPages := leAt b 0x18 4 }

def PtHdr.bytes (h : PtHdr) : Bytes :=
  leBytes 8 h.reqId ++ leBytes 2 h.layers ++ zeros 2 ++ leBytes 4 h.pageCap ++ leBytes 4 h.pages ++
    leBytes 4 h.pageBytes ++ leBytes 4 h.prefixPages ++ zeros 36

/-- Byte offset of the descriptor of layer `l`, page `p` (R64). -/
def descOff (layers p l : Nat) : Nat := 64 + 8 * (p * layers + l)

/-! ## Sampler record (Table 2.10) -/

def srTemp (b : Bytes) : BitVec 32 := BitVec.ofNat 32 (leAt b 0 4)
def srTopP (b : Bytes) : BitVec 32 := BitVec.ofNat 32 (leAt b 4 4)
def srMinP (b : Bytes) : BitVec 32 := BitVec.ofNat 32 (leAt b 8 4)
def srRepPen (b : Bytes) : BitVec 32 := BitVec.ofNat 32 (leAt b 0xC 4)
def srFreqPen (b : Bytes) : BitVec 32 := BitVec.ofNat 32 (leAt b 0x10 4)
def srPresPen (b : Bytes) : BitVec 32 := BitVec.ofNat 32 (leAt b 0x14 4)
def srTopK (b : Bytes) : Nat := leAt b 0x18 2
def srTurnLimit (b : Bytes) : Nat := leAt b 0x1A 2
def srGrammar (b : Bytes) : Nat := leAt b 0x1C 2
def srGstate (b : Bytes) : Nat := leAt b 0x1E 2
def srDraws (b : Bytes) : Nat := leAt b 0x20 8
def srEnd (b : Bytes) : List Nat := (List.range 4).map fun i => leAt b (0x28 + 4 * i) 4
def srPenWindow (b : Bytes) : Nat := leAt b 0x38 4
def srLogCap (b : Bytes) : Nat := leAt b 0x3C 4
def srLogAddr (b : Bytes) : Nat := leAt b 0x40 8 % 2 ^ 52
def srPrefixPt (b : Bytes) : Nat := leAt b 0x48 8 % 2 ^ 52
def srPrefixPages (b : Bytes) : Nat := leAt b 0x50 4
def srReplay (b : Bytes) : Bool := decide (leAt b 0x54 1 % 2 = 1)

/-- Every reserved bit and byte zero, as a writer leaves it (R69). -/
def srClean (b : Bytes) : Bytes :=
  let b := setLe (setLe (fitBytes 128 b) 0x40 8 (srLogAddr b)) 0x48 8 (srPrefixPt b)
  setLe (setLe b 0x54 1 (leAt b 0x54 1 % 2)) 0x55 39 0

/-- The record as a writer leaves it, its CRC recomputed over bytes 0x00 to 0x7B (R69, R70). -/
def srSeal (b : Bytes) : Bytes :=
  let b := srClean b
  b.take 124 ++ leBytes 4 (crc32c (b.take 124)).toNat

/-- A record given by a host, as the manager writes it: reserved bits zero, and its CRC made good only where it was
(R69, R71). -/
def srStore (b : Bytes) : Bytes :=
  if leAt b 0x7C 4 = (crc32c (b.take 124)).toNat then srSeal b else srClean b

def srCrcOk (b : Bytes) : Bool := decide (leAt b 0x7C 4 = (crc32c (b.take 124)).toNat)

/-- FP32 classes by their bits. -/
def f32Finite (x : BitVec 32) : Bool := decide (fld x 30 23 ≠ 255)
def f32Neg (x : BitVec 32) : Bool := bitOf x 31
def f32Zero (x : BitVec 32) : Bool := decide (fld x 30 0 = 0)

/-- Whether every value lies in the range of Table 2.10 (R71). -/
def srInRange (b : Bytes) : Bool :=
  let nonneg := fun x : BitVec 32 => f32Finite x && (!f32Neg x || f32Zero x)
  nonneg (srTemp b) &&
  (f32Finite (srTopP b) && !f32Neg (srTopP b) && !f32Zero (srTopP b) && decide ((srTopP b).toNat ≤ 0x3F800000)) &&
  (nonneg (srMinP b) && (f32Zero (srMinP b) || decide ((srMinP b).toNat < 0x3F800000))) &&
  (f32Finite (srRepPen b) && !f32Neg (srRepPen b) && !f32Zero (srRepPen b)) &&
  f32Finite (srFreqPen b) && f32Finite (srPresPen b) &&
  decide (srTopK b ≤ 1024) && decide (1 ≤ srTurnLimit b) &&
  ((srEnd b).all fun t => decide (t = 0xFFFFFFFF) || decide (t ≤ 262143))

/-! ## Token log entries (Table 2.11) -/

def logEntry (out turnStart : Bool) (token : Nat) : BitVec 32 :=
  BitVec.ofNat 32 (b2n out * 2 ^ 31 + b2n turnStart * 2 ^ 30 + token % 2 ^ 18)

/-! ## The manifest table of a partition (R93, R423) -/

def State.mftBase (s : State) (p : PartId) : Nat := s.regFld (ptBase p + 0x1010) 23 0

def State.manifest (s : State) (p : PartId) (k : Nat) : Manifest :=
  manifestOf (s.hsRead p (s.mftBase p + 64 * k) 64)

/-- Write a manifest of the table. The CRC stands as given: a writer seals it first. -/
def State.setManifest (s : State) (p : PartId) (k : Nat) (m : Manifest) : State :=
  s.hsWrite p (s.mftBase p + 64 * k) (mBytes m)

/-- Whether a slot is in range and holds a request (R127). -/
def State.slotOk (s : State) (p : PartId) (k : Nat) : Bool := decide (k < 1024) && (s.slot p k).held

/-- A live request: held, not terminal, and not departed to another owner (R106, R340). (DEDUCED: log 27) -/
def State.liveSlots (s : State) (p : PartId) : List Nat :=
  (s.heldSlots p).filter fun k => !(s.slot p k).gone && !terminal (mPhase (s.manifest p k))

/-- The lowest slot that neither holds a request nor is receiving one. -/
def State.freeSlot (s : State) (p : PartId) : Option Nat :=
  (List.range 1024).find? fun k => !(s.slot p k).held && !((s.part p).incoming.any fun i => !i.park && i.slot == k)

/-- EPOCH of the current book, zero while none is held. -/
def State.epoch (s : State) : BitVec 16 := (s.mgr.cur.map (·.epoch)).getD 0

/-- The slot of a partition that holds a request id. -/
def State.slotOfReq (s : State) (p : PartId) (id : ReqId) : Option Nat :=
  (s.heldSlots p).find? fun k => mReqId (s.manifest p k) == id

/-- The hub's request directory (R322): partition and slot of a request held on this node. -/
def State.findReq (s : State) (id : ReqId) : Option (PartId × Nat) :=
  (List.finRange 16).findSome? fun p => (s.slotOfReq p id).map fun k => (p, k)

/-! ## The job and the charges of a partition's traffic -/

/-- Share class charged for a tag reference (R336). -/
def State.shareOf (s : State) (p : PartId) (tag : Nat) : Nat :=
  if tag < 1024 then mShare (s.manifest p tag) else s.jobShare ((s.jobOf p).getD 0)

/-- The tag an instruction's transfers carry (R93). (DESIGN CHOICE: log 39) -/
def State.tagFor (s : State) (p : PartId) (tag : Nat) : Tag :=
  if tag < 1024 then tagOfManifest (s.manifest p tag) Ct.plain 0 false false
  else tagOfJob (s.jobShare ((s.jobOf p).getD 0))

/-- Charge bytes of a transfer to a share class (R62, R336). -/
def State.chargeBytes (s : State) (share n : Nat) : State := s.addReg (0x701000 + 0x80 * share + 0x48) n

/-- Charge CLK_A of queue `q` to a share class (R336). -/
def State.chargeClk (s : State) (share q n : Nat) : State := s.addReg (0x701000 + 0x80 * share + 8 * q) n

/-- Add to a tariff counter kind of a tenant, or to MTR_UNMAPPED (R337). -/
def State.meterAdd (s : State) (tenant kind n : Nat) : State :=
  match tabFind s.meter.map tenant with
  | none => s.addReg (0x700100 + 8 * kind) n
  | some k =>
    let a := k * 8 + kind
    let v := tabGet (fun _ => 0) s.meter.sets a + BitVec.ofNat 64 n
    { s with meter := { s.meter with sets := tabSet (fun _ => 0) s.meter.sets a v } }

end Sys2Proof.Machine
end

