-- ==== Sys2Proof/Machine/Encoding.lean ====
section
/-! DEFINITION. Smirax instruction words: the fields of Tables 4.1 to 4.4, the opcodes of Tables 4.9 to 4.15 with the
fields each row uses, and the checks the drover makes when it decodes (R110, R112, R113). -/

namespace Sys2Proof.Machine

/-! ## Fields -/

def iOp (w : InsnWord) : Nat := fld w 127 120
def iPneg (w : InsnWord) : Bool := bitOf w 119
def iPred (w : InsnWord) : Nat := fld w 118 116
def iQueue (w : InsnWord) : Nat := fld w 115 112
-- engine layout (Table 4.2)
def iTag (w : InsnWord) : Nat := fld w 111 100
def iPost (w : InsnWord) : Nat := fld w 99 92
def iWaitEn (w : InsnWord) : Bool := bitOf w 91
def iWaitSig (w : InsnWord) : Nat := fld w 90 83
def iWaitReg (w : InsnWord) : Nat := fld w 82 77
def iDa (w : InsnWord) : Nat := fld w 76 73
def iDb (w : InsnWord) : Nat := fld w 72 69
def iDc (w : InsnWord) : Nat := fld w 68 65
def iSa (w : InsnWord) : Nat := fld w 64 59
def iSb (w : InsnWord) : Nat := fld w 58 53
def iSc (w : InsnWord) : Nat := fld w 52 47
def iMode (w : InsnWord) (hi lo : Nat) : Nat := fld w hi lo
-- drover-local layout (Table 4.3)
def iDst (w : InsnWord) : Nat := fld w 111 106
def iSrcA (w : InsnWord) : Nat := fld w 105 100
def iSrcB (w : InsnWord) : Nat := fld w 99 94
def iUseImm (w : InsnWord) : Bool := bitOf w 93
def iCond (w : InsnWord) : Nat := fld w 92 90
def iSub (w : InsnWord) : Nat := fld w 89 86
def iImm (w : InsnWord) : Word := w.setWidth 64
-- signal layout (Table 4.4)
def iSigLo (w : InsnWord) : Nat := fld w 111 104
def iSigHi (w : InsnWord) : Nat := fld w 103 96
def iReg (w : InsnWord) : Nat := fld w 95 90
def iPdst (w : InsnWord) : Nat := fld w 89 87
def iQmask (w : InsnWord) : Nat := fld w 86 78
def iSigTag (w : InsnWord) : Nat := fld w 77 66

/-! ## Opcode rows -/

/-- How an engine instruction's tag reference is bound (R113): a convoy operand in SA, a convoy operand in SC, a
slot operand in SA, or any other, for which SC may hold a convoy number. -/
inductive TagKind where
  | local_ | conv | convSc | slot | other
  deriving DecidableEq, Repr

/-- One opcode row: opcode, revision, queues it may use (15 is drover-local), tag rule, the bits of the word the row
uses beside the header (and, for an engine row, beside TAGREF, POST and the wait condition), the descriptor operands
it reads, the scalars it reads and the one it writes. -/
structure OpRow where
  op : Nat
  rev : Nat
  queues : List Nat
  tag : TagKind
  used : List (Nat × Nat)
  deriving DecidableEq, Repr

def qLocal : List Nat := [15]
def qAll : List Nat := [0, 1, 2, 3, 4, 5, 6, 7, 8]
def fDA : Nat × Nat := (76, 73)
def fDB : Nat × Nat := (72, 69)
def fDC : Nat × Nat := (68, 65)
def fSA : Nat × Nat := (64, 59)
def fSB : Nat × Nat := (58, 53)
def fSC : Nat × Nat := (52, 47)
def fDST : Nat × Nat := (111, 106)
def fSRCA : Nat × Nat := (105, 100)
def fSRCB : Nat × Nat := (99, 94)
def fIMM : Nat × Nat := (63, 0)
def fVX : Nat × Nat := (46, 39)

def controlRows : List OpRow := [
  ⟨0x00, 0x10, qLocal, .local_, []⟩,
  ⟨0x01, 0x10, qLocal, .local_, [fDST, fIMM]⟩,
  ⟨0x02, 0x10, qLocal, .local_, [fDST, fSRCA]⟩,
  ⟨0x03, 0x10, qLocal, .local_, [fDST, fSRCA, fSRCB, (93, 93), fIMM]⟩,
  ⟨0x04, 0x10, qLocal, .local_, [fDST, fSRCA, fSRCB, (93, 93), fIMM]⟩,
  ⟨0x05, 0x10, qLocal, .local_, [fDST, fSRCA, fSRCB, (93, 93), fIMM]⟩,
  ⟨0x06, 0x10, qLocal, .local_, [fDST, fSRCA, fSRCB, (93, 93), fIMM]⟩,
  ⟨0x07, 0x10, qLocal, .local_, [fDST, fSRCA, fSRCB, (93, 93), fIMM]⟩,
  ⟨0x08, 0x10, qLocal, .local_, [fDST, fSRCA, fSRCB, (93, 93), fIMM]⟩,
  ⟨0x09, 0x10, qLocal, .local_, [fDST, fSRCA, fSRCB, (93, 93), fIMM]⟩,
  ⟨0x0A, 0x10, qLocal, .local_, [fDST, fSRCA, fSRCB, (93, 93), fIMM]⟩,
  ⟨0x0B, 0x10, qLocal, .local_, [fDST, fSRCA, fSRCB, (93, 93), (92, 90), fIMM]⟩,
  ⟨0x0C, 0x10, qLocal, .local_, [(13, 0)]⟩,
  ⟨0x0D, 0x10, qLocal, .local_, [(13, 0)]⟩,
  ⟨0x0E, 0x10, qLocal, .local_, []⟩,
  ⟨0x0F, 0x10, qLocal, .local_, [(89, 86), (4, 0)]⟩]

def moveRows : List OpRow := [
  ⟨0x10, 0x10, [4], .other, [fDA, fDB]⟩,
  ⟨0x11, 0x10, [4], .other, [fDA, fDB, fDC]⟩,
  ⟨0x12, 0x10, [4], .other, [fDA, fSA]⟩,
  ⟨0x13, 0x10, [4], .other, [fSA, fSB, (1, 0)]⟩,
  ⟨0x14, 0x10, [4], .other, [fSA, fSB, (1, 0)]⟩,
  ⟨0x1C, 0x10, qLocal, .local_, [fDST, fSRCA, fSRCB, fIMM]⟩,
  ⟨0x1D, 0x10, qLocal, .local_, [fDST, fSRCA, fSRCB, fIMM]⟩,
  ⟨0x1E, 0x10, qLocal, .local_, [fDST, fSRCA, fIMM]⟩,
  ⟨0x1F, 0x10, qLocal, .local_, [fSRCA, fSRCB, fIMM]⟩,
  ⟨0xB0, 0x10, [4], .other, [fSA, (3, 0)]⟩,
  ⟨0xB1, 0x10, [4], .other, [fSA, fSB, (3, 0)]⟩,
  ⟨0xB2, 0x10, qLocal, .local_, [fDST]⟩]

def computeRows : List OpRow := [
  ⟨0x20, 0x10, [0], .other, [fDA, fDB, fDC, (2, 0)]⟩,
  ⟨0x21, 0x11, [0], .convSc, [fDA, fDB, fSA]⟩,
  ⟨0x30, 0x10, [1], .other, [fDA, fDB, fDC, fVX]⟩,
  ⟨0x31, 0x10, [1], .other, [fDA, fDB, fDC, fVX]⟩,
  ⟨0x32, 0x10, [1], .other, [fDA, fDB, fSA, fVX]⟩,
  ⟨0x33, 0x10, [1], .other, [fDA, fDB, fDC, fVX, (38, 0)]⟩,
  ⟨0x34, 0x10, [1], .other, [fDA, fSA, fVX, (38, 0)]⟩,
  ⟨0x35, 0x10, [1], .other, [fDA, fDB, fDC, fVX]⟩,
  ⟨0x36, 0x10, [1], .other, [fDA, fDB, fVX]⟩,
  ⟨0x37, 0x10, [1], .other, [fDA, fDB, fVX]⟩,
  ⟨0x38, 0x10, [1], .other, [fDA, fDB, fVX, (32, 32)]⟩,
  ⟨0x39, 0x10, [1], .other, [fDA, fDB, fVX, (35, 32)]⟩]

def attentionRows : List OpRow := [
  ⟨0x40, 0x10, [2], .conv, [fDA, fDB, fSA, fSB, (39, 0)]⟩,
  ⟨0x41, 0x10, [2], .slot, [fDA, fDB, fSA, fSB, (39, 0)]⟩,
  ⟨0x43, 0x10, [4], .conv, [fDA, fSA, fSB]⟩,
  ⟨0x44, 0x10, [4], .slot, [fDA, fSA, fSB]⟩,
  ⟨0x50, 0x10, [3], .conv, [fDA, fSA]⟩,
  ⟨0x51, 0x10, [3], .other, [fDA, fSA]⟩,
  ⟨0x52, 0x11, qLocal, .local_, [fSRCA]⟩]

def stateRows : List OpRow := [
  ⟨0x60, 0x10, qLocal, .local_, [fDST, fSRCA, (2, 0)]⟩,
  ⟨0x61, 0x10, qLocal, .local_, [fSRCA, (3, 0)]⟩,
  ⟨0x62, 0x10, qLocal, .local_, [fSRCA, (3, 0), (8, 8)]⟩,
  ⟨0x63, 0x10, qLocal, .local_, [fSRCA]⟩,
  ⟨0x64, 0x10, qLocal, .local_, [fDST, fSRCA, fSRCB]⟩,
  ⟨0x65, 0x10, qLocal, .local_, [fSRCA, fSRCB]⟩,
  ⟨0xA0, 0x10, qLocal, .local_, [(111, 104), (103, 96), (31, 0)]⟩,
  ⟨0xA1, 0x10, qLocal, .local_, [(111, 104), (103, 96), (95, 90), (89, 87)]⟩,
  ⟨0xA2, 0x10, qLocal, .local_, [(86, 78)]⟩,
  ⟨0xA3, 0x10, qAll, .other, [(11, 0)]⟩,
  ⟨0xA4, 0x10, qLocal, .local_, [(95, 90), (86, 78), (77, 66)]⟩,
  ⟨0xA5, 0x10, qLocal, .local_, [(95, 90), (89, 87)]⟩,
  ⟨0xA6, 0x10, qLocal, .local_, [(111, 104), (103, 96), (95, 90)]⟩]

def fabricRows : List OpRow := [
  ⟨0x70, 0x10, [5], .other, [fDA, fSA, (0, 0), (15, 8), (18, 16)]⟩,
  ⟨0x71, 0x10, [5], .other, [fDA, fSA, (18, 16)]⟩,
  ⟨0x72, 0x10, [5], .other, [(15, 8)]⟩,
  ⟨0x73, 0x10, [5], .slot, [fSA, fSB, fSC, (1, 0)]⟩,
  ⟨0x74, 0x10, [5], .slot, [fSA]⟩,
  ⟨0x80, 0x10, [6, 7], .other, [fDA, fDB, fDC, (4, 0)]⟩,
  ⟨0x81, 0x10, [6, 7], .other, [(0, 0)]⟩,
  ⟨0x82, 0x10, [6, 7], .other, [fDA, fDB, fSA]⟩,
  ⟨0x83, 0x12, [6, 7], .slot, [fDA, fDB, fSA, fSB, (31, 0)]⟩,
  ⟨0x90, 0x10, [8], .other, [fSA, fSB, (1, 0)]⟩,
  ⟨0x91, 0x10, [8], .other, [fSA, fSB, (2, 0)]⟩,
  ⟨0x92, 0x11, [8], .other, [fSA, fSB, (0, 0)]⟩]

/-- DEDUCED: log 13. -/
def opRows : List OpRow :=
  controlRows ++ moveRows ++ computeRows ++ attentionRows ++ stateRows ++ fabricRows

def opRow (op : Nat) : Option OpRow := opRows.find? fun r => r.op = op

/-- The row an instruction word belongs to: its opcode, and for SYS 0x100 plus its SUB. None for a word of no row:
an opcode not assigned, or SYS with SUB 4 to 15. (DESIGN CHOICE: log 8) -/
def rowKey (w : InsnWord) : Option Nat :=
  if iOp w = 0x0F then (if iSub w < 4 then some (0x100 + iSub w) else none)
  else (opRow (iOp w)).map (·.op)

/-! ## Checks at decode (R110) -/

/-- Bits of the word that the row uses. (DEDUCED: log 13) -/
def usedMask (r : OpRow) (w : InsnWord) : InsnWord :=
  let fields := r.used.foldl (fun m f => m ||| maskBits 128 f.1 f.2) (0 : InsnWord)
  let header := maskBits 128 127 112
  match r.tag with
  | .local_ =>
    -- a second source that is the immediate leaves SRC_B unused, and the other way round; START alone uses IMM of SYS
    let alt : InsnWord :=
      if r.used.contains (93, 93) then (if iUseImm w then maskBits 128 99 94 else maskBits 128 63 0)
      else if r.op = 0x0F ∧ iSub w ≠ 3 then maskBits 128 4 0
      else 0
    header ||| (fields &&& ~~~alt)
  | _ =>
    let wait := if iWaitEn w then maskBits 128 91 77 else maskBits 128 91 91
    let sc := if r.tag = .convSc ∨ (r.tag = .other ∧ iTag w = 0x400) then maskBits 128 52 47 else 0
    header ||| maskBits 128 111 92 ||| wait ||| sc ||| fields

/-- Field values a row leaves unassigned (R110, fourth point). (DEDUCED: log 13) (DESIGN CHOICE: log 99) -/
def valueOk (w : InsnWord) : Bool :=
  let op := iOp w
  if op = 0x0B then decide (iDst w ≤ 7)
  else if op = 0x0F then decide (iSub w < 4)
  else if op = 0x13 ∨ op = 0x14 then decide (fld w 1 0 ≠ 3)
  else if op = 0x1C ∨ op = 0x1D then decide (iDst w ≤ 15) && decide (iSrcB w ≤ 15) && decide (iDst w ≤ iSrcB w)
  else if op = 0x39 then decide (fld w 35 32 < 6)
  else if op = 0x62 then decide (fld w 3 0 ≤ 10) && !(bitOf w 8 && stickyFlag (fld w 3 0))
  else if op = 0x64 then decide (iDst w ≤ 7)
  else if op = 0x70 then decide (1 ≤ fld w 18 16)
  else if op = 0x71 then decide (1 ≤ fld w 18 16)
  else if op = 0x72 then decide (fld w 15 8 ≠ 255)
  else if op = 0x73 then decide (fld w 1 0 < 2)
  else if op = 0x80 then decide (fld w 4 3 ≠ 1)
  else if op = 0x90 then decide (fld w 1 0 < 2)
  else if op = 0xA0 then decide (iSigLo w ≤ iSigHi w)
  else if op = 0xA1 ∨ op = 0xA6 then decide (iSigLo w = iSigHi w)
  else if op = 0xA4 then decide (iQmask w ≠ 0) && decide (iQmask w &&& (iQmask w - 1) = 0)
  else if op = 0xA5 then decide (iReg w ≤ 56)
  else true

/-- Whether the tag reference is neither reserved nor against R113. (DEDUCED: log 13) -/
def tagOk (r : OpRow) (w : InsnWord) : Bool :=
  match r.tag with
  | .local_ => r.op ≠ 0xA4 || decide (iSigTag w ≤ 0x400) || decide (iSigTag w = 0xFFF)
  | .conv | .convSc => decide (iTag w = 0x400)
  | .slot => decide (iTag w = 0xFFF)
  | .other => decide (iTag w ≤ 0x400) || decide (iTag w = 0xFFF)

/-- The number of the first failing condition of R110, counted from 1; none for a word that may issue under an image
of the given ISA_MAX (R105). -/
def illegal (isaMax : Nat) (w : InsnWord) : Option Nat :=
  match opRow (iOp w) with
  | none => some 1
  | some r =>
    if !r.queues.contains (iQueue w) then some 2
    else if iPneg w ∧ iPred w = 0 then some 3
    else if w &&& ~~~(usedMask r w) ≠ 0 ∨ valueOk w = false then some 4
    else if tagOk r w = false then some 5
    else if isaMax < r.rev then some 6
    else none

end Sys2Proof.Machine
end

