-- ==== Sys2Proof/Machine/Tensor.lean ====
section
/-! DEFINITION. Tensor descriptors (R116) and the checks an engine makes of them when it starts an instruction
(R117, R118). -/

namespace Sys2Proof.Machine

abbrev Desc := BitVec 256

def tCompressed (d : Desc) : Bool := bitOf d 59
def tFallback (d : Desc) : Bool := bitOf d 58
def tSpace (d : Desc) : Nat := fld d 57 56
def tFmt (d : Desc) : Nat := fld d 55 52
def tAddr (d : Desc) : Nat := fld d 51 0
def tRows (d : Desc) : Nat := fld d 127 104
def tCols (d : Desc) : Nat := fld d 103 80
def tScale (d : Desc) : Nat := fld d 179 128
def tStride (d : Desc) : Nat := fld d 255 224
def tSStride (d : Desc) : Nat := fld d 223 192

/-- Width of an element in bits (R116). -/
def fmtBits (f : Nat) : Nat := [32, 16, 16, 8, 8, 8, 6, 6, 4].getD f 8

/-- Formats with one E8M0 scale for 32 elements. -/
def fmtBlock (f : Nat) : Bool := decide (6 ≤ f) && decide (f ≤ 8)

def tRowBytes (d : Desc) : Nat := tCols d * fmtBits (tFmt d) / 8
def tScaleBytes (d : Desc) : Nat := if fmtBlock (tFmt d) then tCols d / 32 else 0
def tElems (d : Desc) : Nat := tRows d * tCols d
/-- Bytes a tensor holds, its scales included. -/
def tBytes (d : Desc) : Nat := tRows d * (tRowBytes d + tScaleBytes d)

/-- Row `i`, as an address of its space. -/
def tRowAt (d : Desc) (i : Nat) : Nat := tAddr d + i * tStride d
def tScaleAt (d : Desc) (i : Nat) : Nat := tScale d + i * tSStride d

def descWords (d : Desc) : List Word := [d.setWidth 64, (d >>> 64).setWidth 64, (d >>> 128).setWidth 64, (d >>> 192).setWidth 64]

/-- The first failing condition of R117, counted from 1, of the conditions on a descriptor alone. -/
def descInvalid (d : Desc) : Option Nat :=
  let f := tFmt d
  let al := if tSpace d = 0 then 32 else 64
  if 9 ≤ f ∨ tSpace d = 3 ∨ fld d 63 60 ≠ 0 ∨ fld d 79 64 ≠ 0 ∨ fld d 191 180 ≠ 0 then some 1
  else if tRows d = 0 ∨ tCols d = 0 then some 2
  else if fmtBlock f = false ∧ (tScale d ≠ 0 ∨ tSStride d ≠ 0) then some 3
  else if fmtBlock f ∧ (tCols d % 32 ≠ 0 ∨ tScale d = 0) then some 4
  else if tStride d < tRowBytes d then some 5
  else if tAddr d % al ≠ 0 ∨ tScale d % al ≠ 0 ∨ tStride d % al ≠ 0 ∨ tSStride d % al ≠ 0 then some 6
  else none

/-- Whether the run of bytes from `a` on stays inside the space (R117). -/
def extentIn (space a n : Nat) : Bool :=
  match space with
  | 0 => decide (a + n ≤ hsramBytes)
  | 1 => decide (a + n ≤ stateEnd)
  | _ => decide (a / 2 ^ 42 = (a + n - 1) / 2 ^ 42) && decide (a % 2 ^ 42 + n ≤ stateEnd)

/-- Whether a tensor's extent, and the extent of its scales, stay inside their space. The extent of a compressed
tensor is that of its stored bytes, checked once its index table is read (R206); its scales are not compressed. -/
def descInRange (d : Desc) : Bool :=
  (tCompressed d || extentIn (tSpace d) (tAddr d) ((tRows d - 1) * tStride d + tRowBytes d)) &&
    (!fmtBlock (tFmt d) || extentIn (tSpace d) (tScale d) ((tRows d - 1) * tSStride d + tScaleBytes d))

/-- Spaces that operand `i` (0 DA, 1 DB, 2 DC) of an opcode accepts (Table 4.6). -/
def spacesOf (op i : Nat) : List Nat :=
  if op = 0x10 ∨ op = 0x11 ∨ op = 0x12 then (if i = 0 then [0, 1] else [0, 1, 2])
  else if op = 0x43 ∨ op = 0x44 then [0, 1, 2]
  else if op = 0x80 ∧ i = 2 then [1]
  else [0]

/-- Operands that the DMA engine reads: DB and DC of DMA_COPY and DMA_GATHER, DA of a scatter. -/
def dmaSource (op i : Nat) : Bool :=
  (decide (op = 0x10 ∨ op = 0x11) && decide (i ≠ 0)) || decide (op = 0x43 ∨ op = 0x44)

/-- Whether the COMPRESSED and FALLBACK bits of operand `i` of an opcode are as Table 8.4 allows: a source of DMA_COPY
or DMA_GATHER in space 1 or 2 with FALLBACK clear, or the weight operand of MX_GEMM in space 0 with FALLBACK set. No DMA
source has FALLBACK set (R214), and no operand has it without COMPRESSED (R392). -/
def compressedOk (op i : Nat) (d : Desc) : Bool :=
  if tFallback d && (dmaSource op i || !tCompressed d) then false
  else if !tCompressed d then true
  else (decide (op = 0x20) && decide (i = 2) && tFallback d && decide (tSpace d = 0)) ||
    ((decide (op = 0x10) || decide (op = 0x11)) && decide (i = 1) && decide (tSpace d ≠ 0))

/-- What a check of one operand finds: the fault's status and its two detail words (R398). -/
def operandFault (op i : Nat) (d : Desc) : Option (Status × Nat × Nat) :=
  let w0 := (d.setWidth 64 : Word).toNat
  match descInvalid d with
  | some k => some (St.descInvalid, w0, i + 256 * k)
  | none =>
    if compressedOk op i d = false then some (St.descInvalid, w0, i + 256 * 7)
    else if (spacesOf op i).contains (tSpace d) = false ∨ descInRange d = false then
      some (St.operandRange, tAddr d, tSpace d)
    else none

end Sys2Proof.Machine
end

