-- ==== Sys2Proof/Machine/Packet.lean ====
section
/-! DEFINITION. Dispatch packets between the rings and the drovers (R100, R101, R355 to R360): which packet a drover
takes, completion records and their interrupts. -/

namespace Sys2Proof.Machine

def State.ring (s : State) (r : Nat) : Ring := vget s.host.rings r Ring.reset
def State.setRing (s : State) (r : Nat) (x : Ring) : State := s.modHost fun h => { h with rings := vset h.rings r x }

/-- The function that owns ring `r`: VF (r div 4) + 1 while that VF is enabled, else the PF (R355). -/
def State.ringOwner (s : State) (r : Nat) : Nat := if r / 4 + 1 ≤ s.host.vfEnable then r / 4 + 1 else 0

/-- The completion ring, by its global number, that a packet of ring `r` names with its CQ field; none where its
function does not own that ring (R359). -/
def State.cqOf (s : State) (r cq : Nat) : Option Nat :=
  let f := s.ringOwner r
  if f = 0 then (if cq < 64 ∧ s.ringOwner cq = 0 then some cq else none)
  else if cq < 4 then some (4 * (f - 1) + cq) else none

/-- Whether a completion ring is enabled; one of the PF that names vector 0 is not (R360). -/
def State.cqEnabled (s : State) (r : Nat) : Bool :=
  s.regBit (cqOff r + 8) 5 && !(decide (s.ringOwner r = 0) && decide (s.regFld (cqOff r + 8) 42 32 = 0))

def State.cqSize (s : State) (r : Nat) : Nat := 2 ^ s.regFld (cqOff r + 8) 4 0
def State.sqSize (s : State) (r : Nat) : Nat := 2 ^ s.regFld (sqOff r + 8) 3 0

/-- Free records of a completion ring: a ring of N records holds N − 1 unread ones (R356, R357), and a record reserved
or waited for is not free. -/
def State.cqFree (s : State) (r : Nat) : Nat :=
  let n := s.cqSize r
  let used := (s.regFld (cqOff r + 0x10) 15 0 + n - s.regFld (cqDbOff r) 15 0 % n) % n
  n - 1 - used - (s.ring r).reserved - (s.host.waiting.filter fun w => w.1 = r).length

/-- Signal a completion ring's vector, or count the record as not yet signalled (R360). -/
def State.cqSignal (s : State) (r : Nat) : State :=
  let g := s.ring r
  let n := s.regFld (cqOff r + 8) 31 24
  if n = 0 ∨ n ≤ g.unsignalled + 1 then
    (s.setRing r { g with unsignalled := 0 }).signalMsix (s.ringOwner r) (s.regFld (cqOff r + 8) 42 32)
  else s.setRing r { g with unsignalled := g.unsignalled + 1 }

/-- A completion record without its PHASE bit (Table 14.5). -/
def completionBytes (id s56 s57 : Word) (st : Status) (sq sqHead : Nat) : Bytes :=
  wordBytes id ++ wordBytes s56 ++ wordBytes s57 ++ leBytes 2 st.toNat ++ leBytes 1 sq ++ leBytes 1 0 ++
    leBytes 2 sqHead ++ leBytes 2 0

/-- Write a record at the tail of a completion ring, with the PHASE of the pass, and signal it. -/
def State.cqPush (s : State) (r : Nat) (b : Bytes) : State :=
  let n := s.cqSize r
  let t := s.regFld (cqOff r + 0x10) 15 0
  let g := s.ring r
  let s := s.hostWrite ((s.reg (cqOff r)).toNat + 32 * t) (setLe b 0x1B 1 (b2n g.phase))
  let t' := (t + 1) % n
  let s := s.setRegFld (cqOff r + 0x10) 15 0 t'
  let s := if t' = 0 then s.setRing r { g with phase := !g.phase } else s
  s.cqSignal r

/-- The ring number a completion record carries: local for a VF (Table 14.5). -/
def State.sqName (s : State) (r : Nat) : Nat := if s.ringOwner r = 0 then r else r % 4

/-- The completion of a packet that was taken: its record, into the place reserved for it; discarded and counted where
a host reset came between, or where the ring is no longer enabled (R363). It waits only where the ring has been enabled anew
with fewer places than are reserved. (DEDUCED: log 84) -/
def State.completePacket (s : State) (k : Packet) (s56 s57 : Word) (st : Status) : State :=
  match s.cqOf k.ring k.cq with
  | some c =>
    if k.discard ∨ s.cqEnabled c = false then s.addReg 0x500310 1
    else
      let s := s.setRing c { s.ring c with reserved := (s.ring c).reserved - 1 }
      let b := completionBytes k.id s56 s57 st (s.sqName k.ring) k.sqHead
      if 0 < s.cqFree c then s.cqPush c b else s.modHost fun h => { h with waiting := h.waiting ++ [(c, b)] }
  | none => s.addReg 0x500310 1

/-- Whether the record of a packet that is not executed finds room: a packet gets none where its completion ring is disabled
or not its function's (R358, R359). (DEDUCED: log 84) -/
def State.answerRoom (s : State) (k : Packet) : Bool :=
  match s.cqOf k.ring k.cq with
  | some c => !s.cqEnabled c || decide (0 < s.cqFree c)
  | none => true

/-- Answer a packet that is not executed, for whose record there is room; a disabled ring gets none (R359).
(DEDUCED: log 84) -/
def State.answerUntaken (s : State) (k : Packet) (st : Status) : State :=
  match s.cqOf k.ring k.cq with
  | some c =>
    let b := completionBytes k.id 0 0 st (s.sqName k.ring) k.sqHead
    if s.cqEnabled c = false then s else s.cqPush c b
  | none => s

/-- Write the records that waited for room in a completion ring, as far as it has room. -/
def State.flushWaiting (s : State) (r : Nat) : State :=
  s.host.waiting.foldl (fun s w =>
    let rest := { s with host := { s.host with waiting := s.host.waiting.erase w } }
    if w.1 = r ∧ s.cqEnabled r ∧ 0 < rest.cqFree r then rest.cqPush r w.2 else s) s

/-- SQ_HEAD moves on past the entry at the head (R356). -/
def State.sqAdvance (s : State) (r : Nat) : State :=
  s.setRegFld (sqOff r + 0x10) 11 0 ((s.regFld (sqOff r + 0x10) 11 0 + 1) % s.sqSize r)

/-- The ring and packet a drover would take now: among the heads of its four rings whose completion ring has a free
record, IMMEDIATE before AT_YIELD, then by round robin over ring numbers (R358). `yieldOk` tells whether an AT_YIELD
packet may be taken. (DEDUCED: log 14) -/
def State.nextPacket (s : State) (p : PartId) (yieldOk : Bool) : Option (Nat × Packet) :=
  let last := (s.drv p).lastRing % 4
  let order := (List.range 4).map fun i => 4 * p.val + (last + 1 + i) % 4
  let heads := order.filterMap fun r =>
    match (s.ring r).fetched with
    | k :: _ =>
      match s.cqOf r k.cq with
      | some c => if s.cqEnabled c ∧ 0 < s.cqFree c then some (r, k) else none
      | none => none
    | [] => none
  match heads.find? fun e => e.2.immediate with
  | some e => some e
  | none => if yieldOk then heads.head? else none

/-- Whether a packet's job owns its target: it is the current job of a SERVING partition (R100, R324, R331). -/
def State.packetOwned (s : State) (p : PartId) (k : Packet) : Bool :=
  decide ((s.part p).st = .serving) && decide (s.jobOf p = some k.job)

/-- Refuse the heads of a partition's four rings whose job does not own it: nothing is executed, each is counted and
answered with PART_OFFLINE (R100, R331, R359); it stays at the head while the ring of its record has no room (R358).
(DEDUCED: log 84) -/
def State.refuseStale (s : State) (p : PartId) : State :=
  (List.range 4).foldl (fun s i =>
    let r := 4 * p.val + i
    match (s.ring r).fetched with
    | k :: rest =>
      if s.packetOwned p k || !s.answerRoom k then s
      else
        let s := ((s.setRing r { s.ring r with fetched := rest }).sqAdvance r).addReg 0x500308 1
        s.answerUntaken { k with sqHead := s.regFld (sqOff r + 0x10) 11 0 } St.partOffline
    | [] => s) s

/-- Take a packet into the dispatch buffer and switch into the dispatch context (R101): its arguments go to the
dispatch bank's s56 to s59, and the record of its completion ring is reserved. (DEDUCED: log 14) -/
def State.takePacket (s : State) (p : PartId) (r : Nat) (k : Packet) : State :=
  let s := s.setRing r { s.ring r with fetched := (s.ring r).fetched.drop 1 }
  let s := s.sqAdvance r
  let s := match s.cqOf r k.cq with
    | some c => s.setRing c { s.ring c with reserved := (s.ring c).reserved + 1 }
    | none => s
  let k := { k with sqHead := s.regFld (sqOff r + 0x10) 11 0 }
  let s := s.modDrv p fun d =>
    { d with
      resume := d.dstate, dstate := .dispatch, pkt := some k, pktSerial := d.pktSerial + 1, pktFault := none,
      pktStarted := false, dispPc := 0, lastRing := r, stalled := false, waitRaised := false, waitAt := none,
      bank := (List.range 4).foldl (fun b i => vset b i (k.args.getD i 0)) d.bank }
  ((s.addReg 0x500300 1).perf p 22).addReg (ptBase p + 0x1100 + 8 * 23) 8

/-- The packet of the dispatch context ends (R101): the dispatch context's call-stack entries go, and the drover
returns to the state it interrupted, or to RUNNING after START. A packet ended by a drover fault returns to the state it
interrupted (Table 3.8). (DEDUCED: log 10; DESIGN CHOICE: log 11) -/
def State.endPacket (s : State) (p : PartId) (faulted : Bool) : State :=
  let d := s.drv p
  match d.pkt with
  | none => s
  | some k =>
    let e : EndedPkt :=
      { serial := d.pktSerial, pkt := k, status := d.pktFault.getD St.ok, s56 := vget d.bank 0 0,
        s57 := vget d.bank 1 0 }
    (s.setDrv p { d with
      dstate := if d.pktStarted ∧ faulted = false then .running else d.resume,
      pkt := none, pktFault := none, pktStarted := false, stalled := false, fenceDisp := none,
      ended := d.ended ++ [e], stack := d.stack.filter fun x => !x.1 }).addReg (ptBase p + 0x1100 + 8 * 23) 8

end Sys2Proof.Machine
end

