-- ==== Sys2Proof/Machine/Operands.lean ====
section
/-! DEFINITION. What an instruction reads and writes: the scalar registers, predicates and program counter of its
context (R77, R78), pending registers (R83), and the steps from fetch to issue (R81, R84, R110, R131). -/

namespace Sys2Proof.Machine

/-! ## Registers of a context -/

/-- Scalar register `k`: s56 to s63 are the context's own (R77). -/
def Drover.sreg (d : Drover) (disp : Bool) (k : Nat) : Word :=
  if disp ∧ 56 ≤ k then vget d.bank (k - 56) 0 else vget d.sregs k 0

def Drover.setSreg (d : Drover) (disp : Bool) (k : Nat) (v : Word) : Drover :=
  if disp ∧ 56 ≤ k then { d with bank := vset d.bank (k - 56) v } else { d with sregs := vset d.sregs k v }

/-- Predicate `k`: p0 reads as true, p6 and p7 are the context's own (R77, R78). -/
def Drover.pred (d : Drover) (disp : Bool) (k : Nat) : Bool :=
  if k = 0 then true else if disp ∧ 6 ≤ k then bitOf d.dpreds k else bitOf d.preds k

/-- A write to p0 is ignored (R78). -/
def Drover.setPred (d : Drover) (disp : Bool) (k : Nat) (v : Bool) : Drover :=
  if k = 0 then d
  else if disp ∧ 6 ≤ k then { d with dpreds := setFld d.dpreds k k (b2n v) }
  else { d with preds := setFld d.preds k k (b2n v) }

def Drover.dreg (d : Drover) (k : Nat) : Desc := vget d.dregs k 0

def Drover.ctxPc (d : Drover) (disp : Bool) : BitVec 14 := if disp then d.dispPc else d.mainPc

def Drover.setPc (d : Drover) (disp : Bool) (v : BitVec 14) : Drover :=
  if disp then { d with dispPc := v } else { d with mainPc := v }

/-- The number under which a register's pending mark stands: s56 to s63 of the dispatch bank are 64 to 71. -/
def regKey (disp : Bool) (k : Nat) : Nat := if disp ∧ 56 ≤ k then k + 8 else k

def Drover.entries (d : Drover) : List QEntry := d.queues.toList.flatten

/-- Registers that an instruction issued and not yet retired writes at retire (R83). -/
def Drover.pendingRegs (d : Drover) : List Nat := d.entries.filterMap (·.wb)

/-- Write a register by its pending number. -/
def Drover.writeKey (d : Drover) (k : Nat) (v : Word) : Drover :=
  if 64 ≤ k then { d with bank := vset d.bank (k - 64) v } else { d with sregs := vset d.sregs k v }

/-! ## Fetch -/

/-- The instruction a drover is about to decode; `beyond` where the program counter lies beyond the code. -/
structure Ctx where
  p : PartId
  disp : Bool
  pc : Nat
  w : InsnWord
  beyond : Bool := false
  deriving DecidableEq, Repr

/-- What stands at the active context's program counter: nothing to execute, a place beyond the code, or a word. -/
inductive Fetched where
  | nothing
  | beyond (c : Ctx)
  | word (c : Ctx)
  deriving DecidableEq, Repr

/-- Fetch for the active context: the instruction store in RUNNING, the dispatch buffer in DISPATCH (R98, R100).
(DESIGN CHOICE: log 8) -/
def State.fetch (s : State) (p : PartId) : Fetched :=
  let d := s.drv p
  match d.dstate with
  | .running =>
    match d.istore[d.mainPc.toNat]? with
    | some w => .word { p := p, disp := false, pc := d.mainPc.toNat, w := w }
    | none => .beyond { p := p, disp := false, pc := d.mainPc.toNat, w := 0, beyond := true }
  | .dispatch =>
    match d.pkt with
    | none => .nothing
    | some k =>
      if d.dispPc.toNat = k.insns.length then .nothing
      else
        match k.insns[d.dispPc.toNat]? with
        | some w => .word { p := p, disp := true, pc := d.dispPc.toNat, w := w }
        | none => .beyond { p := p, disp := true, pc := d.dispPc.toNat, w := 0, beyond := true }
  | _ => .nothing

def isEngine (w : InsnWord) : Bool := decide (iQueue w ≤ 8)

/-- The highest revision the resident program may use (R105). (DESIGN CHOICE: log 12) -/
def Drover.isaMax (d : Drover) : Nat := (d.image.map (·.isaMax)).getD 0x12

/-- Scalar registers an instruction reads or writes, by number. -/
def scalarRegs (w : InsnWord) : List Nat :=
  match opRow (iOp w) with
  | none => []
  | some r =>
    let has := fun f => r.used.contains f
    if isEngine w then
      (if has fSA then [iSa w] else []) ++ (if has fSB then [iSb w] else []) ++
      (if has fSC ∨ r.tag = .convSc ∨ (r.tag = .other ∧ iTag w = 0x400) then [iSc w] else []) ++
      (if iWaitEn w then [iWaitReg w] else [])
    else
      let dst := if has fDST ∧ ¬(r.op = 0x0B ∨ r.op = 0x1C ∨ r.op = 0x1D ∨ r.op = 0x64) then [iDst w] else []
      let a := if has fSRCA then [iSrcA w] else []
      let b := if has fSRCB ∧ ¬(r.op = 0x1C ∨ r.op = 0x1D) ∧ ¬(has (93, 93) ∧ iUseImm w) then [iSrcB w] else []
      let g := if has (95, 90) then (if r.op = 0xA5 then (List.range 8).map (iReg w + ·) else [iReg w]) else []
      dst ++ a ++ b ++ g

/-! ## Faults of the drover -/

/-- A drover fault (R94, R110): a fault record and a compute-class event; a main context becomes FAULTED, a packet
ends with the status. Beyond the code no instruction stands: its record names the drover's own queue 15, no request and
no signal. (DESIGN CHOICE: log 15) -/
def State.droverFault (s : State) (c : Ctx) (st : Status) (d0 d1 : Nat) : State :=
  let eng := isEngine c.w && !c.beyond
  let r : FaultRec :=
    { status := st, event := Ev.droverFault, queue := if c.beyond then 15 else iQueue c.w, opcode := iOp c.w,
      tag := if eng then iTag c.w else 0xFFF, pc := c.pc, disp := c.disp,
      signal := if eng then iPost c.w else 0xFF, insn := c.w, detail0 := BitVec.ofNat 64 d0,
      detail1 := BitVec.ofNat 64 d1, time := 0, seq := 0 }
  let s := s.faultRecord c.p (if c.disp then some (s.drv c.p).pktSerial else none) r
  let s := s.raise Ev.droverFault st c.p.val 0xFF 0 (evDetail d0 d1 0)
  if c.disp then s.endPacket c.p true
  else s.modDrv c.p fun d => { d with dstate := .faulted, stalled := false, waitRaised := false, waitAt := none, fenceMain := none }

/-- DESIGN CHOICE: log 12. -/
def State.illegalInsn (s : State) (c : Ctx) (cond : Nat) : State := s.droverFault c St.illegalInsn c.pc cond

/-- OPERAND_RANGE at drover scope: the address or slot that failed (R120, R127). -/
def State.rangeFault (s : State) (c : Ctx) (a : Nat) : State := s.droverFault c St.operandRange a 0

/-! ## Issue -/

/-- A stalled issue attempt (R84); `perf` is its stall counter, if any counts it. -/
def State.stall (s : State) (c : Ctx) (perf : Option Nat) : State :=
  let s := s.modDrv c.p fun d => { d with stalled := true }
  let s := match perf with | some k => s.perf c.p k | none => s
  if c.disp then s.perf c.p 23 else s

/-- An instruction has issued and the context goes on at `pc`; `clk` is its cost in CLK_N. (DESIGN CHOICE: log 16) -/
def State.issued (s : State) (c : Ctx) (pc : BitVec 14) (clk : Nat) : State :=
  let s := s.modDrv c.p fun d => { d.setPc c.disp pc with stalled := false }
  let s := s.perf c.p 0
  if c.disp then s.addReg (ptBase c.p + 0x1100 + 8 * 23) clk else s

/-- DESIGN CHOICE: log 12. -/
def Ctx.next (c : Ctx) : BitVec 14 := BitVec.ofNat 14 (c.pc + 1)

/-- Decode the instruction at the active context for the row `key`: nothing happens where another row's instruction
stands there; an encoding error faults before the predicate is evaluated (R110, R131); a pending register stalls
(R83, R84); a false predicate skips the instruction, which still posts its signal with FAULT clear (R81). What is
left to do is told by the second component. (DEDUCED: log 7; DESIGN CHOICE: log 8; DESIGN CHOICE: log 16) -/
def State.begin (s : State) (p : PartId) (key : Nat) : State × Option Ctx :=
  match s.fetch p with
  | .nothing => (s, none)
  | .beyond c => (s.illegalInsn c 0, none)
  | .word c =>
    let d := s.drv p
    let bad := illegal d.isaMax c.w
    if rowKey c.w = none then (s.illegalInsn c (bad.getD 1), none)
    else if rowKey c.w ≠ some key then (s, none)
    else
      match bad with
      | some k => (s.illegalInsn c k, none)
      | none =>
        if (scalarRegs c.w).any fun r => d.pendingRegs.contains (regKey c.disp r) then (s.stall c (some 2), none)
        else if d.pred c.disp (iPred c.w) = iPneg c.w then
          let s := if isEngine c.w then s.post p (iPost c.w) false else s
          (s.issued c c.next 1, none)
        else (s, some c)

/-- A drover-local instruction: `f` is its effect on the drover's registers. -/
def State.localOp (s : State) (p : PartId) (key : Nat) (f : Ctx → Drover → Drover) : State :=
  match s.begin p key with
  | (s, none) => s
  | (s, some c) => (s.modDrv p (f c)).issued c c.next 1

/-- A two-source arithmetic instruction: the second source is IMM or SRC_B (Table 4.3). -/
def State.aluOp (s : State) (p : PartId) (key : Nat) (f : Word → Word → Word) : State :=
  s.localOp p key fun c d =>
    let b := if iUseImm c.w then iImm c.w else d.sreg c.disp (iSrcB c.w)
    d.setSreg c.disp (iDst c.w) (f (d.sreg c.disp (iSrcA c.w)) b)

/-! ## Engine queues -/


/-- The register an instruction writes at retire: SA of DMA_LDS and ACCT_RD, SC of FAB_CARAVAN. -/
def writeBack (w : InsnWord) : Option Nat :=
  if iOp w = 0x13 ∨ iOp w = 0xB1 then some (iSa w) else if iOp w = 0x73 then some (iSc w) else none

/-- The queue entry of an instruction with its captured operands (R82). A slot operand counts as the tag reference
(R113). -/
def Drover.entryOf (d : Drover) (c : Ctx) : QEntry :=
  let sr := d.sreg c.disp
  let slotKind := (opRow (iOp c.w)).any fun r => r.tag = .slot
  { uid := d.nextUid, insn := c.w, pc := c.pc, pkt := if c.disp then some d.pktSerial else none,
    tag := if slotKind then (if (sr (iSa c.w)).toNat < 1024 then (sr (iSa c.w)).toNat else 0xFFF) else iTag c.w,
    waitOn := if iWaitEn c.w then some (iWaitSig c.w, (sr (iWaitReg c.w)).setWidth 32) else none,
    da := d.dreg (iDa c.w), db := d.dreg (iDb c.w), dc := d.dreg (iDc c.w),
    sa := sr (iSa c.w), sb := sr (iSb c.w), sc := sr (iSc c.w),
    wb := (writeBack c.w).map (regKey c.disp), wbVal := 0, wbOk := false, phase := .queued, faultPost := false,
    committed := false, cost := 0, members := [], bales := [], lines := [], owed := 0, sentN := 0, waitFrom := none }

/-- Issue an engine instruction into its queue, or stall while the queue is full (R79, R82, R84). -/
def State.issueEngine (s : State) (p : PartId) (key : Nat) : State :=
  match s.begin p key with
  | (s, none) => s
  | (s, some c) =>
    let d := s.drv p
    let q := iQueue c.w
    if 32 ≤ (d.queue q).length then s.stall c (some 1)
    else
      let e := d.entryOf c
      (s.setDrv p { d.setQueue q (d.queue q ++ [e]) with nextUid := d.nextUid + 1 }).issued c c.next 1

/-- The convoy an entry names: its convoy operand, or SC under conv=sN (R113). -/
def QEntry.convoy (e : QEntry) : Option Nat :=
  if e.tag = 0x400 then
    some (if (opRow (iOp e.insn)).any fun r => r.tag = .conv then e.sa.toNat else e.sc.toNat)
  else none

end Sys2Proof.Machine
end

