-- ==== Sys2Proof/Machine/Engine.lean ====
section
/-! DEFINITION. The engine queues (R80, R86, R94 to R97, R121, R336): the start of a queue head, its effect, its
faults by scope, its retirement; the convoy table the convoy-wide instructions read (R180, R181). -/

namespace Sys2Proof.Machine

/-! ## Convoys -/

def State.cvBase (s : State) (p : PartId) : Nat := s.regFld (ptBase p + 0x5000) 23 0
def State.cvCap (s : State) (p : PartId) (n : Nat) : Nat := s.regFld (ptBase p + 0x5008 + 8 * n) 25 16
def State.cvFirst (s : State) (p : PartId) (n : Nat) : Nat := s.regFld (ptBase p + 0x5008 + 8 * n) 8 0

/-- A convoy that is defined: number below 4, CAP not 0 (R180). -/
def State.cvDefined (s : State) (p : PartId) (n : Nat) : Bool := decide (n < 4) && decide (0 < s.cvCap p n)

/-- Offset of convoy-table row entry `r` (R181). -/
def State.cvRowAt (s : State) (p : PartId) (r : Nat) : Nat := s.cvBase p + 256 + 16 * r
def State.cvWord (s : State) (p : PartId) (r : Nat) : Word := s.hsWord p (s.cvRowAt p r)
def State.cvSlot (s : State) (p : PartId) (r : Nat) : Nat := fld (s.hsWord p (s.cvRowAt p r + 8)) 9 0
def rowValid (w : Word) : Bool := bitOf w 63
def rowPos (w : Word) : Nat := fld w 23 0
def rowToken (w : Word) : Nat := fld w 41 24

/-- The rows of a convoy that hold a member, as (row of the convoy, slot), rising. -/
def State.cvMembers (s : State) (p : PartId) (n : Nat) : List (Nat × Nat) :=
  (List.range (s.cvCap p n)).filterMap fun i =>
    let r := s.cvFirst p n + i
    if rowValid (s.cvWord p r) then some (i, s.cvSlot p r) else none

/-! ## Queue heads -/

def State.head (s : State) (p : PartId) (q : Nat) : Option QEntry := ((s.drv p).queue q).head?

/-- Replace the entry of a queue that has the same uid. -/
def State.setEntryOf (s : State) (p : PartId) (q : Nat) (e : QEntry) : State :=
  s.modDrv p fun d => d.setQueue q ((d.queue q).map fun x => if x.uid = e.uid then e else x)

/-- Pop the head: it posts, is counted, and entries skipped by ABORT behind it retire at once (R80, R96, R121).
(DESIGN CHOICE: log 16) -/
def State.popHead (s : State) (p : PartId) (q : Nat) (fuel : Nat) (e : QEntry) (fault : Bool) (perf : Nat) : State :=
  let s := s.modDrv p fun d => d.setQueue q ((d.queue q).drop 1)
  let s := (s.post p (iPost e.insn) fault).perf p (perf + q)
  match fuel with
  | 0 => s
  | fuel + 1 =>
    match s.head p q with
    | some e' => if e'.phase = .skipped then State.popHead s p q fuel e' true 4 else s
    | none => s

/-- Retire the head of a queue. -/
def State.dropHead (s : State) (p : PartId) (q : Nat) (e : QEntry) (fault : Bool) (perf : Nat) : State :=
  s.popHead p q 32 e fault perf

/-! ## Faults of engine instructions -/

/-- The fault record of an engine instruction. EVENT holds the code of an event that the fault itself raises: none.
(DESIGN CHOICE: log 15) -/
def State.engRecord (s : State) (p : PartId) (q : Nat) (e : QEntry) (st : Status) (tag d0 d1 : Nat) : State :=
  s.faultRecord p e.pkt
    { status := st, event := 0, queue := q, opcode := iOp e.insn, tag := tag, pc := e.pc,
      disp := e.pkt.isSome, signal := iPost e.insn, insn := e.insn, detail0 := BitVec.ofNat 64 d0,
      detail1 := BitVec.ofNat 64 d1, time := 0, seq := 0 }

/-- A fault at instruction scope: the instruction retires without effect and posts with FAULT set (Table 3.6). -/
def State.instrFault (s : State) (p : PartId) (q : Nat) (e : QEntry) (st : Status) (d0 d1 : Nat) : State :=
  (s.engRecord p q e st e.tag d0 d1).setEntryOf p q { e with phase := .done, faultPost := true, wbOk := false }

/-- A request fault found while a row or an access serves the request in `slot`: its bit of the request fault map is
set and a record written (R94). (DESIGN CHOICE: log 15) -/
def State.slotFault (s : State) (p : PartId) (q : Nat) (e : QEntry) (slot : Nat) (st : Status) (d0 d1 : Nat) : State :=
  (s.engRecord p q e st slot d0 d1).setSlot p slot { s.slot p slot with faulted := true }

/-- A fault at request scope of an instruction that serves one request: it is skipped and posts normally. -/
def State.reqFault (s : State) (p : PartId) (q : Nat) (e : QEntry) (st : Status) (d0 d1 : Nat) : State :=
  (s.slotFault p q e e.tag st d0 d1).setEntryOf p q { e with phase := .done, faultPost := false, wbOk := false }

/-- A failed memory access: CXL_LINK_DOWN is always at instruction scope, any other failure is at request scope where
the instruction serves one identified request (R94, which names DMA_COPY, DMA_GATHER, DMA_LDS, DMA_STS and the TIER
opcodes). (DEDUCED: log 94) -/
def State.accessFault (s : State) (p : PartId) (q : Nat) (e : QEntry) (st : Status) (d0 d1 : Nat) : State :=
  if st ≠ St.cxlLinkDown ∧ e.tag < 1024 then s.reqFault p q e st d0 d1 else s.instrFault p q e st d0 d1

/-- The detail words of a failed access to the state range (R398). -/
def AccErr.detail1 (x : AccErr) : Nat := 1 + x.unit * 65536

/-- DEDUCED: log 94. -/
def State.accErr (s : State) (p : PartId) (q : Nat) (e : QEntry) (x : AccErr) : State :=
  s.accessFault p q e x.status x.addr x.detail1

/-- DESC_INVALID for the shape of operand `i`: the seventh condition of R117. -/
def State.shapeFault (s : State) (p : PartId) (q : Nat) (e : QEntry) (i : Nat) : State :=
  let d := if i = 0 then e.da else if i = 1 then e.db else e.dc
  s.instrFault p q e St.descInvalid (d.setWidth 64 : Word).toNat (i + 256 * 7)

/-! ## Start (R86, R94, R96, R117, R127) -/

/-- The first fault of the operands an instruction names, in the order DA, DB, DC. (DESIGN CHOICE: log 15) -/
def QEntry.descFault (e : QEntry) : Option (Status × Nat × Nat) :=
  match opRow (iOp e.insn) with
  | none => none
  | some r =>
    let ops := (if r.used.contains fDA then [(0, e.da)] else []) ++ (if r.used.contains fDB then [(1, e.db)] else []) ++
      (if r.used.contains fDC then [(2, e.dc)] else [])
    ops.findSome? fun x => operandFault (iOp e.insn) x.1 x.2

/-- The fault an instruction meets when it starts, before the checks of its own row: a slot or convoy out of range
(R113, R127), then its descriptors (R117, R118). (DESIGN CHOICE: log 15) -/
def State.startFault (s : State) (p : PartId) (e : QEntry) : Option (Status × Nat × Nat) :=
  let slotKind := (opRow (iOp e.insn)).any fun r => r.tag = .slot
  if slotKind ∧ s.slotOk p e.sa.toNat = false then some (St.operandRange, e.sa.toNat, 0)
  else
    match e.convoy with
    | some n => if s.cvDefined p n then e.descFault else some (St.operandRange, n, 0)
    | none => e.descFault

/-- ATT_CHUNK and NB_ATT start for a request that has faulted, and write zeros to its output rows (R166).
(DEDUCED: log 95) -/
def zeroesFaulted (op : Nat) : Bool := op = 0x41 || op = 0x83

/-- The engine starts the instruction at the head of its queue once its wait condition holds; it skips it where the
signal's FAULT bit is set, or where its request has faulted (R86, R94, R96). A FAB_CARAVAN of a cancelled request is
started, for it answers CANCELLED in sC (R198). (DESIGN CHOICE: log 16) (DEDUCED: log 95) -/
def State.startHead (s : State) (p : PartId) (q : Nat) : State :=
  let d := s.drv p
  match s.head p q with
  | none => s
  | some e =>
    if e.phase ≠ .queued ∨ d.dstate = .offline ∨ d.dstate = .switchedOut then s
    else
      let go := match e.waitOn with | none => true | some (g, k) => waitHolds (d.count g) k
      let bad := match e.waitOn with | none => false | some (g, _) => d.sfault g
      if go = false then s
      else if bad then s.dropHead p q e true 13
      else if e.tag < 1024 ∧ (s.slot p e.tag).faulted ∧ zeroesFaulted (iOp e.insn) = false ∧
          ¬(iOp e.insn = 0x73 ∧ (s.slot p e.tag).cancel) then
        s.dropHead p q e false 13
      else
        match s.startFault p e with
        | some (st, d0, d1) => s.instrFault p q e st d0 d1
        | none =>
          let ms := match e.convoy with | some n => (s.cvMembers p n).map (·.2) | none => []
          s.setEntryOf p q
            { e with phase := .running, members := ms, jobShare := s.jobShare ((s.jobOf p).getD 0) }

/-- The queue and entry of the running head that carries an opcode. (DEDUCED: log 7) -/
def State.runningHead (s : State) (p : PartId) (op : Nat) : Option (Nat × QEntry) :=
  (List.range 9).findSome? fun q =>
    match s.head p q with
    | some e => if e.phase = .running ∧ iOp e.insn = op then some (q, e) else none
    | none => none

/-- An engine row of the table: issue, or the effect `f` of the running head with its opcode. -/
def State.engineRow (s : State) (p : PartId) (op : Nat) (a : Act) (f : Nat → QEntry → State → State) : State :=
  match a with
  | .issue => s.issueEngine p op
  | .run =>
    match s.runningHead p op with
    | some (q, e) => s.claim (f q e s) (p.val, e.uid)
    | none => s

/-- An instruction's effect is done; `committed` tells whether its commit point lies before its retire (R121).
(DESIGN CHOICE: log 17) -/
def State.finish (s : State) (p : PartId) (q : Nat) (e : QEntry) (cost : Nat) (committed : Bool)
    (v : Word := 0) : State :=
  s.setEntryOf p q { e with phase := .done, cost := cost, committed := committed, wbVal := v, wbOk := true }

/-! ## Charges at retire (R336 to R338) -/

/-- Charge engine time to a request's share class; MX and NBU time also to its tenant's MATRIX_CLK. -/
def State.chargeSlot (s : State) (p : PartId) (q slot n : Nat) : State :=
  let m := s.manifest p slot
  let s := s.chargeClk (mShare m) q n
  if q = 0 ∨ q = 6 ∨ q = 7 then s.meterAdd (mTenant m) 5 n else s

/-- Charge an instruction of `c` CLK_A: to its request, to the job, or split over the members of its convoy.
(DESIGN CHOICE: log 17) -/
def State.chargeEngine (s : State) (p : PartId) (q : Nat) (e : QEntry) (c : Nat) : State :=
  if e.tag < 1024 then s.chargeSlot p q e.tag c
  else if e.members = [] then s.chargeClk e.jobShare q c
  else
    let m := e.members.length
    e.members.zipIdx.foldl (fun s x => s.chargeSlot p q x.1 (c / m + if x.2 < c % m then 1 else 0)) s

/-! ## Access to operand tensors -/

/-- Bytes of an operand in the space of its descriptor: hold SRAM, the state range of this node with the job check,
or this node's own fabric addresses, which are translated alike (R443). -/
def State.spaceRead (s : State) (p : PartId) (space a n : Nat) : Except AccErr Bytes × State :=
  if space = 0 then (.ok (s.hsRead p a n), s)
  else s.stRead (s.jobOf p) (if space = 2 then a % 2 ^ 42 else a) n

def State.spaceWrite (s : State) (p : PartId) (space a : Nat) (b : Bytes) : Option AccErr × State :=
  if space = 0 then (none, s.hsWrite p a b) else s.stWrite (s.jobOf p) a b

/-- Free values for the bytes of a run of hold SRAM. -/
def State.undefineRun (s : State) (p : PartId) (a n : Nat) : State :=
  let s := s.hsWrite p a ((List.range n).map fun k => Config.stoppedByte s.freeCount k)
  { s with freeCount := s.freeCount + 1 }

/-- The element and scale bytes of a stopped instruction's destination in hold SRAM take free values (R121).
(DEDUCED: log 19) -/
def State.undefine (s : State) (p : PartId) (d : Desc) : State :=
  if tSpace d ≠ 0 then s
  else
    (List.range (tRows d)).foldl (fun s i =>
      (s.undefineRun p (tRowAt d i) (tRowBytes d)).undefineRun p (tScaleAt d i) (tScaleBytes d)) s

end Sys2Proof.Machine
end

