-- ==== Sys2Proof/Machine/Adapters.lean ====
section
/-! DEFINITION. The adapter table: slot states (R201), commands (R202), references of requests (R76, R204). -/

namespace Sys2Proof.Machine

def emptyAd : AdSlot := ⟨0, 0, 0, 0, 0, 0⟩

/-- The two slots of a handle (Table 2.13). -/
def State.adSlot (s : State) (handle k : Nat) : AdSlot :=
  tabGet (fun _ => emptyAd) s.adapters.slots (handle * 2 + k)

/-- The slot to which (ADAPTER, ADAPTER_GEN) resolves: generation equal, READY or RETIRING (R75). -/
def State.adResolve (s : State) (handle : Nat) (gen : Nat) : Option (Nat × AdSlot) :=
  [0, 1].findSome? fun k =>
    let a := s.adSlot handle k
    if a.gen.toNat = gen ∧ (a.st = 2 ∨ a.st = 3) then some (k, a) else none

def State.setAdSlot (s : State) (handle k : Nat) (a : AdSlot) : State :=
  { s with adapters := { s.adapters with slots := tabSet (fun _ => emptyAd) s.adapters.slots (handle * 2 + k) a } }

/-! ## Commands (Table 7.9) -/

def cmdOp (a : Word) : Nat := fld a 57 56
def cmdFmt (a : Word) : Nat := fld a 55 52
def cmdRank (a : Word) : Nat := fld a 51 44
def cmdGen (a : Word) : BitVec 16 := BitVec.ofNat 16 (fld a 43 28)
def cmdHandle (a : Word) : Nat := fld a 27 16

/-- The slot of a handle that is in a state. -/
def State.adIn (s : State) (handle st : Nat) : Option Nat := [0, 1].find? fun k => (s.adSlot handle k).st = st

/-- BUSY while a slot is LOADING; PENDING while a command waits whose handle has no slot LOADING (Table 7.9). -/
def State.adFlags (s : State) : State :=
  let busy := s.adapters.slots.any fun e => e.2.st = 1
  let wait := s.adapters.waiting.any fun w => (s.adIn (cmdHandle w.1) 1).isNone
  (s.setRegFld 0x9010 31 31 (b2n busy)).setRegFld 0x9010 30 30 (b2n wait)

/-- STATUS of the last completed or pending command. -/
def State.adStatus (s : State) (st : Status) : State := (s.setRegFld 0x9010 47 32 st.toNat).adFlags

/-- A LOAD takes an EMPTY slot. -/
def State.adTake (s : State) (a b : Word) (k : Nat) : State :=
  (s.setAdSlot (cmdHandle a) k ⟨cmdGen a, cmdRank a, 1, cmdFmt a, 0, fld b 41 0⟩).adFlags

/-- A slot of a handle is EMPTY: a command that waits for it proceeds (R202). (DEDUCED: log 35) -/
def State.adProceed (s : State) (handle : Nat) : State :=
  match s.adapters.waiting.find? fun w => cmdHandle w.1 = handle, s.adIn handle 0, s.adIn handle 1 with
  | some w, some k, none => s.adTake w.1 w.2 k
  | _, _, _ => s.adFlags

/-- A slot becomes RETIRING, and EMPTY at once where no request is pinned to it (R201). -/
def State.adRetiring (s : State) (handle k : Nat) : State :=
  let x := s.adSlot handle k
  if x.refs = 0 then (s.setAdSlot handle k emptyAd).adProceed handle
  else s.setAdSlot handle k { x with st := 3 }

/-- A write of ADP_CMD_A with OP 0 (R202). It is ignored while BUSY. (DEDUCED: log 35) -/
def State.adLoad (s : State) (a : Word) : State :=
  if s.regBit 0x9010 31 ∨ cmdOp a ≠ 0 then s
  else
    let s := s.setReg 0x9000 (a &&& fieldsMask ((regFields 0x9000).getD []))
    let h := cmdHandle a
    if s.adapters.waiting.any fun w => cmdHandle w.1 = h then s.adStatus St.adapterPending
    else if [0, 1].any fun k => (s.adSlot h k).st = 2 ∧ (s.adSlot h k).gen = cmdGen a then s.adStatus St.ok
    else
      match s.adIn h 0 with
      | some k => s.adTake a (s.reg 0x9008) k
      | none =>
        let s := { s with adapters := { s.adapters with waiting := s.adapters.waiting ++ [(a, s.reg 0x9008)] } }
        s.adStatus St.adapterPending

/-- A write of ADP_CMD_A with OP 1: the READY slot of its generation becomes RETIRING (Table 7.8). A reserved OP issues
nothing; the fields are written. (DEDUCED: log 35) -/
def State.adRetire (s : State) (a : Word) : State :=
  if s.regBit 0x9010 31 ∨ cmdOp a = 0 then s
  else
    let s := s.setReg 0x9000 (a &&& fieldsMask ((regFields 0x9000).getD []))
    let h := cmdHandle a
    if cmdOp a ≠ 1 then s
    else if s.adapters.waiting.any fun w => cmdHandle w.1 = h then s.adStatus St.adapterPending
    else
      match [0, 1].find? fun k => (s.adSlot h k).st = 2 ∧ (s.adSlot h k).gen = cmdGen a with
      | some k => (s.adRetiring h k).adStatus St.ok
      | none => s.adStatus St.ok

/-- The directory check of a LOADING slot has ended. One whose RANK or FMT lies outside Table 2.13 fails.
(DEDUCED: log 35) -/
def State.adChecked (s : State) (handle k : Nat) (ok : Bool) : State :=
  let x := s.adSlot handle k
  if x.st ≠ 1 then s
  else
    let good := ok && decide (1 ≤ x.rank) && decide (x.rank ≤ 128) && decide (x.fmt ≤ 8)
    let waited := s.adapters.waiting.any fun w => cmdHandle w.1 = handle
    let s := { s with adapters := { s.adapters with
      waiting := s.adapters.waiting.filter fun w => cmdHandle w.1 ≠ handle } }
    let st := if good then St.ok else St.descInvalid
    let s :=
      if good then
        let s := s.setAdSlot handle k { x with st := 2 }
        if (s.adSlot handle (1 - k)).st = 2 then s.adRetiring handle (1 - k) else s
      else s.setAdSlot handle k emptyAd
    let s := s.adStatus st
    if waited then s.raise Ev.adapterDone st 19 else s

def execAdapterLoad (a : Word) (s : State) : Res := .next (s.ifReady (s.adLoad a))
def execAdapterRetire (a : Word) (s : State) : Res := .next (s.ifReady (s.adRetire a))
def execAdapterCheckDone (handle : BitVec 12) (slot : Fin 2) (ok : Bool) (s : State) : Res :=
  .next (s.adChecked handle.toNat slot.val ok)

/-! ## References (R75, R76) -/

/-- Whether a manifest's adapter, if it names one, resolves to a READY or RETIRING slot (R204). -/
def State.adAvailable (s : State) (m : Manifest) : Bool :=
  !mFlag m flAdapter || (s.adResolve (mAdapter m) (mAdapterGen m)).isSome

/-- A request with an adapter arrives at a partition, or leaves it. -/
def State.adRef (s : State) (m : Manifest) (arrive : Bool) : State :=
  if mFlag m flAdapter = false then s
  else
    match s.adResolve (mAdapter m) (mAdapterGen m) with
    | none => s
    | some (k, x) =>
      let h := mAdapter m
      if arrive then s.setAdSlot h k { x with refs := x.refs + 1 }
      else
        let n := x.refs - 1
        if x.st = 3 ∧ n = 0 then (s.setAdSlot h k emptyAd).adProceed h
        else s.setAdSlot h k { x with refs := n }

end Sys2Proof.Machine
end

