-- ==== Sys2Proof/Machine/Bales.lean ====
section
/-! DEFINITION. Compressed tensors: bales, the ZRL and WMASK codecs, the expanders' checks, counters and completion
records (R205 to R222). -/

namespace Sys2Proof.Machine

/-- What a read through some path gives: bytes; a fault with its status and detail words; or 64-byte lines of another
node that must be read first. -/
inductive Rd where
  | ok (b : Bytes)
  | fault (st : Status) (d0 d1 : Nat)
  | need (lines : List Nat)
  deriving DecidableEq, Repr

/-! ## Codecs -/

/-- ZRL: decoded bytes in reverse, their number, the payload left; stops once more than `usize` are out (R210). -/
def zrl : Nat → Nat → Bytes → Bytes → Nat → Bytes
  | 0, _, _, out, _ => out
  | fuel + 1, usize, pl, out, n =>
    match pl with
    | [] => out
    | c :: r =>
      let c := c.toNat
      if c < 0x80 then
        let got := r.take (c + 1)
        let out := got.reverse ++ out
        if got.length < c + 1 ∨ usize < n + got.length then out
        else zrl fuel usize (r.drop (c + 1)) out (n + got.length)
      else
        let k := (c - 0x7F) * 4
        if usize < n + k then zeros k ++ out else zrl fuel usize r (zeros k ++ out) (n + k)

/-- WMASK: the words of a bale from its bitmap, the payload left, and whether a word or bitmap byte was missing
(R211). Fewer than four bytes left at a marked word are dropped. (DEDUCED: log 22) -/
def wmask (bitmap : Bytes) : Nat → Nat → Bytes → Bytes → Bool → Bytes × Bytes × Bool
  | 0, _, pl, out, short => (out, pl, short)
  | k + 1, w, pl, out, short =>
    if bitOf (bitmap.getD (w / 8) 0) (w % 8) then
      if pl.length < 4 then wmask bitmap k (w + 1) [] (out ++ zeros 4) true
      else wmask bitmap k (w + 1) (pl.drop 4) (out ++ pl.take 4) short
    else wmask bitmap k (w + 1) pl (out ++ zeros 4) short

/-- A decoded bale: exactly USIZE bytes, and whether it overran or fell short (R212). -/
structure BaleOut where
  bytes : Bytes
  exceeding : Bool
  short : Bool
  raw : Bool
  span : Nat
  deriving DecidableEq, Repr

/-- Check and decode one bale from its span's bytes; none is BALE_INVALID (R208). (DEDUCED: log 22) -/
def decodeBale (span : Bytes) (declared : Nat) : Option BaleOut :=
  let h := wordOf span
  let usize := fld h 12 0
  let csize := fld h 28 16
  let codec := fld h 35 32
  let raw := bitOf h 36
  if span.length < 8 + csize ∨ fld h 63 37 ≠ 0 ∨ fld h 31 29 ≠ 0 ∨ fld h 15 13 ≠ 0 ∨ 3 ≤ codec
      ∨ (raw ∧ codec ≠ 0) ∨ (raw = false ∧ codec = 0) ∨ usize ≠ declared then none
  else
    let pl := (span.drop 8).take csize
    let d : Bytes × Bool × Bool :=
      if raw then (pl, decide (usize < csize), decide (csize < usize))
      else if codec = 1 then
        let o := (zrl (csize + 1) usize pl [] 0).reverse
        (o, decide (usize < o.length), decide (o.length < usize))
      else
        let w := ceilDiv usize 4
        let b := ceilDiv w 8
        let r := wmask (pl.take b) w 0 (pl.drop b) [] (decide (pl.length < b))
        (r.1, decide (r.2.1 ≠ []), r.2.2)
    some { bytes := fitBytes usize d.1, exceeding := d.2.1, short := d.2.2, raw := raw, span := span.length }

/-! ## Expansion -/

/-- What has been expanded: the bytes of consecutive bales, the figures of the cost and of the completion record, and
what stopped it, if anything did. -/
structure Expanded where
  bytes : Bytes
  bales : Nat
  raws : Nat
  coded : Nat                    -- stored span of the coded bales
  rawSpan : Nat                  -- stored span of the raw bales
  exceeding : Nat
  short : Nat
  first : Option Nat             -- lowest bale that overran or fell short
  stop : Option Rd
  deriving DecidableEq, Repr

def Expanded.empty : Expanded :=
  { bytes := [], bales := 0, raws := 0, coded := 0, rawSpan := 0, exceeding := 0, short := 0, first := none, stop := none }

/-- A compressed image: the address of its index table, its space, the uncompressed extent. -/
structure Image8 where
  space : Nat
  addr : Nat
  extent : Nat
  deriving DecidableEq, Repr

def Image8.n (m : Image8) : Nat := ceilDiv m.extent 4096
def Image8.declared (m : Image8) (i : Nat) : Nat := if i + 1 = m.n then m.extent - 4096 * i else 4096

def imageOfDesc (d : Desc) : Image8 := ⟨tSpace d, tAddr d, (tRows d - 1) * tStride d + tRowBytes d⟩

/-- BALE_INVALID of bale `i` whose span begins at granule `o`; of a place in the state range, with the MU or port that
holds it (Table 17.3). -/
def State.baleInvalid (s : State) (m : Image8) (o i : Nat) : Rd :=
  let a := m.addr + 32 * o
  let unit := if m.space = 0 ∨ (m.space = 2 ∧ a / 2 ^ 42 ≠ s.fab.node.val) then 0 else s.unitAt (a % 2 ^ 42)
  .fault St.baleInvalid a (m.space + unit * 65536 + i * 2 ^ 32)

/-- Expand bales `i`, `i + 1`, … (`k` of them) of an image, reading its stored bytes by `rd`. (DESIGN CHOICE: log 37) -/
def expandBales (rd : State → Nat → Nat → Rd × State) (m : Image8) :
    Nat → Nat → Expanded → State → Expanded × State
  | 0, _, x, s => (x, s)
  | k + 1, i, x, s =>
    match rd s (m.addr + 4 * i) 8 with
    | (.ok t, s) =>
      let o0 := leAt t 0 4
      let o1 := leAt t 4 4
      if o1 ≤ o0 then ({ x with stop := some (s.baleInvalid m o0 i) }, s)
      else
        match rd s (m.addr + 32 * o0) (32 * (o1 - o0)) with
        | (.ok span, s) =>
          match decodeBale span (m.declared i) with
          | none => ({ x with stop := some (s.baleInvalid m o0 i) }, s)
          | some b =>
            let x := { x with
              bytes := x.bytes ++ b.bytes, bales := x.bales + 1, raws := x.raws + b2n b.raw,
              coded := x.coded + (if b.raw then 0 else b.span), rawSpan := x.rawSpan + (if b.raw then b.span else 0),
              exceeding := x.exceeding + b2n b.exceeding, short := x.short + b2n b.short,
              first := if b.exceeding || b.short then some (x.first.getD i) else x.first }
            expandBales rd m k (i + 1) x s
        | (r, s) => ({ x with stop := some r }, s)
    | (r, s) => ({ x with stop := some r }, s)

/-- Expand the bales that hold image bytes `a` to `a + n − 1`, and give those bytes (R215). -/
def expandRange (rd : State → Nat → Nat → Rd × State) (m : Image8) (a n : Nat) (s : State) : Expanded × State :=
  let lo := a / 4096
  let r := expandBales rd m ((a + n - 1) / 4096 - lo + 1) lo Expanded.empty s
  ({ r.1 with bytes := (r.1.bytes.drop (a - 4096 * lo)).take n }, r.2)

/-- Bales that hold any byte of some runs (offset, length) of an image, rising. -/
def balesOfRuns (runs : List (Nat × Nat)) : List Nat :=
  runs.foldl (fun l r =>
    let lo := r.1 / 4096
    if r.2 = 0 then l
    else (List.range ((r.1 + r.2 - 1) / 4096 - lo + 1)).foldl (fun l i => insertRising (lo + i) l) l) []

/-- Expand single bales, each with its own figures, up to the first that stops the expansion. -/
def expandSet (rd : State → Nat → Nat → Rd × State) (m : Image8) :
    List Nat → State → List (Nat × Expanded) × Option Rd × State
  | [], s => ([], none, s)
  | i :: r, s =>
    let x := expandBales rd m 1 i Expanded.empty s
    match x.1.stop with
    | some st => ([], some st, x.2)
    | none =>
      let (l, st, s) := expandSet rd m r x.2
      ((i, x.1) :: l, st, s)

/-- Image bytes `a` to `a + n − 1` from expanded bales. -/
def imageFrom (xs : List (Nat × Expanded)) (a n : Nat) : Bytes :=
  let lo := a / 4096
  let b := (List.range ((a + n - 1) / 4096 - lo + 1)).flatMap fun i =>
    ((xs.find? fun x => x.1 = lo + i).map fun x => x.2.bytes).getD []
  (b.drop (a - 4096 * lo)).take n

/-- The figures of several expansions together. -/
def joinExpanded (l : List (Nat × Expanded)) : Expanded :=
  l.foldl (fun a x =>
    { a with bales := a.bales + x.2.bales, raws := a.raws + x.2.raws, coded := a.coded + x.2.coded,
             rawSpan := a.rawSpan + x.2.rawSpan, exceeding := a.exceeding + x.2.exceeding, short := a.short + x.2.short,
             first := if a.first.isSome then a.first else x.2.first }) Expanded.empty

/-- The stored size 32 × OFF[n]: whether it stays inside its space, the index table with it, which the range check of R117
covers (R206), or what stopped the read of OFF[n]. -/
def storedBytes (rd : State → Nat → Nat → Rd × State) (m : Image8) (s : State) : Except Rd Bool × State :=
  if extentIn m.space m.addr (4 * m.n + 4) = false then (.ok false, s)
  else
  match rd s (m.addr + 4 * m.n) 4 with
  | (.ok t, s) => (.ok (extentIn m.space m.addr (32 * leAt t 0 4)), s)
  | (r, s) => (.error r, s)

/-- Input bytes of the compressed cost (R218). -/
def Expanded.input (x : Expanded) : Nat := x.coded + x.rawSpan / 2

/-- The bale counters rise for every bale expanded (R220, Table 8.6). (DESIGN CHOICE: log 37) -/
def State.countBales (s : State) (p : PartId) (x : Expanded) : State :=
  (((s.addReg (ptBase p + 0x7010) x.bales).addReg (ptBase p + 0x7018) x.raws).addReg (ptBase p + 0x7020) x.exceeding).addReg
    (ptBase p + 0x7028) x.short

/-- CLK_A in which the main-path expander gave fewer than 128 bytes because of its input limit: of an expansion that
delivers `out` bytes (R219). -/
def Expanded.starve (x : Expanded) (out : Nat) : Nat := ceilDiv x.input 64 - ceilDiv out 128

/-- An instruction that ends while it waits for lines of another node: the bales it had expanded are counted.
(DESIGN CHOICE: log 37) -/
def State.countSeen (s : State) (p : PartId) (e : QEntry) : State :=
  match e.seen with
  | none => s
  | some b =>
    ((((s.addReg (ptBase p + 0x7010) b.bales).addReg (ptBase p + 0x7018) b.raws).addReg (ptBase p + 0x7020)
      b.exceeding).addReg (ptBase p + 0x7028) b.short).addReg (ptBase p + 0x7030) b.starved

/-- What an expansion on the main path counts: its bales, and the cycles it was starved. (DESIGN CHOICE: log 37) -/
def State.countMain (s : State) (p : PartId) (x : Expanded) (starved : Nat) : State :=
  (s.countBales p x).addReg (ptBase p + 0x7030) starved

/-- Whether an instruction takes input through the main-path expander: a DMA_COPY or DMA_GATHER of a compressed source, or
an attention instruction with pages in a block-scaled format or stored as bales (R174, R214). -/
def QEntry.expands (e : QEntry) : Bool :=
  ((iOp e.insn = 0x10 || iOp e.insn = 0x11) && tCompressed e.db) ||
    ((iOp e.insn = 0x40 || iOp e.insn = 0x41) && (e.att.any fun a => a.plans.any fun pl => pl.descs.any fun d =>
      bitOf d 59 || fmtBlock (fld d 55 52)))

/-- Cycles lost to sharing the main-path expander: none unless an instruction of the other of the DMA engine (queue 4) and
the attention unit (queue 2) runs that takes input through it too; how many is free (R219). (DESIGN CHOICE: log 37) -/
def State.shareStall (s : State) (p : PartId) (other : Nat) : State :=
  match s.head p other with
  | none => s
  | some e =>
    if e.phase = .running ∧ e.expands then
      ({ s with freeCount := s.freeCount + 1 }).addReg (ptBase p + 0x7038) (Config.shareWait s.freeCount)
    else s

/-- The completion record an expansion calls for, if any bale overran or fell short. -/
def Expanded.record (x : Expanded) (tag unit : Nat) : List BaleSum :=
  match x.first with
  | some f => [{ tag := tag, unit := unit, exceeding := x.exceeding, short := x.short, first := f }]
  | none => []

/-- Write one expansion completion record into the partition's ring, or drop it when the ring is full (R220).
(DESIGN CHOICE: log 37) -/
def State.baleRecord (s : State) (p : PartId) (q : Nat) (e : QEntry) (b : BaleSum) : State :=
  let base := s.regFld (ptBase p + 0x7000) 23 0
  let head := s.regFld (ptBase p + 0x7008) 5 0
  let tail := s.regFld (ptBase p + 0x7008) 13 8
  if (head + 1) % 64 = tail then (s.addReg (ptBase p + 0x7048) 1).raise Ev.cmpRingFull St.ok p.val
  else
    let st := if 0 < b.exceeding then St.baleOverrun else St.baleShort
    let r := leBytes 2 st.toNat ++ leBytes 1 q ++ leBytes 1 (iOp e.insn) ++ leBytes 2 b.tag ++ leBytes 1 b.unit ++
      leBytes 1 0 ++ leBytes 4 e.pc ++ leBytes 4 b.first ++ leBytes 4 b.exceeding ++ leBytes 4 b.short ++ leBytes 8 s.now
    (s.hsWrite p (base + 32 * head) r).setRegFld (ptBase p + 0x7008) 5 0 ((head + 1) % 64)

/-- Reading hold SRAM. -/
def State.rdHold (p : PartId) (s : State) (a n : Nat) : Rd × State :=
  if a + n ≤ hsramBytes then (.ok (s.hsRead p a n), s) else (.fault St.operandRange a 0, s)

/-- Reading the state range of this node with a job check (R226). -/
def State.rdState (job : Option Nat) (s : State) (a n : Nat) : Rd × State :=
  match s.stRead job a n with
  | (.ok b, s) => (.ok b, s)
  | (.error x, s) => (.fault x.status x.addr x.detail1, s)

/-- CMP_REC_BASE written: the ring moves, HEAD and TAIL become 0 (R222). A value out of range is ignored. -/
def State.cmpRecBase (s : State) (p : PartId) (v : Word) : State :=
  let b := fld v 23 0
  if b % 32 = 0 ∧ b + 2048 ≤ hsramBytes then
    (s.setRegFld (ptBase p + 0x7000) 23 0 b).setReg (ptBase p + 0x7008) 0
  else s

def execCmpRecBaseWrite (p : PartId) (v : Word) (s : State) : Res := .next (s.ifReady (s.cmpRecBase p v))

end Sys2Proof.Machine
end

