-- ==== Sys2Proof/Machine/Fabric.lean ====
section
/-! DEFINITION. The Auduel fabric at the sender: link headers (R272, R273), paths (R284 to R286), translation windows
(R282, R305), injection (R326), sequence numbers and the source replay buffer (R290, R291, R293), fences (R294, R295). -/

namespace Sys2Proof.Machine

def nodeOf (n : Nat) : NodeId := Fin.ofNat 1024 n

/-! ## Header fields (Table 11.2) -/

def hType (f : Frame) : Nat := fld f.hdr.w2 63 60
def hClass (f : Frame) : Nat := fld f.hdr.w2 59 57
def hPath (f : Frame) : Nat := fld f.hdr.w2 56 54
def hDst (f : Frame) : NodeId := nodeOf (fld f.hdr.w2 53 44)
def hSrc (f : Frame) : NodeId := nodeOf (fld f.hdr.w2 43 34)
def hUnit (f : Frame) : Nat := fld f.hdr.w2 33 29
def hLines (f : Frame) : Nat := fld f.hdr.w2 28 22
def hTtl (f : Frame) : Nat := fld f.hdr.w2 21 16
def hLen (f : Frame) : Nat := fld f.hdr.w2 12 0
def hSeq (f : Frame) : Nat := fld f.hdr.w3 63 32
def hFence (f : Frame) : Nat := fld f.hdr.w3 31 24
def hRstatus (f : Frame) : Nat := fld f.hdr.w3 23 16
def hReplay (f : Frame) : Bool := bitOf f.hdr.w3 3
def hCombine (f : Frame) : Bool := bitOf f.hdr.w3 2
def hPlaced (f : Frame) : Bool := bitOf f.hdr.w3 1
def hFlag (f : Frame) : Bool := bitOf f.hdr.w3 0
def hAddr (f : Frame) : Nat := fld f.hdr.w4 51 0
def hRseq (f : Frame) : Nat := fld f.hdr.w5 63 32
def hDunit (f : Frame) : Nat := fld f.hdr.w5 31 27
def hHcrc (f : Frame) : Nat := fld f.hdr.w7 63 32

/-- Frame types (Table 11.3). -/
def Ft.write : Nat := 0
def Ft.readReq : Nat := 1
def Ft.readResp : Nat := 2
def Ft.ack : Nat := 3
def Ft.control : Nat := 4
def Ft.ptp : Nat := 5
def Ft.join : Nat := 6
def Ft.pathNotice : Nat := 7

/-- Frames that are sequenced and replayed (Table 11.3). -/
def sequenced (ty : Nat) : Bool := ty = 0 || ty = 1 || ty = 4 || ty = 6

/-- Source units beside the partitions. -/
def unitRk : Nat := 16
def unitComb : Nat := 17
def unitTime : Nat := 18

def hdrBytes (h : Hdr) : Bytes :=
  wordBytes h.tag.w0 ++ wordBytes h.tag.w1 ++ wordBytes h.w2 ++ wordBytes h.w3 ++ wordBytes h.w4 ++ wordBytes h.w5 ++
    wordBytes h.w6 ++ wordBytes h.w7

/-- CRC-32C of header bytes 0 to 59. -/
def hdrCrc (h : Hdr) : Nat := (crc32c ((hdrBytes h).take 60)).toNat

def sealHdr (h : Hdr) : Hdr := { h with w7 := setFld h.w7 63 32 (hdrCrc h) }

def frameMod (f : Frame) (g : Hdr → Hdr) : Frame := { f with hdr := sealHdr (g f.hdr) }

/-- Whether a receiver keeps the frame: its TYPE is not reserved, its reserved fields are zero, its HCRC is right
(R273). SRC_UNIT 19 to 31 are reserved values. (DESIGN CHOICE: log 38) -/
def frameOk (f : Frame) : Bool :=
  let h := f.hdr
  decide (hType f ≤ 7) && decide (hUnit f ≤ 18) && decide (fld h.tag.w1 63 57 = 0) && decide (fld h.w2 15 13 = 0) &&
    decide (fld h.w3 15 4 = 0) && decide (fld h.w4 63 52 = 0) && decide (fld h.w5 26 0 = 0) &&
    decide (fld h.w7 31 0 = 0) && decide (hHcrc f = hdrCrc h)

/-- The fields of a frame being built. Those not given are zero. -/
structure NewFrame where
  tag : Tag
  type : Nat
  cls : Nat
  dst : NodeId
  src : NodeId
  unit : Nat
  lines : Nat := 0
  len : Nat := 0
  fence : Nat := 255
  rstatus : Nat := 0
  combine : Bool := false
  placed : Bool := false
  flag : Bool := false
  addr : Nat := 0
  rseq : Nat := 0
  dunit : Nat := 0
  deriving DecidableEq, Repr

def NewFrame.build (n : NewFrame) (m : Option Manifest) (b : Body) : Frame :=
  let w2 := n.len % 2 ^ 13 + n.lines % 128 * 2 ^ 22 + n.unit % 32 * 2 ^ 29 + n.src.val * 2 ^ 34 + n.dst.val * 2 ^ 44 +
    n.cls % 8 * 2 ^ 57 + n.type % 16 * 2 ^ 60
  let w3 := b2n n.flag + b2n n.placed * 2 + b2n n.combine * 4 + n.rstatus % 256 * 2 ^ 16 + n.fence % 256 * 2 ^ 24
  { hdr := sealHdr
      { tag := n.tag, w2 := BitVec.ofNat 64 w2, w3 := BitVec.ofNat 64 w3, w4 := BitVec.ofNat 64 (n.addr % 2 ^ 52),
        w5 := BitVec.ofNat 64 (n.dunit % 32 * 2 ^ 27 + n.rseq % 2 ^ 32 * 2 ^ 32), w6 := 0, w7 := 0 }
    mft := m, body := b }

/-- Bytes of a frame: header, manifest, payload. -/
def frameBytes (f : Frame) : Nat := 64 + (if f.mft.isSome then 64 else 0) + hLen f

/-- Wire bytes of a frame in a port mode (R309, Table 12.1). -/
def wireBytes (mode : Nat) (f : Frame) : Nat := frameBytes f + [16, 42, 70, 90].getD mode 16

def bodyBytes : Body → Bytes
  | .bytes b => b
  | .page _ _ b => b
  | _ => []

/-! ## Paths (R284 to R286, R305) -/

/-- Egress that the forwarding table gives a destination on a path: 0 to 7 a port, 8 LOCAL, above 8 invalid. -/
def State.hop (s : State) (dst : NodeId) (p : Nat) : Nat :=
  fld (tabGet (fun _ => (0xFFFFFFFF : BitVec 32)) s.fab.fwd dst.val) (4 * p + 3) (4 * p)

/-- Valid paths to a destination, rising (R286). -/
def State.validPaths (s : State) (dst : NodeId) : List Nat :=
  (List.range 8).filter fun p => decide (s.hop dst p ≤ 8) && !s.fab.marks.contains (dst, p)

/-- The value a frame is hashed by (R284). -/
def hashKey (f : Frame) : Nat :=
  if (hType f = 0 ∨ hType f = 1) ∧ hPlaced f = false then hAddr f / 64
  else if hPlaced f then (tagReqId f.hdr.tag).toNat + tagIndex f.hdr.tag % 65536 * 2 ^ 48
  else hSeq f

def frameHash (f : Frame) : Nat := (crc32c (leBytes 8 (hashKey f))).toNat

/-- The next valid path in ascending path id after the one used last. -/
def nextPath (ps : List Nat) (last : Nat) : Nat := (ps.find? fun p => last < p).getD (ps.headD 0)

def State.modFab (s : State) (f : Fab → Fab) : State := { s with fab := f s.fab }

def State.port (s : State) (k : PortId) : Port := s.ports[k]
def State.setPort (s : State) (k : PortId) (x : Port) : State := { s with ports := s.ports.set k x }

/-- A (destination, path) treated as invalid for 1 ms (R285). -/
def State.markPath (s : State) (dst : NodeId) (p : Nat) : State :=
  if s.fab.marks.contains (dst, p) then s else s.modFab fun b => { b with marks := b.marks ++ [(dst, p)] }

/-- A frame enters the egress queue of its class (R306). -/
def State.enqueue (s : State) (k : PortId) (f : Frame) : State :=
  let x := s.port k
  let c := hClass f
  s.setPort k { x with egress := vset x.egress c (vget x.egress c [] ++ [{ frame := f, at_ := s.pins.clkT }]) }

/-! ## Registers that a refill tick takes up (R311, R326) -/

/-- What a register held before the writes of this CLK_T cycle (R311). (DESIGN CHOICE: log 64) -/
def State.beforeWrites (s : State) (off : Nat) : Word :=
  let w := tabGet (fun _ => ((0 : Nat), (0 : Word))) s.fab.shpWrites off
  if w.1 = s.pins.clkT + 1 then w.2 else s.reg off

/-- Note what a register holds before a write of this CLK_T cycle. -/
def State.noteWrite (s : State) (off : Nat) : State :=
  let before := s.beforeWrites off
  s.modFab fun b =>
    { b with shpWrites := tabSet (fun _ => ((0 : Nat), (0 : Word))) b.shpWrites off (s.pins.clkT + 1, before) }

/-! ## Injection buckets (R326) -/

def State.injShare (s : State) (j : Nat) (k : PortId) : Nat :=
  fld (tabGet (fun _ => (0 : Word)) s.fab.share j) (8 * k.val + 7) (8 * k.val)

def injKey (j : Nat) (k : PortId) : Nat := j * 8 + k.val

/-- A job's injection bucket lets a frame start. -/
def State.injOpen (s : State) (j : Nat) (k : PortId) : Bool :=
  decide (0 < s.injShare j k) && decide (0 ≤ tabGet (fun _ => (0 : Int)) s.fab.inj (injKey j k))

def State.injTake (s : State) (j : Nat) (k : PortId) (f : Frame) : State :=
  let c := tabGet (fun _ => (0 : Int)) s.fab.inj (injKey j k)
  s.modFab fun b => { b with inj := tabSet (fun _ => (0 : Int)) b.inj (injKey j k) (c - (wireBytes (s.port k).mode.toNat f * 16 : Nat)) }

/-- A frame of a job's partition goes to a port: one of classes 1 to 7 passes the job's injection bucket. -/
def State.inject (s : State) (k : PortId) (job : Option Nat) (f : Frame) : State :=
  match job with
  | none => s.enqueue k f
  | some j =>
    if hClass f = 0 then s.enqueue k f
    else
      let x := s.port k
      if s.injOpen j k ∧ (x.inject.any fun w => w.1 = j) = false then (s.injTake j k f).enqueue k f
      else s.setPort k { x with inject := x.inject ++ [(j, f)] }

/-- The waiting frames of a traffic class that their job's bucket lets start; a frame waits behind an earlier one of its
job. -/
def State.injReady (s : State) (k : PortId) (c : Nat) : List (Nat × Frame) :=
  let l := (s.port k).inject
  l.filter fun w => decide (hClass w.2 = c) && s.injOpen w.1 k && decide ((l.find? fun y => y.1 = w.1) = some w)

/-- Frames of one traffic class go on as far as their jobs' buckets let them, by weighted round robin on the share classes of
their tags, those of one share class oldest first (R326, R335). -/
def State.injectClass : Nat → State → PortId → Nat → State
  | 0, s, _, _ => s
  | n + 1, s, k, c =>
    let ready := s.injReady k c
    let x := s.port k
    match wrrPick s.shareWeight (ready.map fun w => tagShare w.2.hdr.tag) (tabGet (fun _ => ((0 : Nat), (0 : Nat))) x.wrr c) with
    | none => s
    | some (m, st) =>
      match ready.find? fun w => tagShare w.2.hdr.tag = m with
      | none => s
      | some w =>
        let x := { x with inject := x.inject.erase w, wrr := tabSet (fun _ => ((0 : Nat), (0 : Nat))) x.wrr c st }
        State.injectClass n (((s.setPort k x).injTake w.1 k w.2).enqueue k w.2) k c

/-- Frames that waited for a job's bucket go on as far as it lets them. -/
def State.injectDrain (s : State) (k : PortId) : State :=
  (List.range 8).foldl (fun s c => State.injectClass (s.port k).inject.length s k c) s

/-! ## Sending -/

/-- Whether the switch tries to combine a frame: a READ_REQ with COMBINE set that its own combiner has not sent. A node
refused at join only forwards (R288, R303). (DEDUCED: log 62) -/
def State.combinable (s : State) (f : Frame) : Bool :=
  decide (hType f = 1) && hCombine f && !(decide (hSrc f = s.fab.node) && decide (hUnit f = unitComb)) &&
    !s.fab.joinRefused

/-- Put a frame on a path of its destination. A frame whose entry is LOCAL, and a read that the switch may combine, wait at
the switch beside what port F0 has received. A frame for a port that is down is dropped: none (R285).
(DEDUCED: log 26) -/
def State.emit (s : State) (f : Frame) (job : Option Nat) : Option State :=
  let e := s.hop (hDst f) (hPath f)
  let k : PortId := Fin.ofNat 8 e
  if e = 8 ∨ e < 8 ∧ (s.port k).up ∧ s.combinable f then
    let x := s.port 0
    some (s.setPort 0 { x with ingress := x.ingress ++ [f] })
  else if e < 8 ∧ (s.port k).up then some (s.inject k job f)
  else none

/-- A frame with its path, REPLAY and TTL set. (DESIGN CHOICE: log 38) -/
def readyFrame (f : Frame) (p : Nat) (replay : Bool) : Frame :=
  frameMod f fun h =>
    { h with w2 := setFld (setFld h.w2 56 54 p) 21 16 (1 + Config.firstTtl % 63), w3 := setFld h.w3 3 3 (b2n replay) }

/-- The job whose injection bucket a unit's frames pass. -/
def State.unitJob (s : State) (unit : Nat) : Option Nat :=
  if unit < 16 then s.jobOf (Fin.ofNat 16 unit) else none

/-- The path of the next send: the one the hash gives, or, once it has been sent, the next valid path (R284, R286).
(DESIGN CHOICE: log 38) -/
def pickPath (x : Sent) (l : List Nat) : Nat :=
  match x.path with
  | none => l.getD (frameHash x.frame % l.length) (l.headD 0)
  | some last => nextPath l last

/-- Send a copy of a sequenced frame on the path the hash gives, or, once it has been sent, on the next valid path; hold
it where no path is valid (R284, R286, R293), or where this node was refused at join (R303). A send that meets a port that is down is dropped by this node's own
switch, and answered like a PATH_NOTICE by the next send. (DEDUCED: log 26) -/
def State.transmit : Nat → State → Sent → State × Sent
  | 0, s, x => (s, x)
  | n + 1, s, x =>
    match (if s.fab.joinRefused ∧ hType x.frame ≠ Ft.join then [] else s.validPaths x.dst) with
    | [] => (s, { x with heldBack := true })
    | p0 :: ps =>
      let p := pickPath x (p0 :: ps)
      let s := if x.path.isSome then s.addReg 0x301040 1 else s
      let x' : Sent := { x with sends := x.sends + 1, path := some p, heldBack := false }
      match s.emit (readyFrame x.frame p x.path.isSome) (s.unitJob x.unit) with
      | some s => (s, x')
      | none =>
        let s := (s.addReg 0x301078 1).markPath x.dst p
        if 8 ≤ x'.sends then (s, x') else State.transmit n s x'

def seqKey (unit : Nat) (dst : NodeId) : Nat := unit * 1024 + dst.val

/-- Bytes that a WRITE or an answer carries are counted for its tenant and its share class (R62, R338). A transfer of no
request has no tenant to count for. (DESIGN CHOICE: log 39) -/
def State.chargeFrame (s : State) (t : Tag) (n : Nat) : State :=
  let s := s.chargeBytes (tagShare t) n
  if tagReqId t = 0 ∧ tagContent t = Ct.plain then s else s.meterAdd (tagTenant t) 4 n

/-- What a sequenced frame is charged when it is first sent: a WRITE as above; the bytes of any other frame of a request,
an append to its prompt log among them, go to the share class of its tag (R62, R336). (DESIGN CHOICE: log 39) -/
def State.chargeSend (s : State) (f : Frame) : State :=
  let n := (if f.mft.isSome then 64 else 0) + hLen f
  if hType f = 0 then s.chargeFrame f.hdr.tag n
  else if tagReqId f.hdr.tag = 0 then s
  else s.chargeBytes (tagShare f.hdr.tag) n

/-- A frame with its sequence number. -/
def numbered (f : Frame) (q : Nat) : Frame := frameMod f fun h => { h with w3 := setFld h.w3 63 32 q }

/-- Keep a copy of a numbered frame, and send it; it waits behind an earlier one of its space that has not been sent. -/
def State.keepAndSend (s : State) (x : Sent) : State :=
  let behind := s.fab.sent.any fun y => decide (y.unit = x.unit) && decide (y.dst = x.dst) && y.heldBack
  let r := if behind then (s, { x with heldBack := true }) else s.transmit 8 x
  r.1.modFab fun b => { b with sent := b.sent ++ [r.2] }

/-! ## Replay buffers (R291) -/

def isPart (u : Nat) : Bool := decide (u < 16)

/-- Bytes of the replay buffer that a unit's frames fill: a partition has its own, the other units share one, in which a read
of the combiner takes the 64 bytes of its header. (DESIGN CHOICE: log 39) -/
def State.replayUsed (s : State) (unit : Nat) : Nat :=
  (s.fab.sent.filter fun x => if isPart unit then x.unit = unit else !isPart x.unit).foldl
    (fun n x => n + frameBytes x.frame) (if isPart unit then 0 else 64 * s.fab.comb.length)

/-- Room for a frame of `n` bytes, and fewer than 4,096 unacknowledged frames to the destination. -/
def State.replayRoom (s : State) (unit : Nat) (dst : NodeId) (n : Nat) : Bool :=
  decide (s.replayUsed unit + n ≤ 2097152) &&
    decide ((s.fab.sent.filter fun x => x.unit = unit ∧ x.dst = dst).length +
      (if unit = unitComb then (s.fab.comb.filter fun c => c.dst = dst).length else 0) < 4096)

/-- Number a frame in the space of its source unit and destination, keep a copy, and send it (R290). -/
def State.sendNow (s : State) (x : Unsent) : State :=
  let f := x.frame
  let k := seqKey (hUnit f) (hDst f)
  let q := tabGet (fun _ => 0) s.fab.seqs k
  let s := s.modFab fun b => { b with seqs := tabSet (fun _ => 0) b.seqs k ((q + 1) % 2 ^ 32) }
  let s := s.chargeSend f
  s.keepAndSend
    { unit := hUnit f, dst := hDst f, seq := q, frame := numbered f q, sends := 0, path := none, heldBack := false,
      owner := x.owner, place := x.place }

/-- Whether a frame may be kept now: its replay buffer has room, and no frame of its unit waits for that (R291). -/
def State.mayKeep (s : State) (f : Frame) : Bool :=
  s.replayRoom (hUnit f) (hDst f) (frameBytes f) && s.fab.backlog.all fun y => decide (hUnit y.frame ≠ hUnit f)

/-- Send a sequenced frame, or let it wait for room in the replay buffer (R291). (DESIGN CHOICE: log 39) -/
def State.sendSeq (s : State) (f : Frame) (owner : Option (PartId × Nat × Nat) := none) (place : Nat := 0) : State :=
  let x : Unsent := { frame := f, owner := owner, place := place }
  if s.mayKeep f then s.sendNow x else s.modFab fun b => { b with backlog := b.backlog ++ [x] }

/-- Frames that waited for room are sent as far as there is room, those of one unit in their order (R291). -/
def State.drainBacklog (s : State) : State :=
  let l := s.fab.backlog
  l.foldl (fun s x => s.sendSeq x.frame x.owner x.place) (s.modFab fun b => { b with backlog := [] })

/-- Send a frame that is neither sequenced nor kept. One that finds no valid path, or a port down, is lost. -/
def State.sendPlain (s : State) (f : Frame) : State :=
  match (if s.fab.joinRefused ∧ hType f ≠ Ft.ptp then [] else s.validPaths (hDst f)) with
  | [] => s
  | p0 :: ps =>
    let p := (p0 :: ps).getD (frameHash f % (ps.length + 1)) p0
    match s.emit (readyFrame f p false) none with
    | some s => s
    | none => (s.addReg 0x301078 1).markPath (hDst f) p

/-- Payload length of a CONTROL frame: 64 for a cancel (R322); the entries of an append (R74); else a free value. -/
def ctlLen (c : Ctl) : Nat :=
  match c with
  | .cancel .. => 64
  | .logAppend _ _ l => 4 * l.length % 4097
  | _ => Config.ctlBytes c % 4097

/-- A CONTROL frame of class 0 from a unit of this node. -/
def State.ctlFrame (s : State) (unit : Nat) (dst : NodeId) (t : Tag) (c : Ctl) : Frame :=
  NewFrame.build { tag := t, type := Ft.control, cls := 0, dst := dst, src := s.fab.node, unit := unit, len := ctlLen c }
    none (.ctl c)

/-- The tag of control traffic that serves no request. -/
def ctlTag : Tag := mkTag 0 0 Ct.control 0 0 0 0 false false

/-- The tag of control traffic about one request whose manifest the sender does not hold. -/
def ctlTagOf (id : ReqId) : Tag := mkTag 0 id Ct.control 0 0 0 0 false false

/-- The tag of control traffic about a request, with the fields of its manifest (R60). -/
def ctlTagM (m : Manifest) : Tag := tagOfManifest m Ct.control 0 false false

/-- The route keeper sends a CONTROL message. -/
def State.sendCtl (s : State) (dst : NodeId) (c : Ctl) (t : Tag := ctlTag) : State :=
  s.sendSeq (s.ctlFrame unitRk dst t c)

/-! ## Translation windows and combinable ranges (R282, R287, R305) -/

def winOff (j w : Nat) : Nat := 0x302000 + j * 0x400 + w * 0x10

/-- Whether window `w` of job `j` lets lines `a` to `a + n − 1` of a node through. -/
def State.windowOk (s : State) (j w : Nat) (tenant : Nat) (write : Bool) (dst : NodeId) (a n : Nat) : Bool :=
  let w0 := s.reg (winOff j w)
  let w1 := s.reg (winOff j w + 8)
  let lo := fld w1 41 21
  let pages := fld w1 20 0
  bitOf w0 63 && decide (fld w0 59 50 = dst.val) && (if write then bitOf w0 61 else bitOf w0 62) &&
    (bitOf w0 60 || decide (fld w0 47 32 = tenant)) &&
    decide (lo ≤ a / 2 ^ 21) && decide ((a + n - 1) / 2 ^ 21 < lo + pages)

def State.ranges (s : State) : List FabRange := (s.mgr.cur.map (·.ranges)).getD []

/-- Whether a run of fabric addresses touches a combinable range of the current book. -/
def State.touchesRange (s : State) (a n : Nat) : Bool :=
  s.ranges.any fun r => decide (a ≤ r.last.toNat) && decide (r.first.toNat < a + n)

/-- Whether a run of fabric addresses lies in one combinable range. -/
def State.insideRange (s : State) (a n : Nat) : Bool :=
  s.ranges.any fun r => decide (r.first.toNat ≤ a) && decide (a + n ≤ r.last.toNat + 1)

/-- The check at the sender (R282): fabric address `a`, `n` bytes, for the partition's job. (DESIGN CHOICE: log 39) -/
def State.sendOk (s : State) (p : PartId) (tenant : Nat) (write : Bool) (a n : Nat) : Bool :=
  match s.jobOf p with
  | none => false
  | some j =>
    ((List.range 64).any fun w => s.windowOk j w tenant write (nodeOf (a / 2 ^ 42)) (a % 2 ^ 42) n) &&
      !(write && s.touchesRange a n)

/-- The frames of a transfer: at most 64 lines each, as (offset, lines), in address order (R277). -/
def framesOf : Nat → Nat → Nat → List (Nat × Nat)
  | 0, _, _ => []
  | fuel + 1, off, lines =>
    if lines = 0 then [] else (off, min 64 lines) :: framesOf fuel (off + 64 * min 64 lines) (lines - min 64 lines)

def transferFrames (bytes : Nat) : List (Nat × Nat) := framesOf (bytes / 4096 + 1) 0 (bytes / 64)

/-! ## The instruction that waits for a frame -/

/-- The entry that an owner names, if it is still in its queue. -/
def State.ownerEntry (s : State) (o : PartId × Nat × Nat) : Option QEntry :=
  ((s.drv o.1).queue o.2.1).find? fun e => e.uid = o.2.2

/-- Frames whose instruction no longer waits: their answers are discarded. -/
def State.disown (s : State) (o : PartId × Nat × Nat) : State :=
  s.modFab fun b => { b with
    sent := b.sent.map fun x => if x.owner = some o then { x with owner := none } else x
    backlog := b.backlog.map fun x => if x.owner = some o then { x with owner := none } else x }

/-- DMA opcodes that read sources in SPACE 2: the scope of their faults follows R94 (R443). -/
def dmaOp (op : Nat) : Bool := op = 0x10 || op = 0x11 || op = 0x13 || op = 0x43 || op = 0x44

/-- Whether two runs (address, length) share a byte. -/
def runsMeet (a b : Nat × Nat) : Bool := decide (a.1 < b.1 + b.2) && decide (b.1 < a.1 + a.2)

/-- The members of a SCATTER_KV whose rows of dA the fabric lines `a` to `a + n − 1` hold, and that have not faulted. -/
def State.rowsAt (s : State) (p : PartId) (e : QEntry) (a n : Nat) : List Nat :=
  (s.cvMembers p e.sa.toNat).filterMap fun m =>
    if (s.slot p m.2).faulted = false ∧
        (runsMeet (a, n) (tRowAt e.da m.1, tRowBytes e.da) ∨ runsMeet (a, n) (tScaleAt e.da m.1, tScaleBytes e.da))
    then some m.2 else none

/-- Those members fault at request scope: the access served their rows (R94, R443). -/
def State.rowsFault (s : State) (p : PartId) (q : Nat) (e : QEntry) (st : Status) (d0 d1 a n : Nat) : State :=
  (s.rowsAt p e a n).foldl (fun s k => s.slotFault p q e k st d0 d1) s

/-- A wait for replay-buffer room ends: it counts in FAB_REPLAY_FULL_NS (R291). (DESIGN CHOICE: log 39) -/
def State.replayCount (s : State) (e : QEntry) : State :=
  match e.waitFrom with
  | some t => s.addReg 0x301068 (10 * (s.pins.clkT - t))
  | none => s

/-- A read of lines `a` to `a + n − 1` of another node fails: an instruction that waits on the fabric faults, and answers
still to come are discarded; of a SCATTER_KV the members fault whose rows those lines hold, and it goes on (R94, R443). -/
def State.ownerFault (s : State) (o : PartId × Nat × Nat) (st : Status) (d0 d1 a n : Nat) : State :=
  match s.ownerEntry o with
  | none => s
  | some e =>
    if iOp e.insn = 0x43 ∧ e.phase = .waiting then
      let k := e.owed - 1
      (s.rowsFault o.1 o.2.1 e st d0 d1 a n).setEntryOf o.1 o.2.1
        { e with owed := k, phase := if k = 0 then .running else e.phase }
    else
      let s := s.disown o
      if e.phase = .running ∨ e.phase = .waiting then
        let s := (s.countSeen o.1 e).replayCount e
        if dmaOp (iOp e.insn) ∧ e.tag < 1024 then s.reqFault o.1 o.2.1 e st d0 d1
        else s.instrFault o.1 o.2.1 e st d0 d1
      else s

/-- Detail words of PATH_LOST and FENCE_TIMEOUT (Table 17.3). -/
def pathDetail (dst : NodeId) (path : Option Nat) : Nat := dst.val + path.getD 0 * 65536

/-! ## Abandonment (R293) -/

/-- Abandon a sequenced frame with every later unacknowledged frame of its source to its destination: they leave the
replay buffer and are counted, a PATH_LOST event is raised, a CONTROL abandon is sent. A FAB_RD or a DMA read among them
faults; a fence that owes one of them faults (R295). The frames are returned. (DESIGN CHOICE: log 39) -/
def State.abandon (s : State) (unit : Nat) (dst : NodeId) (seq : Nat) : State × List Sent :=
  let mine := s.fab.sent.filter fun x => x.unit = unit ∧ x.dst = dst
  match mine.dropWhile fun x => x.seq ≠ seq with
  | [] => (s, [])
  | x :: r =>
    let gone := x :: r
    let s := s.modFab fun b => { b with sent := b.sent.filter fun y => !gone.contains y }
    let s := s.addReg 0x301050 gone.length
    let last := (gone.getLastD x).seq
    let s := s.raise Ev.pathLost St.pathLost unit 0xFF 0 (evDetail (pathDetail dst x.path) x.seq 0)
    let s := s.sendCtl dst (.abandon unit (BitVec.ofNat 32 last))
    let s := gone.foldl (fun s y =>
      match y.owner with
      | some o => s.ownerFault o St.pathLost (pathDetail dst y.path) y.seq y.place (64 * hLines y.frame)
      | none => s) s
    let s := s.fab.fences.foldl (fun s f =>
      if f.part.val = unit then
        match gone.find? fun y => f.owed.contains (dst, y.seq) with
        | none => s
        | some y =>
          let o := (f.part, 5, f.uid)
          let s := s.modFab fun b =>
            { b with fences := b.fences.erase f, late := b.late ++ f.owed.map fun w => (unit, w.1, w.2) }
          match s.ownerEntry o with
          | none => s
          | some e => s.instrFault f.part 5 e St.pathLost (pathDetail dst y.path) y.seq
      else s) s
    (s, gone)

/-- One more send of a frame is due: after the eighth it is abandoned; a held frame counts the time (R286, R293).
(DESIGN CHOICE: log 39) -/
def State.resend (s : State) (x : Sent) : State × List Sent :=
  let x := if x.heldBack then { x with sends := x.sends + 1 } else x
  let s := s.modFab fun b =>
    { b with sent := b.sent.map fun y => if y.unit = x.unit ∧ y.dst = x.dst ∧ y.seq = x.seq then x else y }
  if 8 ≤ x.sends then s.abandon x.unit x.dst x.seq
  else if x.heldBack ∧ s.validPaths x.dst = [] then (s, [])
  else
    let r := s.transmit 8 x
    (r.1.modFab fun b =>
      { b with sent := b.sent.map fun y => if y.unit = x.unit ∧ y.dst = x.dst ∧ y.seq = x.seq then r.2 else y }, [])

def State.findSent (s : State) (unit : Nat) (dst : NodeId) (seq : Nat) : Option Sent :=
  s.fab.sent.find? fun x => decide (x.unit = unit) && decide (x.dst = dst) && decide (x.seq = seq)

/-- Frames held for an unreachable destination are sent, in the order of their SEQs (R286). -/
def State.sendHeld (s : State) (dst : NodeId) : State :=
  (s.fab.sent.filter fun x => x.heldBack ∧ x.dst = dst).foldl (fun s x =>
    if s.validPaths dst = [] then s
    else
      let r := s.transmit 8 x
      r.1.modFab fun b =>
        { b with sent := b.sent.map fun y => if y.unit = x.unit ∧ y.dst = x.dst ∧ y.seq = x.seq then r.2 else y }) s

/-! ## Reads of another node's lines (R277, R443) -/

/-- Maximal runs of consecutive 64-byte lines, as (address, lines); the lines rise. -/
def lineRuns (l : List Nat) : List (Nat × Nat) :=
  (l.foldl (fun acc a =>
    match acc with
    | (b, n) :: r => if a = b + 64 * n ∧ n < 64 then (b, n + 1) :: r else (a, 1) :: acc
    | [] => [(a, 1)]) []).reverse

/-- Send READ_REQ frames for runs of lines of other nodes, as many as the replay buffer takes, for an entry: the state and
the number of frames. A read of a combinable range carries CONTENT SHARED_READ and COMBINE (R61, R287). -/
def State.sendReads (s : State) (p : PartId) (q uid cls : Nat) (tag : Tag) (runs : List (Nat × Nat)) : State × Nat :=
  let st := runs.foldl (fun (acc : State × Nat × Bool) r =>
    let (s, n, full) := acc
    let dst := nodeOf (r.1 / 2 ^ 42)
    if full ∨ s.replayRoom p.val dst 64 = false then (s, n, true)
    else
      let comb := s.insideRange r.1 (64 * r.2)
      let f := NewFrame.build
        { tag := if comb then tagWithContent tag Ct.sharedRead else tag, type := Ft.readReq, cls := cls, dst := dst,
          src := s.fab.node, unit := p.val, lines := r.2, combine := comb, addr := r.1 } none (.bytes [])
      (s.sendSeq f (some (p, q, uid)) r.1, n + 1, false)) (s, 0, false)
  (st.1, st.2.1)

/-- Send READ_REQ frames for lines of other nodes; the instruction waits for the answers. The window check covers all of
them first (R282): a refused run faults the instruction, or, of a SCATTER_KV, the members whose rows it holds (R94, R443). -/
def State.readLines (s : State) (p : PartId) (q : Nat) (e : QEntry) (cls : Nat) (lines : List Nat) : State :=
  let tag := s.tagFor p e.tag
  let runs := lineRuns lines
  let ok := fun r : Nat × Nat => s.sendOk p (tagTenant tag) false r.1 (64 * r.2)
  let send := fun (s : State) (l : List (Nat × Nat)) =>
    let st := s.sendReads p q e.uid cls tag l
    let n := e.owed + st.2
    st.1.setEntryOf p q { e with phase := if n = 0 then .running else .waiting, owed := n }
  match runs.find? fun r => !ok r with
  | some r =>
    if iOp e.insn = 0x43 then
      send ((runs.filter fun r => !ok r).foldl (fun s r => s.rowsFault p q e St.operandRange r.1 2 r.1 (64 * r.2)) s)
        (runs.filter ok)
    else if dmaOp (iOp e.insn) ∧ e.tag < 1024 then (s.countSeen p e).reqFault p q e St.operandRange r.1 2
    else (s.countSeen p e).instrFault p q e St.operandRange r.1 2
  | none => send s runs

/-- Lines of a run of fabric addresses that have not been read yet. -/
def QEntry.missing (e : QEntry) (a n : Nat) : List Nat :=
  let lo := a / 64
  ((List.range (if n = 0 then 0 else (a + n - 1) / 64 - lo + 1)).map fun i => (lo + i) * 64).filter fun l =>
    (tabFind e.lines l).isNone

/-- Bytes of a run of fabric addresses from the lines read. -/
def QEntry.fromLines (e : QEntry) (a n : Nat) : Bytes :=
  let lo := a / 64
  let b := (List.range (if n = 0 then 0 else (a + n - 1) / 64 - lo + 1)).flatMap fun i =>
    (tabFind e.lines ((lo + i) * 64)).getD (zeros 64)
  (b.drop (a - 64 * lo)).take n

/-- Note that an instruction waits for replay-buffer room, or that it goes on: the wait counts in FAB_REPLAY_FULL_NS
(R291). -/
def State.replayWait (s : State) (p : PartId) (q : Nat) (e : QEntry) (waiting : Bool) : State :=
  if waiting then s.setEntryOf p q { e with waitFrom := some (e.waitFrom.getD s.pins.clkT) }
  else (s.replayCount e).setEntryOf p q { e with waitFrom := none }

/-! ## FAB_WR, FAB_RD, FAB_FENCE (R128) -/

/-- The row bytes of a tensor in hold SRAM, in row order. -/
def State.flatBytes (s : State) (p : PartId) (d : Desc) : Bytes :=
  (List.range (tRows d)).flatMap fun i => s.hsRead p (tRowAt d i) (tRowBytes d)

def flatSize (d : Desc) : Nat := tRows d * tRowBytes d

/-- Write bytes over the rows of a tensor in hold SRAM. -/
def State.putFlat (s : State) (p : PartId) (d : Desc) (b : Bytes) : State :=
  (List.range (tRows d)).foldl (fun s i =>
    s.hsWrite p (tRowAt d i) ((b.drop (i * tRowBytes d)).take (tRowBytes d))) s

/-- The checks that FAB_WR and FAB_RD make of their operands, and the window check of each frame still to be sent.
(DESIGN CHOICE: log 39) -/
def State.fabCheck (s : State) (p : PartId) (e : QEntry) (write : Bool) : Option (Status × Nat × Nat) :=
  let n := flatSize e.da
  let a := e.sa.toNat
  if n % 64 ≠ 0 then some (St.descInvalid, (e.da.setWidth 64 : Word).toNat, 256 * 7)
  else if a % 64 ≠ 0 ∨ 2 ^ 52 ≤ a then some (St.operandRange, a, 2)
  else
    match ((transferFrames n).drop e.sentN).find? fun r =>
      !s.sendOk p (tagTenant (s.tagFor p e.tag)) write (a + r.1) (64 * r.2) with
    | some r => some (St.operandRange, a + r.1, 2)
    | none => none

/-- FAB_WR: its lines leave as WRITE frames, in address order, as the replay buffer takes them; it retires when all have
left. -/
def State.fabWr (s : State) (p : PartId) (q : Nat) (e : QEntry) : State :=
  match s.fabCheck p e true with
  | some (st, d0, d1) => (s.replayCount e).instrFault p q e st d0 d1
  | none =>
    let n := flatSize e.da
    let b := s.flatBytes p e.da
    let tag := s.tagFor p e.tag
    let all := transferFrames n
    let dst := nodeOf (e.sa.toNat / 2 ^ 42)
    let r := (all.drop e.sentN).foldl (fun (acc : State × Nat × Bool) x =>
      let (s, k, full) := acc
      if full ∨ s.replayRoom p.val dst (64 + 64 * x.2) = false then (s, k, true)
      else
        let f := NewFrame.build
          { tag := tag, type := Ft.write, cls := iMode e.insn 18 16, dst := dst, src := s.fab.node, unit := p.val,
            lines := x.2, len := 64 * x.2, fence := iMode e.insn 15 8,
            flag := bitOf e.insn 0 && decide (k + 1 = all.length), addr := e.sa.toNat + x.1 } none
          (.bytes ((b.drop x.1).take (64 * x.2)))
        (s.sendSeq f, k + 1, false)) (s, e.sentN, false)
    let e := { e with sentN := r.2.1, committed := decide (0 < r.2.1) }
    if r.2.1 = all.length then (r.1.replayCount e).finish p q e (24 + ceilDiv n 128) true
    else r.1.replayWait p q e true

def execFabWr (p : PartId) (a : Act) (s : State) : Res :=
  .next (s.engineRow p 0x70 a fun q e s => s.fabWr p q e)

/-- Lines that the reads on their way for an instruction name. -/
def State.askedLines (s : State) (o : PartId × Nat × Nat) : List Nat :=
  let of := fun (place : Nat) (f : Frame) => (List.range (hLines f)).map fun i => place + 64 * i
  (s.fab.sent.filter fun x => x.owner = some o).flatMap (fun x => of x.place x.frame) ++
    (s.fab.backlog.filter fun x => x.owner = some o).flatMap fun x => of x.place x.frame

/-- FAB_RD: READ_REQ frames for its lines, as the replay buffer takes them; once every answer has come, the lines are written
to dA. While some of its reads find no room it stays at its effect, and the wait is counted (R291). -/
def State.fabRd (s : State) (p : PartId) (q : Nat) (e : QEntry) : State :=
  match (if e.lines = [] ∧ e.owed = 0 then s.fabCheck p e false else none) with
  | some (st, d0, d1) => (s.replayCount e).instrFault p q e st d0 d1
  | none =>
    let n := flatSize e.da
    let asked := s.askedLines (p, q, e.uid)
    let missing := e.missing e.sa.toNat n
    match missing.filter fun l => !asked.contains l with
    | [] =>
      let s := s.replayCount e
      let e := { e with waitFrom := none }
      if missing = [] then (s.putFlat p e.da (e.fromLines e.sa.toNat n)).finish p q e (24 + ceilDiv n 128) false
      else s.setEntryOf p q { e with phase := .waiting }
    | l :: r =>
      let s' := s.readLines p q e (iMode e.insn 18 16) (l :: r)
      match s'.ownerEntry (p, q, e.uid) with
      | some e' =>
        if e'.phase ≠ .running ∧ e'.phase ≠ .waiting then s'.replayCount e
        else if e'.owed < e.owed + (lineRuns (l :: r)).length then s'.replayWait p q { e' with phase := .running } true
        else s'.replayWait p q e' false
      | none => s'

def execFabRd (p : PartId) (a : Act) (s : State) : Res :=
  .next (s.engineRow p 0x71 a fun q e s => s.fabRd p q e)

/-- FAB_FENCE captures the unacknowledged frames of its fence and waits for their acknowledgements (R294). -/
def State.fabFence (s : State) (p : PartId) (q : Nat) (e : QEntry) : State :=
  let id := iMode e.insn 15 8
  let owed := (s.fab.sent.filter fun x => x.unit = p.val ∧ hFence x.frame = id ∧ id ≠ 255).map fun x => (x.dst, x.seq)
  if owed = [] then s.finish p q e 0 false
  else
    (s.modFab fun b => { b with fences := b.fences ++ [{ part := p, uid := e.uid, id := id, owed := owed }] }).setEntryOf
      p q { e with phase := .waiting }

def execFabFence (p : PartId) (a : Act) (s : State) : Res :=
  .next (s.engineRow p 0x72 a fun q e s => s.fabFence p q e)

/-- A fence that has not completed in time faults, and the frames it owes are abandoned (R295).
(DESIGN CHOICE: log 39) -/
def State.fenceTimeout (s : State) (p : PartId) : State × List Sent :=
  match s.fab.fences.find? fun f => f.part = p with
  | none => (s, [])
  | some f =>
    let first := s.fab.sent.find? fun x => x.unit = p.val ∧ f.owed.contains (x.dst, x.seq)
    let s := s.modFab fun b =>
      { b with fences := b.fences.erase f, late := b.late ++ f.owed.map fun w => (p.val, w.1, w.2) }
    let s := match s.ownerEntry (p, 5, f.uid), first with
      | some e, some x => s.instrFault p 5 e St.fenceTimeout (pathDetail x.dst x.path) x.seq
      | some e, none => s.instrFault p 5 e St.fenceTimeout 0 0
      | none, _ => s
    f.owed.foldl (fun (acc : State × List Sent) w =>
      let r := acc.1.abandon p.val w.1 w.2
      (r.1, acc.2 ++ r.2)) (s, [])

end Sys2Proof.Machine
end

