-- ==== Sys2Proof/Machine/Pages.lean ====
section
/-! DEFINITION. The geometry of KV pages (R156 to R160) and the request page table (R64, R65, R161, R445). -/

namespace Sys2Proof.Machine

/-! ## Geometry (Table 6.1) -/

def State.geom (s : State) (p : PartId) : Geom :=
  let o := ptBase p + 0x4000
  { d := 64 * 2 ^ s.regFld o 1 0, kv := s.regFld o 15 8, qper := s.regFld o 23 16, kvFmt := s.regFld o 27 24 }

/-- Formats a KV page may hold (R160). -/
def kvFmtOk (f : Nat) : Bool := decide (1 ≤ f ∧ f ≤ 4) || decide (6 ≤ f ∧ f ≤ 8)

/-- Bytes of the elements of one position of one head. -/
def Geom.vec (g : Geom) (f : Nat) : Nat := g.d * fmtBits f / 8
def Geom.vecScales (g : Geom) (f : Nat) : Nat := if fmtBlock f then g.d / 32 else 0
/-- Half a page: the key elements and scales, or the value elements and scales. -/
def Geom.half (g : Geom) (f : Nat) : Nat := 256 * g.kv * (g.vec f + g.vecScales f)
/-- S(F) (R159). -/
def Geom.pageSize (g : Geom) (f : Nat) : Nat := 2 * g.half f
/-- Where the elements, and the scales, of head h from position t on stand in a page; `v` for values. -/
def Geom.elemAt (g : Geom) (f h t : Nat) (v : Bool) : Nat :=
  (if v then g.half f else 0) + (256 * h + t) * g.vec f
def Geom.scaleAt (g : Geom) (f h t : Nat) (v : Bool) : Nat :=
  (if v then g.half f else 0) + 256 * g.kv * g.vec f + (256 * h + t) * g.vecScales f

/-- ATT_GEOM written: ignored with a host-class event while a request that is not terminal is resident; a field
written with a value that is not allowed keeps its value (R156, R157). -/
def State.attGeom (s : State) (p : PartId) (v : BitVec 32) : State :=
  let o := ptBase p + 0x4000
  if s.liveSlots p ≠ [] then s.writeIgnored o
  else
    let w := s.reg o
    let w := if kvFmtOk (fld v 27 24) then setFld w 27 24 (fld v 27 24) else w
    let w := if 1 ≤ fld v 23 16 ∧ fld v 23 16 ≤ 16 then setFld w 23 16 (fld v 23 16) else w
    let w := if 1 ≤ fld v 15 8 ∧ fld v 15 8 ≤ 64 then setFld w 15 8 (fld v 15 8) else w
    let w := if fld v 1 0 ≤ 2 then setFld w 1 0 (fld v 1 0) else w
    s.setReg o w

def execAttGeomWrite (p : PartId) (v : BitVec 32) (s : State) : Res := .next (s.ifReady (s.attGeom p v))

/-! ## Request page tables (R64, R445) -/

/-- What went wrong for one request: a status with its detail words. -/
structure Miss where
  status : Status
  d0 : Nat
  d1 : Nat
  deriving DecidableEq, Repr

def AccErr.miss (x : AccErr) : Miss := ⟨x.status, x.addr, x.detail1⟩

/-- The state address of a fabric address of this node. -/
def State.ownAddr (s : State) (a : Nat) : Option Nat := if a / 2 ^ 42 = s.fab.node.val then some (a % 2 ^ 42) else none

/-- Read bytes of a structure of a request, named by a fabric address of this node. -/
def State.reqRead (s : State) (p : PartId) (a n : Nat) : Except Miss Bytes × State :=
  match s.ownAddr a with
  | none => (.error ⟨St.operandRange, a, 2⟩, s)
  | some a =>
    match s.stRead (s.jobOf p) a n with
    | (.ok b, s) => (.ok b, s)
    | (.error x, s) => (.error x.miss, s)

def State.ptHdr (s : State) (p : PartId) (m : Manifest) : Except Miss PtHdr × State :=
  match s.reqRead p (mPtAddr m) 64 with
  | (.ok b, s) => (.ok (ptHdrOf b), s)
  | (.error x, s) => (.error x, s)

def State.readDesc (s : State) (p : PartId) (m : Manifest) (h : PtHdr) (layer page : Nat) : Except Miss Word × State :=
  match s.reqRead p (mPtAddr m + descOff h.layers page layer) 8 with
  | (.ok b, s) => (.ok (wordOf b), s)
  | (.error x, s) => (.error x, s)

/-- The KV length of a layer: 256p + TOKENS of the highest valid descriptor p, looking from page `k − 1` down (R161). -/
def State.kvLenFrom (p : PartId) (m : Manifest) (h : PtHdr) (layer : Nat) : Nat → State → Except Miss Nat × State
  | 0, s => (.ok 0, s)
  | k + 1, s =>
    match s.readDesc p m h layer k with
    | (.error x, s) => (.error x, s)
    | (.ok d, s) => if dValid d then (.ok (256 * k + dTokens d), s) else State.kvLenFrom p m h layer k s

def State.kvLen (s : State) (p : PartId) (m : Manifest) (h : PtHdr) (layer : Nat) : Except Miss Nat × State :=
  State.kvLenFrom p m h layer h.pages s

/-- Descriptors of pages `i` to `i + k − 1` of a layer. -/
def State.descs (p : PartId) (m : Manifest) (h : PtHdr) (layer : Nat) :
    Nat → Nat → State → Except Miss (List Word) × State
  | 0, _, s => (.ok [], s)
  | k + 1, i, s =>
    match s.readDesc p m h layer i with
    | (.error x, s) => (.error x, s)
    | (.ok d, s) =>
      match State.descs p m h layer k (i + 1) s with
      | (.ok l, s) => (.ok (d :: l), s)
      | (.error x, s) => (.error x, s)

end Sys2Proof.Machine
end

