-- ==== Sys2Proof/Machine/Owner.lean ====
section
/-! DEFINITION. A request at its owner: the route book it goes by, its pages, the transfers that its end stops, the terminal
actions (R18), and the check of its manifest's CRC (R59). -/

namespace Sys2Proof.Machine

/-! ## The route book a node holds -/

def State.book (s : State) : Option Book := s.mgr.cur

/-- The manager that the current book names. -/
def State.mgrNode (s : State) : Option NodeId := s.book.map (·.mgr)

def bookNode (b : Book) (n : NodeId) : Option NodeEntry := b.nodes.find? fun e => e.node = n

/-- State of a node in the current book; a node that is not in it counts as REMOVED. -/
def State.nodeState (s : State) (n : NodeId) : NodeState :=
  (((s.book.bind fun b => bookNode b n)).map (·.state)).getD .removed

/-- The cache set of a number in a book (Table 1.3). -/
def bookSet (b : Book) (k : Nat) : Option CacheSet := b.sets.find? fun x => x.number.toNat = k

/-- The cache set of a number in the current book. -/
def State.cacheSet (s : State) (k : Nat) : Option CacheSet := s.book.bind fun b => bookSet b k

/-- The book under which a caravan of an epoch completes its phase: of the two held, the one of that epoch (R25). -/
def State.bookOf (s : State) (e : BitVec 16) : Option Book := (s.mgr.prev.filter fun b => b.epoch = e).or s.book

/-- The cache set that a manifest names, under the book whose epoch it carries (R25, R27). -/
def State.setUnder (s : State) (m : Manifest) : Option CacheSet := (s.bookOf (mEpoch m)).bind fun b => bookSet b (mCacheSet m)

/-- A cache set as the current book lists it, else as the previous one did. -/
def State.heldSet (s : State) (k : Nat) : Option CacheSet := (s.cacheSet k).or (s.mgr.prev.bind fun b => bookSet b k)

/-- The lead of a cache set: its lowest-numbered member that is ACTIVE (R297). -/
def State.leadOf (s : State) (c : CacheSet) : Option NodeId :=
  (c.members.filter fun n => s.nodeState n = .active).foldl
    (fun a n => match a with | some x => some (if n.val < x.val then n else x) | none => some n) none

/-- Send a message to the manager, from a partition. Without a book there is none to send it to.
(DESIGN CHOICE: log 55) -/
def State.sendMgr (s : State) (p : PartId) (t : Tag) (c : Ctl) (m : Option Manifest := none) : State :=
  match s.mgrNode with
  | none => s
  | some n => s.sendSeq { s.ctlFrame p.val n t c with mft := m }

/-! ## Phases -/

/-- Whether the partition owns the request of a slot: it holds it, and no transfer of it has passed its commit point
(R12). -/
def State.owns (s : State) (p : PartId) (k : Nat) : Bool := (s.slot p k).held && !(s.slot p k).gone

/-- Write a phase and the current epoch (R25). -/
def State.stamp (s : State) (p : PartId) (k ph : Nat) : State :=
  s.setManifest p k (mWithPhase (s.manifest p k) ph s.epoch)

/-- REQ of an event about a request (Table 17.5). -/
def reqWord (m : Manifest) : Word := setFld ((mReqId m).setWidth 64 : Word) 63 48 (mTenant m)

/-! ## Pages -/

/-- The unshared pages of a request that lie on this node, as state addresses. -/
def State.ownPages (s : State) (p : PartId) (m : Manifest) : List Nat × State :=
  match s.ptHdr p m with
  | (.error _, s) => ([], s)
  | (.ok h, s) =>
    (List.range (h.pages * h.layers)).foldl (fun (acc : List Nat × State) q =>
      match acc.2.reqRead p (mPtAddr m + 64 + 8 * q) 8 with
      | (.ok b, s) =>
        let d := wordOf b
        if dValid d ∧ dShared d = false ∧ dParked d = false ∧ dAddr d / 2 ^ 42 = s.fab.node.val then
          (acc.1 ++ [dAddr d % 2 ^ 42], s)
        else (acc.1, s)
      | (.error _, s) => (acc.1, s)) ([], s)

/-- The request's frames return to the KV page pool (R18, R162). -/
def State.freePages (s : State) (p : PartId) (k : Nat) : State :=
  let r := s.ownPages p (s.manifest p k)
  let j := (s.jobOf p).getD 0
  r.1.foldl (fun s a => s.poolGiveAddr j a) r.2

/-- A status that no rule names: a free one of Table 17.1, to which every status is confined (R397).
(DESIGN CHOICE: log 48) -/
def unstatedCode (n : Nat) : Status := St.notOk.getD (Config.unstatedStatus n % St.notOk.length) St.operandRange

/-! ## Transfers that a cancel or the end of a request stops (R18, R63) -/

/-- The CONTROL frame with ABORT set that tells a receiver to discard a transfer. -/
def State.sendAbort (s : State) (p : PartId) (m : Manifest) (dst : NodeId) : State :=
  let t := tagOfManifest m Ct.control 0 false false
  let t := { t with w1 := setFld t.w1 56 56 1 }
  s.sendSeq (s.ctlFrame p.val dst t (.abort t))

def State.outgoingOf (s : State) (p : PartId) (k : Nat) : Option Outgoing :=
  (s.part p).outgoing.find? fun o => o.slot = k

/-- The FAB_CARAVAN of a transfer retires with a status in sC; the transfer is no more. -/
def State.endTransfer (s : State) (p : PartId) (o : Outgoing) (st : Status) : State :=
  let s := s.modPart p fun x => { x with outgoing := x.outgoing.erase o }
  let s := s.setSlot p o.slot { s.slot p o.slot with leaving := false }
  match s.ownerEntry (p, 5, o.uid) with
  | some e => s.finish p 5 e 0 (decide (st = St.ok)) (st.setWidth 64)
  | none => s

/-- State address at which every member of a cache set keeps a parked copy of a request, named by its NEXT_POS and by the
slot addresses that the lead has allocated to it, which every member knows from the page table: (0) its manifest, its
sampler record at 64 bytes and its page table at 256 bytes from there, (1) its token log. (DESIGN CHOICE: log 42) -/
def parkedAddr (which : Nat) (id : ReqId) (pos : Nat) (slots : List Nat) : Nat :=
  Config.parkedCopy which id.toNat pos (slots.headD 0) * 4096 % 2 ^ 42

/-- Release what the members of a cache set hold of a PARK transfer that has failed or is stopped: its own copy, and not the
one that the request was resumed from (R20). (DESIGN CHOICE: log 58) -/
def State.releasePark (s : State) (p : PartId) (o : Outgoing) : State :=
  let base := parkedAddr 0 o.id (mNextPos o.mft) o.slots
  let copy := if (s.slot p o.slot).oldCopy = some base then 2 ^ 42 else base
  if o.park then
    o.dsts.foldl (fun s d => s.sendSeq (s.ctlFrame p.val d.1 (ctlTagM o.mft)
      (.release { id := o.id, copy := some copy, hops := some (mHops o.mft), upTo := none }))) s
  else s

/-- Stop a transfer before its commit point: its receivers discard what they have, also those that have all of a PARK. -/
def State.stopTransfer (s : State) (p : PartId) (k : Nat) (st : Status) : State :=
  match s.outgoingOf p k with
  | none => s
  | some o => ((o.dsts.foldl (fun s d => s.sendAbort p o.mft d.1) s).releasePark p o).endTransfer p o st

/-! ## The end of a request (R18) -/

/-- Send every member of a cache set a CONTROL release of a request (R20, R297): of every copy, or of the one at an address
and those of NEXT_POS below `upTo`. (DESIGN CHOICE: log 58) -/
def State.releaseSet (s : State) (unit : Nat) (m : Manifest) (k : Option Nat) (copy : Option Nat := none)
    (upTo : Option Nat := none) : State :=
  match k.bind s.heldSet with
  | none => s
  | some c => c.members.foldl (fun s n =>
      s.sendSeq (s.ctlFrame unit n (ctlTagM m) (.release { id := mReqId m, copy := copy, hops := none, upTo := upTo }))) s

/-- Answer the cancels of a slot. -/
def State.answerCancels (s : State) (p : PartId) (k : Nat) (st : Status) : State :=
  let m := s.manifest p k
  let x := s.slot p k
  let s := x.cancellers.foldl (fun s n =>
    s.sendSeq (s.ctlFrame p.val n (ctlTagM m) (.cancelAnswer (mReqId m) st (mOutput m)))) s
  s.setSlot p k { s.slot p k with cancellers := [] }

/-- The terminal actions: pages freed, the adapter slot unpinned, the final manifest sent to the manager, the cache set
of a request that was parked released; a request that ends FAILED raises REQUEST_FAILED. -/
def State.closeRequest (s : State) (p : PartId) (k : Nat) : State :=
  let m := s.manifest p k
  let s := s.freePages p k
  let s := s.adRef m false
  let s := if mPhase m = Ph.failed then s.raise Ev.requestFailed St.ok p.val 0xFF (reqWord m) else s
  let s := s.sendMgr p (tagOfManifest m Ct.manifest 0 false true) (.finalManifest m) (some m)
  s.releaseSet p.val m (s.slot p k).oldSet

/-- End a request in a terminal phase: a transfer of it that has not passed its commit point is stopped, and its FAB_CARAVAN
writes a free value to its sC. (DESIGN CHOICE: log 34; DESIGN CHOICE: log 48) -/
def State.endRequest (s : State) (p : PartId) (k ph : Nat) : State :=
  let s := if (s.outgoingOf p k).isSome then
      ({ s with freeCount := s.freeCount + 1 }).stopTransfer p k (unstatedCode s.freeCount)
    else s
  (s.stamp p k ph).closeRequest p k

/-- A bad CRC in the partition's own manifest table ends the request FAILED (R59). (DESIGN CHOICE: log 36) -/
def State.crcFailed (s : State) (p : PartId) (k : Nat) : State :=
  let s := s.raise Ev.manifestCrcLocal St.ok p.val 0xFF (reqWord (s.manifest p k))
  if terminal (mPhase (s.manifest p k)) ∨ s.owns p k = false then s else s.endRequest p k Ph.failed

/-- The check of every load of the partition's own manifest table (R59). -/
def State.checkOwn (s : State) (p : PartId) (k : Nat) : State :=
  if mCrcOk (s.manifest p k) then s else s.crcFailed p k

/-! ## A request whose state is lost, and shared pages that become unreadable (R395) -/

/-- The bytes of a page table at a state address; none where it cannot be read. -/
def State.tableAt (s : State) (job : Option Nat) (a : Nat) : Bytes :=
  match (s.stRead job a 64).1 with
  | .error _ => []
  | .ok b =>
    match (s.stRead job a (64 + 8 * ((ptHdrOf b).pages * (ptHdrOf b).layers))).1 with
    | .ok t => t
    | .error _ => []

/-- The bytes of a page table of this node at a fabric address. -/
def State.ownTable (s : State) (job : Option Nat) (a : Nat) : Bytes := ((s.ownAddr a).map (s.tableAt job)).getD []

/-- SHARED pages: their fabric addresses, and the bytes of a page. -/
structure SharedPages where
  addrs : List Nat
  bytes : Nat
  deriving DecidableEq, Repr

/-- The SHARED pages that a page table names (R64). -/
def sharedIn (t : Bytes) : SharedPages :=
  let h := ptHdrOf t
  if t = [] then ⟨[], 0⟩
  else
    ⟨(List.range (h.pages * h.layers)).filterMap fun q =>
        let d : Word := wordOf (t.drop (64 + 8 * q))
        if dValid d && dShared d then some (dAddr d) else none, h.pageBytes⟩

def SharedPages.hit (x : SharedPages) (bad : Nat → Nat → Bool) : Bool := x.addrs.any fun a => bad a x.bytes

/-- The SHARED pages that a request of a partition attends. -/
def State.sharedPages (s : State) (p : PartId) (m : Manifest) : SharedPages :=
  sharedIn (s.ownTable (s.jobOf p) (mPtAddr m))

/-- A node gives up what it holds of a request whose state is lost. (DESIGN CHOICE: log 56) -/
def State.giveUp (s : State) (p : PartId) (k : Nat) : State :=
  let m := s.manifest p k
  let s := s.stopTransfer p k St.stateLost
  let s := (s.freePages p k).adRef m false
  s.setSlot p k { s.slot p k with gone := true, faulted := true }

/-- A request that attends an unreadable shared page is STATE_LOST: the manager is told, and this node gives up what it
holds of it. (DEDUCED: log 79) -/
def State.loseShared (s : State) (p : PartId) (k : Nat) : State :=
  let m := s.manifest p k
  (s.sendMgr p (ctlTagM m) (.lostRequest (mReqId m) .sharedPage (some m))).giveUp p k

/-- Whether a book marks the node of a fabric address REMOVED. (DEDUCED: log 79) -/
def bookRemoved (b : Book) (a : Nat) : Bool :=
  b.nodes.any fun n => decide (n.node = nodeOf (a / 2 ^ 42)) && decide (n.state = .removed)

/-- A request whose page table has just been written: one that attends a shared page of a REMOVED node is STATE_LOST (R395).
(DEDUCED: log 79) -/
def State.sharedCheck (s : State) (p : PartId) (k : Nat) : State :=
  if (s.sharedPages p (s.manifest p k)).hit fun a _ => s.book.any fun b => bookRemoved b a then s.loseShared p k else s

end Sys2Proof.Machine
end

