-- ==== Sys2Proof/Machine/Numerics.lean ====
section
/-! DEFINITION. Number formats (R142 to R144, Table 5.4), conversions with rounding to nearest even (R149, Table 5.7),
FP32 arithmetic, and the special functions within their accuracy (R152, Table 5.8). -/

namespace Sys2Proof.Machine

/-! ## Exact values -/

/-- A decoded number: NaN, an infinity, or (−1)^neg × m × 2^e. -/
inductive Fl where
  | nan
  | inf (neg : Bool)
  | fin (neg : Bool) (m : Nat) (e : Int)
  deriving DecidableEq, Repr

def Fl.zero : Fl := .fin false 0 0
def Fl.isNan : Fl → Bool
  | .nan => true
  | _ => false
def Fl.isFin : Fl → Bool
  | .fin _ _ _ => true
  | _ => false
def Fl.isZero : Fl → Bool
  | .fin _ 0 _ => true
  | _ => false
def Fl.sign : Fl → Bool
  | .nan => false
  | .inf n | .fin n _ _ => n
def Fl.neg : Fl → Fl
  | .nan => .nan
  | .inf n => .inf !n
  | .fin n m e => .fin (!n) m e
def Fl.abs : Fl → Fl
  | .nan => .nan
  | .inf _ => .inf false
  | .fin _ m e => .fin false m e

def natShift (m : Nat) (k : Int) : Nat := if 0 ≤ k then m <<< k.toNat else m >>> (-k).toNat

/-- The exact integer of a finite value at scale 2^s, for s no greater than its exponent. -/
def Fl.scaled (x : Fl) (s : Int) : Int :=
  match x with
  | .fin n m e => let v : Int := (m <<< (e - s).toNat : Nat); if n then -v else v
  | _ => 0

def Fl.expo : Fl → Int
  | .fin _ _ e => e
  | _ => 0

def Fl.ofInt (i : Int) (s : Int) : Fl := .fin (decide (i < 0)) i.natAbs s

/-- Exact sum of finite values; an exact zero of opposite signs is +0. -/
def Fl.addX (x y : Fl) : Fl :=
  match x, y with
  | .nan, _ | _, .nan => .nan
  | .inf a, .inf b => if a = b then .inf a else .nan
  | .inf a, _ | _, .inf a => .inf a
  | .fin a m e, .fin b n f =>
    let s := min e f
    let i := (Fl.fin a m e).scaled s + (Fl.fin b n f).scaled s
    if i = 0 then .fin (m == 0 && n == 0 && a && b) 0 s else .ofInt i s

/-- Exact product. -/
def Fl.mulX (x y : Fl) : Fl :=
  match x, y with
  | .nan, _ | _, .nan => .nan
  | .inf a, .inf b => .inf (a != b)
  | .inf a, .fin b n _ | .fin b n _, .inf a => if n = 0 then .nan else .inf (a != b)
  | .fin a m e, .fin b n f => .fin (a != b) (m * n) (e + f)

/-- A value times a power of two. -/
def Fl.scale (x : Fl) (k : Int) : Fl :=
  match x with
  | .fin n m e => .fin n m (e + k)
  | y => y

/-- x ≤ y for values that are not NaN. -/
def Fl.le (x y : Fl) : Bool :=
  match x, y with
  | .nan, _ | _, .nan => false
  | .inf true, _ | _, .inf false => true
  | .inf false, _ => false
  | _, .inf true => false
  | .fin a m e, .fin b n f => let s := min e f; decide ((Fl.fin a m e).scaled s ≤ (Fl.fin b n f).scaled s)

def Fl.lt (x y : Fl) : Bool := !x.isNan && !y.isNan && !(Fl.le y x)
def Fl.eqv (x y : Fl) : Bool := Fl.le x y && Fl.le y x

/-! ## Formats -/

/-- A floating format: mantissa bits, bias, the largest finite code without its sign, whether it has infinities. -/
structure FmtInfo where
  mb : Nat
  eb : Nat
  bias : Int
  maxCode : Nat
  hasInf : Bool
  deriving DecidableEq, Repr

def fmtInfo (f : Nat) : FmtInfo :=
  match f with
  | 0 => ⟨23, 8, 127, 0x7F7FFFFF, true⟩
  | 1 => ⟨7, 8, 127, 0x7F7F, true⟩
  | 2 => ⟨10, 5, 15, 0x7BFF, true⟩
  | 3 => ⟨3, 4, 7, 0x7E, false⟩
  | 4 => ⟨2, 5, 15, 0x7B, true⟩
  | 6 => ⟨2, 3, 3, 0x1F, false⟩
  | 7 => ⟨3, 2, 1, 0x1F, false⟩
  | _ => ⟨1, 2, 1, 0x7, false⟩

def canonicalNan (f : Nat) : Nat :=
  match f with
  | 0 => 0x7FC00000
  | 1 => 0x7FC0
  | 2 => 0x7E00
  | 3 => 0x7F
  | 4 => 0x7E
  | _ => 0

/-- emax for block scaling (Table 5.4). -/
def fmtEmax (f : Nat) : Int := match f with | 3 => 8 | 4 => 15 | 6 => 4 | 7 => 2 | _ => 2

/-- Decode one element code (R142). -/
def decodeElem (f c : Nat) : Fl :=
  if f = 5 then let i := signedOf 8 c; .fin (decide (i < 0)) i.natAbs 0
  else
    let i := fmtInfo f
    let sgn := decide (c / 2 ^ (i.mb + i.eb) % 2 = 1)
    let mag := c % 2 ^ (i.mb + i.eb)
    let ex := mag / 2 ^ i.mb
    let fr := mag % 2 ^ i.mb
    if i.maxCode < mag then (if i.hasInf ∧ fr = 0 then .inf sgn else .nan)
    else if ex = 0 then .fin sgn fr (1 - i.bias - i.mb)
    else .fin sgn (2 ^ i.mb + fr) ((ex : Int) - i.bias - i.mb)

/-- Round m × 2^e to an integer multiple of 2^q, ties to even. -/
def roundShift (m : Nat) (k : Int) : Nat :=
  if k ≤ 0 then m <<< (-k).toNat
  else
    let k := k.toNat
    let n := m >>> k
    let r := m % 2 ^ k
    let h := 2 ^ (k - 1)
    if h < r ∨ (r = h ∧ n % 2 = 1) then n + 1 else n

/-- The magnitude code of a finite value rounded to nearest even; it may exceed the largest finite code. -/
def roundMag (i : FmtInfo) (m : Nat) (e : Int) : Nat :=
  if m = 0 then 0
  else
    let qmin : Int := 1 - i.bias - i.mb
    let q := max qmin (e + (Nat.log2 m : Int) - i.mb)
    (q - qmin).toNat * 2 ^ i.mb + roundShift m (q - e)

/-- Round to nearest integer, ties to even, magnitude only. -/
def roundInt (m : Nat) (e : Int) : Nat := roundShift m (-e)

/-- Encode a value in a format (R149, Table 5.7); for a block-scaled format the value is already divided by its
block's scale. -/
def encodeElem (f : Nat) (x : Fl) : Nat :=
  if f = 5 then
    match x with
    | .nan => 0
    | .inf n => if n then 0x80 else 0x7F
    | .fin n m e =>
      let r := roundInt m e
      if n then toTwos 8 (-(min r 128 : Nat)) else min r 127
  else
    let i := fmtInfo f
    let s := 2 ^ (i.mb + i.eb)
    match x with
    | .nan => canonicalNan f
    | .inf n => if i.hasInf then b2n n * s + (2 ^ i.eb - 1) * 2 ^ i.mb else canonicalNan f
    | .fin n m e =>
      let c := roundMag i m e
      if c ≤ i.maxCode then b2n n * s + c
      else if f ≤ 2 then b2n n * s + (2 ^ i.eb - 1) * 2 ^ i.mb
      else b2n n * s + i.maxCode

/-- Round to FP32. -/
def round32 (x : Fl) : Fl := decodeElem 0 (encodeElem 0 x)

def ofF32 (b : BitVec 32) : Fl := decodeElem 0 b.toNat
def toF32 (x : Fl) : BitVec 32 := BitVec.ofNat 32 (encodeElem 0 x)

/-! ## FP32 arithmetic -/

def f32add (x y : Fl) : Fl := round32 (x.addX y)
def f32sub (x y : Fl) : Fl := round32 (x.addX y.neg)
def f32mul (x y : Fl) : Fl := round32 (x.mulX y)
/-- A fused multiply-add rounds once (R150). -/
def f32fma (x y z : Fl) : Fl := round32 ((x.mulX y).addX z)

/-- A quotient to more bits than any format keeps, with a sticky bit below them. -/
def quotient (n : Bool) (a : Nat) (e : Int) (b : Nat) (f : Int) : Fl :=
  let q := (a <<< 96) / b
  let r := (a <<< 96) % b
  .fin n (2 * q + (if r = 0 then 0 else 1)) (e - f - 97)

def f32div (x y : Fl) : Fl :=
  match x, y with
  | .nan, _ | _, .nan => .nan
  | .inf _, .inf _ => .nan
  | .inf a, .fin b _ _ => .inf (a != b)
  | .fin a _ _, .inf b => .fin (a != b) 0 0
  | .fin a m e, .fin b n f =>
    if n = 0 then (if m = 0 then .nan else .inf (a != b)) else round32 (quotient (a != b) m e n f)

/-- IEEE 754-2019 maximum: NaN where either is NaN. -/
def f32max (x y : Fl) : Fl :=
  if x.isNan || y.isNan then .nan
  else if x.isZero && y.isZero then (if x.sign then y else x)
  else if Fl.le x y then y else x

/-! ## Fixed-point functions, scale 2^400 -/

def fxP : Nat := 400
def fxOne : Nat := 2 ^ 400
def fxLn2 : Nat :=
  0xb17217f7d1cf79abc9e3b39803f2f6af40f343267298b62d8a0d175b8baafa2be7b876206debac98559552fb4afa1b10ed2e
def fxPi : Nat :=
  0x3243f6a8885a308d313198a2e03707344a4093822299f31d0082efa98ec4e6c89452821e638d01377be5466cf34e90c6cc0ac
/-- √(2 ÷ π). -/
def fxGelu : Nat :=
  0xcc42299ea1b284687e59e2805d5c717fa7053e60a24e0db1808e369004c73a5d3bf158aa88fa7b6e47eba75766e9d11bd628

def expTaylor : Nat → Nat → Nat → Nat → Nat → Nat
  | 0, _, _, _, acc => acc
  | n + 1, k, r, t, acc => let t' := t * r / fxOne / k; expTaylor n (k + 1) r t' (acc + t')

/-- e^x for x at scale 2^400: (F, k) with e^x = F × 2^(k − 400), F from 2^400 to below 2^401. -/
def fxExp (x : Int) : Nat × Int :=
  let k := x / (fxLn2 : Int)
  let r := (x - k * fxLn2).toNat
  (expTaylor 100 1 r fxOne fxOne, k)

def atanhSeries : Nat → Nat → Nat → Nat → Nat → Nat
  | 0, _, _, _, acc => acc
  | n + 1, j, y2, t, acc => let t' := t * y2 / fxOne; atanhSeries n (j + 2) y2 t' (acc + t' / j)

/-- Natural logarithm of m × 2^e for m > 0, at scale 2^400. -/
def fxLn (m : Nat) (e : Int) : Int :=
  let l := Nat.log2 m
  let v := m * fxOne / 2 ^ l
  let y := (v - fxOne) * fxOne / (v + fxOne)
  (e + l) * (fxLn2 : Int) + 2 * (atanhSeries 130 3 (y * y / fxOne) y y : Nat)

def sinSeries : Nat → Nat → Int → Int → Int → Int
  | 0, _, _, _, acc => acc
  | n + 1, k, r2, t, acc =>
    let t' := -(t * r2) / (fxOne : Int) / (k * (k + 1) : Nat)
    sinSeries n (k + 2) r2 t' (acc + t')

/-- Sine and cosine of an angle at scale 2^400. -/
def fxSinCos (a : Nat) : Int × Int :=
  let r : Int := ((a % (2 * fxPi) : Nat) : Int) - fxPi
  let r2 := r * r / fxOne
  -- sin (r + π) = −sin r
  (-(sinSeries 70 2 r2 r r), -(sinSeries 70 1 r2 fxOne fxOne))

def Fl.toFx (x : Fl) : Int :=
  match x with
  | .fin n m e => let v : Int := natShift m (e + fxP); if n then -v else v
  | _ => 0

def Fl.ofFx (i : Int) : Fl := .ofInt i (-(fxP : Int))

/-- Integer square root, `n` bits of it. -/
def isqrtBits : Nat → Nat → Nat → Nat
  | 0, _, r => r
  | n + 1, v, r => let r' := r + 2 ^ n; isqrtBits n v (if r' * r' ≤ v then r' else r)

/-! ## Exact results of the special functions -/

def bigger (x : Fl) (k : Nat) : Bool := match x with | .fin _ m e => decide (2 ^ k ≤ natShift m e) | _ => true

def expExact (x : Fl) : Fl :=
  match x with
  | .nan => .nan
  | .inf n => if n then .zero else .inf false
  | .fin n m e =>
    if bigger x 8 then (if n then .fin false 1 (-400) else .fin false 1 400)
    else if m = 0 then .fin false 1 0
    else let r := fxExp (Fl.fin n m e).toFx; .fin false r.1 (r.2 - fxP)

def recipExact (x : Fl) : Fl :=
  match x with
  | .nan => .nan
  | .inf n => .fin n 0 0
  | .fin n m e => if m = 0 then .inf n else quotient n 1 0 m e

def rsqrtExact (x : Fl) : Fl :=
  match x with
  | .nan => .nan
  | .inf n => if n then .nan else .zero
  | .fin n m e =>
    if m = 0 then .inf n
    else if n then .nan
    else
      let odd := decide (e % 2 = 1)
      let m' := if odd then 2 * m else m
      let e' := if odd then e - 1 else e
      let v := isqrtBits 301 (2 ^ 600 / m') 0
      .fin false v (-300 - e' / 2)

/-- 1 ÷ (1 + e^−x). -/
def sigmoidExact (x : Fl) : Fl :=
  match x with
  | .nan => .nan
  | .inf n => if n then .zero else .fin false 1 0
  | .fin n _ _ =>
    if bigger x 10 then (if n then .fin false 1 (-1200) else .fin false 1 0)
    else
      let r := fxExp x.toFx
      let num := natShift r.1 (max r.2 0)
      let den := natShift fxOne (max (-r.2) 0) + num
      -- e^−1024 is above 2^−1478, so that no quotient is 0
      .fin false ((num <<< 2000) / den) (-2000)

def tanhExact (x : Fl) : Fl :=
  match x with
  | .nan => .nan
  | .inf n => .fin n 1 0
  | .fin n m _ =>
    if m = 0 then x
    else if bigger x 7 then .fin n 1 0
    else
      let r := fxExp (-2 * x.abs.toFx)
      let one := natShift fxOne (max (-r.2) 0)
      .fin n (((one - r.1) <<< 400) / (one + r.1)) (-400)

def lnExact (x : Fl) : Fl :=
  match x with
  | .nan => .nan
  | .inf n => if n then .nan else .inf false
  | .fin n m e => if m = 0 then .inf true else if n then .nan else .ofFx (fxLn m e)

/-- b × sigmoid(b), exact. -/
def siluExact (b : Fl) : Fl :=
  match b with
  | .nan => .nan
  | .inf n => if n then .zero else .inf false
  | x => x.mulX (sigmoidExact x)

/-- The GELU form of Table 5.8: 0.5 × (1 + tanh t) is sigmoid(2t). -/
def geluExact (b : Fl) : Fl :=
  match b with
  | .nan => .nan
  | .inf n => if n then .zero else .inf false
  | x =>
    if bigger x 7 then (if x.sign then .fin true 1 (-1200) else x)
    else
      let v := x.toFx
      let cube := v * v / (fxOne : Int) * v / (fxOne : Int)
      let t := (v + cube * 44715 / 1000000) * (fxGelu : Int) / (fxOne : Int)
      x.mulX (sigmoidExact (.ofFx (2 * t)))

/-! ## Results within the accuracy of Table 5.8 -/

/-- One unit in the last place of an FP32 value. -/
def ulp32 (r : Fl) : Fl :=
  match r with
  | .fin _ m e => if m = 0 then .fin false 1 (-149) else .fin false 1 (max (-149) (e + (Nat.log2 m : Int) - 23))
  | _ => .zero

/-- The value a special function gives: a special value is exact; otherwise any FP32 value no further from the
rounded exact result than `n` ulp, which one is free (assumption log 3). -/
def withinUlp (id n : Nat) (x y : BitVec 32) (exact : Fl) : Fl :=
  let r := round32 exact
  match r with
  | .fin _ _ _ =>
    let c := ofF32 (Config.sfuValue id x.toNat y.toNat)
    let dist := (c.addX r.neg).abs
    if c.isFin && Fl.le dist ((ulp32 r).mulX (.fin false n 0)) then c else r
  | z => z

/-- Whether Table 5.8 fixes the result for an operand: its special values. -/
def sfuSpecial (id : Nat) (x : Fl) : Bool :=
  match x with
  | .nan | .inf _ => true
  | .fin n m _ => (decide (id = 1) && decide (m = 0)) || (decide (id = 2) && (decide (m = 0) || n)) ||
      (decide (id = 5) && (decide (m = 0) || n))

def sfuExact (id : Nat) (x : Fl) : Fl :=
  match id with
  | 0 => expExact x
  | 1 => recipExact x
  | 2 => rsqrtExact x
  | 3 => tanhExact x
  | 4 => sigmoidExact x
  | _ => lnExact x

/-- VX_SFU function `id` of an FP32 value. -/
def sfu (id : Nat) (x : Fl) : Fl :=
  let r := sfuExact id x
  if sfuSpecial id x then round32 r
  else withinUlp id (if id = 1 ∨ id = 2 then 1 else 2) (toF32 x) 0 r

def swiglu (b c : Fl) : Fl :=
  if b.isNan || c.isNan then .nan
  else
    let r := (siluExact b).mulX c
    if b.isFin && c.isFin then withinUlp 6 4 (toF32 b) (toF32 c) r else round32 r

def gelu (b : Fl) : Fl :=
  let r := geluExact b
  if b.isFin then withinUlp 7 4 (toF32 b) 0 r else round32 r

/-! ## Rows of elements -/

/-- The element codes of a row: FP6 elements four to three bytes, FP4 two to a byte (R142). -/
def unpackRow (bits : Nat) : Nat → Bytes → List Nat
  | 0, _ => []
  | n + 1, b =>
    match bits with
    | 6 =>
      match b with
      | x :: y :: z :: r =>
        let v := x.toNat + 256 * y.toNat + 65536 * z.toNat
        v % 64 :: v / 64 % 64 :: v / 4096 % 64 :: v / 262144 :: unpackRow bits n r
      | _ => []
    | 4 =>
      match b with
      | x :: r => x.toNat % 16 :: x.toNat / 16 :: unpackRow bits n r
      | [] => []
    | 16 =>
      match b with
      | x :: y :: r => (x.toNat + 256 * y.toNat) :: unpackRow bits n r
      | _ => []
    | 32 =>
      match b with
      | x :: y :: z :: w :: r =>
        (x.toNat + 256 * y.toNat + 65536 * z.toNat + 16777216 * w.toNat) :: unpackRow bits n r
      | _ => []
    | _ =>
      match b with
      | x :: r => x.toNat :: unpackRow bits n r
      | [] => []

def packRow (bits : Nat) : Nat → List Nat → Bytes
  | 0, _ => []
  | n + 1, l =>
    match bits with
    | 6 =>
      match l with
      | a :: b :: c :: d :: r => leBytes 3 (a + 64 * b + 4096 * c + 262144 * d) ++ packRow bits n r
      | _ => []
    | 4 =>
      match l with
      | a :: b :: r => BitVec.ofNat 8 (a + 16 * b) :: packRow bits n r
      | _ => []
    | w =>
      match l with
      | a :: r => leBytes (w / 8) a ++ packRow bits n r
      | [] => []

/-- Decoded elements of a row before their block scales. -/
def rawRow (f n : Nat) (b : Bytes) : List Fl := ((unpackRow (fmtBits f) n b).take n).map (decodeElem f)

/-- The exponent of a block scale byte; none for 255, which makes every element NaN (R143). -/
def scaleExp (b : Byte) : Option Int := if b = 255 then none else some ((b.toNat : Int) - 127)

/-- A block of at most 32 elements under its scale. -/
def scaleBlock (sc : Option Int) (l : List Fl) : List Fl :=
  l.map fun x => match sc with | none => Fl.nan | some k => x.scale k

/-- Split into blocks of 32. -/
def blocks32 {β : Type} : Nat → List β → List (List β)
  | 0, _ => []
  | n + 1, l => match l with | [] => [] | _ => l.take 32 :: blocks32 n (l.drop 32)

/-- Decoded values of a row of `n` elements in format `f`, with its scale bytes. -/
def decodeRow (f n : Nat) (b scales : Bytes) : List Fl :=
  let r := rawRow f n b
  if fmtBlock f then ((blocks32 (n / 32 + 1) r).zip scales).flatMap fun x => scaleBlock (scaleExp x.2) x.1
  else r

/-- Whether one magnitude is below another, on finite values. -/
def maxAbs (l : List Fl) : Fl := l.foldl (fun a x => if Fl.le a x.abs then x.abs else a) .zero

/-- The conversion of one block into a block-scaled form with elements in format `f` (R144): scale byte and codes. -/
def convertBlock (f : Nat) (l : List Fl) : Byte × List Nat :=
  if l.any fun x => !x.isFin then (255, l.zipIdx.map fun x => Config.nanBlockCode x.2 % 2 ^ fmtBits f)
  else
    let x : Int := match maxAbs l with
      | .fin _ m e => if m = 0 then -127 else e + (Nat.log2 m : Int) - fmtEmax f
      | _ => -127
    let x := min (max x (-127)) 127
    (BitVec.ofNat 8 (x + 127).toNat, l.map fun y => encodeElem f (y.scale (-x)))

/-- The bytes and scale bytes of a row of values in format `f` (R149). -/
def encodeRow (f : Nat) (l : List Fl) : Bytes × Bytes :=
  if fmtBlock f then
    let bs := (blocks32 (l.length / 32 + 1) l).map (convertBlock f)
    (packRow (fmtBits f) (l.length + 1) (bs.flatMap (·.2)), bs.map (·.1))
  else (packRow (fmtBits f) (l.length + 1) (l.map (encodeElem f)), [])

end Sys2Proof.Machine
end

