-- ==== Sys2Proof/Machine/Vector.lean ====
section
/-! DEFINITION. The vector opcodes (R125, R150 to R152, R444). -/

namespace Sys2Proof.Machine

/-! ## Operand rows -/

/-- Decoded rows of a tensor in hold SRAM. -/
def State.tensor (s : State) (p : PartId) (d : Desc) : List (List Fl) :=
  (List.range (tRows d)).map fun i =>
    decodeRow (tFmt d) (tCols d) (s.hsRead p (tRowAt d i) (tRowBytes d)) (s.hsRead p (tScaleAt d i) (tScaleBytes d))

/-- One decoded row. -/
def State.tensorRow (s : State) (p : PartId) (d : Desc) (i : Nat) : List Fl :=
  decodeRow (tFmt d) (tCols d) (s.hsRead p (tRowAt d i) (tRowBytes d)) (s.hsRead p (tScaleAt d i) (tScaleBytes d))

/-- Write one row of values in the tensor's format (R149). -/
def State.putRow (s : State) (p : PartId) (d : Desc) (i : Nat) (l : List Fl) : State :=
  let r := encodeRow (tFmt d) l
  let s := s.hsWrite p (tRowAt d i) r.1
  if r.2 = [] then s else s.hsWrite p (tScaleAt d i) r.2

def State.putTensor (s : State) (p : PartId) (d : Desc) (rows : List (List Fl)) : State :=
  rows.zipIdx.foldl (fun s x => s.putRow p d x.2 x.1) s

/-! ## The vector queue -/

def vxOne (w : InsnWord) : Bool := bitOf w 39
def vxCore (w : InsnWord) : Nat := fld w 46 40

/-- Present cores an instruction spreads over: its one core, or all present cores. (DESIGN CHOICE: log 20) -/
def State.vxCores (s : State) (p : PartId) (w : InsnWord) : Nat := if vxOne w then 1 else (s.part p).presentCores

/-- Cost term ⌈E ÷ 16c⌉ (Table 4.11). -/
def State.vxBeats (s : State) (p : PartId) (w : InsnWord) (e : Nat) : Nat := ceilDiv e (16 * s.vxCores p w)

/-- Formats every vector opcode but VX_CVT takes (R150). -/
def vxFmt (d : Desc) : Bool := decide (tFmt d ≤ 4)

/-- Whether two tensors have one shape. -/
def sameShape (a b : Desc) : Bool := decide (tRows a = tRows b) && decide (tCols a = tCols b)

/-- The frame of a vector instruction: CORE_ABSENT for one absent core, DESC_INVALID for the first operand of a wrong
format or shape (`bad`), else the result rows written to dA. -/
def State.vxRun (s : State) (p : PartId) (q : Nat) (e : QEntry) (bad : Option Nat) (cost : Nat)
    (rows : List (List Fl)) : State :=
  if vxOne e.insn ∧ (s.part p).absentBit (vxCore e.insn) then s.instrFault p q e St.coreAbsent (vxCore e.insn) 0
  else
    match bad with
    | some i => s.shapeFault p q e i
    | none => (s.putTensor p e.da rows).finish p q e cost false

/-- The first operand, of those given with their numbers, that fails a test. -/
def firstBad (l : List (Nat × Bool)) : Option Nat := (l.find? fun x => !x.2).map (·.1)

/-- An element-wise instruction of two tensor sources. -/
def State.vxTwo (s : State) (p : PartId) (q : Nat) (e : QEntry) (k : Nat) (f : Fl → Fl → Fl) : State :=
  let bad := firstBad [(0, vxFmt e.da), (1, vxFmt e.db && sameShape e.da e.db), (2, vxFmt e.dc && sameShape e.da e.dc)]
  let rows := ((s.tensor p e.db).zip (s.tensor p e.dc)).map fun r => List.zipWith f r.1 r.2
  s.vxRun p q e bad (24 + k * s.vxBeats p e.insn (tElems e.da)) rows

/-- An element-wise instruction of one tensor source. -/
def State.vxOneSrc (s : State) (p : PartId) (q : Nat) (e : QEntry) (k : Nat) (f : Fl → Fl) : State :=
  let bad := firstBad [(0, vxFmt e.da), (1, vxFmt e.db && sameShape e.da e.db)]
  s.vxRun p q e bad (24 + k * s.vxBeats p e.insn (tElems e.da)) ((s.tensor p e.db).map fun r => r.map f)

def execVxAdd (p : PartId) (a : Act) (s : State) : Res :=
  .next (s.engineRow p 0x30 a fun q e s => s.vxTwo p q e 1 f32add)

def execVxMul (p : PartId) (a : Act) (s : State) : Res :=
  .next (s.engineRow p 0x31 a fun q e s => s.vxTwo p q e 1 f32mul)

def execVxScale (p : PartId) (a : Act) (s : State) : Res :=
  .next (s.engineRow p 0x32 a fun q e s => s.vxOneSrc p q e 1 fun x => f32mul x (ofF32 (e.sa.setWidth 32)))

def execVxSwiglu (p : PartId) (a : Act) (s : State) : Res :=
  .next (s.engineRow p 0x35 a fun q e s => s.vxTwo p q e 4 swiglu)

def execVxGelu (p : PartId) (a : Act) (s : State) : Res :=
  .next (s.engineRow p 0x36 a fun q e s => s.vxOneSrc p q e 4 gelu)

def execVxSfu (p : PartId) (a : Act) (s : State) : Res :=
  .next (s.engineRow p 0x39 a fun q e s => s.vxOneSrc p q e 4 (sfu (fld e.insn 35 32)))

/-- VX_CVT takes every format (R150). -/
def execVxCvt (p : PartId) (a : Act) (s : State) : Res :=
  .next (s.engineRow p 0x37 a fun q e s =>
    s.vxRun p q e (firstBad [(1, sameShape e.da e.db)]) (24 + s.vxBeats p e.insn (tElems e.da)) (s.tensor p e.db))

/-! ## Row sums (R151) -/

/-- Pairwise reduction in order: neighbours are joined, an odd last one goes on alone. -/
def pairUp (f : Fl → Fl → Fl) : List Fl → List Fl
  | a :: b :: r => f a b :: pairUp f r
  | l => l

def pairwise (f : Fl → Fl → Fl) : Nat → List Fl → List Fl
  | 0, l => l
  | n + 1, l => match l with | _ :: _ :: _ => pairwise f n (pairUp f l) | _ => l

/-- The present logical cores of the cluster that works on row `r` (which cluster is free), in ascending order; the
one core of ONE_CORE. (DESIGN CHOICE: log 20) -/
def State.rowCores (s : State) (p : PartId) (w : InsnWord) (r : Nat) : Nat :=
  if vxOne w then 1
  else
    let n := fun c => ((List.range 8).filter fun k => !(s.part p).absentBit (8 * c + k)).length
    let cs := (List.range 16).filter fun c => decide (0 < n c)
    n (cs.getD (Config.rowCluster r % max 1 cs.length) 0)

/-- Combine a row on `c` cores of 16 lanes: which lane takes an element is free; a lane combines its elements in
order by `step`; a core its lanes and the cluster its cores pairwise by `join`. (DESIGN CHOICE: log 20) -/
def rowReduce (c : Nat) (unit : Fl) (step join : Fl → Fl → Fl) (l : List Fl) : Fl :=
  let m := 16 * max 1 c
  let lanes := l.zipIdx.map fun x => (Config.elemSlot l.length x.2 % m, x.1)
  let lane := fun k => (lanes.filter fun x => x.1 = k).foldl (fun a x => step a x.2) unit
  let cores := (List.range (max 1 c)).map fun i =>
    ((pairwise join 5 ((List.range 16).map fun j => lane (16 * i + j))).head?).getD unit
  ((pairwise join 5 cores).head?).getD unit

/-- VX_REDUCE: per-row sum or maximum. -/
def execVxReduce (p : PartId) (a : Act) (s : State) : Res :=
  .next (s.engineRow p 0x38 a fun q e s =>
    let bad := firstBad [(0, vxFmt e.da && decide (tRows e.da = tRows e.db) && decide (tCols e.da = 1)), (1, vxFmt e.db)]
    let mx := bitOf e.insn 32
    let rows := (s.tensor p e.db).zipIdx.map fun r =>
      let c := s.rowCores p e.insn r.2
      [if mx then rowReduce c (.inf true) f32max f32max r.1 else rowReduce c .zero f32add f32add r.1]
    s.vxRun p q e bad (43 + s.vxBeats p e.insn (tElems e.db)) rows)

/-- EPS of VX_RMSNORM: PARAM, where 0 means 10⁻⁵. -/
def rmsEps (w : InsnWord) : Fl := if fld w 31 0 = 0 then ofF32 0x3727C5AC#32 else ofF32 (w.setWidth 32)

/-- VX_RMSNORM: x × rsqrt(Σx² ÷ COLS + EPS) × g; the squares are added by fused multiply-adds, and a row of zeros gives
+0. (DESIGN CHOICE: log 20) -/
def execVxRmsnorm (p : PartId) (a : Act) (s : State) : Res :=
  .next (s.engineRow p 0x33 a fun q e s =>
    let row := fld e.insn 38 32
    let bad := firstBad [(0, vxFmt e.da), (1, vxFmt e.db && sameShape e.da e.db),
      (2, vxFmt e.dc && decide (tCols e.dc = tCols e.db) && decide (row < tRows e.dc))]
    let g := s.tensorRow p e.dc row
    let rows := (s.tensor p e.db).zipIdx.map fun r =>
      let sum := rowReduce (s.rowCores p e.insn r.2) .zero (fun acc x => f32fma x x acc) f32add r.1
      let sc := sfu 2 (f32add (f32div sum (.fin false (tCols e.db) 0)) (rmsEps e.insn))
      if r.1.all Fl.isZero then r.1.map fun _ => Fl.zero
      else List.zipWith (fun x w => f32mul (f32mul x sc) w) r.1 g
    s.vxRun p q e bad (48 + 2 * s.vxBeats p e.insn (tElems e.da)) rows)

/-! ## VX_ROPE -/

def ropeHalf (w : InsnWord) : Nat := if fld w 38 32 = 0 then 64 else fld w 38 32
def ropeBase (w : InsnWord) : BitVec 32 := if fld w 31 0 = 0 then 0x461C4000#32 else w.setWidth 32

/-- A cosine or sine within 2⁻²¹ of the exact one; which value is free. -/
def nearTrig (c : BitVec 32) (exact : Int) : Fl :=
  let x := ofF32 c
  let d := (x.addX (Fl.ofFx exact).neg).abs
  if x.isFin && Fl.le d (.fin false 1 (-21)) then x else round32 (.ofFx exact)

/-- Cosine and sine of pos × base^(−2i ÷ d) with d twice the half dimension. A base that is not a positive number
gives no stated angle: both values are free. (DESIGN CHOICE: log 21) -/
def ropeAngle (pos i half : Nat) (base : BitVec 32) : Fl × Fl :=
  let c := Config.ropeCos pos i half base
  let n := Config.ropeSin pos i half base
  match ofF32 base with
  | .fin false (m + 1) e =>
    let y := -((i : Int) * fxLn (m + 1) e / (half : Int))
    let r := fxExp y
    let t := fxSinCos (natShift (pos * r.1) r.2)
    (nearTrig c t.2, nearTrig n t.1)
  | _ => (ofF32 c, ofF32 n)

/-- Elements at even and at odd places. -/
def unzipPairs : List Fl → List Fl × List Fl
  | a :: b :: r => let t := unzipPairs r; (a :: t.1, b :: t.2)
  | l => (l, [])

def zipPairs : List Fl → List Fl → List Fl
  | a :: r, b :: t => a :: b :: zipPairs r t
  | _, _ => []

/-- Rotate the pairs of one head; which elements make a pair is free, and each product is rounded before the sum.
(DESIGN CHOICE: log 21) -/
def ropeHead (half : Nat) (ang : List (Fl × Fl)) (h : List Fl) : List Fl :=
  let xy := if Config.ropeAdjacent then unzipPairs h else (h.take half, h.drop half)
  let rot := fun (f : Fl → Fl → Fl → Fl → Fl) =>
    List.zipWith (fun (ab : Fl × Fl) (cs : Fl × Fl) => f ab.1 ab.2 cs.1 cs.2) (xy.1.zip xy.2) ang
  let lo := rot fun x y c n => f32sub (f32mul x c) (f32mul y n)
  let hi := rot fun x y c n => f32add (f32mul y c) (f32mul x n)
  if Config.ropeAdjacent then zipPairs lo hi else lo ++ hi

def splitHeads (n : Nat) : Nat → List Fl → List (List Fl)
  | 0, _ => []
  | k + 1, l => match l with | [] => [] | _ => l.take n :: splitHeads n k (l.drop n)

/-- VX_ROPE (Table 4.11, R181, R444): the angles are computed when sA is 0 or none fit, else those held are used. -/
def execVxRope (p : PartId) (a : Act) (s : State) : Res :=
  .next (s.engineRow p 0x34 a fun q e s =>
    let half := ropeHalf e.insn
    let cv := e.convoy.getD 0
    let n := tRows e.da
    let bad := firstBad [(0, vxFmt e.da && decide (n ≤ s.cvCap p cv) && decide (tCols e.da % (2 * half) = 0))]
    let held := (s.part p).rope
    let reuse := e.sa ≠ 0 ∧ (match held with
      | some h => decide (n ≤ h.rows) && decide (h.half = half) && decide (h.param = e.insn.setWidth 32) &&
          decide (h.convoy = cv)
      | none => false) = true
    let fresh := (List.range n).map fun i => rowPos (s.cvWord p (s.cvFirst p cv + i))
    let pos := if reuse then ((held.map (·.pos)).getD []) else fresh
    let rows := (s.tensor p e.da).zipIdx.map fun r =>
      let ang := (List.range half).map fun i => ropeAngle (pos.getD r.2 0) i half (ropeBase e.insn)
      ((splitHeads (2 * half) (tCols e.da / (2 * half) + 1) r.1).flatMap (ropeHead half ang))
    let cost := 32 + 2 * s.vxBeats p e.insn (tElems e.da) + (if reuse then 0 else 256)
    let fails := decide (vxOne e.insn ∧ (s.part p).absentBit (vxCore e.insn)) || bad.isSome
    let s := if reuse ∨ fails then s else s.modPart p fun x =>
      { x with rope := some { convoy := cv, rows := n, half := half, param := e.insn.setWidth 32, pos := fresh } }
    s.vxRun p q e bad cost rows)

end Sys2Proof.Machine
end

