-- ==== Sys2Proof/Machine/Attention.lean ====
section
/-! DEFINITION. The attention opcodes (R156 to R179, R445, R446). -/

namespace Sys2Proof.Machine

/-! ## Narrower formats (R173, R174) -/

def narrower (f qf : Nat) : Bool :=
  match qf with
  | 3 => f = 4 || decide (6 ≤ f)
  | 4 => f = 3 || decide (6 ≤ f)
  | 1 => decide (f ≠ 1)
  | 2 => decide (f ≠ 2)
  | 0 => true
  | _ => false

/-- Whether the compute format of a page read through the expander is BF16; FP32 otherwise. -/
def computeBf16 (f qf : Nat) : Bool :=
  let small := fun x => x = 1 || x = 3 || x = 4 || decide (6 ≤ x ∧ x ≤ 8)
  small f && small qf

/-- A value lies beyond the largest finite of the compute format (R175). -/
def beyondCompute (bf : Bool) (x : Fl) : Bool :=
  match x with
  | .fin _ m e => !(Fl.le (.fin false m e) (if bf then .fin false 255 120 else .fin false 0xFFFFFF 104))
  | _ => false

/-! ## One member of an attention instruction -/

/-- The first attended page that fails check 5 of R446. -/
def pageCheck (node : Nat) (g : Geom) (pageBytes : Nat) (l : List Word) : Option Miss :=
  l.findSome? fun d =>
    if dAddr d / 2 ^ 42 ≠ node then some ⟨St.operandRange, dAddr d, 2⟩
    else if dValid d = false ∨ dParked d then some ⟨St.operandRange, dAddr d % 2 ^ 42, 1⟩
    else if kvFmtOk (dFmt d) = false ∨ pageBytes < g.pageSize (dFmt d) then some ⟨St.descInvalid, d.toNat, 0⟩
    else none

/-- The KV length of a layer from its descriptors: 256p + TOKENS of the highest valid one, p (R161). -/
def lenOfDescs (l : List Word) : Nat :=
  l.zipIdx.foldl (fun n d => if dValid d.1 then 256 * d.2 + dTokens d.1 else n) 0

/-- Checks 2 to 6 of R446 for the request in `slot`, in their order: `chunk` is the row count of a chunk, none for a convoy
row (`row`). A strict request with a page narrower than its queries, through the narrowing of R242 or otherwise, gets
PRECISION_MISMATCH at check 6 (R176, R242). -/
def State.planMember (s : State) (p : PartId) (g : Geom) (qfmt layer slot row : Nat) (chunk : Option Nat) :
    Except Miss Plan × State :=
  let m := s.manifest p slot
  match s.ptHdr p m with
  | (.error x, s) => (.error x, s)
  | (.ok h, s) =>
    if h.layers ≤ layer then (.error ⟨St.operandRange, mPtAddr m, 2⟩, s)
    else
      match State.descs p m h layer h.pages 0 s with
      | (.error x, s) => (.error x, s)
      | (.ok all, s) =>
        let len := lenOfDescs all
        let ds := all.take (ceilDiv len 256)
        if len = 0 ∨ len < chunk.getD 0 then (.error ⟨St.operandRange, mPtAddr m, 2⟩, s)
        else if qfmt ≠ mQfmt m then (.error ⟨St.precisionMismatch, 2 ^ 64 - 1, mQfmt m * 16⟩, s)
        else
          match pageCheck s.fab.node.val g h.pageBytes ds with
          | some x => (.error x, s)
          | none =>
            let bad := ds.zipIdx.find? fun d => narrower (dFmt d.1) (mQfmt m)
            match mFlag m flStrict, bad with
            | true, some d =>
              (.error ⟨St.precisionMismatch, d.2 * h.layers + layer, dFmt d.1 + mQfmt m * 16⟩, s)
            | _, _ =>
              let rows := match chunk with
                | none => [(row, len)]
                | some r => (List.range r).map fun i => (i, len - r + i + 1)
              (.ok ⟨slot, mQfmt m, mFlag m flStrict, h.layers, layer, rows, ds, h.pageBytes⟩, s)

/-! ## Reading pages -/

/-- The keys and values of one page: for each KV head, the vectors of its attended positions. -/
structure PageData where
  keys : List (List (List Fl))
  vals : List (List (List Fl))
  deriving DecidableEq, Repr

/-- The vectors of positions 0 to n − 1 of one head, from a page's bytes given by `img`. -/
def headVecs (g : Geom) (f h n : Nat) (v : Bool) (img : Nat → Nat → Bytes) : List (List Fl) :=
  let eb := img (g.elemAt f h 0 v) (n * g.vec f)
  let sb := img (g.scaleAt f h 0 v) (n * g.vecScales f)
  (List.range n).map fun t =>
    decodeRow f g.d ((eb.drop (t * g.vec f)).take (g.vec f)) ((sb.drop (t * g.vecScales f)).take (g.vecScales f))

def pageData (g : Geom) (f n : Nat) (img : Nat → Nat → Bytes) : PageData :=
  { keys := (List.range g.kv).map fun h => headVecs g f h n false img
    vals := (List.range g.kv).map fun h => headVecs g f h n true img }

/-- The byte runs of a page that a read of its first `n` positions touches. -/
def pageRuns (g : Geom) (f n : Nat) : List (Nat × Nat) :=
  ((List.range g.kv).flatMap fun h => [false, true].flatMap fun v =>
    [(g.elemAt f h 0 v, n * g.vec f), (g.scaleAt f h 0 v, n * g.vecScales f)]).filter fun r => r.2 ≠ 0

/-- Read runs of bytes at an address; a list of the runs' bytes. -/
def State.readRuns (job : Option Nat) (a : Nat) : List (Nat × Nat) → State → Except Miss (List (Nat × Bytes)) × State
  | [], s => (.ok [], s)
  | (o, n) :: r, s =>
    match s.stRead job (a + o) n with
    | (.error x, s) => (.error x.miss, s)
    | (.ok b, s) =>
      match State.readRuns job a r s with
      | (.ok l, s) => (.ok ((o, b) :: l), s)
      | (.error x, s) => (.error x, s)

def runBytes (l : List (Nat × Bytes)) (o n : Nat) : Bytes :=
  ((l.find? fun r => r.1 = o).map fun r => r.2.take n).getD []

/-- A page read: its data and the expansion it took. -/
def State.readPage (s : State) (p : PartId) (g : Geom) (d : Word) (n : Nat) :
    Except (Miss × Expanded) (PageData × Expanded) × State :=
  let f := dFmt d
  let a := dAddr d % 2 ^ 42
  if dCompressed d then
    match expandSet (State.rdState (s.jobOf p)) ⟨1, a, g.pageSize f⟩ (balesOfRuns (pageRuns g f n)) s with
    | (xs, some (.fault st d0 d1), s) => (.error (⟨st, d0, d1⟩, joinExpanded xs), s)
    | (xs, some _, s) => (.error (⟨St.operandRange, a, 1⟩, joinExpanded xs), s)
    | (xs, none, s) => (.ok (pageData g f n (imageFrom xs), joinExpanded xs), s)
  else
    match State.readRuns (s.jobOf p) a (pageRuns g f n) s with
    | (.error x, s) => (.error (x, Expanded.empty), s)
    | (.ok l, s) => (.ok (pageData g f n (runBytes l), Expanded.empty), s)

/-- KV bytes a page read of `n` positions counts (R172); an NBU counts the bytes stored (R391). -/
def pageCost (g : Geom) (nbu : Bool) (d : Word) (qf n : Nat) : Nat :=
  let f := dFmt d
  let run := if nbu = false ∧ (dCompressed d ∨ fmtBlock f) then n * g.d * (if computeBf16 f qf then 2 else 4)
    else n * (g.vec f + g.vecScales f)
  2 * g.kv * (ceilDiv run 128 * 128)

/-- Widening of a narrower page (R175): flags, formats and CRC of the manifest. -/
def State.widen (s : State) (p : PartId) (slot f : Nat) : State :=
  let m := s.manifest p slot
  let w := setFld m.w2 44 44 1
  let w := if fmtBits f < fmtBits (fld w 35 32) then setFld w 35 32 f else w
  let w := if fmtBits f < fmtBits (fld w 39 36) then setFld w 39 36 f else w
  (if mCrcOk m then s.setManifest p slot (mSeal { m with w2 := w }) else s.crcFailed p slot).addReg (ptBase p + 0x4008) 1

/-- The figures of two expansions together. -/
def Expanded.plus (x y : Expanded) : Expanded :=
  { x with bales := x.bales + y.bales, exceeding := x.exceeding + y.exceeding, short := x.short + y.short,
           first := match x.first, y.first with
                    | some a, some b => some (min a b)
                    | some a, none => some a
                    | none, b => b }

/-- Bytes that the expander delivers for the first `n` positions of a page (R174). -/
def pageOut (g : Geom) (d : Word) (qf n : Nat) : Nat := 2 * g.kv * (n * g.d * (if computeBf16 (dFmt d) qf then 2 else 4))

/-- Bytes that the expander had delivered of a page when a fault stopped it: the bales decoded, in the compute format. -/
def baleOut (d : Word) (qf bales : Nat) : Nat :=
  bales * 4096 * 8 / fmtBits (dFmt d) * (if computeBf16 (dFmt d) qf then 2 else 4)

/-- Read the pages that one row of a plan attends, its first `total` positions: page data in order, expansions joined; the
first failure stops it, and tells what was expanded before. (DEDUCED: log 27) -/
def State.readPages (p : PartId) (g : Geom) (pl : Plan) (total : Nat) : List (Word × Nat) → Expanded → List PageData →
    State → Except (Miss × Expanded) (List PageData × Expanded) × State
  | [], x, acc, s => (.ok (acc.reverse, x), s)
  | (d, i) :: r, x, acc, s =>
    let n := min 256 (total - 256 * i)
    if n = 0 then (.ok (acc.reverse, x), s)
    else
    match s.readPage p g d n with
    | (.error (m, y), s) =>
      (.error (m, x.plus y), if dCompressed d then s.countMain p y (y.starve (baleOut d pl.qf y.bales)) else s)
    | (.ok (pd, y), s) =>
      let nar := narrower (dFmt d) pl.qf
      let s := if nar then s.widen p pl.slot (dFmt d) else s
      let s := if dCompressed d then s.countMain p y (y.starve (pageOut g d pl.qf n)) else s
      let bf := computeBf16 (dFmt d) pl.qf
      let x := x.plus y
      let exceeding := nar && fmtBlock (dFmt d) &&
        (pd.keys ++ pd.vals).any fun h => h.any fun v => v.any (beyondCompute bf)
      if exceeding then (.error (⟨St.precisionMismatch, i * pl.layers + pl.layer, dFmt d + pl.qf * 16⟩, x), s)
      else State.readPages p g pl total r x (pd :: acc) s

/-! ## The arithmetic of a head (R169 to R171) -/

structure Partial where
  m : Fl
  l : Fl
  o : List Fl
  deriving DecidableEq, Repr

/-- A dot product in 16 lanes, the lane sums added pairwise in lane order. (DESIGN CHOICE: log 20) -/
def dot16 (q k : List Fl) : Fl :=
  let xs := (q.zip k).zipIdx
  let lane := fun j => (xs.filter fun x => x.2 % 16 = j).foldl (fun a x => f32fma x.1.1 x.1.2 a) Fl.zero
  ((pairwise f32add 5 ((List.range 16).map lane)).head?).getD .zero

def maxOf (l : List Fl) : Fl := l.foldl (fun a x => if Fl.lt a x then x else a) (.inf true)

/-- One block of a range: scores with their value vectors. -/
def blockStep (st : Partial) (b : List (Fl × List Fl)) : Partial :=
  let mx := maxOf (b.map (·.1))
  let st := if Fl.lt st.m mx then
      if st.m = .inf true then { st with m := mx }
      else
        let f := sfu 0 (f32sub st.m mx)
        { m := mx, l := f32mul st.l f, o := st.o.map fun x => f32mul x f }
    else st
  b.foldl (fun st x =>
    let w := sfu 0 (f32sub x.1 st.m)
    { st with l := f32add st.l w, o := List.zipWith (fun v o => f32fma w v o) x.2 st.o }) st

def blocks64 : Nat → List (Fl × List Fl) → List (List (Fl × List Fl))
  | 0, _ => []
  | n + 1, l => match l with | [] => [] | _ => l.take 64 :: blocks64 n (l.drop 64)

def rangePartial (d : Nat) (xs : List (Fl × List Fl)) : Partial :=
  (blocks64 (xs.length / 64 + 1) xs).foldl blockStep ⟨.inf true, .zero, List.replicate d .zero⟩

def addPartial (a b : Partial) : Partial :=
  { m := a.m, l := f32add a.l b.l, o := List.zipWith f32add a.o b.o }

def pairPartials : List Partial → List Partial
  | a :: b :: r => addPartial a b :: pairPartials r
  | l => l

def mergeTree : Nat → List Partial → List Partial
  | 0, l => l
  | n + 1, l => match l with | _ :: _ :: _ => mergeTree n (pairPartials l) | _ => l

/-- Merge the partials of a head and divide once (R170). -/
def mergePartials (d : Nat) (l : List Partial) : List Fl :=
  let mx := maxOf (l.map (·.m))
  let sc := l.map fun x =>
    if Fl.lt x.m mx then
      let f := sfu 0 (f32sub x.m mx)
      { m := mx, l := f32mul x.l f, o := x.o.map fun y => f32mul y f }
    else x
  match mergeTree 32 sc with
  | x :: _ => let r := sfu 1 x.l; x.o.map fun y => f32mul y r
  | [] => List.replicate d .zero

/-- Cut a list into pieces of `n`. -/
def pieces {β : Type} (n : Nat) : Nat → List β → List (List β)
  | 0, _ => []
  | k + 1, l => match l with | [] => [] | _ => l.take n :: pieces n k (l.drop n)

/-- One query head over its attended positions, in ranges of `n` pages. A score that is NaN or infinite, or a key or
value element that is NaN, makes the whole head NaN (R171). -/
def attHead (d n : Nat) (scale : Fl) (q : List Fl) (keys vals : List (List Fl)) : List Fl :=
  let xs := (keys.map fun k => f32mul scale (dot16 q k)).zip vals
  if (xs.any fun x => !x.1.isFin || x.2.any Fl.isNan) || keys.any fun k => k.any Fl.isNan then List.replicate d .nan
  else mergePartials d ((pieces (256 * n) (xs.length + 1) xs).map (rangePartial d))

/-- One row of the output: every query head over the first `len` positions. -/
def attRow (g : Geom) (n : Nat) (scale : Fl) (q : List Fl) (pages : List PageData) (len : Nat) : List Fl :=
  (List.range (g.qper * g.kv)).flatMap fun h =>
    let kvh := h / g.qper
    let keys := (pages.flatMap fun pg => pg.keys.getD kvh []).take len
    let vals := (pages.flatMap fun pg => pg.vals.getD kvh []).take len
    attHead g.d n scale ((q.drop (h * g.d)).take g.d) keys vals

/-! ## The instructions -/

/-- MODE SCALE; 0 means 1 ÷ √(head dimension). -/
def attScale (w : InsnWord) (d : Nat) : Fl :=
  if fld w 31 0 = 0 then ofF32 (if d = 64 then 0x3E000000#32 else if d = 128 then 0x3DB504F3#32 else 0x3D800000#32)
  else ofF32 (w.setWidth 32)

/-- A member's fault: record, fault bit, and the mismatch counter (Table 6.2). -/
def State.attFault (s : State) (p : PartId) (q : Nat) (e : QEntry) (slot : Nat) (x : Miss) : State :=
  let s := s.slotFault p q e slot x.status x.d0 x.d1
  if x.status = St.precisionMismatch then s.addReg (ptBase p + 0x4010) 1 else s

/-- Read the pages of every row of a plan, row by row, as each row of a chunk counts as a member (R167, R172): each output
row with its pages. -/
def State.readRowsPages (p : PartId) (g : Geom) (pl : Plan) :
    List (Nat × Nat) → Expanded → List ((Nat × Nat) × List PageData) → State →
      Except (Miss × Expanded) (List ((Nat × Nat) × List PageData) × Expanded) × State
  | [], x, acc, s => (.ok (acc.reverse, x), s)
  | r :: rest, x, acc, s =>
    match State.readPages p g pl r.2 pl.descs.zipIdx x [] s with
    | (.error y, s) => (.error y, s)
    | (.ok (pages, x), s) => State.readRowsPages p g pl rest x ((r, pages) :: acc) s

/-- The state of an attention instruction while its members are worked on. -/
structure AttRun where
  s : State
  rows : List (Nat × List Fl)
  bytes : Nat
  bales : List BaleSum
  stop : Option Miss

/-- The first state page under a run of KV pages that an NBU may not read: it lies in another MU or the far tier, is
moving or not mapped, or belongs to another job; a POISONED one faults with CXL_POISON (R252). -/
def State.nbuPageBad (s : State) (p : PartId) (mu a n : Nat) : Option AccErr :=
  ((List.range ((a + n - 1) / 2 ^ 21 + 1 - a / 2 ^ 21)).map (a / 2 ^ 21 + ·)).findSome? fun pg =>
    let e := s.entry pg
    let at_ := max a (pg * 2 ^ 21)
    if eValid e = false ∨ eTier e ≠ 0 ∨ eFrame e / 2048 ≠ mu ∨ eMigrating e ∨ some (eJob e) ≠ s.jobOf p then
      some ⟨St.operandRange, at_, mu⟩
    else if ePoisoned e then some ⟨St.cxlPoison, at_, mu⟩
    else none

/-- What an NB_ATT meets before it reads a member's pages: a state page it may not read, or a COMPRESSED page (R390). -/
def State.nbAttMiss (s : State) (p : PartId) (g : Geom) (mu : Nat) (l : List Word) : Option Miss :=
  match l.findSome? fun d => s.nbuPageBad p mu (dAddr d % 2 ^ 42) (g.pageSize (dFmt d)) with
  | some x => some x.miss
  | none => (l.find? dCompressed).map fun d => ⟨St.descInvalid, d.toNat, 0⟩

/-- One planned member: read its pages, compute its rows; zeros where it faults (R166). `nbu` is the MU of an NB_ATT.
(DEDUCED: log 27; DESIGN CHOICE: log 28) -/
def attMember (p : PartId) (q : Nat) (e : QEntry) (g : Geom) (n : Nat) (nbu : Option Nat) (x : AttRun) (pl : Plan) :
    AttRun :=
  if x.stop.isSome then x
  else
    let zeroRows := pl.rows.map fun r => (r.1, List.replicate (tCols e.da) Fl.zero)
    let fail := fun (m : Miss) (y : Expanded) (s : State) =>
      let x := { x with bales := x.bales ++ y.record pl.slot 0 }
      if m.status = St.cxlLinkDown then { x with s := s, stop := some m }
      else { x with s := s.attFault p q e pl.slot m, rows := x.rows ++ zeroRows }
    match nbu.bind fun mu => x.s.nbAttMiss p g mu pl.descs with
    | some m => fail m Expanded.empty x.s
    | none =>
      match State.readRowsPages p g pl pl.rows Expanded.empty [] x.s with
      | (.error (m, y), s) => fail m y s
      | (.ok (read, y), s) =>
        let sc := attScale e.insn g.d
        let rows := read.map fun r => (r.1.1, attRow g n sc (s.tensorRow p e.db r.1.1) r.2 r.1.2)
        let bytes := (pl.rows.map fun r =>
          (pl.descs.zipIdx.map fun d =>
            let k := min 256 (r.2 - 256 * d.2)
            if r.2 ≤ 256 * d.2 then 0 else pageCost g nbu.isSome d.1 pl.qf k).sum).sum
        { s := s, rows := x.rows ++ rows, bytes := x.bytes + bytes, bales := x.bales ++ y.record pl.slot 0,
          stop := none }

/-- ⌈log2 r⌉. -/
def log2Up (r : Nat) : Nat := if r ≤ 1 then 0 else Nat.log2 (r - 1) + 1

/-- The members of an attention instruction in row order: (row, slot, chunk rows). -/
abbrev AttMember := Nat × Nat × Option Nat

/-- What an attention instruction takes when it starts: ATT_GEOM (R156), the present cores (R167, R179), its members with
their fault bits (R166) and their KV lengths (R164). Checks 1 to 6 of R446 are made here, before any page is read; a far
port that is down stops the instruction. -/
def State.attPlan (s : State) (p : PartId) (q : Nat) (e : QEntry) (members : List AttMember) :
    State × AttStart × Option Miss :=
  let g := s.geom p
  let step := fun (acc : State × AttStart × Option Miss) (m : AttMember) =>
    let (s, a, stop) := acc
    let mine := match m.2.2 with | none => [m.1] | some r => List.range r
    if stop.isSome then acc
    else if (s.slot p m.2.1).faulted then (s, { a with zeroRows := a.zeroRows ++ mine }, none)
    else if mCrcOk (s.manifest p m.2.1) = false then (s.crcFailed p m.2.1, { a with zeroRows := a.zeroRows ++ mine }, none)
    else
      match s.planMember p g (tFmt e.db) e.sb.toNat m.2.1 m.1 m.2.2 with
      | (.ok pl, s) => (s, { a with plans := a.plans ++ [pl] }, none)
      | (.error x, s) =>
        if x.status = St.cxlLinkDown then (s, a, some x)
        else (s.attFault p q e m.2.1 x, { a with zeroRows := a.zeroRows ++ mine }, none)
  members.foldl step (s, ⟨g, (s.part p).presentCores, [], []⟩, none)

/-- Run an attention instruction as planned at its start: split (R167), reads, results.
(DEDUCED: log 27; DESIGN CHOICE: log 28) -/
def State.attRun (s : State) (p : PartId) (q : Nat) (e : QEntry) (a : AttStart) (ppc : Nat)
    (nbu : Option Nat) (cost : Nat → Nat → Nat) : State :=
  let g := a.geom
  let rows := a.zeroRows.map fun i => (i, List.replicate (tCols e.da) Fl.zero)
  let t := (a.plans.map fun pl => (pl.rows.map fun r => g.kv * ceilDiv r.2 256).sum).sum
  let n := if ppc ≠ 0 then ppc else max 1 (ceilDiv t (4 * a.cores))
  let levels :=
    a.plans.foldl (fun a pl => pl.rows.foldl (fun a r => max a (log2Up (ceilDiv (ceilDiv r.2 256) n))) a) 0
  let r := a.plans.foldl (attMember p q e g n nbu) ⟨s, rows, 0, [], none⟩
  let s := if nbu.isNone && e.expands then r.s.shareStall p 4 else r.s
  match r.stop with
  | some x => s.instrFault p q { e with bales := r.bales } x.status x.d0 x.d1
  | none =>
    let s := r.rows.foldl (fun s x => s.putRow p e.da x.1 x.2) s
    s.finish p q { e with bales := r.bales } (cost r.bytes levels) false

/-- The first operand that breaks R158 or R199: `cap` rows at least for a convoy, dB's rows for a chunk. -/
def attBad (g : Geom) (e : QEntry) (cap : Option Nat) : Option Nat :=
  let cols := g.qper * g.kv * g.d
  let rowsA := match cap with | some c => decide (c ≤ tRows e.da) | none => decide (tRows e.da = tRows e.db)
  let rowsB := match cap with | some c => decide (c ≤ tRows e.db) | none => decide (tRows e.db ≤ 2048)
  firstBad [(0, decide (tCols e.da = cols) && decide (tFmt e.da ≤ 3) && rowsA),
    (1, decide (tCols e.db = cols) && decide (tFmt e.db ≤ 4) && rowsB)]

/-- The members of an attention instruction: the rows of its convoy, or the rows of one request's chunk. -/
def State.attMembers (s : State) (p : PartId) (e : QEntry) : List AttMember :=
  if iOp e.insn = 0x40 then (s.cvMembers p e.sa.toNat).map fun m => (m.1, m.2, none)
  else [(0, e.tag, some (tRows e.db))]

/-- Start of an attention instruction: its shapes are checked and what it takes is fixed in its entry; or it faults. -/
def State.attStart (s : State) (p : PartId) (q : Nat) (e : QEntry) : State :=
  match attBad (s.geom p) e (if iOp e.insn = 0x40 then some (s.cvCap p e.sa.toNat) else none) with
  | some i => s.shapeFault p q e i
  | none =>
    match s.attPlan p q e (s.attMembers p e) with
    | (s, _, some x) => s.instrFault p q e x.status x.d0 x.d1
    | (s, a, none) => s.setEntryOf p q { e with att := some a }

/-- The head of a queue that an attention unit or an NBU has just started takes what it takes at its start. -/
def State.attCapture (s : State) (p : PartId) (q : Nat) : State :=
  match s.head p q with
  | some e =>
    if e.phase = .running ∧ e.att = none ∧ (iOp e.insn = 0x40 ∨ iOp e.insn = 0x41) then s.attStart p q e else s
  | none => s

/-- The effect of ATT_BLOCK or ATT_CHUNK. An instruction started in a state that kept nothing of its start takes it
now. -/
def State.attEffect (s : State) (p : PartId) (q : Nat) (e : QEntry) : State :=
  let run := fun (s : State) (e : QEntry) (a : AttStart) =>
    s.attRun p q e a (fld e.insn 39 32) none fun b l => 64 + ceilDiv b 128 + 16 * l
  match e.att with
  | some a => run s e a
  | none =>
    let s := s.attStart p q e
    match s.head p q with
    | some e =>
      match e.phase, e.att with
      | .running, some a => run s e a
      | _, _ => s
    | none => s

/-- ATT_BLOCK: decode attention of a convoy. -/
def execAttBlock (p : PartId) (a : Act) (s : State) : Res := .next (s.engineRow p 0x40 a fun q e s => s.attEffect p q e)

/-- ATT_CHUNK: causal attention of one request's chunk. -/
def execAttChunk (p : PartId) (a : Act) (s : State) : Res := .next (s.engineRow p 0x41 a fun q e s => s.attEffect p q e)

end Sys2Proof.Machine
end

