-- ==== Sys2Proof/Machine/MlDsa.lean ====
section
/-! DEFINITION. ML-DSA-87 of FIPS 204, which R382, R384 and R385 name: key generation from a seed, signing, verifying.
(PRESUMED: log 103) -/

namespace Sys2Proof.Machine.MlDsa

/-! ## SHAKE128 and SHAKE256 -/

/-- Absorb whole blocks of `8 * r` bytes, `n` of them at most. -/
def absorb (r : Nat) : Nat → Keccak → Bytes → Keccak
  | 0, a, _ => a
  | n + 1, a, b =>
    if b.length < 8 * r then a
    else
      let w := (List.range r).map fun i => wordOf (b.drop (8 * i))
      absorb r n (keccakF ((List.range 25).map fun i => a.getD i 0 ^^^ w.getD i 0)) (b.drop (8 * r))

/-- Blocks of `8 * r` bytes squeezed from a state. -/
def squeeze (r : Nat) : Nat → Keccak → Bytes
  | 0, _ => []
  | n + 1, a => ((a.take r).map wordBytes).flatten ++ squeeze r n (keccakF a)

/-- The first `n` bytes of an extendable output whose block is `r` words: 21 for SHAKE128, 17 for SHAKE256. -/
def shake (r n : Nat) (b : Bytes) : Bytes :=
  let k := b.length % (8 * r)
  let pad : Bytes := if k = 8 * r - 1 then [0x9F] else [0x1F] ++ zeros (8 * r - 2 - k) ++ [0x80]
  let p := b ++ pad
  (squeeze r ((n + 8 * r - 1) / (8 * r)) (absorb r (p.length / (8 * r)) (List.replicate 25 0) p)).take n

def shake256 (n : Nat) (b : Bytes) : Bytes := shake 17 n b

/-! ## Polynomials: 256 coefficients below q -/

abbrev Poly := List Nat

def q : Nat := 8380417

/-- The bits of a byte's index reversed. -/
def brv8 (i : Nat) : Nat := ((List.range 8).map fun b => (i / 2 ^ b % 2) * 2 ^ (7 - b)).sum

/-- A power modulo q, by squaring over `f` bits of the exponent. -/
def powMod : Nat → Nat → Nat → Nat
  | 0, _, _ => 1
  | f + 1, x, e => (if e % 2 = 1 then x else 1) * powMod f (x * x % q) (e / 2) % q

/-- The twiddle factor of block `k`, a power of the 512th root of unity 1753, and its inverse. -/
def zeta (k : Nat) : Nat := powMod 9 1753 (brv8 k)
def zetaInv (k : Nat) : Nat := powMod 9 1753 (512 - brv8 k)

/-- The number-theoretic transform: `d` levels from block `k`. -/
def ntt : Nat → Nat → Poly → Poly
  | 0, _, a => a
  | d + 1, k, a =>
    let lo := a.take (2 ^ d)
    let z := zeta k
    let hi := (a.drop (2 ^ d)).map fun x => z * x % q
    ntt d (2 * k) (List.zipWith (fun x y => (x + y) % q) lo hi) ++
      ntt d (2 * k + 1) (List.zipWith (fun x y => (x + (q - y)) % q) lo hi)

/-- Its inverse; 4190209 is 1/2. -/
def invNtt : Nat → Nat → Poly → Poly
  | 0, _, a => a
  | d + 1, k, a =>
    let x := invNtt d (2 * k) (a.take (2 ^ d))
    let y := invNtt d (2 * k + 1) (a.drop (2 ^ d))
    let z := zetaInv k * 4190209 % q
    List.zipWith (fun x y => (x + y) * 4190209 % q) x y ++ List.zipWith (fun x y => (x + (q - y)) * z % q) x y

def toNtt (a : Poly) : Poly := ntt 8 1 a
def ofNtt (a : Poly) : Poly := invNtt 8 1 a

def add (a b : Poly) : Poly := List.zipWith (fun x y => (x + y) % q) a b
def sub (a b : Poly) : Poly := List.zipWith (fun x y => (x + (q - y)) % q) a b
def mul (a b : Poly) : Poly := List.zipWith (fun x y => x * y % q) a b
def zero : Poly := List.replicate 256 0

/-- The product of a row of transformed polynomials with a column, still transformed. -/
def dotNtt (a b : List Poly) : Poly := (List.zipWith mul a b).foldl add zero

/-- The product of a matrix with a transformed column, transformed back. -/
def matMul (a : List (List Poly)) (b : List Poly) : List Poly := a.map fun r => ofNtt (dotNtt r b)

/-- Each of a column's polynomials times a transformed one. -/
def scale (c : Poly) (v : List Poly) : List Poly := v.map fun p => ofNtt (mul c (toNtt p))

/-- The coefficient as a signed number nearest zero. -/
def centred (x : Nat) : Int := if x ≤ q / 2 then x else (x : Int) - q

/-- The coefficient of a signed number. -/
def ofInt (i : Int) : Nat := (i % (q : Int)).toNat

/-- The largest absolute value of a column's coefficients. -/
def norm (v : List Poly) : Nat := (v.flatten.map fun x => (centred x).natAbs).foldl max 0

/-! ## Packing -/

/-- Numbers of `w` bits each, the first in the lowest bits. -/
def pack (w : Nat) (l : List Nat) : Bytes := leBytes (w * l.length / 8) (l.foldr (fun c acc => c + 2 ^ w * acc) 0)

def unpack (w : Nat) (b : Bytes) : List Nat :=
  let v := ofLe b
  (List.range (b.length * 8 / w)).map fun i => v / 2 ^ (w * i) % 2 ^ w

/-- Consecutive pieces of `n` bytes, `k` of them. -/
def pieces (n k : Nat) (b : Bytes) : List Bytes := (List.range k).map fun i => (b.drop (n * i)).take n

/-! ## Sampling -/

/-- A polynomial of the matrix A: SHAKE128 bytes taken three at a time, 23 bits each, those below q. -/
def uniform (seed : Bytes) : Poly :=
  let b := shake 21 1008 seed
  (((List.range 336).map fun i => ofLe ((b.drop (3 * i)).take 3) % 2 ^ 23).filter fun x => decide (x < q)).take 256

/-- The matrix A of eight rows and seven columns, transformed. -/
def expandA (rho : Bytes) : List (List Poly) :=
  (List.range 8).map fun r => (List.range 7).map fun c => uniform (rho ++ leBytes 1 c ++ leBytes 1 r)

/-- A secret polynomial with coefficients −2 to 2: the nibbles of SHAKE256 bytes, those below 15. -/
def bounded (seed : Bytes) (n : Nat) : Poly :=
  let b := shake256 544 (seed ++ leBytes 2 n)
  let nib := (b.map fun x => [x.toNat % 16, x.toNat / 16]).flatten
  ((nib.filter fun x => decide (x < 15)).take 256).map fun x => ofInt (2 - (x % 5 : Nat))

/-- A masking column: 20-bit numbers below the limit 2 to the 19. -/
def mask (seed : Bytes) (n : Nat) : List Poly :=
  (List.range 7).map fun r => (unpack 20 (shake256 640 (seed ++ leBytes 2 (n + r)))).map fun (x : Nat) => ofInt (2 ^ 19 - (x : Int))

/-- The next bytes of a stream that are at most `i`. -/
def nextAtMost (i : Nat) : Bytes → Nat × Bytes
  | [] => (0, [])
  | x :: r => if x.toNat ≤ i then (x.toNat, r) else nextAtMost i r

/-- The challenge: 60 coefficients of 1 or −1. -/
def ball (seed : Bytes) : Poly :=
  let b := shake256 272 seed
  let signs := ofLe (b.take 8)
  ((List.range 60).foldl (fun (x : Poly × Bytes) t =>
    let j := nextAtMost (196 + t) x.2
    let c := (x.1.set (196 + t) (x.1.getD j.1 0)).set j.1 (if signs / 2 ^ t % 2 = 1 then q - 1 else 1)
    (c, j.2)) (zero, b.drop 8)).1

/-! ## Rounding -/

/-- Twice the low-order rounding range. -/
def alpha : Nat := 523776

/-- A number between −a/2 and a/2 that leaves the same remainder. -/
def modPm (x a : Nat) : Int := if x % a ≤ a / 2 then (x % a : Nat) else ((x % a : Nat) : Int) - a

def highBits (r : Nat) : Nat := if (r : Int) - modPm r alpha = q - 1 then 0 else (((r : Int) - modPm r alpha) / alpha).toNat
def lowBits (r : Nat) : Int := if (r : Int) - modPm r alpha = q - 1 then modPm r alpha - 1 else modPm r alpha

/-- Whether adding `z` changes the high bits of `r`. -/
def makeHint (z r : Nat) : Bool := decide (highBits r ≠ highBits ((r + z) % q))

def useHint (h : Bool) (r : Nat) : Nat :=
  if h = false then highBits r else if 0 < lowBits r then (highBits r + 1) % 16 else (highBits r + 15) % 16

def packHigh (w : List Poly) : Bytes := (w.map (pack 4)).flatten

/-! ## Keys -/

/-- A key pair as the signer uses it. -/
structure Key where
  pk : Bytes
  rho : Bytes
  k : Bytes
  tr : Bytes
  s1 : List Poly
  s2 : List Poly
  t0 : List Poly

/-- ML-DSA.KeyGen_internal: the key pair of a 32-byte seed. -/
def keyGen (seed : Bytes) : Key :=
  let h := shake256 128 (seed ++ [8, 7])
  let rho := h.take 32
  let s := (h.drop 32).take 64
  let s1 := (List.range 7).map (bounded s)
  let s2 := (List.range 8).map fun r => bounded s (7 + r)
  let t := List.zipWith add (matMul (expandA rho) (s1.map toNtt)) s2
  let low := fun x : Nat => modPm x 8192
  let pk := rho ++ (t.map fun p => pack 10 (p.map fun (x : Nat) => (((x : Int) - low x) / 8192).toNat)).flatten
  { pk := pk, rho := rho, k := h.drop 96, tr := shake256 64 pk, s1 := s1, s2 := s2,
    t0 := t.map fun p => p.map fun (x : Nat) => ofInt (low x) }

/-! ## Signing -/

/-- The message with its context string, hashed for signing under a key. -/
def message (tr ctx m : Bytes) : Bytes := shake256 64 (tr ++ [0] ++ leBytes 1 ctx.length ++ ctx ++ m)

/-- The places of the hints, polynomial by polynomial, and after each the count so far. -/
def packHints (h : List (List Bool)) : Bytes :=
  let at_ := h.map fun p => (List.range 256).filter fun i => p.getD i false
  let all := at_.flatten
  let ends := (List.range 8).map fun i => (at_.take (i + 1)).flatten.length
  fitBytes 75 (all.map (BitVec.ofNat 8)) ++ ends.map (BitVec.ofNat 8)

/-- One try at a signature; none where it is rejected. -/
def trySign (a : List (List Poly)) (key : Key) (mu seed : Bytes) (n : Nat) : Option Bytes :=
  let y := mask seed n
  let w := matMul a (y.map toNtt)
  let tag := shake256 64 (mu ++ packHigh (w.map fun p => p.map highBits))
  let c := toNtt (ball tag)
  let z := List.zipWith add y (scale c key.s1)
  let r := List.zipWith sub w (scale c key.s2)
  let low := ((r.flatten.map fun x => (lowBits x).natAbs).foldl max 0)
  let ct0 := scale c key.t0
  let h := List.zipWith (fun (u v : Poly) => List.zipWith (fun x y => makeHint ((q - x) % q) ((y + x) % q)) u v) ct0 r
  if 2 ^ 19 - 120 ≤ norm z ∨ alpha / 2 - 120 ≤ low ∨ alpha / 2 ≤ norm ct0 ∨ 75 < (h.flatten.filter id).length then none
  else some (tag ++ (z.map fun p => pack 20 (p.map fun x => (2 ^ 19 - centred x).toNat)).flatten ++ packHints h)

/-- Tries until one is accepted, `f` of them at most. -/
def signLoop (a : List (List Poly)) (key : Key) (mu seed : Bytes) : Nat → Nat → Option Bytes
  | 0, _ => none
  | f + 1, n =>
    match trySign a key mu seed n with
    | some s => some s
    | none => signLoop a key mu seed f (n + 7)

/-- ML-DSA.Sign with the 32 bytes that randomise it; none where 814 tries, the least limit that FIPS 204 allows, are
rejected. -/
def sign (key : Key) (rnd ctx m : Bytes) : Option Bytes :=
  let mu := message key.tr ctx m
  signLoop (expandA key.rho) key mu (shake256 64 (key.k ++ rnd ++ mu)) 814 0

/-! ## Verifying -/

/-- Strictly rising. -/
def rises : List Nat → Bool
  | a :: b :: r => decide (a < b) && rises (b :: r)
  | _ => true

/-- The hints of a signature's last 83 bytes; none where they are malformed. -/
def hints (b : Bytes) : Option (List (List Bool)) :=
  let at_ := (b.take 75).map (·.toNat)
  let ends := (b.drop 75).map (·.toNat)
  let run := fun i => ((at_.take (ends.getD i 0)).drop (if i = 0 then 0 else ends.getD (i - 1) 0))
  let ok := (List.range 8).all fun i =>
    decide ((if i = 0 then 0 else ends.getD (i - 1) 0) ≤ ends.getD i 0) && decide (ends.getD i 0 ≤ 75) && rises (run i)
  if ok && ((at_.drop (ends.getD 7 0)).all fun x => decide (x = 0)) then
    some ((List.range 8).map fun i => (List.range 256).map fun j => (run i).contains j)
  else none

/-- ML-DSA.Verify: whether a signature over a message is one of a public key. -/
def verify (pk m sig ctx : Bytes) : Bool :=
  match hints (sig.drop 4544) with
  | none => false
  | some h =>
    let z := (pieces 640 7 (sig.drop 64)).map fun b => (unpack 20 b).map fun (x : Nat) => ofInt (2 ^ 19 - (x : Int))
    let t1 := (pieces 320 8 (pk.drop 32)).map fun b => (unpack 10 b).map fun x => x * 8192
    let c := toNtt (ball (sig.take 64))
    let w := List.zipWith sub (matMul (expandA (pk.take 32)) (z.map toNtt)) (scale c t1)
    let w1 := List.zipWith (fun (a : List Bool) (p : Poly) => List.zipWith useHint a p) h w
    let mu := message (shake256 64 pk) ctx m
    decide (pk.length = 2592) && decide (sig.length = 4627) && decide (norm z < 2 ^ 19 - 120) &&
      decide (shake256 64 (mu ++ packHigh w1) = sig.take 64)

end Sys2Proof.Machine.MlDsa
end

