-- ==== Sys2Proof/Machine/Reliable.lean ====
section
/-! DEFINITION. The Auduel fabric at the receiver and the switch: receive windows (R292), writes and flagged writes
(R278, R280, R281), answers to reads (R279), acknowledgements (Table 11.4, R294), path notices (R285), read combining
(R288, R289). -/

namespace Sys2Proof.Machine

/-! ## Receive windows (R292) -/

/-- How far sequence number `a` lies beyond `b`, modulo 2^32. -/
def seqDist (a b : Nat) : Nat := (a + 2 ^ 32 - b % 2 ^ 32) % 2 ^ 32

/-- What a receive window says of a frame. -/
inductive Verdict where
  | fresh | dup | drop
  deriving DecidableEq, Repr

def State.rxWin (s : State) (src : NodeId) (unit : Nat) : Option RxWin :=
  s.fab.wins.find? fun w => decide (w.src = src) && decide (w.unit = unit)

def State.setWin (s : State) (w : RxWin) : State :=
  s.modFab fun b => { b with wins := b.wins.map fun x => if x.src = w.src ∧ x.unit = w.unit then w else x }

/-- Judge a sequenced frame by its source's window, opening one at the frame's own SEQ where the source has none and
fewer than 2,048 are held. (DEDUCED: log 61) -/
def State.rxJudge (s : State) (f : Frame) : Verdict × State :=
  match s.rxWin (hSrc f) (hUnit f) with
  | none =>
    if 2048 ≤ s.fab.wins.length then (.drop, s)
    else
      (.fresh, s.modFab fun b => { b with wins := b.wins ++
        [{ src := hSrc f, unit := hUnit f, base := hSeq f, marks := [], held := [] }] })
  | some w =>
    let d := seqDist (hSeq f) w.base
    if 2 ^ 31 ≤ d ∨ w.marks.contains (hSeq f) then (.dup, s.addReg 0x301048 1)
    else if 4096 ≤ d then (.drop, s)
    else (.fresh, s)

/-- The base moves past every SEQ that is visible; it stops at a held flagged line. -/
def winAdvance : Nat → RxWin → RxWin
  | 0, w => w
  | n + 1, w =>
    if w.marks.contains w.base ∧ (w.held.any fun h => h.seq = w.base) = false then
      winAdvance n { w with base := (w.base + 1) % 2 ^ 32, marks := w.marks.erase w.base }
    else w

def RxWin.settle (w : RxWin) : RxWin := winAdvance (w.marks.length + 1) w

/-- A frame has been made visible, or is held: its SEQ is marked. -/
def State.rxMark (s : State) (src : NodeId) (unit seq : Nat) (held : Option HeldLine) : State :=
  match s.rxWin src unit with
  | none => s
  | some w =>
    s.setWin ({ w with marks := w.marks ++ [seq], held := w.held ++ held.toList }).settle

/-! ## Acknowledgements (Table 11.4) -/

def ackEntry (seq unit fence : Nat) : Word :=
  BitVec.ofNat 64 (seq % 2 ^ 32 * 2 ^ 32 + unit % 32 * 2 ^ 27 + fence % 256 * 2 ^ 19)

def ackSeq (w : Word) : Nat := fld w 63 32
def ackUnit (w : Word) : Nat := fld w 31 27
def ackFence (w : Word) : Nat := fld w 26 19

/-- Queue an ack entry for a source node. -/
def State.pushAck (s : State) (src : NodeId) (seq unit fence : Nat) : State :=
  let e := ackEntry seq unit fence
  s.modFab fun b =>
    { b with acks := if b.acks.any fun x => x.1 = src
        then b.acks.map fun x => if x.1 = src then (x.1, x.2 ++ [e]) else x
        else b.acks ++ [(src, [e])] }

/-- Acknowledge a frame (R278). -/
def State.ackFrame (s : State) (f : Frame) : State := s.pushAck (hSrc f) (hSeq f) (hUnit f) (hFence f)

/-- Send an ACK frame with up to 64 of the entries that wait for a source node (R275). -/
def State.ackFlush (s : State) (dst : NodeId) : State :=
  match s.fab.acks.find? fun x => x.1 = dst with
  | none => s
  | some (_, l) =>
    let now := l.take 64
    let rest := l.drop 64
    let s := s.modFab fun b =>
      { b with acks := b.acks.filterMap fun x =>
          if x.1 = dst then (if rest = [] then none else some (x.1, rest)) else some x }
    s.sendPlain (NewFrame.build
      { tag := ctlTag, type := Ft.ack, cls := 0, dst := dst, src := s.fab.node, unit := Config.answerUnit 3 % 19,
        len := 8 * now.length } none (.acks now))

/-! ## Memory at the receiver -/

/-- Whether this node takes WRITE, READ_REQ and CONTROL frames: it was not refused at join (R303), its chip has not failed
(R404), and its bring-up has met no fatal condition (R369). -/
def State.accepts (s : State) : Bool := !s.fab.joinRefused && !s.regBit 0x708020 1 && !s.boot.fatal

/-- What a WRITE, READ_REQ or CONTROL frame does: nothing where the node discards it. -/
def State.ifTakes (s t : State) : State := if s.accepts then t else s

/-- What a JOIN frame does: a node refused at join still takes an answer to another JOIN (R303). -/
def State.ifJoins (s t : State) : State := if s.regBit 0x708020 1 || s.boot.fatal then s else t

/-- What any other frame does: nothing once bring-up has met a fatal condition (R369). -/
def State.ifHears (s t : State) : State := if s.boot.fatal then s else t

/-- The REQ field of an event about the request that a tag names: word 0 of the tag, REQ_ID and TENANT (Table 17.5). -/
def tagReq (t : Tag) : Word := if tagReqId t = 0 then 0 else t.w0

/-- Make bytes that came by the fabric visible; what the translation refuses is discarded and counted, and raises
WRITE_UNMAPPED for the port the frame came by and the request of its tag (R278, R281, Table 17.5). -/
def State.fabricWrite (s : State) (job : Option Nat) (a : Nat) (b : Bytes) (t : Tag) (via : Nat) : State :=
  match s.stWrite job a b with
  | (none, s) => s
  | (some x, s) =>
    (s.addReg 0x301060 1).raise Ev.writeUnmapped x.status 23 via (tagReq t)
      (evDetail x.addr (1 + x.unit * 65536) x.addr)

/-- Write one line. -/
def State.writeLine (s : State) (a : Nat) (b : Bytes) (t : Tag) (via : Nat) : State :=
  s.fabricWrite none (a % 2 ^ 42) (fitBytes 64 b) t via

/-- Write lines `lo` to `hi − 1` of a WRITE frame. -/
def State.writeLines (s : State) (f : Frame) (lo hi : Nat) : State :=
  (List.range (hi - lo)).foldl (fun s i =>
    s.writeLine (hAddr f + 64 * (lo + i)) (((bodyBytes f.body).drop (64 * (lo + i))).take 64) f.hdr.tag s.fab.via) s

/-- A WRITE frame at its receiver (R278, R280, R292). (DEDUCED: log 61) -/
def State.rxWrite (s : State) (f : Frame) : State :=
  if s.accepts = false ∨ 9 ≤ tagContent f.hdr.tag then s
  else
    match s.rxJudge f with
    | (.drop, s) => s
    | (.dup, s) =>
      match s.rxWin (hSrc f) (hUnit f) with
      | some w => if w.held.any fun h => h.seq = hSeq f then s else s.ackFrame f
      | none => s
    | (.fresh, s) =>
      let base := (s.rxWin (hSrc f) (hUnit f)).map (·.base)
      let n := hLines f
      if hFlag f ∧ 0 < n ∧ base ≠ some (hSeq f) then
        let h : HeldLine :=
          { seq := hSeq f, addr := hAddr f + 64 * (n - 1), data := ((bodyBytes f.body).drop (64 * (n - 1))).take 64,
            fence := hFence f, tag := f.hdr.tag, via := s.fab.via }
        (s.writeLines f 0 (n - 1)).rxMark (hSrc f) (hUnit f) (hSeq f) (some h)
      else ((s.writeLines f 0 n).rxMark (hSrc f) (hUnit f) (hSeq f) none).ackFrame f

/-- The held flagged line at the base of a window becomes visible and its frame is acknowledged (R280). -/
def State.flagRelease (s : State) (src : NodeId) (unit : Nat) : State :=
  match s.rxWin src unit with
  | none => s
  | some w =>
    match w.held.find? fun h => h.seq = w.base with
    | none => s
    | some h =>
      let s := s.writeLine h.addr h.data h.tag h.via
      (s.setWin ({ w with held := w.held.erase h }).settle).pushAck src h.seq unit h.fence

/-- Read the lines of a request: the bytes, or the RSTATUS of the first line refused (R281). -/
def State.readAnswer : Nat → State → Nat → Bytes → (Except Nat Bytes) × State
  | 0, s, _, acc => (.ok acc, s)
  | n + 1, s, a, acc =>
    match s.stRead none a 64 with
    | (.ok b, s) => State.readAnswer n s (a + 64) (acc ++ b)
    | (.error x, s) => (.error (if x.status = St.cxlPoison then 2 else 1), s)

/-- A READ_RESP frame. One that reports a refusal carries no lines. -/
def State.respFrame (s : State) (t : Tag) (cls : Nat) (dst : NodeId) (unit seq addr rstatus : Nat) (b : Bytes)
    (src : Nat) : Frame :=
  NewFrame.build
    { tag := t, type := Ft.readResp, cls := cls, dst := dst, src := s.fab.node, unit := src, lines := b.length / 64,
      len := b.length, rstatus := rstatus, addr := addr, rseq := seq, dunit := unit } none (.bytes b)

/-- A READ_REQ frame at its receiver: every copy is answered from the lines as they stand (R279). (DEDUCED: log 61) -/
def State.rxRead (s : State) (f : Frame) : State :=
  if s.accepts = false ∨ 9 ≤ tagContent f.hdr.tag then s
  else
    match s.rxJudge f with
    | (.drop, s) => s
    | (v, s) =>
      let s := if v = .fresh then s.rxMark (hSrc f) (hUnit f) (hSeq f) none else s
      let (st, b, s) := match State.readAnswer (hLines f) s (hAddr f % 2 ^ 42) [] with
        | (.ok b, s) => (0, b, s)
        | (.error k, s) => (k, [], s)
      s.sendPlain (s.respFrame f.hdr.tag (hClass f) (hSrc f) (hUnit f) (hSeq f) (hAddr f) st b
        (Config.answerUnit 2 % 19))

/-! ## Answers at the requester and at a combiner -/

/-- A combiner answers its waiters, each in the class of its own READ_REQ, and frees its entry (R289, R394).
(DEDUCED: log 62) -/
def State.combAnswer (s : State) (c : Comb) (rstatus : Nat) (b : Bytes) : State :=
  let s := s.modFab fun x => { x with comb := x.comb.erase c }
  c.waiters.foldl (fun s w =>
    s.sendPlain (s.respFrame w.tag w.cls w.src w.unit w.seq c.addr rstatus b unitComb)) s

/-- An answer that a FAB_RD or a DMA read waits for. -/
def State.takeLines (s : State) (x : Sent) (b : Bytes) : State :=
  match x.owner with
  | none => s
  | some o =>
    match s.ownerEntry o with
    | none => s
    | some e =>
      let ls := (List.range (b.length / 64)).foldl
        (fun l i => tabPut l (x.place + 64 * i) ((b.drop (64 * i)).take 64)) e.lines
      let n := e.owed - 1
      s.setEntryOf o.1 o.2.1 { e with lines := ls, owed := n, phase := if n = 0 then .running else e.phase }

/-- A READ_RESP at the node it is addressed to (R281, R289). The read it answers is named by DST_UNIT, RSEQ and ADDR.
(DESIGN CHOICE: log 39) -/
def State.rxResp (s : State) (f : Frame) : State × List Sent :=
  if s.fab.joinRefused ∨ 9 ≤ tagContent f.hdr.tag then (s, [])
  else if hDunit f = unitComb then
    match s.fab.comb.find? fun c => c.seq = hRseq f ∧ c.addr = hAddr f with
    | some c => (s.combAnswer c (hRstatus f) (bodyBytes f.body), [])
    | none => (s, [])
  else
    match s.fab.sent.find? fun x => decide (x.unit = hDunit f) && decide (x.seq = hRseq f) &&
        decide (hType x.frame = 1) && decide (hAddr x.frame = hAddr f) with
    | none => (s, [])
    | some x =>
      if hRstatus f = 3 then s.resend x
      else
        let s := s.chargeFrame f.hdr.tag (hLen f)
        let s := s.modFab fun b => { b with sent := b.sent.erase x }
        if hRstatus f = 0 then (s.takeLines x (bodyBytes f.body), [])
        else
          match x.owner with
          | some o => (s.ownerFault o St.operandRange (hAddr f) (2 + 256 * hRstatus f) x.place (64 * hLines x.frame), [])
          | none => (s, [])

/-- One ack entry from a destination: the replay copy goes; a fence's owed count falls; a late acknowledgement of a
faulted fence is counted (R291, R294, R295). -/
def State.ackOne (s : State) (src : NodeId) (w : Word) : State :=
  let unit := ackUnit w
  let seq := ackSeq w
  let s := s.modFab fun b => { b with sent := b.sent.filter fun x =>
      !(decide (x.unit = unit) && decide (x.dst = src) && decide (x.seq = seq) && decide (hType x.frame ≠ 1)) }
  let s := if s.fab.late.contains (unit, src, seq)
    then (s.modFab fun b => { b with late := b.late.erase (unit, src, seq) }).addReg 0x301058 1 else s
  s.fab.fences.foldl (fun s f =>
    if f.part.val = unit ∧ f.id = ackFence w ∧ f.owed.contains (src, seq) then
      let owed := f.owed.erase (src, seq)
      if owed = [] then
        let s := s.modFab fun b => { b with fences := b.fences.erase f }
        match s.ownerEntry (f.part, 5, f.uid) with
        | some e => s.finish f.part 5 e 0 false
        | none => s
      else s.modFab fun b => { b with fences := b.fences.map fun g => if g = f then { f with owed := owed } else g }
    else s) s

def State.rxAcks (s : State) (src : NodeId) (l : List Word) : State := l.foldl (fun s w => s.ackOne src w) s

/-- A CONTROL abandon at its receiver: every SEQ up to the value is done, held flagged lines go (R293). -/
def State.rxAbandon (s : State) (src : NodeId) (unit seq : Nat) : State :=
  match s.rxWin src unit with
  | none => s
  | some w =>
    if 2 ^ 31 ≤ seqDist seq w.base then s
    else
      let later := fun x : Nat => decide (0 < seqDist x seq) && decide (seqDist x seq < 2 ^ 31)
      s.setWin ({ w with
        base := (seq + 1) % 2 ^ 32, marks := w.marks.filter later,
        held := w.held.filter fun h => later h.seq }).settle

/-! ## The switch (R285, R288) -/

/-- A dropped frame is counted; where its entry is invalid or its port down, its source is told (R285). -/
def State.swDrop (s : State) (f : Frame) (notice : Bool) : State :=
  let s := s.addReg 0x301078 1
  if notice then
    s.sendPlain (NewFrame.build
      { tag := ctlTag, type := Ft.pathNotice, cls := 0, dst := hSrc f, src := s.fab.node, unit := unitComb,
        len := Config.plainBytes 7 % 4097 } none
      (.notice (hSrc f) (hUnit f) (BitVec.ofNat 32 (hSeq f)) (Fin.ofNat 8 (hPath f)) (hDst f)))
  else s

/-- Forward a frame to the port of its entry, one hop nearer to the end of its TTL, or drop it; a frame of this node's own
units begins its way here. (DEDUCED: log 26) -/
def State.forwardOut (s : State) (f : Frame) : State :=
  let e := s.hop (hDst f) (hPath f)
  if e < 8 then
    if hSrc f = s.fab.node then
      (if (s.port (Fin.ofNat 8 e)).up then s.inject (Fin.ofNat 8 e) (s.unitJob (hUnit f)) f else s.swDrop f true)
    else if hTtl f ≤ 1 then s.swDrop f false
    else if (s.port (Fin.ofNat 8 e)).up then
      s.enqueue (Fin.ofNat 8 e) (frameMod f fun h => { h with w2 := setFld h.w2 21 16 (hTtl f - 1) })
    else s.swDrop f true
  else s.swDrop f true

/-- Pass a READ_REQ on unchanged: to this node itself where its entry is LOCAL. (DEDUCED: log 62) -/
def State.passRead (s : State) (f : Frame) : State :=
  if s.hop (hDst f) (hPath f) = 8 then s.rxRead f else s.forwardOut f

/-- Priority of a class on an encapsulated port, as the PCP of R276. -/
def prioOf (c : Nat) : Nat := 7 - c

/-- What a port that has frames waiting tells its peer: on an encapsulated port, the priorities it pauses (R275).
(DESIGN CHOICE: log 63) -/
def State.tellPause (s : State) (k : PortId) : State :=
  let x := s.port k
  let full := fun c : Nat => decide (Config.pauseAbove % 262145 <
    ((x.ingress.filter fun f => hClass f = c ∧ ¬(k = 0 ∧ hSrc f = s.fab.node)).map frameBytes).sum)
  if x.mode = 0 then s
  else s.setPort k { x with pausing := (List.range 8).foldl (fun v c => setFld v (prioOf c) (prioOf c) (b2n (full c))) 0 }

/-- The switch takes the head of what a port has received: a NATIVE peer gets back the frame's credit (R275).
(DESIGN CHOICE: log 63) -/
def State.takeHead (s : State) (k : PortId) (f : Frame) (r : List Frame) : State :=
  let x := s.port k
  let c := hClass f
  let own := decide (k = 0) && decide (hSrc f = s.fab.node)
  (s.setPort k { x with
    ingress := r
    given := if x.mode = 0 ∧ own = false then vset x.given c (vget x.given c 0 + ceilDiv (frameBytes f) 64) else x.given }).tellPause k

/-- The head of what a port has received goes through the switch: to the hub by `deliver` where its entry is LOCAL, else
out by a port. A combinable read is left to SWITCH_COMBINE. -/
def State.switchHead (deliver : State → Frame → State) (s : State) (k : PortId) : State :=
  match (s.port k).ingress with
  | [] => s
  | f :: r =>
    if s.combinable f then s
    else
      let s := s.takeHead k f r
      if s.hop (hDst f) (hPath f) = 8 then
        let via := if k = 0 ∧ hSrc f = s.fab.node then 0xFF else k.val
        (deliver (s.modFab fun b => { b with via := via }) f).modFab fun b => { b with via := 0xFF }
      else s.forwardOut f

/-- Whether an entry's read must wait for an earlier one of the combiner to the same node that has not been sent (R290). -/
def State.combBehind (s : State) (c : Comb) : Bool :=
  (s.fab.comb.takeWhile fun x => x.seq ≠ c.seq ∨ x.dst ≠ c.dst).any fun x => x.dst = c.dst ∧ x.path = none

def State.setComb (s : State) (c : Comb) : State :=
  s.modFab fun b => { b with comb := b.comb.map fun x => if x.dst = c.dst ∧ x.seq = c.seq then c else x }

/-- The combiner sends its read, on the path of the hash or on the next one; a re-send is counted; where no path is valid it
is held (R286, R289, R293). (DESIGN CHOICE: log 39) -/
def State.combSend (s : State) (c : Comb) (t : Tag) : State × Comb :=
  let f := NewFrame.build
    { tag := { t with w1 := setFld t.w1 23 20 Ct.sharedRead }, type := Ft.readReq, cls := c.cls, dst := c.dst,
      src := s.fab.node, unit := unitComb, lines := c.lines, combine := true, addr := c.addr } none (.bytes [])
  let f := frameMod f fun h => { h with w3 := setFld h.w3 63 32 c.seq }
  match (if s.fab.joinRefused then [] else s.validPaths c.dst) with
  | [] => (s, { c with held := true })
  | p0 :: ps =>
    let l := p0 :: ps
    let s := if c.path.isSome then s.addReg 0x301040 1 else s
    let p := match c.path with
      | none => l.getD (frameHash f % l.length) p0
      | some last => nextPath l last
    let s := match s.emit (readyFrame f p c.path.isSome) none with
      | some s => s
      | none => (s.addReg 0x301078 1).markPath c.dst p
    (s, { c with sends := c.sends + 1, path := some p, held := false })

/-- An entry of the table sends its read: not before an earlier unsent one, nor, for the first time, without room in the
replay buffer (R290, R291). (DEDUCED: log 62) -/
def State.combTry (s : State) (c : Comb) : State :=
  if s.combBehind c ∨ (c.path = none ∧ s.replayRoom unitComb c.dst 0 = false) then s
  else
    let r := s.combSend c (((c.waiters.head?).map (·.tag)).getD ctlTag)
    r.1.setComb r.2

/-- The reads of the combiner that wait to be sent go out, in the order of their SEQs: those not sent yet, and those held for
a node that has become reachable (R286, R290, R291). (DEDUCED: log 62) -/
def State.combDrain (s : State) : State :=
  s.fab.comb.foldl (fun s c => if c.path = none ∨ c.held then s.combTry c else s) s

/-- A combinable READ_REQ at the head of what a port has received (R288). (DEDUCED: log 62) -/
def State.switchCombine (s : State) (k : PortId) : State :=
  match (s.port k).ingress with
  | [] => s
  | f :: r =>
    if s.combinable f = false then s
    else
      let s := s.takeHead k f r
      let w : Waiter := { src := hSrc f, unit := hUnit f, seq := hSeq f, tag := f.hdr.tag, cls := hClass f }
      match s.fab.comb.find? fun c => c.dst = hDst f ∧ c.addr = hAddr f ∧ c.lines = hLines f with
      | some c =>
        if c.waiters.any fun x => x.src = w.src ∧ x.unit = w.unit ∧ x.seq = w.seq then s
        else if c.waiters.length < 16 then
          let c' := { c with waiters := c.waiters ++ [w] }
          (s.modFab fun b => { b with comb := b.comb.map fun x => if x = c then c' else x }).addReg 0x301080 1
        else (s.addReg 0x301088 1).passRead f
      | none =>
        if s.fab.comb.length < 1024 then
          let key := seqKey unitComb (hDst f)
          let q := tabGet (fun _ => 0) s.fab.seqs key
          let s := s.modFab fun b => { b with seqs := tabSet (fun _ => 0) b.seqs key ((q + 1) % 2 ^ 32) }
          let c : Comb :=
            { dst := hDst f, addr := hAddr f, lines := hLines f, waiters := [w], seq := q, sends := 0, path := none,
              cls := hClass f, held := false }
          -- without room in the shared replay buffer, or behind an unsent read, it waits (R290, R291)
          (s.modFab fun b => { b with comb := b.comb ++ [c] }).combTry c
        else (s.addReg 0x301088 1).passRead f

/-- The read of a combining entry goes out again; after its fourth send every waiter gets RSTATUS 3 (R289).
(DEDUCED: log 62) -/
def State.combAgain (s : State) (c : Comb) : State :=
  if 4 ≤ c.sends then s.combAnswer c 3 [] else s.combTry c

/-- Frames and combiner's reads that waited for room in their replay buffers go out as far as there is room (R291). -/
def State.drainWaits (s : State) : State := s.drainBacklog.combDrain

/-- COMBINE_US has passed without an answer (R289); of a held read it counts as one unanswered send (R286).
(DEDUCED: log 62) -/
def State.combExpiry (s : State) (dst : NodeId) (addr lines : Nat) : State :=
  match s.fab.comb.find? fun c => c.dst = dst ∧ c.addr = addr ∧ c.lines = lines with
  | none => s
  | some c =>
    if c.held then
      let c := { c with sends := c.sends + 1 }
      (s.setComb c).combAgain c
    else if c.path = none then s.combTry c
    else s.combAgain c

/-- A PATH_NOTICE at a sender: the path is invalid for 1 ms, and the frame it names goes out again at once, a combiner's
read too (R285, R293). -/
def State.rxNotice (s : State) (unit seq path : Nat) (dst : NodeId) : State × List Sent :=
  let s := s.markPath dst path
  if unit = unitComb then
    match s.fab.comb.find? fun c => c.dst = dst ∧ c.seq = seq ∧ c.path = some path with
    | some c => (s.combAgain c, [])
    | none => (s, [])
  else
    match s.findSent unit dst seq with
    | some x => if x.path = some path ∧ x.heldBack = false then s.resend x else (s, [])
    | none => (s, [])

/-! ## Commands -/

def execSwitchCombine (k : PortId) (s : State) : Res := .next (s.switchCombine k)

def execFlaggedLineRelease (src : NodeId) (unit : Fin 32) (s : State) : Res := .next (s.flagRelease src unit.val)

def execReadReq (f : Frame) (s : State) : Res := .next (s.rxRead f)

def execAckFlush (dst : NodeId) (s : State) : Res := .next (s.ackFlush dst)

/-- A path marked invalid by a PATH_NOTICE is used again (R285). -/
def State.unmark (s : State) (dst : NodeId) (path : Nat) : State :=
  s.modFab fun b => { b with marks := b.marks.erase (dst, path) }

def execPathNoticeExpiry (dst : NodeId) (path : Fin 8) (s : State) : Res := .next (s.unmark dst path.val)

def execPathRestored (dst : NodeId) (s : State) : Res := .next (s.sendHeld dst).combDrain

def execCombineExpiry (dst : NodeId) (addr : BitVec 52) (lines : Nat) (s : State) : Res :=
  .next (s.combExpiry dst addr.toNat lines)

/-- A window with no held frame that has been idle for 10 ms is released (R292). -/
def State.winRelease (s : State) (src : NodeId) (unit : Nat) : State :=
  match s.rxWin src unit with
  | some w => if w.held = [] then s.modFab fun b => { b with wins := b.wins.erase w } else s
  | none => s

def execWindowIdleRelease (src : NodeId) (unit : Fin 32) (s : State) : Res := .next (s.winRelease src unit.val)

end Sys2Proof.Machine
end

