-- ==== Sys2Proof/Machine/Dma.lean ====
section
/-! DEFINITION. The DMA opcodes (R124, R126, R215, R443), the scatters of keys and values (R161 to R163, R200, R445), the
accounting opcodes (R337) and SIG_REMOTE (R91). -/

namespace Sys2Proof.Machine

/-! ## Reading through a source's space -/

/-- Read bytes of a source in its space: hold SRAM, the state range with the job check, or fabric addresses (R443). -/
def QEntry.read (p : PartId) (e : QEntry) (space : Nat) (s : State) (a n : Nat) : Rd × State :=
  if space = 0 then State.rdHold p s a n
  else if space = 1 then State.rdState (s.jobOf p) s a n
  else if a / 2 ^ 42 = s.fab.node.val then State.rdState (s.jobOf p) s (a % 2 ^ 42) n
  else
    match e.missing a n with
    | [] => (.ok (e.fromLines a n), s)
    | l => (.need l, s)

def State.dmaCls (e : QEntry) : Nat := 1 + Config.dmaClass (iOp e.insn) % 7

/-- Go on with the bytes of a read, or fault, or ask for the lines it needs. -/
def State.withRd (s : State) (p : PartId) (q : Nat) (e : QEntry) (r : Rd) (f : Bytes → State → State) : State :=
  match r with
  | .ok b => f b s
  | .fault st d0 d1 => s.accessFault p q e st d0 d1
  | .need l => s.readLines p q e (State.dmaCls e) l

/-- Lines of another node that some runs (address, length) of a SPACE 2 source still need, rising. -/
def QEntry.needs (e : QEntry) (own : NodeId) (space : Nat) (runs : List (Nat × Nat)) : List Nat :=
  if space = 2 then
    runs.foldl (fun l r =>
      if r.1 / 2 ^ 42 = own.val then l else (e.missing r.1 r.2).foldl (fun l a => insertRising a l) l) []
  else []

/-- The runs of rows of a tensor: elements, then scales. -/
def rowRuns (d : Desc) (rows : List Nat) : List (Nat × Nat) :=
  rows.map (fun i => (tRowAt d i, tRowBytes d)) ++
    (if fmtBlock (tFmt d) then rows.map fun i => (tScaleAt d i, tScaleBytes d) else [])

/-- One row with its scales. -/
def QEntry.readRow (p : PartId) (e : QEntry) (d : Desc) (i : Nat) (s : State) : Except Rd (Bytes × Bytes) × State :=
  match e.read p (tSpace d) s (tRowAt d i) (tRowBytes d) with
  | (.ok b, s) =>
    if fmtBlock (tFmt d) then
      match e.read p (tSpace d) s (tScaleAt d i) (tScaleBytes d) with
      | (.ok c, s) => (.ok (b, c), s)
      | (r, s) => (.error r, s)
    else (.ok (b, []), s)
  | (r, s) => (.error r, s)

def QEntry.readRows (p : PartId) (e : QEntry) (d : Desc) : List Nat → State → Except Rd (List (Bytes × Bytes)) × State
  | [], s => (.ok [], s)
  | i :: r, s =>
    match e.readRow p d i s with
    | (.error x, s) => (.error x, s)
    | (.ok b, s) =>
      match QEntry.readRows p e d r s with
      | (.ok l, s) => (.ok (b :: l), s)
      | (.error x, s) => (.error x, s)

/-- Scales of a row, which are never compressed. -/
def QEntry.readScales (p : PartId) (e : QEntry) (d : Desc) :
    List Nat → State → Except Rd (List Bytes) × State
  | [], s => (.ok [], s)
  | i :: r, s =>
    if fmtBlock (tFmt d) then
      match e.read p (tSpace d) s (tScaleAt d i) (tScaleBytes d) with
      | (.ok b, s) =>
        match QEntry.readScales p e d r s with
        | (.ok l, s) => (.ok (b :: l), s)
        | (.error x, s) => (.error x, s)
      | (x, s) => (.error x, s)
    else
      match QEntry.readScales p e d r s with
      | (.ok l, s) => (.ok ([] :: l), s)
      | (.error x, s) => (.error x, s)

/-! ## Writing a destination -/

/-- Count the bytes a DMA instruction writes and charge them to its share class (R62). -/
def State.dmaBytes (s : State) (p : PartId) (tag n : Nat) : State :=
  (s.addReg (ptBase p + 0x3000) n).chargeBytes (s.shareOf p tag) n

/-- Write rows with their scales to a destination in hold SRAM or the state range: all of them, or none where any is
refused. -/
def State.putRows (s : State) (p : PartId) (d : Desc) (rows : List (Bytes × Bytes)) : Option AccErr × State :=
  let runs := rows.zipIdx.flatMap fun x =>
    (tRowAt d x.2, x.1.1) :: (if x.1.2 = [] then [] else [(tScaleAt d x.2, x.1.2)])
  if tSpace d = 0 then (none, runs.foldl (fun s r => s.hsWrite p r.1 r.2) s)
  else
    match runs.findSome? fun r => s.stCheck (s.jobOf p) r.1 r.2.length with
    | some x => (some x, s)
    | none => (none, runs.foldl (fun s r => (s.stWrite (s.jobOf p) r.1 r.2).2) s)

/-- Finish an instruction that writes rows to dA: its commit point lies before its retire where dA is outside hold
SRAM (Table 4.10). -/
def State.dmaFinish (s : State) (p : PartId) (q : Nat) (e : QEntry) (rows : List (Bytes × Bytes)) (cost : Nat) : State :=
  match s.putRows p e.da rows with
  | (some x, s) => s.accErr p q e x
  | (none, s) =>
    let n := rows.foldl (fun n r => n + r.1.length + r.2.length) 0
    (s.dmaBytes p e.tag n).finish p q e cost (decide (tSpace e.da ≠ 0))

/-! ## DMA_COPY, DMA_GATHER, DMA_FILL -/

/-- dA and dB have the same shape and format. -/
def sameTensor (a b : Desc) : Bool :=
  decide (tRows a = tRows b) && decide (tCols a = tCols b) && decide (tFmt a = tFmt b)

/-- A fault met while expanding: the bytes of earlier bales stay written, and their bales stay counted and recorded
(R208, R220). BALE_INVALID of a bale that no member's KV page holds is at instruction scope (R208). (DEDUCED: log 94) -/
def State.expandFault (s : State) (p : PartId) (q : Nat) (e : QEntry) (x : Expanded) (starved : Nat) (rows : List Bytes)
    (st : Status) (d0 d1 : Nat) : State :=
  let s := (s.countMain p x starved).shareStall p 2
  let s := match s.putRows p e.da (rows.map fun b => (b, [])) with
    | (none, s) => s.dmaBytes p e.tag (rows.foldl (fun n (b : Bytes) => n + b.length) 0)
    | (some _, s) => s
  let e := { e with bales := x.record e.tag 0, seen := none }
  if st = St.baleInvalid then s.instrFault p q e st d0 d1 else s.accessFault p q e st d0 d1

/-- An expansion that must wait for lines of another node: what it has expanded stands in the entry, and is counted and
recorded where the instruction ends before the lines come (R219, R220). -/
def State.expandWait (s : State) (p : PartId) (q : Nat) (e : QEntry) (x : Expanded) (starved : Nat) (r : Rd) : State :=
  let b : BaleSeen :=
    { bales := x.bales, raws := x.raws, exceeding := x.exceeding, short := x.short, starved := starved }
  s.withRd p q { e with bales := x.record e.tag 0, seen := some b } r fun _ s => s

/-- Rows of a compressed source: every bale of the image, in order (R215). -/
def State.copyExpanded (s : State) (p : PartId) (q : Nat) (e : QEntry) : State :=
  let d := e.db
  let m := imageOfDesc d
  let rd := e.read p (tSpace d)
  match storedBytes rd m s with
  | (.ok false, s) => s.instrFault p q e St.operandRange m.addr m.space
  | (.ok true, s) =>
    match expandBales rd m m.n 0 Expanded.empty s with
    | (x, s) =>
      let rows := (List.range (tRows d)).map fun i => (x.bytes.drop (i * tStride d)).take (tRowBytes d)
      let starved := x.starve (rows.foldl (fun n b => n + b.length) 0)
      match x.stop with
      | some (.fault st d0 d1) => s.expandFault p q e x starved rows st d0 d1
      | some r => s.expandWait p q e x starved r
      | none =>
        match e.readScales p d (List.range (tRows d)) s with
        | (.error (.fault st d0 d1), s) => s.expandFault p q e x starved rows st d0 d1
        | (.error r, s) => s.expandWait p q e x starved r
        | (.ok sc, s) =>
          let out := tBytes d
          let s := (s.countMain p x (x.starve out)).shareStall p 2
          s.dmaFinish p q { e with bales := x.record e.tag 0, seen := none } (rows.zipIdx.map fun r => (r.1, sc.getD r.2 []))
            (40 + max (ceilDiv out 128) (ceilDiv x.input 64))
  | (.error r, s) => s.withRd p q e r fun _ s => s

/-- DESIGN CHOICE: log 90. -/
def State.dmaCopy (s : State) (p : PartId) (q : Nat) (e : QEntry) : State :=
  if sameTensor e.da e.db = false then s.shapeFault p q e 1
  else if tCompressed e.db then s.copyExpanded p q e
  else
    let all := List.range (tRows e.db)
    match e.needs s.fab.node (tSpace e.db) (rowRuns e.db all) with
    | l :: r => s.readLines p q e (State.dmaCls e) (l :: r)
    | [] =>
      match e.readRows p e.db all s with
      | (.error r, s) => s.withRd p q e r fun _ s => s
      | (.ok rows, s) =>
        let b := tBytes e.db
        let cost := if tSpace e.da = 0 ∧ tSpace e.db = 0 then 40 + ceilDiv b 256 else 40 + ceilDiv b 128
        s.dmaFinish p q e rows cost

def execDmaCopy (p : PartId) (a : Act) (s : State) : Res :=
  .next (s.engineRow p 0x10 a fun q e s => s.dmaCopy p q e)

/-- The row numbers of DMA_GATHER: the elements of dC in row-major order, 32 bits each. -/
def rowNumbers (d : Desc) (n : Nat) (rows : List (Bytes × Bytes)) : List Nat :=
  ((rows.flatMap fun r => (List.range (tCols d)).map fun i => leAt r.1 (4 * i) 4)).take n

/-- Rows of a compressed source in the order of the output: a bale that overlaps the one expanded last is taken again
without a second read (R215, R218). The cost of each row is returned with it. -/
def gatherExpanded (rd : State → Nat → Nat → Rd × State) (d : Desc) (m : Image8) :
    List Nat → Option (Nat × Expanded) → State →
      (List (Bytes × Nat) × List (Nat × Expanded)) × Option Rd × State
  | [], _, s => (([], []), none, s)
  | i :: rest, last, s =>
    let want := balesOfRuns [(i * tStride d, tRowBytes d)]
    let kept := last.filter fun x => want.contains x.1
    let new := want.filter fun k => (kept.map (·.1)) ≠ some k
    match expandSet rd m new s with
    | (xs, some r, s) =>
      -- what the bales before the failing one hold of this row
      let a := i * tStride d
      let got := (imageFrom (kept.toList ++ xs) a (tRowBytes d)).take (4096 * new.getD xs.length 0 - a)
      (([(got, ceilDiv (joinExpanded xs).input 64)], xs), some r, s)
    | (xs, none, s) =>
      let have_ := kept.toList ++ xs
      let row := imageFrom have_ (i * tStride d) (tRowBytes d)
      let c := max (ceilDiv (tRowBytes d) 128) (ceilDiv (joinExpanded xs).input 64)
      let l := match xs.getLast? with | some x => some x | none => last
      match gatherExpanded rd d m rest l s with
      | ((rows, ys), st, s) => (((row, c) :: rows, xs ++ ys), st, s)

def State.gatherRun (s : State) (p : PartId) (q : Nat) (e : QEntry) (nums : List Nat) : State :=
  let d := e.db
  if tCompressed d then
    let m := imageOfDesc d
    let rd := e.read p (tSpace d)
    match storedBytes rd m s with
    | (.ok false, s) => s.instrFault p q e St.operandRange m.addr m.space
    | (.ok true, s) =>
      let figures := fun xs : List (Nat × Expanded) =>
        { joinExpanded xs with first := xs.foldl (fun a y =>
            match a, y.2.first with | some u, some v => some (min u v) | some u, none => some u | none, v => v) none }
      let starved := fun rows : List (Bytes × Nat) => (rows.map fun r => r.2 - ceilDiv r.1.length 128).sum
      match gatherExpanded rd d m nums none s with
      | ((rows, xs), some (.fault st d0 d1), s) =>
        s.expandFault p q e (figures xs) (starved rows) (rows.map (·.1)) st d0 d1
      | ((rows, xs), some r, s) => s.expandWait p q e (figures xs) (starved rows) r
      | ((rows, xs), none, s) =>
        match e.readScales p d nums s with
        | (.error (.fault st d0 d1), s) =>
          s.expandFault p q e (figures xs) (starved rows) (rows.map (·.1)) st d0 d1
        | (.error r, s) => s.expandWait p q e (figures xs) (starved rows) r
        | (.ok sc, s) =>
          let x := figures xs
          let s := (s.countMain p x (starved rows)).shareStall p 2
          s.dmaFinish p q { e with bales := x.record e.tag 0, seen := none } ((rows.map (·.1)).zip sc)
            (40 + rows.foldl (fun n r => n + r.2) 0)
    | (.error r, s) => s.withRd p q e r fun _ s => s
  else
    match e.needs s.fab.node (tSpace d) (rowRuns d nums) with
    | l :: r => s.readLines p q e (State.dmaCls e) (l :: r)
    | [] =>
      match e.readRows p d nums s with
      | (.error r, s) => s.withRd p q e r fun _ s => s
      | (.ok rows, s) => s.dmaFinish p q e rows (40 + tRows e.da * ceilDiv (tRowBytes e.da) 128)

def State.dmaGather (s : State) (p : PartId) (q : Nat) (e : QEntry) : State :=
  let n := tRows e.da
  if tCols e.da ≠ tCols e.db ∨ tFmt e.da ≠ tFmt e.db then s.shapeFault p q e 1
  else if tFmt e.dc ≠ 0 ∨ tElems e.dc < n then s.shapeFault p q e 2
  else
    let need := List.range (ceilDiv n (tCols e.dc))
    match e.needs s.fab.node (tSpace e.dc) (rowRuns e.dc need) with
    | l :: r => s.readLines p q e (State.dmaCls e) (l :: r)
    | [] =>
      match e.readRows p e.dc need s with
      | (.error r, s) => s.withRd p q e r fun _ s => s
      | (.ok rows, s) =>
        let nums := rowNumbers e.dc n rows
        match nums.find? fun i => tRows e.db ≤ i with
        | some i => s.instrFault p q e St.operandRange (tRowAt e.db i) (tSpace e.db)
        | none => s.gatherRun p q e nums

def execDmaGather (p : PartId) (a : Act) (s : State) : Res :=
  .next (s.engineRow p 0x11 a fun q e s => s.dmaGather p q e)

/-- DMA_FILL: byte k of each row takes byte k mod 8 of sA; padding and scales are not written. -/
def State.dmaFill (s : State) (p : PartId) (q : Nat) (e : QEntry) : State :=
  let b := wordBytes e.sa
  let row := (List.range (tRowBytes e.da)).map fun k => b.getD (k % 8) 0
  s.dmaFinish p q e (List.replicate (tRows e.da) (row, [])) (40 + ceilDiv (tRows e.da * tRowBytes e.da) 256)

def execDmaFill (p : PartId) (a : Act) (s : State) : Res :=
  .next (s.engineRow p 0x12 a fun q e s => s.dmaFill p q e)

/-! ## DMA_LDS, DMA_STS -/

/-- Whether the 8 bytes of a scalar transfer are aligned and inside their space. -/
def scalarOk (space a : Nat) : Bool :=
  decide (a % 8 = 0) && extentIn space a 8 && (space ≠ 2 || decide (a < 2 ^ 52))

def State.dmaLds (s : State) (p : PartId) (q : Nat) (e : QEntry) : State :=
  let space := iMode e.insn 1 0
  let a := e.sb.toNat
  if scalarOk space a = false then s.instrFault p q e St.operandRange a space
  else
    match e.read p space s a 8 with
    | (r, s) => s.withRd p q e r fun b s => (s.chargeBytes (s.shareOf p e.tag) 8).finish p q e 40 false (wordOf b)

def execDmaLds (p : PartId) (a : Act) (s : State) : Res :=
  .next (s.engineRow p 0x13 a fun q e s => s.dmaLds p q e)

/-- DMA_STS: a destination lies in hold SRAM or the state range (Table 4.6). -/
def State.dmaSts (s : State) (p : PartId) (q : Nat) (e : QEntry) : State :=
  let space := iMode e.insn 1 0
  let a := e.sb.toNat
  if space = 2 ∨ scalarOk space a = false then s.instrFault p q e St.operandRange a space
  else
    match s.spaceWrite p space a (wordBytes e.sa) with
    | (some x, s) => s.accErr p q e x
    | (none, s) => (s.dmaBytes p e.tag 8).finish p q e 40 (decide (space ≠ 0))

def execDmaSts (p : PartId) (a : Act) (s : State) : Res :=
  .next (s.engineRow p 0x14 a fun q e s => s.dmaSts p q e)

/-! ## ACCT_ADD, ACCT_RD (R337) -/

/-- DESIGN CHOICE: log 99. -/
def State.acctAdd (s : State) (p : PartId) (q : Nat) (e : QEntry) : State :=
  let kind := iMode e.insn 3 0
  if 8 ≤ kind ∨ 1024 ≤ e.tag then s.instrFault p q e St.operandRange e.tag 0
  else (s.meterAdd (mTenant (s.manifest p e.tag)) kind e.sa.toNat).finish p q e 24 true

def execAcctAdd (p : PartId) (a : Act) (s : State) : Res :=
  .next (s.engineRow p 0xB0 a fun q e s => s.acctAdd p q e)

def State.acctRd (s : State) (p : PartId) (q : Nat) (e : QEntry) : State :=
  let kind := iMode e.insn 3 0
  match tabFind s.meter.map (e.sb.toNat % 65536) with
  | some k =>
    if 8 ≤ kind ∨ 65536 ≤ e.sb.toNat then s.instrFault p q e St.operandRange e.sb.toNat 0
    else s.finish p q e 24 false (tabGet (fun _ => 0) s.meter.sets (k * 8 + kind))
  | none => s.instrFault p q e St.operandRange e.sb.toNat 0

def execAcctRd (p : PartId) (a : Act) (s : State) : Res :=
  .next (s.engineRow p 0xB1 a fun q e s => s.acctRd p q e)

/-! ## SIG_REMOTE (R91) -/

/-- The post leaves for a partition of the same job; every earlier instruction of the queue has retired, since this one
is at its head. No instruction of a partition adds to that partition's own g255 (R112). (DESIGN CHOICE: log 96) -/
def State.sigRemote (s : State) (p : PartId) (q : Nat) (e : QEntry) : State :=
  let t : PartId := Fin.ofNat 16 (iMode e.insn 3 0)
  let g := iMode e.insn 11 4
  let x := s.part t
  match x.curJob, s.jobOf p with
  | some j, some k =>
    if x.st ≠ .serving then s.instrFault p q e St.partOffline t.val 0
    else if j.val ≠ k then s.instrFault p q e St.operandRange t.val 0
    else
      let posts := if t = p ∧ g = 0xFF then s.remotePosts else s.remotePosts ++ [(t, j, g)]
      ({ s with remotePosts := posts }.perf p 27).finish p q e 2 true
  | _, _ => s.instrFault p q e St.partOffline t.val 0

def execSigRemote (p : PartId) (a : Act) (s : State) : Res :=
  .next (s.engineRow p 0xA3 a fun q e s => s.sigRemote p q e)

/-! ## SCATTER_KV, SCATTER_CHUNK (R161 to R163) -/

/-- Bytes of one position's keys and values in a page format. -/
def Geom.rowBytes (g : Geom) (f : Nat) : Nat := 2 * g.kv * (g.vec f + g.vecScales f)

/-- The page that a position falls in: its descriptor and its table's header; the descriptor is the one that an
allocation would write where the page is not there yet. -/
structure Target where
  hdr : PtHdr
  desc : Word
  fresh : Option Nat             -- pool slot to take
  deriving DecidableEq, Repr

/-- Find the page for position `pos` of a layer (R162, R217). -/
def State.scatterPage (s : State) (p : PartId) (g : Geom) (m : Manifest) (h : PtHdr) (layer pos : Nat) :
    Except Miss Target × State :=
  let j := (s.jobOf p).getD 0
  let page := pos / 256
  if h.pageCap ≤ page then (.error ⟨St.pagesExhausted, layer % 256 + page * 256, s.poolFree j⟩, s)
  else
    match s.readDesc p m h layer page with
    | (.error x, s) => (.error x, s)
    | (.ok d, s) =>
      if dValid d then
        if dShared d ∨ dParked d ∨ dAddr d / 2 ^ 42 ≠ s.fab.node.val then (.error ⟨St.operandRange, dAddr d, 1⟩, s)
        else if dCompressed d ∨ kvFmtOk (dFmt d) = false ∨ h.pageBytes < g.pageSize (dFmt d) then
          (.error ⟨St.descInvalid, d.toNat, 0⟩, s)
        else (.ok ⟨h, d, none⟩, s)
      else if h.pageBytes < g.pageSize g.kvFmt then (.error ⟨St.descInvalid, d.toNat, 0⟩, s)
      else
        match s.poolLowest j with
        | none => (.error ⟨St.pagesExhausted, layer % 256 + page * 256, s.poolFree j⟩, s)
        | some k =>
          let a := s.poolBase j + k * s.slotBytes j + s.fab.node.val * 2 ^ 42
          (.ok ⟨{ h with pages := max h.pages (page + 1) }, mkDesc a g.kvFmt 0, some k⟩, s)

/-- The writes that put one row into its page: address and bytes. -/
def scatterWrites (g : Geom) (d : Word) (t : Nat) (row : List Fl) : List (Nat × Bytes) :=
  let f := dFmt d
  let a := dAddr d % 2 ^ 42
  (List.range g.kv).flatMap fun h =>
    [false, true].flatMap fun v =>
      let x := encodeRow f ((row.drop ((if v then g.kv * g.d else 0) + h * g.d)).take g.d)
      (a + g.elemAt f h t v, x.1) :: (if x.2 = [] then [] else [(a + g.scaleAt f h t v, x.2)])

/-- Write one row at a position of a request: all of it, or nothing. The page's format is returned. -/
def State.scatterRow (s : State) (p : PartId) (g : Geom) (slot layer pos : Nat) (h : PtHdr) (row : List Fl) :
    Except Miss Nat × State :=
  let m := s.manifest p slot
  match s.scatterPage p g m h layer pos with
  | (.error x, s) => (.error x, s)
  | (.ok t, s) =>
    let ws := scatterWrites g t.desc (pos % 256) row
    let d := setFld t.desc 8 0 (dTokens t.desc + 1)
    let pt := mPtAddr m % 2 ^ 42
    let ws := ws ++ [(pt + descOff h.layers (pos / 256) layer, wordBytes d)] ++
      (if t.fresh.isSome then [(pt + 0x10, leBytes 4 t.hdr.pages)] else [])
    match ws.findSome? fun w => s.stCheck (s.jobOf p) w.1 w.2.length with
    | some x => (.error x.miss, s)
    | none =>
      let s := match t.fresh with | some k => s.poolTake ((s.jobOf p).getD 0) k | none => s
      let s := ws.foldl (fun s w => (s.stWrite (s.jobOf p) w.1 w.2).2) s
      (.ok (dFmt d), s)

/-- Consecutive rows of one request from position `pos` on; the page-format bytes of each row written are listed, last
first. -/
def State.scatterRows (p : PartId) (g : Geom) (slot layer : Nat) :
    List (List Fl) → Nat → List Nat → State → Option Miss × List Nat × State
  | [], _, c, s => (none, c, s)
  | row :: r, pos, c, s =>
    match s.ptHdr p (s.manifest p slot) with
    | (.error x, s) => (some x, c, s)
    | (.ok h, s) =>
      match s.scatterRow p g slot layer pos h row with
      | (.error x, s) => (some x, c, s)
      | (.ok f, s) => State.scatterRows p g slot layer r (pos + 1) (g.rowBytes f :: c) s

/-- Where a request's next position of a layer is, after the checks of R445. -/
def State.scatterStart (s : State) (p : PartId) (slot layer : Nat) : Except Miss Nat × State :=
  let m := s.manifest p slot
  match s.ptHdr p m with
  | (.error x, s) => (.error x, s)
  | (.ok h, s) =>
    if h.layers ≤ layer then (.error ⟨St.operandRange, mPtAddr m, 2⟩, s) else s.kvLen p m h layer

/-- Rows `rows` of dA for the request in `slot`: all of them, or, where it faults, none (R162); none either for a manifest
that fails its CRC (R59). The CLK_A of the rows written are returned. (DESIGN CHOICE: log 90) -/
def State.scatterSlot (s : State) (p : PartId) (g : Geom) (e : QEntry) (slot layer : Nat) (rows : List Nat) :
    Option Miss × Nat × State :=
  if mCrcOk (s.manifest p slot) = false then (none, 0, s.crcFailed p slot)
  else
  match s.scatterStart p slot layer with
  | (.error x, s) => (some x, 0, s)
  | (.ok pos, s) =>
    match e.readRows p e.da rows s with
    | (.error (.fault st d0 d1), s) => (some ⟨st, d0, d1⟩, 0, s)
    | (.error _, s) => (none, 0, s)
    | (.ok bs, s) =>
      match State.scatterRows p g slot layer (bs.map fun b => decodeRow (tFmt e.da) (tCols e.da) b.1 b.2) pos [] s with
      | (some x, _, s') => (some x, 0, { s' with mem := s.mem, pools := s.pools, mus := s.mus, tier := s.tier })
      | (none, l, s') =>
        (none, l.foldl (fun n b => n + ceilDiv b 128) 0, s'.dmaBytes p slot (l.foldl (fun n b => n + b) 0))

/-- The members of a SCATTER_KV, in row order. A far port that is down stops the instruction (R445). A row that is not
written costs what a row in the partition's own format costs (R95, R122). (DESIGN CHOICE: log 90) -/
def State.scatterMembers (p : PartId) (g : Geom) (q : Nat) (e : QEntry) (layer : Nat) :
    List (Nat × Nat) → Nat → State → Option Miss × Nat × State
  | [], c, s => (none, c, s)
  | (i, slot) :: r, c, s =>
    let idle := ceilDiv (g.rowBytes g.kvFmt) 128
    if (s.slot p slot).faulted then State.scatterMembers p g q e layer r (c + idle) s
    else
      match s.scatterSlot p g e slot layer [i] with
      | (some x, n, s) =>
        if x.status = St.cxlLinkDown then (some x, c + n, s)
        else State.scatterMembers p g q e layer r (c + idle) (s.slotFault p q e slot x.status x.d0 x.d1)
      | (none, n, s) => State.scatterMembers p g q e layer r (c + if n = 0 then idle else n) s

/-- The geometry a scatter took at its start (R156). -/
def State.geomOf (s : State) (p : PartId) (e : QEntry) : Geom := (e.att.map (·.geom)).getD (s.geom p)

/-- DESIGN CHOICE: log 97. -/
def State.scatterKv (s : State) (p : PartId) (q : Nat) (e : QEntry) : State :=
  let g := s.geomOf p e
  let n := e.sa.toNat
  if tCols e.da ≠ 2 * g.kv * g.d ∨ tRows e.da < s.cvCap p n then s.shapeFault p q e 0
  else
    let ms := s.cvMembers p n
    let live := ms.filter fun m => !(s.slot p m.2).faulted
    match e.needs s.fab.node (tSpace e.da) (rowRuns e.da (live.map (·.1))) with
    | l :: r => s.readLines p q e (State.dmaCls e) (l :: r)
    | [] =>
      match State.scatterMembers p g q e e.sb.toNat ms 0 s with
      | (some x, _, s) => s.instrFault p q e x.status x.d0 x.d1
      | (none, c, s) => s.finish p q e (32 + c) true

def execScatterKv (p : PartId) (a : Act) (s : State) : Res :=
  .next (s.engineRow p 0x43 a fun q e s => s.scatterKv p q e)

/-- Whether a SCATTER_CHUNK counts for the mix budget: layer 0, on a GENERATE partition (R200). -/
def State.mixCounts (s : State) (p : PartId) (e : QEntry) : Bool :=
  decide ((s.part p).role = .generate) && decide (e.sb = 0)

/-- Whether a SCATTER_CHUNK would take its partition beyond the mix budget (R200). -/
def State.mixOver (s : State) (p : PartId) (e : QEntry) : Bool :=
  s.mixCounts p e && decide (s.regFld (ptBase p + 0x5028) 11 0 < (s.part p).mixRows + tRows e.da)

/-- Start of a SCATTER_CHUNK: its shape is checked, its rows are counted against the mix budget, and the geometry is fixed
in its entry (R156, R199, R200). -/
def State.chunkStart (s : State) (p : PartId) (q : Nat) (e : QEntry) : State :=
  let g := s.geom p
  if tCols e.da ≠ 2 * g.kv * g.d ∨ 2048 < tRows e.da then s.shapeFault p q e 0
  else if s.mixOver p e then (s.addReg (ptBase p + 0x5058) 1).instrFault p q e St.operandRange (tAddr e.da) (tSpace e.da)
  else
    let s := if s.mixCounts p e then s.modPart p fun x => { x with mixRows := x.mixRows + tRows e.da } else s
    s.setEntryOf p q { e with att := some ⟨g, (s.part p).presentCores, [], []⟩ }

/-- The head of the DMA queue, where it is a scatter that has just started, takes what it takes at its start. -/
def State.scatterCapture (s : State) (p : PartId) (q : Nat) : State :=
  match s.head p q with
  | some e =>
    if e.phase ≠ .running ∨ e.att.isSome then s
    else if iOp e.insn = 0x43 then s.setEntryOf p q { e with att := some ⟨s.geom p, (s.part p).presentCores, [], []⟩ }
    else if iOp e.insn = 0x44 then s.chunkStart p q e
    else s
  | none => s

/-- The rows of a SCATTER_CHUNK that has started. -/
def State.chunkRows (s : State) (p : PartId) (q : Nat) (e : QEntry) : State :=
  let rows := List.range (tRows e.da)
  match e.needs s.fab.node (tSpace e.da) (rowRuns e.da rows) with
  | l :: r => s.readLines p q e (State.dmaCls e) (l :: r)
  | [] =>
    match s.scatterSlot p (s.geomOf p e) e e.sa.toNat e.sb.toNat rows with
    | (some x, _, s) => s.accessFault p q e x.status x.d0 x.d1
    | (none, c, s) => s.finish p q e (32 + c) true

/-- SCATTER_CHUNK. One started in a state that kept nothing of its start takes it now. (DESIGN CHOICE: log 90) -/
def State.scatterChunk (s : State) (p : PartId) (q : Nat) (e : QEntry) : State :=
  if e.att.isSome then s.chunkRows p q e
  else
    let s := s.chunkStart p q e
    match s.head p q with
    | some e => if e.phase = .running ∧ e.att.isSome then s.chunkRows p q e else s
    | none => s

def execScatterChunk (p : PartId) (a : Act) (s : State) : Res :=
  .next (s.engineRow p 0x44 a fun q e s => s.scatterChunk p q e)

end Sys2Proof.Machine
end

