-- ==== Sys2Proof/Machine/Matrix.lean ====
section
/-! DEFINITION. The matrix opcodes (R125, R138 to R148) and the withdrawal of a matrix unit (R141). -/

namespace Sys2Proof.Machine

/-! ## Operands (R145, Table 5.6) -/

/-- Twice the rate factor r of a weight format (Table 5.3). -/
def rate2 (f : Nat) : Nat := if f = 8 then 4 else if f = 1 ∨ f = 2 then 1 else 2

/-- The format in which the operand port feeds an activation to the cells, and whether the port converts it under
R144; none for a pairing that Table 5.6 does not give. -/
def portFormat (wf af : Nat) : Option (Nat × Bool) :=
  if wf = 3 ∨ wf = 4 ∨ wf = 6 ∨ wf = 7 ∨ wf = 8 then
    if af = 3 ∨ af = 4 ∨ af = 6 ∨ af = 7 ∨ af = 8 then some (af, false)
    else if af ≤ 2 then some (3, true)
    else none
  else if wf = 5 then (if af = 5 then some (5, false) else none)
  else if wf = 1 then (if af = 1 ∨ af = 0 then some (1, false) else none)
  else if wf = 2 then (if af = 2 ∨ af = 0 then some (2, false) else none)
  else none

/-- A block of at most 32 decoded elements with its scale exponent; none makes every element NaN (R143). -/
abbrev Blk := Option Int × List Fl

/-- The blocks of a stored row. -/
def blockRow (f n : Nat) (b scales : Bytes) : List Blk :=
  let bs := blocks32 (n / 32 + 1) (rawRow f n b)
  if fmtBlock f then (bs.zip scales).map fun x => (scaleExp x.2, x.1) else bs.map fun x => (some 0, x)

/-- The blocks the operand port feeds from an activation row (Table 5.6). -/
def portRow (wf af n : Nat) (b scales : Bytes) : List Blk :=
  match portFormat wf af with
  | some (f, true) =>
    (blocks32 (n / 32 + 1) (rawRow af n b)).map fun x =>
      let c := convertBlock f x
      (scaleExp c.1, c.2.map (decodeElem f))
  | some (f, false) =>
    if f = af then blockRow af n b scales
    else (blocks32 (n / 32 + 1) (rawRow af n b)).map fun x => (some 0, x.map fun y => decodeElem f (encodeElem f y))
  | none => []

/-! ## Accumulation -/

def sumExact (l : List Fl) : Fl := l.foldl Fl.addX .zero

/-- Sum of products in the 40-bit window (R147): each finite product is cut toward zero at 2^(E − 40), where 2^E is
the binade of the largest. -/
def windowSum (l : List Fl) : Fl :=
  if l.any fun x => !x.isFin then sumExact l
  else
    match maxAbs l with
    | .fin _ m e =>
      if m = 0 then sumExact l
      else
        let u : Int := e + (Nat.log2 m : Int) - 40
        let v := l.map fun x => match x with
          | .fin n m e => let i : Int := natShift m (e - u); if n then -i else i
          | _ => 0
        .ofInt v.sum u
    | _ => .nan

/-- The dot product of two blocks, their scales applied (R146, R147). -/
def blockDot (window : Bool) (a w : Blk) : Fl :=
  match a.1, w.1 with
  | some x, some y =>
    let ps := List.zipWith Fl.mulX a.2 w.2
    (if window then windowSum ps else sumExact ps).scale (x + y)
  | _, _ => .nan

/-- A K range: blocks added in order to an FP32 accumulator, one rounding each. -/
def accBlocks (window : Bool) (a w : List Blk) (start : Fl) : Fl :=
  (a.zip w).foldl (fun acc x => round32 (acc.addX (blockDot window x.1 x.2))) start

/-- The ends of `r` consecutive ranges of `n` blocks; R139 gives their number and not where they are cut.
(DESIGN CHOICE: log 20) -/
def kEnds (n r : Nat) : Nat → Nat → List Nat
  | 0, _ => []
  | k + 1, prev =>
    let e := if k = 0 then n else min n (max prev (Config.kCut n r (r - k)))
    e :: kEnds n r k e

/-- Number of K ranges for M output rows: as many as the unit's 96 cell rows can hold (R139). The present units share out
columns, so each of them has all M rows, however many they are. (DESIGN CHOICE: log 20) -/
def kRanges (m : Nat) : Nat := max 1 (96 / max 1 m)

/-- One output element: the K ranges' sums, added in increasing range order; range 0 starts at `start`. -/
def dotRow (window : Bool) (m : Nat) (a w : List Blk) (start : Fl) : Fl :=
  let n := a.length
  let ends := kEnds n (kRanges m) (kRanges m) 0
  let sums := (ends.zip (0 :: ends)).zipIdx.map fun x =>
    let lo := x.1.2
    let k := x.1.1 - lo
    accBlocks window ((a.drop lo).take k) ((w.drop lo).take k) (if x.2 = 0 then start else .zero)
  match sums with
  | [] => start
  | b :: r => r.foldl f32add b

/-! ## MX_GEMM -/

def mxOut (w : InsnWord) : Nat := fld w 1 0
def mxAcc (w : InsnWord) : Bool := bitOf w 2

/-- The first operand that breaks R145, for `n` rows of weights that count. -/
def gemmBad (e : QEntry) : Option Nat :=
  firstBad [
    (1, (portFormat (tFmt e.dc) (tFmt e.db)).isSome && decide (tCols e.db % 32 = 0)),
    (2, decide (tCols e.dc = tCols e.db) && decide (tFmt e.dc ≠ 0)),
    (0, decide (tRows e.da = tRows e.db) && decide (tCols e.da = tRows e.dc) &&
      decide (tFmt e.da = mxOut e.insn) && (!mxAcc e.insn || decide (mxOut e.insn = 0)))]

/-- The product dB · dCᵀ for weight rows given as blocks, `lo` being the output column of the first; with ACC the
accumulators start at dA's values. Rows of FP32 values. -/
def State.gemmRows (s : State) (p : PartId) (e : QEntry) (lo : Nat) (ws : List (List Blk)) : List (List Fl) :=
  let m := tRows e.db
  let window := decide (tFmt e.dc = 1 ∨ tFmt e.dc = 2)
  (List.range m).map fun i =>
    let a := portRow (tFmt e.dc) (tFmt e.db) (tCols e.db) (s.hsRead p (tRowAt e.db i) (tRowBytes e.db))
      (s.hsRead p (tScaleAt e.db i) (tScaleBytes e.db))
    let old := if mxAcc e.insn then (s.tensorRow p e.da i).drop lo else []
    ws.zipIdx.map fun w => dotRow window m a w.1 (old.getD w.2 .zero)

/-- Output column `c` is computed by the present unit number (c div 96) mod u (assumption log 23). -/
def unitOfColumn (u c : Nat) : Nat := c / 96 % max 1 u

/-- Logical numbers of the present matrix units. -/
def State.mxUnits (s : State) (p : PartId) : List Nat := (List.range 4).filter fun u => bitOf (s.mxPresentMask p) u

/-- Bales that hold the image bytes of some rows of a tensor, rising. -/
def balesOfRows (d : Desc) (rows : List Nat) : List Nat := balesOfRuns (rows.map fun r => (r * tStride d, tRowBytes d))

/-- The weight rows of a plain operand in hold SRAM. -/
def State.plainWeights (s : State) (p : PartId) (d : Desc) : List (List Blk) :=
  (List.range (tRows d)).map fun j =>
    blockRow (tFmt d) (tCols d) (s.hsRead p (tRowAt d j) (tRowBytes d)) (s.hsRead p (tScaleAt d j) (tScaleBytes d))

/-- The weight rows of a compressed operand, expanded at the ports of the matrix units (R216), or what stopped it;
with the bales decoded, one by one. -/
def State.portWeights (s : State) (p : PartId) (d : Desc) : Except Rd (List (List Blk) × List (Nat × Expanded)) :=
  let m := imageOfDesc d
  match storedBytes (State.rdHold p) m s with
  | (.ok false, _) => .error (.fault St.operandRange m.addr m.space)
  | (.ok true, _) =>
    match expandSet (State.rdHold p) m (balesOfRows d (List.range (tRows d))) s with
    | (_, some r, _) => .error r
    | (xs, none, _) =>
      .ok ((List.range (tRows d)).map fun j =>
        blockRow (tFmt d) (tCols d) (imageFrom xs (j * tStride d) (tRowBytes d))
          (s.hsRead p (tScaleAt d j) (tScaleBytes d)), xs)
  | (.error r, _) => .error r

/-- The bales that the ports decode before the one that stops them. -/
def State.portDecoded (s : State) (p : PartId) (d : Desc) : List (Nat × Expanded) :=
  match storedBytes (State.rdHold p) (imageOfDesc d) s with
  | (.ok true, _) => (expandSet (State.rdHold p) (imageOfDesc d) (balesOfRows d (List.range (tRows d))) s).1
  | _ => []

/-- What the units' expansions count: each unit decodes the bales of its own columns; one completion record, naming
the lowest unit that met an affected bale (R216, R220). (DESIGN CHOICE: log 23; DESIGN CHOICE: log 37) -/
def State.portCount (s : State) (p : PartId) (d : Desc) (xs : List (Nat × Expanded)) : State × List BaleSum :=
  let units := s.mxUnits p
  let of := fun k => balesOfRows d ((List.range (tRows d)).filter fun c => unitOfColumn units.length c = k)
  let s := (List.range units.length).foldl (fun s k =>
    (of k).foldl (fun s i => match xs.find? fun x => x.1 = i with | some x => s.countBales p x.2 | none => s) s) s
  let bad := xs.filter fun x => x.2.first.isSome
  match bad with
  | [] => (s, [])
  | b :: _ =>
    let unit := (List.range units.length).find? fun k => (of k).any fun i => bad.any fun x => x.1 = i
    (s, [{ tag := 0, unit := 1 + units.getD (unit.getD 0) 0, exceeding := (bad.map fun x => x.2.exceeding).sum,
           short := (bad.map fun x => x.2.short).sum, first := b.1 }])

/-- The cycles that matrix units waited on their expanders in one instruction (R219): a free value.
(DESIGN CHOICE: log 37) -/
def State.portWaits (s : State) (p : PartId) : State :=
  ({ s with freeCount := s.freeCount + 1 }).addReg (ptBase p + 0x7040) (Config.portWait s.freeCount)

/-- MX_GEMM. With no present matrix unit there is nothing to compute it: it stays as it is. (DESIGN CHOICE: log 25) -/
def execMxGemm (p : PartId) (a : Act) (s : State) : Res :=
  .next (s.engineRow p 0x20 a fun q e s =>
    let u := s.mxPresent p
    match gemmBad e with
    | some i => s.shapeFault p q e i
    | none =>
      if u = 0 then s
      else
        let cost := 96 + ceilDiv (2 * tRows e.db * tRows e.dc * tCols e.db) (9216 * u * rate2 (tFmt e.dc))
        if tCompressed e.dc then
          match s.portWeights p e.dc with
          | .ok (ws, xs) =>
            let rows := s.gemmRows p e 0 ws
            let c := s.portCount p e.dc xs
            let recs := c.2.map fun b => { b with tag := e.tag }
            let t := c.1
            ((t.portWaits p).putTensor p e.da rows).finish p q { e with bales := recs } cost false
          | .error (.fault st d0 d1) =>
            let xs := s.portDecoded p e.dc
            let c := s.portCount p e.dc xs
            let t := if xs = [] then c.1 else c.1.portWaits p
            t.instrFault p q { e with bales := c.2.map fun b => { b with tag := e.tag } } st d0 d1
          | .error _ => s
        else (s.putTensor p e.da (s.gemmRows p e 0 (s.plainWeights p e.dc))).finish p q e cost false)

/-! ## MX_LORA (R75, R203, Table 4.11) -/

/-- The rows of an adapter matrix in the state range: elements row by row, the block scales after all of them
(R203). -/
def State.adMatrix (s : State) (job : Option Nat) (f a rows cols : Nat) : Except AccErr (List (List Blk)) × State :=
  let rb := ceilDiv (cols * fmtBits f) 8
  let sb := if fmtBlock f then ceilDiv cols 32 else 0
  match s.stRead job a (rows * (rb + sb)) with
  | (.ok b, s) =>
    (.ok ((List.range rows).map fun i =>
      blockRow f cols ((b.drop (i * rb)).take rb) ((b.drop (rows * rb + i * sb)).take sb)), s)
  | (.error x, s) => (.error x, s)

/-- One member's low-rank update of its row: the product of the up matrix with the product of the down matrix and the
activation row, both accumulated as a matrix unit does (assumption log 24). -/
def loraRow (f af : Nat) (k rank : Nat) (act scales : Bytes) (down up : List (List Blk)) (old : List Fl) : List Fl :=
  let window := decide (f = 1 ∨ f = 2)
  let x := portRow f af k act scales
  let h := down.map fun w => dotRow window 96 x w .zero
  let hb := (encodeRow 0 h).1
  let y := portRow f 0 rank hb []
  List.zipWith (fun w o => dotRow window 96 y w o) up old

/-- The outcome of one member's row. -/
structure LoraStep where
  s : State
  cost : Nat
  seen : List (Nat × Nat)
  stop : Option (Status × Nat × Nat)

/-- Apply the update of one member: row `i` of dA and dB, the request in `slot`. A manifest that fails its CRC ends the
request FAILED (R59), and its row stands. (DESIGN CHOICE: log 24) -/
def loraMember (p : PartId) (q : Nat) (e : QEntry) (x : LoraStep) (i slot : Nat) : LoraStep :=
  let s := x.s
  let m := s.manifest p slot
  if x.stop.isSome then x
  else if mCrcOk m = false then { x with s := s.crcFailed p slot }
  else if mFlag m flAdapter = false then x
  else
    let job := s.jobOf p
    match s.adResolve (mAdapter m) (mAdapterGen m) with
    | none => { x with s := s.slotFault p q e slot St.adapterPending (mAdapter m + mAdapterGen m * 65536) 0 }
    | some (k, ad) =>
      let bad := fun (r : AccErr) (s : State) =>
        if r.status = St.cxlLinkDown then { x with s := s, stop := some (r.status, r.addr, r.detail1) }
        else { x with s := s.slotFault p q e slot r.status r.addr r.detail1 }
      match s.stRead job (ad.addr + 32 * e.sa.toNat) 32 with
      | (.error r, s) => bad r s
      | (.ok d, s) =>
        let kk := leAt d 16 4
        let nn := leAt d 20 4
        if kk = 0 then { x with s := s }
        else if kk ≠ tCols e.db ∨ nn ≠ tCols e.da ∨ (portFormat ad.fmt (tFmt e.db)).isNone then
          { x with s := s, stop := some (St.descInvalid, (e.db.setWidth 64 : Word).toNat, 1 + 256 * 7) }
        else
          match s.adMatrix job ad.fmt (ad.addr + leAt d 0 8) ad.rank kk with
          | (.error r, s) => bad r s
          | (.ok down, s) =>
            match s.adMatrix job ad.fmt (ad.addr + leAt d 8 8) nn ad.rank with
            | (.error r, s) => bad r s
            | (.ok up, s) =>
              let row := loraRow ad.fmt (tFmt e.db) kk ad.rank (s.hsRead p (tRowAt e.db i) (tRowBytes e.db))
                (s.hsRead p (tScaleAt e.db i) (tScaleBytes e.db)) down up (s.tensorRow p e.da i)
              { s := s.putRow p e.da i row, cost := x.cost + ad.rank * (kk + nn) * (4 / rate2 ad.fmt),
                seen := if x.seen.contains (mAdapter m, k) then x.seen else (mAdapter m, k) :: x.seen, stop := none }

/-- MX_LORA: dA must be FP32 and, with dB, hold at least the convoy's CAP rows.
(DESIGN CHOICE: log 24; DESIGN CHOICE: log 25) -/
def execMxLora (p : PartId) (a : Act) (s : State) : Res :=
  .next (s.engineRow p 0x21 a fun q e s =>
    let cv := e.convoy.getD 0
    let cap := s.cvCap p cv
    let u := s.mxPresent p
    match firstBad [(0, decide (tFmt e.da = 0) && decide (cap ≤ tRows e.da)), (1, decide (cap ≤ tRows e.db))] with
    | some i => s.shapeFault p q e i
    | none =>
      if 32 ≤ e.sa.toNat then s.instrFault p q e St.operandRange e.sa.toNat 0
      else if u = 0 then s
      else
        let r := (s.cvMembers p cv).foldl (fun x m => loraMember p q e x m.1 m.2) ⟨s, 0, [], none⟩
        match r.stop with
        | some (st, d0, d1) => r.s.instrFault p q e st d0 d1
        | none => r.s.finish p q e (96 + 128 * r.seen.length + ceilDiv r.cost (2 * 9216 * u)) false)

/-! ## Withdrawal in service (R141) -/

/-- A parity error withdraws the unit at once: a compute-class event; the instruction running does not fault. -/
def execMxUnitParityError (p : PartId) (u : Fin 4) (s : State) : Res :=
  .next (s.ifClocked (
    if bitOf (s.mxPresentMask p) u.val then
      ((s.setRegFld (ptBase p + 0x2000) u.val u.val 1).addReg (ptBase p + 0x2008) 1).raise Ev.mxWithdrawn St.ok p.val u.val
    else s))

end Sys2Proof.Machine
end

