-- ==== Sys2Proof/Machine/Tiers.lean ====
section
/-! DEFINITION. The memory tiers (chapter 9): state page table commands, migration, the tier opcodes, the MU links and
the CXL ports. -/

namespace Sys2Proof.Machine

/-! ## Frames for a move (R238, R327) -/

/-- The lowest free frame in the first of the given MUs that has one, the MUs in rising order. -/
def State.freeInMus (s : State) (mus : List Nat) : Option Nat :=
  mus.findSome? fun m => s.lowestFree false (2048 * m) 2048

def rising (l : List Nat) : List Nat := l.foldl (fun a k => insertRising k a) []

/-- The near frame a move takes: in the MUs of partition `p`, then in the other MUs of its bank die, then in any; `p`
is none where the page's job has no partition. (DEDUCED: log 67) -/
def State.nearTarget (s : State) (p : Option Nat) : Option Nat :=
  let all := List.range 32
  match p with
  | none => s.freeInMus all
  | some p =>
    let own := rising (s.partMus p)
    let die := all.filter fun m => decide (m / 8 = p / 4) && !own.contains m
    let rest := all.filter fun m => decide (m / 8 ≠ p / 4)
    (s.freeInMus own).or ((s.freeInMus die).or (s.freeInMus rest))

/-- Whether every port of an interleave group lies in a job's CXL_MASK (R327). -/
def State.groupInMask (s : State) (g job : Nat) : Bool :=
  (groupPorts s.ways g).all fun k => bitOf (BitVec.ofNat 24 (s.jobCxlMask job)) k

/-- The far frame a move takes: the lowest free one of a present group of the job's slice. (DEDUCED: log 67) -/
def State.farTarget (s : State) (job : Nat) : Option Nat :=
  let n := 49152 * s.ways
  (List.range s.farGroups).findSome? fun g =>
    if s.groupPresent g && s.groupInMask g job then s.lowestFree true (g * n) n else none

/-! ## Watermarks (Table 9.5) -/

def State.nearLow (s : State) : Nat := s.regFld 0x208000 15 0
def State.nearHigh (s : State) : Nat := s.regFld 0x208000 31 16

/-- Demotion of FAR pages begins below NEAR_LOW_WM and ends at NEAR_HIGH_WM. -/
def State.watermarks (s : State) : State :=
  { s with tier := { s.tier with
      demoting := decide (s.nearFree < s.nearLow) || (s.tier.demoting && decide (s.nearFree < s.nearHigh)) } }

/-! ## State page table commands (R235, Table 9.4) -/

def mapA : Nat := 0x208018

def State.mapBusy (s : State) : Bool := s.regBit 0x208020 31

/-- A command ends with a status. -/
def State.mapDone (s : State) (st : Status) : State :=
  ((s.setRegFld 0x208020 31 31 0).setRegFld 0x208020 47 32 st.toNat).watermarks

def eReservedZero (e : Word) : Bool := decide (fld e 54 52 = 0) && decide (fld e 47 21 = 0)

/-- What both MAP rows ask of TIER_MAP_B, with R327. -/
def State.mapOk (s : State) (b : Word) : Bool :=
  decide (eHint b ≤ 4) && eReservedZero b &&
    (!eFar b || s.groupInMask (s.groupOf (eFrame b)) (eJob b))

/-- What the first MAP row asks: a page below the end of the state range (R68) and not mapped, and a frame that is free, in
range and not reserved. -/
def State.mapNewOk (s : State) (page : Nat) (b : Word) : Bool :=
  decide (page * 2 ^ 21 < stateEnd) && s.mapOk b && !eValid (s.entry page) && eValid b && decide (eTier b ≤ 1) && !eMigrating b && !ePoisoned b &&
    !s.frameUsed (eFar b) (eFrame b)

/-- Write a new entry; the page's accessed bit is clear from now on. -/
def State.mapNew (s : State) (page : Nat) (b : Word) : State :=
  let s := s.setEntry page b
  { s with tier := { s.tier with lastSet := tabSet (fun _ => 0) s.tier.lastSet page s.tier.samples
                                 accessed := s.tier.accessed.filter (· ≠ page) } }

/-- UNMAP's effect. -/
def State.unmapPage (s : State) (page : Nat) : State :=
  (s.setEntry page 0).mapDone St.ok

/-- A command of TIER_MAP_A for OP `op`: the write is ignored while a command is being handled. (DEDUCED: log 91) -/
def State.mapCommand (s : State) (op : Nat) (a : Word) (f : Nat → State → State) : State :=
  if fld a 63 62 ≠ op ∨ s.mapBusy then s
  else f (fld a 20 0) (s.setReg mapA (setFld (setFld (s.reg mapA) 63 62 op) 20 0 (fld a 20 0)))

/-- OP 0: MAP. -/
def State.mapPage (s : State) (a : Word) : State :=
  s.mapCommand 0 a fun page s =>
    let b := s.reg 0x208010
    let e := s.entry page
    if eValid e then
      if s.mapOk b ∧ eTier b = eTier e ∧ eFrame b = eFrame e then
        (s.setEntry page (setFld (setFld (setFld e 59 57 (eHint b)) 56 56 (b2n (ePinned b))) 51 48 (eJob b))).mapDone St.ok
      else s.mapDone St.operandRange
    else if s.mapNewOk page b then (s.mapNew page b).mapDone St.ok
    else s.mapDone St.operandRange

def execMap (a : Word) (s : State) : Res := .next (s.ifReady (s.mapPage a))

/-- OP 1: UNMAP; while the page moves the command stays BUSY, and the end of the move ends it. -/
def State.mapUnmap (s : State) (a : Word) : State :=
  s.mapCommand 1 a fun page s =>
    if eValid (s.entry page) = false then s.mapDone St.operandRange
    else if s.tier.moves.any fun m => m.page = page then s.setRegFld 0x208020 31 31 1
    else s.unmapPage page

def execUnmap (a : Word) (s : State) : Res := .next (s.ifReady (s.mapUnmap a))

/-- OP 2: CLEAR_POISON. -/
def State.mapClear (s : State) (a : Word) : State :=
  s.mapCommand 2 a fun page s =>
    let e := s.entry page
    if eValid e then (s.setEntry page (setFld e 55 55 0)).mapDone St.ok else s.mapDone St.operandRange

def execClearPoison (a : Word) (s : State) : Res := .next (s.ifReady (s.mapClear a))

/-- OP 3: MAP_ZERO. Its writes to a far group that is down fail with CXL_LINK_DOWN, and nothing is mapped (R246).
(DEDUCED: log 91) -/
def State.mapZero (s : State) (a : Word) : State :=
  s.mapCommand 3 a fun page s =>
    let b := s.reg 0x208010
    if s.mapNewOk page b = false then s.mapDone St.operandRange
    else if eFar b ∧ s.groupUp (s.groupOf (eFrame b)) = false then s.mapDone St.cxlLinkDown
    else ((s.zeroFrame (eFar b) (eFrame b)).mapNew page b).mapDone St.ok

def execMapZero (a : Word) (s : State) : Res := .next (s.ifReady (s.mapZero a))

/-- The command that a write of TIER_MAP_A issues. -/
def State.tierMapA (s : State) (a : Word) : State :=
  match fld a 63 62 with
  | 0 => s.mapPage a
  | 1 => s.mapUnmap a
  | 2 => s.mapClear a
  | _ => s.mapZero a

/-- An UNMAP that waited for the move of its page goes on. -/
def State.unmapWaiting (s : State) (page : Nat) : State :=
  if s.mapBusy ∧ fld (s.reg mapA) 63 62 = 1 ∧ fld (s.reg mapA) 20 0 = page then s.unmapPage page else s

/-! ## Moves (R239, R240) -/

/-- Whether the engine that carries a move is free: eight moves at port die E, one on each bank die.
(DEDUCED: log 67) -/
def State.moverFree (s : State) (die : Option Nat) : Bool :=
  decide ((s.tier.moves.filter fun m => m.die = die).length < if die.isNone then 8 else 1)

/-- A migration engine begins a move: MIGRATING is set and pass 1 copies every block. -/
def State.beginMove (s : State) (page : Nat) (e : Word) (far : Bool) (frame : Nat) (die : Option Nat)
    (who : Option (PartId × Nat)) : State :=
  let s := s.setEntry page (setFld e 60 60 1)
  { s with tier := { s.tier with moves := s.tier.moves ++
      [{ page := page, die := die, farSrc := eFar e, farDst := far, src := eFrame e, dst := frame, pass := 1,
         dirty := [], copying := List.range 512, held := [], by_ := who }] } }

/-- The waiting TIER_MOVE that asked for a move. -/
def State.mover (s : State) (m : Move) : Option (PartId × QEntry) :=
  match m.by_ with
  | none => none
  | some (p, uid) => (((s.drv p).queue 8).find? fun e => e.uid = uid ∧ e.phase = .waiting).map fun e => (p, e)

def State.endMove (s : State) (page : Nat) : State :=
  { s with tier := { s.tier with moves := s.tier.moves.filter fun m => m.page ≠ page } }

/-- The writes that pass 5 held are performed, in a frame; the time they were held is counted (R240). Those to a far group
that is down are lost with it (R246). (DEDUCED: log 69) -/
def State.releaseHeld (s : State) (m : Move) (far : Bool) (frame : Nat) : State :=
  let s := s.addReg 0x208058 (m.held.map fun h => s.now - h.came).sum
  m.held.foldl (fun s h =>
    let d := frameByte s.ways far frame h.off
    if far ∧ s.groupUp (s.groupOf frame) = false then s
    else s.placeWrite far d.1 (frameKey s.ways far frame h.off) h.data) s

/-- A move is abandoned: the entry keeps its old frame and the target frame is free again. A TIER_MOVE that asked for
it faults for the block `b` that failed, at the MU or port `unit`; an autonomous move is counted (R240, R246, R398).
(DEDUCED: log 67) -/
def State.abandonMove (s : State) (m : Move) (b unit : Nat) (st : Status) : State :=
  let s := (s.endMove m.page).setEntry m.page (setFld (s.entry m.page) 60 60 0)
  let a := m.page * 2 ^ 21 + b * 4096
  let s := s.releaseHeld m m.farSrc m.src
  let s := match m.by_ with
    | none => s.addReg 0x208068 1
    | some _ =>
      match s.mover m with
      | some (p, e) => s.accErr p 8 e ⟨st, a, unit⟩
      | none => s
  (s.unmapWaiting m.page).watermarks

/-- One page of a TIER_MOVE is dealt with: the next one follows, or the instruction is done. (DEDUCED: log 67) -/
def State.tierNext (s : State) (p : PartId) (e : QEntry) (cost : Nat) : State :=
  let e := { e with sentN := e.sentN + 1, cost := e.cost + cost }
  if e.sentN = e.sb.toNat then s.finish p 8 { e with phase := .running } (64 + e.cost) true
  else s.setEntryOf p 8 { e with phase := .running, committed := true }

/-- CLK_A per page of a move (Table 4.15). -/
def pageClk (farSrc farDst : Bool) : Nat := if farSrc || farDst then 104858 else 16384

/-- CLK_A per block copied again (R240). -/
def blockClk (m : Move) : Nat := if m.farSrc || m.farDst then 205 else 32

/-- The switch: FRAME and TIER are written and MIGRATING cleared; the old frame waits for the accesses begun before.
(DEDUCED: log 69) -/
def State.switchMove (s : State) (m : Move) : State :=
  let e := s.entry m.page
  let e := setFld (setFld (setFld e 20 0 m.dst) 62 61 (b2n m.farDst)) 60 60 0
  let s := (s.endMove m.page).setEntry m.page e
  let s := { s with tier := { s.tier with oldFrames := s.tier.oldFrames ++ [(m.farSrc, m.src)] } }
  let s := s.releaseHeld m m.farDst m.dst
  let s := match m.by_ with
    | none => s.addReg 0x208048 1
    | some _ =>
      let s := s.addReg 0x208040 1
      match s.mover m with
      | some (p, e) => s.tierNext p e (pageClk m.farSrc m.farDst)
      | none => s
  (s.unmapWaiting m.page).watermarks

/-- Poison met while blocks are copied (R240): the first block that holds it. -/
def State.movePoison (s : State) (m : Move) : Option Nat :=
  let v := if m.farSrc then s.mem else s.muView (m.src / 2048)
  m.copying.find? fun b => v.anyPoison m.farSrc (frameKey s.ways m.farSrc m.src (b * 4096)) 4096

/-- The pass after one that left `n` blocks dirty: their copying is counted and charged. (DEDUCED: log 69) -/
def State.nextPass (s : State) (m : Move) : State :=
  let n := m.dirty.length
  let s := s.addReg 0x208050 n
  let m' := { m with pass := m.pass + 1, copying := m.dirty, dirty := [] }
  let s := { s with tier := { s.tier with moves := s.tier.moves.map fun (x : Move) => if x.page = m.page then m' else x } }
  match s.mover m with
  | some (p, e) => s.setEntryOf p 8 { e with cost := e.cost + n * blockClk m }
  | none => s

/-- A copy pass ends: the switch where no block is dirty or pass 5 is done, else the next pass. (DEDUCED: log 69) -/
def State.passEnd (s : State) (page : Nat) : State :=
  match s.tier.moves.find? fun m => m.page = page with
    | none => s
    | some m =>
      match s.movePoison m with
      | some b =>
        let e := s.entry m.page
        let unit := (frameByte s.ways m.farSrc m.src (b * 4096)).1
        let pl : Place := ⟨m.farSrc, m.src, frameKey s.ways m.farSrc m.src (b * 4096), unit, e⟩
        (s.poisonHit (m.page * 2 ^ 21 + b * 4096) pl).abandonMove m b unit St.cxlPoison
      | none =>
        let s := s.copyBlocks m.farSrc m.src m.farDst m.dst m.copying
        if m.dirty = [] ∨ m.pass = 5 then s.switchMove m else s.nextPass m

def execMigrationPassEnd (page : BitVec 21) (s : State) : Res := .next (s.passEnd page.toNat)

/-- The old frame of a moved page is free again. An NB instruction that reads it counts as one access begun at its
start, so the frame stays until that instruction retires. (DEDUCED: log 69) -/
def State.nbReads (s : State) (far : Bool) (f : Nat) : Bool :=
  !far && (List.range 16).any fun p => [6, 7].any fun q =>
    match (vget s.parts p Part.reset).drv.queue q |>.head? with
    | some e => (e.phase = .running || e.phase = .done) && (iOp e.insn = 0x80 || iOp e.insn = 0x83) &&
        decide (s.driven p (q - 6) = some (f / 2048))
    | none => false

/-- An access that began before the switch still waits at the frame's MU (R240, R261). -/
def State.accessWaits (s : State) (far : Bool) (f : Nat) : Bool :=
  let x := s.mu (f / 2048)
  !far && (x.held ++ x.parked).any fun e =>
    match e.acc with
    | .read d _ => decide (d / 2 ^ 21 = f % 2048)
    | .write d _ => decide (d / 2 ^ 21 = f % 2048)

/-- DEDUCED: log 69. -/
def execOldFrameRelease (tierBit : Bool) (frame : Nat) (s : State) : Res :=
  .next (
    if s.nbReads tierBit frame || s.accessWaits tierBit frame then s
    else State.watermarks { s with tier := { s.tier with oldFrames := s.tier.oldFrames.erase (tierBit, frame) } })

/-! ## Autonomous moves (R236, R237, Table 9.5) -/

/-- A page an engine may move by itself: not pinned, not poisoned, not moving. -/
def eMovable (e : Word) : Bool := eValid e && !ePinned e && !ePoisoned e && !eMigrating e

/-- Whether a page has been accessed since the sample before last. (DEDUCED: log 68) -/
def State.recent (s : State) (page : Nat) : Bool :=
  s.tier.accessed.contains page ||
    (decide (0 < s.tier.samples) && decide (tabGet (fun _ => 0) s.tier.lastSet page = s.tier.samples))

/-- Whether a far page calls for promotion. (DEDUCED: log 68) -/
def State.promotes (s : State) (page : Nat) (e : Word) : Bool :=
  eMovable e && eFar e &&
    ((decide (eHint e = 1) && s.recent page && decide (s.nearLow < s.nearFree)) ||
     (decide (eHint e = 4) && decide (0 < s.nearFree)))

/-- Whether a near page calls for demotion: COLD always, FAR under the watermarks, and FAR where a HOT page finds no
near frame free. (DEDUCED: log 67; DEDUCED: log 68) -/
def State.demotes (s : State) (e : Word) : Bool :=
  eMovable e && !eFar e &&
    (decide (eHint e = 3) ||
     (decide (eHint e = 2) && (s.tier.demoting ||
       (decide (s.nearFree = 0) && s.spt.any fun x => eMovable x.2 && eFar x.2 && decide (eHint x.2 = 4)))))

/-- The order of demotion: longest clear first, ties to the lower frame (R237). (DEDUCED: log 68) -/
def State.colder (s : State) (p1 : Nat) (e1 : Word) (p2 : Nat) (e2 : Word) : Bool :=
  let age := fun (p : Nat) =>
    if s.tier.accessed.contains p then s.tier.samples + 1 else tabGet (fun _ => 0) s.tier.lastSet p
  decide (age p1 < age p2) || (decide (age p1 = age p2) && decide (eFrame e1 < eFrame e2))

/-- Whether a running TIER_MOVE waits for an engine: it takes one first (R237). -/
def State.tierMoveWaits (s : State) : Bool :=
  (List.range 16).any fun p =>
    match ((vget s.parts p Part.reset).drv.queue 8).head? with
    | some e => decide (e.phase = .running) && decide (iOp e.insn = 0x90)
    | none => false

/-- The lowest-numbered partition of a job. (DEDUCED: log 68) -/
def State.lowestPart (s : State) (job : Nat) : Option Nat :=
  (List.range 16).find? fun p => bitOf (BitVec.ofNat 16 (s.jobPartMask job)) p

/-- A free engine starts the move that a page's hint and the watermarks call for. (DEDUCED: log 68) -/
def execMigrationAutonomous (page : BitVec 21) (s : State) : Res :=
  .next (
    let s := s.watermarks
    let pg := page.toNat
    let e := s.entry pg
    if s.moverFree none = false ∨ s.tierMoveWaits then s
    else if eFar e ∧ s.groupUp (s.groupOf (eFrame e)) = false then s
    else if s.promotes pg e then
      match s.nearTarget (s.lowestPart (eJob e)) with
      | some f => s.beginMove pg e false f none none
      | none => s
    else if s.demotes e ∧ (s.spt.all fun x => !s.demotes x.2 || !s.colder x.1 x.2 pg e) then
      match s.farTarget (eJob e) with
      | some f => if s.groupUp (s.groupOf f) then s.beginMove pg e true f none none else s
      | none => s
    else s)

/-- What the memory devices report in a millisecond: errors that on-die ECC corrected in each MU (R229), and lines for which
a device holds poison from now on, an uncorrectable error or poisoned data at the next read (R229, R245). No rule gives
either, so both are free. (DESIGN CHOICE: log 73) -/
def State.deviceReports (s : State) : State :=
  let n := s.freeCount
  let s := (List.range 32).foldl (fun (s : State) m => s.addReg (muBase m + 8) (Config.eccCorrected n m)) s
  { s with freeCount := n + 1
           mem := { s.mem with
             poisonNear := (Config.poisonedLines n false).foldl (fun l k => insertRising k l) s.mem.poisonNear
             poisonFar := (Config.poisonedLines n true).foldl (fun l k => insertRising k l) s.mem.poisonFar } }

/-- The accessed bits are sampled and cleared, once a millisecond. -/
def execAccessBitSample (s : State) : Res :=
  .next (
    let t := s.deviceReports
    { t with tier := { s.tier with
        samples := s.tier.samples + 1
        lastSet := s.tier.accessed.foldl (fun l p => tabSet (fun _ => 0) l p (s.tier.samples + 1)) s.tier.lastSet
        accessed := [] } })

/-! ## The tier opcodes (R129, R238, R241, Table 4.15) -/

/-- Whether page `pg` may be named by a tier instruction of a partition: mapped, and of its job. -/
def State.pageOf (s : State) (p : PartId) (pg : Nat) : Bool :=
  let e := s.entry pg
  decide (pg * 2 ^ 21 < stateEnd) && eValid e && decide (some (eJob e) = s.jobOf p)

/-- The engine that a move needs: the port die's for a move from or to the far tier, else that of the frame's bank die. -/
def moveDie (far : Bool) (x : Word) : Option Nat := if far || eFar x then none else some (eFrame x / 16384)

/-- The engine that the TIER_MOVE at the head of a partition's TIER queue asks for its next page. (DEDUCED: log 67) -/
def State.asksMover (s : State) (p : PartId) : Option (Option Nat × Nat) :=
  match s.head p 8 with
  | none => none
  | some e =>
    let x := s.entry (ePage e.sa.toNat + e.sentN)
    let far := decide (fld e.insn 1 0 = 1)
    if iOp e.insn ≠ 0x90 ∨ e.phase ≠ .running ∨ ePinned x ∨
      (eFar x = far ∧ (far ∨ (s.partMus p.val).contains (eFrame x / 2048))) then none
    else some (moveDie far x, s.shareOf p e.tag)

/-- Whether a free engine takes a partition's request next: weighted round robin on the share classes of the TIER_MOVE requests
that wait for it, one page at a time; the state with the turn taken (R335). (DESIGN CHOICE: log 104) -/
def State.moverTurn (s : State) (p : PartId) (die : Option Nat) (share : Nat) : Option State :=
  let z := fun _ => ((0 : Nat), (0 : Nat))
  let key := match die with | none => 0 | some d => d + 1
  let asked := (List.finRange 16).filterMap fun o => if o = p then some share else
    match s.asksMover o with
    | some (d, c) => if d = die then some c else none
    | none => none
  match wrrPick s.shareWeight asked (tabGet z s.tier.wrr key) with
  | some (c, x) => if c = share then some { s with tier := { s.tier with wrr := tabSet z s.tier.wrr key x } } else none
  | none => none

/-- The pages of a TIER_MOVE from its next one on, until one needs a move, a fault stops it, or none is left. Pinned
pages are skipped and counted; a page already in its place is left, and so is a near page outside the partition's MUs
where these have no free frame and another MU has. (DEDUCED: log 67) -/
def State.tierPages (p : PartId) (far : Bool) : Nat → State → QEntry → State
  | 0, s, _ => s
  | fuel + 1, s, e =>
    let pg := ePage e.sa.toNat + e.sentN
    let a := pg * 2 ^ 21
    if e.sentN = e.sb.toNat then s.finish p 8 e (64 + e.cost) true
    else if s.pageOf p pg = false then s.accErr p 8 e ⟨St.operandRange, a, 0⟩
    else
      let x := s.entry pg
      let own := (s.partMus p.val).contains (eFrame x / 2048)
      if s.tier.moves.any fun m => m.page = pg then s.setEntryOf p 8 e
      else if ePinned x then
        State.tierPages p far fuel (s.addReg 0x208060 1)
          { e with sentN := e.sentN + 1, cost := e.cost + pageClk (eFar x) far }
      else if eFar x = far ∧ (far ∨ own) then
        State.tierPages p far fuel s { e with sentN := e.sentN + 1, cost := e.cost + pageClk (eFar x) far }
      else
        match s.translate (s.jobOf p) a with
        | .error r => s.accErr p 8 e r
        | .ok pl =>
          if ePoisoned x then (s.poisonHit a pl).accErr p 8 e ⟨St.cxlPoison, a, pl.unit⟩
          else
            let target := if far then s.farTarget (eJob x)
              else if eFar x then s.nearTarget (some p.val)
              else s.freeInMus (rising (s.partMus p.val))
            let die := moveDie far x
            match target with
            | none =>
              if !far ∧ eFar x = false ∧ 0 < s.nearFree then
                State.tierPages p far fuel s { e with sentN := e.sentN + 1, cost := e.cost + pageClk false false }
              else s.instrFault p 8 e St.operandRange a 1
            | some f =>
              if far ∧ s.groupUp (s.groupOf f) = false then
                s.instrFault p 8 e St.cxlLinkDown a (1 + (frameByte s.ways true f 0).1 * 65536)
              else if s.moverFree die = false then s.setEntryOf p 8 e
              else
                match s.moverTurn p die (s.shareOf p e.tag) with
                | none => s.setEntryOf p 8 e
                | some s =>
                  (s.beginMove pg x far f die (some (p, e.uid))).setEntryOf p 8 { e with phase := .waiting, committed := true }

/-- TIER_MOVE: pages in address order, one move at a time. (DEDUCED: log 67) -/
def execTierMove (p : PartId) (a : Act) (s : State) : Res :=
  .next (s.engineRow p 0x90 a fun _ e s =>
    State.tierPages p (decide (fld e.insn 1 0 = 1)) (min (e.sb.toNat - e.sentN) s.spt.length + 1) s e)

/-- The first of `n` pages that a partition may not name. -/
def State.badPage (s : State) (p : PartId) (pg n : Nat) : Option Nat :=
  ((List.range (min n (s.spt.length + 1))).map (pg + ·)).find? fun k => !s.pageOf p k

/-- TIER_HINT and TIER_PIN: set bits of the entries of sB pages, all of them or none. -/
def State.tierSet (s : State) (p : PartId) (q : Nat) (e : QEntry) (hi lo v : Nat) : State :=
  let pg := ePage e.sa.toNat
  match s.badPage p pg e.sb.toNat with
  | some k => s.accErr p q e ⟨St.operandRange, k * 2 ^ 21, 0⟩
  | none =>
    let s := (List.range e.sb.toNat).foldl (fun s i => s.setEntry (pg + i) (setFld (s.entry (pg + i)) hi lo v)) s
    s.finish p q e (64 + 4 * e.sb.toNat) true

/-- TIER_HINT; a HINT of 5 to 7 faults (R236). -/
def execTierHint (p : PartId) (a : Act) (s : State) : Res :=
  .next (s.engineRow p 0x91 a fun q e s =>
    let h := fld e.insn 2 0
    if 5 ≤ h then s.instrFault p q e St.operandRange h 0 else s.tierSet p q e 59 57 h)

def execTierPin (p : PartId) (a : Act) (s : State) : Res :=
  .next (s.engineRow p 0x92 a fun q e s => s.tierSet p q e 56 56 (fld e.insn 0 0))

/-! ## MU links and refresh (R230, R231, R264) -/

/-- A transfer fails its CRC: one of three retries, then the link is retrained. -/
def execMuCrcFailure (m : MuId) (s : State) : Res :=
  .next (s.ifClocked (
    let x := s.mu m.val
    if x.retraining then s
    else if x.retries < 3 then (s.addReg (muBase m.val + 0x18) 1).setMu m.val { x with retries := x.retries + 1 }
    else (s.addReg (muBase m.val + 0x20) 1).setMu m.val { x with retries := 0, retraining := true }))

/-- Whether the NBU of an MU reads its device as an in-bank sequence: an NB_GEMV or NB_ATT of its queue runs (R264). -/
def State.nbSequence (s : State) (m : Nat) : Bool :=
  s.nbRunning m &&
    match s.driverOf m with
    | none => false
    | some (p, k) =>
      match ((vget s.parts p Part.reset).drv.queue (6 + k)).head? with
      | some e => iOp e.insn = 0x80 || iOp e.insn = 0x83
      | none => false

/-- A yield ends; a refresh that fell due during it is inserted now and counted as one postponement, and as a break where it
breaks an in-bank sequence (R264). (DEDUCED: log 70) -/
def State.yieldEnds (s : State) (m : Nat) : State :=
  let x := s.mu m
  if x.yielding then
    let s := s.setMu m { x with yielding := false, refreshDue := false }
    if x.refreshDue then
      let s := s.addReg (muBase m + 0x28) 1
      if s.nbSequence m then s.addReg (muBase m + 0x58) 1 else s
    else s
  else s

/-- The yield between two instructions (R262): an NB instruction of an MU in processor mode has retired or was stopped, and
the accesses parked there are served. A yield that runs at that moment has served what was parked when it began, and ends;
entries that arrived during it are served by the next one. (DEDUCED: log 70) -/
def State.yieldBetween (s : State) (p : PartId) (q : Nat) : State :=
  match s.driven p.val (q - 6) with
  | none => s
  | some m =>
    let x := s.mu m
    if q < 6 ∨ 7 < q ∨ x.proc = false ∨ s.nbRunning m then s
    else
      let s := s.yieldEnds m
      if x.yielding ∧ x.parked = [] then s else (s.addReg (muBase m + 0x50) 1).serveAll m

/-- A refresh falls due: the controller issues it; under an NBU sequence it breaks the sequence at the next burst
boundary, during a yield when the yield ends. -/
def execRefreshDue (m : MuId) (s : State) : Res :=
  .next (s.ifClocked (
    let x := s.mu m.val
    if x.yielding then s.setMu m.val { x with refreshDue := true }
    else if x.proc && s.nbSequence m.val then s.addReg (muBase m.val + 0x58) 1
    else s))

/-! ## CXL ports (R244 to R246) -/

/-- A late far-tier read: counted, with the time beyond LATE_NS; the event at most once a millisecond.
(DESIGN CHOICE: log 73) -/
def execFarReadLate (k : CxlId) (beyondNs : Nat) (s : State) : Res :=
  .next (
    let c := s.cxlPort k.val
    if (c.present && c.up) = false then s
    else
      let s := (s.addReg (cxlBase k.val + 8) 1).addReg (cxlBase k.val + 0x10) beyondNs
      let ms := s.now / 1000000
      if c.lateAt = some ms then s
      else (s.setCxl k.val { c with lateAt := some ms }).raise Ev.cxlLate St.cxlLate 22 k.val)

/-- The block of a move that fails when port `k` goes down: the first that the pass copies whose far block lies on that port.
(DEDUCED: log 67) -/
def State.blockOnPort (s : State) (m : Move) (k : Nat) : Nat :=
  let on := fun b : Nat => decide (m.farSrc ∧ (frameByte s.ways true m.src (b * 4096)).1 = k) ||
    decide (m.farDst ∧ (frameByte s.ways true m.dst (b * 4096)).1 = k)
  ((m.copying ++ List.range 512).find? on).getD 0

/-- A port whose link is up goes down: its group's accesses fault from now on, and moves into or out of the group are
abandoned. -/
def State.portDown (s : State) (k : Nat) : State :=
  let c := s.cxlPort k
  if c.up = false then s
  else
    let s := (s.setCxl k { c with up := false }).addReg (cxlBase k + 0x20) 1
    let s := s.setRegFld (cxlBase k) 6 0 0
    let s := s.raise Ev.cxlPortDown St.cxlLinkDown 22 k 0 (evDetail 0 (1 + k * 65536) 0)
    let g := k / s.ways
    let hit := s.tier.moves.filter fun m =>
      (m.farSrc && decide (s.groupOf m.src = g)) || (m.farDst && decide (s.groupOf m.dst = g))
    hit.foldl (fun s m => s.abandonMove m (s.blockOnPort m k) k St.cxlLinkDown) s

def execCxlTimeoutExpiry (k : CxlId) (s : State) : Res := .next (s.portDown k.val)

def execCxlPortDown (k : CxlId) (s : State) : Res := .next (s.portDown k.val)

/-- Whether a port is down: its link was up and is not (R246). (DESIGN CHOICE: log 73) -/
def State.portIsDown (s : State) (k : Nat) : Bool :=
  !(s.cxlPort k).up && ((s.cxlPort k).present || decide (s.reg (cxlBase k + 0x20) ≠ 0))

/-- CXL_PERST_N of a port: low until S5 has enumerated it, and again while it is down and being retrained (R440, R246).
(DESIGN CHOICE: log 73) -/
def State.cxlPerstN (s : State) (k : Nat) : Bool :=
  (s.cxlPort k).up || (decide (6 ≤ s.boot.stage) && !s.portIsDown k)

/-- The MX1 tries to retrain a port that is down. -/
def execCxlRetrainAttempt (k : CxlId) (s : State) : Res :=
  .next (if s.portIsDown k.val then s.addReg (cxlBase k.val + 0x28) 1 else s)

/-- Lanes as Table 9.7 encodes them, from the width a link trained at. (DESIGN CHOICE: log 73) -/
def State.cxlLink (s : State) (k width rate : Nat) : State :=
  (s.setRegFld (cxlBase k) 6 4 width).setRegFld (cxlBase k) 3 0 rate

/-- The link returns: with the serial number and dirty shutdown count of S5 the group serves again; otherwise every
valid entry that maps a frame of the group is poisoned, and CONTENTS_LOST set. (DESIGN CHOICE: log 73) -/
def execCxlLinkReturn (k : CxlId) (serial : Word) (dirty : Nat) (width : BitVec 3) (rate : BitVec 4) (s : State) :
    Res :=
  .next (
    let c := s.cxlPort k.val
    if s.portIsDown k.val = false then s
    else
      let s := (s.setCxl k.val { c with up := true }).cxlLink k.val width.toNat rate.toNat
      if (!c.present || decide (serial = c.serial) && decide (dirty = c.dirtyCnt)) then s
      else
        let g := k.val / s.ways
        let spt := s.spt.map fun x =>
          if eValid x.2 && eFar x.2 && decide (s.groupOf (eFrame x.2) = g) then (x.1, setFld x.2 55 55 1) else x
        let s := { s with spt := spt }
        (s.setRegFld (cxlBase k.val) 15 15 1).raise Ev.cxlContentsLost St.cxlPoison 22 k.val 0
          (evDetail 0 (1 + k.val * 65536) 0))

end Sys2Proof.Machine
end

