-- ==== Sys2Proof/Machine/NearBank.lean ====
section
/-! DEFINITION. The near-bank units (chapter 10): modes, parked accesses, yields, the NB opcodes. -/

namespace Sys2Proof.Machine

def pcfgSplit (w : Word) : Bool := bitOf w 0
def pcfgScope (w : Word) : Bool := bitOf w 4

/-! ## Mode switches (R254 to R256) -/

/-- A mode switch of an MU begins: SWITCHING is set; a switch into memory mode waits for the driving queue's entries
issued before `before`. (DEDUCED: log 70) -/
def State.beginSwitch (s : State) (m : Nat) (proc : Bool) (before : Nat) : State :=
  let x := s.mu m
  if (if x.switching then x.target else x.proc) = proc then s
  else s.setMu m { x with switching := true, target := proc, before := before }

/-- Whether a partition's MUs are all in memory mode. -/
def State.musQuiet (s : State) (p : PartId) : Bool :=
  (s.partMus p.val).all fun m => !(s.mu m).proc && !(s.mu m).switching

/-- A write of SERVICE into SCOPE completes once the partition's MUs are in memory mode (R388). (DEDUCED: log 71) -/
def State.scopeSettle (s : State) (p : PartId) : State :=
  if (s.part p).scopeDue && s.musQuiet p then
    (s.setRegFld (pcfgOff p) 4 4 0).modPart p fun x => { x with scopeDue := false }
  else s

/-- A mode switch completes: the parked entries are served before PROC clears; an NB_MODE that waits for it is done, and so
is a SCOPE write. -/
def State.endSwitch (s : State) (m : Nat) : State :=
  let x := s.mu m
  let s := if x.target ∧ s.nbRunning m then s else s.serveAll m
  let s := s.setMu m { s.mu m with switching := false, proc := x.target }
  let s := s.addReg (muBase m + 0x60) 1
  match s.driverOf m with
  | none => s
  | some (p, k) =>
    if h : p < 16 then
      let s := match s.head ⟨p, h⟩ (6 + k) with
        | some e => if iOp e.insn = 0x81 ∧ e.phase = QPhase.waiting then s.finish ⟨p, h⟩ (6 + k) e 0 true else s
        | none => s
      s.scopeSettle ⟨p, h⟩
    else s

/-- Whether a switch has still to wait (R255): for the accesses in flight, which wait while the link is retrained; into
memory mode also for the parked entries that the link cannot serve, and for an entry of the driving queue that has still to
retire. An NB_MODE that waits for the switch itself does not hold it up. -/
def State.switchBlocked (s : State) (m : Nat) : Bool :=
  let x := s.mu m
  decide (x.held ≠ []) || (!x.target && x.retraining && decide (x.parked ≠ [])) ||
  (!x.target &&
    (match s.driverOf m with
     | none => false
     | some (p, k) => ((vget s.parts p Part.reset).drv.queue (6 + k)).any fun e =>
        decide (e.uid < x.before) && !(decide (iOp e.insn = 0x81) && decide (e.phase = .waiting))))

def execModeSwitchComplete (m : MuId) (s : State) : Res :=
  .next (s.ifClocked (if (s.mu m.val).switching && !s.switchBlocked m.val then s.endSwitch m.val else s))

/-- The MUs that a partition's queues drive go back to memory mode; an NB instruction past its commit point retires first
(R255, R256). -/
def State.nbuOffline (s : State) (p : PartId) : State :=
  (s.partMus p.val).foldl (fun s m => s.beginSwitch m false (s.drv p).nextUid) s

/-- The NBUs of a partition run nothing any more: the entries parked at its MUs in processor mode are served (R256). -/
def State.nbuIdle (s : State) (p : PartId) : State :=
  (s.partMus p.val).foldl (fun s m =>
    if (s.mu m).proc && !(s.mu m).switching && !s.nbRunning m then (s.setMu m { s.mu m with yielding := false }).serveAll m
    else s) s

/-- The NBU of an MU is found ABSENT or present: an ABSENT one's MU goes back to memory mode (R259). -/
def State.markNbu (s : State) (m : Nat) (absent : Bool) : State :=
  let s := s.setMu m { s.mu m with absent := absent }
  if absent then s.beginSwitch m false 0 else s

/-! ## Parked accesses and yields (R261 to R264) -/

/-- An access named by its MU and device address: a write to a frame that a page moves from is marked, or held in pass 5
(R240). -/
def State.deviceAccess (s : State) (m : Nat) (a : MuAccess) : State :=
  match a with
  | .read _ _ => s.muAccess m a
  | .write d b =>
    let f := m * 2048 + d / 2 ^ 21
    let o := d % 2 ^ 21
    match s.tier.moves.find? fun v => v.farSrc = false ∧ v.src = f ∧ v.pass = 5 with
    | some v => s.holdWrite v.page o b
    | none => ((s.markDirty false f (o / 4096)).markDirty false f ((o + b.length - 1) / 4096)).muAccess m a

def execParkedAccessArrival (m : MuId) (a : MuAccess) (s : State) : Res := .next (s.ifClocked (s.deviceAccess m.val a))

/-- A yield serves every entry parked when it began. An NBU that waits for a retrain of its MU does not yield. -/
def execNbuYield (m : MuId) (s : State) : Res :=
  .next (s.ifClocked (
    let x := s.mu m.val
    if x.proc && !x.yielding && !x.retraining && s.nbRunning m.val then
      let s := (s.addReg (muBase m.val + 0x50) 1).serveQueue m.val
      s.setMu m.val { s.mu m.val with yielding := true }
    else s))

/-- DEDUCED: log 70. -/
def execNbuYieldEnd (m : MuId) (s : State) : Res := .next (s.ifClocked (s.yieldEnds m.val))

/-! ## NBU_PCFG (R257 to R260, R269) -/

/-- The MU field of queue `k`, with its NONE bit. -/
def pcfgField (w : Word) (k : Nat) : Bool × Nat := (bitOf w (11 + 8 * k), fld w (10 + 8 * k) (8 + 8 * k))

/-- Whether no two queues of the chip name the same MU. -/
def State.drivenOnce (s : State) : Bool :=
  let all := (List.range 16).flatMap s.partMus
  all.all fun m => decide (all.count m = 1)

/-- The PROC bits of a partition under BY_OPERAND. -/
def State.applyProc (s : State) (p : PartId) : State :=
  let w := s.reg (pcfgOff p)
  if pcfgSplit w then
    [0, 1].foldl (fun s k =>
      match s.driven p.val k with
      | some m => if (s.mu m).absent then s else s.beginSwitch m (bitOf w (2 + k)) (s.drv p).nextUid
      | none => s) s
  else s

/-- Whether a partition's MUs are held in memory mode: SCOPE is SERVICE and the role is not GENERATE (R387).
(DEDUCED: log 71) -/
def State.modesHeld (s : State) (p : PartId) : Bool :=
  !pcfgScope (s.reg (pcfgOff p)) && decide ((s.part p).role ≠ .generate)

/-- An MU is taken to memory mode at once, its parked entries first; where an instruction of its queue has still to
retire, the switch waits for it (R255, R388). (DEDUCED: log 71) -/
def State.holdMode (s : State) (m : Nat) : State :=
  let x := s.mu m
  if x.proc || x.switching then
    let n := match s.driverOf m with
      | some (p, _) => (vget s.parts p Part.reset).drv.nextUid
      | none => 0
    let s := s.beginSwitch m false n
    if s.switchBlocked m then s else s.endSwitch m
  else s

/-- Where R387 applies to a partition, its driven MUs go to memory mode. (DEDUCED: log 71) -/
def State.holdModes (s : State) (p : PartId) : State :=
  if s.modesHeld p then (s.partMus p.val).foldl (fun s m => s.holdMode m) s else s

/-- After a role change or a SCOPE write: memory mode where R387 applies, the PROC bits where it does not and the split is
BY_OPERAND (R388). (DEDUCED: log 70; DEDUCED: log 71) -/
def State.settleModes (s : State) (p : PartId) : State :=
  if s.modesHeld p then s.holdModes p else s.applyProc p

/-- The modes after a write of NBU_PCFG. Where R387 applies from now on and an MU cannot be taken to memory mode at once, the
write completes when it can, and SCOPE reads TEST_RECOVERY until then (R388). (DEDUCED: log 71) -/
def State.pcfgSettle (s : State) (p : PartId) (old : Word) : State :=
  let s := (s.modPart p fun x => { x with scopeDue := false }).settleModes p
  if pcfgScope old && s.modesHeld p && !s.musQuiet p then
    (s.setRegFld (pcfgOff p) 4 4 1).modPart p fun x => { x with scopeDue := true }
  else s

/-- A write of NBU_PCFG: applied whole, or ignored with an event. An MU that no queue drives any more goes back to
memory mode (R254). -/
def State.pcfgWrite (s : State) (p : PartId) (lanes v : Word) : State :=
  let o := pcfgOff p
  let old := s.reg o
  let w := fieldsWrite ((regFields o).getD []) lanes old v
  let busy := [0, 1].any fun k =>
    decide (pcfgField w k ≠ pcfgField old k) && decide ((s.drv p).queue (6 + k) ≠ [])
  let t := s.setReg o w
  if busy || !t.drivenOnce then s.writeIgnored o
  else
    let gone := (s.partMus p.val).filter fun m => (t.driverOf m).isNone
    (gone.foldl (fun s m => s.beginSwitch m false 0) t).pcfgSettle p old

def execNbuPcfgWrite (p : PartId) (v : Word) (s : State) : Res := .next (s.ifReady (s.pcfgWrite p (BitVec.allOnes 64) v))

/-! ## What every NB opcode asks (R258 to R260) -/

/-- The MU of an NB instruction's queue, or its fault: the SERVICE scope on a partition that is not GENERATE, a queue
that drives no MU, and for NB_GEMV, NB_ATT and NB_MODE an ABSENT NBU. (DEDUCED: log 72) -/
def State.nbMu (s : State) (p : PartId) (q : Nat) (absentBad : Bool) : Except AccErr Nat :=
  if pcfgScope (s.reg (pcfgOff p)) = false ∧ (s.part p).role ≠ .generate then .error ⟨St.operandRange, 0, 0⟩
  else
    match s.driven p.val (q - 6) with
    | none => .error ⟨St.operandRange, 0, 0⟩
    | some m => if absentBad ∧ (s.mu m).absent then .error ⟨St.operandRange, 0, m⟩ else .ok m

/-- A fault of an NB instruction at instruction scope. -/
def State.nbFault (s : State) (p : PartId) (q : Nat) (e : QEntry) (x : AccErr) : State :=
  s.instrFault p q e x.status x.addr x.detail1

/-- Bytes per CLK_A that an NBU reads at its MU's rate (R251). -/
def State.nbuRate (s : State) (m : Nat) : Nat := max 1 (s.regFld (muBase m) 15 8 * 5 / 2)

/-- An MU as its own NBU sees it: what the NBU does passes the parked queue by, and its reads pass the CRC as ordinary reads
do (R252). -/
def State.nbuOpen (s : State) (m : Nat) : State :=
  s.setMu m { s.mu m with parked := [], proc := false, switching := false, retraining := false }

/-- The MU as the chip's other units see it again. -/
def State.nbuClose (s : State) (m : Nat) (x : Mu) : State :=
  s.setMu m { s.mu m with parked := x.parked, proc := x.proc, switching := x.switching, retraining := x.retraining }

/-- What the NBU itself does at its MU. -/
def State.byNbu (s : State) (m : Nat) (f : State → State) : State := (f (s.nbuOpen m)).nbuClose m (s.mu m)

/-- A read by the NBU itself. -/
def State.nbuRead (s : State) (p : PartId) (m a n : Nat) : Except AccErr Bytes × State :=
  let r := (s.nbuOpen m).stRead (s.jobOf p) a n
  (r.1, r.2.nbuClose m (s.mu m))

/-- DEDUCED: log 70. -/
def execNbMode (p : PartId) (a : Act) (s : State) : Res :=
  .next (s.engineRow p 0x81 a fun q e s =>
    match s.nbMu p q true with
    | .error x => s.nbFault p q e x
    | .ok m =>
      let t := bitOf e.insn 0
      let x := s.mu m
      if pcfgSplit (s.reg (pcfgOff p)) then s.nbFault p q e ⟨St.operandRange, 0, m⟩
      else if x.switching || ((s.part p).scopeDue && t) then s
      else if x.proc = t then s.finish p q e 0 true
      else (s.beginSwitch m t e.uid).setEntryOf p q { e with phase := .waiting, committed := true })

/-! ## NB_GEMV (R252, R253, R265) -/

/-- The rows of dC an NB_GEMV reads: all, or the half that HALF selects. -/
def nbRows (e : QEntry) : Nat × Nat :=
  let n := tRows e.dc
  match fld e.insn 4 3 with
  | 2 => (0, n / 2)
  | 3 => (n / 2, n / 2)
  | _ => (0, n)

/-- Weight rows `lo` to `lo + k − 1` as blocks, read by the NBU. -/
def State.nbuWeights (p : PartId) (m : Nat) (d : Desc) : Nat → Nat → State → Except AccErr (List (List Blk)) × State
  | 0, _, s => (.ok [], s)
  | k + 1, i, s =>
    match s.nbuRead p m (tRowAt d i) (tRowBytes d) with
    | (.error x, s) => (.error x, s)
    | (.ok b, s) =>
      match s.nbuRead p m (tScaleAt d i) (tScaleBytes d) with
      | (.error x, s) => (.error x, s)
      | (.ok c, s) =>
        match State.nbuWeights p m d k (i + 1) s with
        | (.ok l, s) => (.ok (blockRow (tFmt d) (tCols d) b c :: l), s)
        | (.error x, s) => (.error x, s)

/-- The first page of the rows an NB_GEMV reads, scales included, that it may not read. -/
def State.nbuRowsBad (s : State) (p : PartId) (m : Nat) (d : Desc) (lo n : Nat) : Option AccErr :=
  ((List.range n).map (lo + ·)).findSome? fun i =>
    (s.nbuPageBad p m (tRowAt d i) (tRowBytes d)).or
      (if tScaleBytes d = 0 then none else s.nbuPageBad p m (tScaleAt d i) (tScaleBytes d))

/-- The accumulators of an NB_GEMV, row by row: blocks in increasing K order into one FP32 accumulator (R253). -/
def State.nbuAcc (s : State) (p : PartId) (e : QEntry) (lo : Nat) (ws : List (List Blk)) : List (List Fl) :=
  let window := decide (tFmt e.dc = 1 ∨ tFmt e.dc = 2)
  (List.range (tRows e.db)).map fun i =>
    let a := portRow (tFmt e.dc) (tFmt e.db) (tCols e.db) (s.hsRead p (tRowAt e.db i) (tRowBytes e.db))
      (s.hsRead p (tScaleAt e.db i) (tScaleBytes e.db))
    let old := if mxAcc e.insn then (s.tensorRow p e.da i).drop lo else []
    ws.zipIdx.map fun w => accBlocks window a w.1 (old.getD w.2 .zero)

/-- Write values into columns `lo` on of a row whose format has no block scales. -/
def State.putCols (s : State) (p : PartId) (d : Desc) (i lo : Nat) (l : List Fl) : State :=
  s.hsWrite p (tRowAt d i + lo * fmtBits (tFmt d) / 8) (encodeRow (tFmt d) l).1

/-- What an NB instruction does under the page table entries that it translated at its start (R252): it reads the old frame of
a page that has moved since. -/
def State.underSpt (s : State) (c : Option (Tab Word)) (f : State → State) : State :=
  match c with
  | none => f s
  | some t => if t = s.spt then f s else { f { s with spt := t } with spt := s.spt }

/-- The head of an NBU queue that has just started translates the pages it will read (R252). -/
def State.nbCapture (s : State) (p : PartId) (q : Nat) : State :=
  match s.head p q with
  | some e =>
    if e.phase = .running ∧ e.spt = none ∧ (iOp e.insn = 0x80 ∨ iOp e.insn = 0x83) then
      s.setEntryOf p q { e with spt := some s.spt }
    else s
  | none => s

/-- DEDUCED: log 72. -/
def execNbGemv (p : PartId) (a : Act) (s : State) : Res :=
  .next (s.engineRow p 0x80 a fun q e s => s.underSpt e.spt fun s =>
    match s.nbMu p q true with
    | .error x => s.nbFault p q e x
    | .ok m =>
      let r := nbRows e
      let half := bitOf e.insn 4
      if (s.mu m).proc = false then s.nbFault p q e ⟨St.operandRange, tAddr e.dc, m⟩
      else
        match gemmBad e with
        | some i => s.shapeFault p q e i
        | none =>
          if half ∧ tRows e.dc % 2 = 1 then s.shapeFault p q e 2
          else if 262144 < (tRows e.db - 1) * tStride e.db + tRowBytes e.db then s.shapeFault p q e 1
          else
            match s.nbuRowsBad p m e.dc r.1 r.2 with
            | some x => s.nbFault p q e x
            | none =>
              match State.nbuWeights p m e.dc r.2 r.1 s with
              | (.error x, s) => s.nbFault p q e x
              | (.ok ws, s) =>
                let rows := s.nbuAcc p e r.1 ws
                let s := rows.zipIdx.foldl (fun s x => s.putCols p e.da x.2 r.1 x.1) s
                let buf := if tRows e.db * r.2 ≤ 16384 then rows.flatten.map toF32 else []
                let s := s.setMu m { s.mu m with resultBuf := buf }
                let bytes := r.2 * (tRowBytes e.dc + tScaleBytes e.dc)
                s.finish p q e (64 + max (ceilDiv bytes (s.nbuRate m)) (ceilDiv (tRows e.db * r.2 * tCols e.dc) 256))
                  false)

/-! ## NB_SUMX (R265, R266) -/

/-- The bank dies whose buses a transfer from MU `m` to partition `p` holds. (DEDUCED: log 72) -/
def busDies (p m : Nat) : List Nat := [p / 4, m / 8]

/-- Whether another NB_SUMX holds a bus that this one needs, or the bridge between dies. (DEDUCED: log 72) -/
def State.busHeld (s : State) (p : PartId) (q m : Nat) : Bool :=
  let mine := busDies p.val m
  (List.range 16).any fun p' => [6, 7].any fun q' =>
    !(decide (p' = p.val) && decide (q' = q)) &&
    match ((vget s.parts p' Part.reset).drv.queue q').head? with
    | some e =>
      iOp e.insn = 0x82 && e.phase = .done && !e.faultPost &&
        (let other := busDies p' e.sa.toNat
         (mine.any fun d => other.contains d) ||
           (decide (p.val / 4 ≠ m / 8) && decide (p' / 4 ≠ e.sa.toNat / 8)))
    | none => false

/-- Whether a die's bus takes up this NB_SUMX: of those that wait and could go, the one whose NBU follows, in cyclic order,
the NBU it served last (R266). (DEDUCED: log 72) -/
def State.busTurn (s : State) (p : PartId) (q m : Nat) : Bool :=
  let far := fun k => (k + 7 - vget s.tier.busLast (m / 8) 7) % 8
  (List.finRange 16).all fun p' => [6, 7].all fun q' =>
    match s.head p' q' with
    | some e =>
      let k := e.sa.toNat
      p' = p ∧ q' = q ∨ iOp e.insn ≠ 0x82 ∨ e.phase ≠ .running ∨ e.waitFrom = none ∨ k / 8 ≠ m / 8 ∨ s.busHeld p' q' k ∨
        far (m % 8) ≤ far (k % 8)
    | none => true

/-- The values of dB in a result buffer. -/
def bufRow (buf : List (BitVec 32)) (d : Desc) (i : Nat) : List Fl :=
  ((buf.drop (tRowAt d i / 4)).take (tCols d)).map ofF32

/-- The first operand of an NB_SUMX of a wrong format or shape. (DEDUCED: log 72) -/
def sumxBad (e : QEntry) : Option Nat :=
  firstBad [(0, decide (tFmt e.da = 0)), (1, decide (tFmt e.db = 0) && sameShape e.da e.db)]

/-- DEDUCED: log 72. -/
def execNbSumx (p : PartId) (a : Act) (s : State) : Res :=
  .next (s.engineRow p 0x82 a fun q e s =>
    match s.nbMu p q false with
    | .error x => s.nbFault p q e x
    | .ok own =>
      let m := e.sa.toNat
      let last := tAddr e.db + (tRows e.db - 1) * tStride e.db + tRowBytes e.db
      let buf := (s.mu m).resultBuf
      let other : Bool := match s.driverOf m with
        | some (k, _) => decide ((vget s.parts k Part.reset).curJob.map (·.val) ≠ s.jobOf p)
        | none => false
      if 32 ≤ m then s.nbFault p q e ⟨St.operandRange, m, 0⟩
      else if (s.mu m).absent ∨ other then s.nbFault p q e ⟨St.operandRange, m, m⟩
      else
        match sumxBad e with
        | some i => s.shapeFault p q e i
        | none =>
          if 65536 < last ∨ buf = [] ∨ 4 * buf.length < last then s.nbFault p q e ⟨St.operandRange, tAddr e.db, m⟩
          else if s.busHeld p q m || !s.busTurn p q m then
            s.setEntryOf p q { e with waitFrom := some (e.waitFrom.getD s.pins.clkT) }
          else
            let s := { s with tier := { s.tier with busLast := vset s.tier.busLast (m / 8) (m % 8) } }
            -- 16 CLK_A in a CLK_T cycle
            let s := match e.waitFrom with
              | some t => s.addReg (muBase own + 0x70) (16 * (s.pins.clkT - t))
              | none => s
            let rows := (List.range (tRows e.db)).map fun i =>
              List.zipWith f32add (s.tensorRow p e.da i) (bufRow buf e.db i)
            (s.putTensor p e.da rows).finish p q e (64 + ceilDiv (tBytes e.db) 16) false)

/-! ## NB_ATT (R390, R391) -/

/-- In SERVICE scope NB_ATT is an illegal instruction of the drover. (DEDUCED: log 72) -/
def State.nbAttIssue (s : State) (p : PartId) : State :=
  match s.begin p 0x83 with
  | (s, none) => s
  | (s, some c) => if pcfgScope (s.reg (pcfgOff p)) then s.issueEngine p 0x83 else s.illegalInsn c 0

/-- Start of an NB_ATT: what every NB opcode asks, a MU in processor mode, then what an attention instruction takes. -/
def State.nbAttStart (s : State) (p : PartId) (q : Nat) (e : QEntry) : State :=
  match s.nbMu p q true with
  | .error x => s.nbFault p q e x
  | .ok m => if (s.mu m).proc = false then s.nbFault p q e ⟨St.operandRange, 0, m⟩ else s.attStart p q e

/-- The head of an NBU queue that has just started takes what it takes at its start. -/
def State.nbAttCapture (s : State) (p : PartId) (q : Nat) : State :=
  match s.head p q with
  | some e => if e.phase = .running ∧ e.att = none ∧ iOp e.insn = 0x83 then s.nbAttStart p q e else s
  | none => s

/-- The effect of NB_ATT on MU `m`, whose pages the NBU itself reads. -/
def State.nbAttPages (s : State) (p : PartId) (q m : Nat) (e : QEntry) (a : AttStart) : State :=
  let s := (s.byNbu m) fun s => s.attRun p q e a 0 (some m) fun b _ => 64 + ceilDiv b (s.nbuRate m)
  s.setMu m { s.mu m with resultBuf := [] }

def State.nbAttRun (s : State) (p : PartId) (q : Nat) (e : QEntry) : State :=
  let s := if e.att = none then s.nbAttStart p q e else s
  match s.head p q, s.driven p.val (q - 6) with
  | some e, some m =>
    match e.phase, e.att with
    | .running, some a => s.underSpt e.spt fun s => s.nbAttPages p q m e a
    | _, _ => s
  | _, _ => s

def execNbAtt (p : PartId) (a : Act) (s : State) : Res :=
  .next (match a with
    | .issue => s.nbAttIssue p
    | .run => s.engineRow p 0x83 a fun q e s => s.nbAttRun p q e)

end Sys2Proof.Machine
end

