-- ==== Sys2Proof/Machine/Life.lean ====
section
/-! DEFINITION. What a program does to the requests of its partition: cancels (R196 to R198), the manifest opcodes with the
phases they write (R17, R25, R127, R133), the prompt-log appends (R21), the convoy opcodes (R182). -/

namespace Sys2Proof.Machine

/-! ## Phases -/

/-- The convoy row that a slot is a member of. -/
def State.convoyRowOf (s : State) (p : PartId) (k : Nat) : Option (Nat × Nat) :=
  (List.range 4).findSome? fun n =>
    ((List.range (s.cvCap p n)).map (s.cvFirst p n + ·)).findSome? fun r =>
      if rowValid (s.cvWord p r) ∧ s.cvSlot p r = k then some (n, r) else none

/-- Transitions of Table 1.2 that the program of an owner writes, each with its trigger and its acting unit: the prompt
node hands off, and the generation node decodes, once it has committed an output token; a request that has arrived by
HANDOFF decodes on a generation node as it joins a convoy; a turn that has ended ends in PARK where the session is kept,
else in DONE, and an evicted request is parked before its turn ends; RESUME goes to DECODE for an evicted request, which has
no continuation, on a generation node, else to PREFILL; CANCELLED wants a cancel. (DESIGN CHOICE: log 34) -/
def State.ownMove (s : State) (p : PartId) (k a b : Nat) : Bool :=
  let m := s.manifest p k
  let x := s.slot p k
  let gen := decide ((s.part p).role = .generate)
  match a, b with
  | 1, 2 => x.tokenHere && decide ((s.part p).role = .prompt)
  | 1, 3 => x.tokenHere && gen
  | 2, 3 => gen && (s.convoyRowOf p k).isSome
  | 3, 4 => (x.turnEnded && mFlag m flKeep) || mFlag m flEvicted
  | 3, 6 => x.turnEnded && !mFlag m flKeep
  | 5, 1 => !mFlag m flEvicted
  | 5, 3 => mFlag m flEvicted && gen
  | _, 7 => decide (a ≤ 5) && (s.slot p k).cancel
  | _, 8 => decide (a ≤ 5)
  | _, _ => false

/-! ## Cancels -/

/-- A request fault that no engine instruction found: a record with queue 15 (R94, R97). -/
def State.ownFault (s : State) (p : PartId) (k : Nat) (st : Status) (d0 d1 : Nat) (c : Option Ctx) : State :=
  let r : FaultRec :=
    { status := st, event := 0, queue := 15, opcode := (c.map fun x => iOp x.w).getD 0, tag := k,
      pc := (c.map (·.pc)).getD 0, disp := (c.map (·.disp)).getD false, signal := 0xFF, insn := (c.map (·.w)).getD 0,
      detail0 := BitVec.ofNat 64 d0, detail1 := BitVec.ofNat 64 d1, time := 0, seq := 0 }
  let pk := match c with | some x => if x.disp then some (s.drv p).pktSerial else none | none => none
  (s.faultRecord p pk r).setSlot p k { s.slot p k with faulted := true }

/-- A cancel takes effect on the partition that owns the request (R197): PHASE CANCELLED, the request-fault bit, a fault
record with OUTPUT_TOKENS, SMP_CANCEL_CNT, the answers, and the terminal actions. A manifest that fails its CRC ends the
request FAILED instead (R59). (DESIGN CHOICE: log 33; DESIGN CHOICE: log 36) -/
def State.cancelEffect (s : State) (p : PartId) (k : Nat) : State :=
  let m := s.manifest p k
  if terminal (mPhase m) ∨ s.owns p k = false then s
  else if mCrcOk m = false then (s.crcFailed p k).answerCancels p k St.alreadyDone
  else
    let s := s.stopTransfer p k St.cancelled
    let s := s.stamp p k Ph.cancelled
    let s := s.ownFault p k St.cancelled (mOutput m) 0 none
    let s := s.addReg (ptBase p + 0x5060) 1
    (s.answerCancels p k St.cancelled).closeRequest p k

/-- Whether a cancel waits for a commit cycle (R197): the request is a convoy member and its phase is neither HANDOFF nor
PARK, for a request about to leave is cancelled as one in no convoy row. -/
def State.cancelWaits (s : State) (p : PartId) (k : Nat) : Bool :=
  let ph := mPhase (s.manifest p k)
  (s.convoyRowOf p k).isSome && !decide (ph = Ph.handoff) && !decide (ph = Ph.park)

/-- A cancel written while an SMP_STEP that has ended the member's turn still stands at its queue head may have come in the
member's final commit cycle, or after it: which of both is free (R198). (DESIGN CHOICE: log 31) -/
def State.cancelLate (s : State) (p : PartId) (k : Nat) : State :=
  match s.convoyRowOf p k with
  | none => s
  | some (n, r) =>
    if (s.drv p).entries.any (fun e => decide (iOp e.insn = 0x50) && decide (e.phase = .done) && e.wbOk &&
        decide (e.convoy = some n)) ∧ fld (s.cvWord p r) 62 60 = 2 ∧ (s.slot p k).cancel = false then
      ({ s with freeCount := s.freeCount + 1 }).addReg (ptBase p + 0x5068) (b2n (Config.inCommitCycle s.freeCount))
    else s

/-- A FAB_CARAVAN that waits to send frame 0 of a request that has been cancelled sends nothing and writes CANCELLED to its
sC (R197). -/
def State.endHeldCaravan (s : State) (p : PartId) (k : Nat) : State :=
  (((s.drv p).queue 5).filter fun e => e.phase = .waiting ∧ e.tag = k ∧ iOp e.insn = 0x73).foldl
    (fun s e => s.finish p 5 e 0 false (St.cancelled.setWidth 64)) s

/-- A write of a slot's cancel-table bit, by a cancel frame of `from_` or by SMP_CANCEL (R196, R197). A request that has
ended is answered ALREADY_DONE; a done request when DONE is written (R198); a member of a convoy at its commit cycle; any
other at once. -/
def State.cancelWrite (s : State) (p : PartId) (k : Nat) (from_ : Option NodeId) : State :=
  let s := s.cancelLate p k
  let x := s.slot p k
  let s := s.setSlot p k { x with cancel := true, cancellers := x.cancellers ++ from_.toList }
  if s.owns p k = false then s
  else if terminal (mPhase (s.manifest p k)) then s.answerCancels p k St.alreadyDone
  else if x.done ∨ s.cancelWaits p k then s
  else (s.cancelEffect p k).endHeldCaravan p k

/-- SMP_CANCEL: no answer goes out over the fabric (R197). -/
def execSmpCancel (p : PartId) (s : State) : Res :=
  .next (match s.begin p 0x52 with
    | (s, none) => s
    | (s, some c) =>
      let k := ((s.drv p).sreg c.disp (iSrcA c.w)).toNat
      if s.slotOk p k then (s.cancelWrite p k none).issued c c.next 1 else s.rangeFault c k)

/-! ## Manifest opcodes -/

def execMfRd (p : PartId) (s : State) : Res :=
  .next (match s.begin p 0x60 with
    | (s, none) => s
    | (s, some c) =>
      let k := ((s.drv p).sreg c.disp (iSrcA c.w)).toNat
      if s.slotOk p k then
        let s := s.checkOwn p k
        let a := s.mftBase p + 64 * k + 8 * fld c.w 2 0
        ((s.hsramUse p a 8).modDrv p fun d => d.setSreg c.disp (iDst c.w) (s.hsWord p a)).issued c c.next 1
      else s.rangeFault c k)

/-- PHASE_ILLEGAL: the phase held and the phase requested (Table 17.3). -/
def State.phaseFault (s : State) (c : Ctx) (k old new : Nat) : State :=
  s.ownFault c.p k St.phaseIllegal (old + 16 * new) 0 (some c)

/-- MF_PHASE (R17, R25, R198): a transition of Table 1.2 that a partition writes; of a request whose turn has ended for
good, DONE alone. RESUME is not left while pages are still being fetched. Any other ends the request FAILED. Writing DECODE clears EVICTED. -/
def State.mfPhase (s : State) (c : Ctx) (k ph : Nat) : State :=
  let p := c.p
  let m := s.manifest p k
  let old := mPhase m
  let x := s.slot p k
  if mCrcOk m = false then s.crcFailed p k
  else
    let fetching := (s.part p).fetches.any fun f => f.slot = k
    let ok := s.owns p k && !terminal old && (if x.done then ph == Ph.done else s.ownMove p k old ph) &&
      !(fetching && (ph == Ph.prefill || ph == Ph.decode))
    if ok then
      let s := if ph = Ph.decode then s.setManifest p k (mWithFlag (s.manifest p k) flEvicted false) else s
      if terminal ph then
        (s.answerCancels p k (if ph = Ph.cancelled then St.cancelled else St.alreadyDone)).endRequest p k ph
      else s.stamp p k ph
    else
      let s := s.phaseFault c k old ph
      if s.owns p k ∧ terminal old = false then s.endRequest p k Ph.failed else s

/-- DESIGN CHOICE: log 34. -/
def execMfPhase (p : PartId) (s : State) : Res :=
  .next (match s.begin p 0x61 with
    | (s, none) => s
    | (s, some c) =>
      let k := ((s.drv p).sreg c.disp (iSrcA c.w)).toNat
      if s.slotOk p k then (s.mfPhase c k (fld c.w 3 0)).issued c c.next 1 else s.rangeFault c k)

def execMfFlag (p : PartId) (s : State) : Res :=
  .next (match s.begin p 0x62 with
    | (s, none) => s
    | (s, some c) =>
      let k := ((s.drv p).sreg c.disp (iSrcA c.w)).toNat
      if s.slotOk p k then
        -- a manifest that fails its CRC ends FAILED instead (R59)
        (if mCrcOk (s.manifest p k) then
            s.setManifest p k (mWithFlag (s.manifest p k) (fld c.w 3 0) (!bitOf c.w 8))
          else s.crcFailed p k).issued c c.next 1
      else s.rangeFault c k)

/-- Whether an instruction in a queue refers to a slot: by its tag reference, or as one of its convoy's members
(Table 3.5). -/
def State.refersTo (s : State) (p : PartId) (k : Nat) (e : QEntry) : Bool :=
  decide (e.tag = k) || e.members.contains k ||
    (e.convoy.any fun n => (s.cvMembers p n).any fun m => m.2 == k)

/-- MF_FREE: it waits until no queued or running instruction refers to the slot; a request still owned here and not
terminal keeps its slot (Table 4.7). Freeing clears the slot's fault, cancel and done bits (R95, R196, R198). -/
def execMfFree (p : PartId) (s : State) : Res :=
  .next (match s.begin p 0x63 with
    | (s, none) => s
    | (s, some c) =>
      let k := ((s.drv p).sreg c.disp (iSrcA c.w)).toNat
      if s.slotOk p k = false then s.rangeFault c k
      else if (s.drv p).entries.any (s.refersTo p k) then s.stall c none
      else if s.owns p k ∧ terminal (mPhase (s.manifest p k)) = false then
        (s.phaseFault c k (mPhase (s.manifest p k)) 0).issued c c.next 1
      else (s.setSlot p k {}).issued c c.next 1)

/-! ## Appends to the prompt log (R21, R74) -/

/-- Log entries of a slot's request from position `lo` on, at most 1,024 of them. -/
def State.unlogged (s : State) (p : PartId) (k lo : Nat) : Except Miss (List (BitVec 32)) × State :=
  let m := s.manifest p k
  match s.reqRead p (mSrAddr m) 128 with
  | (.error x, s) => (.error x, s)
  | (.ok sr, s) =>
    let n := min 1024 (mNextPos m - lo)
    match s.reqRead p (srLogAddr sr + 4 * lo) (4 * n) with
    | (.error x, s) => (.error x, s)
    | (.ok b, s) => (.ok ((List.range n).map fun i => BitVec.ofNat 32 (leAt b (4 * i) 4)), s)

/-- The CONTROL frame of an append: a PROMPT_LOG transfer whose INDEX is the position of its first entry. -/
def State.appendFrame (s : State) (p : PartId) (m : Manifest) (dst : NodeId) (lo : Nat) (l : List (BitVec 32)) : Frame :=
  s.ctlFrame p.val dst (tagOfManifest m Ct.promptLog lo false false) (.logAppend (mReqId m) lo l)

/-- The owner appends from a position on, and waits for nothing. A log that cannot be read is left for the next append.
(DEDUCED: log 100) -/
def State.appendFrom (s : State) (p : PartId) (k lo : Nat) : State :=
  match s.mgrNode with
  | none => s
  | some n =>
    match s.unlogged p k lo with
    | (.error _, s) => s
    | (.ok l, s) =>
      if l = [] then s
      else
        let s := s.sendSeq (s.appendFrame p (s.manifest p k) n lo l)
        s.setSlot p k { s.slot p k with sentLog := lo + l.length }

/-- The appends that the owner makes by itself as tokens are committed: with the first output token of a turn, with the
first token after a turn was parked, and once a log interval (R21, Table 1.8). (DEDUCED: log 100) -/
def State.autoLog (s : State) (p : PartId) (k : Nat) : State :=
  let m := s.manifest p k
  let x := s.slot p k
  let lo := max x.logged x.sentLog
  if mTurnOutput m = 1 ∨ (x.oldSet.isSome ∧ x.sentLog = 0) ∨ s.regFld 0x2000 34 24 ≤ mNextPos m - lo then
    s.appendFrom p k lo
  else s

/-! ## Convoys (R133, R181, R182, R344) -/

/-- MEMBERS of a convoy's header counts its valid rows. -/
def State.cvCount (s : State) (p : PartId) (n : Nat) : State :=
  s.hsWrite p (s.cvBase p + 64 * n) (leBytes 4 (s.cvMembers p n).length)

def rowWord (valid : Bool) (status cause token pos : Nat) : Word :=
  setFld (setFld (setFld (setFld (setFld (0 : Word) 63 63 (b2n valid)) 62 60 status) 59 56 cause) 41 24 token) 23 0 pos

/-- The lowest invalid row of a convoy, as a row of the convoy table. -/
def State.cvFreeRow (s : State) (p : PartId) (n : Nat) : Option Nat :=
  ((List.range (s.cvCap p n)).map (s.cvFirst p n + ·)).find? fun r => !rowValid (s.cvWord p r)

/-- The token-log entry of a request at a position, where it can be read. -/
def State.logToken (s : State) (p : PartId) (m : Manifest) (pos : Nat) : Option Nat × State :=
  match s.reqRead p (mSrAddr m) 128 with
  | (.error _, s) => (none, s)
  | (.ok b, s) =>
    match s.reqRead p (srLogAddr b + 4 * pos) 4 with
    | (.ok e, s) => (some (leAt e 0 4 % 2 ^ 18), s)
    | (.error _, s) => (none, s)

/-- CV_JOIN's refusals write 0 to the predicate and change nothing (R182, R198, R344). The token of a log entry that
cannot be read is a free value. -/
def State.cvJoin (s : State) (c : Ctx) (n k : Nat) : State :=
  let p := c.p
  let bad := mCrcOk (s.manifest p k) = false
  let s := s.checkOwn p k
  let no := (s.modDrv p fun d => d.setPred c.disp (iDst c.w) false).perf p 30
  let m := s.manifest p k
  match s.cvFreeRow p n with
  | none => no
  | some r =>
    if bad ∨ (s.convoyRowOf p k).isSome ∨ mNextPos m = 0 ∨ (s.slot p k).done ∨ (s.part p).rowLimit ≤ r then no
    else
      let pos := mNextPos m - 1
      let (t, s) := s.logToken p m pos
      let v := t.getD (Config.unreadToken s.freeCount % 2 ^ 18)
      let s := if t.isNone then { s with freeCount := s.freeCount + 1 } else s
      let s := s.hsWrite p (s.cvRowAt p r) (wordBytes (rowWord true 0 0 v pos) ++ leBytes 8 k)
      (s.cvCount p n).modDrv p fun d => d.setPred c.disp (iDst c.w) true

/-- Whether an instruction that names a convoy is queued or running. -/
def Drover.namesConvoy (d : Drover) (n : Nat) : Bool := d.entries.any fun e => e.convoy = some n

/-- The frame of CV_JOIN and CV_LEAVE: a convoy that is not defined is OPERAND_RANGE at instruction scope, a slot out of
range a drover fault (Table 4.7, R127). -/
def State.cvOp (s : State) (p : PartId) (key : Nat) (f : Ctx → Nat → Nat → State → State) : State :=
  match s.begin p key with
  | (s, none) => s
  | (s, some c) =>
    let d := s.drv p
    let n := (d.sreg c.disp (iSrcA c.w)).toNat
    let k := (d.sreg c.disp (iSrcB c.w)).toNat
    if s.cvDefined p n = false then
      let r : FaultRec :=
        { status := St.operandRange, event := 0, queue := 15, opcode := iOp c.w, tag := 0xFFF, pc := c.pc, disp := c.disp,
          signal := 0xFF, insn := c.w, detail0 := BitVec.ofNat 64 n, detail1 := 0, time := 0, seq := 0 }
      (s.faultRecord p (if c.disp then some d.pktSerial else none) r).issued c c.next 1
    else if s.slotOk p k = false then s.rangeFault c k
    else if d.namesConvoy n then s.stall c none
    else (f c n k s).issued c c.next 1

/-- DESIGN CHOICE: log 33. -/
def execCvJoin (p : PartId) (s : State) : Res := .next (s.cvOp p 0x64 fun c n k s => s.cvJoin c n k)

/-- CV_LEAVE clears VALID of the member's row. -/
def State.cvLeave (s : State) (p : PartId) (n k : Nat) : State :=
  match (s.cvMembers p n).find? fun x => x.2 = k with
  | none => s
  | some (i, _) =>
    let r := s.cvFirst p n + i
    (s.hsWrite p (s.cvRowAt p r) (wordBytes (setFld (s.cvWord p r) 63 63 0))).cvCount p n

/-- DESIGN CHOICE: log 33. -/
def execCvLeave (p : PartId) (s : State) : Res := .next (s.cvOp p 0x65 fun c n k s => s.cvLeave c.p n k)

/-! ## Registers of the convoy table and the manifest table (R180, R423) -/

/-- A write of SMP_CV_CFGn: it is ignored, with an event, where it would make defined convoys overlap or a range end
beyond row 511, or where the convoy holds members. A value outside a field's range leaves the field unchanged. -/
def State.cvCfg (s : State) (p : PartId) (n : Nat) (v : Word) : State :=
  let o := ptBase p + 0x5008 + 8 * n
  let cap := if fld v 25 16 ≤ 512 then fld v 25 16 else s.cvCap p n
  let first := fld v 8 0
  let exceeding := (List.range 4).any fun k =>
    decide (k ≠ n) && decide (0 < s.cvCap p k) && decide (0 < cap) &&
      decide (first < s.cvFirst p k + s.cvCap p k) && decide (s.cvFirst p k < first + cap)
  if exceeding ∨ (0 < cap ∧ 512 < first + cap) ∨ s.cvMembers p n ≠ [] then s.writeIgnored o
  else s.setReg o (setFld (setFld (0 : Word) 25 16 cap) 8 0 first)

def execSmpCvCfgWrite (p : PartId) (n : Fin 4) (v : Word) (s : State) : Res := .next (s.ifReady (s.cvCfg p n.val v))

/-- A write of SEQ_MFT_BASE: applied only while no slot holds a request or receives one, and only for a multiple of 64
whose table ends inside hold SRAM (R423). -/
def State.mftBaseWrite (s : State) (p : PartId) (v : Word) : State :=
  let b := fld v 23 0
  let busy := s.heldSlots p ≠ [] ∨ ((s.part p).incoming.any fun i => !i.park) = true
  if busy ∨ b % 64 ≠ 0 ∨ hsramBytes < b + 65536 then s.writeIgnored (ptBase p + 0x1010)
  else s.setReg (ptBase p + 0x1010) (BitVec.ofNat 64 b)

def execSeqMftBaseWrite (p : PartId) (v : Word) (s : State) : Res := .next (s.ifReady (s.mftBaseWrite p v))

end Sys2Proof.Machine
end

