-- ==== Sys2Proof/Machine/Sampling.lean ====
section
/-! DEFINITION. The sampling unit: the generator (R188), grammars (R189 to R193), the choice of a token (R184 to R187), the
commit and the end of a turn (R194, R195), SMP_STEP and SMP_GRAMMAR. -/

namespace Sys2Proof.Machine

/-! ## The generator: Philox4x32-10 (R188) -/

def philoxRound (c : BitVec 32 × BitVec 32 × BitVec 32 × BitVec 32) (k0 k1 : BitVec 32) :
    BitVec 32 × BitVec 32 × BitVec 32 × BitVec 32 :=
  let p0 := 0xD2511F53 * c.1.toNat
  let p1 := 0xCD9E8D57 * c.2.2.1.toNat
  (BitVec.ofNat 32 (p1 / 2 ^ 32) ^^^ c.2.1 ^^^ k0, BitVec.ofNat 32 p1,
   BitVec.ofNat 32 (p0 / 2 ^ 32) ^^^ c.2.2.2 ^^^ k1, BitVec.ofNat 32 p0)

def philoxRounds : Nat → BitVec 32 × BitVec 32 × BitVec 32 × BitVec 32 → BitVec 32 → BitVec 32 →
    BitVec 32 × BitVec 32 × BitVec 32 × BitVec 32
  | 0, c, _, _ => c
  | n + 1, c, k0, k1 => philoxRounds n (philoxRound c k0 k1) (k0 + 0x9E3779B9#32) (k1 + 0xBB67AE85#32)

/-- Output word x0 of draw number `draws` of a request. -/
def philox (seed : BitVec 32) (id : ReqId) (draws : Nat) : BitVec 32 :=
  (philoxRounds 10 (BitVec.ofNat 32 draws, BitVec.ofNat 32 (draws / 2 ^ 32), (id >>> 32).setWidth 32, 0) seed
    (id.setWidth 32)).1

/-- u = (x0 >> 8) × 2^−24. -/
def drawU (seed : BitVec 32) (id : ReqId) (draws : Nat) : Fl := .fin false ((philox seed id draws).toNat / 256) (-24)

/-! ## Grammars (R189 to R192) -/

/-- A grammar table's header fields (Table 7.5). -/
structure GrHdr where
  states : Nat
  vocab : Nat
  start : Nat
  masks : Nat
  maskBytes : Nat
  stateOff : Nat
  maskOff : Nat
  transOff : Nat
  transCount : Nat
  deriving DecidableEq, Repr

def grHdr (b : Bytes) : GrHdr :=
  { states := leAt b 4 4, vocab := leAt b 8 4, start := leAt b 0xC 2, masks := leAt b 0x10 4, maskBytes := leAt b 0x14 4,
    stateOff := leAt b 0x18 4, maskOff := leAt b 0x1C 4, transOff := leAt b 0x20 4, transCount := leAt b 0x24 4 }

/-- The check of a table of `len` bytes (R190): the header, and every offset, index and count. `rd` reads bytes of it.
(DESIGN CHOICE: log 29) -/
def grammarOk (rd : Nat → Nat → Bytes) (len : Nat) : Bool :=
  if len < 64 then false
  else
    let b := rd 0 64
    let h := grHdr b
    let head :=
      decide (leAt b 0 4 = 0x4D524753) && decide (1 ≤ h.states) && decide (h.states ≤ 65536) && decide (1 ≤ h.vocab) &&
      decide (h.vocab ≤ 262144) && decide (h.start < h.states) && decide (1 ≤ h.masks) && decide (h.masks ≤ 65536) &&
      decide (h.maskBytes = ceilDiv h.vocab 256 * 32) && decide (h.stateOff % 32 = 0) && decide (h.maskOff % 32 = 0) &&
      decide (h.transOff % 32 = 0) && decide (h.stateOff + 16 * h.states ≤ len) &&
      decide (h.maskOff + h.masks * h.maskBytes ≤ len) && decide (h.transOff + 8 * h.transCount ≤ len)
    head &&
      ((List.range h.states).all fun i =>
        let e := rd (h.stateOff + 16 * i) 16
        decide (leAt e 0 2 < h.masks) && (!bitOf (e.getD 4 0) 1 || decide (leAt e 2 2 < h.states)) &&
          decide (leAt e 8 4 + leAt e 0xC 4 ≤ h.transCount)) &&
      ((List.range h.transCount).all fun i => decide (leAt (rd (h.transOff + 8 * i) 8) 4 2 < h.states))

def State.grammar (s : State) (p : PartId) (n : Nat) : Option Grammar := tabFind (s.part p).grammars n

def State.grRead (s : State) (p : PartId) (g : Grammar) (o n : Nat) : Bytes := s.hsRead p (g.addr + o) n

/-- A state's table entry; none for a state at or above STATES. -/
def State.grState (s : State) (p : PartId) (g : Grammar) (st : Nat) : Option Bytes :=
  let h := grHdr (s.grRead p g 0 64)
  if st < h.states then some (s.grRead p g (h.stateOff + 16 * st) 16) else none

/-- The next state after a token (R191); none where there is none. (DESIGN CHOICE: log 29) -/
def State.grNext (s : State) (p : PartId) (g : Grammar) (st tok : Nat) : Option Nat :=
  let h := grHdr (s.grRead p g 0 64)
  match s.grState p g st with
  | none => none
  | some e =>
    let first := leAt e 8 4
    match (List.range (leAt e 0xC 4)).findSome? fun i =>
        let t := s.grRead p g (h.transOff + 8 * (first + i)) 8
        if leAt t 0 4 % 2 ^ 18 = tok then some (leAt t 4 2) else none with
    | some n => some n
    | none => if bitOf (e.getD 4 0) 1 then some (leAt e 2 2) else none

def State.grFinal (s : State) (p : PartId) (g : Grammar) (st : Nat) : Bool :=
  match s.grState p g st with
  | some e => bitOf (e.getD 4 0) 0
  | none => false

/-- Whether a state's mask, and VOCAB, allow a token (R189, step 6). A state at or above STATES has no mask.
(DESIGN CHOICE: log 29) -/
def State.grAllows (s : State) (p : PartId) (g : Grammar) (st tok : Nat) : Bool :=
  let h := grHdr (s.grRead p g 0 64)
  decide (tok < h.vocab) &&
    (match s.grState p g st with
      | none => true
      | some e =>
        let b := s.grRead p g (h.maskOff + leAt e 0 2 * h.maskBytes + tok / 8) 1
        bitOf (b.getD 0 0) (tok % 8))

/-- The grammar that an SMP_GRAMMAR names is installed when it retires, its commit point (Table 4.12, R121). -/
def State.installGrammar (s : State) (p : PartId) (e : QEntry) : State :=
  s.modPart p fun x => { x with grammars := tabPut x.grammars e.sa.toNat ⟨tAddr e.da, tCols e.da⟩ }

/-- SMP_GRAMMAR checks the table; `State.installGrammar` installs it at retire (R190). -/
def State.smpGrammar (s : State) (p : PartId) (q : Nat) (e : QEntry) : State :=
  let n := e.sa.toNat
  if 16 ≤ n then s.instrFault p q e St.operandRange n 0
  else if tFmt e.da ≠ 5 ∨ tRows e.da ≠ 1 then s.shapeFault p q e 0
  else
    let g : Grammar := ⟨tAddr e.da, tCols e.da⟩
    if grammarOk (s.grRead p g) g.len then s.finish p q e 64 false else s.shapeFault p q e 0

def execSmpGrammar (p : PartId) (a : Act) (s : State) : Res :=
  .next (s.engineRow p 0x51 a fun q e s => s.smpGrammar p q e)

/-! ## The choice of a token (Table 7.4) -/

def f32One : BitVec 32 := 0x3F800000#32

/-- The penalties of a sampler record are off (R186). -/
def srPenOff (b : Bytes) : Bool := decide (srRepPen b = f32One) && f32Zero (srFreqPen b) && f32Zero (srPresPen b)

def srSampled (b : Bytes) : Bool := !f32Zero (srTemp b)

def entryTok (e : Nat) : Nat := e % 2 ^ 18
def entryOut (e : Nat) : Bool := decide (e / 2 ^ 31 % 2 = 1)
def entryStart (e : Nat) : Bool := decide (e / 2 ^ 30 % 2 = 1)

def negInf : Fl := .inf true

/-- Steps 1 to 5 for token `t`. -/
def zValue (b : Bytes) (win : List Nat) (t : Nat) (logit : Fl) : Fl :=
  let z := if logit.isNan then negInf else logit
  let z := if srRepPen b ≠ f32One ∧ (win.any fun e => entryTok e = t) then
    (if Fl.lt .zero z then f32div z (ofF32 (srRepPen b)) else f32mul z (ofF32 (srRepPen b))) else z
  let c := (win.filter fun e => entryOut e && entryTok e == t).length
  let z := if f32Zero (srFreqPen b) ∨ c = 0 then z else f32sub z (f32mul (ofF32 (srFreqPen b)) (round32 (.fin false c 0)))
  let z := if f32Zero (srPresPen b) ∨ c = 0 then z else f32sub z (ofF32 (srPresPen b))
  if srSampled b then f32div z (ofF32 (srTemp b)) else z

/-- Insert into a list that falls in value and, for equal values, rises in token. -/
def insertFalling (x : Fl × Nat) : List (Fl × Nat) → List (Fl × Nat)
  | [] => [x]
  | y :: r => if Fl.lt y.1 x.1 ∨ (Fl.eqv x.1 y.1 ∧ x.2 < y.2) then x :: y :: r else y :: insertFalling x r

def sortFalling (l : List (Fl × Nat)) : List (Fl × Nat) := l.foldl (fun a x => insertFalling x a) []

/-- FP32 sum in walk order (R185). -/
def walkSum (l : List (Fl × Nat)) : Fl := l.foldl (fun a x => f32add a x.1) .zero

/-- The shortest prefix whose running sum reaches a bound; all of it where none does. -/
def prefixTo (bound : Fl) : Fl → List (Fl × Nat) → List (Fl × Nat)
  | _, [] => []
  | acc, x :: r =>
    let a := f32add acc x.1
    if Fl.le bound a then [x] else x :: prefixTo bound a r

/-- The first token whose running sum exceeds a bound; the last one where none does (R185). -/
def pickAbove (bound : Fl) : Fl → List (Fl × Nat) → Nat → Nat
  | _, [], last => last
  | acc, x :: r, _ =>
    let a := f32add acc x.1
    if Fl.lt bound a then x.2 else pickAbove bound a r x.2

/-- Steps 6 to 11: the token chosen from values z, or none where every value is −∞ (R187). A token of value −∞ is never
chosen. (DEDUCED: log 30) -/
def chooseToken (b : Bytes) (allow : Nat → Bool) (z : List Fl) (u : Fl) : Option Nat :=
  let cand := (z.zipIdx.filter fun x => decide (x.1 ≠ negInf) && allow x.2)
  match sortFalling cand with
  | [] => none
  | top :: rest =>
    if srSampled b = false then some top.2
    else
      let l := if srTopK b = 0 then top :: rest else (top :: rest).take (srTopK b)
      -- step 8: the largest value has p = 1.0
      let p := sortFalling (l.map fun x => (if Fl.eqv x.1 top.1 then .fin false 1 0 else sfu 0 (f32sub x.1 top.1), x.2))
      let p := if f32Zero (srMinP b) then p else p.filter fun x => !(Fl.lt x.1 (ofF32 (srMinP b)))
      let p := if srTopP b = f32One then p else prefixTo (f32mul (ofF32 (srTopP b)) (walkSum p)) .zero p
      some (pickAbove (f32mul u (walkSum p)) .zero p top.2)

/-! ## One member of a step -/

/-- A valid row of the convoy as prepared: its convoy-table row, its slot, its sampler record where it could be read, its
penalty window, the CLK_A its reads take, whether a replay found no next grammar state, and its passes. -/
structure Member where
  index : Nat
  row : Nat
  slot : Nat
  sr : Option Bytes
  win : List Nat
  wait : Nat
  stuck : Bool
  passes : Nat
  deriving DecidableEq, Repr

/-- Entries `lo` to `hi − 1` of a token log. -/
def State.logEntries (s : State) (p : PartId) (b : Bytes) (lo hi : Nat) : Except Miss (List Nat) × State :=
  match s.reqRead p (srLogAddr b + 4 * lo) (4 * (hi - lo)) with
  | (.ok l, s) => (.ok ((List.range (hi - lo)).map fun i => leAt l (4 * i) 4), s)
  | (.error x, s) => (.error x, s)

/-- Entries after the last one with TURN_START set. -/
def turnEntries (l : List Nat) : List Nat :=
  l.foldl (fun a e => if entryStart e then [] else a ++ [e]) []

/-- Walk a grammar over tokens: the state reached, and whether a token found no next state. -/
def State.grWalk (s : State) (p : PartId) (g : Grammar) : List Nat → Nat → Nat × Bool
  | [], st => (st, false)
  | t :: r, st =>
    match s.grNext p g st t with
    | some n => State.grWalk s p g r n
    | none => (st, true)

/-- Write the sampler record of a request. -/
def State.putSr (s : State) (p : PartId) (m : Manifest) (b : Bytes) : Option Miss × State :=
  match s.ownAddr (mSrAddr m) with
  | none => (some ⟨St.operandRange, mSrAddr m, 2⟩, s)
  | some a =>
    match s.stWrite (s.jobOf p) a (srSeal b) with
    | (none, s) => (none, s)
    | (some x, s) => (some x.miss, s)

/-- Rebuild the grammar state of a record with REPLAY set (R192): the record, the entries walked, whether it stopped. -/
def State.smpReplay (s : State) (p : PartId) (m : Manifest) (b : Bytes) : Except Miss (Bytes × Nat × Bool) × State :=
  let clear := fun b : Bytes => setLe b 0x54 1 (leAt b 0x54 1 / 2 * 2)
  match (if srGrammar b = 0xFFFF then none else s.grammar p (srGrammar b)) with
  | none =>
    match s.putSr p m (clear b) with
    | (none, s) => (.ok (srSeal (clear b), 0, false), s)
    | (some x, s) => (.error x, s)
  | some g =>
    match s.logEntries p b 0 (mNextPos m) with
    | (.error x, s) => (.error x, s)
    | (.ok l, s) =>
      let ts := ((turnEntries l).filter entryOut).map entryTok
      let r := s.grWalk p g ts (grHdr (s.grRead p g 0 64)).start
      let b := setLe (clear b) 0x1E 2 r.1
      match s.putSr p m b with
      | (none, s) => (.ok (srSeal b, ts.length, r.2), s)
      | (some x, s) => (.error x, s)

/-- Passes of a member under its record (Table 4.12). -/
def srPasses (b : Bytes) : Nat :=
  2 + b2n (decide (srGrammar b ≠ 0xFFFF)) + b2n (decide (srTopP b ≠ f32One) || !f32Zero (srMinP b))

/-- Prepare one member: its record, its replay and its window are read (R186, R192, R447). A far port that is down stops
the instruction. (DEDUCED: log 30; DESIGN CHOICE: log 31) -/
def State.smpPrep (s : State) (p : PartId) (q : Nat) (e : QEntry) (i slot : Nat) : Except Miss Member × State :=
  let m := s.manifest p slot
  let none_ : Member := ⟨i, s.cvFirst p e.sa.toNat + i, slot, none, [], 0, false, 2⟩
  let fail := fun (x : Miss) (s : State) =>
    if x.status = St.cxlLinkDown then (Except.error x, s) else (.ok none_, s.slotFault p q e slot x.status x.d0 x.d1)
  if (s.slot p slot).held = false then (.ok none_, s)
  else if mCrcOk m = false then (.ok none_, s.crcFailed p slot)
  else
    match s.reqRead p (mSrAddr m) 128 with
    | (.error x, s) => fail x s
    | (.ok b, s) =>
      let idle := (s.slot p slot).faulted || (s.slot p slot).done
      match (if srReplay b && !idle then s.smpReplay p m b else (.ok (b, 0, false), s)) with
      | (.error x, s) => fail x s
      | (.ok (b, k, stuck), s) =>
        let lo := if srPenWindow b = 0 then 0 else mNextPos m - srPenWindow b
        match (if srPenOff b || idle then (.ok [], s) else s.logEntries p b lo (mNextPos m)) with
        | (.error x, s) => fail x s
        | (.ok win, s) =>
          (.ok ⟨i, s.cvFirst p e.sa.toNat + i, slot, some b, win, ceilDiv win.length 32 + (ceilDiv k 32 + k), stuck,
            srPasses b⟩, s)

/-- STATUS and CAUSE of a row, the rest of its first word as it stands. -/
def State.rowStatus (s : State) (p : PartId) (r status cause : Nat) : State :=
  s.hsWrite p (s.cvRowAt p r) (wordBytes (setFld (setFld (s.cvWord p r) 62 60 status) 59 56 cause))

/-- Prompt tokens counted at a turn's first commit: the positions from its TURN_START entry on (Table 13.7).
(DEDUCED: log 32) -/
def State.promptTokens (s : State) (p : PartId) (m : Manifest) (b : Bytes) : Nat × State :=
  match s.logEntries p b 0 (mNextPos m) with
  | (.ok l, s) => ((l.zipIdx.foldl (fun a x => if entryStart x.1 then mNextPos m - x.2 else a) (mNextPos m)), s)
  | (.error _, s) => (0, s)

/-- The commit of a token (R194): the log entry, the counts, the record, the tariff counters and the row are written; the
row's STATUS and CAUSE are returned. A log or record that cannot be written faults the member, but for a far port that is
down: that stops the instruction (R94, R447). (DESIGN CHOICE: log 29; DEDUCED: log 30; DEDUCED: log 32) -/
def State.smpCommit (s : State) (p : PartId) (q : Nat) (e : QEntry) (x : Member) (b : Bytes) (tok : Nat) :
    Except Miss ((Nat × Nat) × State) :=
  let m := s.manifest p x.slot
  let fail := fun (z : Miss) (s : State) =>
    if z.status = St.cxlLinkDown then Except.error z
    else .ok ((3, 8), s.slotFault p q e x.slot z.status z.d0 z.d1)
  let pos := mNextPos m
  let g := if srGrammar b = 0xFFFF then none else some (s.grammar p (srGrammar b))
  let cur := match g with
    | some (some g) => if mTurnOutput m = 0 then (grHdr (s.grRead p g 0 64)).start else srGstate b
    | _ => srGstate b
  let next := match g with | some (some g) => s.grNext p g cur tok | _ => none
  let b' := setLe (match next with | some n => setLe b 0x1E 2 n | none => b) 0x20 8 (srDraws b + 1)
  let la := srLogAddr b + 4 * pos
  match (match s.ownAddr la with
      | some a => (s.stCheck (s.jobOf p) a 4).map AccErr.miss
      | none => some ⟨St.operandRange, la, 2⟩) with
  | some z => fail z s
  | none =>
    match s.putSr p m b' with
    | (some z, s) => fail z s
    | (none, s) =>
      let (n, s) := if mTurnOutput m = 0 then s.promptTokens p m b else (0, s)
      let s := if mTurnOutput m = 0 then s.meterAdd (mTenant m) 0 n else s
      let s := (s.stWrite (s.jobOf p) (la % 2 ^ 42) (leBytes 4 (logEntry true false tok).toNat)).2
      let out := min (mTurnOutput m + 1) 65535
      let m' := { m with
        w3 := setFld m.w3 23 0 (pos + 1), w4 := setFld (setFld m.w4 23 0 (mOutput m + 1)) 39 24 out }
      let s := (s.setManifest p x.slot (mSeal m')).autoLog p x.slot
      let s := s.meterAdd (mTenant m) 1 1
      let s := s.hsWrite p (s.cvRowAt p x.row) (wordBytes (setFld (setFld (s.cvWord p x.row) 41 24 tok) 23 0 pos))
      let final := match g, next with | some (some g), some n => s.grFinal p g n | _, _ => false
      let r := if g.isSome ∧ next.isNone then (2, 6)
        else if (srEnd b).contains tok then (2, 1)
        else if final then (2, 3)
        else if srTurnLimit b ≤ out then (2, 2)
        else (1, 0)
      let s := if r.1 = 2 ∧ mFlag m flKeep = false then s.setSlot p x.slot { s.slot p x.slot with done := true } else s
      .ok (r, s)

/-- What a row's outcome says of its request (Tables 1.2, 7.3): a commit is a token of this partition; the turn has ended
with STATUS 2, and with STATUS 3 where no token can follow (CAUSE 4, 5 or 6). (DESIGN CHOICE: log 34) -/
def State.noteTurn (s : State) (p : PartId) (k status cause : Nat) : State :=
  let x := s.slot p k
  if status = 1 then s.setSlot p k { x with tokenHere := true, turnEnded := false }
  else if status = 2 then s.setSlot p k { x with tokenHere := true, turnEnded := true }
  else if cause = 4 ∨ cause = 5 ∨ cause = 6 then s.setSlot p k { x with turnEnded := true }
  else s

/-- One valid row (R195): the first case of Table 7.3 that applies. (DEDUCED: log 30) -/
def State.smpRow (s : State) (p : PartId) (q : Nat) (e : QEntry) (x : Member) : Except Miss State :=
  let logits := s.tensorRow p e.da x.index
  let s := s.addReg (ptBase p + 0x5040) (logits.filter Fl.isNan).length
  let m := s.manifest p x.slot
  let y := s.slot p x.slot
  let r : Except Miss ((Nat × Nat) × State) :=
    if y.done then .ok ((3, 9), s)
    else if y.faulted ∨ y.leaving ∨ s.owns p x.slot = false ∨ terminal (mPhase m) then .ok ((3, 8), s)
    else if y.cancel then .ok ((3, 7), s.cancelEffect p x.slot)
    else
      match x.sr with
      | none => .ok ((3, 8), s)
      | some b =>
        if srLogCap b ≤ mNextPos m then
          .ok ((3, 4), (s.addReg (ptBase p + 0x5048) 1).raise Ev.logCapReached St.ok p.val 0xFF (reqWord m))
        else if mNextPos m = 16777215 then .ok ((3, 4), s.addReg (ptBase p + 0x5048) 1)
        else if x.stuck then
          .ok ((3, 6), if mFlag m flKeep then s else s.setSlot p x.slot { y with done := true })
        else
          let gr := if srGrammar b = 0xFFFF then none else s.grammar p (srGrammar b)
          let allow := fun t => match gr with
            | some g =>
              s.grAllows p g (if mTurnOutput m = 0 then (grHdr (s.grRead p g 0 64)).start else srGstate b) t
            | none => true
          let z := logits.zipIdx.map fun l => zValue b x.win l.2 l.1
          match chooseToken b allow z (drawU (mSeed m) (mReqId m) (srDraws b)) with
          | none =>
            .ok ((3, 5), (s.addReg (ptBase p + 0x5048) 1).raise Ev.noTokenAllowed St.ok p.val 0xFF (reqWord m))
          | some t => s.smpCommit p q e x b t
  match r with
  | .ok r => .ok ((r.2.noteTurn p x.slot r.1.1 r.1.2).rowStatus p x.row r.1.1 r.1.2)
  | .error z => .error z

/-- The valid rows, in ascending order. -/
def State.smpRows (p : PartId) (q : Nat) (e : QEntry) : List Member → State → Except Miss State
  | [], s => .ok s
  | x :: r, s =>
    match s.smpRow p q e x with
    | .ok s => State.smpRows p q e r s
    | .error z => .error z

/-- CLK_A that the unit waits for windows and replays (R186, R192): a member's reads overlap the time of the member before
it; those of the first member overlap the 32 CLK_A of the instruction's own cost. (DESIGN CHOICE: log 31) -/
def smpStalls (t : Nat) : List Member → Nat → Nat
  | [], _ => 0
  | x :: r, prev => (x.wait - prev) + smpStalls t r t

/-- Prepare every valid row, in ascending order. -/
def State.smpPrepAll (p : PartId) (q : Nat) (e : QEntry) :
    List (Nat × Nat) → State → Except Miss (List Member) × State
  | [], s => (.ok [], s)
  | (i, k) :: r, s =>
    match s.smpPrep p q e i k with
    | (.error x, s) => (.error x, s)
    | (.ok a, s) =>
      match State.smpPrepAll p q e r s with
      | (.ok l, s) => (.ok (a :: l), s)
      | (.error x, s) => (.error x, s)

/-- SMP_STEP (R184, R194). One that faults at instruction scope has no effect (Table 3.6). It counts as committed once
its effect is done, also where no row commits a token. (DESIGN CHOICE: log 31; DESIGN CHOICE: log 97) -/
def State.smpStep (s : State) (p : PartId) (q : Nat) (e : QEntry) : State :=
  let n := e.sa.toNat
  let v := tCols e.da
  if 2 < tFmt e.da ∨ 262144 < v ∨ tRows e.da < s.cvCap p n then s.shapeFault p q e 0
  else
    match State.smpPrepAll p q e (s.cvMembers p n) s with
    | (.error x, s) => s.instrFault p q e x.status x.d0 x.d1
    | (.ok l, s) =>
      let ps := l.foldl (fun a x => max a x.passes) 0
      let t := 32 + ps * ceilDiv v 256
      let s := s.addReg (ptBase p + 0x5050) (smpStalls t l 32)
      match State.smpRows p q e l s with
      | .error x => s.instrFault p q e x.status x.d0 x.d1
      | .ok s => s.finish p q e (32 + l.length * t) true

def execSmpStep (p : PartId) (a : Act) (s : State) : Res :=
  .next (s.engineRow p 0x50 a fun q e s => s.smpStep p q e)

end Sys2Proof.Machine
end

