-- ==== Sys2Proof/Machine/Parked.lean ====
section
/-! DEFINITION. Parked requests: where a cache set keeps them (R53, R66, R296, R297), the fetch of a resumed request
(R298, R41), the release of a set (R20, R297). -/

namespace Sys2Proof.Machine

/-! ## Own copies of a request's structures -/

/-- State address of a receiver's own copy of a request's page table (0), sampler record (1) or token log (2): a free
value (assumption log 3). (DESIGN CHOICE: log 42) -/
def State.copyAddr (s : State) (which : Nat) (p : PartId) (k : Nat) : Nat :=
  Config.ownCopy which ((s.jobOf p).getD 0) p.val k * 64 % 2 ^ 42

def State.nodeBase (s : State) : Nat := s.fab.node.val * 2 ^ 42

def fabAddr (n : NodeId) (a : Nat) : Nat := n.val * 2 ^ 42 + a

/-! ## Stripes (R243, R296) -/

/-- The carried length of a page. -/
def carried (g : Geom) (pageBytes : Nat) (d : Word) : Nat := if dCompressed d then pageBytes else g.pageSize (dFmt d)

/-- The carried length rounded up to 256 bytes: Z of R296. -/
def roundZ (n : Nat) : Nat := ceilDiv n 256 * 256

/-- Member that holds the parity stripe of the page with descriptor index `q`; member that holds data stripe `j`. -/
def parityMember (q : Nat) : Nat := q % 5
def dataMember (q j : Nat) : Nat := (q + 1 + j) % 5

/-- Byte-wise XOR of two runs of bytes of one length. -/
def xorBytes (a b : Bytes) : Bytes := List.zipWith (· ^^^ ·) a b

/-- What member `i` of a set holds of a page's carried bytes. -/
def stripeOf (coded : Bool) (q i : Nat) (b : Bytes) : Bytes :=
  let z := roundZ b.length
  let b := fitBytes z b
  if coded = false then b
  else
    let part := fun j => (b.drop (j * (z / 4))).take (z / 4)
    if i = parityMember q then
      [1, 2, 3].foldl (fun a j => xorBytes a (part j)) (part 0)
    else ((List.range 4).find? fun j => dataMember q j = i).elim [] part

/-- Bytes of a page's slot on one member that hold it. -/
def stripeLen (coded : Bool) (carriedLen : Nat) : Nat := if coded then roundZ carriedLen / 4 else roundZ carriedLen

/-! ## Reads of other nodes by the hub (R48, R64, R298) -/

/-- Bytes of a run of fabric addresses: there, or the lines still to be read from another node, or a refusal. -/
inductive Got where
  | bytes (b : Bytes)
  | lines (l : List Nat)
  | refused
  deriving DecidableEq, Repr

def lineSpan (a n : Nat) : List Nat :=
  let lo := a / 64
  (List.range (if n = 0 then 0 else (a + n - 1) / 64 - lo + 1)).map fun i => (lo + i) * 64

def State.gather (s : State) (p : PartId) (have_ : Tab Bytes) (a n : Nat) : Got × State :=
  match s.ownAddr a with
  | some a =>
    match s.stRead (s.jobOf p) a n with
    | (.ok b, s) => (.bytes b, s)
    | (.error _, s) => (.refused, s)
  | none =>
    match (lineSpan a n).filter fun l => (tabFind have_ l).isNone with
    | [] =>
      let b := (lineSpan a n).flatMap fun l => (tabFind have_ l).getD (zeros 64)
      (.bytes ((b.drop (a % 64)).take n), s)
    | l => (.lines l, s)

/-- The first run of lines that no translation window of the partition's job lets through (R282). -/
def State.askRefused (s : State) (p : PartId) (tag : Tag) (lines : List Nat) : Option (Nat × Nat) :=
  (lineRuns lines).find? fun r => !s.sendOk p (tagTenant tag) false r.1 (64 * r.2)

/-- Send READ_REQ frames for lines, as many as the replay buffer takes; how many were sent. -/
def State.askLines (s : State) (p : PartId) (q uid cls : Nat) (tag : Tag) (lines : List Nat) : State × Nat :=
  let r := (lineRuns lines).foldl (fun (acc : State × Nat × Bool) r =>
    let (s, n, full) := acc
    let dst := nodeOf (r.1 / 2 ^ 42)
    if full ∨ s.replayRoom p.val dst 64 = false then (s, n, true)
    else
      let comb := s.insideRange r.1 (64 * r.2)
      let f := NewFrame.build
        { tag := if comb then tagWithContent tag Ct.sharedRead else tag, type := Ft.readReq, cls := cls, dst := dst,
          src := s.fab.node, unit := p.val, lines := r.2, combine := comb, addr := r.1 } none (.bytes [])
      (s.sendSeq f (some (p, q, uid)) r.1, n + 1, false)) (s, 0, false)
  (r.1, r.2.1)

def putLines (t : Tab Bytes) (a : Nat) (b : Bytes) : Tab Bytes :=
  (List.range (b.length / 64)).foldl (fun l i => tabPut l (a + 64 * i) ((b.drop (64 * i)).take 64)) t

/-! ## Leaving a partition -/

/-- A request whose state the partition no longer owns: pages returned, its adapter slot unpinned (R13, R76). -/
def State.departed (s : State) (p : PartId) (k : Nat) : State :=
  let m := s.manifest p k
  let s := (s.freePages p k).adRef m false
  s.setSlot p k { s.slot p k with gone := true }

/-! ## The fetch of a resumed request (R298) -/

/-- The owner number of a fetch's reads: queue 10. -/
def fetchQueue : Nat := 10

def State.setFetch (s : State) (p : PartId) (f : Fetch) : State :=
  s.modPart p fun x => { x with fetches := x.fetches.map fun y => if y.slot = f.slot then f else y }

def State.dropFetch (s : State) (p : PartId) (k : Nat) : State :=
  (s.disown (p, fetchQueue, k)).modPart p fun x => { x with fetches := x.fetches.filter fun y => y.slot ≠ k }

/-- Members of a set that a reader treats as lost. -/
def State.lostMembers (s : State) (c : CacheSet) (f : Fetch) : List NodeId :=
  c.members.filter fun n => s.nodeState n = .removed ∨ f.lost.contains n

/-- The first member that is not lost. -/
def State.firstMember (s : State) (c : CacheSet) (f : Fetch) : Option NodeId :=
  c.members.find? fun n => !(s.lostMembers c f).contains n

/-- One page as fetched: its bytes and the stripes rebuilt; lines to read first; the reader's own part of it refused; or too
many members lost. -/
inductive PageGot where
  | page (b : Bytes) (rebuilt : Nat) (second : Bool)
  | lines (l : List Nat)
  | refused
  | lost
  deriving DecidableEq, Repr

/-- What the reader holds of every part of a list of (member, length), or what is still to be read. -/
def State.gatherAll (p : PartId) (have_ : Tab Bytes) (a n : Nat) :
    List NodeId → State → (List Bytes × List Nat × Bool) × State
  | [], s => (([], [], false), s)
  | m :: r, s =>
    let (g, s) := s.gather p have_ (fabAddr m a) n
    let (x, s) := State.gatherAll p have_ a n r s
    match g with
    | .bytes b => ((b :: x.1, x.2.1, x.2.2), s)
    | .lines l => (([] :: x.1, l ++ x.2.1, x.2.2), s)
    | .refused => (([] :: x.1, x.2.1, true), s)

/-- Read a parked page: four data stripes, or three and the parity; of a mirrored page, member 0, else member 1. -/
def State.fetchPage (s : State) (p : PartId) (c : CacheSet) (f : Fetch) (q a len : Nat) : PageGot × State :=
  let lost := s.lostMembers c f
  let mem := fun i => c.members.getD i 0
  if c.coded then
    let n := roundZ len / 4
    let miss := (List.range 4).filter fun j => lost.contains (mem (dataMember q j))
    match miss with
    | [] =>
      let (x, s) := State.gatherAll p f.lines a n ((List.range 4).map fun j => mem (dataMember q j)) s
      if x.2.2 then (.refused, s)
      else if x.2.1 ≠ [] then (.lines x.2.1, s)
      else (.page (x.1.flatten.take len) 0 false, s)
    | [j] =>
      if lost.contains (mem (parityMember q)) then (.lost, s)
      else
        let rest := (List.range 4).filter (· ≠ j)
        let (x, s) := State.gatherAll p f.lines a n (mem (parityMember q) :: rest.map fun i => mem (dataMember q i)) s
        if x.2.2 then (.refused, s)
        else if x.2.1 ≠ [] then (.lines x.2.1, s)
        else
          let again := (x.1.drop 1).foldl xorBytes (x.1.headD [])
          let data := x.1.drop 1
          let all := data.take j ++ [again] ++ data.drop j
          (.page (all.flatten.take len) 1 false, s)
    | _ => (.lost, s)
  else
    match [0, 1].find? fun i => !lost.contains (mem i) with
    | none => (.lost, s)
    | some i =>
      match s.gather p f.lines (fabAddr (mem i) a) (roundZ len) with
      | (.bytes b, s) => (.page (b.take len) 0 (decide (i = 1)), s)
      | (.lines l, s) => (.lines l, s)
      | (.refused, s) => (.refused, s)

/-- A request whose parked state cannot be rebuilt: the manager is told, and the target gives up what it holds of it. -/
def State.fetchLost (s : State) (p : PartId) (f : Fetch) : State :=
  let s := s.dropFetch p f.slot
  let m := s.manifest p f.slot
  let s := s.sendMgr p (ctlTagM m) (.lostRequest f.id .state (some m))
  let j := (s.jobOf p).getD 0
  let s := f.pages.foldl (fun s k => s.poolGive j k) s
  let s := s.adRef (s.manifest p f.slot) false
  s.setSlot p f.slot { s.slot p f.slot with gone := true }

/-- What a fetch holds of its pages, in descriptor order: what has been read, what is still to be read, whether a page is
lost, whether the reader's own part of one is refused, the stripes rebuilt, whether a second member was read. -/
structure PagesGot where
  pages : List Bytes
  lines : List Nat
  lost : Bool
  refused : Bool
  rebuilt : Nat
  second : Bool
  deriving DecidableEq, Repr

def State.fetchPages (p : PartId) (c : CacheSet) (f : Fetch) (g : Geom) (pb : Nat) :
    List (Nat × Word) → State → PagesGot × State
  | [], s => (⟨[], [], false, false, 0, false⟩, s)
  | (q, d) :: r, s =>
    let (x, s) := s.fetchPage p c f q (dAddr d) (carried g pb d)
    let (y, s) := State.fetchPages p c f g pb r s
    match x with
    | .page b k two => ({ y with pages := b :: y.pages, rebuilt := k + y.rebuilt, second := two || y.second }, s)
    | .lines l => ({ y with pages := [] :: y.pages, lines := l ++ y.lines }, s)
    | .refused => ({ y with pages := [] :: y.pages, refused := true }, s)
    | .lost => ({ y with pages := [] :: y.pages, lost := true }, s)

/-- The manifest of a resumed request with what its parked copy brings: the sticky flags that the copy had gathered (R53,
R56). A copy that fails its CRC brings nothing and raises the event (R59). -/
def State.takeParkedFlags (s : State) (p : PartId) (k : Nat) (id : ReqId) (m : Manifest) : State :=
  if mCrcOk m = false then s.raise Ev.manifestCrcRx St.ok 23 s.fab.via (reqWord (s.manifest p k))
  else if mReqId m = id then s.setManifest p k (mMerge (s.manifest p k) m)
  else s

/-- The pages have all come: they are written to the pool slots, the page table and the sampler record to the target's own
copies, and RECONSTRUCTED is set where redundancy was used (R41). A copy that cannot be written loses the request.
(DESIGN CHOICE: log 58) -/
def State.fetchDone (s : State) (p : PartId) (f : Fetch) (ds : List (Nat × Word)) (mft : Manifest) (table sr : Bytes)
    (pages : List Bytes) (rebuilt : Nat) (second : Bool) : State :=
  let k := f.slot
  let j := (s.jobOf p).getD 0
  let at_ := fun i => s.poolBase j + f.pages.getD i 0 * s.slotBytes j
  let put := fun (t : Bytes) (x : (Nat × Word) × Nat) =>
    setLe t (64 + 8 * x.1.1) 8 (setFld (setFld x.1.2 58 58 0) 51 12 ((s.nodeBase + at_ x.2) / 4096)).toNat
  let table := ds.zipIdx.foldl put table
  let sr := srSeal (setLe sr 0x40 8 (s.nodeBase + s.copyAddr 2 p k))
  let parts := (s.copyAddr 0 p k, table) :: (s.copyAddr 1 p k, sr) :: pages.zipIdx.map fun x => (at_ x.2, x.1)
  if (f.pages.length < pages.length) ∨ (parts.any fun x => (s.stCheck (s.jobOf p) x.1 x.2.length).isSome) then
    s.fetchLost p f
  else
    let s := s.dropFetch p k
    let s := parts.foldl (fun s x => (s.stWrite (s.jobOf p) x.1 x.2).2) s
    let s := (f.pages.drop pages.length).foldl (fun s k => s.poolGive j k) s
    let s := (s.addReg 0x301070 rebuilt).takeParkedFlags p k f.id mft
    (if 0 < rebuilt ∨ second then s.setManifest p k (mWithFlag (s.manifest p k) flReconstructed true) else s).sharedCheck p k

/-- What a fetch does next with what it holds: it asks for lines, goes on without a member whose part it cannot read, gives
up, or ends. -/
inductive FetchNext where
  | ask (l : List Nat)
  | without (n : NodeId)
  | lost
  | done (ds : List (Nat × Word)) (mft : Manifest) (table sr : Bytes) (x : PagesGot)
  deriving DecidableEq, Repr
/-- The manifest, the sampler record and the page table are read from the first member that is not lost, then the pages
(R53, R298). The members' own record holds the request's draws and grammar state as they were parked. Of a coded set
these structures have no primary copy: a read of them from another member than the first is no use of redundancy (R41).
(DESIGN CHOICE: log 58) -/
def State.fetchLook (s : State) (p : PartId) (f : Fetch) : FetchNext × State :=
  match s.setUnder (s.manifest p f.slot) with
  | none => (.lost, s)
  | some c =>
    match s.firstMember c f with
    | none => (.lost, s)
    | some n =>
      let second := decide (c.coded = false) && decide (c.members.head? ≠ some n)
      match s.gather p f.lines (fabAddr n f.base) 192 with
      | (.refused, s) => (.without n, s)
      | (.lines l, s) => (.ask l, s)
      | (.bytes hd, s) =>
        match s.gather p f.lines (fabAddr n (f.base + 256)) 64 with
        | (.refused, s) => (.without n, s)
        | (.lines l, s) => (.ask l, s)
        | (.bytes hb, s) =>
          let h := ptHdrOf hb
          match s.gather p f.lines (fabAddr n (f.base + 256)) (64 + 8 * (h.pages * h.layers)) with
          | (.refused, s) => (.without n, s)
          | (.lines l, s) => (.ask l, s)
          | (.bytes table, s) =>
            let ds := (List.range (h.pages * h.layers)).filterMap fun q =>
              let d : Word := wordOf (table.drop (64 + 8 * q))
              if dValid d ∧ dParked d then some (q, d) else none
            let (x, s) := State.fetchPages p c f (s.geom p) h.pageBytes ds s
            if x.lost then (.lost, s)
            else if x.refused then (.without s.fab.node, s)
            else if x.lines ≠ [] then (.ask x.lines, s)
            else (.done ds (manifestOf hd) table (hd.drop 64) { x with second := x.second || second }, s)

/-- A fetch goes on with what it holds: it asks for what is still missing, or ends. A member whose part this node cannot
read, from itself or through its translation windows (R282), counts as lost; a set has at most five members.
(DESIGN CHOICE: log 58) -/
def State.fetchTry (p : PartId) : Nat → Fetch → State → State
  | 0, f, s => s.fetchLost p f
  | k + 1, f, s =>
    let m := s.manifest p f.slot
    let tag := tagOfManifest m Ct.kvPage 0 false false
    let without := fun (s : State) (n : NodeId) =>
      let f := { f with lost := f.lost ++ [n] }
      State.fetchTry p k f (s.setFetch p f)
    match s.fetchLook p f with
    | (.lost, s) => s.fetchLost p f
    | (.without n, s) => without s n
    | (.ask l, s) =>
      match s.askRefused p tag l with
      | some r => without s (nodeOf (r.1 / 2 ^ 42))
      | none =>
        let r := s.askLines p fetchQueue f.slot (mPrio m) tag l
        r.1.setFetch p { f with owed := r.2 }
    | (.done ds mft table sr x, s) => s.fetchDone p f ds mft table sr x.pages x.rebuilt x.second

/-- DESIGN CHOICE: log 58. -/
def State.fetchGo (s : State) (p : PartId) (f : Fetch) : State := State.fetchTry p 6 f s

/-- An answer to a fetch's read (R281): lines, or a refusal, which counts the member as lost. -/
def State.fetchAnswer (s : State) (p : PartId) (k : Nat) (dst : NodeId) (a rstatus : Nat) (b : Bytes) : State :=
  match (s.part p).fetches.find? fun f => f.slot = k with
  | none => s
  | some f =>
    let f := { f with
      owed := f.owed - 1, lines := if rstatus = 0 then putLines f.lines a b else f.lines,
      lost := if rstatus = 0 ∨ f.lost.contains dst then f.lost else f.lost ++ [dst] }
    let s := s.setFetch p f
    if f.owed = 0 then s.fetchGo p f else s

/-! ## Release of parked state (R20, R297) -/

/-- The owner number of a receiver's own reads: queue 9. -/
def admitQueue : Nat := 9

/-- What names a transfer: its source, word 0 of its tag, PHASE and EPOCH. (DESIGN CHOICE: log 49) -/
def abortKey (src : NodeId) (t : Tag) : NodeId × Word × Nat := (src, t.w0, fld t.w1 19 0)

/-- Whether a copy of a request is one that a release names. (DESIGN CHOICE: log 58) -/
def copyHit (c : ParkedCopies) (x : Parked) : Bool :=
  decide (x.id = c.id) && (decide (c.copy = none ∧ c.upTo = none) || decide (c.copy = some x.base) ||
    c.upTo.any fun u => decide (mNextPos x.mft < u))

/-- Whether a PARK transfer that is still arriving is one that a release names. (DESIGN CHOICE: log 58) -/
def incomingHit (c : ParkedCopies) (i : Incoming) : Bool :=
  i.park && decide (mReqId i.mft = c.id) && (decide (c.copy = none ∧ c.upTo = none) ||
    decide (c.hops = some (mHops (i.frame0.mft.getD i.mft))) || c.upTo.any fun u => decide (mNextPos i.mft < u))

/-- A manifest of a parked copy is rewritten: in the copy's memory, and as this node holds it. -/
def State.setParked (s : State) (x : Parked) (m : Manifest) : State :=
  let s := (s.stWrite none x.base (mBytes m)).2
  { s with parked := s.parked.map fun y => if y = x then { y with mft := m } else y }

/-- What has arrived of a transfer is discarded; its pool slots are free again, and its late frames are known (R47). -/
def State.dropIncoming (s : State) (p : PartId) (i : Incoming) : State :=
  let j := (s.jobOf p).getD 0
  let s := if i.park then s else s.disown (p, admitQueue, i.slot)
  let s := i.pages.foldl (fun s k => s.poolGive j k) s
  let k := abortKey i.src i.frame0.hdr.tag
  (s.modPart p fun x => { x with incoming := x.incoming.erase i }).modFab fun b =>
    { b with dropped := if b.dropped.contains k then b.dropped else b.dropped ++ [k] }

/-- A member frees the slots of a request's copies that a release names, and discards them; a PARK transfer of such a copy
that is still arriving from the releasing node is dropped with the slots it took (R20, R297). (DESIGN CHOICE: log 58) -/
def State.parkFree (s : State) (src : NodeId) (c : ParkedCopies) : State :=
  let s := (List.finRange 16).foldl (fun s p =>
    ((s.part p).incoming.filter fun i => decide (i.src = src) && incomingHit c i).foldl
      (fun s i => s.dropIncoming p i) s) s
  let slots := (s.parked.filter (copyHit c)).flatMap (·.slots)
  let s := slots.foldl (fun s a => (List.range 16).foldl (fun s j => s.poolGiveAddr j a) s) s
  { s with parked := s.parked.filter fun x => !copyHit c x }

def execParkRelease (src : NodeId) (c : ParkedCopies) (s : State) : Res := .next (s.ifTakes (s.parkFree src c))

end Sys2Proof.Machine
end

