-- ==== Sys2Proof/Machine/Caravan.lean ====
section
/-! DEFINITION. The receiver of a caravan (R12, R16, R26, R27, R45 to R48, R50 to R54, R57, R59, R63, R71, R297, R328,
R331, R389): frame 0, the later frames, the commit point; and a transfer that its sender aborts. -/

namespace Sys2Proof.Machine

/-! ## Epochs (R23, R26, R27) -/

/-- How an epoch compares with the current one: 0 same, 1 newer, 2 one older, 3 older still. Every epoch is newer to a
node that holds no book. (DESIGN CHOICE: log 55) -/
def State.epochKind (s : State) (e : BitVec 16) : Nat :=
  match s.mgr.cur with
  | none => 1
  | some b =>
    let d := (e - b.epoch).toNat
    if d = 0 then 0 else if d ≤ 32767 then 1 else if d = 65535 then 2 else 3

/-- Whether a cache set of the current book still serves a request: it is tagged with the request's tenant class, and no
member is REMOVED. -/
def State.setServes (s : State) (c : CacheSet) (m : Manifest) : Bool :=
  (c.tclasses.any fun t => decide (t.toNat = mTclass m)) && c.members.all fun n => decide (s.nodeState n ≠ .removed)

/-- Whether the current book still has this node, and a partition of it in a role. -/
def State.nodeStands (s : State) (p : PartId) (role : Role) : Bool :=
  match s.book.bind fun b => bookNode b s.fab.node with
  | none => false
  | some n => decide (n.state ≠ .removed) && decide (n.roles[p.val]? = some role)

/-- The test of R26 for a caravan on a partition of a role: the node and the partition stand in the current book as they
are, and the cache set that the manifest names still serves it. (DESIGN CHOICE: log 53) -/
def State.routeStands (s : State) (p : PartId) (role : Role) (m : Manifest) : Bool :=
  s.nodeStands p role && (decide (mCacheSet m = 0xFFF) || (s.cacheSet (mCacheSet m)).any fun c => s.setServes c m)

/-- The test of R26 for a caravan in PARK on a member of its cache set: the node, the partition and its place in the set
stand. No target of its next phase is recorded yet. (DESIGN CHOICE: log 53) -/
def State.parkStands (s : State) (p : PartId) (m : Manifest) : Bool :=
  s.nodeStands p .cache && (s.cacheSet (mCacheSet m)).any fun c => c.members.contains s.fab.node

/-- A manifest re-stamped with the current epoch where it carries the one before and its caravan passes the test (R26). -/
def State.restampIf (s : State) (stands : Bool) (m : Manifest) : Manifest :=
  if s.epochKind (mEpoch m) = 2 ∧ stands then mWithPhase m (mPhase m) s.epoch else m

/-- The manifest as re-stamped, where R26 says so. -/
def State.restamp (s : State) (p : PartId) (m : Manifest) : Manifest := s.restampIf (s.routeStands p (s.part p).role m) m

/-- The manifest of a caravan in PARK as re-stamped, where R26 says so. -/
def State.restampPark (s : State) (p : PartId) (m : Manifest) : Manifest := s.restampIf (s.parkStands p m) m

/-- The caravans that no CARAVAN_REEXAMINE names are re-examined at the install itself: those being received, and the
parked copies this node holds (R30). (DESIGN CHOICE: log 53) -/
def State.reexamineHeld (s : State) : State :=
  let s := (List.finRange 16).foldl (fun s p => s.modPart p fun x =>
    { x with incoming := x.incoming.map fun i =>
        if i.accepted then { i with mft := if i.park then s.restampPark p i.mft else s.restamp p i.mft } else i }) s
  s.parked.foldl (fun s x =>
    let m := s.restampPark x.part x.mft
    if m = x.mft ∨ mCrcOk x.mft = false then s else s.setParked x m) s

/-- A resident caravan is re-examined after an install (R30). A member of a convoy waits for its step boundary. -/
def State.reexamine (s : State) (p : PartId) (k : Nat) : State :=
  if s.owns p k = false ∨ terminal (mPhase (s.manifest p k)) then s
  else if mCrcOk (s.manifest p k) = false then s.crcFailed p k
  else
    let m := s.restamp p (s.manifest p k)
    if m = s.manifest p k then s else s.setManifest p k m

def execCaravanReexamine (p : PartId) (slot : BitVec 10) (s : State) : Res :=
  .next (if (s.convoyRowOf p slot.toNat).isSome then s else s.reexamine p slot.toNat)

/-! ## Refusals -/

/-- Answer frame 0 with a refusal: the sender stays owner (R13, R28). -/
def State.refuse (s : State) (p : PartId) (src : NodeId) (m : Manifest) (st : Status) : State :=
  s.sendSeq (s.ctlFrame p.val src (ctlTagM m) (.refuse (mReqId m) st s.epoch))

def State.incomingOf (s : State) (src : NodeId) (id : ReqId) : Option (PartId × Incoming) :=
  (List.finRange 16).findSome? fun p =>
    ((s.part p).incoming.find? fun i => i.src = src ∧ mReqId i.mft = id).map fun i => (p, i)

/-- A transfer fails at its receiver before the commit point. -/
def State.failIncoming (s : State) (p : PartId) (i : Incoming) (st : Status) : State :=
  (s.dropIncoming p i).refuse p i.src i.mft st

/-- The manifest that frame 0 brought: the later frames' tags and the stripes go by it (R47). -/
def Incoming.sent (i : Incoming) : Manifest := i.frame0.mft.getD i.mft

def State.setIncoming (s : State) (p : PartId) (old new : Incoming) : State :=
  s.modPart p fun x => { x with incoming := x.incoming.map fun i => if i = old then new else i }

/-! ## Frame 0 -/

/-- What frame 0 alone shows of a manifest: a status, with an event and its source unit. The checks stand in the order of
assumption log 40. -/
def State.frame0Fault (s : State) (p : PartId) (f : Frame) (m : Manifest) : Option (Status × Option (BitVec 16 × Nat)) :=
  let ph := mPhase m
  let role := (s.part p).role
  let codes := [mQfmt m, mKfmt m, mVfmt m, mWfmt m]
  if mFmtVer m ≠ 1 ∨ mPrio m < 2 then some (St.operandRange, some (Ev.manifestRefused, p.val))
  else if 8 < ph then some (St.phaseIllegal, some (Ev.phaseReserved, p.val))
  else if ¬((ph = Ph.atAdmit ∨ ph = Ph.resume) ∧ (role = .prompt ∨ role = .generate) ∨ ph = Ph.handoff ∧ role = .generate ∨
      ph = Ph.park ∧ role = .cache) then some (St.phaseIllegal, none)
  else if mNextPos m ≠ mInput m + mOutput m then some (St.operandRange, none)
  else if s.adAvailable m = false then some (St.adapterPending, none)
  else if (codes.any fun c => decide (8 < c)) ∨ 5 ≤ mQfmt m then
    some (St.operandRange, some (Ev.manifestRefused, p.val))
  else
    let t := f.hdr.tag
    if tagTenant t ≠ mTenant m ∨ tagReqId t ≠ mReqId m ∨ tagEpoch t ≠ mEpoch m ∨ tagPhase t ≠ ph then
      some (St.operandRange, some (Ev.tagMismatch, 23))
    else none

/-- Positions whose keys and values a request holds when it travels in a phase: none at ADMIT; in any other, all but the
last, whose token the next step processes (assumption log 41). -/
def kvPositions (m : Manifest) : Nat := if mPhase m = Ph.atAdmit then 0 else mNextPos m - 1

/-- DESIGN CHOICE: log 44. -/
def State.layers (s : State) (p : PartId) : Nat := 1 + Config.layersOf (((s.drv p).image.map (·.id.toNat)).getD 0) % 255

/-- Whether GRAMMAR is in range at a receiver (R193). -/
def State.grammarInRange (s : State) (p : PartId) (m : Manifest) (sr : Bytes) : Bool :=
  if srGrammar sr = 0xFFFF then !mFlag m flGrammar
  else
    match s.grammar p (srGrammar sr) with
    | none => false
    | some g => mFlag m flGrammar && decide (srGstate sr < (grHdr (s.grRead p g 0 64)).states)

/-- Unshared pages a request needs at a receiver: pages per layer beyond its shared ones, times the layers.
(DEDUCED: log 41) -/
def State.pagesNeeded (s : State) (p : PartId) (m : Manifest) (sr : Bytes) : Nat :=
  let shared := if mFlag m flSharedPrefix then srPrefixPages sr else 0
  (ceilDiv (kvPositions m) 256 - shared) * s.layers p

/-- Whether a receiver has room (R328): a page of its geometry fills a pool slot, enough slots are free, the log's
capacity holds the log. A member of a cache set needs one slot for each parked page, of a quarter of a page where the set
is coded and of a page where it is mirrored (R66). -/
def State.roomFor (s : State) (p : PartId) (i : Incoming) : Bool :=
  match s.jobOf p with
  | none => false
  | some j =>
    let g := s.geom p
    let n := s.pagesNeeded p i.mft i.sampler
    let page := g.pageSize g.kvFmt
    decide (n ≤ s.poolFree j) && decide (mNextPos i.mft ≤ srLogCap i.sampler) &&
      (if i.park then (s.setUnder i.sent).any fun c =>
          decide (n = 0) || decide (s.slotBytes j = if c.coded then page / 4 else page)
        else decide (page = s.slotBytes j) &&
          (decide (n = 0) || (kvFmtOk (mKfmt i.mft) && decide (g.pageSize (mKfmt i.mft) ≤ s.slotBytes j))))

/-- Take `n` slots of a job's pool, lowest first. -/
def State.takeSlots (j : Nat) : Nat → State → List Nat × State
  | 0, s => ([], s)
  | n + 1, s =>
    match s.poolLowest j with
    | none => ([], s)
    | some k =>
      let (l, s) := State.takeSlots j n (s.poolTake j k)
      (k :: l, s)

/-- Frame 0 is accepted (R45): the manifest is tested against the current book (R26), the slots are taken, and the
acceptance goes out; that of the lead of a cache set carries a slot address for each parked page (R297). -/
def State.acceptCaravan (s : State) (p : PartId) (i : Incoming) : State :=
  let j := (s.jobOf p).getD 0
  let lead := (s.setUnder i.sent).bind s.leadOf
  let n := if i.park ∧ lead ≠ some s.fab.node then 0 else s.pagesNeeded p i.mft i.sampler
  let (ks, s) := State.takeSlots j n s
  let m := if i.park then s.restampPark p i.mft else s.restamp p i.mft
  let s := s.setIncoming p i { i with accepted := true, owed := 0, pages := ks, mft := m }
  let slots := if i.park then ks.map fun k => s.poolBase j + k * s.slotBytes j else []
  s.sendSeq (s.ctlFrame p.val i.src (ctlTagM m) (.accept (mReqId m) slots))

/-- A receiver goes on with a frame 0 that its manifest does not refuse: the sampler record of an ADMIT caravan is read
from SR_ADDR (R48), the record is checked (R71), the shared prefix page table is read (R64), the room is checked. A read
that the translation windows do not let through (R282) fails the transfer.
(DESIGN CHOICE: log 40; DESIGN CHOICE: log 59) -/
def State.rxContinue (s : State) (p : PartId) (i : Incoming) : State :=
  let m := i.mft
  let ask := fun (s : State) (l : List Nat) (c : Nat) =>
    let tag := tagOfManifest m c 0 false false
    if (s.askRefused p tag l).isSome then s.failIncoming p i St.operandRange
    else
      let r := s.askLines p admitQueue i.slot (mPrio m) tag l
      r.1.setIncoming p i { i with owed := r.2 }
  match (if mPhase m = Ph.atAdmit then s.gather p i.lines (mSrAddr m) 128 else (.bytes i.sampler, s)) with
  | (.refused, s) => s.failIncoming p i St.operandRange
  | (.lines l, s) => ask s l Ct.sampler
  | (.bytes sr, s) =>
    let shared := mFlag m flSharedPrefix
    if srCrcOk sr = false ∨ srInRange sr = false ∨ s.grammarInRange p m sr = false ∨ (shared = false ∧ srPrefixPt sr ≠ 0) then
      s.failIncoming p i St.operandRange
    else
      let n := if shared ∧ i.park = false then 64 + 8 * (srPrefixPages sr * s.layers p) else 0
      match (if n = 0 then (.bytes [], s) else s.gather p i.lines (srPrefixPt sr) n) with
      | (.refused, s) => s.failIncoming p i St.operandRange
      | (.lines l, s) => ask s l Ct.sharedRead
      | (.bytes t, s) =>
        let i' := { i with sampler := sr }
        let s := s.setIncoming p i i'
        let bad := n ≠ 0 ∧ ((ptHdrOf t).layers ≠ s.layers p ∨ (ptHdrOf t).pages < srPrefixPages sr)
        if bad ∨ s.roomFor p i' = false then s.failIncoming p i' St.operandRange else s.acceptCaravan p i'

/-- An answer to a receiver's own read. -/
def State.admitAnswer (s : State) (p : PartId) (k a rstatus : Nat) (b : Bytes) : State :=
  match (s.part p).incoming.find? fun i => !i.park && i.slot == k && !i.accepted with
  | none => s
  | some i =>
    if rstatus ≠ 0 then s.failIncoming p i St.operandRange
    else
      let i' := { i with owed := i.owed - 1, lines := putLines i.lines a b }
      let s := s.setIncoming p i i'
      if i'.owed = 0 then s.rxContinue p i' else s

/-- Whether a partition's current job is a request's. (DESIGN CHOICE: log 45) -/
def State.servesJobOf (s : State) (p : PartId) (m : Manifest) : Bool :=
  decide ((s.part p).curJob = some (Fin.ofNat 16 (Config.requestJob (mTenant m))))

/-- The partition that takes a caravan: the one that DST_UNIT names; a parked request's, the lowest-numbered SERVING one of
role CACHE whose current job is the request's (R389). No frame names a request's job: it is a free value of its tenant.
(DESIGN CHOICE: log 45) -/
def State.targetPart (s : State) (f : Frame) (m : Manifest) : Option PartId :=
  if mPhase m = Ph.park then
    (List.finRange 16).find? fun p => decide ((s.part p).st = .serving) && decide ((s.part p).role = .cache) &&
      s.servesJobOf p m
  else if hDunit f < 16 then some (Fin.ofNat 16 (hDunit f)) else none

/-- Frame 0 of a caravan at its receiver. A new frame 0 replaces what has arrived of an earlier send. One addressed to a job
that is not current and SERVING on its partition is refused with PART_OFFLINE (R331), one with a reserved content code is
discarded (R61). (DESIGN CHOICE: log 40) -/
def State.rxFrame0 (s : State) (f : Frame) : State :=
  match (if 9 ≤ tagContent f.hdr.tag then none else f.mft) with
  | none => s
  | some m =>
    let src := hSrc f
    let id := mReqId m
    if s.fab.aborted.contains (abortKey src f.hdr.tag) then s
    else
      let s := match s.incomingOf src id with
        | some (p, i) => s.dropIncoming p i
        | none => s
      let s := s.modFab fun b => { b with dropped := b.dropped.erase (abortKey src f.hdr.tag) }
      match s.targetPart f m with
      | none => if mPhase m = Ph.park then s.refuse 0 src m St.partOffline else s
      | some p =>
        if mCrcOk m = false then
          (s.raise Ev.manifestCrcRx St.ok 23 s.fab.via (reqWord m)).refuse p src m St.operandRange
        else if (s.part p).st ≠ .serving ∨ (s.part p).role = .unset ∨ s.servesJobOf p m = false then
          s.refuse p src m St.partOffline
        else
          match s.epochKind (mEpoch m) with
          | 1 => { s with mgr := { s.mgr with held := s.mgr.held ++ [{ src := src, frame := f }] } }
          | 3 => s.refuse p src m St.staleEpoch
          | _ =>
            match s.frame0Fault p f m with
            | some (st, ev) =>
              let s := match ev with
                | some (e, src) => s.raise e St.ok src 0xFF (reqWord m)
                | none => s
              s.refuse p src m st
            | none =>
              let park := decide (mPhase m = Ph.park)
              match (if park then some 0 else s.freeSlot p) with
              | none => s.refuse p src m St.operandRange
              | some k =>
                let i : Incoming :=
                  { src := src, unit := hUnit f, slot := k, park := park, mft := m,
                    sampler := if mPhase m = Ph.atAdmit then [] else fitBytes 128 (bodyBytes f.body), accepted := false,
                    frame0 := f, lines := [], owed := 0, got := [], forms := [],
                    last := if tagLast f.hdr.tag then some 0 else none, pages := [] }
                (s.modPart p fun x => { x with incoming := x.incoming ++ [i] }).rxContinue p i

def execCaravanFrame0 (f : Frame) (s : State) : Res := .next (s.ifTakes (s.rxFrame0 f))

/-! ## The later frames -/

/-- Payloads of frames `lo` to `lo + n − 1`, joined. -/
def Incoming.run (i : Incoming) (lo n : Nat) : Bytes :=
  (List.range n).flatMap fun k => (tabFind i.got (lo + k)).getD []

def logFrames (m : Manifest) : Nat := ceilDiv (mNextPos m) 1024

/-- The runs of frames that follow: for each byte length, the bytes its whole 4,096-byte frames carry; none where a length
does not fit. -/
def Incoming.split (i : Incoming) : Nat → List Nat → Option (List Bytes)
  | k, [] => if i.last = some (k - 1) then some [] else none
  | k, n :: r =>
    let b := i.run k (ceilDiv n 4096)
    if b.length = n then (Incoming.split i (k + ceilDiv n 4096) r).map (b :: ·) else none

/-- The form of a page: its stored format, and whether it is COMPRESSED. -/
abbrev PageForm := Nat × Bool

/-- The carried length of a page of a form (R243). -/
def Geom.formBytes (g : Geom) (x : PageForm) : Nat := g.pageSize (if x.2 then g.kvFmt else x.1)

/-- The next `n` pages of a HANDOFF from frame `k` on, each in the form its frames brought, of at most `most` bytes; none
where they do not fit. -/
def Incoming.pagesFrom (i : Incoming) (g : Geom) (most : Nat) : Nat → Nat → Option (List (PageForm × Bytes))
  | 0, k => if i.last = some (k - 1) then some [] else none
  | n + 1, k =>
    let form := (tabFind i.forms k).getD (mKfmt i.mft, false)
    let z := g.formBytes form
    let b := i.run k (ceilDiv z 4096)
    if kvFmtOk form.1 ∧ g.pageSize form.1 ≤ most ∧ b.length = z then
      (Incoming.pagesFrom i g most n (k + ceilDiv z 4096)).map ((form, b) :: ·)
    else none

/-- The page table that a receiver builds (R64): the shared prefix, then the pages as installed, each with its format and
whether it is COMPRESSED (R178, R217). -/
def State.buildTable (s : State) (p : PartId) (i : Incoming) (addrs : List Nat) (pre : Bytes)
    (forms : List PageForm := []) : Bytes :=
  let m := i.mft
  let l := s.layers p
  let shared := if mFlag m flSharedPrefix then srPrefixPages i.sampler else 0
  let kv := kvPositions m
  let used := if addrs = [] then shared else ceilDiv kv 256
  let h : PtHdr :=
    { reqId := (mReqId m).toNat, layers := l, pageCap := ceilDiv (srLogCap i.sampler) 256, pages := used,
      pageBytes := (s.geom p).pageSize (s.geom p).kvFmt, prefixPages := shared }
  let pre := (List.range (shared * l)).flatMap fun q => wordBytes (setFld (wordOf (pre.drop (64 + 8 * q))) 57 57 1)
  let own := addrs.zipIdx.flatMap fun x =>
    let pg := shared + x.2 / l
    let form := forms.getD x.2 (mKfmt m, false)
    wordBytes (setFld (mkDesc (s.nodeBase + x.1) form.1 (min 256 (kv - 256 * pg))) 59 59 (b2n form.2))
  let rest := h.pageCap * l - (shared * l + addrs.length)
  h.bytes ++ pre ++ own ++ zeros (8 * rest)

/-- The new owner's note to the manager (R14): with what R14 lists it brings the manifest, whose sticky flags the manager
keeps (R41, R56). (DESIGN CHOICE: log 54) -/
def State.ownershipNote (s : State) (p : PartId) (m : Manifest) : State :=
  s.sendMgr p (ctlTagM m) (.ownership (mReqId m) (BitVec.ofNat 4 (mPhase m)) s.fab.node p (some m))

/-- The commit point at a new owner (R12, R14, R17, R52, R57, R76): the structures and pages written, the manifest
rewritten, the acknowledgement and the ownership note sent. (DESIGN CHOICE: log 43; DESIGN CHOICE: log 58) -/
def State.commitCaravan (s : State) (p : PartId) (i : Incoming) (log : Bytes) (pages : List Bytes)
    (forms : List PageForm) : State :=
  let m := i.mft
  let k := i.slot
  let j := (s.jobOf p).getD 0
  let at_ := fun i => s.poolBase j + i * s.slotBytes j
  let shared := mFlag m flSharedPrefix
  let (pre, s) := match (if shared then s.gather p i.lines (srPrefixPt i.sampler)
      (64 + 8 * (srPrefixPages i.sampler * s.layers p)) else (.bytes [], s)) with
    | (.bytes b, s) => (b, s)
    | (_, s) => ([], s)
  let resume := decide (mPhase m = Ph.resume)
  let addrs := if resume then [] else i.pages.map at_
  let table := s.buildTable p i addrs pre forms
  let sr := srSeal (setLe i.sampler 0x40 8 (s.nodeBase + s.copyAddr 2 p k))
  let parts := [(s.copyAddr 0 p k, table), (s.copyAddr 1 p k, sr), (s.copyAddr 2 p k, log)] ++ addrs.zip pages
  if parts.any fun x => (s.stCheck (s.jobOf p) x.1 x.2.length).isSome then s.failIncoming p i St.operandRange
  else
    let s := parts.foldl (fun s x => (s.stWrite (s.jobOf p) x.1 x.2).2) s
    let s := s.modPart p fun x => { x with incoming := x.incoming.erase i }
    let m1 := mWithOwner { m with w1 := setFld m.w1 25 20 0, w5 := setFld m.w5 51 0 (s.nodeBase + s.copyAddr 0 p k),
                                  w6 := setFld m.w6 51 0 (s.nodeBase + s.copyAddr 1 p k) } s.fab.node.val p.val
    let m2 := if mPhase m = Ph.atAdmit then mWithPhase m1 Ph.prefill s.epoch else s.restamp p (mSeal m1)
    let m2 := mSeal (mClean m2)
    let old := if (resume ∨ 2 ≤ mTurn m ∨ mFlag m flStateLost) ∧ mCacheSet m ≠ 0xFFF then some (mCacheSet m) else none
    let s := (s.setManifest p k m2).setSlot p k
      { held := true, logged := mNextPos m, oldSet := old,
        oldCopy := if resume then some ((mPtAddr m - 256) % 2 ^ 42) else none,
        turnEnded := decide (mPhase m = Ph.handoff) }
    let s := s.adRef m2 true
    let s := { s with mgr := { s.mgr with owners := tabErase (mReqId m).toNat s.mgr.owners } }
    let s := s.sendSeq (s.ctlFrame p.val i.src (ctlTagM m2) (.commitAck (mReqId m)))
    let s := s.ownershipNote p m2
    if resume then
      let f : Fetch :=
        { slot := k, id := mReqId m, base := (mPtAddr m - 256) % 2 ^ 42, lines := [], owed := 0, lost := [], pages := i.pages }
      (s.modPart p fun x => { x with fetches := x.fetches ++ [f] }).fetchGo p f
    else s.sharedCheck p k

/-- A member of a cache set holds everything of a PARK transfer: its copies and stripes are written, PT_ADDR and SR_ADDR of
the manifest name them, the same on every member (R52, R53), and its allocation stands (R297). The copy of an earlier PARK
stays beside it (R20). -/
def State.commitPark (s : State) (p : PartId) (i : Incoming) (log table : Bytes) (ds : List Word) (parts : List Bytes) :
    State :=
  let m := s.restampPark p i.mft
  let id := mReqId m
  let slots := ds.map dAddr
  let base := parkedAddr 0 id (mNextPos m) slots
  let m := mSeal (mClean { m with w5 := setFld m.w5 51 0 ((base + 256) % 2 ^ 42), w6 := setFld m.w6 51 0 ((base + 64) % 2 ^ 42) })
  let all := [(base, mBytes m ++ srStore i.sampler ++ zeros 64 ++ table),
    (parkedAddr 1 id (mNextPos m) slots, log)] ++ slots.zip parts
  if all.any fun x => (s.stCheck (s.jobOf p) x.1 x.2.length).isSome then s.failIncoming p i St.operandRange
  else
    let j := (s.jobOf p).getD 0
    let s := all.foldl (fun s x => (s.stWrite (s.jobOf p) x.1 x.2).2) s
    let s := s.modPart p fun x => { x with incoming := x.incoming.erase i }
    let s := i.pages.foldl (fun s k => s.poolGive j k) s
    let z := s.slotBytes j
    let b := s.poolBase j
    let s := slots.foldl (fun s a => if 0 < z ∧ b ≤ a ∧ (a - b) / z < s.poolSlots j then s.poolTake j ((a - b) / z) else s) s
    { s with parked := s.parked ++ [{ id := id, part := p, mft := m, slots := slots, base := base }] }

/-- The page table of a PARK transfer as far as it has come: its header, its length and its parked descriptors, none of them
before all of it is there (R297). -/
def Incoming.parkTable (i : Incoming) : PtHdr × Nat × List Word :=
  let t := logFrames i.mft
  let h := ptHdrOf (i.run (1 + t) 1)
  let n := 64 + 8 * (h.pages * h.layers)
  let table := i.run (1 + t) (ceilDiv n 4096)
  let ds := (List.range (h.pages * h.layers)).map fun q => (wordOf (table.drop (64 + 8 * q)) : Word)
  (h, n, if table.length < n then [] else ds.filter fun d => dValid d && dParked d)

/-- Whether the page table of a PARK transfer is all there: it tells where every frame's lines lie. -/
def Incoming.tableHeld (i : Incoming) : Bool :=
  let t := logFrames i.mft
  decide (64 ≤ (i.run (1 + t) 1).length) && decide ((i.run (1 + t) (ceilDiv i.parkTable.2.1 4096)).length = i.parkTable.2.1)

/-- Address and carried length of the pages of a HANDOFF from frame `k` on, as far as the frames held tell the form of each:
its first frame does. -/
def Incoming.pageRuns (i : Incoming) (g : Geom) : List Nat → Nat → List (Nat × Nat)
  | [], _ => []
  | a :: r, k =>
    match tabFind i.forms k with
    | none => []
    | some form => (a, g.formBytes form) :: Incoming.pageRuns i g r (k + ceilDiv (g.formBytes form) 4096)

/-- Where the structures and pages that a transfer brings lie, in the order of its frames from frame 1 on: address and
length. -/
def State.frameRuns (s : State) (p : PartId) (i : Incoming) : List (Nat × Nat) :=
  let m := i.mft
  let g := s.geom p
  let n := 4 * mNextPos m
  if i.park then
    let x := i.parkTable
    let base := fun k => parkedAddr k (mReqId m) (mNextPos m) (x.2.2.map dAddr)
    let coded := ((s.setUnder i.sent).map (·.coded)).getD false
    if i.tableHeld then
      (base 1, n) :: (base 0 + 256, x.2.1) :: x.2.2.map fun d => (dAddr d, stripeLen coded (carried g x.1.pageBytes d))
    else []
  else
    let j := (s.jobOf p).getD 0
    let at_ := fun i => s.poolBase j + i * s.slotBytes j
    (s.copyAddr 2 p i.slot, n) :: i.pageRuns g (if mPhase m = Ph.handoff then i.pages.map at_ else []) (1 + logFrames m)

/-- Where frame `n` of a transfer lies, its runs beginning at frame `k`. -/
def placeIn : List (Nat × Nat) → Nat → Nat → Option Nat
  | [], _, _ => none
  | (a, z) :: r, k, n =>
    let c := ceilDiv z 4096
    if n < k + c then (if k ≤ n then some (a + 4096 * (n - k)) else none) else placeIn r (k + c) n

/-- Where the lines of a later frame of a transfer lie, as far as the frames held tell it. -/
def State.framePlace (s : State) (p : PartId) (i : Incoming) (f : Frame) : Option Nat :=
  placeIn (s.frameRuns p i) 1 (tagIndex f.hdr.tag)

/-- The lines of a later frame are placed and visible (R278), as far as the frames held tell its place; the commit point
writes all of them. (DESIGN CHOICE: log 43) -/
def State.placeFrame (s : State) (p : PartId) (i : Incoming) (f : Frame) : State :=
  match s.framePlace p i f with
  | some a => s.fabricWrite (s.jobOf p) a (bodyBytes f.body) f.hdr.tag s.fab.via
  | none => s

/-- Every frame of a transfer is there: the payloads are cut as Table 2.1 and R297 lay them out. Frames that do not fit the
layout fail the transfer. (DESIGN CHOICE: log 43; DESIGN CHOICE: log 59) -/
def State.completeCaravan (s : State) (p : PartId) (i : Incoming) : State :=
  let m := i.mft
  let bad := s.failIncoming p i St.operandRange
  let n := 4 * mNextPos m
  if i.park then
    match s.setUnder i.sent with
    | none => bad
    | some c =>
      let me := c.members.findIdx fun x => x = s.fab.node
      let (h, tb, ds) := i.parkTable
      let g := s.geom p
      match i.split 1 (n :: tb :: ds.map fun d => stripeLen c.coded (carried g h.pageBytes d)) with
      | some (log :: table :: parts) => if me < c.members.length then s.commitPark p i log table ds parts else bad
      | _ => bad
  else
    let g := s.geom p
    let count := if mPhase m = Ph.handoff then i.pages.length else 0
    let log := i.run 1 (logFrames m)
    match i.pagesFrom g (g.pageSize g.kvFmt) count (1 + logFrames m) with
    | some l => if log.length = n then s.commitCaravan p i log (l.map (·.2)) (l.map (·.1)) else bad
    | none => bad

/-- The transfers that a unit of a node sends here and that have been accepted. -/
def State.acceptedFrom (s : State) (src : NodeId) (unit : Nat) : List (PartId × Incoming) :=
  (List.finRange 16).flatMap fun p =>
    ((s.part p).incoming.filter fun i => i.accepted && decide (i.src = src) && decide (i.unit = unit)).map fun i => (p, i)

/-- A frame whose REQ_ID is of no transfer from its source: a late frame of one that has failed is discarded; any other
fails the check of R47, and with it the transfer of its source unit, where there is one only. (DESIGN CHOICE: log 49) -/
def State.strayFrame (s : State) (f : Frame) : State :=
  if s.fab.dropped.contains (abortKey (hSrc f) f.hdr.tag) then s
  else
    match s.acceptedFrom (hSrc f) (hUnit f) with
    | [] => s
    | [(p, i)] => (s.raise Ev.tagMismatch St.ok 23 0xFF (reqWord i.mft)).failIncoming p i St.operandRange
    | (_, i) :: _ => s.raise Ev.tagMismatch St.ok 23 0xFF (reqWord i.mft)

/-- A later frame (R46, R47, R278). One of no accepted transfer is discarded, and one with a reserved content code (R61).
(DESIGN CHOICE: log 43) -/
def State.rxCaravan (s : State) (f : Frame) : State :=
  let t := f.hdr.tag
  if 9 ≤ tagContent t ∨ s.fab.aborted.contains (abortKey (hSrc f) t) then s
  else
    match s.incomingOf (hSrc f) (tagReqId t) with
    | none => s.strayFrame f
    | some (p, i) =>
      let m := i.sent
      if i.accepted = false then s
      else if tagTenant t ≠ mTenant m ∨ tagEpoch t ≠ mEpoch m ∨ tagPhase t ≠ mPhase m then
        (s.raise Ev.tagMismatch St.ok 23 0xFF (reqWord m)).failIncoming p i St.operandRange
      else
        let i' := { i with got := tabPut i.got (tagIndex t) (bodyBytes f.body),
                           forms := match f.body with
                             | .page x c _ => tabPut i.forms (tagIndex t) (x.toNat, c)
                             | _ => i.forms,
                           last := if tagLast t then some (tagIndex t) else i.last }
        let s := (s.setIncoming p i i').placeFrame p i' f
        match i'.last with
        | some n => if (List.range n).all fun k => (tabFind i'.got (k + 1)).isSome then s.completeCaravan p i' else s
        | none => s

/-- The transfer that a later frame belongs to, where the place of its lines is not yet known. -/
def State.unplaced (s : State) (f : Frame) : Option (PartId × Incoming) :=
  (s.incomingOf (hSrc f) (tagReqId f.hdr.tag)).filter fun x => x.2.accepted && (s.framePlace x.1 x.2 f).isNone

/-- Frames that wait for their place: those whose place the frames held now tell are written and acknowledged, and those of
a transfer that has ended are acknowledged (R278). (DESIGN CHOICE: log 43) -/
def State.lateFrames (s : State) (l : List Frame) : State :=
  l.foldl (fun s f =>
    let ack := fun (s : State) => (s.rxMark (hSrc f) (hUnit f) (hSeq f) none).ackFrame f
    match s.incomingOf (hSrc f) (tagReqId f.hdr.tag) with
    | none => ack s
    | some (p, i) =>
      if i.late.contains f = false then ack s
      else
        match s.framePlace p i f with
        | none => s
        | some _ => ack ((s.placeFrame p i f).setIncoming p i { i with late := i.late.erase f })) s

/-- A later frame as its window takes it: it is acknowledged once its lines are visible, so one whose place the frames held
do not tell waits for them (R278). (DESIGN CHOICE: log 43) -/
def State.takeCaravan (s : State) (f : Frame) : State :=
  let late := ((s.incomingOf (hSrc f) (tagReqId f.hdr.tag)).map fun x => x.2.late).getD []
  let s := s.rxCaravan f
  let s := match s.unplaced f with
    | some (p, i) => if late.contains f then s else s.setIncoming p i { i with late := i.late ++ [f] }
    | none => if late.contains f then s else (s.rxMark (hSrc f) (hUnit f) (hSeq f) none).ackFrame f
  s.lateFrames late

def execCaravanFrame (f : Frame) (s : State) : Res := .next (s.ifTakes (s.rxCaravan f))

/-! ## Held manifests and aborted transfers -/

/-- A manifest held for a newer book is judged again (R27). -/
def State.judgeHeld (s : State) : State :=
  let l := s.mgr.held
  let s := { s with mgr := { s.mgr with held := [] } }
  l.foldl (fun s h => s.rxFrame0 h.frame) s

/-- The hold time of a manifest has passed: it is refused with STALE_EPOCH. -/
def State.holdExpiry (s : State) (id : ReqId) : State :=
  match s.mgr.held.find? fun h => (h.frame.mft.map mReqId) = some id with
  | none => s
  | some h =>
    let s := { s with mgr := { s.mgr with held := s.mgr.held.erase h } }
    match h.frame.mft with
    | some m => s.refuse ((s.targetPart h.frame m).getD 0) h.src m St.staleEpoch
    | none => s

def execEpochHoldExpiry (id : ReqId) (s : State) : Res := .next (s.holdExpiry id)

/-- A CONTROL frame with ABORT set (R63): what has arrived of the transfer is discarded, and so is what arrives later. After
the commit point it acts as a cancel that wants no answer. (DESIGN CHOICE: log 49) -/
def State.rxAbort (s : State) (src : NodeId) (t : Tag) : State :=
  if 9 ≤ tagContent t then s
  else
  let s := s.modFab fun b =>
    { b with aborted := if b.aborted.contains (abortKey src t) then b.aborted else b.aborted ++ [abortKey src t] }
  let s := { s with mgr := { s.mgr with held := s.mgr.held.filter fun h =>
    !(decide (h.src = src) && decide (tagReqId h.frame.hdr.tag = tagReqId t)) } }
  match s.incomingOf src (tagReqId t) with
  | some (p, i) => s.dropIncoming p i
  | none =>
    match s.findReq (tagReqId t) with
    | some (p, k) => if terminal (mPhase (s.manifest p k)) then s else s.cancelWrite p k none
    | none => s

def execTransferAbort (src : NodeId) (t : Tag) (s : State) : Res := .next (s.ifTakes (s.rxAbort src t))

end Sys2Proof.Machine
end

