-- ==== Sys2Proof/Machine/Depart.lean ====
section
/-! DEFINITION. The sender of a caravan (R12, R13, R15, R20, R21, R28, R45, R52, R74, R296, R297): prompt-log appends,
FAB_LOG, FAB_CARAVAN, acceptances, refusals, commit acknowledgements, and frames that are abandoned. -/

namespace Sys2Proof.Machine

/-! ## Appends to the prompt log (R21, R74) -/

/-- An instruction waits for the manager's acknowledgement of an append. Where there is no manager the request ends FAILED
(Table 1.7). -/
def State.appendFor (s : State) (p : PartId) (q : Nat) (e : QEntry) : State :=
  let k := e.tag
  let m := s.manifest p k
  match s.mgrNode with
  | none => (s.endRequest p k Ph.failed).reqFault p q e St.operandRange 0 2
  | some n =>
    let lo := (s.slot p k).logged
    match s.unlogged p k lo with
    | (.error x, s) => s.accessFault p q e x.status x.d0 x.d1
    | (.ok l, s) =>
      let s := s.sendSeq (s.appendFrame p m n lo l)
      (s.setSlot p k { s.slot p k with sentLog := max (s.slot p k).sentLog (lo + l.length) }).setEntryOf p q
        { e with phase := .waiting }

/-- FAB_LOG: the tokens not yet logged are appended, up to 1,024 in a frame; it retires when the manager has acknowledged
all of them. -/
def State.fabLog (s : State) (p : PartId) (q : Nat) (e : QEntry) : State :=
  if mNextPos (s.manifest p e.tag) ≤ (s.slot p e.tag).logged then s.finish p q e 0 true else s.appendFor p q e

def execFabLog (p : PartId) (a : Act) (s : State) : Res :=
  .next (s.engineRow p 0x74 a fun q e s => s.fabLog p q e)

/-! ## FAB_CARAVAN: frame 0 -/

/-- A frame of a transfer (Table 2.1): placed by its INDEX, in the class of the manifest's PRIO. -/
def State.placedFrame (s : State) (unit : Nat) (m : Manifest) (dst : NodeId) (dunit idx content : Nat) (last withM : Bool)
    (b : Body) : Frame :=
  let n := (bodyBytes b).length
  NewFrame.build
    { tag := tagOfManifest m content idx last withM, type := Ft.write, cls := mPrio m, dst := dst, src := s.fab.node,
      unit := unit, lines := ceilDiv n 64, len := n, placed := true, dunit := dunit }
    (if withM then some m else none) b

/-- The lowest-numbered of a list of cache sets. -/
def lowestSet (l : List CacheSet) : Option CacheSet :=
  l.foldl (fun a c => match a with | some x => some (if c.number.toNat < x.number.toNat then c else x) | none => some c) none

/-- The cache set of a PARK transfer: the one the manifest names under the book whose epoch it carries (R25), where every
member is ACTIVE; else, and after a member has refused or was lost, the lowest-numbered such set of the request's tenant
class in the current book, another than that one where there is one: the cache set of the next book (Table 1.7, R297).
(DESIGN CHOICE: log 58) -/
def State.parkSet (s : State) (m : Manifest) (again : Bool := false) : Option CacheSet :=
  let good := fun c : CacheSet => s.setServes c m && c.members.all fun n => decide (s.nodeState n = .active)
  match (s.setUnder m).filter fun c => good c && !again with
  | some c => some c
  | none =>
    if mCacheSet m = 0xFFF then none
    else
      let l := ((s.book.map (·.sets)).getD []).filter good
      (lowestSet (l.filter fun c => c.number.toNat ≠ mCacheSet m)).or (lowestSet l)

/-- The current manifest as sent: HOPS one higher, the epoch re-stamped after a STALE_EPOCH refusal, and where a PARK goes to
another cache set than its epoch's (R15, R28, R52). -/
def State.mftToSend (s : State) (p : PartId) (k : Nat) (set : Option CacheSet) : Manifest :=
  let m := s.manifest p k
  let again := (s.slot p k).stale || (set.isSome && decide (set ≠ s.setUnder m))
  let m := { m with w1 := setFld m.w1 25 20 (mHops m + 1) }
  let m := match set with | some c => { m with w4 := setFld m.w4 51 40 c.number.toNat } | none => m
  if again then mWithPhase m (mPhase m) s.epoch else mSeal m

/-- Frame 0 goes to every receiver of a transfer. -/
def State.sendFrame0 (s : State) (p : PartId) (q : Nat) (e : QEntry) (set : Option CacheSet) (dsts : List (NodeId × Nat)) :
    State :=
  let k := e.tag
  if s.regFld 0x2000 5 0 ≤ mHops (s.manifest p k) then
    let s := s.endRequest p k Ph.failed
    ({ s with freeCount := s.freeCount + 1 }).finish p q e 0 false ((unstatedCode s.freeCount).setWidth 64)
  else
    let m := s.mftToSend p k set
    match s.reqRead p (mSrAddr m) 128 with
    | (.error x, s) => s.accessFault p q e x.status x.d0 x.d1
    | (.ok sr, s) =>
      let s := s.setManifest p k m
      let s := s.setSlot p k { s.slot p k with stale := false, leaving := true, parkAfter := none }
      let lead := (set.bind s.leadOf).getD ((dsts.map (·.1)).headD 0)
      let o : Outgoing :=
        { uid := e.uid, slot := k, id := mReqId m, park := set.isSome, dsts := dsts, mft := m, lead := lead, accepted := [],
          sentRest := [], allSent := [], slots := [] }
      let s := s.modPart p fun x => { x with outgoing := x.outgoing ++ [o] }
      let s := s.setEntryOf p q { e with phase := .waiting }
      dsts.foldl (fun s d => s.sendSeq (s.placedFrame p.val m d.1 d.2 0 Ct.manifest false true (.bytes sr))) s

/-- The target of a HANDOFF: the instruction's (Table 4.14); where that is the one that has refused it, the new target that
the manager has assigned since (R13, R28). (DESIGN CHOICE: log 54) -/
def State.handoffTarget (s : State) (p : PartId) (e : QEntry) : NodeId × Nat :=
  let named := (nodeOf (fld e.sb 13 4), fld e.sb 3 0)
  let x := s.slot p e.tag
  if x.refuser = some named then x.target.getD named else named

/-- FAB_CARAVAN (R45, R198): the cancel bit first, then the tokens not yet logged (R21), then frame 0. A PARK that a member
has refused waits for the next book, and goes to its cache set (R297, Table 1.7).
(DESIGN CHOICE: log 58; DESIGN CHOICE: log 90; DESIGN CHOICE: log 99) -/
def State.fabCaravan (s : State) (p : PartId) (q : Nat) (e : QEntry) : State :=
  let k := e.tag
  let m := s.manifest p k
  let x := s.slot p k
  let park := decide (iMode e.insn 1 0 = 1)
  if x.cancel then
    -- a done request ends DONE, by the program (R198)
    (if x.done then s else s.cancelEffect p k).finish p q e 0 false (St.cancelled.setWidth 64)
  else if mCrcOk m = false then
    let s := s.crcFailed p k
    ({ s with freeCount := s.freeCount + 1 }).finish p q e 0 false ((unstatedCode s.freeCount).setWidth 64)
  else if s.owns p k = false ∨ mPhase m ≠ (if park then Ph.park else Ph.handoff) then
    s.reqFault p q e St.phaseIllegal (mPhase m + 16 * (if park then Ph.park else Ph.handoff)) 0
  else if park ∧ x.parkAfter = some s.epoch then s.setEntryOf p q { e with phase := .waiting }
  else
    let set := if park then s.parkSet m x.parkAfter.isSome else none
    let dsts := if park then ((set.map (·.members)).getD []).map fun n => (n, 0)
      else [s.handoffTarget p e]
    if dsts = [] ∨ (dsts.any fun d => s.nodeState d.1 ≠ .active) then
      s.instrFault p q e St.operandRange (if park then mCacheSet m else (s.handoffTarget p e).1.val) 2
    else if x.logged < mNextPos m then s.appendFor p q e
    else s.sendFrame0 p q e set dsts

def execFabCaravan (p : PartId) (a : Act) (s : State) : Res :=
  .next (s.engineRow p 0x73 a fun q e s => s.fabCaravan p q e)

/-- A new book is installed: PARK transfers that wait for it go on (Table 1.7). -/
def State.parkAgain (s : State) : State :=
  (List.finRange 16).foldl (fun s p =>
    (((s.drv p).queue 5).filter fun e => e.phase = .waiting ∧ iOp e.insn = 0x73 ∧ iMode e.insn 1 0 = 1 ∧
        (s.slot p e.tag).parkAfter.isSome).foldl (fun s e => s.fabCaravan p 5 e) s) s

/-- The manager has acknowledged an append: instructions that wait for it go on. -/
def State.rxLogAck (s : State) (id : ReqId) (entries : Nat) : State :=
  let s := { s with mgr := { s.mgr with unacked := s.mgr.unacked.filter fun f =>
    match f.body with | .ctl (.logAppend i _ _) => decide (i ≠ id) | _ => true } }
  match s.findReq id with
  | none => s
  | some (p, k) =>
    let s := s.setSlot p k { s.slot p k with logged := max (s.slot p k).logged (min entries (mNextPos (s.manifest p k))) }
    (((s.drv p).queue 5).filter fun e => e.phase = .waiting ∧ e.tag = k).foldl (fun s e =>
      if iOp e.insn = 0x74 then s.fabLog p 5 e
      else if iOp e.insn = 0x73 ∧ (s.outgoingOf p k).isNone then s.fabCaravan p 5 e
      else s) s

/-- The manager has refused an append (R74): one that started above ENTRIES is sent again from ENTRIES; one whose overlap
differs faults the instruction that sent it. (DEDUCED: log 100) -/
def State.rxLogRefuse (s : State) (id : ReqId) (entries : Nat) : State :=
  match s.findReq id with
  | none => s
  | some (p, k) =>
    let x := s.slot p k
    let again := decide (entries < max x.logged x.sentLog)
    let s := if again then s.setSlot p k { x with logged := min x.logged entries, sentLog := entries } else s
    let l := ((s.drv p).queue 5).filter fun e =>
      e.phase = .waiting ∧ e.tag = k ∧ (iOp e.insn = 0x74 ∨ iOp e.insn = 0x73 ∧ (s.outgoingOf p k).isNone)
    if again ∧ l = [] then s.appendFrom p k entries
    else l.foldl (fun s e => if again then s.appendFor p 5 e else s.reqFault p 5 e St.operandRange entries 2) s

def execAppendRefusal (id : ReqId) (entries : Nat) (s : State) : Res := .next (s.ifTakes (s.rxLogRefuse id entries))

/-! ## The frames after frame 0 -/

/-- A payload cut into whole 4,096-byte frames, the last one partial, each a body of one kind. -/
def chunksOf (content : Nat) (b : Bytes) (body : Bytes → Body := .bytes) : List (Nat × Body) :=
  (List.range (ceilDiv b.length 4096)).map fun i => (content, body ((b.drop (4096 * i)).take 4096))

/-- The frames of one page of a HANDOFF: they bring its format and whether it is COMPRESSED (R178, R217).
(DESIGN CHOICE: log 43) -/
def pageFrames (d : Word) (b : Bytes) : List (Nat × Body) :=
  chunksOf Ct.kvPage b (.page (BitVec.ofNat 4 (dFmt d)) (dCompressed d))

/-- Whether every page that a transfer reads is of a KV format and fits its slot (R160): the first that does not. -/
def pageFormFault (g : Geom) (pageBytes : Nat) (ds : List (Nat × Word)) : Option Miss :=
  (ds.find? fun x => !kvFmtOk (dFmt x.2) || decide (pageBytes < g.pageSize (dFmt x.2))).map fun x =>
    ⟨St.descInvalid, x.2.toNat, 0⟩

def State.readEach (p : PartId) : List (Nat × Nat) → State → Except Miss (List Bytes) × State
  | [], s => (.ok [], s)
  | (a, n) :: r, s =>
    match s.reqRead p a n with
    | (.error x, s) => (.error x, s)
    | (.ok b, s) =>
      match State.readEach p r s with
      | (.ok l, s) => (.ok (b :: l), s)
      | (.error x, s) => (.error x, s)

/-- The frames after frame 0 for one receiver, as (content, payload), in the order of Table 2.1, or of R297 for member `i` of
a cache set. -/
def State.laterFrames (s : State) (p : PartId) (o : Outgoing) (set : Option CacheSet) (i : Nat) :
    Except Miss (List (Nat × Body)) × State :=
  let m := s.manifest p o.slot
  let g := s.geom p
  match s.reqRead p (mSrAddr m) 128 with
  | (.error x, s) => (.error x, s)
  | (.ok sr, s) =>
    match s.reqRead p (srLogAddr sr) (4 * mNextPos m) with
    | (.error x, s) => (.error x, s)
    | (.ok log, s) =>
      match s.ptHdr p m with
      | (.error x, s) => (.error x, s)
      | (.ok h, s) =>
        match s.reqRead p (mPtAddr m) (64 + 8 * (h.pages * h.layers)) with
        | (.error x, s) => (.error x, s)
        | (.ok table, s) =>
          let ds := (List.range (h.pages * h.layers)).filterMap fun q =>
            let d : Word := wordOf (table.drop (64 + 8 * q))
            if dValid d ∧ dShared d = false ∧ h.prefixPages * h.layers ≤ q then some (q, d) else none
          match pageFormFault g h.pageBytes ds, State.readEach p (ds.map fun x => (dAddr x.2, carried g h.pageBytes x.2)) s with
          | some x, (_, s) => (.error x, s)
          | none, (.error x, s) => (.error x, s)
          | none, (.ok pages, s) =>
            match set with
            | none => (.ok (chunksOf Ct.tokenLog log ++ (ds.zip pages).flatMap fun x => pageFrames x.1.2 x.2), s)
            | some c =>
              if o.slots.length < ds.length then (.error ⟨St.operandRange, mCacheSet m, 2⟩, s)
              else
                let put := fun (t : Bytes) (x : (Nat × Word) × Nat) =>
                  setLe t (64 + 8 * x.1.1) 8 (setFld (setFld x.1.2 58 58 1) 51 12 (x.2 % 2 ^ 42 / 4096)).toNat
                let table := (ds.zip o.slots).foldl put table
                let parts := (ds.zip pages).map fun x => stripeOf c.coded x.1.1 i x.2
                (.ok (chunksOf Ct.tokenLog log ++ chunksOf Ct.kvPage table ++ parts.flatMap fun b => chunksOf Ct.kvPage b),
                  s)

def State.modOutgoing (s : State) (p : PartId) (uid : Nat) (g : Outgoing → Outgoing) : State :=
  s.modPart p fun x => { x with outgoing := x.outgoing.map fun o => if o.uid = uid then g o else o }

/-- A transfer ends without a commit point: the sender stays owner (R13). (DESIGN CHOICE: log 48) -/
def State.failTransfer (s : State) (p : PartId) (o : Outgoing) (st : Status) : State := (s.releasePark p o).endTransfer p o st

/-- Send one receiver what the replay buffer takes of the later frames. -/
def State.pumpTo (s : State) (p : PartId) (o : Outgoing) (d : NodeId × Nat) : State :=
  let go := o.accepted.contains d.1 && (!o.park || o.accepted.contains o.lead) && !o.allSent.contains d.1
  if go = false then s
  else
    let m := o.mft
    let set := if o.park then s.setUnder m else none
    let i := (set.map fun c => c.members.findIdx fun n => n = d.1).getD 0
    match s.laterFrames p o set i with
    | (.error x, s) =>
      match s.ownerEntry (p, 5, o.uid) with
      | some e =>
        let s := o.dsts.foldl (fun s d => s.sendAbort p m d.1) s
        let s := s.modPart p fun y => { y with outgoing := y.outgoing.erase o }
        ((s.releasePark p o).setSlot p o.slot { s.slot p o.slot with leaving := false }).accessFault p 5 e x.status x.d0 x.d1
      | none => s
    | (.ok fs, s) =>
      let from_ := ((o.sentRest.find? fun x => x.1 = d.1).map (·.2)).getD 0
      let r := (fs.drop from_).foldl (fun (acc : State × Nat × Bool) x =>
        let (s, n, full) := acc
        if full ∨ s.replayRoom p.val d.1 (64 + (bodyBytes x.2).length) = false then (s, n, true)
        else
          let idx := n + 1
          (s.sendSeq (s.placedFrame p.val m d.1 d.2 idx x.1 (decide (idx = fs.length)) false x.2), n + 1, false))
        (s, from_, false)
      let s := r.1.modOutgoing p o.uid fun o =>
        { o with sentRest := (d.1, r.2.1) :: o.sentRest.filter (fun x => x.1 ≠ d.1),
                 allSent := if r.2.1 = fs.length then o.allSent ++ [d.1] else o.allSent }
      match s.ownerEntry (p, 5, o.uid) with
      | some e => s.replayWait p 5 e r.2.2
      | none => s

/-- Whether a receiver has acknowledged every frame of a transfer. -/
def State.ackedBy (s : State) (p : PartId) (o : Outgoing) (d : NodeId) : Bool :=
  o.allSent.contains d && !(s.fab.sent.any fun x =>
    decide (x.unit = p.val) && decide (x.dst = d) && hPlaced x.frame && decide (tagReqId x.frame.hdr.tag = o.id))

/-- Tell a member of a cache set that a PARK transfer has passed its commit point: it sends the ownership note (R14).
(DESIGN CHOICE: log 54) -/
def State.tellParked (s : State) (unit : Nat) (m : Manifest) (n : NodeId) : State :=
  s.sendSeq (s.ctlFrame unit n (ctlTagM m) (.commitAck (mReqId m)))

/-- The PARK commit point (R12, R14, R20, R297): the pages on this node are freed, the lead is told, which is a new owner
and sends the ownership note, and the copy that the request was resumed from is released, with those of earlier turns.
(DESIGN CHOICE: log 54) -/
def State.parkCommit (s : State) (p : PartId) (o : Outgoing) : State :=
  let x := s.slot p o.slot
  let copy := x.oldCopy.filter fun a => a ≠ parkedAddr 0 o.id (mNextPos o.mft) o.slots
  let s := (s.departed p o.slot).tellParked p.val o.mft o.lead
  let s := s.releaseSet p.val o.mft x.oldSet copy (some (mNextPos o.mft))
  let s := { s with mgr := { s.mgr with owners := tabPut s.mgr.owners o.id.toNat (o.lead, 0) } }
  s.endTransfer p o St.ok

/-- A transfer goes on: frames leave as the replay buffer takes them; a PARK transfer that every member has acknowledged
commits. -/
def State.pumpTransfer (s : State) (p : PartId) (uid : Nat) : State :=
  let find := fun (s : State) => (s.part p).outgoing.find? fun o => o.uid = uid
  match find s with
  | none => s
  | some o =>
    let s := o.dsts.foldl (fun s d => match find s with | some o => s.pumpTo p o d | none => s) s
    match find s with
    | none => s
    | some o => if o.park ∧ (o.dsts.all fun d => s.ackedBy p o d.1) then s.parkCommit p o else s

def State.pumpPart (s : State) (p : PartId) : State :=
  ((s.part p).outgoing.map (·.uid)).foldl (fun s u => s.pumpTransfer p u) s

/-! ## Answers to a transfer -/

def State.transferTo (s : State) (dst : NodeId) (id : ReqId) : Option (PartId × Outgoing) :=
  (List.finRange 16).findSome? fun p =>
    ((s.part p).outgoing.find? fun o => decide (o.id = id) && o.dsts.any fun d => d.1 = dst).map fun o => (p, o)

/-- Frame 0 has been accepted; the acceptance of a cache set's lead carries the slot addresses (R297). -/
def State.accepted (s : State) (p : PartId) (o : Outgoing) (src : NodeId) (slots : List Nat) : State :=
  if o.accepted.contains src then s
  else
    (s.modOutgoing p o.uid fun o =>
      { o with accepted := o.accepted ++ [src],
               slots := if o.park ∧ src = o.lead then slots else o.slots }).pumpTransfer p o.uid

/-- A transfer has been refused (R13, R28): the sender stays owner and reports it to the manager. A PARK that a member
refuses otherwise than for its epoch, or that loses a member, goes to the cache set of the next book (R297, Table 1.7). -/
def State.refusedBy (s : State) (p : PartId) (o : Outgoing) (src : NodeId) (st : Status) (epoch : BitVec 16) : State :=
  let s := s.sendMgr p (ctlTagM o.mft) (.staleReport o.id src (BitVec.ofNat 4 (mPhase o.mft)) epoch st)
  let x := s.slot p o.slot
  let x := if st = St.staleEpoch then { x with stale := true }
    else if o.park then { x with parkAfter := some s.epoch } else x
  let x := if o.park then x else { x with refuser := o.dsts.head?, target := none }
  (s.setSlot p o.slot x).failTransfer p o st

/-- The commit acknowledgement of a HANDOFF (R13): the sender's state is freed, and cancels are forwarded from now on. -/
def State.committed (s : State) (p : PartId) (o : Outgoing) (src : NodeId) : State :=
  let s := s.departed p o.slot
  let part := ((o.dsts.find? fun d => d.1 = src).map (·.2)).getD 0
  let s := { s with mgr := { s.mgr with owners := tabPut s.mgr.owners o.id.toNat (src, part) } }
  s.endTransfer p o St.ok

/-! ## Frames that are abandoned (R38, R293) -/

def sameCtl (f g : Frame) : Bool := decide (f.body = g.body)

/-- An append or ownership note of a request has been abandoned and no standby can take over: the request ends FAILED, at the
partition that owns it or in the copy that the lead of its cache set holds (Table 1.7). Instructions that wait for the
append fault. (DESIGN CHOICE: log 55) -/
def State.failUnmanaged (s : State) (id : ReqId) : State :=
  match s.findReq id with
  | some (p, k) =>
    if s.owns p k = false ∨ terminal (mPhase (s.manifest p k)) then s
    else
      let s := s.endRequest p k Ph.failed
      (((s.drv p).queue 5).filter fun e => e.phase = .waiting ∧ e.tag = k ∧ (iOp e.insn = 0x73 ∨ iOp e.insn = 0x74)).foldl
        (fun s e => s.reqFault p 5 e St.operandRange 0 2) s
  | none =>
    match (s.parked.filter fun x => x.id = id ∧ terminal (mPhase x.mft) = false).getLast? with
    | none => s
    | some x =>
      let m := mSeal (mClean (mWithPhase x.mft Ph.failed s.epoch))
      let s := (s.setParked x m).raise Ev.requestFailed St.ok 16 0xFF (reqWord m)
      s.releaseSet unitRk m (if mCacheSet m = 0xFFF then none else some (mCacheSet m))

/-- The request that an append or an ownership note is about. -/
def noteReq (f : Frame) : Option ReqId :=
  match f.body with
  | .ctl (.logAppend i _ _) | .ctl (.ownership i _ _ _ _) => some i
  | _ => none

/-- What abandoning one frame means for what sent it: a receiver's own read fails the caravan; a fetch's counts the member
lost; a caravan's frame fails the transfer; an append or ownership note is kept to be sent again (R38), or, where the current book
names no standby, ends the request (Table 1.7). (DESIGN CHOICE: log 48; DESIGN CHOICE: log 55) -/
def State.frameLost (s : State) (x : Sent) : State :=
  match x.owner with
  | some (p, 9, k) =>
    match (s.part p).incoming.find? fun i => !i.park && i.slot == k && !i.accepted with
    | some i => s.failIncoming p i St.pathLost
    | none => s
  | some (p, 10, k) => s.fetchAnswer p k x.dst (hAddr x.frame) 1 []
  | _ =>
    match x.frame.body with
    | .ctl (.logAppend id _ _) | .ctl (.ownership id _ _ _ _) =>
      if (s.book.bind (·.stby)).isNone then s.failUnmanaged id
      else if s.mgr.unacked.any (sameCtl x.frame) then s
      else { s with mgr := { s.mgr with unacked := s.mgr.unacked ++ [x.frame] } }
    | .ctl (.commitAck id) =>
      -- the lead is out of reach: another member is told
      match s.findReq id with
      | none => s
      | some (p, k) =>
        let m := s.manifest p k
        let next := (s.setUnder m).bind fun c => c.members.find? fun n => n ≠ x.dst ∧ s.nodeState n = .active
        match next with
        | some n => if (s.slot p k).gone ∧ mPhase m = Ph.park then s.tellParked (hUnit x.frame) m n else s
        | none => s
    | _ =>
      if hPlaced x.frame then
        match s.transferTo x.dst (tagReqId x.frame.hdr.tag) with
        | some (p, o) => s.refusedBy p o x.dst St.pathLost s.epoch
        | none => s
      else s

def State.framesLost (s : State) (l : List Sent) : State := l.foldl (fun s x => s.frameLost x) s

/-- An owner sends its abandoned appends and notes again, to the manager its current book names (R38). -/
def State.ownerResend (s : State) (id : ReqId) : State :=
  match s.mgrNode with
  | none => s
  | some n =>
    (s.mgr.unacked.filter fun f => noteReq f = some id).foldl (fun s f =>
        match f.body with
        | .ctl c => s.sendSeq { s.ctlFrame (hUnit f) n f.hdr.tag c with mft := f.mft }
        | _ => s) s

def execOwnerResend (id : ReqId) (s : State) : Res := .next (s.ownerResend id)

/-- The manager has acknowledged an ownership note: the note and the forwarding entry go. -/
def State.rxOwnershipAck (s : State) (id : ReqId) : State :=
  { s with mgr := { s.mgr with
      owners := tabErase id.toNat s.mgr.owners
      unacked := s.mgr.unacked.filter fun f =>
        match f.body with | .ctl (.ownership i ..) => decide (i ≠ id) | _ => true } }

end Sys2Proof.Machine
end

