-- ==== Sys2Proof/Machine/Manager.lean ====
section
/-! DEFINITION. The manager, its standby and the route book (R14, R17 to R24, R27 to R44, R73, R74, R302, R303, R389, R405
to R407, R410, R421, R422). -/

namespace Sys2Proof.Machine

def State.modMgr (s : State) (f : Mgr → Mgr) : State := { s with mgr := f s.mgr }

def State.isManager (s : State) : Bool := decide (s.mgr.role = .manager)

/-- The standby that the current book names; a node is none of itself: one that takes over installs a book that names it
(R36). -/
def State.stby (s : State) : Option NodeId := (s.book.bind (·.stby)).filter fun n => n ≠ s.fab.node

def State.request (s : State) (id : ReqId) : Option ReqRec := s.mgr.requests.find? fun r => r.id = id

def State.putRequest (s : State) (r : ReqRec) : State :=
  s.modMgr fun m =>
    { m with requests := if m.requests.any fun x => x.id = r.id
        then m.requests.map fun x => if x.id = r.id then r else x else m.requests ++ [r] }

def State.logOf (s : State) (id : ReqId) : Option PromptLog := s.mgr.logs.find? fun l => l.id = id

def State.putLog (s : State) (l : PromptLog) : State :=
  s.modMgr fun m =>
    { m with logs := if m.logs.any fun x => x.id = l.id
        then m.logs.map fun x => if x.id = l.id then l else x else m.logs ++ [l] }

/-! ## Prompt logs in memory (R48, R73) -/

/-- Fabric address of a request's prompt log on the manager: its sampler record stands first. -/
def State.logAt (s : State) (id : ReqId) : Nat := s.nodeBase + Config.promptLogAddr id.toNat * 64 % 2 ^ 42

/-- The header of a prompt log (Table 2.12). -/
def logHeader (l : PromptLog) : Bytes :=
  let b := leBytes 6 l.id.toNat ++ leBytes 2 l.tenant.toNat ++ leBytes 4 l.entries.length ++ leBytes 2 l.turn.toNat ++
    zeros 2 ++ leBytes 8 l.admittedNs ++ zeros 36
  b ++ leBytes 4 (crc32c b).toNat

/-- Write a prompt log to memory, headed by a sampler record whose reserved bits are zero (R69). (DESIGN CHOICE: log 42) -/
def State.storeLog (s : State) (l : PromptLog) (sr : Bytes) : State :=
  (s.stWrite none (s.logAt l.id % 2 ^ 42) (srStore sr ++ logHeader l ++ l.entries.flatMap fun e => leBytes 4 e.toNat)).2

/-- Input and output tokens that a log holds, in all and in its current turn. -/
def logInputs (l : PromptLog) : Nat := (l.entries.filter fun e => !e.getLsbD 31).length
def logOutputs (l : PromptLog) : Nat := (l.entries.filter fun e => e.getLsbD 31).length
def turnTail (l : PromptLog) : List (BitVec 32) :=
  l.entries.foldl (fun a e => if e.getLsbD 30 then [e] else a ++ [e]) []
def logTurnOutputs (l : PromptLog) : Nat := ((turnTail l).filter fun e => e.getLsbD 31).length
def logTurnInputs (l : PromptLog) : Nat := ((turnTail l).filter fun e => !e.getLsbD 31).length

/-- The manifest's counts, set to what the log holds (R42). -/
def mWithLog (m : Manifest) (l : PromptLog) : Manifest :=
  { m with
    w3 := setFld (setFld (setFld m.w3 63 48 l.turn.toNat) 47 24 (logInputs l)) 23 0 l.entries.length
    w4 := setFld (setFld m.w4 39 24 (logTurnOutputs l)) 23 0 (logOutputs l) }

/-! ## The end of a request at the manager (R18, R407) -/

/-- A final manifest: the table shows the request as terminal, its prompt log is freed, the outcome counters rise. Flags
that the manager itself has set count too. -/
def State.finalAt (s : State) (m : Manifest) : State :=
  if s.isManager = false then s
  else
    let id := mReqId m
    let own := s.request id
    let flag := fun i => mFlag m i || own.any fun r => mFlag r.mft i
    let count := fun (s : State) (i : Nat) (b : Bool) => if b then s.addReg (0x708080 + 8 * i) 1 else s
    let s := count (count (count (count s 0 (flag flReconstructed)) 1 (flag flStateLost)) 2 (flag flRecomputed)) 3
      (flag flWidened)
    let s := count (count s 4 (decide (mPhase m = Ph.failed))) 5 (decide (mPhase m = Ph.cancelled))
    let s := s.modMgr fun g =>
      { g with logs := g.logs.filter (fun l => l.id ≠ id), sends := g.sends.filter fun x => x.id ≠ id }
    match own with
    | some r => s.putRequest { r with phase := BitVec.ofNat 4 (mPhase m), mft := mMerge m r.mft }
    | none => s

def State.abortSend (s : State) (x : MgrSend) (m : Manifest) : State :=
  let t := tagOfManifest m Ct.control 0 false false
  let t := { t with w1 := setFld t.w1 56 56 1 }
  s.sendCtl x.dst (.abort t) t

/-- The manager ends a request that it owns, or that is parked: a transfer it sends is stopped, the cache set released. -/
def State.endAtManager (s : State) (r : ReqRec) (ph : Nat) : State :=
  let m := mWithPhase r.mft ph s.epoch
  let s := match s.mgr.sends.find? fun x => x.id = r.id with
    | some x => s.abortSend x r.mft
    | none => s
  let s := if ph = Ph.failed then s.raise Ev.requestFailed St.ok 16 0xFF (reqWord m) else s
  (s.releaseSet unitRk m (if mCacheSet m = 0xFFF then none else some (mCacheSet m))).finalAt m

/-! ## Targets (R19, R33) -/

/-- The partition of a slice that takes a caravan: its lowest one. (DESIGN CHOICE: log 45) -/
def slicePart (x : BitVec 16) : Nat := ((List.range 16).find? fun i => bitOf x i).getD 0

/-- KV_FMT of a target: of this node's own partitions as ATT_GEOM has it, of another's as the manager knows it.
(DESIGN CHOICE: log 46) -/
def State.targetFmt (s : State) (e : PoolEntry) : Nat :=
  let p := slicePart e.slice
  if e.node = s.fab.node then (s.geom (Fin.ofNat 16 p)).kvFmt else Config.targetKvFmt e.node.val p

/-- Entries of a role's pool list whose node is ACTIVE; for a strict request, only those whose KV_FMT is not narrower than
its queries (R178). (DESIGN CHOICE: log 46) -/
def State.targets (s : State) (m : Manifest) (role : Role) (avoid : List NodeId) : List PoolEntry :=
  let l := ((s.book.map (·.pools)).getD []).filter fun e =>
    decide (e.role = role) && decide (s.nodeState e.node = .active) &&
      !(mFlag m flStrict && narrower (s.targetFmt e) (mQfmt m))
  match l.filter fun e => !avoid.contains e.node with
  | [] => l
  | l => l

/-- DESIGN CHOICE: log 46. -/
def State.pickTarget (s : State) (m : Manifest) (role : Role) (avoid : List NodeId) : Option (NodeId × Nat) × State :=
  let l := s.targets m role avoid
  (l[Config.poolPick s.freeCount l.length % l.length]?.map fun e => (e.node, slicePart e.slice),
   { s with freeCount := s.freeCount + 1 })

/-- The role that a request's tokens ask for: a prompt partition above the short-prompt threshold. -/
def State.roleFor (s : State) (tokens : Nat) : Role := if s.regFld 0x2000 22 8 < tokens then .prompt else .generate

/-- Tokens by which a request is routed: those it will process. -/
def routeTokens (r : ReqRec) (l : PromptLog) : Nat :=
  if r.phase.toNat = Ph.resume then (if mFlag r.mft flEvicted then 0 else logTurnInputs l) else l.entries.length

/-! ## The manager's own caravans -/

/-- Send frame 0 of a request's ADMIT or RESUME caravan to a target. Where no target is eligible, the request waits for the
next book; past the hop limit it ends FAILED (R15). (DESIGN CHOICE: log 46) -/
def State.launch (s : State) (id : ReqId) (avoid : List NodeId) : State :=
  match s.request id, s.logOf id with
  | some r, some l =>
    let s := s.modMgr fun g => { g with sends := g.sends.filter fun x => x.id ≠ id }
    if s.regFld 0x2000 5 0 ≤ mHops r.mft then s.endAtManager r Ph.failed
    else
      match s.pickTarget r.mft (s.roleFor (routeTokens r l)) avoid with
      | (none, s) => s
      | (some (n, p), s) =>
        let m := mWithPhase { r.mft with w1 := setFld r.mft.w1 25 20 (mHops r.mft + 1) } r.phase.toNat s.epoch
        let s := s.putRequest { r with mft := m, base := l.entries.length }
        let s := s.modMgr fun g => { g with sends := g.sends ++ [{ id := id, dst := n, part := p, accepted := false, sent := 0 }] }
        let b := if r.phase.toNat = Ph.atAdmit then [] else srStore l.sampler
        s.sendSeq (s.placedFrame unitRk m n p 0 Ct.manifest false true (.bytes b))
  | _, _ => s

/-- Send the token-log frames of an accepted caravan, as the replay buffer takes them. -/
def State.pumpSend (s : State) (x : MgrSend) : State :=
  match s.request x.id, s.logOf x.id with
  | some r, some l =>
    let fs := chunksOf Ct.tokenLog (l.entries.flatMap fun e => leBytes 4 e.toNat)
    if x.accepted = false then s
    else
      let y := (fs.drop x.sent).foldl (fun (acc : State × Nat × Bool) f =>
        let (s, n, full) := acc
        if full ∨ s.replayRoom unitRk x.dst (64 + (bodyBytes f.2).length) = false then (s, n, true)
        else (s.sendSeq (s.placedFrame unitRk r.mft x.dst x.part (n + 1) f.1 (decide (n + 1 = fs.length)) false f.2),
          n + 1, false)) (s, x.sent, false)
      y.1.modMgr fun g => { g with sends := g.sends.map fun z => if z.id = x.id then { z with sent := y.2.1 } else z }
  | _, _ => s

def State.pumpSends (s : State) : State := s.mgr.sends.foldl (fun s x => s.pumpSend x) s

/-! ## Recomputation (R42, R43) -/

/-- The sampler record of a recomputation: DRAWS counts the logged output tokens (R188); REPLAY is set where a grammar's
state has to be rebuilt (R192). -/
def replaySampler (l : PromptLog) : Bytes :=
  let b := setLe (fitBytes 128 l.sampler) 0x20 8 (logOutputs l)
  srSeal (if srGrammar b ≠ 0xFFFF ∧ 0 < logTurnOutputs l then setLe b 0x54 1 1 else b)

/-- A request's sequence is admitted to prefill again from its log; without a log it ends FAILED. Table 1.2 has these moves
end in PREFILL: the manager makes them by an ADMIT caravan, whose manifest says ADMIT until its target's commit point.
(DESIGN CHOICE: log 56) -/
def State.readmit (s : State) (r : ReqRec) (lost : Bool) (avoid : List NodeId) : State :=
  match s.logOf r.id with
  | none => s.endAtManager r Ph.failed
  | some l =>
    let m := if lost then mWithFlag r.mft flStateLost true else r.mft
    let m := mWithOwner (mWithLog (mWithFlag m flEvicted false) l) s.fab.node.val 0
    let m := mSeal { m with w1 := setFld m.w1 25 20 0, w5 := setFld m.w5 51 0 0, w6 := setFld m.w6 51 0 (s.logAt r.id) }
    let s := s.storeLog l (replaySampler l)
    let s := s.putRequest { r with phase := 0, node := s.fab.node, part := 0, mft := mWithPhase m Ph.atAdmit s.epoch }
    s.launch r.id avoid

/-- A note to this node's host. -/
def State.noteHost (s : State) (x : HostNote) : State := { s with host := { s.host with notes := s.host.notes ++ [x] } }

/-- A note to the host of a node: at this node it goes to its own host, to another as a CONTROL message.
(DESIGN CHOICE: log 101) -/
def State.tellHost (s : State) (n : NodeId) (x : HostNote) : State :=
  if n = s.fab.node then s.noteHost x
  else
    match x with
    | .admitted id => s.sendCtl n (.admitted id) (ctlTagOf id)
    | .stateLost id k => s.sendCtl n (.stateLost id k) (ctlTagOf id)

/-- State declared lost: the host that admitted the request is told the restart position (R43), which the manager's event
holds in word 2 of its detail, and the request is recomputed. (DESIGN CHOICE: log 56; DESIGN CHOICE: log 101) -/
def State.stateLost (s : State) (r : ReqRec) (avoid : List NodeId) : State :=
  let n := ((s.logOf r.id).map (·.entries.length)).getD 0
  let s := s.raise Ev.requestStateLost St.stateLost 16 0xFF (reqWord r.mft) (evDetail 0 0 n)
  (s.tellHost r.host (.stateLost r.id n)).readmit r true avoid

/-! ## Issuing books (R22, R32, R34) -/

/-- The book to be installed goes to every node that has not failed (R32). -/
def State.sendBook (s : State) : State :=
  match s.mgr.install with
  | none => s
  | some x =>
    let ns := (x.book.nodes.filter fun n => n.state ≠ .removed ∧ s.mgr.failedNodes.contains n.node = false).map (·.node)
    let s := s.modMgr fun g => { g with install := some { x with sent := true, waiting := ns } }
    ns.foldl (fun s n => s.sendCtl n (.bookPart x.book)) s

/-- Mirror copies go to the standby, the last of them with what waits for its acknowledgement. A candidate standby that is
being copied to gets every mirror copy too (R422). (DESIGN CHOICE: log 60) -/
def State.mirrorSend (s : State) (l : List Mirror) (a : AfterMirror) : State :=
  let s := match (if s.mgr.copyStarted then s.mgr.copyTo else none) with
    | some n => l.foldl (fun (s : State) m => s.sendCtl n (.mirror m)) s
    | none => s
  match s.stby with
  | none => s
  | some n =>
    let s := l.foldl (fun (s : State) m => s.sendCtl n (.mirror m)) s
    s.modMgr fun g => { g with mirrors := g.mirrors ++ List.replicate (l.length - 1) AfterMirror.nothing ++ [a] }

/-- A request has been admitted: its host is told, which the mirror learns too (R34, R38). (DESIGN CHOICE: log 101) -/
def State.ackAdmission (s : State) (id : ReqId) : State :=
  match s.request id with
  | none => s
  | some r =>
    if r.acked then s
    else
      let r := { r with acked := true }
      ((s.putRequest r).tellHost r.host (.admitted id)).mirrorSend [.request r] .nothing

/-- What the manager does once the standby has acknowledged a mirror copy (R34). -/
def State.afterMirror (s : State) (a : AfterMirror) : State :=
  match a with
  | .admitted r => (s.ackAdmission r.id).launch r.id []
  | .install => s.sendBook
  | .ackAppend n id k => s.sendCtl n (.logAck id k) (ctlTagOf id)
  | .nothing => s

/-- Mirror copies to the standby, then do what waits for its acknowledgement: at once where there is no standby.
(DESIGN CHOICE: log 60) -/
def State.mirrorOut (s : State) (l : List Mirror) (a : AfterMirror) : State :=
  let s := s.mirrorSend l a
  if s.stby.isNone then s.afterMirror a else s

/-- The standby has acknowledged the oldest mirror copy. (DESIGN CHOICE: log 60) -/
def State.mirrorAcked (s : State) : State :=
  match s.mgr.mirrors with
  | [] => s
  | a :: r => (s.modMgr fun g => { g with mirrors := r }).afterMirror a

def execStandbyMirrorAck (s : State) : Res := .next (s.ifTakes (s.mirrorAcked))

/-- Nodes that have joined since the last book are listed ACTIVE in the next (R302). -/
def addJoined (l : List (NodeId × Word)) (b : Book) : Book :=
  { b with nodes := l.foldl (fun ns j =>
      if ns.any fun n => decide (n.node = j.1) && decide (n.state ≠ .removed) then ns
      else (ns.filter fun n => n.node ≠ j.1) ++ [⟨j.1, j.2, .active, List.replicate 16 .unset, []⟩]) b.nodes }

/-- A cache set stands in a book only where every member has a partition of role CACHE there (R389). -/
def setsAllowed (b : Book) : Book :=
  { b with sets := b.sets.filter fun c => c.members.all fun m => b.nodes.any fun n => decide (n.node = m) && n.roles.contains .cache }

/-- Failed nodes in a book: REMOVED, out of every pool list; the cache sets that hold one lose every tenant class (R406). -/
def markRemoved (l : List NodeId) (b : Book) : Book :=
  { b with
    nodes := b.nodes.map fun n => if l.contains n.node then { n with state := .removed } else n
    pools := b.pools.filter fun e => !l.contains e.node
    sets := b.sets.map fun c => if c.members.any fun m => l.contains m then { c with tclasses := [] } else c
    stby := b.stby.filter fun n => !l.contains n }

/-- The park lease of a tenant class: one outside the range of Table 1.6, 1 s to 7 days, is rejected, and the class keeps the
lease of the book before, or the default of 30 min (R39). -/
def leaseIn (before : List TenantClass) (t : TenantClass) : TenantClass :=
  if 1 ≤ t.leaseSeconds ∧ t.leaseSeconds ≤ 604800 then t
  else { t with leaseSeconds := ((before.find? fun x => x.number = t.number).map (·.leaseSeconds)).getD 1800 }

/-- A book with its length, of at most 256 KiB, and its digest as its contents make them. (DESIGN CHOICE: log 51) -/
def measured (b : Book) : Book := { b with bytes := Config.bookBytes b % 262145, digest := Config.bookDigest b }

/-- Issue a book: numbered one above the book before it, naming this manager, with the nodes that have joined or failed
since; at most 256 KiB and 64 combinable ranges; only while no install is in progress (R22, R32).
(DESIGN CHOICE: log 52) -/
def State.issueBook (s : State) (b : Book) : State :=
  if s.isManager = false ∨ s.mgr.install.isSome ∨ 262144 < b.bytes ∨ 64 < b.ranges.length then s
  else
    let e : BitVec 16 := match s.mgr.cur with | some c => c.epoch + 1 | none => 1
    let b := markRemoved s.mgr.failedNodes (setsAllowed (addJoined s.mgr.waitingJoins b))
    let before := (s.mgr.cur.map (·.tclasses)).getD []
    let b := measured { b with epoch := e, mgr := s.fab.node, issuedNs := s.now, tclasses := b.tclasses.map (leaseIn before) }
    let s := s.modMgr fun g =>
      { g with install := some { book := b, sent := false, waiting := [], busy := [] }, waitingJoins := [] }
    s.mirrorOut [.book b] .install

/-- BOOK_ISSUE. The standby stays the one the current book names; the first book names its own. -/
def State.bookIssue (s : State) (b : Book) : State :=
  s.issueBook (match s.mgr.cur with | some c => { b with stby := c.stby } | none => b)

def execBookIssue (b : Book) (s : State) : Res := .next (s.bookIssue b)

/-! ## Installing books (R24, R29 to R31, R37) -/

/-- The manifests of the live requests of a job that stands switched out. -/
def Saved.liveManifests (x : Saved) : List Manifest :=
  ((x.saved.slots.filter fun e => e.2.held && !e.2.gone).map fun e =>
    manifestOf (memRead x.saved.hsram (x.mftBase + 64 * e.1) 64)).filter fun m => !terminal (mPhase m)

/-- The manifests of the caravans on this node: requests owned here and not terminal, those of switched-out jobs among
them, caravans being received, and parked copies. -/
def State.caravans (s : State) : List Manifest :=
  ((List.finRange 16).flatMap fun p =>
    (s.liveSlots p).map (s.manifest p) ++ ((s.part p).incoming.filter (·.accepted)).map (·.mft)) ++
  s.switchedOut.flatMap Saved.liveManifests ++ (s.parked.map (·.mft)).filter fun m => !terminal (mPhase m)

/-- Caravans on this node that carry the epoch of the previous book (R24, R26, R30). (DESIGN CHOICE: log 53) -/
def State.drainCount (s : State) : Nat :=
  match s.mgr.prev with
  | none => 0
  | some b => (s.caravans.filter fun m => mEpoch m = b.epoch).length

/-- Whether a book is the one that this node, taking over, completes the install of (R36). -/
def State.ownTakeover (s : State) (b : Book) : Bool :=
  decide (s.mgr.takeover = 1) && s.mgr.install.any fun x => decide (x.book.epoch = b.epoch)

/-- The standby command ends (R422). -/
def State.stbyDone (s : State) (st : Status) : State :=
  (((s.setRegFld 0x2020 63 48 st.toNat).setRegFld 0x2020 31 31 0).setRegFld 0x2020 16 16 0).modMgr fun g =>
    { g with copyTo := none, copyStarted := false, copyAcked := false }

/-- A manager stops acting as manager, with an event, and serves as a worker (R37). A standby command that runs ends with
PATH_LOST, its copy discarded (R422). -/
def State.stopManager (s : State) (st : Status) : State :=
  let s := (s.raise Ev.managerStopped st 16).modMgr fun g => { g with install := none, takeover := 0, role := .worker }
  if s.mgr.copyTo.isSome then s.stbyDone St.pathLost else s

/-- The role of a node under a book. A node that takes over stays manager under the book it completes. -/
def State.roleUnder (s : State) (b : Book) : State :=
  let me := s.fab.node
  let r : RkRole := if b.mgr = me ∨ s.ownTakeover b then .manager else if b.stby = some me then .standby else .worker
  let s := s.modMgr fun g => { g with role := if g.role = .none then .none else r }
  if r ≠ .manager ∧ s.mgr.copyTo.isSome then s.stbyDone St.pathLost else s

/-! ## Shared pages that become unreadable (R395) -/

/-- Every live request of this node's partitions that attends a page for which `bad` holds. (DEDUCED: log 79) -/
def State.sharedLostLive (s : State) (bad : Nat → Nat → Bool) : State :=
  (List.finRange 16).foldl (fun s p =>
    (s.liveSlots p).foldl (fun s k =>
      if (s.sharedPages p (s.manifest p k)).hit bad then s.loseShared p k else s) s) s

/-- The live requests of switched-out jobs that attend such a page: the manager is told now, and the partition gives up what
it holds of them as its job is switched in. (DEDUCED: log 79) -/
def State.sharedLostSaved (s : State) (bad : Nat → Nat → Bool) : State :=
  s.switchedOut.foldl (fun s x =>
    (x.saved.slots.filter fun e => e.2.held && !e.2.gone && !e.2.lost).foldl (fun s e =>
      let m := manifestOf (memRead x.saved.hsram (x.mftBase + 64 * e.1) 64)
      if !terminal (mPhase m) && (sharedIn (s.ownTable (some x.job.val) (mPtAddr m))).hit bad then
        let put := fun (y : Saved) =>
          if y.part = x.part ∧ y.job = x.job then
            { y with saved := { y.saved with slots := tabSet (fun _ => {}) y.saved.slots e.1 { e.2 with lost := true } } }
          else y
        let s := s.sendMgr x.part (ctlTagM m) (.lostRequest (mReqId m) .sharedPage (some m))
        { s with saves := s.saves.map put }
      else s) s) s

/-- The parked requests that attend such a page: the lead of the cache set tells the manager, and marks its copy STATE_LOST.
(DEDUCED: log 79) -/
def State.sharedLostParked (s : State) (bad : Nat → Nat → Bool) : State :=
  (s.parked.filter fun x => !terminal (mPhase x.mft) && !mFlag x.mft flStateLost &&
      decide ((s.setUnder x.mft).bind s.leadOf = some s.fab.node)).foldl (fun s x =>
    if (sharedIn (s.tableAt none ((x.base + 256) % 2 ^ 42))).hit bad then
      (s.sendMgr x.part (ctlTagM x.mft) (.lostRequest x.id .sharedPage (some x.mft))).setParked x
        (mSeal (mClean (mWithFlag x.mft flStateLost true)))
    else s) s

/-- Every request whose state this node holds that attends a page for which `bad` holds (R395). (DEDUCED: log 79) -/
def State.sharedLost (s : State) (bad : Nat → Nat → Bool) : State :=
  ((s.sharedLostLive bad).sharedLostSaved bad).sharedLostParked bad

/-- Whether the lines of a READ_REQ touch a page of `n` bytes at `a`. (DEDUCED: log 79) -/
def readTouches (f : Frame) (a n : Nat) : Bool := decide (hAddr f < a + n) && decide (a < hAddr f + 64 * hLines f)

/-- A book of a manager reaches a node: the status it answers, and the node after it. A manager that meets a newer book of
another manager stops, whatever it answers (R37). (DESIGN CHOICE: log 52) -/
def State.offerBook (s : State) (b : Book) : Status × State :=
  let s := if s.isManager ∧ b.mgr ≠ s.fab.node ∧ s.epochKind b.epoch = 1 ∧ s.ownTakeover b = false then s.stopManager St.ok
    else s
  let install := fun (s : State) (prev : Option Book) =>
    -- a standby that has failed since the book was made is none
    let cur := { b with stby := b.stby.filter fun n => !s.mgr.failedNodes.contains n }
    let s := (s.roleUnder b).modMgr fun g => { g with cur := some cur, prev := prev }
    (St.ok, (s.reexamineHeld.judgeHeld.sharedLost fun a _ => bookRemoved b a).parkAgain)
  match s.mgr.cur with
  | none => install s none
  | some c =>
    let held := (some c :: [s.mgr.prev]).filterMap id |>.find? fun x => x.epoch = b.epoch
    match held with
    | some x => if x.digest = b.digest ∧ x.mgr = b.mgr then (St.ok, s) else (St.staleEpoch, s)
    | none =>
      if b.epoch ≠ c.epoch + 1 then (St.staleEpoch, s)
      else if 0 < s.drainCount then (St.epochBusy, s)
      else install s (some c)

def State.bookInstall (s : State) (src : NodeId) (b : Book) : State :=
  let (st, s) := s.offerBook b
  s.sendCtl src (.bookAck b.epoch st s.epoch)

def execBookInstall (src : NodeId) (b : Book) (s : State) : Res := .next (s.ifTakes (s.bookInstall src b))

/-! ## Joining (R302, R303) -/

/-- The capability word (Table 11.6): stepping B, with feature bits as the present parts give. -/
def State.capWord (s : State) : Word :=
  let far := (List.range s.farGroups).any fun g => s.groupPresent g
  let nb := (List.range 32).any fun m => !(s.mu m).absent
  BitVec.ofNat 64 (3 + 3 * 16 + 0x12 * 2 ^ 12 + 2 * 2 ^ 20 + b2n nb * 2 ^ 32 + b2n far * 2 ^ 33 + 2 ^ 34 + 2 ^ 35)

def aufMax : Nat := 3

/-- A TYPE 6 frame. -/
def State.joinFrame (s : State) (dst : NodeId) (b : Body) : Frame :=
  NewFrame.build { tag := ctlTag, type := Ft.join, cls := 0, dst := dst, src := s.fab.node, unit := unitRk,
                   len := Config.plainBytes 6 % 4097 } none b

def State.sendJoin (s : State) : State := s.sendSeq (s.joinFrame s.boot.cfg.mgr (.join s.capWord))

/-- The manager judges a JOIN. -/
def State.judgeJoin (s : State) (n : NodeId) (caps : Word) : State :=
  let answer := fun (s : State) (st : Status) (b : Option Book) => s.sendSeq (s.joinFrame n (.ctl (.joinAnswer st b)))
  if aufMax < fld caps 3 0 ∨ fld caps 7 4 < aufMax then answer s St.joinVersion none
  else if s.nodeState n ≠ .removed then answer s St.joinDuplicate none
  else
    (answer s St.ok s.mgr.cur).modMgr fun g =>
      { g with waitingJoins := g.waitingJoins.filter (fun j => j.1 ≠ n) ++ [(n, caps)] }

/-- A JOIN at the manager; one that arrives during an install is answered after it. -/
def State.rxJoin (s : State) (n : NodeId) (caps : Word) : State :=
  if s.isManager = false then s
  else if s.mgr.install.isSome then
    s.modMgr fun g => { g with heldJoins := g.heldJoins ++ [(n, caps)] }
  else s.judgeJoin n caps

def execJoin (n : NodeId) (caps : Word) (s : State) : Res := .next (s.ifJoins (s.rxJoin n caps))

/-- The answer to this node's JOIN: it installs the book with no previous book, or is refused, and then sends no JOIN until
RETRY, not even a copy of the last.
(DESIGN CHOICE: log 98) -/
def State.rxJoinAnswer (s : State) (st : Status) (b : Option Book) : State :=
  let s := (s.setRegFld 0x301008 63 48 st.toNat).setRegFld 0x301008 0 0 0
  if st = St.ok then
    let s := s.modFab fun f => { f with joined := true, joinRefused := false }
    match b with
    | none => s
    | some b => ((s.roleUnder b).modMgr fun g => { g with cur := some b, prev := none }).judgeHeld
  else (s.modFab fun f => { f with
    joined := false, joinRefused := true, sent := f.sent.filter fun x => decide (hType x.frame ≠ Ft.join) }).raise
      Ev.joinRefused st 16

def execJoinAnswer (st : Status) (b : Option Book) (s : State) : Res := .next (s.ifJoins (s.rxJoinAnswer st b))

/-- RETRY: the node sends another JOIN (R303); the manager sends none (R302). RETRY reads as 1 until an answer comes.
(DESIGN CHOICE: log 98) -/
def State.retryJoin (s : State) : State :=
  if s.isManager then s else (s.setRegFld 0x301008 0 0 1).sendJoin

def execRetry (s : State) : Res := .next (s.ifReady (s.retryJoin))

/-! ## Cancels at the manager (R44) -/

def State.answerCancel (s : State) (to_ : NodeId) (m : Manifest) (st : Status) : State :=
  s.sendCtl to_ (.cancelAnswer (mReqId m) st (mOutput m)) (ctlTagM m)

/-- A cancel at the manager: it ends a request it owns, answers for one that has ended, and sends on any other.
(DESIGN CHOICE: log 57) -/
def State.cancelAtManager (s : State) (id : ReqId) (to_ : NodeId) : State :=
  match s.request id with
  | none => s
  | some r =>
    let ph := r.phase.toNat
    if terminal ph then s.answerCancel to_ r.mft St.alreadyDone
    else if r.node = s.fab.node ∧ (ph = Ph.atAdmit ∨ ph = Ph.resume) then
      (s.endAtManager r Ph.cancelled).answerCancel to_ r.mft St.cancelled
    else
      let dst := if ph = Ph.park then ((s.cacheSet (mCacheSet r.mft)).bind s.leadOf).getD r.node else r.node
      s.sendCtl dst (.cancel id to_ false) (ctlTagM r.mft)

/-! ## The end of an install -/

/-- The copy to a candidate standby: both books, every prompt log, the request table, the id counter, in that order.
(DESIGN CHOICE: log 60) -/
def State.stbyCopy (s : State) : State :=
  match s.mgr.copyTo with
  | none => s
  | some n =>
    if s.nodeState n ≠ .active ∨ n = s.fab.node then s.stbyDone St.operandRange
    else
      let g := s.mgr
      let l : List Mirror := (g.cur.toList.map .book) ++ (g.prev.toList.map .book) ++ g.logs.map .log ++
        g.requests.map .request ++ [.idBlock (g.nextId / 4096 * 4096)]
      (l.foldl (fun s m => s.sendCtl n (.mirror m)) s).modMgr fun g => { g with copyStarted := true }

/-- With the whole copy acknowledged, the manager issues a book that names the new standby. -/
def State.stbyBook (s : State) : State :=
  match s.mgr.copyTo, s.mgr.cur with
  | some n, some b =>
    if s.mgr.copyAcked ∧ s.mgr.install.isNone ∧ b.stby.isNone then s.issueBook { b with stby := some n } else s
  | _, _ => s

/-- Every node has installed a book: the manager raises BOOK_INSTALLED and goes on with what waited for it: a takeover
(R36), the standby command, nodes that failed, joins, requests without a target. (DESIGN CHOICE: log 52) -/
def State.installDone (s : State) (b : Book) : State :=
  let gone := fun n => (bookNode b n).all fun x => decide (x.state = .removed)
  let s := (s.modMgr fun g => { g with install := none, failedNodes := g.failedNodes.filter fun n => !gone n }).raise
    Ev.bookInstalled St.ok 16
  if s.mgr.takeover = 1 then
    (s.modMgr fun g => { g with takeover := 2 }).issueBook { b with stby := none }
  else
    let s := if s.mgr.takeover = 2 then (s.modMgr fun g => { g with takeover := 0 }).raise Ev.standbyTakeover St.ok 16 else s
    let s := match s.mgr.copyTo with
      | some n => if b.stby = some n then s.stbyDone St.ok else if s.mgr.copyStarted then s.stbyBook else s.stbyCopy
      | none => s
    let s := if s.mgr.failedNodes ≠ [] then s.issueBook b else s
    let joins := s.mgr.heldJoins
    let s := (s.modMgr fun g => { g with heldJoins := [] })
    let s := joins.foldl (fun s j => s.judgeJoin j.1 j.2) s
    let cancels := s.mgr.lostCancels
    let s := s.modMgr fun g => { g with lostCancels := [] }
    let s := cancels.foldl (fun s c => s.cancelAtManager c.1 c.2) s
    (s.mgr.requests.filter fun r =>
        (r.phase.toNat = Ph.atAdmit ∨ r.phase.toNat = Ph.resume ∧ r.node = s.fab.node) ∧
          (s.mgr.sends.any fun x => x.id = r.id) = false ∧ (s.mgr.mirrors.any fun a => a = .admitted r) = false).foldl
      (fun s r => s.launch r.id []) s

/-- The install is complete once no node is awaited. -/
def State.installCheck (s : State) : State :=
  match s.mgr.install with
  | some x => if x.sent ∧ x.waiting = [] ∧ x.busy = [] then s.installDone x.book else s
  | none => s

/-- A node's answer to a book (R32). A refusal of the manager's own install stops the manager (R37). -/
def State.bookAcked (s : State) (n : NodeId) (e : BitVec 16) (st : Status) : State :=
  match s.mgr.install with
  | none => s
  | some x =>
    if x.sent = false ∨ e ≠ x.book.epoch then s
    else
      let y := { x with waiting := x.waiting.filter (· ≠ n), busy := x.busy.filter (· ≠ n) }
      if st = St.ok then (s.modMgr fun g => { g with install := some y }).installCheck
      else if st = St.epochBusy then s.modMgr fun g => { g with install := some { y with busy := y.busy ++ [n] } }
      else if st = St.staleEpoch then s.stopManager St.staleEpoch
      else s

def execBookAck (n : NodeId) (e : BitVec 16) (st : Status) (s : State) : Res := .next (s.ifTakes (s.bookAcked n e st))

/-- The epoch retry interval has passed: the book goes again to each node that answered EPOCH_BUSY. -/
def State.epochRetry (s : State) : State :=
  match s.mgr.install with
  | none => s
  | some x => x.busy.foldl (fun s n => s.sendCtl n (.bookPart x.book)) s

def execEpochRetryExpiry (s : State) : Res := .next s.epochRetry

/-- Whether a node serves in the current book and has not been declared failed. -/
def State.serves (s : State) (n : NodeId) : Bool := decide (s.nodeState n ≠ .removed) && !s.mgr.failedNodes.contains n

/-! ## Failed nodes (R40, R405, R406, R410) -/

/-- Table 1.7 for one request that the failed node owned or was the target of. The table's phase is that of the last
commit point; output tokens logged since the launch show that prefill is over, and the request was in HANDOFF, DECODE or
PARK. (DESIGN CHOICE: log 56) -/
def State.requestOfFailed (s : State) (n : NodeId) (r : ReqRec) : State :=
  let ph := r.phase.toNat
  let prefilled := (s.logOf r.id).any fun l => decide (r.base < l.entries.length)
  if s.mgr.sends.any fun x => x.id = r.id ∧ x.dst = n then s.launch r.id [n]
  else if r.node ≠ n then s
  else if ph = Ph.handoff ∨ ph = Ph.decode ∨ ((ph = Ph.prefill ∨ ph = Ph.resume) ∧ prefilled) then s.stateLost r [n]
  else if ph = Ph.prefill then s.readmit r false [n]
  else if ph = Ph.resume then
    (s.putRequest { r with node := s.fab.node, part := 0 }).launch r.id [n]
  else s

/-- The manager declares a node failed. -/
def State.nodeFailed (s : State) (n : NodeId) : State :=
  if s.isManager = false ∨ n = s.fab.node ∨ s.mgr.failedNodes.contains n then s
  else
    let s := (s.raise Ev.nodeFailed St.ok 16 0xFF 0 (evDetail 0 0 n.val)).addReg 0x7080B0 1
    let wasStby := decide (s.stby = some n)
    let s := s.modMgr fun g =>
      { g with failedNodes := g.failedNodes ++ [n],
               install := g.install.map fun x =>
                 { x with waiting := x.waiting.filter (· ≠ n), busy := x.busy.filter (· ≠ n) } }
    let s := if s.mgr.copyTo = some n then s.stbyDone St.pathLost else s
    let s := if wasStby then
        let l := s.mgr.mirrors
        let s := s.modMgr fun g =>
          { g with mirrors := [], cur := g.cur.map fun b => { b with stby := b.stby.filter (· ≠ n) } }
        l.foldl (fun s a => s.afterMirror a) s
      else s
    let s := match s.mgr.cur with
      | some b => if s.mgr.install.isNone then s.issueBook b else s.installCheck
      | none => s
    s.mgr.requests.foldl (fun s r => s.requestOfFailed n r) s

def execNodeFailed (n : NodeId) (s : State) : Res := .next (s.nodeFailed n)

def execNodeSilenceExpiry (n : NodeId) (s : State) : Res := .next (if s.serves n then s.nodeFailed n else s)

def execFailureNote (n : NodeId) (code : BitVec 16) (s : State) : Res :=
  .next (s.ifTakes (if evSeverity code = 3 ∧ s.serves n then s.nodeFailed n else s))

/-- A node has neither acknowledged a book nor answered within the install timeout (R32). -/
def State.installTimeout (s : State) (n : NodeId) : State :=
  match s.mgr.install with
  | some x => if x.sent ∧ x.waiting.contains n then s.nodeFailed n else s
  | none => s

def execInstallTimeout (n : NodeId) (s : State) : Res := .next (s.installTimeout n)

/-! ## Admission (R17, R19, R34, R35, R54, R56, R204) -/

def entryOf (first : Bool) (t : BitVec 18) : BitVec 32 := logEntry false first t.toNat

def inputEntries (l : List (BitVec 18)) : List (BitVec 32) :=
  match l with
  | [] => []
  | t :: r => entryOf true t :: r.map (entryOf false)

/-- The next request id; ids start at 1, for REQ_ID 0 stands for traffic of no request. The id counter is mirrored before the
first id of a block of 4,096. (DESIGN CHOICE: log 47) -/
def State.takeId (s : State) : ReqId × State :=
  let n := max 1 s.mgr.nextId
  let s := if n = 1 ∨ n % 4096 = 0 then s.mirrorOut [.idBlock (n / 4096 * 4096)] .nothing else s
  (BitVec.ofNat 48 n, s.modMgr fun g => { g with nextId := n + 1 })

/-- The cache set that a new request of a tenant class is assigned: one of those tagged with it.
(DESIGN CHOICE: log 47) -/
def State.pickSet (s : State) (tc : BitVec 8) : Nat × State :=
  let l := ((s.book.map (·.sets)).getD []).filter fun c => c.tclasses.contains tc
  (((l[Config.poolPick s.freeCount l.length % l.length]?).map (·.number.toNat)).getD 0xFFF,
   { s with freeCount := s.freeCount + 1 })

def precisionOk (p : Nat) : Bool :=
  decide (fld (BitVec.ofNat 16 p) 15 12 ≤ 4) && [0, 4, 8].all fun i => decide (fld (BitVec.ofNat 16 p) (i + 3) i ≤ 8)

/-- The manifest of a new request, phase ADMIT, owned by the manager. (DESIGN CHOICE: log 47) -/
def State.newManifest (s : State) (a : Admission) (id : ReqId) (set : Nat) : Manifest :=
  let n := a.prompt.length
  let flags := b2n a.strict * 16 + b2n a.adapter.isSome * 32 + b2n a.keep * 64 + b2n a.sharedPrefix * 512 +
    b2n a.grammar * 1024
  let ad := match a.adapter with | some (h, g) => h.toNat + g.toNat * 4096 | none => 0
  mSeal
    { w0 := setFld (id.setWidth 64 : Word) 63 48 a.tenant.toNat
      w1 := BitVec.ofNat 64 (s.epoch.toNat + a.prio.toNat * 2 ^ 26 + a.share.toNat * 2 ^ 29 + a.tclass.toNat * 2 ^ 34 +
        s.fab.node.val * 2 ^ 42 + 2 ^ 56)
      w2 := BitVec.ofNat 64 (ad + a.precision.toNat * 2 ^ 28 + flags * 2 ^ 44)
      w3 := BitVec.ofNat 64 (n + n * 2 ^ 24 + 2 ^ 48)
      w4 := BitVec.ofNat 64 (set * 2 ^ 40)
      w5 := 0
      w6 := BitVec.ofNat 64 (s.logAt id)
      w7 := a.seed.setWidth 64 }

/-- A host's admission request. A node that is not the manager sends it on to the manager (Table 1.8). One that no receiver
could accept is not admitted: PRIO 0 or 1, a PRECISION that R54 refuses, no prompt, or more tokens than positions.
(DESIGN CHOICE: log 47; DESIGN CHOICE: log 101) -/
def State.takeAdmission (s : State) (a : Admission) : State :=
  if s.isManager = false then
    match s.mgrNode with
    | some n => if n = s.fab.node then s else s.sendCtl n (.admission { a with host := s.fab.node })
    | none => s
  else if a.prio.toNat < 2 ∨ precisionOk a.precision.toNat = false ∨ a.prompt = [] ∨ 16777215 < a.prompt.length then s
  else
    let (id, s) := s.takeId
    let (set, s) := s.pickSet a.tclass
    let m := s.newManifest a id set
    let l : PromptLog :=
      { id := id, tenant := a.tenant, turn := 1, admittedNs := s.now, sampler := fitBytes 128 a.sampler,
        entries := inputEntries a.prompt }
    let r : ReqRec :=
      { id := id, tenant := a.tenant, phase := 0, node := s.fab.node, part := 0, mft := m, parkedNs := 0, host := a.host,
        acked := false, base := 0 }
    (((s.putLog l).storeLog l l.sampler).putRequest r).mirrorOut [.log l, .request r] (.admitted r)

def execAdmissionRequest (a : Admission) (s : State) : Res := .next (s.takeAdmission a)

/-! ## Continuations, evictions, the end of a session (R17, R19, R20, R33) -/

/-- A parked request goes to RESUME: with a continuation, or, evicted mid-turn, without one. PT_ADDR is that of the parked
copy: where the members of its cache set keep its page table. (DESIGN CHOICE: log 42) -/
def State.continuation (s : State) (id : ReqId) (tokens : List (BitVec 18)) (gen : BitVec 16) (keep : Bool) : State :=
  match s.request id, s.logOf id with
  | some r, some l =>
    let evicted := mFlag r.mft flEvicted
    if s.isManager = false ∨ r.phase.toNat ≠ Ph.park ∨ evicted = decide (tokens ≠ []) ∨
        16777215 < l.entries.length + tokens.length then s
    else
      let at_ := mPtAddr r.mft % 2 ^ 42
      let l := if evicted then l else { l with turn := if l.turn = 0xFFFF then l.turn else l.turn + 1,
                                                entries := l.entries ++ inputEntries tokens }
      let m := mWithLog r.mft l
      let m := if evicted then m else
        mWithFlag { m with w2 := setFld m.w2 27 12 gen.toNat } flKeep keep
      let m := mWithOwner { m with w1 := setFld m.w1 25 20 0, w5 := setFld m.w5 51 0 at_, w6 := setFld m.w6 51 0 (s.logAt id) }
        s.fab.node.val 0
      let r := { r with phase := 5, node := s.fab.node, part := 0, mft := mWithPhase m Ph.resume s.epoch }
      (((s.putLog l).storeLog l l.sampler).putRequest r).mirrorOut [.log l, .request r] (.admitted r)
  | _, _ => s

def execContinuationAdmit (id : ReqId) (tokens : List (BitVec 18)) (gen : BitVec 16) (keep : Bool) (s : State) : Res :=
  .next (s.continuation id tokens gen keep)

/-- A parked request moves to DONE: its session is closed, or its lease has expired (R17, R20). -/
def State.parkDone (s : State) (id : ReqId) : State :=
  match s.request id with
  | some r => if s.isManager ∧ r.phase.toNat = Ph.park then s.endAtManager r Ph.done else s
  | none => s

def execParkLeaseExpiry (id : ReqId) (s : State) : Res := .next (s.parkDone id)
def execSessionClose (id : ReqId) (s : State) : Res := .next (s.parkDone id)

/-- A request on a DRAINING node is evicted mid-turn (R33): its owner is told. (DESIGN CHOICE: log 54) -/
def State.evict (s : State) (id : ReqId) : State :=
  match s.request id with
  | some r =>
    if s.isManager = false ∨ s.nodeState r.node ≠ .draining ∨ terminal r.phase.toNat ∨ r.phase.toNat = Ph.park then s
    else s.sendCtl r.node (.evict id) (ctlTagM r.mft)
  | none => s

def execManagerEvict (id : ReqId) (s : State) : Res := .next (s.evict id)

/-- The eviction at the owner: the EVICTED flag tells the program to park a decoding request. (DESIGN CHOICE: log 54) -/
def State.rxEvict (s : State) (id : ReqId) : State :=
  match s.findReq id with
  | some (p, k) =>
    if mCrcOk (s.manifest p k) = false then s.crcFailed p k
    else if s.owns p k ∧ mPhase (s.manifest p k) = Ph.decode then
      s.setManifest p k (mWithFlag (s.manifest p k) flEvicted true)
    else s
  | none => s

/-! ## Notes and appends (R14, R18, R74) -/

/-- The manager's copy of a manifest after a note: the flags of R56 that either has; of a parked request, all that its
parked copy says (CACHE_SET, PRECISION, EVICTED, PT_ADDR). Its reserved bits are zero (R50). (DESIGN CHOICE: log 54) -/
def mNoted (r : Manifest) (ph : Nat) (m : Option Manifest) : Manifest :=
  match m with
  | none => r
  | some m => if mCrcOk m = false then r else mSeal (mClean (if ph = Ph.park then mMerge m r else mMerge r m))

/-- An ownership note: the table names the new owner, and both owners learn that the note has come. -/
def State.rxOwnership (s : State) (id : ReqId) (ph : BitVec 4) (n : NodeId) (p : PartId) (m : Option Manifest) : State :=
  if s.isManager = false then s
  else
    match s.request id with
    | none => s.sendCtl n (.ownershipAck id) (ctlTagOf id)
    | some r =>
      let old := r.node
      let r' := if terminal r.phase.toNat then r
        else { r with phase := ph, node := n, part := p, mft := mNoted r.mft ph.toNat m,
                      parkedNs := if ph.toNat = Ph.park then s.now else r.parkedNs }
      let s := (s.putRequest r').mirrorOut [.request r'] .nothing
      let s := s.sendCtl n (.ownershipAck id) (ctlTagM r'.mft)
      if old = n ∨ old = s.fab.node then s else s.sendCtl old (.ownershipAck id) (ctlTagM r'.mft)

def execOwnershipNote (id : ReqId) (ph : BitVec 4) (n : NodeId) (o : NotedOwner) (s : State) : Res :=
  .next (s.ifTakes (s.rxOwnership id ph n o.part o.mft))

/-- A final manifest reaches the manager. One that fails its CRC is discarded, with an event (R59).
(DESIGN CHOICE: log 54) -/
def State.rxFinal (s : State) (m : Manifest) : State :=
  if mCrcOk m = false then s.raise Ev.manifestCrcRx St.ok 23 s.fab.via (reqWord m)
  else if s.isManager = false then s
  else
    let s := s.finalAt m
    match s.request (mReqId m) with
    | some r => s.mirrorOut [.request r] .nothing
    | none => s

def execFinalManifest (m : Manifest) (s : State) : Res := .next (s.ifTakes (s.rxFinal m))

/-- An append to a prompt log: taken, taken as a repeat, or refused with the entries held. The first append after a
recomputation shows that its prefill is complete, and the request is marked RECOMPUTED (R42). (DESIGN CHOICE: log 56) -/
def State.rxAppend (s : State) (src : NodeId) (id : ReqId) (i : Nat) (es : List (BitVec 32)) : State :=
  match (if s.isManager then s.logOf id else none) with
  | none => s
  | some l =>
    let n := l.entries.length
    if n < i then s.sendCtl src (.logRefuse id n) (ctlTagOf id)
    else
      let exceeding := (l.entries.drop i).take es.length
      if exceeding ≠ es.take exceeding.length then
        let w := setFld (id.setWidth 64 : Word) 63 48 l.tenant.toNat
        (s.raise Ev.logOverlapMismatch St.ok 16 0xFF w).sendCtl src (.logRefuse id n) (ctlTagOf id)
      else
        let l' := { l with entries := l.entries ++ es.drop (n - i) }
        let s := match s.request id with
          | some r =>
            if mFlag r.mft flStateLost ∧ mFlag r.mft flRecomputed = false ∧ n < l'.entries.length then
              s.putRequest { r with mft := mWithFlag r.mft flRecomputed true }
            else s
          | none => s
        ((s.putLog l').storeLog l' l'.sampler).mirrorOut [.log l'] (.ackAppend src id l'.entries.length)

def execPromptLogAppend (src : NodeId) (id : ReqId) (i : Nat) (es : List (BitVec 32)) (s : State) : Res :=
  .next (s.ifTakes (s.rxAppend src id i es))

/-! ## Refusals that reach the manager (R13, R28) -/

/-- Cache sets to which a request may park instead of one that a member has refused: of its tenant class, with every member
ACTIVE and without that member (R13). (DESIGN CHOICE: log 48) -/
def State.otherSets (s : State) (m : Manifest) (receiver : NodeId) : List CacheSet :=
  ((s.book.map (·.sets)).getD []).filter fun c =>
    s.setServes c m && !c.members.contains receiver && c.members.all fun n => decide (s.nodeState n = .active)

/-- A new target for a transfer in a phase (R13, R28): for a HANDOFF a generation partition; for a PARK that its receiver's
epoch refused another cache set, and any other PARK waits at its sender for the next book (R297, Table 1.7).
(DESIGN CHOICE: log 48) -/
def State.assignTarget (s : State) (r : ReqRec) (owner receiver : NodeId) (ph : Nat) (st : Status) : State :=
  if ph = Ph.park ∧ st ≠ St.staleEpoch then s
  else if ph = Ph.park then
    let l := s.otherSets r.mft receiver
    let k := Config.poolPick s.freeCount l.length % l.length
    let s := { s with freeCount := s.freeCount + 1 }
    match l[k]? with
    | some c =>
      let m := { r.mft with w4 := setFld r.mft.w4 51 40 c.number.toNat }
      s.sendCtl owner (.assign m ((s.leadOf c).getD owner) 0) (ctlTagM r.mft)
    | none => s
  else
    match s.pickTarget r.mft .generate [receiver] with
    | (some (n, p), s) => s.sendCtl owner (.assign r.mft n (Fin.ofNat 16 p)) (ctlTagM r.mft)
    | (none, s) => s

/-- The owner of a request whose state is lost gives it up. (DESIGN CHOICE: log 56) -/
def State.tellLost (s : State) (n : NodeId) (id : ReqId) : State :=
  if n = s.fab.node then
    match s.findReq id with
    | some (p, k) => s.giveUp p k
    | none => s
  else s.sendCtl n (.lostRequest id .state none) (ctlTagOf id)

/-- A refusal of the receiver of an owner's transfer (R13, R28): a receiver behind the current book is sent it again; a
HANDOFF whose receiver has failed loses its state (Table 1.7); otherwise a new target is assigned.
(DESIGN CHOICE: log 48) -/
def State.staleReported (s : State) (owner receiver : NodeId) (id : ReqId) (ph : BitVec 4) (e : BitVec 16) (st : Status) :
    State :=
  match (if s.isManager then s.mgr.cur else none) with
  | none => s
  | some b =>
    let behind := st = St.staleEpoch ∧ 1 ≤ (b.epoch - e).toNat ∧ (b.epoch - e).toNat ≤ 32767
    if behind then s.sendCtl receiver (.bookPart b)
    else
      match s.request id with
      | none => s
      | some r =>
        if terminal r.phase.toNat then s
        else if ph.toNat = Ph.handoff ∧ s.serves receiver = false then (s.tellLost owner id).stateLost r [receiver]
        else s.assignTarget r owner receiver ph.toNat st

def execStaleEpochRefusal (owner receiver : NodeId) (id : ReqId) (r : RefusedAt) (s : State) : Res :=
  .next (s.ifTakes (s.staleReported owner receiver id r.phase r.epoch St.staleEpoch))

/-- The manager's own caravan is refused: a receiver behind is sent the book; the caravan goes out again, to another target
where there is one. -/
def State.sendRefused (s : State) (x : MgrSend) (st : Status) (e : BitVec 16) : State :=
  match s.mgr.cur with
  | none => s
  | some b =>
    let behind := decide (st = St.staleEpoch) && decide (1 ≤ (b.epoch - e).toNat) && decide ((b.epoch - e).toNat ≤ 32767)
    let s := if behind then s.sendCtl x.dst (.bookPart b) else s
    s.launch x.id (if behind then [] else [x.dst])

def State.sendTo (s : State) (dst : NodeId) (id : ReqId) : Option MgrSend :=
  s.mgr.sends.find? fun x => decide (x.id = id) && decide (x.dst = dst)

/-! ## The answers to a caravan, whoever sends it -/

def State.caravanAccepted (s : State) (src : NodeId) (id : ReqId) (slots : List Nat) : State :=
  match s.transferTo src id, s.sendTo src id with
  | some (p, o), _ => s.accepted p o src slots
  | none, some _ =>
    (s.modMgr fun g => { g with sends := g.sends.map fun y => if y.id = id then { y with accepted := true } else y }).pumpSends
  | none, none => s

def execCaravanAccept (src : NodeId) (id : ReqId) (slots : List Nat) (s : State) : Res :=
  .next (s.ifTakes (s.caravanAccepted src id slots))

def State.caravanRefused (s : State) (src : NodeId) (id : ReqId) (st : Status) (e : BitVec 16) : State :=
  match s.transferTo src id, s.sendTo src id with
  | some (p, o), _ => s.refusedBy p o src st e
  | none, some x => s.sendRefused x st e
  | none, none => s

def execCaravanRefusal (src : NodeId) (id : ReqId) (st : Status) (e : BitVec 16) (s : State) : Res :=
  .next (s.ifTakes (s.caravanRefused src id st e))

/-- The newest parked copy of a request on this node. -/
def State.newestCopy (s : State) (id : ReqId) : Option Parked := (s.parked.filter fun x => x.id = id).getLast?

def State.caravanCommitted (s : State) (src : NodeId) (id : ReqId) : State :=
  match s.transferTo src id, s.sendTo src id with
  | some (p, o), _ => if o.park then s else s.committed p o src
  | none, some x =>
    let s := s.modMgr fun g => { g with sends := g.sends.filter fun y => y.id ≠ id }
    match s.request id with
    | some r => s.putRequest { r with node := src, part := Fin.ofNat 16 x.part }
    | none => s
  | none, none =>
    -- the lead of a cache set learns that a PARK has committed: it sends the note (R14)
    match s.newestCopy id with
    | some x => s.ownershipNote x.part x.mft
    | none => s

def execCommitAck (src : NodeId) (id : ReqId) (s : State) : Res := .next (s.ifTakes (s.caravanCommitted src id))

/-- A prompt log whose sampler record names no shared prefix. (DEDUCED: log 79) -/
def unsharedLog (l : PromptLog) : PromptLog :=
  { l with sampler := srSeal (setLe (setLe (fitBytes 128 l.sampler) 0x48 8 0) 0x50 4 0) }

/-- A request whose state a node reports lost (R298, R42): the manager keeps the sticky flags of the manifest that comes with
it (R41, R56). Where a shared page is unreadable, the recomputation is admitted with SHARED_PREFIX clear (R395). What a
partition taken out of service held is decided as for a node that has failed (R340, Table 1.7). An owner that the manager
tells so gives up its state. (DESIGN CHOICE: log 56; DEDUCED: log 79) -/
def State.rxLost (s : State) (src : NodeId) (id : ReqId) (why : LostWhy) (m : Option Manifest) : State :=
  if s.isManager = false then
    match s.findReq id with
    | some (p, k) => s.giveUp p k
    | none => s
  else
  match s.request id with
  | some r =>
    let r := match m with
      | some m => if mCrcOk m then { r with mft := mSeal (mClean (mMerge r.mft m)) } else r
      | none => r
    if terminal r.phase.toNat then s
    else
      match why with
      | .sharedPage =>
        let s := match s.logOf id with | some l => s.putLog (unsharedLog l) | none => s
        s.stateLost { r with mft := mWithFlag r.mft flSharedPrefix false } []
      | .state => s.stateLost r []
      | .offline => (s.putRequest r).requestOfFailed src r
  | none => s

/-! ## Heartbeats, takeover (R36, R405) -/

def execHeartbeatSend (s : State) : Res :=
  .next (match (if s.isManager then s.stby else none) with
    | some n => s.sendCtl n .heartbeat
    | none => s)

/-- A heartbeat starts the standby's manager-loss time anew; the model keeps no time for it (assumption log 50). -/
def execHeartbeatReceipt (s : State) : Res := .next s

def execLivenessNote (s : State) : Res :=
  .next (match (if s.isManager ∨ s.regBit 0x708020 1 then none else s.mgrNode) with
    | some n => s.sendCtl n .liveness
    | none => s)

/-- A liveness note starts the manager-loss time of its node anew; the model keeps no time for it (assumption log 50). -/
def execLivenessNoteReceipt (_node : NodeId) (s : State) : Res := .next s

/-- The standby has received no heartbeat for the manager-loss time: it takes over. The install of the last mirrored book
is completed first, then the book that names this node is issued, then the event raised. An admission that its host has
not been told of is lost (R38). (DESIGN CHOICE: log 52; DESIGN CHOICE: log 101) -/
def State.takeOver (s : State) : State :=
  if s.mgr.role ≠ .standby then s
  else
    match (s.mgr.mirrored.or s.mgr.cur) with
    | none => s
    | some b =>
      let s := s.modMgr fun g =>
        { g with role := .manager, takeover := 1, nextId := g.idBlock + 4096, mirrors := [],
                 requests := g.requests.filter fun r => r.acked,
                 cur := g.cur.map fun c => { c with stby := none },
                 install := some { book := b, sent := false, waiting := [], busy := [] } }
      s.sendBook

def execManagerLossExpiry (s : State) : Res := .next s.takeOver

/-! ## Mirrors and the standby command (R34, R35, R422) -/

/-- A mirror copy at the standby, or at a candidate that is being copied to. A standby acknowledges each; a candidate the
whole copy, with its last part. (DESIGN CHOICE: log 60) -/
def State.rxMirror (s : State) (m : Mirror) : State :=
  let s := match m with
    | .book b => s.modMgr fun g => { g with mirrored := some b }
    | .log l => s.putLog l
    | .request r =>
      let s := s.putRequest r
      if terminal r.phase.toNat then s.modMgr fun g => { g with logs := g.logs.filter fun l => l.id ≠ r.id } else s
    | .idBlock n => s.modMgr fun g => { g with idBlock := n }
  match s.mgrNode with
  | none => s
  | some n =>
    if s.mgr.role = .standby then s.sendCtl n .mirrorAck
    else match m with
      | .idBlock _ => s.sendCtl n .copyAck
      | _ => s

def execMirrorCopy (m : Mirror) (s : State) : Res := .next (s.ifTakes (s.rxMirror m))

/-- A write of RK_STBY. GO is accepted only on the manager while no standby is named and no command runs; it reads as 1
until the command ends. (DESIGN CHOICE: log 98) -/
def State.standbyEnable (s : State) (v : Word) : State :=
  if bitOf v 16 = false then s.setRegFld 0x2020 9 0 (fld v 9 0)
  else if s.isManager = false ∨ s.stby.isSome then s.writeIgnored 0x2020
  else if s.mgr.copyTo.isSome then s
  else
    let s := s.setRegFld 0x2020 9 0 (fld v 9 0)
    let s := ((s.setRegFld 0x2020 31 31 1).setRegFld 0x2020 16 16 1).modMgr fun g =>
      { g with copyTo := some (nodeOf (fld v 9 0)), copyStarted := false, copyAcked := false }
    if s.mgr.install.isSome then s else s.stbyCopy

def execStandbyEnable (v : Word) (s : State) : Res := .next (s.ifReady (s.standbyEnable v))

def State.stbyCopied (s : State) (n : NodeId) : State :=
  if s.mgr.copyTo = some n ∧ s.mgr.copyStarted then
    (s.modMgr fun g => { g with copyAcked := true }).stbyBook
  else s

def execStandbyCopyAck (n : NodeId) (s : State) : Res := .next (s.ifTakes (s.stbyCopied n))

/-! ## What abandoned frames mean for the manager -/

/-- A frame of the manager's own caravan that is abandoned refuses it with PATH_LOST; a copy frame to a candidate standby
ends the standby command (R422). -/
def State.mgrFrameLost (s : State) (x : Sent) : State :=
  if x.unit ≠ unitRk then s
  else
    match x.frame.body with
    | .ctl (.mirror _) => if s.mgr.copyTo = some x.dst then s.stbyDone St.pathLost else s
    | .ctl (.cancel id who fwd) =>
      -- the lead of the next book gets it (R44): at once where that book is installed already
      if s.isManager then
        let lead := ((s.request id).bind fun r => s.cacheSet (mCacheSet r.mft)).bind s.leadOf
        if lead ≠ none ∧ lead ≠ some x.dst then s.cancelAtManager id who
        else s.modMgr fun g => { g with lostCancels := g.lostCancels ++ [(id, who)] }
      else
        match s.mgrNode with
        | some n => if n = x.dst then s else s.sendCtl n (.cancel id who fwd) (ctlTagOf id)
        | none => s
    | _ =>
      if hPlaced x.frame then
        match s.sendTo x.dst (tagReqId x.frame.hdr.tag) with
        | some y => s.sendRefused y St.pathLost s.epoch
        | none => s
      else s

/-- What follows from abandoned frames. A read of a shared page that ends PATH_LOST makes it unreadable (R395). -/
def State.allLost (s : State) (l : List Sent) : State :=
  let s := l.foldl (fun s x => (s.frameLost x).mgrFrameLost x) s
  let reads := l.filter fun x => hType x.frame = Ft.readReq
  if reads = [] then s else s.sharedLost fun a n => reads.any fun x => readTouches x.frame a n

/-! ## Cancels that reach the hub (R44, R197, R198) -/

/-- The lead of a cache set ends a parked request CANCELLED (R44). -/
def State.cancelParked (s : State) (x : Parked) (to_ : NodeId) : State :=
  let m := mSeal (mClean (mWithPhase x.mft Ph.cancelled s.epoch))
  let s := (s.setParked x m).answerCancel to_ m St.cancelled
  let s := match s.mgrNode with
    | some n => s.sendSeq { s.ctlFrame unitRk n (tagOfManifest m Ct.manifest 0 false true) (.finalManifest m) with mft := some m }
    | none => s
  s.releaseSet unitRk m (if mCacheSet m = 0xFFF then none else some (mCacheSet m))

/-- The slot of a job that stands switched out, whose saved partition holds a request (R347). -/
def Saved.slotOf (x : Saved) (id : ReqId) : Option Nat :=
  (x.saved.slots.filter fun e => e.2.held && !e.2.gone).findSome? fun e =>
    if mReqId (manifestOf (memRead x.saved.hsram (x.mftBase + 64 * e.1) 64)) = id then some e.1 else none

/-- A class-0 cancel arrives: the owner applies it; the hub keeps it for a switched-out job; a former owner, and a member
that is not the lead, forward it; the lead ends a parked request; the manager sends it on. The owner answers the sender of
the frame (R197). (DESIGN CHOICE: log 34; DESIGN CHOICE: log 57) -/
def State.rxCancel (s : State) (src : NodeId) (id : ReqId) (to_ : NodeId) (forwarded : Bool) : State :=
  let owner := (List.finRange 16).findSome? fun p =>
    ((s.heldSlots p).find? fun k => s.owns p k && mReqId (s.manifest p k) == id).map fun k => (p, k)
  match owner with
  | some (p, k) =>
    -- a manifest that fails its CRC ends FAILED instead (R59)
    let s := s.checkOwn p k
    let m := s.manifest p k
    let s := if forwarded ∧ terminal (mPhase m) = false then s.setManifest p k (mWithFlag m flCancelFwd true) else s
    s.cancelWrite p k (some src)
  | none =>
    match s.switchedOut.findSome? fun x => (x.slotOf id).map fun k => (x, k) with
    | some (x, k) =>
      let y := tabGet (fun _ => ({} : Slot)) x.saved.slots k
      let y := { y with cancel := true, cancellers := y.cancellers ++ [src] }
      let x' := { x with saved := { x.saved with slots := tabSet (fun _ => {}) x.saved.slots k y } }
      { s with saves := s.saves.map fun z => if z = x then x' else z }
    | none =>
      match s.newestCopy id with
      | some x =>
        let m := x.mft
        if terminal (mPhase m) then s.answerCancel to_ m St.alreadyDone
        else
          match (s.cacheSet (mCacheSet m)).bind s.leadOf with
          | some n => if n = s.fab.node then s.cancelParked x to_ else s.sendCtl n (.cancel id to_ true) (ctlTagM m)
          | none => s
      | none =>
        match tabFind s.mgr.owners id.toNat with
        | some (n, _) => s.sendCtl n (.cancel id to_ true) (ctlTagOf id)
        | none => if s.isManager then s.cancelAtManager id to_ else s

def execCancel (src : NodeId) (id : ReqId) (canceller : NodeId) (forwarded : Bool) (s : State) : Res :=
  .next (s.ifTakes (s.rxCancel src id canceller forwarded))

end Sys2Proof.Machine
end

