-- ==== Sys2Proof/Machine/Traffic.lean ====
section
/-! DEFINITION. Ports and traffic (chapters 11 and 12): link start and loss, frame reception (R273, R274, R276, R312),
the egress scheduler (R307, R308), shapers and policers (R310 to R313), toll gates (R314 to R320), queue sampling (R321),
fabric time (R300). -/

namespace Sys2Proof.Machine

/-! ## Gate lists (R314 to R317) -/

def gInterval (e : Word) : Nat := fld e 34 8
def gOpen (e : Word) (c : Nat) : Bool := c = 0 || bitOf e c

def adminList (k : PortId) (i : Nat) : Nat := 0x30E000 + 0x1000 * k.val + 8 * i
def operList (k : PortId) (i : Nat) : Nat := 0x30E800 + 0x1000 * k.val + 8 * i

/-- A list of gate entries with its base (ns) and cycle (10 ns units). -/
structure GateList where
  base : Nat
  cycle : Nat
  entries : List Word
  deriving DecidableEq, Repr

def State.operGates (s : State) (k : PortId) : GateList :=
  let c := s.reg (gateOff k + 0x18)
  { base := (s.reg (gateOff k + 0x10)).toNat, cycle := fld c 44 18,
    entries := (List.range (fld c 17 9)).map fun i => s.reg (operList k i) }

def State.adminGates (s : State) (k : PortId) : GateList :=
  let c := s.reg (gateOff k)
  { base := (s.reg (gateOff k + 8)).toNat, cycle := fld c 44 18,
    entries := (List.range (fld c 17 9)).map fun i => s.reg (adminList k i) }

/-- The entry that holds at `pos` units from the start of a cycle: the last one holds until the cycle ends. -/
def entryAt : List Word → Nat → Option Word
  | [], _ => none
  | [e], _ => some e
  | e :: r, pos => if pos < gInterval e then some e else entryAt r (pos - gInterval e)

/-- Position in the cycle at a fabric time, in 10 ns units: it follows from the time alone (R317). -/
def GateList.pos (g : GateList) (t : Nat) : Nat :=
  let cyc : Int := (g.cycle * 10 : Nat)
  if g.cycle = 0 then 0 else ((((t : Int) - (g.base : Int)) % cyc).toNat) / 10

def GateList.open_ (g : GateList) (c t : Nat) : Bool :=
  match entryAt g.entries (g.pos t) with
  | none => true
  | some e => gOpen e c

/-- Whether the gate of a class is open at a fabric time, under the list in force then (R315, R316). -/
def State.gateOpen (s : State) (k : PortId) (c t : Nat) : Bool :=
  if c = 0 ∨ s.regBit (gateOff k) 0 = false then true
  else
    match (s.port k).gateT with
    | some T => if T ≤ t then (s.adminGates k).open_ c t else (s.operGates k).open_ c t
    | none => (s.operGates k).open_ c t

/-- The fit rule: the gate is open from now until the last byte of `wire` bytes at 0.01 ns a byte (R316). Gates change
at multiples of 10 ns only. -/
def State.gateFits (s : State) (k : PortId) (c wire : Nat) : Bool :=
  let t := s.now
  ((List.range (wire / 1000 + 2)).map fun i => if i = 0 then t else (t / 10 + i) * 10).all fun u =>
    decide ((u - t) * 100 ≥ wire ∧ u ≠ t) || s.gateOpen k c u

/-! ## Shapers (R310) -/

/-- The settings of a shaper or policer in effect. -/
def State.bucket (s : State) (off : Nat) : Word := tabGet regReset s.fab.shp off
def State.tokens (s : State) (off : Nat) : Int := tabGet (fun _ => (0 : Int)) s.fab.tokens off
def State.setTokens (s : State) (off : Nat) (v : Int) : State :=
  s.modFab fun b => { b with tokens := tabSet (fun _ => (0 : Int)) b.tokens off v }

def bkEn (w : Word) : Bool := bitOf w 48
def bkAct (w : Word) : Bool := bitOf w 49
def bkRate (w : Word) : Nat := fld w 16 0
def bkBurst (w : Word) : Nat := fld w 47 32

/-- The shaper of a class holds its head frame. -/
def State.shaperHolds (s : State) (k : PortId) (c : Nat) : Bool :=
  bkEn (s.bucket (shpOff k c)) && decide (s.tokens (shpOff k c) < 0)

/-! ## The egress scheduler (R307, R308) -/

def State.egressHead (s : State) (k : PortId) (c : Nat) : Option Frame :=
  ((vget (s.port k).egress c []).head?).map (·.frame)

/-- Blocks of 64 bytes of credit that a frame needs (R275). -/
def creditBlocks (f : Frame) : Nat := ceilDiv (frameBytes f) 64

/-- The peer lets a frame of the class start: credit for all of it, or the class's priority not paused. -/
def State.peerReady (s : State) (k : PortId) (c : Nat) (f : Frame) : Bool :=
  let x := s.port k
  if x.mode = 0 then decide (creditBlocks f ≤ vget x.credit c 0) else !bitOf x.paused (prioOf c)

def State.wire (s : State) (k : PortId) (f : Frame) : Nat := wireBytes (s.port k).mode.toNat f

def State.eligible (s : State) (k : PortId) (c : Nat) : Bool :=
  match s.egressHead k c with
  | none => false
  | some f => s.gateFits k c (s.wire k f) && !s.shaperHolds k c && s.peerReady k c f

/-- Frames of a NATIVE link's replay buffer: the newest ones, up to 256 KiB (R274). -/
def keepSent : Nat → List Frame → List Frame
  | _, [] => []
  | room, f :: r => if frameBytes f ≤ room then f :: keepSent (room - frameBytes f) r else []

/-- The Ethernet header of a port, with the C-tag of a class where VLAN_EN is set (R276, Table 11.7). -/
def State.ether (s : State) (k : PortId) (c : Nat) : Ether :=
  let b := portBase k
  { dst := BitVec.ofNat 48 (fld (s.reg (b + 0x18)) 47 0), src := BitVec.ofNat 48 (fld (s.reg (b + 0x10)) 47 0),
    tag := if s.regBit b 28 then
      some { pcp := BitVec.ofNat 3 (prioOf c), dei := false, vid := BitVec.ofNat 12 (s.regFld b 27 16) } else none }

/-- A 128-bit address from its low and high registers. -/
def State.addr6 (s : State) (off : Nat) : BitVec 128 := (s.reg (off + 8)).append (s.reg off)

/-- The encapsulation of a frame at a port (R276). A PTP message goes by the transport of its own that R299 names: EtherType
0x88F7, or UDP port 319 for the messages that are timestamped and 320 for the others. (PRESUMED: log 102) -/
def State.encapOf (s : State) (k : PortId) (f : Frame) : Encap :=
  let b := portBase k
  let h := s.ether k (hClass f)
  let ptp := decide (hType f = Ft.ptp)
  let general : Bool := match f.body with
    | .ptp m => m.kind = .announce || m.kind = .followUp || m.kind = .delayResp
    | _ => false
  let type := if ptp then 0x88F7 else s.regFld 0x301020 31 16
  let dscp := BitVec.ofNat 6 (8 * prioOf (hClass f))
  let port := BitVec.ofNat 16 (if ptp then (if general then 320 else 319) else s.regFld 0x301020 15 0)
  let from_ := if ptp then port else BitVec.ofNat 16 (0xC000 + frameHash f % 16384)
  match (s.port k).mode.toNat with
  | 0 => .native
  | 1 => .enet h (BitVec.ofNat 16 type)
  | 2 => .ipv4 h (BitVec.ofNat 32 (s.regFld (b + 0x20) 63 32)) (BitVec.ofNat 32 (s.regFld (b + 0x20) 31 0)) dscp true true
      from_ port true
  | _ => .ipv6 h (s.addr6 (b + 0x38)) (s.addr6 (b + 0x28)) dscp from_ port true

/-- The head frame of a class starts on the wire. (DESIGN CHOICE: log 63) -/
def State.startFrame (s : State) (k : PortId) (c : Nat) : State :=
  let x := s.port k
  match vget x.egress c [] with
  | [] => s
  | q :: r =>
    let w := s.wire k q.frame
    let s := if bkEn (s.bucket (shpOff k c)) then s.setTokens (shpOff k c) (s.tokens (shpOff k c) - (w * 8 : Nat)) else s
    s.setPort k { x with
      egress := vset x.egress c r
      onWire := some q
      encap := s.encapOf k q.frame
      sent := if x.mode = 0 ∧ q.stomped = false then keepSent 262144 (q.frame :: x.sent) else x.sent
      credit := if x.mode = 0 then vset x.credit c (vget x.credit c 0 - creditBlocks q.frame) else x.credit
      deficit := if r = [] then vset x.deficit c 0 else x.deficit }

def nextClass (c : Nat) : Nat := if 7 ≤ c then 2 else c + 1

/-- Deficit round robin over classes 2 to 7 (R308), `n` visits at most. -/
def State.drr : Nat → State → PortId → State
  | 0, s, _ => s
  | n + 1, s, k =>
    let x := s.port k
    let c := x.turn
    let pass := fun d : Nat => s.setPort k { x with turn := nextClass c, visited := false, deficit := vset x.deficit c d }
    match s.egressHead k c with
    | none => State.drr n (pass 0) k
    | some f =>
      if s.eligible k c = false then State.drr n (pass (vget x.deficit c 0)) k
      else
        let wgt := fld (s.reg (0x30C000 + 0x10 * k.val)) (8 * (c - 2) + 7) (8 * (c - 2))
        let d := vget x.deficit c 0 + if x.visited then 0 else 512 * wgt
        if s.wire k f ≤ d then
          (s.setPort k { x with visited := true, deficit := vset x.deficit c (d - s.wire k f) }).startFrame k c
        else State.drr n (pass d) k

/-- The visit of a class that has ceased to be eligible is over (R308). -/
def State.endVisit (s : State) (k : PortId) : State :=
  let x := s.port k
  if x.visited ∧ s.eligible k x.turn = false then s.setPort k { x with turn := nextClass x.turn, visited := false } else s

/-- A frame that the peer of a NATIVE link has asked for again starts on the wire; the port's queues, gates and credits had
their say when it was first sent (R274). (DESIGN CHOICE: log 63) -/
def State.startAgain (s : State) (k : PortId) (f : Frame) (r : List Frame) : State :=
  s.setPort k { s.port k with
    again := r, onWire := some { frame := f, at_ := s.pins.clkT }, encap := s.encapOf k f }

/-- Pick and start the next frame of an idle egress: first those that the peer has asked for again. -/
def State.schedule (s : State) (k : PortId) : State :=
  if (s.port k).onWire.isSome ∨ (s.port k).up = false then s
  else
    match (s.port k).again with
    | f :: r => s.startAgain k f r
    | [] =>
    let s := s.endVisit k
    if s.eligible k 0 then s.startFrame k 0
    else if s.eligible k 1 then s.startFrame k 1
    else if (List.range 6).any fun i => s.eligible k (i + 2) then s.drr 66 k
    else s

/-- A frame boundary at which classes are held by their shaper, or head frames by their gate, is counted.
(DESIGN CHOICE: log 65) -/
def State.countHolds (s : State) (k : PortId) : State :=
  let held := fun (s : State) (c : Nat) => (s.egressHead k c).isSome && s.shaperHolds k c
  let s := (List.range 8).foldl (fun s c => if held s c then s.addReg (shpOff k c + 8) 1 else s) s
  let gated := (List.range 8).any fun c =>
    match s.egressHead k c with
    | some f => !s.gateFits k c (s.wire k f)
    | none => false
  if gated then s.addReg (gateOff k + 0x20) 1 else s

/-- Frames that a NATIVE link's peer asked for again since the last frame boundary: the frame whose link CRC failed and every
later one, at most those kept. They are counted, and go on the wire again in their order (R274). (DESIGN CHOICE: log 63) -/
def State.linkResent (s : State) (k : PortId) : State :=
  let x := s.port k
  if x.mode ≠ 0 then s
  else
    let n := s.freeCount
    let m := min (Config.linkResent n) x.sent.length
    if m = 0 then { s with freeCount := n + 1 }
    else
      (({ s with freeCount := n + 1 }).setPort k { x with again := (x.sent.take (max m x.again.length)).reverse }).addReg (portBase k + 0x58) m

/-- The frame on the wire ends: a frame boundary (R307). -/
def State.frameEnd (s : State) (k : PortId) : State :=
  if (s.port k).onWire.isNone then s
  else
    let s := s.linkResent k
    ((s.setPort k { s.port k with onWire := none }).countHolds k).schedule k

def execFrameTxEnd (k : PortId) (s : State) : Res := .next (s.frameEnd k)

def execSchedulerRetest (k : PortId) (s : State) : Res := .next (s.schedule k)

/-- A peer gives back credit; the receiver's 256 KiB bound what is held (R275). -/
def State.giveCredit (s : State) (k : PortId) (c blocks : Nat) : State :=
  let x := s.port k
  if x.up = false ∨ x.mode ≠ 0 then s
  else
    let s := s.setPort k { x with credit := vset x.credit c (min 4096 (vget x.credit c 0 + blocks)) }
    s.schedule k

def execCreditReturn (k : PortId) (c : Fin 8) (blocks : Nat) (s : State) : Res := .next (s.giveCredit k c.val blocks)

/-- A priority-flow-control frame of an encapsulated port's peer names the priorities it pauses (R275). -/
def State.setPaused (s : State) (k : PortId) (p : BitVec 8) : State :=
  let x := s.port k
  if x.up = false ∨ x.mode = 0 then s else (s.setPort k { x with paused := p }).schedule k

def execPriorityFlowControl (k : PortId) (paused : BitVec 8) (s : State) : Res := .next (s.setPaused k paused)

/-! ## Links (R270, R271) -/

/-- A port trains: it comes up where its peer runs in the same mode, and reports a mismatch where it does not. -/
def State.linkUp (s : State) (k : PortId) (peer : NodeId) (peerMode : BitVec 2) : State :=
  let ctl := s.reg (portBase k)
  if bitOf ctl 0 = false then s
  else
    let mode := BitVec.ofNat 2 (fld ctl 2 1)
    let x := s.port k
    s.setPort k { x with
      trained := true, up := decide (mode = peerMode), mismatch := decide (mode ≠ peerMode), mode := mode, peer := peer,
      credit := Vector.replicate 8 4096, paused := 0, given := Vector.replicate 8 0, pausing := 0, onWire := none, sent := [],
      again := [], pathDelay := 0, syncAt := none, lastSync := none, askedAt := none }

def execPortLinkUp (k : PortId) (peer : NodeId) (peerMode : BitVec 2) (s : State) : Res :=
  .next (s.linkUp k peer peerMode)

/-- A port goes down: the frames queued for it are discarded and counted, and a PATH_NOTICE for each goes to its source
(chapter 12, Egress port going down with frames queued). (DESIGN CHOICE: log 63) -/
def State.linkDown (s : State) (k : PortId) : State :=
  let x := s.port k
  let fs := (x.egress.toList.flatten.map (·.frame)) ++ x.inject.map (·.2)
  let s := s.setPort k { x with
    trained := false, up := false, egress := Vector.replicate 8 [], inject := [], onWire := none, sent := [], again := [],
    deficit := Vector.replicate 8 0, visited := false }
  fs.foldl (fun s f => s.swDrop f true) s

def execPortLinkDown (k : PortId) (s : State) : Res := .next (s.linkDown k)

/-! ## Reception (R273, R274, R276, R312) -/

/-- The encapsulation matches what the port is set to (R276). -/
def State.encapOk (s : State) (k : PortId) (e : Encap) : Bool :=
  let b := portBase k
  let macs := fun h : Ether =>
    decide (h.dst.toNat = fld (s.reg (b + 0x10)) 47 0) && decide (h.src.toNat = fld (s.reg (b + 0x18)) 47 0)
  let udp := s.regFld 0x301020 15 0
  match (s.port k).mode.toNat, e with
  | 0, .native => true
  | 1, .enet h t => macs h && decide (t.toNat = s.regFld 0x301020 31 16)
  | 2, .ipv4 h dst src _ _ ok _ u _ =>
    macs h && decide (dst.toNat = s.regFld (b + 0x20) 31 0) && decide (src.toNat = s.regFld (b + 0x20) 63 32) &&
      decide (u.toNat = udp) && ok
  | 3, .ipv6 h dst src _ _ u ok =>
    macs h && decide (dst = s.addr6 (b + 0x28)) && decide (src = s.addr6 (b + 0x38)) && decide (u.toNat = udp) && ok
  | _, _ => false

/-- The policer of a class tests a frame (R312): the state, and whether the frame is kept. (DESIGN CHOICE: log 63) -/
def State.police (s : State) (k : PortId) (f : Frame) : State × Bool :=
  let off := polOff k (hClass f)
  let w := s.bucket off
  if bkEn w = false then (s, true)
  else if 0 ≤ s.tokens off then (s.setTokens off (s.tokens off - (s.wire k f * 8 : Nat)), true)
  else (s.addReg (off + 8) 1, !bkAct w)

/-- A frame whose link CRC failed, of which the switch had begun to forward a copy cut-through: the copy ends stomped
(R274). (DESIGN CHOICE: log 63) -/
def State.stompOut (s : State) (f : Frame) : State :=
  let n := s.freeCount
  let s := { s with freeCount := n + 1 }
  let e := s.hop (hDst f) (hPath f)
  let k : PortId := Fin.ofNat 8 e
  let x := s.port k
  let c := hClass f
  if Config.begunForward n ∧ frameOk f ∧ e < 8 ∧ x.up ∧ x.mode = 0 ∧ 1 < hTtl f ∧ s.combinable f = false then
    let g := frameMod f fun h => { h with w2 := setFld h.w2 21 16 (hTtl f - 1) }
    (s.setPort k { x with
      egress := vset x.egress c (vget x.egress c [] ++ [{ frame := g, at_ := s.pins.clkT, stomped := true }]) }).schedule k
  else s

/-- A frame arrives at a port: link CRC and stomp, encapsulation, header, policer; what is kept waits for the switch.
(DESIGN CHOICE: log 63) -/
def State.receive (s : State) (k : PortId) (f : Frame) (e : Encap) (crcOk stomped : Bool) : State :=
  let x := s.port k
  if x.up = false then s
  else if stomped ∧ x.mode = 0 then s.addReg (portBase k + 0x60) 1
  else if crcOk = false then
    let s := s.addReg (portBase k + 0x50) 1
    if x.mode = 0 then s.stompOut f else s
  else if s.encapOk k e = false ∨ frameOk f = false then s.addReg 0x301060 1
  else
    let r := s.police k f
    if r.2 then (r.1.setPort k { r.1.port k with ingress := (r.1.port k).ingress ++ [f] }).tellPause k else r.1

def execFrameReceive (k : PortId) (f : Frame) (e : Encap) (linkCrcOk stomped : Bool) (s : State) : Res :=
  .next (s.receive k f e linkCrcOk stomped)

/-! ## Shapers, policers and injection buckets at the refill tick (R310, R311, R326) -/

/-- One bucket at a refill tick: it adds the new RATE under the new BURST limit, then takes up the new settings; a write of
the tick's own cycle waits for the next one. A bucket whose EN was clear until now does not change its count.
(DESIGN CHOICE: log 64) -/
def State.refillBucket (s : State) (off : Nat) : State :=
  let new := s.beforeWrites off
  let s := if bkEn (s.bucket off)
    then s.setTokens off (min (s.tokens off + (bkRate new : Nat)) (bkBurst new * 512 : Nat)) else s
  s.modFab fun b => { b with shp := tabSet regReset b.shp off new }

/-- One job's bucket at one port: FAB_SHARE × 312.5 bits a tick, at most 64 KiB, counted in half bits.
(DESIGN CHOICE: log 64) -/
def State.refillInj (s : State) (j : Nat) (k : PortId) : State :=
  let c := tabGet (fun _ => (0 : Int)) s.fab.inj (injKey j k)
  let n : Int := min (c + (625 * s.injShare j k : Nat)) (1024 * 512 * 2 : Nat)
  s.modFab fun b => { b with inj := tabSet (fun _ => (0 : Int)) b.inj (injKey j k) n }

/-- FAB_SHARE as the tick takes it up: a write of the tick's own cycle waits for the next one (R311, R326).
(DESIGN CHOICE: log 64) -/
def State.refillTick (s : State) : State :=
  let s := (List.finRange 8).foldl (fun s k =>
    (List.range 8).foldl (fun s c => (s.refillBucket (shpOff k c)).refillBucket (polOff k c)) s) s
  let s := (List.range 16).foldl (fun s j =>
    s.modFab fun b => { b with share := tabSet (fun _ => (0 : Word)) b.share j (s.beforeWrites (jobBase j + 8)) }) s
  let s := (List.range 16).foldl (fun s j => (List.finRange 8).foldl (fun s k => s.refillInj j k) s) s
  (List.finRange 8).foldl (fun s k => s.injectDrain k) s

def execRefillTick (s : State) : Res := .next s.refillTick

/-- A write of a shaper or policer register: it stands in the register until the next refill tick takes it up; class 0
keeps at least 25 Gb/s and 64 KiB (R311, R313). (DESIGN CHOICE: log 64) -/
def State.bucketWrite (s : State) (k : PortId) (c : Nat) (policer : Bool) (lanes v : Word) : State :=
  let off := if policer then polOff k c else shpOff k c
  let old := s.reg off
  let new := fieldsWrite ((regFields off).getD []) lanes old v
  let s := s.noteWrite off
  if c ≠ 0 then s.setReg off new
  else
    let lowRate := bitOf lanes 0 && decide (bkRate v < 2500)
    let lowBurst := bitOf lanes 32 && decide (bkBurst v < 1024)
    let w := if lowRate then setFld new 16 0 (bkRate old) else new
    let w := if lowBurst then setFld w 47 32 (bkBurst old) else w
    let s := s.setReg off w
    if lowRate || lowBurst then s.writeIgnored off else s

def allLanes : Word := BitVec.allOnes 64

def execShaperWrite (k : PortId) (c : Fin 8) (policer : Bool) (v : Word) (s : State) : Res :=
  .next (s.ifReady (s.bucketWrite k c.val policer allLanes v))

/-! ## Installing a gate list (R318 to R320) -/

/-- The intervals of a cycle with their entries: cut at the cycle's end, the last one lengthened to it. -/
def gateRuns : Nat → List Word → List (Nat × Word)
  | 0, _ => []
  | _, [] => []
  | left, [e] => [(left, e)]
  | left, e :: r =>
    if left ≤ gInterval e then [(left, e)] else (gInterval e, e) :: gateRuns (left - gInterval e) r

/-- Lengths of the runs of time for which a class is open within one cycle, in order; a run that touches the cycle's
start or end stands first or last. -/
def openRuns (c : Nat) : List (Nat × Word) → Nat → List Nat
  | [], cur => if cur = 0 then [] else [cur]
  | (n, e) :: r, cur =>
    if gOpen e c then openRuns c r (cur + n) else (if cur = 0 then [] else [cur]) ++ openRuns c r 0

/-- Whether some run of a class is shorter than 50 ns, taken across the end of a cycle into the next. -/
def shortRun (c : Nat) (runs : List (Nat × Word)) : Bool :=
  let o := openRuns c runs 0
  let opens := fun e : Option (Nat × Word) => (e.map fun x => gOpen x.2 c).getD false
  if opens runs.head? && opens runs.getLast? then
    match o with
    | [] | [_] => false
    | a :: r => (r.dropLast.any fun n => n < 5) || decide (a + r.getLastD 0 < 5)
  else o.any fun n => n < 5

/-- The checks of R318. -/
def gateListOk (g : GateList) (len : Nat) : Bool :=
  decide (1 ≤ len) && decide (len ≤ 256) && decide (1 ≤ g.cycle) && decide (g.cycle ≤ 100000000) &&
    decide (g.base % 10 = 0) && (g.entries.all fun e => decide (gInterval e ≠ 0) && decide (fld e 63 35 = 0)) &&
    (let runs := gateRuns g.cycle g.entries
     (List.range 7).all fun i => !shortRun (i + 1) runs)

/-- The first start of a cycle at or after a time (R319). -/
def GateList.nextStart (g : GateList) (t : Nat) : Nat :=
  let cyc := g.cycle * 10
  let r := (((g.base : Int) - (t : Int)) % (cyc : Int)).toNat
  t + r

/-- CHANGE written: the admin list is checked, then pends or is refused. -/
def State.gateChange (s : State) (k : PortId) : State :=
  let g := s.adminGates k
  if gateListOk g (s.regFld (gateOff k) 17 9) then
    let s := s.setRegFld (gateOff k) 2 2 1
    s.setPort k { s.port k with gateT := some (g.nextStart (s.now + 1000)) }
  else
    ((s.setRegFld (gateOff k) 3 3 1).setRegFld (gateOff k) 1 1 0).raise Ev.gateListRefused St.ok 19 k.val 0
      (evDetail 0 0 (gateOff k))

/-- A write of the admin list or of ADMIN_BASE: not taken while a list pends (R319). OPEN0 of an entry is ignored on
write and reads as 1 (Table 12.2). -/
def State.gateAdminWrite (s : State) (k : PortId) (off : Nat) (lanes v : Word) : State :=
  if (s.port k).gateT.isSome then s
  else s.setReg off (fieldsWrite ((regFields off).getD []) lanes (s.reg off) v)

/-- A write of GATE_CTL: while a list pends, the ADMIN fields and CHANGE are not taken (R319). CHANGE reads as 1 until the
list takes effect or is refused. (DESIGN CHOICE: log 98) -/
def State.gateCtlWrite (s : State) (k : PortId) (lanes v : Word) : State :=
  let off := gateOff k
  let old := s.reg off
  let lanes := if (s.port k).gateT.isSome then lanes &&& ~~~(maskBits 64 44 9 ||| maskBits 64 1 1) else lanes
  let new := fieldsWrite ((regFields off).getD []) lanes old v
  let s := s.setReg off new
  if bitOf (v &&& lanes) 1 then s.gateChange k else s

def execChange (k : PortId) (v : Word) (s : State) : Res := .next (s.ifReady (s.gateCtlWrite k allLanes v))

/-- At T the admin list becomes the operating list and PENDING clears (R319). -/
def State.gateEffect (s : State) (k : PortId) : State :=
  match (s.port k).gateT with
  | none => s
  | some T =>
    if s.now < T then s
    else
      let ctl := s.reg (gateOff k)
      let s := (s.setReg (gateOff k + 0x10) (s.reg (gateOff k + 8))).setReg (gateOff k + 0x18)
        (setFld (setFld 0 44 18 (fld ctl 44 18)) 17 9 (fld ctl 17 9))
      let s := (List.range 256).foldl (fun s i => s.setReg (operList k i) (setFld (s.reg (adminList k i)) 0 0 1)) s
      let s := s.setRegFld (gateOff k) 2 1 0
      s.setPort k { s.port k with gateT := none }

def execGateListEffect (k : PortId) (s : State) : Res := .next (s.gateEffect k)

/-- The next entry's gates take effect: the position follows from fabric time (R317), so an idle egress tests again. -/
def execGateEntryBoundary (k : PortId) (s : State) : Res := .next (s.schedule k)

/-! ## Queue sampling (R321) -/

def histOff (k : PortId) (c : Nat) : Nat := 0x320000 + 0x1000 * k.val + 0x200 * c

/-- Bin of a value whose bin 1 begins at `unit`. -/
def histBin (unit v : Nat) : Nat := if v < unit then 1 else min 15 ((v / unit).log2 + 1)

def State.sampleQueue (s : State) (k : PortId) (c : Nat) : State :=
  let q := vget (s.port k).egress c []
  let o := histOff k c
  match q with
  | [] => (s.addReg o 1).addReg (o + 0x80) 1
  | h :: _ =>
    let depth := q.foldl (fun n x => n + s.wire k x.frame) 0
    let delay := 10 * (s.pins.clkT - h.at_)
    let db := if delay < 10 then Config.shortDelayBin % 16 else histBin 10 delay
    let s := (s.addReg (o + 8 * histBin 64 depth) 1).addReg (o + 0x80 + 8 * db) 1
    let s := if (s.reg (o + 0x100)).toNat < depth then s.setReg (o + 0x100) (BitVec.ofNat 64 depth) else s
    if (s.reg (o + 0x108)).toNat < delay then s.setReg (o + 0x108) (BitVec.ofNat 64 delay) else s

/-- Every bin of every queue zero. (DESIGN CHOICE: log 64) -/
def State.histClear (s : State) : State :=
  (List.finRange 8).foldl (fun s k => (List.range 8).foldl (fun s c =>
    (List.range 32).foldl (fun s b => s.setReg (histOff k c + 8 * b) 0) s) s) s

/-- DESIGN CHOICE: log 63; DESIGN CHOICE: log 64. -/
def State.queueSample (s : State) : State :=
  if s.regBit 0x32F000 0 = false then s
  else
    let s := if s.regBit 0x32F000 1 then s.histClear.setRegFld 0x32F000 1 1 0 else s
    (List.finRange 8).foldl (fun s k => (List.range 8).foldl (fun s c => s.sampleQueue k c) s) s

def execQueueSample (s : State) : Res := .next s.queueSample

/-- CLEAR written: every bin is cleared at the next sample. -/
def execClear (s : State) : Res := .next (s.ifReady (s.setRegFld 0x32F000 1 1 1))

/-! ## Fabric time (R299, R300) -/

/-- LOCKED after eight consecutive Sync messages inside ±50 ns; cleared after three consecutive ones outside ±200 ns. -/
def Fab.syncSeen (b : Fab) (off : Int) : Fab :=
  let inside := decide (-50 ≤ off) && decide (off ≤ 50)
  let outside := decide (off < -200) || decide (200 < off)
  let w := if inside then b.within + 1 else 0
  let o := if outside then b.outside + 1 else 0
  { b with within := w, outside := o, holdover := false,
           locked := if 8 ≤ w then true else if 3 ≤ o then false else b.locked }

/-- The servo on an offset from the master: it slews by the amount it settles on, or steps the time where the offset exceeds
1 ms. (DESIGN CHOICE: log 66) -/
def State.servo (s : State) (off slew : Int) : State :=
  let s := (s.setReg 0x30A008 (BitVec.ofInt 64 off)).modFab fun b => b.syncSeen off
  if 1000000 < off ∨ off < -1000000 then
    let s := { s with pins := { s.pins with fabNs := ((s.pins.fabNs : Int) - off).toNat } }
    let s := (s.modFab fun b => { b with slew := 0 }).raise Ev.timeStepped St.ok 18
    (List.finRange 8).foldl (fun s k => s.gateEffect k) s
  else s.modFab fun b => { b with slew := slew }

/-- Whether one clock is better than another: of two that name one grandmaster, the one fewer steps away; else the smaller
PRIORITY1, then the better quality, the smaller PRIORITY2, the smaller identity. (PRESUMED: log 102) -/
def clockBetter (a b : PtpClock) : Bool :=
  if a.identity = b.identity then decide (a.steps < b.steps)
  else if a.prio1 ≠ b.prio1 then decide (a.prio1 < b.prio1)
  else if a.quality ≠ b.quality then decide (a.quality < b.quality)
  else if a.prio2 ≠ b.prio2 then decide (a.prio2 < b.prio2)
  else decide (a.identity < b.identity)

/-- The node's own clock, with the priorities of PTP_CFG (Table 11.7). (PRESUMED: log 102) -/
def State.ownClock (s : State) : PtpClock :=
  { prio1 := s.regFld 0x30A010 15 8, quality := Config.ptpQuality, prio2 := s.regFld 0x30A010 23 16,
    identity := Config.ptpIdentity, steps := 0 }

/-- The clock that the node's ports announce: a boundary clock's grandmaster, one step further, or its own.
(PRESUMED: log 102) -/
def State.ptpClock (s : State) : PtpClock :=
  match s.fab.master with
  | some (_, c) => { c with steps := c.steps + 1 }
  | none => s.ownClock

/-- Announce interval of the default profiles in nanoseconds: a clock counts once it has been heard twice within four of
them. (PRESUMED: log 102) -/
def announceNs : Nat := 2000000000

/-- An Announce: the best clock heard twice, where it is better than the node's own, is the grandmaster (R299).
(PRESUMED: log 102) -/
def State.announced (s : State) (k : PortId) (c : PtpClock) : State :=
  let before := s.fab.foreign.find? fun x => x.1 = k ∧ x.2.1 = c.identity
  let s := s.modFab fun b => { b with
    foreign := (b.foreign.filter fun x => !(decide (x.1 = k) && decide (x.2.1 = c.identity))) ++ [(k, c.identity, s.now)] }
  let taken := s.modFab fun b => { b with master := some (k, c) }
  if before.all fun x => x.2.2 + 4 * announceNs < s.now then s
  else
  match s.fab.master with
  | none => if clockBetter c s.ownClock then taken else s
  | some (k', d) =>
    if k = k' then (if clockBetter c s.ownClock then taken else s.modFab fun b => { b with master := none })
    else if clockBetter c d ∧ clockBetter c s.ownClock then taken else s

/-- A fixed timestamp delay of a port in nanoseconds (Table 11.7). -/
def State.ingressNs (s : State) (k : PortId) : Int := (s.regFld (portBase k + 0x48) 31 0 / 1000 : Nat)
def State.egressNs (s : State) (k : PortId) : Int := (s.regFld (portBase k + 0x48) 63 32 / 1000 : Nat)

/-- The timekeeper sends a PTP message by a port, in class 0, with the correction in CORR (R299). (PRESUMED: log 102) -/
def State.sendPtp (s : State) (k : PortId) (kind : PtpKind) (carries : Int) (correction : Int := 0)
    (twoStep : Bool := false) : State :=
  let m : PtpMsg := { kind := kind, domain := BitVec.ofNat 8 (s.regFld 0x30A010 7 0), twoStep := twoStep, carries := carries,
                      correction := correction, clock := s.ptpClock }
  s.enqueue k (NewFrame.build
    { tag := mkTag 0 0 Ct.plain 0 0 0 0 false false, type := Ft.ptp, cls := 0, dst := (s.port k).peer, src := s.fab.node,
      unit := unitTime, len := Config.plainBytes 5 % 4097 } none (.ptp m))

/-- A Sync of time `t1` that arrived, corrected, at `t2`: the offset goes to the servo, and the path delay is measured anew
(R299, R300). (PRESUMED: log 102) -/
def State.synced (s : State) (k : PortId) (t1 t2 slew : Int) : State :=
  let s := s.servo (t2 - t1 - (s.port k).pathDelay) slew
  let s := s.setPort k { s.port k with syncAt := none, lastSync := some (t1, t2), askedAt := some (s.now + s.egressNs k) }
  s.sendPtp k (if Config.ptpPeerToPeer then .pdelayReq else .delayReq) 0

/-- A PTP message at a port that takes part in PTP; one of another domain, and a Sync of another port than the grandmaster's,
is not used (R299). `stamp` is the hardware's timestamp of its arrival. (PRESUMED: log 102) -/
def State.ptpMessage (s : State) (k : PortId) (m : PtpMsg) (stamp slew : Int) : State :=
  let x := s.port k
  let t := stamp - s.ingressNs k
  let slave := (s.fab.master.map (·.1)) = some k
  if x.up = false ∨ s.regBit (portBase k) 3 = false ∨ m.domain.toNat ≠ s.regFld 0x30A010 7 0 then s
  else
    match m.kind with
    | .announce => s.announced k m.clock
    | .sync =>
      if ¬slave then s
      else if m.twoStep then s.setPort k { x with syncAt := some (t - m.correction) }
      else s.synced k m.carries (t - m.correction) slew
    | .followUp =>
      match x.syncAt with
      | some t2 => if slave then s.synced k m.carries (t2 - m.correction) slew else s
      | none => s
    | .delayReq => if slave then s else s.sendPtp k .delayResp t m.correction
    | .delayResp =>
      match x.askedAt, x.lastSync with
      | some t3, some (t1, t2) =>
        s.setPort k { x with askedAt := none, pathDelay := (t2 - t1 + (m.carries - m.correction - t3)) / 2 }
      | _, _ => s
    | .pdelayReq => s.sendPtp k .pdelayResp 0 (s.now + s.egressNs k - t + m.correction)
    | .pdelayResp =>
      match x.askedAt with
      | some t1 => s.setPort k { x with askedAt := none, pathDelay := (t - t1 - m.carries - m.correction) / 2 }
      | none => s

def execPtpMessage (k : PortId) (m : PtpMsg) (stampNs slewNs : Int) (s : State) : Res :=
  .next (s.ptpMessage k m stampNs slewNs)

/-- What a port sends that is not the slave of a clock: a Sync, in two steps with its Follow_Up or in one, and an Announce
where one is due (R299). (PRESUMED: log 102) -/
def State.ptpMaster (s : State) (k : PortId) (announce : Bool) : State :=
  if (s.port k).up = false ∨ s.regBit (portBase k) 3 = false ∨ (s.fab.master.map (·.1)) = some k then s
  else
    let s := if announce then s.sendPtp k .announce 0 else s
    let t : Int := s.now + s.egressNs k
    if Config.ptpTwoStep then (s.sendPtp k .sync 0 0 true).sendPtp k .followUp t else s.sendPtp k .sync t

/-- One idle CLK_T cycle (assumption log 5); every second of CLK_T the ports send their Sync, every other second their
Announce, the default profiles' intervals. (PRESUMED: log 102) -/
def State.idle (s : State) : State :=
  let s := s.idleTick
  if s.pins.clkT % 100000000 ≠ 0 then s
  else (List.finRange 8).foldl (fun s k => s.ptpMaster k (decide (s.pins.clkT % 200000000 = 0))) s

/-- Every master is lost: fabric time runs on from the root PLL in HOLDOVER. (DESIGN CHOICE: log 66) -/
def execPtpMasterLoss (s : State) : Res :=
  .next (s.modFab fun b => { b with master := none, foreign := [], holdover := true, slew := 0 })

end Sys2Proof.Machine
end

