-- ==== Sys2Proof/Machine/Switch.lean ====
section
/-! DEFINITION. Frames that reach the hub: what each kind does at the node it is addressed to (Table 11.3), and the events
of the sender's replay buffers (R285, R286, R291 to R295). -/

namespace Sys2Proof.Machine

/-! ## CONTROL messages -/

/-- The request a CONTROL message to a partition is about. (DESIGN CHOICE: log 76) -/
def ctlReq (c : Ctl) : Option ReqId :=
  match c with
  | .accept id _ | .refuse id _ _ | .commitAck id | .logAck id _ | .logRefuse id _ | .evict id => some id
  | .assign m _ _ => some (mReqId m)
  | .abort t => some (tagReqId t)
  | .ownershipAck id => some id
  | _ => none

/-- A new target has been assigned (R13, R28): the next send goes to it, and re-stamps the epoch. For a PARK it is a cache
set, which the owner writes into the manifest. (DESIGN CHOICE: log 54) -/
def State.rxAssign (s : State) (m : Manifest) (n : NodeId) (t : PartId) : State :=
  match s.findReq (mReqId m) with
  | none => s
  | some (p, k) =>
    if s.owns p k = false then s
    else
      let x := { s.slot p k with stale := true }
      let own := s.manifest p k
      if mPhase own ≠ Ph.park then s.setSlot p k { x with target := some (n, t.val) }
      else if mCrcOk own = false then s.crcFailed p k
      else (s.setSlot p k x).setManifest p k (mSeal { own with w4 := setFld own.w4 51 40 (mCacheSet m) })

/-- What a CONTROL message does. An answer to a cancel and the notes that only start a time anew leave no state. -/
def State.rxCtl (s : State) (src : NodeId) (c : Ctl) : State :=
  match c with
  | .bookPart b => s.bookInstall src b
  | .bookAck e st _ => s.bookAcked src e st
  | .accept id l => s.caravanAccepted src id l
  | .refuse id st e => s.caravanRefused src id st e
  | .commitAck id => s.caravanCommitted src id
  | .ownership id ph n p m => s.rxOwnership id ph n p m
  | .ownershipAck id => s.rxOwnershipAck id
  | .finalManifest m => s.rxFinal m
  | .cancel id who fwd => s.rxCancel src id who fwd
  | .cancelAnswer .. => s
  | .abandon u q => s.rxAbandon src u q.toNat
  | .abort t => s.rxAbort src t
  | .logAppend id i l => s.rxAppend src id i l
  | .logAck id n => s.rxLogAck id n
  | .logRefuse id n => s.rxLogRefuse id n
  | .release c => s.parkFree src c
  | .evict id => s.rxEvict id
  | .assign m n p => s.rxAssign m n p
  | .staleReport id n ph e st => s.staleReported src n id ph e st
  | .stateLost id k => s.noteHost (.stateLost id k)
  | .admission a => if s.isManager then s.takeAdmission a else s
  | .admitted id => s.noteHost (.admitted id)
  | .lostRequest id why m => s.rxLost src id why m
  | .mirror m => s.rxMirror m
  | .mirrorAck => s.mirrorAcked
  | .copyAck => s.stbyCopied src
  | .heartbeat => s
  | .liveness => s
  | .failureNote code => if evSeverity code = 3 ∧ s.serves src then s.nodeFailed src else s
  | .joinAnswer st b => s.rxJoinAnswer st b

/-! ## CONTROL for a job that stands switched out (R348) -/

/-- The hub holds a CONTROL frame for a saved job, up to 64 of them; beyond those it refuses with PART_OFFLINE.
(DESIGN CHOICE: log 76) -/
def State.holdCtl (s : State) (p : PartId) (j : JobId) (src : NodeId) (c : Ctl) : State :=
  if (s.heldCtl.filter fun h => h.job = j).length < 64 then
    { s with heldCtl := s.heldCtl ++ [{ part := p, job := j, src := src, ctl := c }] }
  else
    let id := (ctlReq c).getD 0
    s.sendCtl src (.refuse id St.partOffline s.epoch) (ctlTagOf id)

/-- The switched-out partition that holds a request, or receives its caravan. -/
def State.savedJob (s : State) (id : ReqId) : Option Saved :=
  s.switchedOut.find? fun x => (x.slotOf id).isSome || x.saved.incoming.any fun i => decide (mReqId i.mft = id)

/-- A CONTROL frame of this node: held for a saved job, else taken. -/
def State.takeCtl (s : State) (src : NodeId) (c : Ctl) : State :=
  match (ctlReq c).bind s.savedJob with
  | some x => s.holdCtl x.part x.job src c
  | none => s.rxCtl src c

/-- CONTROL for a job that stands switched out from a partition; for any other it is taken at once. -/
def execControlForSwitchedJob (p : PartId) (j : JobId) (src : NodeId) (c : Ctl) (s : State) : Res :=
  .next (s.ifTakes (if s.switchedOut.any fun x => decide (x.part = p) && decide (x.job = j) then
      (match c with
        | .cancel id who fwd => s.rxCancel src id who fwd
        | _ => s.holdCtl p j src c)
    else s.rxCtl src c))

/-! ## Frames at the hub -/

/-- A sequenced frame that is not a memory write: judged by its window, acted on once, acknowledged. A duplicate WRITE or
CONTROL frame is acknowledged again, a duplicate JOIN is not (R292). (DEDUCED: log 61) -/
def State.rxOnce (s : State) (f : Frame) (act : State → State) : State :=
  match s.rxJudge f with
  | (.drop, s) => s
  | (.dup, s) => if hType f = Ft.join then s else s.ackFrame f
  | (.fresh, s) => (act (s.rxMark (hSrc f) (hUnit f) (hSeq f) none)).ackFrame f

/-- A WRITE: a placed one belongs to a caravan (R46), any other to memory. (DEDUCED: log 61) -/
def State.rxAnyWrite (s : State) (f : Frame) : State :=
  if hPlaced f = false then s.rxWrite f
  else if s.accepts = false ∨ 9 ≤ tagContent f.hdr.tag then s
  else if tagManifest f.hdr.tag ∧ tagIndex f.hdr.tag = 0 then s.rxOnce f fun s => s.rxFrame0 f
  else
    match s.rxJudge f with
    | (.drop, s) => s
    | (.dup, s) => s.ackFrame f
    | (.fresh, s) => s.takeCaravan f

def execWrite (f : Frame) (s : State) : Res := .next (s.rxAnyWrite f)

/-- A READ_RESP: a caravan receiver's or a fetch's answer goes to it, any other to its instruction or combiner. -/
def State.rxAnyResp (s : State) (f : Frame) : State :=
  let x := if hDunit f = unitComb then none else
    s.fab.sent.find? fun x => decide (x.unit = hDunit f) && decide (x.seq = hRseq f) && decide (hType x.frame = 1) &&
      decide (hAddr x.frame = hAddr f)
  match x.bind fun x => x.owner.map fun o => (x, o) with
  | some (x, (p, q, k)) =>
    if q < 9 ∨ hRstatus f = 3 ∨ s.fab.joinRefused ∨ 9 ≤ tagContent f.hdr.tag then
      let r := s.rxResp f
      let s' := r.1.allLost r.2
      -- a shared page whose read is refused or poisoned is unreadable (R395)
      if (hRstatus f = 1 ∨ hRstatus f = 2) ∧ !s.fab.joinRefused then s'.sharedLost fun a n => readTouches x.frame a n else s'
    else
      let s := s.chargeFrame f.hdr.tag (hLen f)
      let s := s.modFab fun b => { b with sent := b.sent.erase x }
      if q = admitQueue then s.admitAnswer p k x.place (hRstatus f) (bodyBytes f.body)
      else s.fetchAnswer p k x.dst x.place (hRstatus f) (bodyBytes f.body)
  | none =>
    let r := s.rxResp f
    r.1.allLost r.2

def execReadResp (f : Frame) (s : State) : Res := .next (s.ifHears (s.rxAnyResp f).drainWaits)

/-- Transfers go on as acknowledgements free replay-buffer room; so do reads that found none. -/
def State.pumpAll (s : State) : State :=
  let s := (List.finRange 16).foldl (fun s p =>
    let s := s.pumpPart p
    let s := ((s.part p).incoming.filter fun i => !i.accepted && i.owed == 0).foldl (fun s i => s.rxContinue p i) s
    ((s.part p).fetches.filter fun f => f.owed = 0).foldl (fun s f => s.fetchGo p f) s) s
  s.pumpSends.drainWaits

def State.rxAckFrame (s : State) (src : NodeId) (l : List Word) : State := (s.rxAcks src l).pumpAll

def execAck (src : NodeId) (l : List Word) (s : State) : Res := .next (s.ifHears (s.rxAckFrame src l))

def State.rxNoticeAll (s : State) (unit seq path : Nat) (dst : NodeId) : State :=
  let r := s.rxNotice unit seq path dst
  r.1.allLost r.2

def execPathNotice (unit : Fin 32) (seq : BitVec 32) (path : Fin 8) (dst : NodeId) (s : State) : Res :=
  .next (s.ifHears (s.rxNoticeAll unit.val seq.toNat path.val dst))

/-- A frame addressed to this node. One with a reserved content code is discarded (R61). PTP messages are taken at their
port (PTP_MESSAGE). A node whose bring-up has met a fatal condition takes none (R369); one whose chip has failed discards
WRITE, READ_REQ, CONTROL and JOIN frames (R404); one refused at join takes a new answer to its JOIN only.
(DEDUCED: log 26; DESIGN CHOICE: log 38) -/
def State.deliver (s : State) (f : Frame) : State :=
  if 9 ≤ tagContent f.hdr.tag ∨ s.boot.fatal then s
  else
  match hType f with
  | 0 => s.rxAnyWrite f
  | 1 => s.rxRead f
  | 2 => (s.rxAnyResp f).drainWaits
  | 3 => match f.body with
    | .acks l => s.rxAckFrame (hSrc f) l
    | _ => s
  | 4 => match f.body with
    | .ctl c => if s.accepts then s.rxOnce f fun s => s.takeCtl (hSrc f) c else s
    | _ => s
  | 6 => if s.regBit 0x708020 1 then s else match f.body with
    | .join caps => s.rxOnce f fun s => s.rxJoin (hSrc f) caps
    | .ctl (.joinAnswer st b) => s.rxOnce f fun s => s.rxJoinAnswer st b
    | _ => s
  | 7 => match f.body with
    | .notice _ u q path dst => s.rxNoticeAll u q.toNat path.val dst
    | _ => s
  | _ => s

def execSwitchForward (k : PortId) (s : State) : Res := .next (s.switchHead State.deliver k)

/-! ## Replay (R286, R293, R295) -/

/-- REPLAY_US has passed without an acknowledgement. -/
def State.replayDue (s : State) (unit : Nat) (dst : NodeId) (seq : Nat) : State :=
  match s.findSent unit dst seq with
  | none => s
  | some x =>
    let r := s.resend x
    (r.1.allLost r.2).drainWaits

def execReplayExpiry (unit : Fin 32) (dst : NodeId) (seq : BitVec 32) (s : State) : Res :=
  .next (s.replayDue unit.val dst seq.toNat)

def execAbandonNotice (src : NodeId) (unit : Fin 32) (seq : BitVec 32) (s : State) : Res :=
  .next (s.ifTakes (s.rxAbandon src unit.val seq.toNat))

def State.fenceExpired (s : State) (p : PartId) : State :=
  let r := s.fenceTimeout p
  (r.1.allLost r.2).drainWaits

def execFenceTimeoutExpiry (p : PartId) (s : State) : Res := .next (s.fenceExpired p)

end Sys2Proof.Machine
end

