-- ==== Sys2Proof/Machine/Retire.lean ====
section
/-! DEFINITION. The ends of engine instructions (R80, R86, R91, R121, R134): start at the queue head, retire, ABORT, the
arrival of remote posts. -/

namespace Sys2Proof.Machine

/-! ## Step boundaries -/

/-- A step boundary of a convoy (R181, R183, R200, R30): STEPS rises, the count of prompt rows starts anew, and every
member is examined again under the current route book. -/
def State.stepBoundary (s : State) (p : PartId) (e : QEntry) : State :=
  match e.convoy with
  | none => s
  | some n =>
    if s.cvDefined p n = false then s
    else
      let a := s.cvBase p + 64 * n + 4
      let s := s.hsWrite p a (leBytes 4 (ofLe (s.hsRead p a 4) + 1))
      let s := s.modPart p fun x => { x with mixRows := 0 }
      (s.cvMembers p n).foldl (fun s m => s.reexamine p m.2) s

/-- The step boundaries of the instructions that left queue `q` since `s0`: an SMP_STEP that faulted or was skipped or
stopped retires too (Table 3.6, R96, R121). -/
def State.boundaries (s0 s : State) (p : PartId) (q : Nat) : State :=
  let l := (s0.drv p).queue q
  ((l.take (l.length - ((s.drv p).queue q).length)).filter fun e => iOp e.insn = 0x50).foldl
    (fun s e => s.stepBoundary p e) s

/-! ## Start -/

/-- The head of a queue starts, and takes what its opcode takes at its start: ATT_GEOM, members, lengths, present cores
(R156, R164 to R167), and, of a SCATTER_CHUNK, its part of the mix budget (R200). -/
def State.startQueue (s : State) (p : PartId) (q : Nat) : State :=
  ((((s.boundaries (s.startHead p q) p q).attCapture p q).nbCapture p q).nbAttCapture p q).scatterCapture p q

def execQueueHeadStart (p : PartId) (q : QueueId) (s : State) : Res := .next (s.startQueue p q.val)

/-! ## Retire -/

/-- CLK_A with an MX or a DMA instruction running (Table 18.7), or an NB instruction (Table 10.6). -/
def State.busyClk (s : State) (p : PartId) (q n : Nat) : State :=
  if q = 0 then s.addReg (ptBase p + 0x2010) n
  else if q = 4 then s.addReg (ptBase p + 0x3008) n
  else if q = 6 ∨ q = 7 then
    match s.driven p.val (q - 6) with
    | some m => s.addReg (muBase m + 0x68) n
    | none => s
  else s

/-- Granules of hold SRAM that the ports of a queue's engine take in a CLK_A (Table 5.2); the engines the table does not name
use the DMA engine's port. (DESIGN CHOICE: log 80) -/
def portGranules (q : Nat) : Nat := [32, 64, 12, 6].getD q 8

/-- An instruction's time of `c` CLK_A ends: it is charged, and counted as busy time of its engine, with the waits and the
corrected errors of its hold-SRAM accesses (R136, R137, R336, R338). (DESIGN CHOICE: log 17; DESIGN CHOICE: log 80) -/
def State.endCharge (s : State) (p : PartId) (q : Nat) (e : QEntry) (c : Nat) : State :=
  ((s.chargeEngine p q e c).busyClk p q c).hsramCounts p (portGranules q * c)

/-- Whether an instruction still waits for one of its accesses, an NB instruction for the retrain of its MU (R230, R240,
R261). -/
def State.accessHeld (s : State) (p : PartId) (q : Nat) (e : QEntry) : Bool :=
  s.accessOpen (p.val, e.uid) ||
    match s.driven p.val (q - 6) with
    | some m => decide (6 ≤ q ∧ q ≤ 7) && decide (iOp e.insn / 16 = 8) && (s.mu m).retraining
    | none => false

/-- The head of a queue retires once its effect is done and its accesses are: its register is written, its completion records and its post
are made, its time is charged (R80, R83, R86, R220, R336). `extra` is the time beyond its cost: waits, far-tier and
fabric latency (R122). (DESIGN CHOICE: log 17) (DESIGN CHOICE: log 93) -/
def State.retire (s : State) (p : PartId) (q extra : Nat) : State :=
  match s.head p q with
  | none => s
  | some e =>
    let d := (s.part p).drv.dstate
    if e.phase ≠ .done ∨ d = .switchedOut ∨ s.accessHeld p q e then s
    else
      let s := match e.wb with
        | some k => if e.wbOk then s.modDrv p fun d => d.writeKey k e.wbVal else s
        | none => s
      let s := if iOp e.insn = 0x51 ∧ e.wbOk then s.installGrammar p e else s
      let s := e.bales.foldl (fun s b => s.baleRecord p q e b) s
      let s := s.endCharge p q e (e.cost + extra)
      (s.boundaries (s.dropHead p q e e.faultPost 4) p q).yieldBetween p q

def execInstructionRetire (p : PartId) (q : QueueId) (extraClk : Nat) (s : State) : Res :=
  .next (s.retire p q.val extraClk)

/-- A remote post reaches its target, unless the target no longer serves the job (R91). -/
def execRemotePostArrival (p : PartId) (job : JobId) (g : BitVec 8) (s : State) : Res :=
  .next (
    let x : PartId × JobId × Nat := (p, job, g.toNat)
    if s.remotePosts.contains x then
      let s := { s with remotePosts := s.remotePosts.erase x }
      if (s.part p).st = .serving ∧ (s.part p).curJob = some job then (s.modDrv p fun d => d.post g.toNat false).perf p 26
      else s
    else s)

/-! ## Stopping an instruction (R121) -/

/-- Opcodes whose DA is a destination. (DEDUCED: log 19) -/
def writesDa (op : Nat) : Bool :=
  op = 0x10 || op = 0x11 || op = 0x12 || op = 0x20 || op = 0x21 || decide (0x30 ≤ op ∧ op ≤ 0x41) || op = 0x71 ||
    op = 0x80 || op = 0x82 || op = 0x83

/-- What stopping a started instruction before its commit point leaves: answers still to come go unheeded, a fence is
waited for no more, a transfer is aborted, the hold-SRAM destination is undefined, an NBU's result buffer is empty.
(DEDUCED: log 19; DEDUCED: log 72) -/
def State.stopDest (s : State) (p : PartId) (q : Nat) (e : QEntry) : State :=
  let s := s.disown (p, q, e.uid)
  let s := s.modFab fun b => { b with fences := b.fences.filter fun f => !(decide (f.part = p) && decide (f.uid = e.uid)) }
  let s := if iOp e.insn = 0x73 then s.stopTransfer p e.tag St.cancelled else s
  let s := if writesDa (iOp e.insn) then s.undefine p e.da else s
  let s := if iOp e.insn = 0x14 ∧ iMode e.insn 1 0 = 0 ∧ scalarOk 0 e.sb.toNat then s.undefineRun p e.sb.toNat 8 else s
  if iOp e.insn = 0x80 ∨ iOp e.insn = 0x83 then
    match s.driven p.val (q - 6) with
    | some m => s.setMu m { s.mu m with resultBuf := [] }
    | none => s
  else s

/-- An instruction stopped before its commit point retires at once: its bales are counted and recorded, its wait for the
fabric and its time so far, which is free, are charged (R121, R219, R220, R291, R336). (DESIGN CHOICE: log 17)
(DEDUCED: log 19; DEDUCED: log 72) -/
def State.stopEffect (s : State) (p : PartId) (q : Nat) (e : QEntry) : State :=
  let s := ((s.stopDest p q e).countSeen p e).replayCount e
  let s := e.bales.foldl (fun s b => s.baleRecord p q e b) s
  let n := s.freeCount
  ({ s with freeCount := n + 1 }).endCharge p q e (if e.phase = QPhase.done then e.cost else Config.stoppedClk n)

/-- An instruction in progress: started, not yet retired. -/
def QEntry.started (e : QEntry) : Bool := e.phase = .running || e.phase = .waiting || e.phase = .done

/-- An instruction in progress that can still be stopped: not past its commit point, and not already at its end through a
fault. (DEDUCED: log 19) -/
def QEntry.stoppable (e : QEntry) : Bool := e.started && !e.committed && !(decide (e.phase = .done) && !e.wbOk)

/-! ## ABORT (Table 4.13, R134) -/

/-- The one queue that QMASK names. -/
def abortQueue (w : InsnWord) : Nat := ((List.range 9).find? fun q => iQmask w = 2 ^ q).getD 0

/-- Skip and stop every matching instruction of a queue; whether anything was. -/
def State.abortQueue (s : State) (p : PartId) (q tag : Nat) : State × Bool :=
  let l := (s.drv p).queue q
  let hit := l.any fun e => decide (e.tag = tag) && (decide (e.phase = .queued) || e.stoppable)
  let s := s.modDrv p fun d => d.setQueue q (l.map fun e =>
    if e.tag = tag ∧ e.phase = .queued then { e with phase := .skipped } else e)
  match s.head p q with
  | none => (s, hit)
  | some e =>
    if e.tag ≠ tag then (s, hit)
    else if e.phase = .skipped then (s.boundaries (s.dropHead p q e true 4) p q, hit)
    else if e.stoppable then
      let s := s.stopEffect p q e
      ((s.boundaries (s.dropHead p q e true 4) p q).yieldBetween p q, hit)
    else (s, hit)

def execAbort (p : PartId) (s : State) : Res :=
  .next (match s.begin p 0xA4 with
    | (s, none) => s
    | (s, some c) =>
      let r := s.abortQueue p (abortQueue c.w) (iSigTag c.w)
      let st := if r.2 then St.ok else St.abortLate
      let s := (r.1.modDrv p fun d => d.setSreg c.disp (iReg c.w) (st.setWidth 64)).perf p 28
      let s := if r.2 then s else s.perf p 29
      s.issued c c.next 1)

end Sys2Proof.Machine
end

