-- ==== Sys2Proof/Machine/Image.lean ====
section
/-! DEFINITION. Program images (R103 to R106, R361, R362, R382, R383): header, checks, staging, installation. -/

namespace Sys2Proof.Machine

def headerBytes : Nat := 256
def sigBytes : Nat := 4627

/-- ROLE of an image header (Table 3.10): NONE gives the partition no role. -/
def roleOfCode (n : Nat) : Role := if n = 0 then .prompt else if n = 1 then .generate else if n = 2 then .cache else .unset

/-- The rules of R103 on a 256-byte header, and R105's order of the two revisions. (DEDUCED: log 74) -/
def headerOk (h : Bytes) : Bool :=
  let code := leAt h 0x0C 4
  let data := leAt h 0x10 4
  let cnt := leAt h 0x19 1
  let entry := fun i => leAt h (0x40 + 4 * i) 4
  decide (h.length = headerBytes) && decide (leAt h 0 4 = 0x49584D53) && decide (leAt h 4 2 = 1) &&
    decide (code % 16 = 0) && decide (code ≤ 262144) && decide (data ≤ 4194304) &&
    decide (leAt h 0x14 4 + data ≤ hsramBytes) && decide (1 ≤ cnt) && decide (cnt ≤ 32) &&
    ((List.range 32).all fun i => if i < cnt then decide (entry i < code / 16) else decide (entry i = 0)) &&
    decide (leAt h 0x18 1 ≤ 3) && decide (leAt h 0xC8 4 = headerBytes + code + data) &&
    decide (leAt h 0xCC 4 = sigBytes) && decide (leAt h 8 4 = headerBytes + code + data + sigBytes) &&
    decide (leAt h 6 1 ≤ leAt h 7 1)

/-- The public key of KEY_INDEX; none where the index is refused (Table 15.10). -/
def State.imageKey (s : State) (k : Nat) : Option Bytes :=
  let c := s.boot.cfg
  if k = 0 then (if c.requireCustomer then none else some Config.rootKey)
  else if k ≤ 8 then tabFind c.keys k
  else none

/-- 16-byte instruction words of a code segment (R108). -/
def codeWords (b : Bytes) : List InsnWord :=
  (List.range (b.length / 16)).map fun i => BitVec.ofNat 128 (leAt b (16 * i) 16)

/-- An image from its header, its bytes to SIG_OFFSET and where it lies. -/
def imageOf (h body : Bytes) (addr : Nat) (boot : Bool) : Image :=
  let code := leAt h 0x0C 4
  { id := BitVec.ofNat 64 (leAt h 0x20 8), role := roleOfCode (leAt h 0x18 1),
    entries := (List.range (leAt h 0x19 1)).map fun i => BitVec.ofNat 14 (leAt h (0x40 + 4 * i) 4),
    isaMax := leAt h 7 1, autostart := decide (leAt h 0x1C 1 % 2 = 1),
    code := codeWords ((body.drop headerBytes).take code),
    data := (body.drop (headerBytes + code)).take (leAt h 0x10 4), dataLoad := leAt h 0x14 4, key := leAt h 0x1A 2,
    digest := sha3_512 body, signed := body, addr := addr, boot := boot }

/-- The checks of R104 after the header rules, in order: version, capabilities, key, signature. (DEDUCED: log 74) -/
def State.imageChecks (s : State) (h body sig : Bytes) : Option Status :=
  if 0x12 < leAt h 6 1 then some St.imgVersion
  else if BitVec.ofNat 64 (leAt h 0xC0 8) &&& ~~~s.capWord ≠ 0 then some St.imgCaps
  else
    match s.imageKey (leAt h 0x1A 2) with
    | none => some St.imgKey
    | some k => if MlDsa.verify k (sha3_512 body) sig [] then none else some St.imgSignature

/-- Check an image through a reader of its bytes: offset and length to bytes, or the status of a failed read. -/
def State.checkImage (s : State) (addr : Nat) (boot : Bool) (rd : Nat → Nat → Except Status Bytes) :
    Except Status Image :=
  match rd 0 headerBytes with
  | .error st => .error st
  | .ok h =>
    if headerOk h = false then .error St.imgMalformed
    else
      let n := leAt h 0xC8 4
      match rd 0 n, rd n sigBytes with
      | .ok body, .ok sig =>
        match s.imageChecks h body sig with
        | some st => .error st
        | none => .ok (imageOf h body addr boot)
      | .error st, _ => .error st
      | _, .error st => .error st

/-- Reading an image in the state range, without the job check (R361). (DEDUCED: log 74) -/
def State.rdImage (s : State) (a o n : Nat) : Except Status Bytes :=
  match (s.stRead none (a + o) n).1 with
  | .ok b => .ok b
  | .error x => .error x.status

/-- Reading an image in flash. -/
def State.rdFlash (s : State) (a o n : Nat) : Except Status Bytes := .ok (memRead s.boot.flash (a + o) n)

/-! ## Staging -/

def imgStat : Nat := 0x500210

/-- Stage an image for every partition of a mask; it replaces one that is staged there (R106). -/
def State.stage (s : State) (img : Image) (mask : Nat) : State :=
  (List.finRange 16).foldl (fun s p =>
    if bitOf (BitVec.ofNat 16 mask) p.val then s.modPart p fun x => { x with staged := some img } else s) s

/-! ## Installation (R106, R362) -/

/-- Whether the moment of R106 has come. -/
def State.installDue (s : State) (p : PartId) : Bool :=
  let x := s.part p
  decide (x.st = .serving) && (x.drv.dstate = .reset || x.drv.dstate = .halted || x.drv.dstate = .faulted) &&
    decide (s.liveSlots p = [])

/-- Whether the install waits: the new role holds the partition's MUs in memory mode, and an instruction of a queue that
drives one in processor mode has still to retire (R388, R255). (DEDUCED: log 71) -/
def State.installWaits (s : State) (p : PartId) (img : Image) : Bool :=
  !pcfgScope (s.reg (pcfgOff p)) && decide (img.role ≠ .generate) && [0, 1].any fun k =>
    match s.driven p.val k with
    | some m => ((s.mu m).proc || (s.mu m).switching) && decide ((s.drv p).queue (6 + k) ≠ [])
    | none => false

/-- Install an image: code, data segment, role with the MU modes that follow from it (R388), registers zeroed (R78);
HALTED, or RUNNING at entry 0. (DEDUCED: log 74) -/
def State.installImage (s : State) (p : PartId) (img : Image) : State :=
  let s := (s.modPart p fun x => { x with role := img.role, staged := none }).settleModes p
  let s := s.modDrv p fun d =>
    { d with
      istore := img.code, image := some img, sregs := Vector.replicate 64 0, bank := Vector.replicate 8 0,
      dregs := Vector.replicate 16 0, preds := 0, dpreds := 0, stalled := false,
      dstate := if img.autostart then .running else .halted,
      mainPc := if img.autostart then img.entries.getD 0 0 else d.mainPc,
      stack := if img.autostart then d.stack.filter (·.1) else d.stack }
  let s := s.hsWrite p img.dataLoad img.data
  (s.setRegFld imgStat 47 32 (s.regFld imgStat 47 32 ||| 2 ^ p.val)).setRegFld imgStat 63 48 St.ok.toNat

/-- Install the staged image when the moment has come. Its bytes are digested again: an image that has changed is not
installed. (DEDUCED: log 74) -/
def State.imageInstall (s : State) (p : PartId) : State :=
  match (s.part p).staged with
  | none => s
  | some img =>
    if s.installDue p = false ∨ s.installWaits p img then s
    else
      let n := img.signed.length
      let b := if img.boot then s.rdFlash img.addr 0 n else s.rdImage img.addr 0 n
      let same := match b with | .ok b => decide (sha3_512 b = img.digest) | .error _ => false
      if same then s.installImage p img
      else
        let s := s.modPart p fun x => { x with staged := none }
        (s.setRegFld imgStat 63 48 St.imgAltered.toNat).raise Ev.imageAltered St.imgAltered 20 p.val

def execImageInstall (p : PartId) (s : State) : Res := .next (s.imageInstall p)

/-! ## Loading (R361) -/

/-- IMG_CTL written with GO: the image is read and its checks run; ignored while a load runs. GO reads as 1 until they
end. (DESIGN CHOICE: log 98) -/
def State.imgGo (s : State) (v : Word) : State :=
  if s.regBit imgStat 0 then s
  else
    let s := s.setRegFld 0x500208 15 0 (fld v 15 0)
    if bitOf v 16 = false then s
    else
      let a := s.regFld 0x500200 41 0
      let r := s.checkImage a false (s.rdImage a)
      let s := (s.setRegFld imgStat 0 0 1).setRegFld 0x500208 16 16 1
      s.modHost fun h =>
        match r with
        | .ok img => { h with loading := some img, loadStatus := St.ok }
        | .error st => { h with loading := none, loadStatus := st }

def execGo (v : Word) (s : State) : Res := .next (s.ifReady (s.imgGo v))

/-- The checks end: the image is staged for every partition of PMASK, or refused. (DEDUCED: log 74)
(DESIGN CHOICE: log 98) -/
def State.imageChecked (s : State) : State :=
  if s.regBit imgStat 0 = false then s
  else
    let st := s.host.loadStatus
    let s' := ((s.setRegFld imgStat 0 0 0).setRegFld 0x500208 16 16 0).setRegFld imgStat 63 48 st.toNat
    match s.host.loading with
    | some img =>
      ((s'.modHost fun h => { h with loading := none }).setRegFld imgStat 47 32 0).stage img (s.regFld 0x500208 15 0)
    | none => s'.raise Ev.imageRefused st 20

def execImageCheckDone (s : State) : Res := .next s.imageChecked

end Sys2Proof.Machine
end

