-- ==== Sys2Proof/Machine/Partition.lean ====
section
/-! DEFINITION. Partitions (chapter 13): the commands of PT_CTL, pre-emption, tests and numbering, faults of a partition
and of the chip, cores failing in service. -/

namespace Sys2Proof.Machine

/-! ## Numbering (R140, R341, R345, R372) -/

/-- Failing physical cores of a cluster, of nine. -/
def failedCores (m : BitVec 9) : Nat := ((List.range 9).filter fun i => !bitOf m i).length

/-- ABSENT of a cluster: one logical number, the highest first, for each failed core beyond the first. -/
def absentMap (m : BitVec 9) : BitVec 8 :=
  let a := min 8 (failedCores m - 1)
  BitVec.ofNat 8 (256 - 2 ^ (8 - a))

/-- A matrix unit is present with at most one failing row. -/
def unitPresent (bad : Nat) : Bool := decide (bad ≤ 1)

/-- Apply the numbering that a test gives to a partition. -/
def Part.numbered (x : Part) (t : PartTest) : Part :=
  let cores := (List.range 16).map fun k => t.cores.getD k 0x1FF
  let units := ((List.range 4).map fun u => t.badRows.getD u 0).filter unitPresent
  { x with
    absent := Vector.ofFn fun k : Fin 16 => absentMap (cores.getD k.val 0x1FF)
    spareUsed := BitVec.ofNat 16 ((cores.zipIdx.map fun c => if 1 ≤ failedCores c.1 then 2 ^ c.2 else 0).sum)
    mxAbsent := BitVec.ofNat 4 (16 - 2 ^ units.length)
    mxSpare := BitVec.ofNat 4 ((units.zipIdx.map fun u => if u.1 = 1 then 2 ^ u.2 else 0).sum) }

/-- Whether a partition passes its test (R341). -/
def testPasses (t : PartTest) : Bool :=
  t.holdOk && t.droverOk &&
    (let x := Part.reset.numbered t
     decide (64 ≤ x.presentCores) && decide (x.mxAbsent ≠ 0xF))

/-! ## Stopping a partition (R340) -/

/-- Instructions past their commit point are left to retire; every other is stopped or dropped. -/
def State.stopQueues (s : State) (p : PartId) : State :=
  (List.range 9).foldl (fun s q =>
    let s := match s.head p q with
      | some e => if e.stoppable then s.stopEffect p q e else s
      | none => s
    s.modDrv p fun d => d.setQueue q ((d.queue q).filter fun e =>
      e.started && (e.committed || (decide (e.phase = .done) && !e.wbOk)))) s

/-- The running dispatch packet ends with PART_OFFLINE. (DEDUCED: log 75) -/
def State.stopPacket (s : State) (p : PartId) : State :=
  match (s.drv p).pkt with
  | none => s
  | some _ => (s.modDrv p fun d => { d with pktFault := some St.partOffline }).endPacket p true

/-- The drover after a RESET: every part as at start, but for the records of packets that have ended and the numbers that
name entries and packets. (DEDUCED: log 74) -/
def Drover.restart (d : Drover) : Drover :=
  { Drover.reset with nextUid := d.nextUid, ended := d.ended, pktSerial := d.pktSerial, lastRing := d.lastRing }

/-- No instruction of a partition waits for a frame of the fabric any more. -/
def State.disownAll (s : State) (p : PartId) : State :=
  s.modFab fun b => { b with
    sent := b.sent.map fun (x : Sent) => match x.owner with
      | some (q, _, _) => if q = p then { x with owner := none } else x
      | none => x
    fences := b.fences.filter fun f => f.part ≠ p }

/-- What goes with the job: incoming transfers are refused with PART_OFFLINE; no instruction waits for an answer any
more. -/
def State.cutOff (s : State) (p : PartId) : State :=
  let s := (s.part p).incoming.foldl (fun s i => s.failIncoming p i St.partOffline) s
  let s := (s.part p).fetches.foldl (fun s f => f.pages.foldl (fun s k => s.poolGive ((s.jobOf p).getD 0) k) s) s
  s.disownAll p

/-- Report the live requests of a partition to the manager as lost (R340). -/
def State.reportLost (s : State) (p : PartId) : State :=
  (s.liveSlots p).foldl (fun s k =>
    let m := s.manifest p k
    s.sendMgr p (ctlTagM m) (.lostRequest (mReqId m) .offline (some m))) s

/-- The live requests leave the partition: their pages return to the pool, their adapter slots are unpinned (R76).
(DEDUCED: log 75) -/
def State.freeLive (s : State) (p : PartId) : State :=
  (s.liveSlots p).foldl (fun s k => (s.freePages p k).adRef (s.manifest p k) false) s

/-- Take a partition OFFLINE: issue and engines stop, its packet ends, its MUs go to memory mode, its port closes.
(DEDUCED: log 75) -/
def State.goOffline (s : State) (p : PartId) (report : Bool) : State :=
  let s := (s.stopQueues p).stopPacket p
  let s := if report then s.reportLost p else s
  let s := ((s.freeLive p).cutOff p).nbuOffline p
  s.modPart p fun x =>
    { x with st := .offline, curJob := none, slots := [], incoming := [], outgoing := [], fetches := [],
             drv := { x.drv with dstate := .offline, stalled := false } }

/-- A partition-scope fault (Table 3.6). (DEDUCED: log 75) -/
def State.partitionFault (s : State) (p : PartId) : State :=
  if (s.part p).st = .serving ∨ (s.part p).st = .vacant then
    (s.raise Ev.partitionFault St.ok p.val).goOffline p true
  else s

def execPartitionFault (p : PartId) (s : State) : Res := .next (s.ifClocked (s.partitionFault p))

def execHoldSramUncorrectable (p : PartId) (offset : Nat) (s : State) : Res :=
  .next (s.ifClocked (if offset < hsramBytes then s.partitionFault p else s))

/-! ## Chip failure (R404) -/

/-- The first path to a node whose first hop is a port; path 0 where there is none. -/
def State.pathBy (s : State) (n : NodeId) (k : PortId) : Nat :=
  ((List.range 8).find? fun i => s.hop n i = k.val).getD 0

/-- Failure notes go from every port that is up to the manager and the standby of the configuration.
(DEDUCED: log 75) -/
def State.failureNotes (s : State) (ev : BitVec 16) : State :=
  let c := s.boot.cfg
  let to_ := (if c.system then [c.mgr] else []) ++ (if c.system ∧ c.stbyValid then [c.stby] else [])
  (to_.filter fun n => n ≠ s.fab.node).foldl (fun s n =>
    let f := s.ctlFrame unitRk n ctlTag (.failureNote ev)
    let s := s.sendSeq f
    match s.fab.sent.getLast? with
    | some x =>
      (List.finRange 8).foldl (fun s k =>
        if (s.port k).up ∧ x.path.map (s.hop n) ≠ some k.val then s.enqueue k (readyFrame x.frame (s.pathBy n k) false) else s) s
    | none => s) s

/-- The chip has failed. -/
def State.chipFail (s : State) (ev : BitVec 16) : State :=
  if s.regBit 0x708020 1 then s
  else
    let s := (s.failureNotes ev).setRegFld 0x708020 1 1 1
    let s := { s with pins := { s.pins with faultN := false, smbAlertN := false } }
    (List.finRange 16).foldl (fun s p =>
      if (s.part p).st = .serving ∨ (s.part p).st = .vacant then s.goOffline p false else s) s

/-- An MU link retrain ends: the accesses that waited complete; an MU that fails to retrain is a chip failure (R230). -/
def execMuRetrainDone (m : MuId) (ok : Bool) (s : State) : Res :=
  .next (s.ifClocked (
    let x := s.mu m.val
    if x.retraining = false then s
    else
      let s := s.setMu m.val { x with retraining := false, trained := ok }
      if ok then s.serveHeld m.val else (s.raise Ev.muFailed St.ok 21 m.val).chipFail Ev.muFailed))

/-- An uncorrectable error in a partition's transit router (R331). -/
def execTransitRouterError (p : PartId) (s : State) : Res :=
  .next (s.ifClocked ((s.raise Ev.transitFailed St.ok p.val).chipFail Ev.transitFailed))

/-! ## Partition commands (R330, Table 13.6) -/

def ptStat (p : PartId) : Nat := ptBase p + 0x10

def State.ptBusy (s : State) (p : PartId) : Bool := s.regBit (ptStat p) 16

/-- DEDUCED: log 91. -/
def State.ptDone (s : State) (p : PartId) (st : Status) : State :=
  let s := (s.setRegFld (ptStat p) 16 16 0).setRegFld (ptStat p) 63 48 st.toNat
  { s.setReg (ptBase p + 0x20) (Config.commandNs s.freeCount) with freeCount := s.freeCount + 1 }

/-- A write of PT_CTL with OP `op`: ignored while BUSY; JOB, JOB_VALID, FORCE and OP are stored, then the command
acts. -/
def State.ptCommand (s : State) (p : PartId) (v : Word) (op : Nat) (f : State → State × Status) : State :=
  if fld v 3 0 ≠ op ∨ s.ptBusy p then s
  else
    let r := f (s.setReg (ptBase p) (v &&& 0x1F1F))
    r.1.ptDone p r.2

def ptJob (v : Word) : JobId := Fin.ofNat 16 (fld v 11 8)

/-- Whether a partition may serve a job: the job composed, the partition in its mask (R330). -/
def State.jobMay (s : State) (p : PartId) (j : JobId) : Bool :=
  s.jobValid j.val && bitOf (BitVec.ofNat 16 (s.jobPartMask j.val)) p.val

/-- A partition as a job first finds it: drover RESET, no request, nothing received. -/
def Part.fresh (x : Part) : Part :=
  { x with
    drv := x.drv.restart, role := .unset, slots := [], grammars := [], mixRows := 0, rope := none, incoming := [],
    outgoing := [], fetches := [] }

/-- The partition begins to serve a job, and installs what is staged for it (R106, R342). -/
def State.beginServing (s : State) (p : PartId) (j : JobId) : State :=
  (((s.hsZero p).modPart p fun x => { x.fresh with st := .serving, curJob := some j }).holdModes p).imageInstall p

def State.ptAssign (s : State) (p : PartId) (v : Word) : State :=
  s.ptCommand p v 1 fun s =>
    if (s.part p).st ≠ .vacant ∨ s.jobMay p (ptJob v) = false then (s, St.operandRange)
    else (s.beginServing p (ptJob v), St.ok)

def execAssign (p : PartId) (v : Word) (s : State) : Res := .next (s.ifReady (s.ptAssign p v))

/-- DEDUCED: log 75. -/
def State.ptRelease (s : State) (p : PartId) (v : Word) : State :=
  s.ptCommand p v 4 fun s =>
    if (s.part p).st ≠ .serving ∨ s.liveSlots p ≠ [] then (s, St.operandRange)
    else
      let s := (((s.stopQueues p).stopPacket p).cutOff p).hsZero p
      ((s.modPart p fun x => { x.fresh with st := .vacant, curJob := none }).holdModes p, St.ok)

def execRelease (p : PartId) (v : Word) (s : State) : Res := .next (s.ifReady (s.ptRelease p v))

def State.ptOffline (s : State) (p : PartId) (v : Word) : State :=
  s.ptCommand p v 5 fun s =>
    let st := (s.part p).st
    if st ≠ .serving ∧ st ≠ .vacant then (s, St.operandRange)
    else if st = .serving ∧ s.liveSlots p ≠ [] ∧ bitOf v 4 = false then (s, St.phaseIllegal)
    else (s.goOffline p true, St.ok)

def execOffline (p : PartId) (v : Word) (s : State) : Res := .next (s.ifReady (s.ptOffline p v))

/-- RETEST stays BUSY until the test ends. -/
def State.ptRetest (s : State) (p : PartId) (v : Word) : State :=
  if fld v 3 0 ≠ 6 ∨ s.ptBusy p then s
  else
    let s := s.setReg (ptBase p) (v &&& 0x1F1F)
    if (s.part p).st ≠ .offline ∧ (s.part p).st ≠ .failed then s.ptDone p St.operandRange
    else (s.modPart p fun x => { x with st := .testing }).setRegFld (ptStat p) 16 16 1

def execRetest (p : PartId) (v : Word) (s : State) : Res := .next (s.ifReady (s.ptRetest p v))

/-- ABSENT of the NBUs that a re-test ran: those of the MUs that the partition's queues and no other queue drive
(R259, R341). -/
def State.nbuTested (s : State) (p : PartId) (ok : BitVec 2) : State :=
  let all := (List.range 16).flatMap s.partMus
  [0, 1].foldl (fun s k =>
    match s.driven p.val k with
    | some m => if all.count m = 1 then s.markNbu m !(bitOf ok k) else s
    | none => s) s

/-- A re-test ends; its numbering is applied at ONLINE. -/
def execRetestDone (p : PartId) (t : PartTest) (nbuOk : BitVec 2) (s : State) : Res :=
  .next (
    if (s.part p).st ≠ .testing then s
    else
      let s := (s.nbuTested p nbuOk).modPart p fun x =>
        { x with st := if testPasses t then .offline else .failed, retested := some t }
      s.ptDone p St.ok)

/-- DETAIL of NUMBERING (R342). -/
def State.numberingDetail (s : State) (p : PartId) : Bytes :=
  let x := s.part p
  [BitVec.ofNat 8 x.presentCores, BitVec.ofNat 8 (s.mxPresent p)] ++ x.absent.toList ++ leBytes 2 x.spareUsed.toNat ++
    zeros 12

def State.ptOnline (s : State) (p : PartId) (v : Word) : State :=
  s.ptCommand p v 7 fun s =>
    let serve := bitOf v 12
    if (s.part p).st ≠ .offline ∨ (serve ∧ s.jobMay p (ptJob v) = false) then (s, St.operandRange)
    else
      let s := (s.hsZero p).modPart p fun x =>
        { (match x.retested with | some t => x.numbered t | none => x).fresh with
          st := .vacant, curJob := none, retested := none }
      let s := s.setRegFld (ptBase p + 0x2000) 3 0 0
      let s := s.raise Ev.numbering St.ok p.val 0xFF 0 (s.numberingDetail p)
      (if serve then s.beginServing p (ptJob v) else s, St.ok)

def execOnline (p : PartId) (v : Word) (s : State) : Res := .next (s.ifReady (s.ptOnline p v))

/-- OP 8 to 15: OPERAND_RANGE at once; the fields are stored. No command is issued, and PT_LAST_NS stands. (DEDUCED: log 75) -/
def State.ptReserved (s : State) (p : PartId) (v : Word) : State :=
  if fld v 3 0 < 8 ∨ s.ptBusy p then s
  else (s.setReg (ptBase p) (v &&& 0x1F1F)).setRegFld (ptStat p) 63 48 St.operandRange.toNat

def execPtCtlReservedOp (p : PartId) (v : Word) (s : State) : Res := .next (s.ifReady (s.ptReserved p v))

/-! ## Pre-emption (R332 to R334, R347, R348) -/

def saveBytes : Nat := 4096
def droverBytes : Nat := 16384

/-- Live regions of hold SRAM, rising (R332). -/
def State.liveRegions (s : State) (p : PartId) : List Nat :=
  (List.range 192).filter fun r => s.regBit (ptBase p + 0x28 + 8 * (r / 64)) (r % 64)

/-- Whether the save area is 14 MiB of near pages of the job (R334). -/
def State.saveAreaOk (s : State) (a : Nat) (j : JobId) : Bool :=
  (List.range 7).all fun i =>
    let e := s.entry (a / 2 ^ 21 + i)
    decide ((a / 2 ^ 21 + i) * 2 ^ 21 < stateEnd) && eValid e && decide (eTier e = 0) && decide (eJob e = j.val)

/-- The stop points of Table 13.3: a page that TIER_MOVE moves is finished; an instruction that waits for the fabric asks
again, after the restore, for what has not come; a fence captures again; an NB instruction begins again. -/
def State.stopPoint (s : State) (p : PartId) : State :=
  let s := match s.head p 8 with
    | some e => if e.phase = .waiting then
        (match s.tier.moves.find? fun m => m.by_ = some (p, e.uid) with
          | some m => (List.range 5).foldl (fun s _ => s.passEnd m.page) s
          | none => s) else s
    | none => s
  (List.range 9).foldl (fun s q =>
    match s.head p q with
    | some e =>
      if (q = 6 ∨ q = 7) ∧ e.started ∧ !e.committed then
        s.setEntryOf p q { e with phase := .running, waitFrom := none, att := none, spt := none }
      else if dmaOp (iOp e.insn) ∨ (0x70 ≤ iOp e.insn ∧ iOp e.insn ≤ 0x73) then
        let s := s.replayCount e
        let again := e.phase = .waiting ∧ iOp e.insn ≠ 0x73
        s.setEntryOf p q { e with
          waitFrom := none, phase := if again then .running else e.phase, owed := if iOp e.insn = 0x73 then e.owed else 0 }
      else s
    | none => s) s

/-- Empty the result buffers of the partition's NBUs (Table 13.3). -/
def State.emptyResults (s : State) (p : PartId) : State :=
  (s.partMus p.val).foldl (fun s m => s.setMu m { s.mu m with resultBuf := [] }) s

/-- The modes of the MUs that a partition's queues drive, as the header of a save image records them (R333).
(DEDUCED: log 71) -/
def State.muModes (s : State) (p : PartId) : List (Nat × Bool) :=
  (s.partMus p.val).map fun m => (m, if (s.mu m).switching then (s.mu m).target else (s.mu m).proc)

/-- The modes of the MUs of a restored job: held, or by the PROC bits, under R387 and R388; under BY_PHASE a mode switch
begins for each MU that is not in its recorded mode (R333). (DEDUCED: log 71) -/
def State.restoreModes (s : State) (p : PartId) (modes : List (Nat × Bool)) : State :=
  if s.modesHeld p || pcfgSplit (s.reg (pcfgOff p)) then s.settleModes p
  else (s.partMus p.val).foldl (fun s m =>
    match tabFind modes m with
    | some b => if (s.mu m).absent then s else s.beginSwitch m b (s.drv p).nextUid
    | none => s) s

/-- Bytes of a save image whose layout the specification leaves open. -/
def saveFree (c off n : Nat) : Bytes := (List.range n).map fun i => Config.saveByte c (off + i)

/-- The two parts of A of R332: of the present matrix units, how many have a tile in progress, and how much of the 1 MiB
partial store is occupied, is free where an instruction of that engine is running. (DESIGN CHOICE: log 76) -/
def State.accSizes (s : State) (p : PartId) : Nat × Nat :=
  let runs := fun q => (s.head p q).any fun e => e.started && decide (e.phase = .running)
  (if runs 0 then 36864 * (Config.openAccumulators s.freeCount 0 % (s.mxPresent p + 1)) else 0,
   if runs 2 then Config.openAccumulators s.freeCount 2 % 1048577 else 0)

/-- A of R332. (DESIGN CHOICE: log 76) -/
def State.accBytes (s : State) (p : PartId) : Nat := (s.accSizes p).1 + (s.accSizes p).2

/-- The header of a save image (R333): partition, job, the number of the image, the live map, the accumulator sizes, the
partition's MUs and which of them are in processor mode, and the CRC-32C in the last four bytes.
(DESIGN CHOICE: log 76) -/
def saveHeader (p : PartId) (j : JobId) (serial : Nat) (live : List Nat) (acc : Nat × Nat) (modes : List (Nat × Bool)) :
    Bytes :=
  let mask := fun (l : List Nat) => (l.map fun m => 2 ^ m).sum
  let b := leBytes 4 p.val ++ leBytes 4 j.val ++ leBytes 8 serial ++ leBytes 24 (mask live) ++ leBytes 8 acc.1 ++
    leBytes 8 acc.2 ++ leBytes 4 (mask (modes.map (·.1))) ++ leBytes 4 (mask ((modes.filter (·.2)).map (·.1)))
  let b := b ++ zeros 4028
  b ++ leBytes 4 (crc32c b).toNat

/-- The numbers whose bits are set. -/
def bitsOf (n v : Nat) : List Nat := (List.range n).filter fun i => v.testBit i

/-- A header that SWITCH_IN finds good: its CRC holds, and it names the partition and the job (R334).
(DESIGN CHOICE: log 76) -/
def saveHeaderOk (p : PartId) (j : JobId) (h : Bytes) : Bool :=
  decide (leAt h 4092 4 = (crc32c (h.take 4092)).toNat) && decide (leAt h 0 4 = p.val) && decide (leAt h 4 4 = j.val)

/-- Write the save image: drover state, accumulators, live regions in ascending order, the header last. The bytes of the
first two are free values. (DESIGN CHOICE: log 76) -/
def State.writeImage (s : State) (a acc : Nat) (live : List Nat) (p : PartId) (header : Bytes) : State :=
  let s := (s.stWrite none (a + saveBytes) (saveFree s.freeCount saveBytes (droverBytes + acc))).2
  let s := live.zipIdx.foldl (fun s r =>
    (s.stWrite none (a + saveBytes + droverBytes + acc + 65536 * r.2) (s.hsRead p (65536 * r.1) 65536)).2) s
  (s.stWrite none a header).2

/-- L of R332. (DESIGN CHOICE: log 76) -/
def State.setLastL (s : State) (p : PartId) (acc : Nat) (live : List Nat) : State :=
  s.setReg (ptBase p + 0x18) (BitVec.ofNat 64 (65536 * live.length + acc + droverBytes))

def State.perfRegs (s : State) (p : PartId) : List Word := (List.range 48).map fun i => s.reg (ptBase p + 0x1100 + 8 * i)

/-- SWITCH_OUT: the drover leaves RUNNING or HALTED, the only states that Table 3.8 lets pre-emption leave (R98); leaving
RUNNING arms DISPATCH_WAIT anew (R102). (DESIGN CHOICE: log 76) -/
def State.ptSwitchOut (s : State) (p : PartId) (v : Word) : State :=
  s.ptCommand p v 2 fun s =>
    let a := s.regFld (ptBase p + 8) 41 0
    match (s.part p).st, (s.part p).curJob with
    | .serving, some j =>
      let ds := (s.drv p).dstate
      if s.saveAreaOk a j = false ∨ ¬(ds = .running ∨ ds = .halted) then (s, St.operandRange)
      else
        let s := (s.stopPoint p).emptyResults p
        let s := (s.part p).incoming.foldl (fun s i => s.failIncoming p i St.partOffline) s
        let s := s.modPart p fun x => { x with fetches := x.fetches.map fun f => { f with owed := 0 } }
        let live := s.liveRegions p
        let acc := s.accSizes p
        let modes := s.muModes p
        let header := saveHeader p j s.freeCount live acc modes
        let s := s.modDrv p fun d => { d with waitRaised := false, waitAt := none }
        let x := s.part p
        let rec_ : Saved :=
          { serial := s.freeCount, out := true, part := p, job := j, addr := a, saved := x, mftBase := s.mftBase p,
            liveMap := live, header := header, accBytes := acc.1 + acc.2, perf := s.perfRegs p, modes := modes }
        let s := { s.writeImage a (acc.1 + acc.2) live p header with freeCount := s.freeCount + 1 }
        let s := { s with saves := (s.saves.map fun (y : Saved) =>
          if y.part = p ∧ y.job = j then { y with out := false } else y) ++ [rec_] }
        let s := ((s.disownAll p).hsZero p).setLastL p (acc.1 + acc.2) live
        ((s.modPart p fun y => { y.fresh with
          st := .vacant, curJob := none,
          drv := { y.drv.restart with dstate := .switchedOut, ended := [] } }).nbuIdle p, St.ok)
    | _, _ => (s, St.operandRange)

def execSwitchOut (p : PartId) (v : Word) (s : State) : Res := .next (s.ifReady (s.ptSwitchOut p v))

/-- The cancels that came while the job stood switched out take effect, where the request is in no convoy (R347).
(DESIGN CHOICE: log 76) -/
def State.heldCancels (s : State) (p : PartId) : State :=
  (s.heldSlots p).foldl (fun s k =>
    let x := s.slot p k
    if x.cancel ∧ x.done = false ∧ s.cancelWaits p k = false then s.cancelEffect p k else s) s

/-- The restored requests that are in no convoy are re-examined, if a book has been installed meanwhile (R30).
(DESIGN CHOICE: log 53) -/
def State.reexaminePart (s : State) (p : PartId) : State :=
  (s.heldSlots p).foldl (fun s k => if (s.convoyRowOf p k).isSome then s else s.reexamine p k) s

/-- The held CONTROL frames are delivered in arrival order (R348). -/
def State.deliverHeld (s : State) (p : PartId) (j : JobId) : State :=
  let l := s.heldCtl.filter fun h => h.part = p ∧ h.job = j
  let s := { s with heldCtl := s.heldCtl.filter fun h => !(decide (h.part = p) && decide (h.job = j)) }
  l.foldl (fun s h => s.rxCtl h.src h.ctl) s

/-- Read back the live regions of a save image at `a`. (DESIGN CHOICE: log 76) -/
def State.readImage (s : State) (p : PartId) (a acc : Nat) (live : List Nat) : State :=
  live.zipIdx.foldl (fun s r =>
    match s.stRead none (a + saveBytes + droverBytes + acc + 65536 * r.2) 65536 with
    | (.ok b, s) => s.hsWrite p (65536 * r.1) b
    | (.error _, s) => s) s

/-- What the drover state of an image with a good header stands for: what was saved under the number it carries; of a number
that no image of this node carries, a partition as a job first finds it. (DESIGN CHOICE: log 76) -/
def State.savedAs (s : State) (p : PartId) (j : JobId) (h : Bytes) : Saved :=
  match s.saves.find? fun x => decide (x.serial = leAt h 8 8) && decide (x.part = p) && decide (x.job = j) with
  | some x => x
  | none =>
    { serial := 0, out := false, part := p, job := j, addr := 0, saved := (s.part p).fresh, mftBase := s.mftBase p,
      liveMap := [], header := [], accBytes := 0, perf := s.perfRegs p, modes := [] }

/-- The requests that were reported STATE_LOST while their job stood switched out are given up (R395). (DEDUCED: log 79) -/
def State.giveUpLost (s : State) (p : PartId) : State :=
  (s.liveSlots p).foldl (fun s k => if (s.slot p k).lost then s.giveUp p k else s) s

/-- DESIGN CHOICE: log 76. -/
def State.ptSwitchIn (s : State) (p : PartId) (v : Word) : State :=
  s.ptCommand p v 3 fun s =>
    let a := s.regFld (ptBase p + 8) 41 0
    let j := ptJob v
    if (s.part p).st ≠ .vacant ∨ s.jobMay p j = false then (s, St.operandRange)
    else
      match s.stRead none a saveBytes with
      | (.ok h, s) =>
        if saveHeaderOk p j h = false then (s, St.operandRange)
        else
          let x := s.savedAs p j h
          let live := bitsOf 192 (leAt h 16 24)
          let acc := leAt h 40 8 + leAt h 48 8
          let modes := (bitsOf 32 (leAt h 56 4)).map fun m => (m, (leAt h 60 4).testBit m)
          let now := s.part p
          let s := (s.hsZero p).modPart p fun y =>
            { x.saved with
              hsram := [], st := .serving, curJob := some j, rope := none, staged := y.staged, absent := y.absent,
              spareUsed := y.spareUsed,
              mxAbsent := y.mxAbsent, mxSpare := y.mxSpare, retested := y.retested,
              drv := { x.saved.drv with nextUid := max x.saved.drv.nextUid now.drv.nextUid,
                                        ended := now.drv.ended ++ x.saved.drv.ended } }
          let s := ((s.readImage p a acc live).restoreModes p modes).setLastL p acc live
          let s := x.perf.zipIdx.foldl (fun s w => s.setReg (ptBase p + 0x1100 + 8 * w.2) w.1) s
          let s := { s with saves := s.saves.map fun y => if y = x then { y with out := false } else y }
          (((((s.giveUpLost p).deliverHeld p j).heldCancels p).reexaminePart p).imageInstall p, St.ok)
      | (.error _, s) => (s, St.operandRange)

def execSwitchIn (p : PartId) (v : Word) (s : State) : Res := .next (s.ifReady (s.ptSwitchIn p v))

/-! ## Cores failing in service (R343, R344) -/

/-- A core fails its self-check: its cluster's spare takes its number, or the number becomes absent. -/
def execCoreSelfCheckFail (p : PartId) (core : Fin 128) (s : State) : Res :=
  .next (s.ifClocked (
    let x := s.part p
    let k := core.val / 8
    if x.absentBit core.val then s
    else if bitOf x.spareUsed k = false then
      (s.modPart p fun x => { x with spareUsed := setFld x.spareUsed k k 1 }).raise Ev.spareUsed St.ok p.val k
    else
      (s.modPart p fun x => { x with absent := vset x.absent k (setFld (vget x.absent k 0) (core.val % 8) (core.val % 8) 1) }).raise
        Ev.coreAbsent St.coreAbsent p.val k 0 (evDetail core.val 0 0)))

end Sys2Proof.Machine
end

