-- ==== Sys2Proof/Machine/Jobs.lean ====
section
/-! DEFINITION. Job registers, fabric shares and tariff counters (chapter 13: R324 to R328, R337 to R339). -/

namespace Sys2Proof.Machine

/-! ## Job registers (R325, R326) -/

/-- A register after a host write under its access rules; `lanes` are the bits the write reaches. -/
def State.written (s : State) (off : Nat) (lanes v : Word) : Word :=
  fieldsWrite ((regFields off).getD []) lanes (s.reg off) v

/-- Whether a job is current on some partition. (DEDUCED: log 78) -/
def State.jobCurrent (s : State) (j : Nat) : Bool := (List.finRange 16).any fun p => decide (s.jobOf p = some j)

/-- Whether a CXL_MASK consists of whole interleave groups. -/
def wholeGroups (w : Nat) (mask : BitVec 24) : Bool :=
  (List.range (24 / w)).all fun g =>
    (groupPorts w g).all (fun k => bitOf mask k) || (groupPorts w g).all fun k => !bitOf mask k

/-- Whether the shares of the valid jobs stay within 256 on every port. (DEDUCED: log 78) -/
def State.sharesFit (s : State) : Bool :=
  (List.range 8).all fun k =>
    decide (((List.range 16).map fun j => if s.jobValid j then s.regFld (jobBase j + 8) (8 * k + 7) (8 * k) else 0).sum
      ≤ 256)

/-- FAB_SHARE written: ignored with an event where the shares of valid jobs would exceed a port. The buckets take it up
at the next refill tick (R311). (DEDUCED: log 78) -/
def State.fabShare (s : State) (j : Nat) (lanes v : Word) : State :=
  let off := jobBase j + 8
  let t := s.setReg off (s.written off lanes v)
  if t.sharesFit then (s.noteWrite off).setReg off (s.written off lanes v) else s.writeIgnored off

/-- JOB_MASKS, POOL_BASE or POOL_SLOTS written: only while the job is current on no partition. -/
def State.jobField (s : State) (j off : Nat) (lanes v : Word) : State :=
  let t := s.setReg off (s.written off lanes v)
  if s.jobCurrent j ∨ t.sharesFit = false ∨ wholeGroups s.ways (BitVec.ofNat 24 (t.jobCxlMask j)) = false then
    s.writeIgnored off
  else t

/-- Register `i` of job `j` written (Table 13.1). (DEDUCED: log 78) -/
def State.jobReg (s : State) (j i : Nat) (lanes v : Word) : State :=
  if i = 1 then s.fabShare j lanes v else s.jobField j (jobBase j + 8 * i) lanes v

def execJobRegisterWrite (j : JobId) (reg : Fin 4) (v : Word) (s : State) : Res :=
  .next (s.ifReady (s.jobReg j.val reg.val (BitVec.allOnes 64) v))

def execFabShareWrite (j : JobId) (v : Word) (s : State) : Res := .next (s.ifReady (s.fabShare j.val (BitVec.allOnes 64) v))

/-! ## Tariff counters (R337 to R339) -/

/-- A metering command ends: STATUS is that of the last one (Table 13.10). -/
def State.mtrDone (s : State) (st : Status) : State := s.setRegFld 0x700018 63 48 st.toNat

/-- MTR_MAP written: the tenant map entry of TENANT. -/
def State.mtrMap (s : State) (v : Word) : State :=
  let s := s.setReg 0x700000 (s.written 0x700000 (BitVec.allOnes 64) v)
  let t := fld v 15 0
  let m := if bitOf v 63 then tabPut s.meter.map t (fld v 43 32) else tabErase t s.meter.map
  ({ s with meter := { s.meter with map := m } }).mtrDone St.ok

def execMtrMap (v : Word) (s : State) : Res := .next (s.ifReady (s.mtrMap v))

def State.counterSet (s : State) (i k : Nat) : Word := tabGet (fun _ => 0) s.meter.sets (i * 8 + k)

/-- SNAP: one set, at one instant, with the fabric time. -/
def State.mtrSnap (s : State) (i : Nat) : State :=
  let s := (List.range 8).foldl (fun s k => s.setReg (0x700040 + 8 * k) (s.counterSet i k)) s
  (s.setReg 0x700080 (BitVec.ofNat 64 s.now)).mtrDone St.ok

/-- The 4,096 records of a dump. -/
def State.dumpBytes (s : State) : Bytes :=
  ((List.range 4096).map fun i => ((List.range 8).map fun k => wordBytes (s.counterSet i k)).flatten).flatten

/-- DUMP: every set at DUMP_ADDR; where a page cannot be written, nothing is. (DEDUCED: log 78) -/
def State.mtrDump (s : State) : State :=
  match s.stWrite none (s.regFld 0x700010 41 0) s.dumpBytes with
  | (none, s) => s.mtrDone St.ok
  | (some e, s) => s.mtrDone e.status

/-- MTR_CMD written. A reserved OP is out of range: the field stays and no command is issued (R346).
(DEDUCED: log 78) -/
def State.mtrCmd (s : State) (v : Word) : State :=
  let s := s.setRegFld 0x700008 11 0 (fld v 11 0)
  match fld v 63 62 with
  | 0 => (s.setRegFld 0x700008 63 62 0).mtrSnap (fld v 11 0)
  | 1 => (s.setRegFld 0x700008 63 62 1).mtrDump
  | _ => s

def execSnap (v : Word) (s : State) : Res := .next (s.ifReady (s.mtrCmd (setFld v 63 62 0)))

def execDump (v : Word) (s : State) : Res := .next (s.ifReady (s.mtrCmd (setFld v 63 62 1)))

/-- 4 KiB units of `n` bytes of state from `a` on that lie in the near tier, and in the far tier. -/
def State.unitsAt (s : State) (a n : Nat) : Nat × Nat :=
  (List.range (n / 4096)).foldl (fun c i =>
    let e := s.entry (ePage (a + 4096 * i))
    if eValid e = false then c else if eFar e then (c.1, c.2 + 1) else (c.1 + 1, c.2)) (0, 0)

/-- Add what a tenant holds in `n` bytes at each of a list of addresses. -/
def State.meterHeld (s : State) (tenant n : Nat) (l : List Nat) : State :=
  l.foldl (fun s a =>
    let u := s.unitsAt a n
    (s.meterAdd tenant 2 u.1).meterAdd tenant 3 u.2) s

/-- The page slots of the requests on a partition, counted for their tenants: those the page tables name, and those
taken for a fetch. A page marked SHARED is not counted here. -/
def State.meterPart (s view : State) (p : PartId) : State :=
  match view.jobOf p with
  | none => s
  | some j =>
    let z := s.slotBytes j
    let s := (view.heldSlots p).foldl (fun s k =>
      let m := view.manifest p k
      if (view.slot p k).gone ∨ terminal (mPhase m) then s
      else s.meterHeld (mTenant m) z (view.ownPages p m).1) s
    (view.part p).fetches.foldl (fun s f =>
      s.meterHeld (mTenant (view.manifest p f.slot)) z (f.pages.map fun i => s.poolBase j + i * z)) s

/-- The job whose pool a state address lies in. -/
def State.poolJob (s : State) (a : Nat) : Option Nat :=
  (List.range 16).find? fun j =>
    let z := s.slotBytes j
    decide (0 < z) && decide (s.poolBase j ≤ a) && decide ((a - s.poolBase j) / z < s.poolSlots j)

/-- The state as a saved job sees its partition. -/
def State.asSaved (s : State) (x : Saved) : State :=
  (s.setPart x.part { x.saved with curJob := some x.job }).setReg (ptBase x.part + 0x1010) (BitVec.ofNat 64 x.mftBase)

/-- The tick of the page kinds: what the requests on the node hold, those of switched-out jobs among them, and the
stripes and mirror copies parked here. Metering sets no accessed bit. (DEDUCED: log 78) -/
def State.tariffTick (s : State) : State :=
  let view := s
  let s := (List.finRange 16).foldl (fun s p => s.meterPart view p) s
  let s := view.switchedOut.foldl (fun s x => s.meterPart (view.asSaved x) x.part) s
  (view.parked.filter fun x => !terminal (mPhase x.mft)).foldl (fun s x =>
    x.slots.foldl (fun s a =>
      match view.poolJob a with
      | none => s
      | some j => s.meterHeld (mTenant x.mft) (view.slotBytes j) [a]) s) s

def execTariffTick (s : State) : Res := .next s.tariffTick

end Sys2Proof.Machine
end

