-- ==== Sys2Proof/Machine/Host.lean ====
section
/-! DEFINITION. The host interface (chapter 14): BAR2, doorbells, rings, prefetch, coalescing, host resets. -/

namespace Sys2Proof.Machine

/-! ## BAR2 (R351 to R354) -/

/-- How a BAR2 read is answered: 0 success, 1 Unsupported Request, 2 Completer Abort, 3 poisoned data. -/
def State.bar2Answer (s : State) (k : Nat) (b : Bytes) : State :=
  s.modHost fun h => { h with bar2 := (k, b) :: h.bar2 }

/-- Bytes of a function's BAR2 (Table 14.2). (DESIGN CHOICE: log 83) -/
def State.bar2Bytes (s : State) (fn : Nat) : Nat := if fn = 0 then 2 ^ s.host.bar2Log else 2 ^ 30

/-- Every function's class code, processing accelerator (R350). (DESIGN CHOICE: log 83) -/
def classCode : BitVec 24 := 0x120000

/-- The state address of offset `x` of a function's BAR2. The bits of the PF's base below the size of its BAR2 count as
zero. -/
def State.bar2Addr (s : State) (fn x : Nat) : Nat :=
  if fn = 0 then
    let size := s.bar2Bytes 0
    (s.regFld 0x500010 41 30 * 2 ^ 30) / size * size + x
  else s.regFld (0x500100 + 8 * fn) 41 30 * 2 ^ 30 + x

/-- The job check of a BAR2 access: omitted for the PF; a VF's fails where its partition has no current job. -/
def State.bar2Job (s : State) (fn : Nat) : Option (Option Nat) :=
  if fn = 0 then some none else (s.jobOf (Fin.ofNat 16 (fn - 1))).map some

/-- A refused access: counted, with the event that names the function and the state address. (DESIGN CHOICE: log 83) -/
def State.bar2Refused (s : State) (fn a : Nat) (x : AccErr) : State :=
  (s.addReg 0x500318 1).raise Ev.bar2Refused x.status 19 fn 0 (evDetail x.addr x.detail1 (a + fn * 2 ^ 64))

/-- Whether a function exists: the PF, or an enabled VF. -/
def State.fnOn (s : State) (fn : Nat) : Bool := decide (fn ≤ s.host.vfEnable)

/-- Why a BAR2 access meets Unsupported Request before it is translated: the window is closed until S8 (R370), or no job
is current on the VF's partition. (DEDUCED: log 81) -/
def State.bar2Closed (s : State) (fn a : Nat) : Option AccErr :=
  if s.boot.ready = false then some ⟨St.operandRange, a, 0⟩
  else if (s.bar2Job fn).isNone then some ⟨St.operandRange, a, 0⟩ else none

/-- Whether a BAR2 write of a function is not yet visible: it waits at an MU or at a page move (R240, R267, R353).
(DESIGN CHOICE: log 83) -/
def State.bar2Waits (s : State) (fn : Nat) : Bool :=
  ((List.range 32).any fun m => ((s.mu m).held ++ (s.mu m).parked).any fun e => e.fn = some fn) ||
    s.tier.moves.any fun m => m.held.any fun h => h.fn = some fn

/-- DESIGN CHOICE: log 83. -/
def State.bar2Take (s : State) (fn x n : Nat) : State :=
  let a := s.bar2Addr fn x
  match s.bar2Closed fn a with
  | some e => (s.bar2Refused fn a e).bar2Answer 1 []
  | none =>
    match s.stRead ((s.bar2Job fn).getD none) a n with
    | (.ok b, s) => s.bar2Answer 0 b
    | (.error e, s) =>
      if e.status = St.cxlPoison then s.bar2Answer 3 []
      else if e.status = St.cxlLinkDown then (s.bar2Refused fn a e).bar2Answer 2 []
      else (s.bar2Refused fn a e).bar2Answer 1 []

/-- A BAR2 read completes only after every BAR2 write that the same function sent before it is visible (R353); until then it
is held. (DESIGN CHOICE: log 83) -/
def State.bar2Read (s : State) (fn x n : Nat) : State :=
  if s.bar2Waits fn || s.host.bar2Held.any (fun r => r.1 = fn) then
    s.modHost fun h => { h with bar2Held := h.bar2Held ++ [(fn, x, n)] }
  else s.bar2Take fn x n

/-- The held BAR2 reads whose function's writes are visible now complete, in the order in which they came.
(DESIGN CHOICE: log 83) -/
def State.bar2Drain (s : State) : State :=
  let l := s.host.bar2Held
  if l = [] then s
  else
    let go := fun (r : Nat × Nat × Nat) => !s.bar2Waits r.1
    (l.filter go).foldl (fun s r => s.bar2Take r.1 r.2.1 r.2.2)
      (s.modHost fun h => { h with bar2Held := l.filter fun r => !go r })

def execBar2Read (fn : Fin 17) (offset : Nat) (len : Nat) (s : State) : Res :=
  .next (if s.fnOn fn.val ∧ offset + len ≤ s.bar2Bytes fn.val then s.bar2Read fn.val offset len else s)

/-- A BAR2 write is an access like any other: one to an MU in processor mode parks there (R267). (DESIGN CHOICE: log 83) -/
def State.bar2Write (s : State) (fn x : Nat) (b : Bytes) : State :=
  let a := s.bar2Addr fn x
  match s.bar2Closed fn a with
  | some e => s.bar2Refused fn a e
  | none =>
    let by_ := fun (s : State) (w : Option Nat) => s.modHost fun h => { h with writer := w }
    match (by_ s (some fn)).stWrite ((s.bar2Job fn).getD none) a b with
    | (some e, s) => (by_ s none).bar2Refused fn a e
    | (none, s) => by_ s none

/-- A poisoned write is discarded (Table 14.1); an access that reaches beyond the BAR is none of the function's. -/
def execBar2Write (fn : Fin 17) (offset : Nat) (data : HostData) (s : State) : Res :=
  .next (if s.fnOn fn.val ∧ offset + data.bytes.length ≤ s.bar2Bytes fn.val ∧ data.poisoned = false then
    s.bar2Write fn.val offset data.bytes else s)

/-! ## Doorbells (R356, R357) -/

/-- A doorbell value at or above the ring's size: ignored with an event. (DEDUCED: log 84) -/
def State.doorbellRange (s : State) (off : Nat) : State :=
  s.raise Ev.doorbellRange St.ok 19 0xFF 0 (evDetail 0 0 off)

def State.sqTailDb (s : State) (r v : Nat) : State :=
  if s.sqSize r ≤ v then s.doorbellRange (sqDbOff r) else s.setRegFld (sqDbOff r) 11 0 v

/-- The host has read records: those that waited for room are written. -/
def State.cqHeadDb (s : State) (r v : Nat) : State :=
  if s.cqSize r ≤ v then s.doorbellRange (cqDbOff r) else (s.setRegFld (cqDbOff r) 15 0 v).flushWaiting r

def execSqTailDb (r : RingId) (v : BitVec 16) (s : State) : Res := .next (s.ifReady (s.sqTailDb r.val v.toNat))

def execCqHeadDb (r : RingId) (v : BitVec 16) (s : State) : Res := .next (s.ifReady (s.cqHeadDb r.val v.toNat))

/-! ## Ring control (R364) -/

/-- A ring control register after a write: LOG2N is written only while the enable bit is clear. (DEDUCED: log 84) -/
def State.ctlWritten (s : State) (off en hi : Nat) (lanes v : Word) : Word :=
  let old := s.reg off
  let new := s.written off lanes v
  if bitOf old en then setFld new hi 0 (fld old hi 0) else new

/-- Records of a completion ring that packets taken and not yet completed will need. (DEDUCED: log 84) -/
def State.reservedFor (s : State) (c : Nat) : Nat :=
  ((List.finRange 16).map fun p =>
    let d := s.drv p
    let saved := (s.switchedOut.filter fun x => x.part = p).flatMap fun x => x.saved.drv.ended
    let ks := (match d.pkt with | some k => [k] | none => []) ++ (d.ended ++ saved).map (·.pkt)
    (ks.filter fun k => !k.discard && decide (s.cqOf k.ring k.cq = some c)).length).sum

/-- SQ_CTL written. Enabling the ring sets its head and its doorbell to 0 and drops what was fetched.
(DEDUCED: log 84) -/
def State.sqCtl (s : State) (r : Nat) (lanes v : Word) : State :=
  let off := sqOff r + 8
  let new := s.ctlWritten off 4 3 lanes v
  let on := !bitOf (s.reg off) 4 && bitOf new 4
  let s := s.setReg off new
  if on then
    ((s.setRegFld (sqOff r + 0x10) 11 0 0).setRegFld (sqDbOff r) 11 0 0).setRing r { s.ring r with fetched := [] }
  else s

/-- CQ_CTL written. Enabling the ring sets its tail and its doorbell to 0, and its PHASE pass to the first.
(DEDUCED: log 84) -/
def State.cqCtl (s : State) (r : Nat) (lanes v : Word) : State :=
  let off := cqOff r + 8
  let new := s.ctlWritten off 5 4 lanes v
  let on := !bitOf (s.reg off) 5 && bitOf new 5
  let s := s.setReg off new
  if on then
    let s := (s.setRegFld (cqOff r + 0x10) 15 0 0).setRegFld (cqDbOff r) 15 0 0
    (s.setRing r { s.ring r with phase := true, unsignalled := 0, reserved := s.reservedFor r }).flushWaiting r
  else s

def execRingEnable (cq : Bool) (r : RingId) (v : Word) (s : State) : Res :=
  .next (s.ifReady (if cq then s.cqCtl r.val (BitVec.allOnes 64) v else s.sqCtl r.val (BitVec.allOnes 64) v))

/-! ## Prefetch (R358, R359, R100) -/

/-- The packet that the bytes of a submission entry spell (Table 3.9). (DEDUCED: log 84) -/
def packetOf (r : Nat) (b : Bytes) : Packet :=
  { ring := r, immediate := decide (leAt b 1 1 = 1), target := leAt b 4 1 % 16, job := leAt b 5 1 % 16,
    cq := leAt b 6 2 % 64, id := wordOf ((b.drop 8).take 8),
    args := (List.range 4).map fun i => wordOf ((b.drop (0x18 + 8 * i)).take 8),
    insns := codeWords ((b.drop 64).take (16 * leAt b 2 2)), sqHead := 0, discard := false }

/-- Whether a packet stands under R100 and R359, its completion ring aside. Whether its job owns its target is judged when
the packet would be taken (R331, `State.refuseStale`). (DEDUCED: log 84) -/
def packetOk (r : Nat) (b : Bytes) : Bool :=
  let n := leAt b 2 2
  let k := packetOf r b
  decide (leAt b 0 1 = 1) && decide (leAt b 1 1 ≤ 1) && decide (1 ≤ n) && decide (n ≤ 124) &&
    decide (leAt b 0x3C 4 = (crc32c (b.take 0x3C ++ (b.drop 64).take (16 * n))).toNat) &&
    decide (k.target = r / 4)

/-- Whether a ring holds work that is to be fetched. -/
def State.fetchDue (s : State) (r : Nat) : Bool :=
  s.regBit (sqOff r + 8) 4 && decide ((s.ring r).fetched = []) &&
    decide (s.regFld (sqOff r + 0x10) 11 0 ≠ s.regFld (sqDbOff r) 11 0)

/-- The head packet of a ring is fetched; `data` is what host memory holds there. A refused packet executes nothing; it stays
at the head while the ring of its record has no room (R358). -/
def State.packetPrefetch (s : State) (r : Nat) (data : Bytes) : State :=
  if s.fetchDue r = false then s
  else
    let b := fitBytes 2048 data
    let k := packetOf r b
    let named := match s.cqOf r k.cq with | some c => s.cqEnabled c | none => false
    if packetOk r b && named then s.setRing r { s.ring r with fetched := [k] }
    else if s.answerRoom k = false then s
    else
      let s := (s.sqAdvance r).addReg 0x500308 1
      s.answerUntaken { k with sqHead := s.regFld (sqOff r + 0x10) 11 0 } St.pktInvalid

def execPacketPrefetch (r : RingId) (data : Bytes) (s : State) : Res := .next (s.packetPrefetch r.val data)

/-! ## Coalescing (R360, R401) -/

/-- COAL_US after the first record not yet signalled, a completion ring signals its vector. -/
def State.coalesce (s : State) (r : Nat) : State :=
  if (s.ring r).unsignalled = 0 then s
  else (s.setRing r { s.ring r with unsignalled := 0 }).signalMsix (s.ringOwner r) (s.regFld (cqOff r + 8) 42 32)

/-- The same for the event ring, on vector 0 of the PF. -/
def State.evtCoalesce (s : State) : State :=
  if s.events.unsignalled = 0 then s
  else { (s.signalMsix 0 0) with events := { s.events with unsignalled := 0 } }

/-- Rings 0 to 63 are the completion rings; 64 is the event ring. -/
def execCoalesceExpiry (r : Fin 65) (s : State) : Res :=
  .next (if r.val = 64 then s.evtCoalesce else s.coalesce r.val)

/-! ## Host resets (R363, Table 14.7) -/

/-- Packets that came from rings of `rs` and were taken run on; their records will be discarded. (DEDUCED: log 85) -/
def Drover.discard (d : Drover) (rs : Nat → Bool) : Drover :=
  let f := fun k : Packet => if rs k.ring then { k with discard := true } else k
  { d with pkt := d.pkt.map f, ended := d.ended.map fun e => { e with pkt := f e.pkt } }

/-- The rings of `rs` and their registers as at reset; packets not yet taken are dropped, records that wait for room
discarded and counted. (DEDUCED: log 85) -/
def State.resetRings (s : State) (rs : List Nat) : State :=
  let s := (List.finRange 16).foldl (fun s p => s.modDrv p fun d => d.discard fun r => rs.contains r) s
  let s := { s with saves := s.saves.map fun (x : Saved) =>
    { x with saved := { x.saved with drv := x.saved.drv.discard fun r => rs.contains r } } }
  let gone := (s.host.waiting.filter fun w => rs.contains w.1).length
  let s := (s.modHost fun h => { h with waiting := h.waiting.filter fun w => !rs.contains w.1 }).addReg 0x500310 gone
  rs.foldl (fun s r =>
    ([sqOff r, sqOff r + 8, sqOff r + 0x10, cqOff r, cqOff r + 8, cqOff r + 0x10, sqDbOff r, cqDbOff r].foldl
      (fun s o => s.setReg o (regReset o)) s).setRing r Ring.reset) s

/-- A function's MSI-X table, its pending bits and its enable as at reset. (DEDUCED: log 85) -/
def State.resetMsix (s : State) (fn : Nat) : State :=
  let s := (List.range (if fn = 0 then 4096 else 128)).foldl (fun s i => s.setReg (msixOff fn i) (regReset (msixOff fn i))) s
  s.modHost fun h => { h with
    msixOn := setFld h.msixOn fn fn 0, msixMask := setFld h.msixMask fn fn 0
    pba := h.pba.filter fun x => decide (x / 2048 ≠ fn) }

/-- What every reset of the host link, and an FLR of the PF, reset. A load whose checks run is abandoned; staged images
stay staged. (DEDUCED: log 85) -/
def State.hostReset (s : State) : State :=
  let s := s.resetRings (List.range 64)
  let s := (List.range 17).foldl (fun s fn => s.resetMsix fn) s
  let s := (List.range 16).foldl (fun s v => s.setReg (0x500108 + 8 * v) 0) (s.setReg 0x500010 0)
  let s := (s.setRegFld imgStat 0 0 0).setRegFld 0x500208 16 16 0
  s.modHost fun h => { h with loading := none, vfEnable := 0, bar2Log := 30, latch := [], bar2Held := [] }

/-- PERST_N asserted, a hot reset or the link going down. (DEDUCED: log 85) -/
def State.perst (s : State) : State :=
  let s := s.hostReset.modHost fun h => { h with up := false, training := false, rate := 0, width := 0, flit := false }
  { s with pins := { s.pins with perstN := false } }

def execPerstN (s : State) : Res := .next s.perst

def execFlrPf (s : State) : Res := .next s.hostReset

/-- FLR of VF k + 1: its MSI-X table, its four rings and its BAR2 base. -/
def execFlrVf (k : Fin 16) (s : State) : Res :=
  .next (
    if s.fnOn (k.val + 1) = false then s
    else
      let s := ((s.resetRings ((List.range 4).map fun i => 4 * k.val + i)).resetMsix (k.val + 1)).setReg
        (0x500108 + 8 * k.val) 0
      s.modHost fun h =>
        { h with
          latch := h.latch.filter fun e => decide (e.1 ≠ k.val + 1)
          bar2Held := h.bar2Held.filter fun e => decide (e.1 ≠ k.val + 1) })

/-- PERST_N deasserts: link training restarts, once S1 has ended (R370). -/
def execPerstNDeassert (s : State) : Res :=
  .next (
    let s := { s with pins := { s.pins with perstN := true } }
    if 2 ≤ s.boot.stage ∧ s.host.up = false then s.modHost fun h => { h with training := true } else s)

/-- Link rates 1 to 6 and widths of Table 14.6; flit mode is used at 64 GT/s and at no other rate (R349).
(DEDUCED: log 85) -/
def linkOk (rate width : Nat) (flit : Bool) : Bool :=
  decide (1 ≤ rate) && decide (rate ≤ 6) && [1, 2, 4, 8].contains width && decide (flit = decide (rate = 6))

/-- What the host's configuration requests set: how many VFs are enabled, the size of the PF's BAR2, which functions have
MSI-X enabled and masked (R349, R351). No command carries them, so they are a free value. (DESIGN CHOICE: log 83) -/
def HostIf.configured (h : HostIf) (x : Nat × Nat × BitVec 17 × BitVec 17) : HostIf :=
  { h with vfEnable := min 16 x.1, bar2Log := 30 + x.2.1 % 7, msixOn := x.2.2.1, msixMask := x.2.2.2 }

/-- Configuration requests that come while no command does. (DESIGN CHOICE: log 83) -/
def State.configure (s : State) : State :=
  if s.host.up = false then s
  else
    match Config.hostSetup s.freeCount with
    | none => { s with freeCount := s.freeCount + 1 }
    | some x => ({ s with freeCount := s.freeCount + 1 }).modHost fun h => h.configured x

/-- The host link completes training (R349). (DEDUCED: log 85) -/
def execHostLinkUp (rate width : BitVec 4) (flit : Bool) (s : State) : Res :=
  .next (
    if s.host.training && linkOk rate.toNat width.toNat flit then
      (s.setRegFld 0x800 4 3 3).modHost fun h =>
        { h with up := true, training := false, rate := rate, width := width, flit := flit }
    else s)

end Sys2Proof.Machine
end

