-- ==== Sys2Proof/Machine/CfgImage.lean ====
section
/-! DEFINITION. The configuration image in flash (R377 to R380, Tables 15.6 to 15.9). -/

namespace Sys2Proof.Machine

/-- Everything at the ROM defaults of Table 15.9, with the cause of Table 15.8. -/
def cfgDefaults (cause : Nat) : Cfg := { Cfg.default with defaulted := true, cause := cause }

/-- A PORT record's register words hold nothing outside their registers' fields (Table 11.7); the word of the status register
is ignored. (DEDUCED: log 87) -/
def portWordsOk (k : Nat) (l : List Word) : Bool :=
  l.zipIdx.all fun w => decide (w.2 = 1) ||
    decide (w.1 &&& ~~~(fieldsMask ((regFields (0x300000 + 0x100 * k + 8 * w.2)).getD [])) = 0)

/-- One record's value read into the configuration; none where the record is invalid by itself (R378). The padding of a
value is not looked at. `v` is the LEN bytes of the value. -/
def cfgRecord (c : Cfg) (type : Nat) (v : Bytes) : Option Cfg :=
  let at_ := leAt v
  match type with
  | 1 =>
    if v.length = 16 ∧ at_ 0 2 < 1024 ∧ at_ 2 2 < 1024 ∧ at_ 4 2 < 1024 ∧ at_ 6 2 < 4 ∧ at_ 8 8 = 0 then
      some { c with
        node := Fin.ofNat 1024 (at_ 0 2), mgr := Fin.ofNat 1024 (at_ 2 2), stby := Fin.ofNat 1024 (at_ 4 2),
        system := decide (at_ 6 2 % 2 = 1), stbyValid := decide (at_ 6 2 / 2 = 1) }
    else none
  | 2 =>
    if v.length = 8 ∧ [28, 32, 36].contains (at_ 0 1) ∧ at_ 1 1 < 8 ∧ 1 ≤ at_ 2 1 ∧ at_ 2 1 ≤ 8 ∧ 10 ≤ at_ 3 1 ∧
        at_ 3 1 ≤ 120 ∧ at_ 4 4 = 0 then
      some { c with rate := at_ 0 1, farIlv := at_ 1 1, warmSample := at_ 2 1, retentionS := at_ 3 1 }
    else none
  | 3 =>
    let l := (List.range 10).map fun i => wordOf (v.drop (8 + 8 * i))
    if v.length = 88 ∧ at_ 0 1 < 8 ∧ at_ 1 7 = 0 ∧ (c.ports.map (·.1)).contains (at_ 0 1) = false ∧
        portWordsOk (at_ 0 1) l then
      some { c with ports := c.ports ++ [(at_ 0 1, l)] }
    else none
  | 4 =>
    if v.length = 8 ∧ at_ 3 5 = 0 then some { c with ptp := some (at_ 0 1, at_ 1 1, at_ 2 1) } else none
  | 5 =>
    if v.length = 8 ∧ at_ 0 4 < 4 ∧ at_ 4 4 = 0 then
      some { c with requireCustomer := decide (at_ 0 4 % 2 = 1), flashLock := decide (at_ 0 4 / 2 = 1) }
    else none
  | 6 =>
    if v.length = 2600 ∧ 1 ≤ at_ 0 1 ∧ at_ 0 1 ≤ 8 ∧ at_ 1 7 = 0 ∧ (c.keys.map (·.1)).contains (at_ 0 1) = false then
      some { c with keys := tabPut c.keys (at_ 0 1) (v.drop 8) }
    else none
  | 7 =>
    let m := BitVec.ofNat 16 (at_ 8 2)
    if v.length = 16 ∧ 0x20000 ≤ at_ 0 4 ∧ at_ 0 4 % 4096 = 0 ∧ at_ 10 6 = 0 ∧ c.images.length < 16 ∧
        (c.images.all fun x => decide (x.2.2 &&& m = 0)) then
      some { c with images := c.images ++ [(at_ 0 4, at_ 4 4, m)] }
    else none
  | _ => none

/-- Types that Table 15.7 allows once. -/
def cfgOnce (type : Nat) : Bool := [1, 2, 4, 5].contains type

/-- The records of an image, which fill it to BODY_BYTES exactly; none where one is invalid. An unknown record with
bit 15 of its TYPE set is skipped. -/
def cfgRecords : Nat → Cfg → List Nat → Bytes → Option Cfg
  | 0, _, _, _ => none
  | fuel + 1, c, seen, b =>
    if b = [] then some c
    else
      let type := leAt b 0 2
      let len := leAt b 2 2
      let size := 8 + (len + 7) / 8 * 8
      if b.length < 8 ∨ b.length < size then none
      else if 32768 ≤ type then cfgRecords fuel c seen (b.drop size)
      else if leAt b 4 4 ≠ 0 ∨ (cfgOnce type ∧ seen.contains type) then none
      else
        match cfgRecord c type ((b.drop 8).take len) with
        | none => none
        | some c => cfgRecords fuel c (type :: seen) (b.drop size)

/-- The configuration that a flash image gives (R379); `rd` reads the flash. (DEDUCED: log 87) -/
def readCfg (rd : Nat → Nat → Bytes) : Cfg :=
  let h := rd 0 32
  let n := leAt h 8 4
  if leAt h 0 4 ≠ 0x4643584D then cfgDefaults 2
  else if leAt h 4 2 ≠ 1 then cfgDefaults 3
  else if n < 32 ∨ 65528 < n ∨ n % 8 ≠ 0 then cfgDefaults 4
  else
    let body := rd 0 n
    let check := wordOf (rd n 8)
    let digest := sha3_512 body
    let seen := fun c : Cfg => { c with check := check, bodyBytes := n }
    if wordOf (digest.take 8) ≠ check then seen (cfgDefaults 5)
    else
      match cfgRecords 8192 Cfg.default [] (body.drop 32) with
      | none => seen (cfgDefaults 6)
      | some c => seen { c with seq := leAt h 0x10 8, digest := digest }

end Sys2Proof.Machine
end

