-- ==== Sys2Proof/Machine/Boot.lean ====
section
/-! DEFINITION. Starts, resets and the nine stages of bring-up (chapter 15, R428, R432 to R434, R439). -/

namespace Sys2Proof.Machine

/-! ## Losing and starting (R366, R367, R417, R428, R434, R439) -/

/-- Every state of the chip lost. What stands outside it stays: the flash, host memory and the interrupts it got, the
pins, CLK_T, the boundary cells; with them WARM_NEXT, LOCK_LOST (R417) and the right to a warm start.
(DEDUCED: log 86) -/
def State.lost (s : State) : State :=
  { State.reset with
    pending := s.pending
    pins := { State.reset.pins with
      pwrGood := s.pins.pwrGood, sysRstN := s.pins.sysRstN, perstN := s.pins.perstN, bootMode := s.pins.bootMode,
      thermtripN := s.pins.thermtripN, smbAlertN := s.pins.smbAlertN, clkT := s.pins.clkT }
    bar0 := tabSet regReset (tabSet regReset [] 0x1008 (s.reg 0x1008)) 0x800 (setFld 0 37 37 (s.regFld 0x800 37 37))
    host := { HostIf.reset with mem := s.host.mem, msix := s.host.msix, messages := s.host.messages }
    boot := { Boot.reset with
      started := false, flash := s.boot.flash, flashBytes := s.boot.flashBytes, warmEligible := s.boot.warmEligible,
      cold := false }
    board := { State.reset.board with smbusUp := s.board.smbusUp, powerFrom := s.pins.clkT }
    jtag := s.jtag
    freeCount := s.freeCount }

/-- WARM_NEXT and LOCK_LOST at their reset value, no pin driven from a boundary cell, and no warm start: PWR_GOOD has
fallen. (DEDUCED: log 86) -/
def State.unpowered (s : State) : State :=
  let s := s.lost
  { s with
    bar0 := [], board := State.reset.board, jtag := Jtag.reset, boot := { s.boot with warmEligible := false } }

/-- PWR_GOOD rises: CLK_T starts and S0 begins; the board still holds SYS_RST_N and PERST_N low (R432). -/
def execPwrGoodRise (s : State) : Res :=
  .next (
    if s.pins.pwrGood then s
    else
      let s := s.unpowered
      { s with
        pins := { s.pins with pwrGood := true, sysRstN := false, perstN := false, thermtripN := true, clkT := 0 }
        boot := { s.boot with cold := true } })

/-- PWR_GOOD falls: every state is lost, and no interface or pin is driven. -/
def execPwrGoodFall (s : State) : Res :=
  .next (
    if s.pins.pwrGood = false then s
    else
      let s := s.unpowered
      { s with pins := { s.pins with pwrGood := false, thermtripN := true, smbAlertN := true } })

/-- SYS_RST_N asserted: the chip stops; FAULT_N and THERM_ALERT_N are released. -/
def execSysRstNAssert (s : State) : Res :=
  .next (
    if s.pins.sysRstN = false then s
    else
      let s := s.lost
      { s with pins := { s.pins with sysRstN := false } })

/-- Microseconds since PWR_GOOD, counted on CLK_T (R371). -/
def State.us (s : State) : Nat := s.pins.clkT / 100

/-- The time that a stage takes passes. (DEDUCED: log 86) -/
def State.elapse (s : State) (us : Nat) : State :=
  { s with pins := { s.pins with clkT := s.pins.clkT + 100 * us, fabNs := s.pins.fabNs + 1000 * us } }

/-! ## Stage records (R368, R371) -/

def bootReport : Nat := 0x1000
def bootRec (st : Nat) : Nat := 0x1040 + 0x40 * st

/-- Results of Table 15.3. -/
def Rs.running : Nat := 1
def Rs.pass : Nat := 2
def Rs.degraded : Nat := 3
def Rs.fail : Nat := 4

/-- The 48 DETAIL bytes from (offset in the record, size, value). -/
def detailBytes (l : List (Nat × Nat × Nat)) : Bytes :=
  l.foldl (fun b x => setLe b (x.1 - 0x10) x.2.1 x.2.2) (zeros 48)

/-- Write a stage's record and update BOOT_REPORT with it. -/
def State.stageRecord (s : State) (st result : Nat) (status : Status) (dur : Nat) (detail : Bytes) : State :=
  let b := leBytes 1 st ++ leBytes 1 result ++ leBytes 2 status.toNat ++ leBytes 4 dur ++ leBytes 8 s.boot.startUs ++
    fitBytes 48 detail
  let s := (List.range 8).foldl (fun s i => s.setReg (bootRec st + 8 * i) (wordOf (b.drop (8 * i)))) s
  let s := ((s.setRegFld bootReport 3 0 st).setRegFld bootReport 7 4 result).setRegFld bootReport 63 48 status.toNat
  if result = Rs.degraded then s.setRegFld bootReport (32 + st) (32 + st) 1 else s

/-- A stage begins. (DEDUCED: log 86) -/
def State.stageBegin (s : State) (st : Nat) : State :=
  ({ s with boot := { s.boot with stage := st, startUs := s.us } }).stageRecord st Rs.running St.ok 0 []

/-- A stage ends, and the next one begins. (DEDUCED: log 86) -/
def State.stageEnd (s : State) (st : Nat) (degraded : Bool) (status : Status) (detail : Bytes) : State :=
  (s.stageRecord st (if degraded then Rs.degraded else Rs.pass) status (s.us - s.boot.startUs) detail).stageBegin
    (st + 1)

/-- SCOPE of every partition (R258). (DEDUCED: log 87) -/
def State.setScope (s : State) (v : Nat) : State := (List.finRange 16).foldl (fun s p => s.setRegFld (pcfgOff p) 4 4 v) s

/-- A stage meets a fatal condition (R369): the event is raised where the host link is up, the chip has failed, and the
partitions are in TEST_RECOVERY. (DEDUCED: log 86) -/
def State.stageFatal (s : State) (st : Nat) (detail : Bytes) : State :=
  let s := (s.stageRecord st Rs.fail St.ok (s.us - s.boot.startUs) detail).setScope 1
  let s := { s.setRegFld bootReport 19 19 1 with boot := { s.boot with fatal := true } }
  (if s.host.up then s.raise Ev.stageFatal St.ok 20 else s).chipFail Ev.stageFatal

/-- Whether stage `st` is the one that runs. -/
def State.stageDue (s : State) (st : Nat) : Bool :=
  s.boot.started && decide (s.boot.stage = st) && !s.boot.fatal && s.pins.pwrGood && s.pins.sysRstN

/-- SYS_RST_N deasserted: BOOT_MODE is sampled and a start begins; S0 of a start after power-up has run since PWR_GOOD
rose. Boundary-scan instructions that need SYS_RST_N low act as BYPASS from now on (R441). -/
def execSysRstNDeassert (bootMode : BitVec 2) (s : State) : Res :=
  .next (
    if s.pins.sysRstN ∨ s.pins.pwrGood = false then s
    else
      let j := s.jtag
      let keeps := j.insn = .bypass ∨ j.insn = .idcode ∨ j.insn = .samplePreload
      let s := { s with
        pins := { s.pins with sysRstN := true, bootMode := bootMode }
        jtag := if keeps then j else { j with effect := .bypass, driven := false, floating := false, data := 0 } }
      -- after THERMTRIP the chip holds itself in reset until PWR_GOOD falls, with FAULT_N low (R437)
      if s.pins.thermtripN = false then { s with pins := { s.pins with faultN := false, smbAlertN := false } }
      else
      let cold := s.boot.cold
      let s := { s with boot := { s.boot with started := true, cold := false } }.stageBegin 0
      if cold then { s with boot := { s.boot with startUs := 0 } }.stageRecord 0 Rs.running St.ok 0 [] else s)

/-! ## S0 -/

/-- An attempt to lock the root PLL. S0 is not left without lock; it retries every 10 ms. At its end the start mode is
known (R365, R366) and WARM_NEXT cleared. -/
def State.rootLock (s : State) (locked : Bool) (us : Nat) : State :=
  if s.stageDue 0 = false then s
  else
    let s := s.elapse us
    if locked = false then s
    else
      let mode := s.pins.bootMode.toNat
      let next := s.regBit 0x1008 0
      let b := s.boot
      let warm := !b.forceFull && b.warmEligible && (decide (mode = 1) || (decide (mode = 0) && next))
      let s := { s with
        boot := { b with warm := warm, fullTest := !warm, recovery := !b.forceFull && decide (mode = 2) }
        board := { s.board with smbusUp := true }
        pins := { s.pins with faultN := !s.regBit 0x708020 1 } }
      let s := (s.setReg 0x1008 0).setRegFld 0x800 1 0 3
      let s := (s.setRegFld bootReport 16 16 (b2n warm)).setRegFld bootReport 9 8 mode
      s.stageEnd 0 false St.ok (detailBytes [(0x10, 4, s.us - s.boot.startUs), (0x14, 1, mode),
        (0x15, 1, b2n warm + 2 * b2n b.warmEligible + 4 * b2n next)])

/-- DEDUCED: log 86. -/
def execStageS0 (rootLocked : Bool) (us : Nat) (s : State) : Res := .next (s.rootLock rootLocked us)

def execRootLockRetry (rootLocked : Bool) (us : Nat) (s : State) : Res := .next (s.rootLock rootLocked us)

/-! ## S1 -/

/-- Customer keys in use, bit i − 1 for key i. -/
def custKeys (c : Cfg) : Nat := ((List.range 8).map fun i => if (tabFind c.keys (i + 1)).isSome then 2 ^ i else 0).sum

/-- The configuration in use takes effect: node id, PTP settings, the security registers. -/
def State.useCfg (s : State) (c : Cfg) (idOk : Bool) : State :=
  let s := { s with boot := { s.boot with cfg := c, idOk := idOk } }
  let s := s.modFab fun f => { f with node := c.node }
  let w := b2n c.defaulted + 2 * b2n idOk + 4 * b2n c.requireCustomer + 8 * b2n c.flashLock + 256 * c.cause +
    65536 * custKeys c
  let s := ((s.setReg 0x600000 (BitVec.ofNat 64 w)).setReg 0x600008 (BitVec.ofNat 64 c.seq)).setReg 0x600010 c.check
  let s := (s.setRegFld bootReport 18 18 (b2n idOk)).setRegFld bootReport 17 17 (b2n c.defaulted)
  match c.ptp with
  | none => s
  | some (d, p1, p2) => s.setReg 0x30A010 (BitVec.ofNat 64 (d + 256 * p1 + 65536 * p2))

/-- The voltage that the speed monitors ask for, plus 15 mV, within 0.70 to 0.80 V (R430). -/
def hubTarget (t : Int) : Nat := max 700 (min 800 (Config.speedMonitorMillivolts t + 15))

/-- The request of S1, for 105 °C; whether the regulator acknowledges it is a free value (R430). (DEDUCED: log 89) -/
def Board.start (b : Board) (n : Nat) : Board :=
  let want := hubTarget 840
  if Config.startAck n then { b with avsOn := true, wantMv := want, unacked := false, hubMv := want, covers := 840 }
  else { b with avsOn := true, wantMv := want, unacked := true }

/-- The device identity (R384): `corrected` tells whether the helper data stands and corrected the PUF response, and
`response` is what it gave. The seed of the key pair, and the digest of its public key where that is the one that the identity
region holds. (DEDUCED: log 87) -/
def State.identity (s : State) (corrected : Bool) (response : Bytes) : Bytes × Option Bytes :=
  let seed := (sha3_512 response).take 32
  let d := sha3_512 (MlDsa.keyGen seed).pk
  (if corrected then seed else [], if corrected && decide (memRead s.boot.flash Config.idDigestPlace 64 = d) then some d else none)

/-- S1: self-checks, identity, configuration. The host port trains from its end (R370), and VDD_HUB adapts (R430).
(DEDUCED: log 87) -/
def execStageS1 (romOk secOk flashOk corrected : Bool) (response : Bytes) (us : Nat) (s : State) : Res :=
  .next (
    if s.stageDue 1 = false then s
    else
      let s := s.elapse us
      if !(romOk && secOk) then s.stageFatal 1 (detailBytes [(0x10, 1, b2n romOk)])
      else
        let c :=
          if s.boot.recovery then cfgDefaults 7
          else if flashOk = false then cfgDefaults 1
          else readCfg (memRead s.boot.flash)
        let key := s.identity (corrected && flashOk) response
        let id := key.2.isSome
        let s := s.useCfg c id
        let s := s.setReg 8 (wordOf ((key.2.getD []).take 8))
        let s := s.setReg 0x600018 (if flashOk then Config.certPlace else 0)
        let s := { s with
          boot := { s.boot with flashOk := flashOk, idDigest := key.2.getD [], deviceSeed := key.1 }
          board := s.board.start s.freeCount
          freeCount := s.freeCount + 1 }
        let s := if id then s else s.raise Ev.idFailed St.idUnavailable 20
        let s := if c.defaulted then s.raise Ev.cfgDefaulted St.cfgDefaulted 20 else s
        let s := s.setScope 1
        let s := if s.pins.perstN then s.modHost fun h => { h with training := true } else s
        s.stageEnd 1 false (if id = false then St.idUnavailable else if c.defaulted then St.cfgDefaulted else St.ok)
          (detailBytes [(0x10, 1, 1), (0x11, 1, c.cause), (0x12, 1, custKeys c), (0x13, 1, b2n id),
            (0x14, 4, c.bodyBytes), (0x18, 8, c.seq), (0x20, 8, c.check.toNat)]))

/-! ## S2 and S3 -/

def passingTest : PartTest := { cores := [], badRows := [], holdOk := true, droverOk := true }

/-- How many bits of a word are set. -/
def countBits {n : Nat} (w : BitVec n) : Nat := ((List.range n).filter fun i => bitOf w i).length

/-- The numbering of a start differs from the one with nothing absent: NUMBERING announces it (R345). (DEDUCED: log 86) -/
def State.announceNumbers (s : State) (p : PartId) : State :=
  let x := s.part p
  if x.st = .failed ∨ (x.presentCores = 128 ∧ x.mxAbsent = 0) then s
  else s.raise Ev.numbering St.ok p.val 0xFF 0 (s.numberingDetail p)

/-- S2: partitions are numbered from their tests; one that fails enters FAILED. -/
def execStageS2 (hubOk : Bool) (parts : List PartTest) (us : Nat) (s : State) : Res :=
  .next (
    if s.stageDue 2 = false then s
    else
      let s := s.elapse us
      let test := fun p : PartId => parts.getD p.val passingTest
      let s := (List.finRange 16).foldl (fun s p =>
        s.modPart p fun x =>
          { x.numbered (test p) with st := if testPasses (test p) then .vacant else .failed }) s
      let s := (List.finRange 16).foldl State.announceNumbers s
      let ps := (List.finRange 16).map s.part
      let sum := fun f : Part → Nat => (ps.map f).sum
      let failed := ((List.finRange 16).map fun p => if testPasses (test p) then 0 else 2 ^ p.val).sum
      let absent := sum fun x => 128 - x.presentCores
      let units := sum fun x => countBits x.mxAbsent
      let d := detailBytes [(0x10, 2, failed), (0x12, 2, sum fun x => countBits x.spareUsed), (0x14, 2, absent),
        (0x16, 1, units), (0x17, 1, sum fun x => countBits x.mxSpare)]
      if hubOk = false ∨ failed = 65535 then s.stageFatal 2 d
      else s.stageEnd 2 (decide (failed ≠ 0 ∨ absent ≠ 0 ∨ units ≠ 0)) St.ok d)

/-- S3: the six die-to-die links train, or the start fails. -/
def execStageS3 (linksUp : BitVec 6) (retrains : BitVec 16) (us : Nat) (s : State) : Res :=
  .next (
    if s.stageDue 3 = false then s
    else
      let s := s.elapse us
      let d := detailBytes [(0x10, 1, linksUp.toNat), (0x12, 2, retrains.toNat)]
      if linksUp = 0x3F then s.stageEnd 3 false St.ok d else s.stageFatal 3 d)

/-! ## S4 and S5 -/

/-- k of a warm start's sample; 0 for a full test. (DEDUCED: log 87) -/
def State.sampleLog2 (s : State) : Nat := if s.boot.warm then s.boot.cfg.warmSample else 0

/-- A near frame is retired for an error that ECC does not correct, or for more than 16 corrected errors (R373). -/
def frameBad (f : FrameMarch) : Bool := f.uncorrected || decide (16 < f.corrected)

/-- S4: the MUs train, and frames that the march finds bad are retired; a warm start tests a sample whose residue is
drawn at random (R373). (DEDUCED: log 87) -/
def execStageS4 (trained nbuBad : BitVec 32) (march : List FrameMarch) (eccCorr : Word) (us : Nat) (s : State) :
    Res :=
  .next (
    if s.stageDue 4 = false then s
    else
      let s := s.elapse us
      let k := s.sampleLog2
      let r := Config.warmDraw s.freeCount % 2 ^ k
      let s := { s with freeCount := s.freeCount + 1 }
      let bad := rising (((march.filter frameBad).map (·.frame.toNat)).filter fun f => decide (f % 2 ^ k = r))
      let s := (List.range 32).foldl (fun s m =>
        ((s.setMu m { s.mu m with trained := bitOf trained m }).markNbu m (bitOf nbuBad m)).setRegFld (muBase m) 15 8
          s.boot.cfg.rate) s
      let s := { s.setRegFld 0x800 2 2 (b2n (decide (trained = BitVec.allOnes 32))) with
        tier := { s.tier with retired := bad } }
      let d := detailBytes [(0x10, 1, s.boot.cfg.rate), (0x11, 1, k), (0x14, 4, trained.toNat), (0x18, 4, nbuBad.toNat),
        (0x1C, 4, bad.length), (0x20, 8, eccCorr.toNat)]
      let many := (List.range 32).any fun m => decide (64 < (bad.filter fun f => f / 2048 = m).length)
      if trained ≠ BitVec.allOnes 32 ∨ many ∨ bad.any fun f => decide (nearMappable ≤ f) then s.stageFatal 4 d
      else s.stageEnd 4 (decide (bad ≠ [] ∨ nbuBad ≠ 0)) St.ok d)

/-- The first 96 GiB of a device are used. -/
def deviceBytes : Nat := 103079215104

/-- The port registers that the configuration gives are loaded, the status word aside; a defaulted node's ports keep
ENABLE clear (R380). -/
def State.loadPorts (s : State) : State :=
  s.boot.cfg.ports.foldl (fun s x =>
    x.2.zipIdx.foldl (fun s w =>
      if w.2 = 1 then s
      else s.setReg (0x300000 + 0x100 * x.1 + 8 * w.2)
        (w.1 &&& fieldsMask ((regFields (0x300000 + 0x100 * x.1 + 8 * w.2)).getD []))) s) s

/-- S5 ends: ports of `good` whose whole interleave group is good are in use (R233). S6 begins, for which the fabric port
registers are loaded. -/
def State.farDone (s : State) (good : BitVec 24) (badBlocks : Nat) : State :=
  let w := s.ways
  let groups := List.range (24 / w)
  let up := fun g => (groupPorts w g).all fun k => bitOf good k
  let s := (List.range 24).foldl (fun s k => s.setCxl k { s.cxlPort k with present := up (k / w) }) s
  let mask := ((List.range 24).map fun k => if up (k / w) then 2 ^ k else 0).sum
  let absent := (groups.map fun g => if up g then 0 else 2 ^ g).sum
  let frames := 49152 * (List.range 24).countP fun k => up (k / w)
  let s := { s with boot := { s.boot with retention := false } }
  (s.stageEnd 5 (decide (absent ≠ 0)) St.ok (detailBytes [(0x10, 4, mask), (0x14, 1, s.boot.cfg.farIlv),
    (0x15, 1, s.sampleLog2), (0x16, 2, absent), (0x18, 4, frames), (0x1C, 4, badBlocks)])).loadPorts

/-- S5: the devices found are enumerated and marched. A full start then waits RETENTION_S for its pattern.
(DEDUCED: log 87) -/
def execStageS5 (devices : List CxlDevice) (us : Nat) (s : State) : Res :=
  .next (
    if s.stageDue 5 = false ∨ s.boot.retention then s
    else
      let s := (s.elapse us).setRegFld 0x208000 35 32 s.boot.cfg.farIlv
      let s := s.setRegFld 0x800 36 13 0xFFFFFF
      let s := devices.foldl (fun s d =>
        (s.setCxl d.port.val { s.cxlPort d.port.val with up := true, serial := d.serial, dirtyCnt := d.dirty }).cxlLink
          d.port.val d.width.toNat d.rate.toNat) s
      let ok := devices.filter fun d => decide (deviceBytes ≤ d.bytes) && d.marchOk
      let good := BitVec.ofNat 24 ((List.finRange 24).map fun k => if (ok.map (·.port)).contains k then 2 ^ k.val else 0).sum
      if s.boot.fullTest then { s with boot := { s.boot with retention := true, farPresent := good } }
      else s.farDone good 0)

/-- RETENTION_S later the pattern is read back: a device that lost any of it is absent (R374). -/
def execRetentionWaitExpiry (badPorts : BitVec 24) (badBlocks : BitVec 32) (us : Nat) (s : State) : Res :=
  .next (
    if s.stageDue 5 = false ∨ s.boot.retention = false then s
    else (s.elapse us).farDone (s.boot.farPresent &&& ~~~badPorts) badBlocks.toNat)

/-! ## S6 to S8 -/

/-- S6 ends: the enabled ports have trained as far as they do, and a node that is not the manager sends its JOIN.
(DEDUCED: log 87) -/
def execStageS6 (us : Nat) (s : State) : Res :=
  .next (
    if s.stageDue 6 = false then s
    else
      let s := (s.elapse us).setRegFld 0x800 12 5 0xFF
      let c := s.boot.cfg
      let up := fun k : PortId => (s.port k).up
      let mask := ((List.finRange 8).map fun k => if up k then 2 ^ k.val else 0).sum
      let down := (List.finRange 8).any fun k => s.regBit (portBase k) 0 && !up k
      let join := if c.system = false then 3 else if c.node = c.mgr then 2 else if mask = 0 then 0 else 1
      let s := if join = 1 then s.sendJoin else s
      s.stageEnd 6 down St.ok (detailBytes [(0x10, 1, mask), (0x11, 1, b2n s.fab.locked + 2 * b2n s.fab.holdover),
        (0x12, 1, join), (0x18, 8, (s.reg 0x30A008).toNat)]))

/-- What S7 has found so far. -/
structure BootImages where
  s : State
  staged : Nat
  refused : Nat
  first : Status

/-- One BOOT_IMAGE record: its image is read and checked; where it passes it is staged for every partition of its mask
that did not fail, and where it is refused the same partitions' REFUSED bits are set (R383). No byte past IMAGE_BYTES is
read. -/
def bootImage (b : BootImages) (x : Nat × Nat × BitVec 16) : BootImages :=
  let s := b.s
  let rd := fun o n => if x.2.1 < o + n then .error St.imgMalformed else s.rdFlash x.1 o n
  let live := ((List.finRange 16).map fun p =>
    if bitOf x.2.2 p.val && decide ((s.part p).st ≠ .failed) then 2 ^ p.val else 0).sum
  match s.checkImage x.1 true rd with
  | .ok img => { b with s := s.stage img live, staged := b.staged + live }
  | .error st =>
    { b with
      s := s.raise Ev.bootImageRefused st 20, refused := b.refused + live,
      first := if b.first = St.ok then st else b.first }

/-- DEDUCED: log 87. -/
def execStageS7 (us : Nat) (s : State) : Res :=
  .next (
    if s.stageDue 7 = false then s
    else
      let s := s.elapse us
      let b := s.boot.cfg.images.foldl bootImage ⟨s, 0, 0, St.ok⟩
      b.s.stageEnd 7 false b.first (detailBytes [(0x10, 1, s.boot.cfg.images.length), (0x12, 2, b.staged),
        (0x14, 2, b.refused), (0x16, 2, b.first.toNat)]))

/-- The role a node's route keeper begins with (R375, R380). -/
def startRole (c : Cfg) : RkRole :=
  if c.defaulted then .none
  else if c.system && decide (c.node = c.mgr) then .manager
  else if c.system && c.stbyValid && decide (c.node = c.stby) then .standby
  else .worker

/-- The nine stage records. -/
def State.recordBytes (s : State) : Bytes := ((List.range 72).map fun i => wordBytes (s.reg (0x1040 + 8 * i))).flatten

/-- What no start preserves is not held at S8: page table entries, images, adapters, tariff mappings (R367). A boot image that
S7 staged and a route book that came since S6 are this start's own. (DEDUCED: log 86) -/
def State.cleared (s : State) : State :=
  let s := { s with spt := [], adapters := State.reset.adapters, meter := State.reset.meter }
  (List.finRange 16).foldl (fun s p => s.modPart p fun x => { x with curJob := none, drv := { x.drv with image := none } }) s

/-- S8: the node is ready. (DEDUCED: log 87) -/
def execStageS8 (us : Nat) (s : State) : Res :=
  .next (
    if s.stageDue 8 = false ∨ s.boot.ready then s
    else
      let s := ((s.elapse us).cleared).setScope 0
      let s := (List.finRange 16).foldl (fun s p =>
        (s.modPart p fun x => { x with st := if x.st = .failed then .failed else .vacant }).hsZero p) s
      let vacant := ((List.finRange 16).map fun p => if (s.part p).st = .vacant then 2 ^ p.val else 0).sum
      let role := startRole s.boot.cfg
      let s := s.modMgr fun g => { g with role := role }
      let s := s.stageRecord 8 Rs.pass St.ok (s.us - s.boot.startUs) (detailBytes [(0x10, 2, vacant),
        (0x12, 1, b2n (decide (role = .manager)) + 2 * b2n (decide (role = .standby))), (0x18, 8, s.us)])
      let s := { s with
        boot := { s.boot with
          ready := true, warmEligible := s.boot.fullTest || s.boot.warmEligible, bootDigest := sha3_512 s.recordBytes }
        pins := { s.pins with faultN := s.pins.faultN || !s.regBit 0x708020 1 } }
      s.raise Ev.nodeReady St.ok 20)

end Sys2Proof.Machine
end

