-- ==== Sys2Proof/Machine/Board.lean ====
section
/-! DEFINITION. Clocks, supply, temperature, board management, boundary scan (R420, R428, R430, R436 to R438, R441,
R442). -/

namespace Sys2Proof.Machine

/-! ## Temperature (R420, R436) -/

/-- A die temperature in units of 0.125 °C; a die that has not reported reads 0x8000, the least value. -/
def tempOf (w : BitVec 16) : Int := w.toInt

/-- The readings of the seven dies: hub, B0 to B3, W, E (Table 18.4). -/
def State.dieTemps (s : State) : List (BitVec 16) :=
  let a := s.reg 0x818
  let b := s.reg 0x820
  [a, a >>> 16, a >>> 32, a >>> 48, b, b >>> 16, b >>> 32].map fun w => w.setWidth 16

def State.hottest (s : State) : Int := (s.dieTemps.map tempOf).foldl max (-32768)

/-- THERM_ALERT_N: driven low when a die reaches TEMP_HIGH, released when every die is 5 °C below it. SMB_ALERT_N falls
with it. (DEDUCED: log 89) -/
def State.thermCheck (s : State) : State :=
  let hi := tempOf s.board.tempHigh
  if hi ≤ s.hottest ∧ s.pins.thermAlertN then
    { s with pins := { s.pins with thermAlertN := false, smbAlertN := false } }
  else if s.hottest ≤ hi - 40 then { s with pins := { s.pins with thermAlertN := true } }
  else s

/-- A rising request is still not acknowledged when the hottest die reaches the temperature that the acknowledged
voltage covers: HUB_VOLTAGE, and the chip fails (R430). (DEDUCED: log 89) -/
def State.hubCheck (s : State) (t : Int) : State :=
  if s.board.unacked ∧ s.board.hubMv < s.board.wantMv ∧ s.board.covers ≤ t ∧ s.regBit 0x708020 1 = false then
    (s.raise Ev.hubVoltage St.ok 20).chipFail Ev.hubVoltage
  else s

def execTempRefresh (temps : List (BitVec 16)) (s : State) : Res :=
  .next (
    if s.clocked = false then s
    else
      let t := fun i => (temps.getD i 0x8000).toNat
      let s := s.setReg 0x818 (BitVec.ofNat 64 (t 0 + t 1 * 2 ^ 16 + t 2 * 2 ^ 32 + t 3 * 2 ^ 48))
      let s := s.setReg 0x820 (BitVec.ofNat 64 (t 4 + t 5 * 2 ^ 16 + t 6 * 2 ^ 32))
      s.thermCheck.hubCheck s.hottest)

/-- A die reaches 115 °C: the chip stops and holds itself in reset until PWR_GOOD falls. FAULT_N stays released while
SYS_RST_N is low (R439). (DEDUCED: log 89) -/
def execThermtrip (s : State) : Res :=
  .next (
    if s.pins.pwrGood = false then s
    else
      let s := s.lost
      { s with
        pins := { s.pins with
          thermtripN := false, faultN := !s.pins.sysRstN, smbAlertN := s.pins.smbAlertN && !s.pins.sysRstN }
        boot := { s.boot with warmEligible := false } })

/-! ## Root lock (R428) -/

/-- The root PLL loses lock: an internal reset, then a FULL start at S0 with LOCK_LOST set and FAULT_N low until the
first stage boundary. (DEDUCED: log 89) -/
def execRootLockLoss (s : State) : Res :=
  .next (
    if s.clocked = false then s
    else
      let s := s.lost
      let s := s.setRegFld 0x800 37 37 1
      let s := { s with
        pins := { s.pins with faultN := false, smbAlertN := false }
        boot := { s.boot with started := true, warmEligible := false, forceFull := true } }
      s.stageBegin 0)

/-! ## VDD_HUB (R430) -/

/-- The junction temperature a request is computed for: 10 °C above the reading, at most 105 °C. -/
def coverTemp (t : Int) : Int := min (t + 80) 840

/-- A request moves at most 5 mV from the voltage acknowledged last. (DEDUCED: log 89) -/
def hubStep (cur target : Nat) : Nat := if cur < target then min target (cur + 5) else max target (cur - 5)

/-- A request for the hottest die's reading `temp`, acknowledged or not. A request that the step limit keeps below what it
aims at leaves the covered temperature as it was. (DEDUCED: log 89) -/
def execAvsAdjust (acked : Bool) (temp : BitVec 16) (s : State) : Res :=
  .next (
    if s.clocked = false ∨ s.board.avsOn = false ∨ tempOf temp ≠ s.hottest then s
    else
      let t := tempOf temp
      let target := hubTarget (coverTemp t)
      let want := hubStep s.board.hubMv target
      let b := s.board
      let covers := if target ≤ want then coverTemp t else b.covers
      let b' :=
        if acked then { b with wantMv := want, unacked := false, hubMv := want, covers := covers }
        else { b with wantMv := want, unacked := true }
      { s with board := b' }.hubCheck t)

/-! ## PPS_OUT (R438) -/

/-- One pulse at each whole second of fabric time. (DEDUCED: log 89) -/
def execPpsPulse (s : State) : Res :=
  let sec := s.pins.fabNs / 1000000000
  .next (if s.clocked ∧ sec ≠ s.pins.ppsAt then { s with pins := { s.pins with pps := s.pins.pps + 1, ppsAt := sec } } else s)

/-! ## SMBus (R442, Table 19.11) -/

/-- A word of the management block (Table 19.11); the power estimate, an average over 1 ms, is a free value from the first
millisecond after reset on. (DEDUCED: log 89) -/
def State.smbusWord (s : State) (cmd : Nat) : BitVec 16 :=
  match cmd with
  | 1 =>
    BitVec.ofNat 16 (s.boot.stage % 16 + 16 * b2n s.boot.fatal + 32 * b2n (!s.pins.thermAlertN) + 64 * s.regFld 0x800 37 37 +
      128 * s.regFld 0x708020 1 1)
  | 2 => BitVec.ofInt 16 s.hottest
  | 3 => s.board.tempHigh
  | 4 => BitVec.ofNat 16 s.board.hubMv
  | 5 => if s.pins.clkT < s.board.powerFrom + 100000 then 0 else Config.powerEstimate s.pins.clkT
  | 6 => 0xA450
  | _ => 0

/-- TEMP_HIGH written: 80 °C to 105 °C, else unchanged. -/
def execSmbusTempHighWrite (v : BitVec 16) (s : State) : Res :=
  .next (
    if s.board.smbusUp = false ∨ v.toNat < 0x280 ∨ 0x348 < v.toNat then s
    else
      let s := { s with board := { s.board with tempHigh := v } }
      if s.clocked then s.thermCheck else s)

def execSmbusAlertResponse (s : State) : Res :=
  .next (if s.board.smbusUp then { s with pins := { s.pins with smbAlertN := true } } else s)

/-! ## Boundary scan (R441) -/

/-- What a command of the test access port does: nothing without power, when no interface is driven (R434).
(DEDUCED: log 89) -/
def State.ifPowered (s t : State) : State := if s.pins.pwrGood then t else s

/-- An instruction that drives or floats the pins takes effect only while SYS_RST_N is low; else it acts as BYPASS,
whose data register is one bit. -/
def State.jtagPins (s : State) (i : JtagInsn) (driven floating : Bool) : State :=
  let on := !s.pins.sysRstN
  s.ifPowered { s with jtag := { s.jtag with
      insn := i, effect := if on then i else .bypass, data := 0, driven := on && driven, floating := on && floating } }

def execBypass (s : State) : Res :=
  .next (s.ifPowered
    { s with jtag := { s.jtag with insn := .bypass, effect := .bypass, data := 0, driven := false, floating := false } })

def execIdcode (s : State) : Res :=
  .next (s.ifPowered { s with jtag := { s.jtag with
    insn := .idcode, effect := .idcode, data := idcodeWord, driven := false, floating := false } })

/-- DEDUCED: log 89. -/
def execSamplePreload (cells : List Bool) (s : State) : Res :=
  .next (s.ifPowered { s with jtag := { s.jtag with
    insn := .samplePreload, effect := .samplePreload, cells := cells, data := 0, driven := false, floating := false } })

def execExtest (s : State) : Res := .next (s.jtagPins .extest true false)
def execClamp (s : State) : Res := .next (s.jtagPins .clamp true false)
def execHighz (s : State) : Res := .next (s.jtagPins .highz false true)
def execExtestPulse (s : State) : Res := .next (s.jtagPins .extestPulse true false)
def execExtestTrain (s : State) : Res := .next (s.jtagPins .extestTrain true false)

end Sys2Proof.Machine
end

