-- ==== Sys2Proof/Machine/Flags.lean ====
section
/-! DEFINITION. The comparisons of CMP and the shifts (Table 4.9). -/

namespace Sys2Proof.Machine

/-- The comparison that COND names: eq, ne, lt, le, gt, ge (signed), ltu, geu (unsigned). -/
def cmpHolds (cond : Nat) (a b : Word) : Bool :=
  match cond with
  | 0 => decide (a = b)
  | 1 => decide (a ≠ b)
  | 2 => a.slt b
  | 3 => a.sle b
  | 4 => b.slt a
  | 5 => b.sle a
  | 6 => a.ult b
  | _ => b.ule a

/-- A shift count: bits [5:0] of the second source. -/
def shiftCount (b : Word) : Nat := fld b 5 0

end Sys2Proof.Machine
end

