-- ==== Sys2Proof/Machine/Control.lean ====
section
/-! DEFINITION. The control opcodes (R123, Table 4.9) and the drover-local move opcodes (R124, Table 4.10). -/

namespace Sys2Proof.Machine

def execNop (p : PartId) (s : State) : Res := .next (s.localOp p 0x00 fun _ d => d)

def execLdi (p : PartId) (s : State) : Res :=
  .next (s.localOp p 0x01 fun c d => d.setSreg c.disp (iDst c.w) (iImm c.w))

def execMov (p : PartId) (s : State) : Res :=
  .next (s.localOp p 0x02 fun c d => d.setSreg c.disp (iDst c.w) (d.sreg c.disp (iSrcA c.w)))

def execAdd (p : PartId) (s : State) : Res := .next (s.aluOp p 0x03 fun a b => a + b)
def execSub (p : PartId) (s : State) : Res := .next (s.aluOp p 0x04 fun a b => a - b)
def execMul (p : PartId) (s : State) : Res := .next (s.aluOp p 0x05 fun a b => a * b)
def execAnd (p : PartId) (s : State) : Res := .next (s.aluOp p 0x06 fun a b => a &&& b)
def execOr (p : PartId) (s : State) : Res := .next (s.aluOp p 0x07 fun a b => a ||| b)
def execXor (p : PartId) (s : State) : Res := .next (s.aluOp p 0x08 fun a b => a ^^^ b)
def execShl (p : PartId) (s : State) : Res := .next (s.aluOp p 0x09 fun a b => a <<< shiftCount b)
def execShr (p : PartId) (s : State) : Res := .next (s.aluOp p 0x0A fun a b => a >>> shiftCount b)

def execCmp (p : PartId) (s : State) : Res :=
  .next (s.localOp p 0x0B fun c d =>
    let b := if iUseImm c.w then iImm c.w else d.sreg c.disp (iSrcB c.w)
    d.setPred c.disp (iDst c.w) (cmpHolds (iCond c.w) (d.sreg c.disp (iSrcA c.w)) b))

/-- The branch target IMM[13:0]. -/
def Ctx.target (c : Ctx) : BitVec 14 := c.w.setWidth 14

/-- DESIGN CHOICE: log 16. -/
def execBr (p : PartId) (s : State) : Res :=
  .next (match s.begin p 0x0C with
    | (s, none) => s
    | (s, some c) => (s.perf p 24).issued c c.target 2)

/-- CALL pushes the next index; the call stack holds 16 entries of both contexts together (Table 3.1).
(DESIGN CHOICE: log 11; DESIGN CHOICE: log 12) -/
def execCall (p : PartId) (s : State) : Res :=
  .next (match s.begin p 0x0D with
    | (s, none) => s
    | (s, some c) =>
      if 16 ≤ (s.drv p).stack.length then s.droverFault c St.stackFault c.pc 0x10
      else (s.modDrv p fun d => { d with stack := (c.disp, c.next) :: d.stack }).issued c c.target 2)

/-- RET pops the newest entry that its context pushed. (DESIGN CHOICE: log 11; DESIGN CHOICE: log 12) -/
def execRet (p : PartId) (s : State) : Res :=
  .next (match s.begin p 0x0E with
    | (s, none) => s
    | (s, some c) =>
      match (s.drv p).stack.find? fun x => x.1 = c.disp with
      | none => s.droverFault c St.stackFault c.pc 0x11
      | some x => (s.modDrv p fun d => { d with stack := d.stack.erase x }).issued c x.2 2)

/-- HALT, main context only. -/
def execHalt (p : PartId) (s : State) : Res :=
  .next (match s.begin p 0x100 with
    | (s, none) => s
    | (s, some c) =>
      if c.disp then s.illegalInsn c 0
      else (s.issued c c.next 1).modDrv p fun d => { d with dstate := .halted, waitRaised := false, waitAt := none })

/-- YIELD, main context only: a waiting packet is taken at once (R101). (DEDUCED: log 14) -/
def execYieldInsn (p : PartId) (s : State) : Res :=
  .next (match s.begin p 0x101 with
    | (s, none) => s
    | (s, some c) =>
      if c.disp then s.illegalInsn c 0
      else
        let s := (((s.perf p 25).issued c c.next 1).modDrv p fun d => { d with waitRaised := false, waitAt := none }).refuseStale p
        match s.nextPacket p true with
        | some (r, k) => s.takePacket p r k
        | none => s)

/-- END, dispatch context only. -/
def execEndInsn (p : PartId) (s : State) : Res :=
  .next (match s.begin p 0x102 with
    | (s, none) => s
    | (s, some c) => if c.disp then (s.issued c c.next 1).endPacket p false else s.illegalInsn c 0)

/-- START, dispatch context only (R107). (DEDUCED: log 10; DESIGN CHOICE: log 12) -/
def execStart (p : PartId) (s : State) : Res :=
  .next (match s.begin p 0x103 with
    | (s, none) => s
    | (s, some c) =>
      if c.disp = false then s.illegalInsn c 0
      else
        match ((s.drv p).image.map (·.entries)).bind fun l => l[fld c.w 4 0]? with
        | none => s.illegalInsn c 0x12
        | some e =>
          (s.modDrv p fun d =>
            { d with mainPc := e, stack := d.stack.filter (·.1), pktStarted := true, fenceMain := none,
                     resume := if d.resume = .faulted then .halted else d.resume }).issued c c.next 1)

/-! ## Drover-local moves -/

/-- The hold-SRAM offset sA + IMM of a drover-local access. -/
def Drover.localAddr (d : Drover) (c : Ctx) : Nat := (d.sreg c.disp (iSrcA c.w) + iImm c.w).toNat

/-- DESC_LD: descriptors F to L from hold SRAM. -/
def execDescLd (p : PartId) (s : State) : Res :=
  .next (match s.begin p 0x1C with
    | (s, none) => s
    | (s, some c) =>
      let a := (s.drv p).localAddr c
      let n := iSrcB c.w + 1 - iDst c.w
      if hsramBytes < a + 32 * n then s.rangeFault c a
      else
        let b := s.hsRead p a (32 * n)
        let load := fun v i => vset v (iDst c.w + i) (BitVec.ofNat 256 (leAt b (32 * i) 32))
        ((s.hsramUse p a (32 * n)).modDrv p fun d => { d with dregs := (List.range n).foldl load d.dregs }).issued c c.next 1)

/-- DESC_ST: descriptors F to L to hold SRAM. -/
def execDescSt (p : PartId) (s : State) : Res :=
  .next (match s.begin p 0x1D with
    | (s, none) => s
    | (s, some c) =>
      let a := (s.drv p).localAddr c
      let n := iSrcB c.w + 1 - iDst c.w
      if hsramBytes < a + 32 * n then s.rangeFault c a
      else
        let b := (List.range n).foldl (fun b i => b ++ leBytes 32 ((s.drv p).dreg (iDst c.w + i)).toNat) []
        ((s.hsWrite p a b).hsramUse p a (32 * n)).issued c c.next 1)

def execLds (p : PartId) (s : State) : Res :=
  .next (match s.begin p 0x1E with
    | (s, none) => s
    | (s, some c) =>
      let a := (s.drv p).localAddr c
      if hsramBytes < a + 8 then s.rangeFault c a
      else
        let v := s.hsWord p a
        ((s.hsramUse p a 8).modDrv p fun d => d.setSreg c.disp (iDst c.w) v).issued c c.next 1)

def execSts (p : PartId) (s : State) : Res :=
  .next (match s.begin p 0x1F with
    | (s, none) => s
    | (s, some c) =>
      let a := (s.drv p).localAddr c
      if hsramBytes < a + 8 then s.rangeFault c a
      else ((s.hsWrite p a (wordBytes ((s.drv p).sreg c.disp (iSrcB c.w)))).hsramUse p a 8).issued c c.next 1)

/-- TIME_RD: fabric time in nanoseconds. -/
def execTimeRd (p : PartId) (s : State) : Res :=
  .next (s.localOp p 0xB2 fun c d => d.setSreg c.disp (iDst c.w) (BitVec.ofNat 64 s.now))

/-! ## Signals (R86 to R90, Table 4.13) -/

/-- SIG_SET: counts of a range of signals written, their FAULT bits cleared (R89). -/
def execSigSet (p : PartId) (s : State) : Res :=
  .next (s.localOp p 0xA0 fun c d =>
    (List.range (iSigHi c.w + 1 - iSigLo c.w)).foldl
      (fun d i => d.setSignal (iSigLo c.w + i) (c.w.setWidth 32) false) d)

/-- WAIT: stalls until gN ≥ sK, then copies the FAULT bit into the predicate (R90). -/
def execWait (p : PartId) (s : State) : Res :=
  .next (match s.begin p 0xA1 with
    | (s, none) => s
    | (s, some c) =>
      let d := s.drv p
      let g := iSigLo c.w
      if waitHolds (d.count g) ((d.sreg c.disp (iReg c.w)).setWidth 32) then
        (s.setDrv p (d.setPred c.disp (iPdst c.w) (d.sfault g))).issued c c.next 1
      else s.stall c (some 3))

/-- FENCE: stalls until every instruction that was issued to the named queues before it has retired (R90).
(DEDUCED: log 18) -/
def execFence (p : PartId) (s : State) : Res :=
  .next (match s.begin p 0xA2 with
    | (s, none) => s
    | (s, some c) =>
      let d := s.drv p
      let mark := (if c.disp then d.fenceDisp else d.fenceMain).getD d.nextUid
      let waits := (List.range 9).any fun q =>
        decide (iQmask c.w / 2 ^ q % 2 = 1) && (d.queue q).any fun e => decide (e.uid < mark)
      let m := if waits then some mark else none
      let s := s.setDrv p (if c.disp then { d with fenceDisp := m } else { d with fenceMain := m })
      if waits then s.stall c (some 3) else s.issued c c.next 1)

/-- FAULT_POP: the oldest record into eight registers, zeros from an empty queue (R97). -/
def execFaultPop (p : PartId) (s : State) : Res :=
  .next (s.localOp p 0xA5 fun c d =>
    let ws := match d.faults with | r :: _ => faultRecWords r | [] => List.replicate 8 0
    let rest := d.faults.drop 1
    let d := (List.range 8).foldl (fun d i => d.setSreg c.disp (iReg c.w + i) (ws.getD i 0)) { d with faults := rest }
    d.setPred c.disp (iPdst c.w) (decide (rest = [])))

/-- SIG_RD: count in [31:0], FAULT bit in [32]. -/
def execSigRd (p : PartId) (s : State) : Res :=
  .next (s.localOp p 0xA6 fun c d =>
    d.setSreg c.disp (iReg c.w)
      (BitVec.ofNat 64 ((d.count (iSigLo c.w)).toNat + b2n (d.sfault (iSigLo c.w)) * 2 ^ 32)))

/-! ## Packets (R101, R102) -/

/-- A drover takes a packet: an AT_YIELD packet at once in RESET, HALTED or FAULTED (at YIELD the instruction itself
takes it), an IMMEDIATE packet also at an issue boundary of the main context. Heads whose job does not own the partition
are refused first. (DEDUCED: log 14) -/
def execDispatchPacketTake (p : PartId) (s : State) : Res :=
  .next (
    let s := s.refuseStale p
    let ds := (s.drv p).dstate
    let idle := ds = .reset ∨ ds = .halted ∨ ds = .faulted
    match s.nextPacket p (decide idle) with
    | none => s
    | some (r, k) => if idle ∨ ds = .running then s.takePacket p r k else s)

/-- A packet ends after its last instruction. -/
def execPacketEnd (p : PartId) (s : State) : Res :=
  .next (
    let d := s.drv p
    match d.pkt with
    | none => s
    | some k => if d.dstate = .dispatch ∧ d.dispPc.toNat = k.insns.length then s.endPacket p false else s)

/-- The completion of the oldest ended packet of which every instruction has retired or been stopped. -/
def execPacketCompletion (p : PartId) (s : State) : Res :=
  .next (
    let d := s.drv p
    match d.ended.find? fun e => !d.entries.any fun q => q.pkt = some e.serial with
    | none => s
    | some e => (s.setDrv p { d with ended := d.ended.erase e }).completePacket e.pkt e.s56 e.s57 e.status)

/-- A dispatch wait is measured while the drover is RUNNING and the packet it would take next is AT_YIELD; it takes the limit
when it begins (R102, R424). (DEDUCED: log 14) -/
def State.measureWait (s : State) (p : PartId) : State :=
  let d := s.drv p
  match s.nextPacket p true with
  | some (r, k) =>
    if d.dstate ≠ .running ∨ k.immediate then s.setDrv p { d with waitAt := none }
    else if d.waitAt.any fun w => w.2.2 = r then s
    else s.setDrv p { d with waitAt := some (s.pins.clkT, s.regFld (ptBase p + 0x1008) 15 0, r) }
  | none => s.setDrv p { d with waitAt := none }

/-- Whether the dispatch wait that is being measured exceeds its limit. (DEDUCED: log 14) -/
def State.waitOver (s : State) (p : PartId) : Bool :=
  match (s.drv p).waitAt with
  | some (t, n, _) => decide (t + 100 * n < s.pins.clkT)
  | none => false

/-- The dispatch wait of a waiting AT_YIELD packet exceeds its limit: one event until the next YIELD or the end of
RUNNING (R102). -/
def execDispatchWaitExpiry (p : PartId) (s : State) : Res :=
  .next (
    let d := s.drv p
    match s.nextPacket p true with
    | some (_, k) =>
      if d.dstate = .running ∧ d.waitRaised = false ∧ k.immediate = false ∧ s.waitOver p then
        (s.setDrv p { d with waitRaised := true }).raise Ev.dispatchWait St.ok p.val
      else s
    | none => s)

end Sys2Proof.Machine
end

