-- ==== Sys2Proof/Machine/Security.lean ====
section
/-! DEFINITION. Flash commands and attestation quotes (R381, R385). -/

namespace Sys2Proof.Machine

def flashCmdOff : Nat := 0x600200
def flashStatOff : Nat := 0x600208
def flashBufOff : Nat := 0x601000

/-- The first `n` bytes of FLASH_BUF. -/
def State.flashBuf (s : State) (n : Nat) : Bytes :=
  (((List.range ((n + 7) / 8)).map fun i => wordBytes (s.reg (flashBufOff + 8 * i))).flatten).take n

/-- Bytes copied into FLASH_BUF from byte 0. -/
def State.setFlashBuf (s : State) (b : Bytes) : State :=
  (List.range ((b.length + 7) / 8)).foldl (fun s i =>
    let old := wordBytes (s.reg (flashBufOff + 8 * i))
    let new := (b.drop (8 * i)).take 8
    s.setReg (flashBufOff + 8 * i) (wordOf (new ++ old.drop new.length))) s

/-- Flash bytes after PROGRAM: erased ones take the value programmed. -/
def programBytes (old new : Bytes) : Bytes :=
  List.zipWith (fun o v => if o = 0xFF then v else Config.programmedOver o v) old new

/-- The bytes a flash command touches: OP, ADDR, LEN. -/
def flashSpan (op addr len : Nat) : Nat × Nat := if op = 2 then (addr / 4096 * 4096, 4096) else (addr, len)

/-- Whether a flash command is refused with OPERAND_RANGE (R381). -/
def State.flashRefused (s : State) (op addr len : Nat) : Bool :=
  let a := (flashSpan op addr len).1
  let n := (flashSpan op addr len).2
  s.boot.flashOk = false || decide (s.boot.flashBytes < a + n) || decide (s.boot.flashBytes ≤ addr) ||
    (decide (op ≠ 0) && (s.boot.cfg.flashLock || (decide (a < 0x20000) && decide (0x10000 < a + n))))

/-- What an accepted flash command does. (DEDUCED: log 88) -/
def State.flashDo (s : State) (op addr len : Nat) : State :=
  let put := fun (s : State) (a : Nat) (b : Bytes) =>
    { s with boot := { s.boot with flash := memWrite s.boot.flash a b } }
  match op with
  | 0 => s.setFlashBuf (memRead s.boot.flash addr len)
  | 1 => put s addr (programBytes (memRead s.boot.flash addr len) (s.flashBuf len))
  | _ => put s (addr / 4096 * 4096) (List.replicate 4096 0xFF)

/-- FLASH_CMD written: ignored while BUSY and before the end of S1. LEN outside 1 to 4,096 keeps the field; a reserved OP
issues no command. (DEDUCED: log 88) -/
def State.flashCmd (s : State) (v : Word) : State :=
  if s.boot.started = false ∨ s.boot.stage < 2 ∨ s.regBit flashStatOff 0 then s
  else
    let s := s.setRegFld flashCmdOff 63 32 (fld v 63 32)
    let s := if 1 ≤ fld v 12 0 ∧ fld v 12 0 ≤ 4096 then s.setRegFld flashCmdOff 12 0 (fld v 12 0) else s
    let op := fld v 15 13
    if 3 ≤ op then s
    else
      let s := s.setRegFld flashCmdOff 15 13 op
      let len := s.regFld flashCmdOff 12 0
      if s.flashRefused op (fld v 63 32) len then s.setRegFld flashStatOff 63 48 St.operandRange.toNat
      else (s.flashDo op (fld v 63 32) len).setRegFld flashStatOff 63 48 St.ok.toNat

def execRead (v : Word) (s : State) : Res := .next (s.flashCmd (setFld v 15 13 0))
def execProgram (v : Word) (s : State) : Res := .next (s.flashCmd (setFld v 15 13 1))
def execErase4k (v : Word) (s : State) : Res := .next (s.flashCmd (setFld v 15 13 2))

/-! ## Quotes (R385, Table 15.11) -/

def quoteCtl : Nat := 0x600148
def quoteBytes : Nat := 6067

/-- One partition's 72 bytes. -/
def State.quotePart (s : State) (p : PartId) : Bytes :=
  match (s.drv p).image with
  | none => zeros 72
  | some img => leBytes 1 1 ++ leBytes 1 img.key ++ zeros 6 ++ fitBytes 64 img.digest

/-- Quote bytes 0x000 to 0x59F. -/
def State.quoteBody (s : State) : Bytes :=
  let c := s.boot.cfg
  let flags := b2n c.defaulted + 2 * b2n s.boot.warm + 4 * b2n c.requireCustomer + 8 * b2n c.flashLock
  let rom := (List.range 64).map Config.romDigest
  let cfgDigest := if c.defaulted then (List.range 64).map Config.romDefaultDigest else fitBytes 64 c.digest
  let nonce := ((List.range 8).map fun i => wordBytes (s.reg (0x600100 + 8 * i))).flatten
  leBytes 4 0x5451584D ++ leBytes 2 1 ++ leBytes 2 flags ++ leBytes 2 c.node.val ++ zeros 6 ++ wordBytes s.capWord ++
    leBytes 8 s.now ++ nonce ++ rom ++ cfgDigest ++ fitBytes 64 s.boot.bootDigest ++
    ((List.finRange 16).map s.quotePart).flatten

/-- Whether every page of a quote is mapped in the near tier. -/
def State.quotePages (s : State) (a : Nat) : Bool :=
  (s.stCheck none a quoteBytes).isNone &&
    (List.range ((a % 2 ^ 21 + quoteBytes - 1) / 2 ^ 21 + 1)).all fun i => !eFar (s.entry (ePage a + i))

/-- The context string of a quote's signature: the ASCII bytes M, X, 1, Q. -/
def quoteContext : Bytes := [0x4D, 0x58, 0x31, 0x51]

/-- GO of QUOTE_CTL: from S8. The signature is ML-DSA.Sign with the device key pair, over the digest of the bytes before it;
the bytes that randomise it are free. The quote ends in the step of its GO, which reads as 0 after it. (DEDUCED: log 88;
DESIGN CHOICE: log 98) -/
def State.quoteGo (s : State) : State :=
  if s.boot.ready = false ∨ s.regBit quoteCtl 1 then s
  else
    let a := s.regFld 0x600140 41 0
    let done := fun (s : State) (st : Status) => s.setRegFld quoteCtl 63 48 st.toNat
    if s.boot.idOk = false then done s St.idUnavailable
    else if s.quotePages a = false then done s St.operandRange
    else
      let b := s.quoteBody
      let m := sha3_512 b
      let rnd := (List.range 32).map (Config.signRandom s.freeCount)
      let sig := (MlDsa.sign (MlDsa.keyGen s.boot.deviceSeed) rnd quoteContext m).getD
        ((List.range sigBytes).map (Config.noSignature s.freeCount))
      done { (s.stWrite none a (b ++ sig)).2 with freeCount := s.freeCount + 1 } St.ok

def execQuoteGo (s : State) : Res := .next s.quoteGo

end Sys2Proof.Machine
end

