-- ==== Sys2Proof/Machine/Registers.lean ====
section
/-! DEFINITION. BAR0 (chapter 18): what a register reads as, host writes and reads, and the event ring's registers
(R401, R408, R411 to R417, R351, R355, R370). -/

namespace Sys2Proof.Machine

/-! ## The event ring (R401, R402, R408) -/

def State.evtHeadDb (s : State) (v : Nat) : State :=
  if s.evtSize ≤ v then s.doorbellRange (evtBase + 0x18) else s.setRegFld (evtBase + 0x18) 15 0 v

def execEvtHeadDb (v : BitVec 16) (s : State) : Res := .next (s.ifReady (s.evtHeadDb v.toNat))

/-- The events held since start-up are written in SEQ order, those below EVT_MIN_SEV aside. (DEDUCED: log 85) -/
def State.evtFlush (s : State) : State :=
  let held := s.events.bootQueue
  let s := { s with events := { s.events with bootQueue := [], everEnabled := true } }
  held.foldl (fun s e => if evSeverity e.event < s.regFld (evtBase + 8) 33 32 then s else s.evtWrite e) s

/-- EVT_CTL written. Enabling the ring sets its head and tail to 0 and its PHASE pass to the first; the first time, the
held events are written. -/
def State.evtCtl (s : State) (lanes v : Word) : State :=
  let off := evtBase + 8
  let new := s.ctlWritten off 5 4 lanes v
  let on := !bitOf (s.reg off) 5 && bitOf new 5
  let s := s.setReg off new
  if on then
    let s := (s.setRegFld (evtBase + 0x10) 15 0 0).setRegFld (evtBase + 0x18) 15 0 0
    let s := { s with events := { s.events with phase := true, unsignalled := 0 } }
    if s.events.everEnabled then s else s.evtFlush
  else s

def execEvtRingEnable (v : Word) (s : State) : Res := .next (s.ifReady (s.evtCtl (BitVec.allOnes 64) v))

/-! ## What a register reads as -/

def pstateCode : PState → Nat
  | .serving => 0 | .vacant => 1 | .offline => 2 | .testing => 3 | .failed => 4

def dstateCode : DState → Nat
  | .reset => 0 | .halted => 1 | .running => 2 | .dispatch => 3 | .faulted => 4 | .switchedOut => 5 | .offline => 6

def roleCode : RkRole → Nat
  | .worker => 0 | .manager => 1 | .standby => 2 | .none => 3

/-- PT_STAT (Table 13.6). -/
def State.viewPtStat (s : State) (p : PartId) (w : Word) : Word :=
  let x := s.part p
  let w := setFld (setFld (setFld w 47 38 x.rowLimit) 37 30 x.presentCores) 29 27 (s.mxPresent p)
  setFld (setFld (setFld w 24 24 (b2n x.curJob.isSome)) 23 20 ((s.jobOf p).getD 0)) 19 17 (pstateCode x.st)

/-- SEQ_STAT (Table 18.6). -/
def State.viewSeqStat (s : State) (p : PartId) : Word :=
  let d := s.drv p
  let w := setFld (setFld (0 : Word) 61 48 d.mainPc.toNat) 45 32 d.dispPc.toNat
  let w := setFld (setFld w 20 16 d.faults.length) 8 8 (b2n d.stalled)
  setFld (setFld w 4 4 (b2n (decide (d.dstate = .dispatch)))) 2 0 (dstateCode d.dstate)

/-- A register of partition `p`'s block, offset `o` in it; `w` is what the register holds. -/
def State.viewPart (s : State) (p : PartId) (o : Nat) (w : Word) : Word :=
  if o = 0x10 then s.viewPtStat p w
  else if 0x100 ≤ o ∧ o < 0x180 then
    let k := (o - 0x100) / 8
    setFld (setFld (0 : Word) 9 9 (b2n (bitOf (s.part p).spareUsed k))) 7 0 (vget (s.part p).absent k 0).toNat
  else if o = 0x1000 then s.viewSeqStat p
  else if o = 0x2000 then setFld w 7 4 (s.part p).mxSpare.toNat
  else w

/-- A register of MU `m`, offset `o` in its 256 bytes (Tables 9.6, 10.6). -/
def State.viewMu (s : State) (m o : Nat) (w : Word) : Word :=
  let x := s.mu m
  if o = 0 then setFld w 0 0 (b2n x.trained)
  else if o = 0x30 then
    let d := s.driverOf m
    let w := setFld (0 : Word) 22 16 (min 64 x.parked.length)
    let w := setFld (setFld (setFld w 13 13 (b2n d.isSome)) 12 12 ((d.map (·.2)).getD 0)) 11 8 ((d.map (·.1)).getD 0)
    setFld (setFld (setFld (setFld w 3 3 (b2n x.absent)) 2 2 (b2n (s.nbRunning m))) 1 1 (b2n x.switching)) 0 0 (b2n x.proc)
  else w

/-- PORT_STAT (Table 11.7). -/
def State.viewPort (s : State) (k : PortId) : Word :=
  let x := s.port k
  setFld (setFld (setFld (setFld (0 : Word) 41 32 x.peer.val) 2 2 (b2n x.up)) 1 1 (b2n x.mismatch)) 0 0 (b2n x.trained)

/-- RK_STAT (Table 18.5). -/
def State.viewRk (s : State) : Word :=
  let g := s.mgr
  let stby := g.cur.bind (·.stby)
  let w := setFld (setFld (setFld (0 : Word) 45 44 (roleCode g.role)) 43 43 (b2n g.prev.isSome)) 42 42 (b2n stby.isSome)
  let w := setFld w 41 32 ((stby.map (·.val)).getD 0)
  setFld (setFld w 31 16 ((g.prev.map (·.epoch.toNat)).getD 0)) 15 0 s.epoch.toNat

/-- PTP_STAT: PTP runs on a port that is up and takes part. (DESIGN CHOICE: log 66) -/
def State.viewPtp (s : State) : Word :=
  let on := (List.finRange 8).any fun k => (s.port k).up && s.regBit (portBase k) 3
  setFld (setFld (setFld (0 : Word) 2 2 (b2n s.fab.holdover)) 1 1 (b2n s.fab.locked)) 0 0 (b2n on)

/-- IMG_STAT with STAGED. -/
def State.viewImg (s : State) (w : Word) : Word :=
  setFld w 31 16 ((List.finRange 16).map fun p => if (s.part p).staged.isSome then 2 ^ p.val else 0).sum

/-- What a register holds, status fields that mirror other state included. -/
def State.view (s : State) (off : Nat) : Word :=
  let w := s.reg off
  if 0x100000 ≤ off ∧ off < 0x200000 then
    s.viewPart (Fin.ofNat 16 ((off - 0x100000) / 0x10000)) (off % 0x10000) w
  else if 0x200000 ≤ off ∧ off < 0x202000 then s.viewMu ((off - 0x200000) / 0x100) (off % 0x100) w
  else if 0x300000 ≤ off ∧ off < 0x300800 then
    if off % 0x100 = 8 then s.viewPort (Fin.ofNat 8 ((off - 0x300000) / 0x100)) else w
  else if 0x30E000 ≤ off ∧ off < 0x316000 then setFld w 0 0 1
  else if 0x400000 ≤ off ∧ off < 0x401800 then
    if off % 0x100 = 0 then
      let c := s.cxlPort ((off - 0x400000) / 0x100)
      setFld (setFld w 14 14 (b2n c.up)) 13 13 (b2n c.present)
    else w
  else if 0x510000 ≤ off ∧ off < 0x510100 then s.pbaWord 0 ((off - 0x510000) / 8)
  else if 0x4001000 ≤ off ∧ off % 0x1000 = 0x400 then s.pbaWord (off / 0x1000 % 0x4000) 0
  else if 0xA000 ≤ off ∧ off < 0xA400 then
    if off % 0x40 = 0x20 then BitVec.ofNat 64 (s.poolFree ((off - 0xA000) / 0x40)) else w
  else
    match off with
    | 0x810 => BitVec.ofNat 64 s.pins.clkT
    | 0x2010 => s.viewRk
    | 0x2018 => BitVec.ofNat 64 s.drainCount
    | 0x208028 => setFld (setFld (0 : Word) 52 32 s.farFree) 16 0 (if (s.mu 31).trained then s.nearFree else 0)
    | 0x208030 => BitVec.ofNat 64 s.farPresentFrames
    | 0x301000 =>
      setFld (setFld (setFld (0 : Word) 41 32 s.boot.cfg.stby.val) 25 16 s.boot.cfg.mgr.val) 9 0 s.fab.node.val
    | 0x301008 => setFld w 1 1 (b2n (s.fab.joined || s.isManager))
    | 0x301010 => s.capWord
    | 0x30A000 => s.viewPtp
    | 0x500000 =>
      setFld (setFld (setFld (0 : Word) 11 8 s.host.rate.toNat) 7 4 s.host.width.toNat) 0 0 (b2n s.host.flit)
    | 0x500210 => s.viewImg w
    | _ => w

/-! ## Where an access of a function lands (R351, R355, R370, Table 14.3) -/

/-- The place a function's BAR0 offset names: a PF offset in its 64 MiB (Table 14.2), or for a VF's MSI-X table one beyond
them. -/
def bar0Place (fn off : Nat) : Option Nat :=
  if fn = 0 then (if off < 0x4000000 then some off else none)
  else
    let k := fn - 1
    if off < 0x10000 then some (0x100000 + 0x10000 * k + off)
    else if 0x11000 ≤ off ∧ off < 0x11080 then some (0x501000 + 0x80 * k + (off - 0x11000))
    else if 0x12000 ≤ off ∧ off < 0x12080 then some (0x502000 + 0x80 * k + (off - 0x12000))
    else if 0x14000 ≤ off ∧ off < 0x14020 then some (0x504000 + 0x20 * k + (off - 0x14000))
    else if 0x14800 ≤ off ∧ off < 0x14820 then some (0x504800 + 0x20 * k + (off - 0x14800))
    else if 0x18000 ≤ off ∧ off < 0x18408 then some (msixOff fn 0 + (off - 0x18000))
    else none

/-- Whether a block answers: all of them from S8, before it the BOOT and SEC blocks from the end of S1.
(DEDUCED: log 81) -/
def State.answers (s : State) (off : Nat) : Bool :=
  s.boot.ready || (decide (2 ≤ s.boot.stage) &&
    ((decide (0x1000 ≤ off) && decide (off < 0x1280)) || (decide (0x600000 ≤ off) && decide (off < 0x602000))))

/-- The ring that a register belongs to. -/
def ringOf (off : Nat) : Option Nat :=
  if 0x501000 ≤ off ∧ off < 0x501800 then some ((off - 0x501000) / 0x20)
  else if 0x502000 ≤ off ∧ off < 0x502800 then some ((off - 0x502000) / 0x20)
  else if 0x504000 ≤ off ∧ off < 0x504200 then some ((off - 0x504000) / 8)
  else if 0x504800 ≤ off ∧ off < 0x504A00 then some ((off - 0x504800) / 8)
  else none

/-- Whether a function's write to a place is taken at all: a VF writes no partition command and no ring but its own; the
PF no ring that a VF owns. (DEDUCED: log 81) -/
def State.mayWrite (s : State) (fn off : Nat) : Bool :=
  match ringOf off with
  | some r => decide (s.ringOwner r = fn)
  | none => decide (fn = 0) || !(decide (0x100000 ≤ off) && decide (off < 0x200000) && decide (off % 0x10000 < 0x1000))

/-- The fields of the register at a place. -/
def placeFields (off : Nat) : Option (List RegField) := regFields off

/-! ## Forwarding entries (R305, R412) -/

def isForward (off : Nat) : Bool := decide (0x308000 ≤ off) && decide (off < 0x309000)

def State.fwdEntry (s : State) (d : Nat) : BitVec 32 := tabGet (fun _ => (0xFFFFFFFF : BitVec 32)) s.fab.fwd d

/-- An entry written: the egress of a path keeps its value where the one written is reserved (R304). -/
def fwdWritten (old new : BitVec 32) : BitVec 32 :=
  (List.range 8).foldl (fun w p =>
    let x := fld new (4 * p + 3) (4 * p)
    if x ≤ 8 ∨ x = 15 then setFld w (4 * p + 3) (4 * p) x else w) old

/-- DEDUCED: log 82. -/
def State.setForward (s : State) (d : Nat) (v : BitVec 32) : State :=
  s.modFab fun b =>
    { b with fwd := tabSet (fun _ => (0xFFFFFFFF : BitVec 32)) b.fwd d (fwdWritten (s.fwdEntry d) v) }

/-! ## Writes -/

/-- The command that a write of PT_CTL issues (R330). -/
def State.ptCtl (s : State) (p : PartId) (v : Word) : State :=
  match fld v 3 0 with
  | 0 => if s.ptBusy p then s else s.setReg (ptBase p) (v &&& 0x1F1F)
  | 1 => s.ptAssign p v
  | 2 => s.ptSwitchOut p v
  | 3 => s.ptSwitchIn p v
  | 4 => s.ptRelease p v
  | 5 => s.ptOffline p v
  | 6 => s.ptRetest p v
  | 7 => s.ptOnline p v
  | _ => s.ptReserved p v

/-- Registers with a field whose write issues a command: they take one 8-byte write (R414).
(DEDUCED: log 82; DEDUCED: log 88) -/
def isCommand (off : Nat) : Bool :=
  [0x2020, 0x9000, 0x208018, 0x301008, 0x32F000, 0x500208, 0x600148, 0x600200, 0x700000, 0x700008].contains off ||
    (decide (0x100000 ≤ off) && decide (off < 0x200000) && decide (off % 0x10000 = 0))

/-- The DRR weights of a port form one field of Table 12.6, which spans both halves. -/
def isWeights (off : Nat) : Bool := decide (0x30C000 ≤ off) && decide (off < 0x30C080)

/-- A register with no behaviour of its own: the access rules alone. -/
def State.plainWrite (s : State) (off : Nat) (lanes v : Word) : State :=
  s.setReg off (fieldsWrite ((placeFields off).getD []) lanes (s.reg off) v)

/-- A register of a partition block, offset `o` in it; `m` is the value the write results in. -/
def State.writePart (s : State) (p : PartId) (o : Nat) (lanes v m : Word) : State :=
  if o = 0 then s.ptCtl p v
  -- a 4-byte write of the reserved half of one of these changes nothing (R414)
  else if (o = 0x1010 ∨ o = 0x4000 ∨ (0x5008 ≤ o ∧ o < 0x5028) ∨ o = 0x7000) ∧ bitOf lanes 0 = false then s
  else if o = 0x1010 then s.mftBaseWrite p m
  else if o = 0x4000 then s.attGeom p (m.setWidth 32)
  else if 0x5008 ≤ o ∧ o < 0x5028 then s.cvCfg p ((o - 0x5008) / 8) m
  else if o = 0x7000 then s.cmpRecBase p m
  else s.plainWrite (ptBase p + o) lanes v

/-- PORT_CTL: clearing ENABLE takes the port down. (DEDUCED: log 91) -/
def State.portCtl (s : State) (k : PortId) (lanes v : Word) : State :=
  let s := s.plainWrite (portBase k) lanes v
  if (s.port k).trained && !s.regBit (portBase k) 0 then s.linkDown k else s

/-- Entries of the admin gate lists (Table 12.6). -/
def isAdminList (off : Nat) : Bool :=
  decide (0x30E000 ≤ off) && decide (off < 0x316000) && decide ((off - 0x30E000) % 0x1000 < 0x800)

/-- Registers of the FAB block with a behaviour of their own. -/
def State.writeFab (s : State) (off : Nat) (lanes v : Word) : State :=
  if off < 0x300800 ∧ off % 0x100 = 0 then s.portCtl (Fin.ofNat 8 ((off - 0x300000) / 0x100)) lanes v
  else if off = 0x301008 then (if bitOf (v &&& lanes) 0 then s.retryJoin else s)
  else if 0x30B000 ≤ off ∧ off < 0x30C000 ∧ off % 0x10 = 0 then
    s.bucketWrite (Fin.ofNat 8 (off / 0x100 % 8)) (off / 0x10 % 8) (decide (0x30B800 ≤ off)) lanes v
  else if 0x30D000 ≤ off ∧ off < 0x30D800 ∧ off % 0x100 = 0 then
    s.gateCtlWrite (Fin.ofNat 8 ((off - 0x30D000) / 0x100)) lanes v
  else if 0x30D000 ≤ off ∧ off < 0x30D800 ∧ off % 0x100 = 8 then
    s.gateAdminWrite (Fin.ofNat 8 ((off - 0x30D000) / 0x100)) off lanes v
  else if isAdminList off then s.gateAdminWrite (Fin.ofNat 8 ((off - 0x30E000) / 0x1000)) off (lanes &&& ~~~(1 : Word)) v
  else s.plainWrite off lanes v

/-- Ring registers. -/
def State.writeRing (s : State) (off r : Nat) (lanes v m : Word) : State :=
  if off = sqOff r + 8 then s.sqCtl r lanes v
  else if off = cqOff r + 8 then s.cqCtl r lanes v
  else if off = sqDbOff r then s.sqTailDb r (fld m 15 0)
  else if off = cqDbOff r then s.cqHeadDb r (fld m 15 0)
  else s.plainWrite off lanes v

/-- The function and the word of its MSI-X table that a place holds. -/
def msixAt (off : Nat) : Option (Nat × Nat) :=
  if 0x508000 ≤ off ∧ off < 0x510000 then some (0, (off - 0x508000) / 8)
  else if 0x4001000 ≤ off ∧ off < 0x4011000 ∧ off % 0x1000 < 0x400 then
    some (off / 0x1000 % 0x4000, off % 0x1000 / 8)
  else none

/-- A word of an MSI-X table: a vector that it unmasks sends what is pending. (PRESUMED: log 9) -/
def State.msixWrite (s : State) (x : Nat × Nat) (off : Nat) (lanes v : Word) : State :=
  (s.plainWrite off lanes v).msixUnmask x.1 (x.2 / 2)

/-- The watermarks: a write whose result has NEAR_LOW_WM not less than NEAR_HIGH_WM leaves both as they are (R248).
(DEDUCED: log 91) -/
def State.watermarkWrite (s : State) (lanes v : Word) : State :=
  let t := s.plainWrite 0x208000 lanes v
  if t.nearLow < t.nearHigh then t else s

/-- A write that R412 and R414 let pass, at a defined register. (DEDUCED: log 82) -/
def State.regWrite (s : State) (off : Nat) (lanes v : Word) : State :=
  let m := (v &&& lanes) ||| (s.reg off &&& ~~~lanes)
  match ringOf off with
  | some r => s.writeRing off r lanes v m
  | none =>
    if 0x100000 ≤ off ∧ off < 0x200000 then
      s.writePart (Fin.ofNat 16 ((off - 0x100000) / 0x10000)) (off % 0x10000) lanes v m
    else if 0x300000 ≤ off ∧ off < 0x320000 then s.writeFab off lanes v
    else if 0x209000 ≤ off ∧ off < 0x209080 then s.pcfgWrite (Fin.ofNat 16 ((off - 0x209000) / 8)) lanes v
    else if 0xA000 ≤ off ∧ off < 0xA400 then
      (if off % 0x40 < 0x20 then s.jobReg ((off - 0xA000) / 0x40) (off % 0x40 / 8) lanes v else s)
    else
      match off with
      | 0x2020 => s.standbyEnable v
      | 0x9000 => if cmdOp v = 0 then s.adLoad v else s.adRetire v
      | 0x208000 => s.watermarkWrite lanes v
      | 0x208018 => s.tierMapA m
      | 0x500208 => s.imgGo v
      | 0x600148 => if bitOf v 0 then s.quoteGo else s
      | 0x600200 => s.flashCmd v
      | 0x700000 => s.mtrMap v
      | 0x700008 => s.mtrCmd v
      | 0x708008 => s.evtCtl lanes v
      | 0x708018 => s.evtHeadDb (fld m 15 0)
      | _ => match msixAt off with
        | some x => s.msixWrite x off lanes v
        | none => s.plainWrite off lanes v

/-- Bits that a write of `size` bytes at an offset reaches, and the value moved to them. -/
def writeLanes (off size : Nat) : Word :=
  if size = 8 then BitVec.allOnes 64 else if off % 8 = 4 then maskBits 64 63 32 else maskBits 64 31 0

def laneValue (off size : Nat) (v : Word) : Word := if size = 4 ∧ off % 8 = 4 then v <<< 32 else v

/-- Bytes of a function's BAR0 (Table 14.2). -/
def bar0Bytes (fn : Nat) : Nat := if fn = 0 then 0x4000000 else 0x20000

/-- Whether an access has one of the sizes and the alignment of R412. (DEDUCED: log 81) -/
def accessOk (off size : Nat) : Bool := (decide (size = 4) || decide (size = 8)) && decide (off % size = 0)

/-- A host write to BAR0. (DEDUCED: log 81) -/
def State.bar0Write (s : State) (fn off size : Nat) (v : Word) : State :=
  if bar0Bytes fn ≤ off then s
  else if accessOk off size = false then s.writeIgnored off
  else
  match bar0Place fn off with
  | none => s
  | some a =>
    if s.answers a = false then s
    else if isForward a then
      let s := s.setForward ((a - 0x308000) / 4) (v.setWidth 32)
      if size = 8 then s.setForward ((a - 0x308000) / 4 + 1) ((v >>> 32).setWidth 32) else s
    else
      let b := a / 8 * 8
      match placeFields b with
      | none => s
      | some fs =>
        if s.mayWrite fn b = false then s
        else if size = 4 ∧ (isCommand b ∨ isWeights b ∨ fs.any RegField.spansHalves) then s.writeIgnored off
        else s.regWrite b (writeLanes off size) (laneValue off size v)

def execRegisterWrite (fn : Fin 17) (offset : Nat) (size : Nat) (v : Word) (s : State) : Res :=
  .next (if s.fnOn fn.val then s.bar0Write fn.val offset size v else s)

/-! ## Reads (R412, R413) -/

/-- What is latched for a function: the offset of the high half and its value. -/
def State.latched (s : State) (fn off : Nat) : Option Nat :=
  let x := tabGet (fun _ => 0) s.host.latch fn
  if x ≠ 0 ∧ (x - 1) / 2 ^ 32 = off then some ((x - 1) % 2 ^ 32) else none

def State.setLatch (s : State) (fn x : Nat) : State :=
  s.modHost fun h => { h with latch := tabSet (fun _ => 0) h.latch fn x }

def State.answer (s : State) (w : Option Word) : State := s.modHost fun h => { h with regAnswer := some w }

/-- A register of RO and RC fields alone latches its high half. (DEDUCED: log 82) -/
def latches (fs : List RegField) : Bool := fs.all fun f => match f with | .ro _ _ _ | .rc _ _ => true | _ => false

/-- An RC register as a clearing read leaves it. -/
def rcCleared (fs : List RegField) (w : Word) : Word :=
  fs.foldl (fun w f => match f with | .rc hi lo => setFld w hi lo 0 | _ => w) w

/-- The read of a defined register: whole, its low half with the latch of its high half, or its high half.
(DESIGN CHOICE: log 80) -/
def State.regRead (s : State) (fn off size : Nat) (fs : List RegField) (b : Nat) (high : Option Nat) : State :=
  let w := s.view b &&& fieldsMask fs
  let clear := fun (s : State) => if hasRc fs then s.setReg b (rcCleared fs (s.reg b)) else s
  if size = 8 then (clear s).answer (some w)
  else if off % 8 = 0 then
    let s := if latches fs then s.setLatch fn ((off + 4) * 2 ^ 32 + fld w 63 32 + 1) else s
    (clear s).answer (some (BitVec.ofNat 64 (fld w 31 0)))
  else s.answer (some (BitVec.ofNat 64 (high.getD (fld w 63 32))))

/-- A host read of BAR0. Any read ends what was latched for its function; one of another size or alignment completes
with Completer Abort. (DEDUCED: log 81) -/
def State.bar0Read (s : State) (fn off size : Nat) : State :=
  let high := s.latched fn off
  let s := s.setLatch fn 0
  if accessOk off size = false then s.answer none
  else
  match bar0Place fn off with
  | none => s.answer (some 0)
  | some a =>
    if s.answers a = false then s.answer (some 0)
    else if isForward a then
      let d := (a - 0x308000) / 4
      let lo := (s.fwdEntry d).toNat
      s.answer (some (BitVec.ofNat 64 (if size = 8 then lo + (s.fwdEntry (d + 1)).toNat * 2 ^ 32 else lo)))
    else
      let b := a / 8 * 8
      match placeFields b with
      | none => s.answer (some 0)
      | some fs => s.regRead fn off size fs b (if size = 4 ∧ latches fs then high else none)

def execRcRegisterRead (fn : Fin 17) (offset : Nat) (size : Nat) (s : State) : Res :=
  .next (if s.fnOn fn.val then s.bar0Read fn.val offset size else s)

end Sys2Proof.Machine
end

