-- ==== Sys2Proof/Machine/Dispatch.lean ====
section
/-! DEFINITION. The dispatch: one arm per command, each one direct call of its meaning. -/

namespace Sys2Proof.Machine

def exec (i : Instr) (s : State) : Host.Outcome State Fault Refusal :=
  match i with
  | .admissionRequest a => Sys2Proof.Machine.execAdmissionRequest a s
  | .standbyMirrorAck => Sys2Proof.Machine.execStandbyMirrorAck s
  | .caravanFrame0 f => Sys2Proof.Machine.execCaravanFrame0 f s
  | .caravanFrame f => Sys2Proof.Machine.execCaravanFrame f s
  | .commitAck src id => Sys2Proof.Machine.execCommitAck src id s
  | .caravanRefusal src id status epoch => Sys2Proof.Machine.execCaravanRefusal src id status epoch s
  | .staleEpochRefusal owner receiver id refused => Sys2Proof.Machine.execStaleEpochRefusal owner receiver id refused s
  | .ownershipNote id phase node owner => Sys2Proof.Machine.execOwnershipNote id phase node owner s
  | .finalManifest m => Sys2Proof.Machine.execFinalManifest m s
  | .promptLogAppend src id index entries => Sys2Proof.Machine.execPromptLogAppend src id index entries s
  | .ownerResend id => Sys2Proof.Machine.execOwnerResend id s
  | .parkLeaseExpiry id => Sys2Proof.Machine.execParkLeaseExpiry id s
  | .sessionClose id => Sys2Proof.Machine.execSessionClose id s
  | .continuationAdmit id tokens gen keep => Sys2Proof.Machine.execContinuationAdmit id tokens gen keep s
  | .managerEvict id => Sys2Proof.Machine.execManagerEvict id s
  | .bookIssue b => Sys2Proof.Machine.execBookIssue b s
  | .bookInstall src b => Sys2Proof.Machine.execBookInstall src b s
  | .caravanReexamine p slot => Sys2Proof.Machine.execCaravanReexamine p slot s
  | .bookAck node epoch status => Sys2Proof.Machine.execBookAck node epoch status s
  | .epochHoldExpiry id => Sys2Proof.Machine.execEpochHoldExpiry id s
  | .epochRetryExpiry => Sys2Proof.Machine.execEpochRetryExpiry s
  | .installTimeout node => Sys2Proof.Machine.execInstallTimeout node s
  | .heartbeatSend => Sys2Proof.Machine.execHeartbeatSend s
  | .managerLossExpiry => Sys2Proof.Machine.execManagerLossExpiry s
  | .cancel src id canceller forwarded => Sys2Proof.Machine.execCancel src id canceller forwarded s
  | .transferAbort src t => Sys2Proof.Machine.execTransferAbort src t s
  | .nodeFailed node => Sys2Proof.Machine.execNodeFailed node s
  | .livenessNote => Sys2Proof.Machine.execLivenessNote s
  | .nodeSilenceExpiry node => Sys2Proof.Machine.execNodeSilenceExpiry node s
  | .failureNote node code => Sys2Proof.Machine.execFailureNote node code s
  | .queueHeadStart p q => Sys2Proof.Machine.execQueueHeadStart p q s
  | .instructionRetire p q extraClk => Sys2Proof.Machine.execInstructionRetire p q extraClk s
  | .remotePostArrival p job g => Sys2Proof.Machine.execRemotePostArrival p job g s
  | .dispatchPacketTake p => Sys2Proof.Machine.execDispatchPacketTake p s
  | .packetEnd p => Sys2Proof.Machine.execPacketEnd p s
  | .packetCompletion p => Sys2Proof.Machine.execPacketCompletion p s
  | .dispatchWaitExpiry p => Sys2Proof.Machine.execDispatchWaitExpiry p s
  | .imageInstall p => Sys2Proof.Machine.execImageInstall p s
  | .nop p => Sys2Proof.Machine.execNop p s
  | .ldi p => Sys2Proof.Machine.execLdi p s
  | .mov p => Sys2Proof.Machine.execMov p s
  | .add p => Sys2Proof.Machine.execAdd p s
  | .sub p => Sys2Proof.Machine.execSub p s
  | .mul p => Sys2Proof.Machine.execMul p s
  | .and p => Sys2Proof.Machine.execAnd p s
  | .or p => Sys2Proof.Machine.execOr p s
  | .xor p => Sys2Proof.Machine.execXor p s
  | .shl p => Sys2Proof.Machine.execShl p s
  | .shr p => Sys2Proof.Machine.execShr p s
  | .cmp p => Sys2Proof.Machine.execCmp p s
  | .br p => Sys2Proof.Machine.execBr p s
  | .call p => Sys2Proof.Machine.execCall p s
  | .ret p => Sys2Proof.Machine.execRet p s
  | .halt p => Sys2Proof.Machine.execHalt p s
  | .yieldInsn p => Sys2Proof.Machine.execYieldInsn p s
  | .endInsn p => Sys2Proof.Machine.execEndInsn p s
  | .start p => Sys2Proof.Machine.execStart p s
  | .dmaCopy p a => Sys2Proof.Machine.execDmaCopy p a s
  | .dmaGather p a => Sys2Proof.Machine.execDmaGather p a s
  | .dmaFill p a => Sys2Proof.Machine.execDmaFill p a s
  | .dmaLds p a => Sys2Proof.Machine.execDmaLds p a s
  | .dmaSts p a => Sys2Proof.Machine.execDmaSts p a s
  | .descLd p => Sys2Proof.Machine.execDescLd p s
  | .descSt p => Sys2Proof.Machine.execDescSt p s
  | .lds p => Sys2Proof.Machine.execLds p s
  | .sts p => Sys2Proof.Machine.execSts p s
  | .acctAdd p a => Sys2Proof.Machine.execAcctAdd p a s
  | .acctRd p a => Sys2Proof.Machine.execAcctRd p a s
  | .timeRd p => Sys2Proof.Machine.execTimeRd p s
  | .mxGemm p a => Sys2Proof.Machine.execMxGemm p a s
  | .mxLora p a => Sys2Proof.Machine.execMxLora p a s
  | .vxAdd p a => Sys2Proof.Machine.execVxAdd p a s
  | .vxMul p a => Sys2Proof.Machine.execVxMul p a s
  | .vxScale p a => Sys2Proof.Machine.execVxScale p a s
  | .vxRmsnorm p a => Sys2Proof.Machine.execVxRmsnorm p a s
  | .vxRope p a => Sys2Proof.Machine.execVxRope p a s
  | .vxSwiglu p a => Sys2Proof.Machine.execVxSwiglu p a s
  | .vxGelu p a => Sys2Proof.Machine.execVxGelu p a s
  | .vxCvt p a => Sys2Proof.Machine.execVxCvt p a s
  | .vxReduce p a => Sys2Proof.Machine.execVxReduce p a s
  | .vxSfu p a => Sys2Proof.Machine.execVxSfu p a s
  | .attBlock p a => Sys2Proof.Machine.execAttBlock p a s
  | .attChunk p a => Sys2Proof.Machine.execAttChunk p a s
  | .scatterKv p a => Sys2Proof.Machine.execScatterKv p a s
  | .scatterChunk p a => Sys2Proof.Machine.execScatterChunk p a s
  | .smpStep p a => Sys2Proof.Machine.execSmpStep p a s
  | .smpGrammar p a => Sys2Proof.Machine.execSmpGrammar p a s
  | .smpCancel p => Sys2Proof.Machine.execSmpCancel p s
  | .mfRd p => Sys2Proof.Machine.execMfRd p s
  | .mfPhase p => Sys2Proof.Machine.execMfPhase p s
  | .mfFlag p => Sys2Proof.Machine.execMfFlag p s
  | .mfFree p => Sys2Proof.Machine.execMfFree p s
  | .cvJoin p => Sys2Proof.Machine.execCvJoin p s
  | .cvLeave p => Sys2Proof.Machine.execCvLeave p s
  | .sigSet p => Sys2Proof.Machine.execSigSet p s
  | .wait p => Sys2Proof.Machine.execWait p s
  | .fence p => Sys2Proof.Machine.execFence p s
  | .sigRemote p a => Sys2Proof.Machine.execSigRemote p a s
  | .abort p => Sys2Proof.Machine.execAbort p s
  | .faultPop p => Sys2Proof.Machine.execFaultPop p s
  | .sigRd p => Sys2Proof.Machine.execSigRd p s
  | .fabWr p a => Sys2Proof.Machine.execFabWr p a s
  | .fabRd p a => Sys2Proof.Machine.execFabRd p a s
  | .fabFence p a => Sys2Proof.Machine.execFabFence p a s
  | .fabCaravan p a => Sys2Proof.Machine.execFabCaravan p a s
  | .fabLog p a => Sys2Proof.Machine.execFabLog p a s
  | .nbGemv p a => Sys2Proof.Machine.execNbGemv p a s
  | .nbMode p a => Sys2Proof.Machine.execNbMode p a s
  | .nbSumx p a => Sys2Proof.Machine.execNbSumx p a s
  | .nbAtt p a => Sys2Proof.Machine.execNbAtt p a s
  | .tierMove p a => Sys2Proof.Machine.execTierMove p a s
  | .tierHint p a => Sys2Proof.Machine.execTierHint p a s
  | .tierPin p a => Sys2Proof.Machine.execTierPin p a s
  | .mxUnitParityError p u => Sys2Proof.Machine.execMxUnitParityError p u s
  | .holdSramUncorrectable p offset => Sys2Proof.Machine.execHoldSramUncorrectable p offset s
  | .partitionFault p => Sys2Proof.Machine.execPartitionFault p s
  | .coreSelfCheckFail p core => Sys2Proof.Machine.execCoreSelfCheckFail p core s
  | .attGeomWrite p v => Sys2Proof.Machine.execAttGeomWrite p v s
  | .smpCvCfgWrite p n v => Sys2Proof.Machine.execSmpCvCfgWrite p n v s
  | .adapterLoad a => Sys2Proof.Machine.execAdapterLoad a s
  | .adapterRetire a => Sys2Proof.Machine.execAdapterRetire a s
  | .adapterCheckDone handle slot ok => Sys2Proof.Machine.execAdapterCheckDone handle slot ok s
  | .cmpRecBaseWrite p v => Sys2Proof.Machine.execCmpRecBaseWrite p v s
  | .map a => Sys2Proof.Machine.execMap a s
  | .unmap a => Sys2Proof.Machine.execUnmap a s
  | .clearPoison a => Sys2Proof.Machine.execClearPoison a s
  | .mapZero a => Sys2Proof.Machine.execMapZero a s
  | .migrationAutonomous page => Sys2Proof.Machine.execMigrationAutonomous page s
  | .accessBitSample => Sys2Proof.Machine.execAccessBitSample s
  | .migrationPassEnd page => Sys2Proof.Machine.execMigrationPassEnd page s
  | .oldFrameRelease tierBit frame => Sys2Proof.Machine.execOldFrameRelease tierBit frame s
  | .muCrcFailure m => Sys2Proof.Machine.execMuCrcFailure m s
  | .muRetrainDone m ok => Sys2Proof.Machine.execMuRetrainDone m ok s
  | .refreshDue m => Sys2Proof.Machine.execRefreshDue m s
  | .farReadLate k beyondNs => Sys2Proof.Machine.execFarReadLate k beyondNs s
  | .cxlTimeoutExpiry k => Sys2Proof.Machine.execCxlTimeoutExpiry k s
  | .cxlPortDown k => Sys2Proof.Machine.execCxlPortDown k s
  | .cxlRetrainAttempt k => Sys2Proof.Machine.execCxlRetrainAttempt k s
  | .cxlLinkReturn k serial dirty width rate => Sys2Proof.Machine.execCxlLinkReturn k serial dirty width rate s
  | .parkedAccessArrival m a => Sys2Proof.Machine.execParkedAccessArrival m a s
  | .nbuYield m => Sys2Proof.Machine.execNbuYield m s
  | .nbuYieldEnd m => Sys2Proof.Machine.execNbuYieldEnd m s
  | .modeSwitchComplete m => Sys2Proof.Machine.execModeSwitchComplete m s
  | .nbuPcfgWrite p v => Sys2Proof.Machine.execNbuPcfgWrite p v s
  | .portLinkUp k peer peerMode => Sys2Proof.Machine.execPortLinkUp k peer peerMode s
  | .portLinkDown k => Sys2Proof.Machine.execPortLinkDown k s
  | .frameReceive k f e linkCrcOk stomped => Sys2Proof.Machine.execFrameReceive k f e linkCrcOk stomped s
  | .switchForward k => Sys2Proof.Machine.execSwitchForward k s
  | .switchCombine k => Sys2Proof.Machine.execSwitchCombine k s
  | .creditReturn k c blocks => Sys2Proof.Machine.execCreditReturn k c blocks s
  | .write f => Sys2Proof.Machine.execWrite f s
  | .flaggedLineRelease src unit => Sys2Proof.Machine.execFlaggedLineRelease src unit s
  | .readReq f => Sys2Proof.Machine.execReadReq f s
  | .readResp f => Sys2Proof.Machine.execReadResp f s
  | .ack src entries => Sys2Proof.Machine.execAck src entries s
  | .ackFlush dst => Sys2Proof.Machine.execAckFlush dst s
  | .pathNotice unit seq path dst => Sys2Proof.Machine.execPathNotice unit seq path dst s
  | .pathNoticeExpiry dst path => Sys2Proof.Machine.execPathNoticeExpiry dst path s
  | .pathRestored dst => Sys2Proof.Machine.execPathRestored dst s
  | .replayExpiry unit dst seq => Sys2Proof.Machine.execReplayExpiry unit dst seq s
  | .abandonNotice src unit seq => Sys2Proof.Machine.execAbandonNotice src unit seq s
  | .combineExpiry dst addr lines => Sys2Proof.Machine.execCombineExpiry dst addr lines s
  | .windowIdleRelease src unit => Sys2Proof.Machine.execWindowIdleRelease src unit s
  | .fenceTimeoutExpiry p => Sys2Proof.Machine.execFenceTimeoutExpiry p s
  | .parkRelease src copies => Sys2Proof.Machine.execParkRelease src copies s
  | .ptpMessage k m stampNs slewNs => Sys2Proof.Machine.execPtpMessage k m stampNs slewNs s
  | .ptpMasterLoss => Sys2Proof.Machine.execPtpMasterLoss s
  | .join node caps => Sys2Proof.Machine.execJoin node caps s
  | .joinAnswer status b => Sys2Proof.Machine.execJoinAnswer status b s
  | .retry => Sys2Proof.Machine.execRetry s
  | .frameTxEnd k => Sys2Proof.Machine.execFrameTxEnd k s
  | .schedulerRetest k => Sys2Proof.Machine.execSchedulerRetest k s
  | .refillTick => Sys2Proof.Machine.execRefillTick s
  | .shaperWrite k c policer v => Sys2Proof.Machine.execShaperWrite k c policer v s
  | .change k v => Sys2Proof.Machine.execChange k v s
  | .gateListEffect k => Sys2Proof.Machine.execGateListEffect k s
  | .gateEntryBoundary k => Sys2Proof.Machine.execGateEntryBoundary k s
  | .queueSample => Sys2Proof.Machine.execQueueSample s
  | .clear => Sys2Proof.Machine.execClear s
  | .jobRegisterWrite j reg v => Sys2Proof.Machine.execJobRegisterWrite j reg v s
  | .fabShareWrite j v => Sys2Proof.Machine.execFabShareWrite j v s
  | .assign p v => Sys2Proof.Machine.execAssign p v s
  | .switchOut p v => Sys2Proof.Machine.execSwitchOut p v s
  | .switchIn p v => Sys2Proof.Machine.execSwitchIn p v s
  | .release p v => Sys2Proof.Machine.execRelease p v s
  | .offline p v => Sys2Proof.Machine.execOffline p v s
  | .retest p v => Sys2Proof.Machine.execRetest p v s
  | .retestDone p t nbuOk => Sys2Proof.Machine.execRetestDone p t nbuOk s
  | .online p v => Sys2Proof.Machine.execOnline p v s
  | .ptCtlReservedOp p v => Sys2Proof.Machine.execPtCtlReservedOp p v s
  | .controlForSwitchedJob p j src c => Sys2Proof.Machine.execControlForSwitchedJob p j src c s
  | .mtrMap v => Sys2Proof.Machine.execMtrMap v s
  | .snap v => Sys2Proof.Machine.execSnap v s
  | .dump v => Sys2Proof.Machine.execDump v s
  | .tariffTick => Sys2Proof.Machine.execTariffTick s
  | .bar2Read fn offset len => Sys2Proof.Machine.execBar2Read fn offset len s
  | .bar2Write fn offset data => Sys2Proof.Machine.execBar2Write fn offset data s
  | .sqTailDb r v => Sys2Proof.Machine.execSqTailDb r v s
  | .cqHeadDb r v => Sys2Proof.Machine.execCqHeadDb r v s
  | .ringEnable cq r v => Sys2Proof.Machine.execRingEnable cq r v s
  | .packetPrefetch r data => Sys2Proof.Machine.execPacketPrefetch r data s
  | .coalesceExpiry r => Sys2Proof.Machine.execCoalesceExpiry r s
  | .go v => Sys2Proof.Machine.execGo v s
  | .imageCheckDone => Sys2Proof.Machine.execImageCheckDone s
  | .perstN => Sys2Proof.Machine.execPerstN s
  | .flrPf => Sys2Proof.Machine.execFlrPf s
  | .flrVf k => Sys2Proof.Machine.execFlrVf k s
  | .pwrGoodRise => Sys2Proof.Machine.execPwrGoodRise s
  | .pwrGoodFall => Sys2Proof.Machine.execPwrGoodFall s
  | .sysRstNAssert => Sys2Proof.Machine.execSysRstNAssert s
  | .sysRstNDeassert bootMode => Sys2Proof.Machine.execSysRstNDeassert bootMode s
  | .stageS0 rootLocked us => Sys2Proof.Machine.execStageS0 rootLocked us s
  | .rootLockRetry rootLocked us => Sys2Proof.Machine.execRootLockRetry rootLocked us s
  | .stageS1 romOk secOk flashOk corrected response us => Sys2Proof.Machine.execStageS1 romOk secOk flashOk corrected response us s
  | .stageS2 hubOk parts us => Sys2Proof.Machine.execStageS2 hubOk parts us s
  | .stageS3 linksUp retrains us => Sys2Proof.Machine.execStageS3 linksUp retrains us s
  | .stageS4 trained nbuBad march eccCorr us => Sys2Proof.Machine.execStageS4 trained nbuBad march eccCorr us s
  | .stageS5 devices us => Sys2Proof.Machine.execStageS5 devices us s
  | .retentionWaitExpiry badPorts badBlocks us => Sys2Proof.Machine.execRetentionWaitExpiry badPorts badBlocks us s
  | .stageS6 us => Sys2Proof.Machine.execStageS6 us s
  | .stageS7 us => Sys2Proof.Machine.execStageS7 us s
  | .stageS8 us => Sys2Proof.Machine.execStageS8 us s
  | .read v => Sys2Proof.Machine.execRead v s
  | .program v => Sys2Proof.Machine.execProgram v s
  | .erase4k v => Sys2Proof.Machine.execErase4k v s
  | .quoteGo => Sys2Proof.Machine.execQuoteGo s
  | .evtHeadDb v => Sys2Proof.Machine.execEvtHeadDb v s
  | .evtRingEnable v => Sys2Proof.Machine.execEvtRingEnable v s
  | .standbyEnable v => Sys2Proof.Machine.execStandbyEnable v s
  | .standbyCopyAck node => Sys2Proof.Machine.execStandbyCopyAck node s
  | .seqMftBaseWrite p v => Sys2Proof.Machine.execSeqMftBaseWrite p v s
  | .registerWrite fn offset size v => Sys2Proof.Machine.execRegisterWrite fn offset size v s
  | .rcRegisterRead fn offset size => Sys2Proof.Machine.execRcRegisterRead fn offset size s
  | .tempRefresh temps => Sys2Proof.Machine.execTempRefresh temps s
  | .thermtrip => Sys2Proof.Machine.execThermtrip s
  | .rootLockLoss => Sys2Proof.Machine.execRootLockLoss s
  | .avsAdjust acked temp => Sys2Proof.Machine.execAvsAdjust acked temp s
  | .ppsPulse => Sys2Proof.Machine.execPpsPulse s
  | .smbusTempHighWrite v => Sys2Proof.Machine.execSmbusTempHighWrite v s
  | .smbusAlertResponse => Sys2Proof.Machine.execSmbusAlertResponse s
  | .bypass => Sys2Proof.Machine.execBypass s
  | .idcode => Sys2Proof.Machine.execIdcode s
  | .samplePreload cells => Sys2Proof.Machine.execSamplePreload cells s
  | .extest => Sys2Proof.Machine.execExtest s
  | .clamp => Sys2Proof.Machine.execClamp s
  | .highz => Sys2Proof.Machine.execHighz s
  | .extestPulse => Sys2Proof.Machine.execExtestPulse s
  | .extestTrain => Sys2Proof.Machine.execExtestTrain s
  | .caravanAccept src id slots => Sys2Proof.Machine.execCaravanAccept src id slots s
  | .mirrorCopy m => Sys2Proof.Machine.execMirrorCopy m s
  | .heartbeatReceipt => Sys2Proof.Machine.execHeartbeatReceipt s
  | .livenessNoteReceipt node => Sys2Proof.Machine.execLivenessNoteReceipt node s
  | .appendRefusal id entries => Sys2Proof.Machine.execAppendRefusal id entries s
  | .transitRouterError p => Sys2Proof.Machine.execTransitRouterError p s
  | .perstNDeassert => Sys2Proof.Machine.execPerstNDeassert s
  | .hostLinkUp rate width flit => Sys2Proof.Machine.execHostLinkUp rate width flit s
  | .priorityFlowControl k paused => Sys2Proof.Machine.execPriorityFlowControl k paused s

end Sys2Proof.Machine
end

