-- ==== Sys2Proof/Machine/Idle.lean ====
section
/-! DEFINITION. What happens where no command waits. -/

namespace Sys2Proof.Machine

/-- An idle step: one CLK_T cycle. Dispatch waits are measured over it (R424), the host may configure its functions, and BAR2
reads whose function's writes have become visible are answered (R353). (DESIGN CHOICE: log 5; DESIGN CHOICE: log 83) -/
def State.idleStep (s : State) : State :=
  ((List.finRange 16).foldl State.measureWait s).idle.configure.bar2Drain

end Sys2Proof.Machine
end

