-- ==== Sys2Proof/Safety.lean ====
section
/-! DEFINITION. What a safe state of the MX1 is, and the words the statements use: the canonical form of the memories,
the bounds of its FIFOs, what it means for a command to leave the rest of the state alone, and the condition under which
a drover carries out the instruction at its program counter. -/

namespace Sys2Proof.Machine

/-! ## The canonical form of the memories -/

/-- A byte memory is in canonical form: addresses strictly rising, and no byte listed that an unlisted address reads as. -/
def Memory.wf (m : Tab Byte) : Bool := tabWf memDefault m

/-- Every memory and register file of the block is in canonical form. -/
def State.Canon (s : State) : Prop :=
  tabWf regReset s.bar0 = true ∧ tabWf (fun _ => (0 : Word)) s.spt = true ∧ Memory.wf s.mem.near = true ∧
    Memory.wf s.mem.far = true ∧ Memory.wf s.host.mem = true ∧ Memory.wf s.boot.flash = true ∧
    ∀ p : PartId, Memory.wf (s.part p).hsram = true

/-! ## The bounds of the FIFOs -/

/-- Within the sizes the specification gives: 16 fault records (R97), 16 call-stack entries (Table 3.1) and 32
instructions in each of nine queues (Table 3.2). -/
def Drover.Bounded (d : Drover) : Prop :=
  d.faults.length ≤ 16 ∧ d.stack.length ≤ 16 ∧ ∀ q : Nat, (d.queue q).length ≤ 32

/-- Every FIFO of the block is within its size: those of the drovers, also of a job switched out, and the 32 events
held until the event ring is first enabled (R402). -/
def State.Bounded (s : State) : Prop :=
  (∀ p : PartId, (s.drv p).Bounded) ∧ (∀ v ∈ s.saves, v.saved.drv.Bounded) ∧ s.events.bootQueue.length ≤ 32

/-- Canonical and within its bounds: what every step keeps. -/
def State.Safe (s : State) : Prop := s.Canon ∧ s.Bounded

/-! ## Frames -/

/-- Every register but those listed holds what it held. -/
def State.RegsBut (s t : State) (l : List Nat) : Prop := ∀ o : Nat, o ∉ l → t.reg o = s.reg o

/-- Nothing but partition `p` and registers has changed. -/
def State.OnlyPart (s t : State) (p : PartId) : Prop :=
  t = { s with parts := t.parts, bar0 := t.bar0 } ∧ ∀ p' : PartId, p' ≠ p → t.part p' = s.part p'

/-- Nothing but the drover of partition `p` and registers has changed: the manifest table, hold SRAM, every memory,
port, ring and counter beside the registers stand. -/
def State.OnlyDrv (s t : State) (p : PartId) : Prop :=
  s.OnlyPart t p ∧ t.part p = { s.part p with drv := t.drv p }

/-! ## Issue -/

/-- The drover of `p` carries out the instruction `c` of the row `key`: it stands at the program counter of the active
context (R98), passes every check of R110, names no pending register (R83) and its predicate holds (R81). -/
def State.Ready (s : State) (p : PartId) (key : Nat) (c : Ctx) : Prop :=
  s.fetch p = .word c ∧ rowKey c.w = some key ∧ illegal (s.drv p).isaMax c.w = none ∧
    ((scalarRegs c.w).any fun r => (s.drv p).pendingRegs.contains (regKey c.disp r)) = false ∧
    (s.drv p).pred c.disp (iPred c.w) ≠ iPneg c.w

/-- The rows of the drover's own instructions, each with the key of its row (Tables 4.9, 4.10, 4.13). -/
def localRows (p : PartId) : List (Instr × Nat) :=
  [(.nop p, 0x00), (.ldi p, 0x01), (.mov p, 0x02), (.add p, 0x03), (.sub p, 0x04), (.mul p, 0x05), (.and p, 0x06),
    (.or p, 0x07), (.xor p, 0x08), (.shl p, 0x09), (.shr p, 0x0A), (.cmp p, 0x0B), (.br p, 0x0C), (.call p, 0x0D),
    (.ret p, 0x0E), (.halt p, 0x100), (.yieldInsn p, 0x101), (.endInsn p, 0x102), (.start p, 0x103),
    (.descLd p, 0x1C), (.descSt p, 0x1D), (.lds p, 0x1E), (.sts p, 0x1F), (.timeRd p, 0xB2), (.sigSet p, 0xA0),
    (.wait p, 0xA1), (.fence p, 0xA2), (.faultPop p, 0xA5), (.sigRd p, 0xA6), (.abort p, 0xA4), (.smpCancel p, 0x52),
    (.mfRd p, 0x60), (.mfPhase p, 0x61), (.mfFlag p, 0x62), (.mfFree p, 0x63), (.cvJoin p, 0x64), (.cvLeave p, 0x65)]

/-- The rows of the engine instructions as the drover issues them, each with its opcode. -/
def engineRows (p : PartId) : List (Instr × Nat) :=
  ([(.dmaCopy p .issue, 0x10), (.dmaGather p .issue, 0x11), (.dmaFill p .issue, 0x12), (.dmaLds p .issue, 0x13),
    (.dmaSts p .issue, 0x14), (.acctAdd p .issue, 0xB0), (.acctRd p .issue, 0xB1), (.mxGemm p .issue, 0x20),
    (.mxLora p .issue, 0x21), (.vxAdd p .issue, 0x30), (.vxMul p .issue, 0x31), (.vxScale p .issue, 0x32),
    (.vxRmsnorm p .issue, 0x33), (.vxRope p .issue, 0x34), (.vxSwiglu p .issue, 0x35), (.vxGelu p .issue, 0x36),
    (.vxCvt p .issue, 0x37), (.vxReduce p .issue, 0x38), (.vxSfu p .issue, 0x39), (.attBlock p .issue, 0x40),
    (.attChunk p .issue, 0x41), (.scatterKv p .issue, 0x43)]) ++
  [(.scatterChunk p .issue, 0x44), (.smpStep p .issue, 0x50), (.smpGrammar p .issue, 0x51),
    (.sigRemote p .issue, 0xA3), (.fabWr p .issue, 0x70), (.fabRd p .issue, 0x71), (.fabFence p .issue, 0x72),
    (.fabCaravan p .issue, 0x73), (.fabLog p .issue, 0x74), (.nbGemv p .issue, 0x80), (.nbMode p .issue, 0x81),
    (.nbSumx p .issue, 0x82), (.nbAtt p .issue, 0x83), (.tierMove p .issue, 0x90), (.tierHint p .issue, 0x91),
    (.tierPin p .issue, 0x92)]

/-- The counters an issue advances: instructions issued, and in a packet the clocks of the dispatch context. -/
def issueRegs (c : Ctx) : List Nat :=
  [ptBase c.p + 0x1100] ++ if c.disp then [ptBase c.p + 0x1100 + 8 * 23] else []

/-- The instruction `c` has issued in one step and its context goes on at `pc`: nothing but the drover of `p` has
changed, the program counter of the other context stands, and of the registers only the counters of an issue and those
listed, if any, have changed. -/
def State.Advanced (s t : State) (p : PartId) (c : Ctx) (pc : BitVec 14) (more : List Nat := []) : Prop :=
  s.OnlyDrv t p ∧ (t.drv p).stalled = false ∧
    (∀ x, (t.drv p).ctxPc x = if x = c.disp then pc else (s.drv p).ctxPc x) ∧
    s.RegsBut t (issueRegs c ++ more) ∧ t.reg (ptBase p + 0x1100) = s.reg (ptBase p + 0x1100) + 1

/-- Of the drover, only scalar registers, program counters and the stall mark may have changed. -/
def Drover.OnlyScalars (d e : Drover) : Prop :=
  e = { d with sregs := e.sregs, bank := e.bank, mainPc := e.mainPc, dispPc := e.dispPc, stalled := e.stalled }

/-- One scalar register has been written: as a context reads it, register `k` holds `v`, and every other register of
either context stands (R77). -/
def Drover.WroteScalar (d e : Drover) (disp : Bool) (k : Nat) (v : Word) : Prop :=
  d.OnlyScalars e ∧ ∀ x j, e.sreg x j = if j = k ∧ (k < 56 ∨ x = disp) then v else d.sreg x j

/-- A drover fault of the instruction `c` (R94, R97, R110): a record of it is queued unless 16 are, it is counted, a main
context becomes FAULTED and a packet ends; registers, signals, queues and hold SRAM stand. -/
def State.DroverFaulted (s t : State) (p : PartId) (c : Ctx) (st : Status) : Prop :=
  let d := s.drv p
  let e := t.drv p
  (∃ r : FaultRec, r.status = st ∧ r.pc = c.pc ∧ r.insn = c.w ∧ r.disp = c.disp ∧ r.seq = d.faultSeq ∧
    e.faults = if d.faults.length < 16 then d.faults ++ [r] else d.faults) ∧
  e.faultSeq = d.faultSeq + 1 ∧ e.dstate = (if c.disp then d.resume else .faulted) ∧
  (c.disp = true → e.pkt = none) ∧ (c.disp = false → e.pkt = d.pkt) ∧
  e.sregs = d.sregs ∧ e.bank = d.bank ∧ e.dregs = d.dregs ∧ e.preds = d.preds ∧ e.queues = d.queues ∧
  e.sigCount = d.sigCount ∧ e.sigFault = d.sigFault ∧ t.part p = { s.part p with drv := e } ∧
  (∀ p' : PartId, p' ≠ p → t.part p' = s.part p') ∧ t.mem = s.mem ∧
  (let o := ptBase p + if d.faults.length < 16 then 0x1018 else 0x1020; t.reg o = s.reg o + 1)

/-! ## Hold SRAM -/

/-- A byte of a partition's hold SRAM. -/
def State.holdByte (s : State) (p : PartId) (a : Nat) : Byte := memByte (s.part p).hsram a

/-- The registers of the live map of a partition (R332). -/
def liveRegs (p : PartId) : List Nat := [ptBase p + 0x28, ptBase p + 0x30, ptBase p + 0x38]

/-- `n` bytes from `a` of the hold SRAM of partition `p` have been written and nothing else of it. -/
def State.HoldWritten (s t : State) (p : PartId) (a : Nat) (b : Bytes) : Prop :=
  (∀ i, i < b.length → t.holdByte p (a + i) = b.getD i 0) ∧
    ∀ x, x < a ∨ a + b.length ≤ x → t.holdByte p x = s.holdByte p x

/-! ## Engine instructions -/

/-- The instruction `e` stands at the head of its queue, its effect done: it retires with its post clear of FAULT and, if
it writes a register, the value `v`. -/
def State.DoneAt (t : State) (p : PartId) (q : Nat) (e : QEntry) (cost : Nat) (v : Word := 0) : Prop :=
  ∃ x, t.head p q = some x ∧ x.uid = e.uid ∧ x.insn = e.insn ∧ x.phase = .done ∧ x.wbOk = true ∧ x.wbVal = v ∧
    x.wb = e.wb ∧ x.faultPost = e.faultPost ∧ x.cost = cost

/-- Nothing but the head of queue `q` of partition `p`, the hold SRAM of `p` and registers has changed. -/
def State.OnlyEngine (s t : State) (p : PartId) (q : Nat) : Prop :=
  t = { s with parts := t.parts, bar0 := t.bar0 } ∧ (∀ p' : PartId, p' ≠ p → t.part p' = s.part p') ∧
    t.part p = { s.part p with drv := t.drv p, hsram := (t.part p).hsram } ∧
    t.drv p = { s.drv p with queues := (t.drv p).queues } ∧
    (∀ q' : Nat, q' ≠ q → (t.drv p).queue q' = (s.drv p).queue q') ∧
    ((t.drv p).queue q).length = ((s.drv p).queue q).length

/-- A destination in hold SRAM that an engine accepts (R117): inside hold SRAM, its rows and their block scales apart. -/
def tFits (d : Desc) : Prop :=
  tSpace d = 0 ∧ descInvalid d = none ∧ descInRange d = true ∧ tCompressed d = false ∧
    (tScaleBytes d ≠ 0 → tScaleBytes d ≤ tSStride d ∧
      (tScale d + tRows d * tSStride d ≤ tAddr d ∨ tAddr d + tRows d * tStride d ≤ tScale d))

/-- The rows given stand in the tensor, converted to its format, and no other byte of hold SRAM has changed. -/
def State.TensorWritten (s t : State) (p : PartId) (d : Desc) (rows : List (List Fl)) : Prop :=
  (∀ (i : Nat) (h : i < rows.length),
    t.hsRead p (tRowAt d i) (tRowBytes d) = (encodeRow (tFmt d) rows[i]).1 ∧
      t.hsRead p (tScaleAt d i) (tScaleBytes d) = (encodeRow (tFmt d) rows[i]).2) ∧
    ∀ a, (∀ i, i < rows.length → (a < tRowAt d i ∨ tRowAt d i + tRowBytes d ≤ a) ∧
        (a < tScaleAt d i ∨ tScaleAt d i + tScaleBytes d ≤ a)) → t.holdByte p a = s.holdByte p a

/-- An engine instruction has written a tensor of hold SRAM and nothing else. -/
def State.EngineWrote (s t : State) (p : PartId) (q : Nat) (e : QEntry) (rows : List (List Fl)) (cost : Nat) : Prop :=
  s.OnlyEngine t p q ∧ t.DoneAt p q e cost ∧ s.TensorWritten t p e.da rows ∧ s.RegsBut t (liveRegs p)

/-! ## Fabric -/

/-- One sequenced frame more has been sent: its replay copy is the newest, numbered next in its space (R290, R291). -/
def State.SentOne (s t : State) (dst : NodeId) (what : Frame → Prop) : Prop :=
  ∃ x, t.fab.sent = s.fab.sent ++ [x] ∧ x.dst = dst ∧ x.seq = tabGet (fun _ => 0) s.fab.seqs (seqKey x.unit dst) ∧
    what x.frame

/-- The replay buffer of a source unit takes `k` frames more to a node, and no frame of the unit waits for room (R291): a
CONTROL frame is of 4,224 bytes at most. -/
def State.Room (s : State) (unit : Nat) (dst : NodeId) (k : Nat := 1) : Prop :=
  (∀ y ∈ s.fab.backlog, hUnit y.frame ≠ unit) ∧ s.replayUsed unit + 4224 * k ≤ 2097152 ∧
    (s.fab.sent.filter fun x => x.unit = unit ∧ x.dst = dst).length + k ≤ 4096

/-- No read of the combiner waits to be sent (R286, R290, R291). -/
def State.CombQuiet (s : State) : Prop := ∀ c ∈ s.fab.comb, c.path ≠ none ∧ c.held = false

/-- No frame and no read of the combiner waits for room in a replay buffer (R291). -/
def State.NoWaits (s : State) : Prop := s.fab.backlog = [] ∧ s.CombQuiet

/-- No request whose state this node holds could attend a shared page (R395). -/
def State.NoSharers (s : State) : Prop := (∀ p : PartId, s.liveSlots p = []) ∧ s.saves = [] ∧ s.parked = []

/-- A CONTROL message to a node has been sent, or waits for room in the replay buffer (R291). -/
def State.Posted (t : State) (dst : NodeId) (c : Ctl) : Prop :=
  (∃ x ∈ t.fab.sent, x.dst = dst ∧ x.frame.body = .ctl c) ∨ ∃ y ∈ t.fab.backlog, hDst y.frame = dst ∧ y.frame.body = .ctl c

/-- One CONTROL message more has been sent. -/
def State.SentCtl (s t : State) (dst : NodeId) (c : Ctl) : Prop := s.SentOne t dst fun f => f.body = .ctl c

/-- The head of queue `q` waits for the fabric. -/
def State.WaitsAt (t : State) (p : PartId) (q : Nat) (e : QEntry) : Prop :=
  ∃ x, t.head p q = some x ∧ x.uid = e.uid ∧ x.phase = .waiting

/-- Nothing but registers, the fabric and its ports has changed: frames have been sent. -/
def State.OnlySends (s t : State) : Prop := t = { s with bar0 := t.bar0, fab := t.fab, ports := t.ports }

/-- Nothing but the route keeper has changed, and what sending frames changes. -/
def State.OnlyMgr (s t : State) : Prop := t = { s with mgr := t.mgr, bar0 := t.bar0, fab := t.fab, ports := t.ports }

/-- Over the one valid path that leads to `dst`, if there is just one and its port is up, a frame that no replay buffer
keeps has entered the egress queue of its class (R286, R306). -/
def State.Answered (s t : State) (dst : NodeId) (what : Frame → Prop) : Prop :=
  ∀ (path : Nat) (k : PortId), s.fab.joinRefused = false → s.validPaths dst = [path] → s.hop dst path = k.val →
    (s.port k).up = true → ∃ g, what g ∧ hDst g = dst ∧
      vget (t.port k).egress (hClass g) [] = vget (s.port k).egress (hClass g) [] ++ [{ frame := g, at_ := s.pins.clkT }]

/-- The line at a state address is served at once: its page is mapped, no move holds its writes, and the MU behind it is in
memory mode, its link up, with no access waiting. -/
def State.Served (s : State) (a : Nat) (pl : Place) : Prop :=
  s.translate none a = .ok pl ∧ (∀ m ∈ s.tier.moves, m.page ≠ ePage a) ∧
    (pl.far = true ∨ (s.mu pl.unit).holds = false ∧ (s.mu pl.unit).parked = [] ∧ (s.mu pl.unit).held = [])

/-! ## The state range -/

/-- One byte of the near or the far memory. -/
def Mem.byteAt (m : Mem) (far : Bool) (k : Nat) : Byte := memByte (if far then m.far else m.near) k

/-- Where the byte at a state address lies: near or far, and its key. -/
def State.placeOf (s : State) (a : Nat) : Option (Bool × Nat) :=
  match s.translate none a with
  | .ok pl => some (pl.far, pl.key)
  | .error _ => none

/-- Every byte of the runs given, by state address, is served at once, and no two of them lie at one place. -/
def State.RunsServed (s : State) (ws : List (Nat × Bytes)) : Prop :=
  (∀ w ∈ ws, ∀ i, i < w.2.length → ∃ pl, s.Served (w.1 + i) pl) ∧
    (ws.flatMap fun w => (List.range w.2.length).map fun i => s.placeOf (w.1 + i)).Nodup

/-- The bytes of the runs given stand in the memories, and every other byte holds what it held. -/
def State.RunsWritten (s t : State) (ws : List (Nat × Bytes)) : Prop :=
  (∀ w ∈ ws, ∀ i, i < w.2.length → ∀ far k, s.placeOf (w.1 + i) = some (far, k) → t.mem.byteAt far k = w.2.getD i 0) ∧
    ∀ far k, (∀ w ∈ ws, ∀ i, i < w.2.length → s.placeOf (w.1 + i) ≠ some (far, k)) →
      t.mem.byteAt far k = s.mem.byteAt far k

/-- A frame of a source unit waits to be acknowledged. -/
def State.AckWaits (t : State) (src : NodeId) (seq unit fence : Nat) : Prop :=
  ∃ l, (src, l) ∈ t.fab.acks ∧ ackEntry seq unit fence ∈ l

/-! ## Events -/

/-- One event more has been raised: SEQ and the count of its class have risen by one (R401). -/
def State.Raised (s t : State) (ev : BitVec 16) : Prop :=
  t.events.seq = s.events.seq + 1 ∧
    t.reg (evtBase + 0x40 + 8 * (evClass ev % 8)) = s.reg (evtBase + 0x40 + 8 * (evClass ev % 8)) + 1

/-- What raising events, and nothing else, changes: registers, the event ring in host memory, its interrupts. -/
def State.OnlyEvents (s t : State) : Prop :=
  t = { s with bar0 := t.bar0, events := t.events
               host := { s.host with
                 mem := t.host.mem, msix := t.host.msix, messages := t.host.messages, pba := t.host.pba } }

/-! ## Partition commands -/

/-- A PT_CTL command of a partition has completed: its fields are stored, BUSY is clear, STATUS is as given (R330). -/
def State.PtEnded (t : State) (p : PartId) (v : Word) (st : Status) : Prop :=
  t.reg (ptBase p) = v &&& 0x1F1F ∧ t.ptBusy p = false ∧ t.regFld (ptStat p) 63 48 = st.toNat

end Sys2Proof.Machine
end

