-- ==== Sys2Proof/Certificates/Slice0/Obligations.lean ====
section
/-! DEFINITION. The statements for the provers: what the rules of the specification say the commands and the block do. -/

open Sys2Proof Sys2Proof.Machine

/-! ## Commands and their queue -/

/-- A step runs the command at the front of the queue on the state with the rest of the queue (assumption log 5).
That every command then answers a next state, in every state, also where its event is not due, is the model's choice
(assumption log 6): no rule says what a command does that cannot come. -/
def Obligations.StepRunsFrontCommand : Prop :=
  (∀ (s : State) (c : Instr) (rest : List Instr), s.pending = c :: rest → step s = exec c { s with pending := rest }) ∧
    ∀ (c : Instr) (s : State), ∃ t, exec c s = .next t

/-- A step on an empty queue is one CLK_T cycle of 10 ns (assumption log 5: the model's choice): the cycle count
rises by one and fabric time, which never runs back, by 9 to 11 ns. With no BAR2 read held and no whole second ended,
when the ports send their clock messages, nothing else changes but the dispatch waits being measured (R424) and, with
the host link up, what the host configures (assumption log 83). Where the rules leave a point open this states the
model's choice (assumption log 5, 77, 83, 102). -/
def Obligations.EmptyQueueTicks : Prop :=
  ∀ s : State, s.pending = [] → ∃ t, step s = .next t ∧ t.pins.clkT = s.pins.clkT + 1 ∧
    s.pins.fabNs + 9 ≤ t.pins.fabNs ∧ t.pins.fabNs ≤ s.pins.fabNs + 11 ∧
    (t.fab.slew = s.fab.slew → t.pins.fabNs = s.pins.fabNs + 10) ∧
    (s.host.bar2Held = [] → t.pins.clkT % 100000000 ≠ 0 →
      (∀ p : PartId, t.part p = { s.part p with drv := { s.drv p with waitAt := (t.drv p).waitAt } }) ∧
      (s.host.up = false → t.host = s.host ∧ t.freeCount = s.freeCount) ∧
      t = { s with pins := { s.pins with clkT := t.pins.clkT, fabNs := t.pins.fabNs }
                   fab := { s.fab with slew := t.fab.slew }, parts := t.parts, freeCount := t.freeCount
                   host := { s.host with
                     vfEnable := t.host.vfEnable, bar2Log := t.host.bar2Log, msixOn := t.host.msixOn,
                     msixMask := t.host.msixMask } })

/-! ## Control opcodes (chapter 4) -/

/-- LDI, MOV, ADD, SUB, MUL, AND, OR, XOR, SHL, SHR and TIME_RD write their result to the destination register, CMP
its comparison to a predicate, of which p0 ignores the write and p6 and p7 are the context's own; each goes on at the
next instruction and changes nothing else but the counters of an issue. NOP, BR, CALL and RET change only the program
counter and, for CALL and RET, the call stack, which holds at most 16 entries of both contexts together; a RET pops
the newest entry of its own context, and a CALL with 16 entries and a RET with none of its context end in the drover
fault STACK_FAULT (R77, R78, R123, Table 3.1, Table 4.9). Where the rules leave a point open this states the model's
choice (assumption log 8, 11, 12). -/
def Obligations.ControlOpcodesWriteResults : Prop :=
  (∀ (s : State) (p : PartId) (c : Ctx),
    let d := s.drv p
    let a := d.sreg c.disp (iSrcA c.w)
    let b := if iUseImm c.w then iImm c.w else d.sreg c.disp (iSrcB c.w)
    let gives := fun (i : Instr) (key : Nat) (v : Word) => s.Ready p key c →
      ∃ t, exec i s = .next t ∧ s.Advanced t p c (BitVec.ofNat 14 (c.pc + 1)) ∧
        d.WroteScalar (t.drv p) c.disp (iDst c.w) v
    gives (.ldi p) 0x01 (iImm c.w) ∧ gives (.mov p) 0x02 a ∧ gives (.add p) 0x03 (a + b) ∧
    gives (.sub p) 0x04 (a - b) ∧ gives (.mul p) 0x05 (a * b) ∧ gives (.and p) 0x06 (a &&& b) ∧
    gives (.or p) 0x07 (a ||| b) ∧ gives (.xor p) 0x08 (a ^^^ b) ∧
    gives (.shl p) 0x09 (a <<< (b.toNat % 64)) ∧ gives (.shr p) 0x0A (a >>> (b.toNat % 64)) ∧
    gives (.timeRd p) 0xB2 (BitVec.ofNat 64 s.pins.fabNs)) ∧
  (∀ (s : State) (p : PartId) (c : Ctx),
    let d := s.drv p
    let a := d.sreg c.disp (iSrcA c.w)
    let b := if iUseImm c.w then iImm c.w else d.sreg c.disp (iSrcB c.w)
    s.Ready p 0x0B c → ∃ t, exec (.cmp p) s = .next t ∧ s.Advanced t p c (BitVec.ofNat 14 (c.pc + 1)) ∧
      (t.drv p).stack = d.stack ∧ (∀ x k, (t.drv p).sreg x k = d.sreg x k) ∧
      (∀ x j, j < 8 → (t.drv p).pred x j =
        if j ≠ 0 ∧ j = iDst c.w ∧ (j < 6 ∨ x = c.disp) then
          (match iCond c.w with
            | 0 => decide (a = b) | 1 => decide (a ≠ b) | 2 => decide (a.toInt < b.toInt)
            | 3 => decide (a.toInt ≤ b.toInt) | 4 => decide (b.toInt < a.toInt) | 5 => decide (b.toInt ≤ a.toInt)
            | 6 => decide (a.toNat < b.toNat) | _ => decide (b.toNat ≤ a.toNat))
        else d.pred x j) ∧
      t.drv p = { d with preds := (t.drv p).preds, dpreds := (t.drv p).dpreds, mainPc := (t.drv p).mainPc,
                         dispPc := (t.drv p).dispPc, stalled := false }) ∧
  (∀ (s : State) (p : PartId) (c : Ctx),
    let d := s.drv p
    let target : BitVec 14 := c.w.setWidth 14
    (s.Ready p 0x00 c → ∃ t, exec (.nop p) s = .next t ∧ s.Advanced t p c (BitVec.ofNat 14 (c.pc + 1)) ∧
      (t.drv p).stack = d.stack ∧ d.OnlyScalars (t.drv p) ∧ ∀ x k, (t.drv p).sreg x k = d.sreg x k) ∧
    (s.Ready p 0x0C c → ∃ t, exec (.br p) s = .next t ∧ s.Advanced t p c target [ptBase p + 0x1100 + 8 * 24] ∧
      t.reg (ptBase p + 0x1100 + 8 * 24) = s.reg (ptBase p + 0x1100 + 8 * 24) + 1 ∧
      d.OnlyScalars (t.drv p) ∧ ∀ x k, (t.drv p).sreg x k = d.sreg x k) ∧
    (s.Ready p 0x0D c → d.stack.length < 16 → ∃ t, exec (.call p) s = .next t ∧ s.Advanced t p c target ∧
      (t.drv p).stack = (c.disp, BitVec.ofNat 14 (c.pc + 1)) :: d.stack ∧
      { d with stack := (t.drv p).stack }.OnlyScalars (t.drv p) ∧ ∀ x k, (t.drv p).sreg x k = d.sreg x k) ∧
    (s.Ready p 0x0E c → ∀ newer older r, d.stack = newer ++ (c.disp, r) :: older →
      (∀ e ∈ newer, e.1 ≠ c.disp) → ∃ t, exec (.ret p) s = .next t ∧ s.Advanced t p c r ∧
      (t.drv p).stack = newer ++ older ∧
      { d with stack := (t.drv p).stack }.OnlyScalars (t.drv p) ∧ ∀ x k, (t.drv p).sreg x k = d.sreg x k) ∧
    (s.Ready p 0x0D c → 16 ≤ d.stack.length → ∃ t, exec (.call p) s = .next t ∧
      s.DroverFaulted t p c St.stackFault ∧ (c.disp = false → (t.drv p).stack = d.stack)) ∧
    (s.Ready p 0x0E c → (∀ e ∈ d.stack, e.1 ≠ c.disp) → ∃ t, exec (.ret p) s = .next t ∧
      s.DroverFaulted t p c St.stackFault ∧ (t.drv p).stack = d.stack))

/-- HALT leaves RUNNING, YIELD with no packet waiting goes on, END ends its packet and START sends the main context
to the named entry; HALT and YIELD outside the main context and END and START outside the dispatch context are
ILLEGAL_INSN faults that end the packet or stop the main context (R107, R123). Where the rules leave a point open
this states the model's choice (assumption log 10). -/
def Obligations.SystemOpcodesChangeContext : Prop :=
  ∀ (s : State) (p : PartId) (c : Ctx),
    let d := s.drv p
    let next : BitVec 14 := BitVec.ofNat 14 (c.pc + 1)
    (s.Ready p 0x100 c → c.disp = false → ∃ t, exec (.halt p) s = .next t ∧ s.Advanced t p c next ∧
      t.drv p = { d with dstate := .halted, mainPc := next, stalled := false, waitRaised := false, waitAt := none }) ∧
    (s.Ready p 0x101 c → c.disp = false → (∀ r, r / 4 = p.val → (s.ring r).fetched = []) →
      ∃ t, exec (.yieldInsn p) s = .next t ∧ s.Advanced t p c next [ptBase p + 0x1100 + 8 * 25] ∧
      t.reg (ptBase p + 0x1100 + 8 * 25) = s.reg (ptBase p + 0x1100 + 8 * 25) + 1 ∧
      t.drv p = { d with mainPc := next, stalled := false, waitRaised := false, waitAt := none }) ∧
    (s.Ready p 0x102 c → c.disp = true → ∀ k, d.pkt = some k → ∃ t, exec (.endInsn p) s = .next t ∧
      s.OnlyDrv t p ∧ (t.drv p).dstate = (if d.pktStarted then .running else d.resume) ∧ (t.drv p).pkt = none ∧
      (t.drv p).ended = d.ended ++ [{ serial := d.pktSerial, pkt := k, status := d.pktFault.getD St.ok,
                                      s56 := d.sreg true 56, s57 := d.sreg true 57 }] ∧
      (t.drv p).stack = d.stack.filter (fun e => !e.1) ∧ (t.drv p).mainPc = d.mainPc ∧
      (t.drv p).sregs = d.sregs ∧ (t.drv p).queues = d.queues ∧ (t.drv p).faults = d.faults) ∧
    (s.Ready p 0x103 c → c.disp = true → ∀ img e, d.image = some img → img.entries[c.w.toNat % 32]? = some e →
      ∃ t, exec (.start p) s = .next t ∧ s.OnlyDrv t p ∧
      t.drv p = { d with mainPc := e, dispPc := next, stalled := false, stack := d.stack.filter (fun x => x.1),
                         pktStarted := true, fenceMain := none,
                         resume := if d.resume = .faulted then .halted else d.resume }) ∧
    (∀ i key, (i, key) ∈ [((.halt p : Instr), 0x100), (.yieldInsn p, 0x101), (.endInsn p, 0x102), (.start p, 0x103)] →
      s.Ready p key c → c.disp = decide (key < 0x102) →
      ∃ t, exec i s = .next t ∧ s.DroverFaulted t p c St.illegalInsn)

/-- A drover takes an IMMEDIATE packet at an issue boundary, and in HALTED, RESET or FAULTED also an AT_YIELD packet:
it enters DISPATCH at the packet's first instruction with its arguments in s56 to s59 of the dispatch bank. A packet
ends after its last instruction; its completion record is posted only once every instruction it issued has retired,
with PKT_ID, its status and the dispatch bank's s56 and s57; an AT_YIELD packet that waits past its limit raises
DISPATCH_WAIT once until the next YIELD (R98, R101, R102, R356). Where the rules leave a point open this states the
model's choice (assumption log 10, 14, 84). -/
def Obligations.PacketsRunToCompletion : Prop :=
  (∀ (s : State) (p : PartId) (r : Nat) (k : Packet),
    let d := s.drv p
    let idle := d.dstate = .reset ∨ d.dstate = .halted ∨ d.dstate = .faulted
    ((s.part p).st = .serving → (∀ q x, q / 4 = p.val → (s.ring q).fetched.head? = some x → s.jobOf p = some x.job) →
      (idle ∨ d.dstate = .running ∧ k.immediate = true) →
      s.nextPacket p (decide idle) = some (r, k) → s.regFld (sqOff r + 8) 3 0 ≤ 12 →
      ∃ t, exec (.dispatchPacketTake p) s = .next t ∧ (t.drv p).dstate = .dispatch ∧ (t.drv p).resume = d.dstate ∧
        (t.drv p).dispPc = 0 ∧ (∃ k', (t.drv p).pkt = some k' ∧ k'.insns = k.insns ∧ k'.id = k.id) ∧
        (∀ i, i < 4 → (t.drv p).sreg true (56 + i) = k.args.getD i 0) ∧
        (∀ i, i < 64 → (t.drv p).sreg false i = d.sreg false i) ∧ (t.drv p).mainPc = d.mainPc ∧
        (t.drv p).stack = d.stack ∧ (t.drv p).queues = d.queues ∧
        (t.ring r).fetched = (s.ring r).fetched.drop 1 ∧
        (t.reg (sqOff r + 0x10)).toNat % 4096 = ((s.reg (sqOff r + 0x10)).toNat % 4096 + 1) % s.sqSize r ∧
        t.mem = s.mem ∧ t.host.mem = s.host.mem ∧ ∀ p' : PartId, p' ≠ p → t.part p' = s.part p') ∧
    (r / 4 = p.val → k.ring = r → (s.ring r).fetched = [k] → ((s.part p).st ≠ .serving ∨ s.jobOf p ≠ some k.job) →
      (∀ q, q / 4 = p.val → q ≠ r → (s.ring q).fetched = []) → s.regFld (sqOff r + 8) 3 0 ≤ 12 →
      ∀ cq, s.cqOf r k.cq = some cq → s.cqEnabled cq = true → 0 < s.cqFree cq → s.regFld (cqOff cq + 8) 4 0 ≤ 16 →
      let head := (s.regFld (sqOff r + 0x10) 11 0 + 1) % s.sqSize r
      ∃ t, exec (.dispatchPacketTake p) s = .next t ∧ t.parts = s.parts ∧ (t.ring r).fetched = [] ∧
        t.regFld (sqOff r + 0x10) 11 0 = head ∧ t.reg 0x500308 = s.reg 0x500308 + 1 ∧ t.mem = s.mem ∧
        t.host.mem = memWrite s.host.mem ((s.reg (cqOff cq)).toNat + 32 * (s.regFld (cqOff cq + 0x10) 15 0))
          (setLe (completionBytes k.id 0 0 St.partOffline (s.sqName r) head) 0x1B 1 (b2n (s.ring cq).phase)) ∧
        t.regFld (cqOff cq + 0x10) 15 0 = (s.regFld (cqOff cq + 0x10) 15 0 + 1) % s.cqSize cq)) ∧
  (∀ (s : State) (p : PartId),
    let d := s.drv p
    (∀ k, d.dstate = .dispatch → d.pkt = some k → d.dispPc.toNat = k.insns.length →
      ∃ t, exec (.packetEnd p) s = .next t ∧ s.OnlyDrv t p ∧ (t.drv p).pkt = none ∧
      (t.drv p).dstate = (if d.pktStarted then .running else d.resume) ∧
      ∃ e, (t.drv p).ended = d.ended ++ [e] ∧ e.pkt = k ∧ e.status = d.pktFault.getD St.ok ∧
        e.s56 = d.sreg true 56 ∧ e.s57 = d.sreg true 57) ∧
    (∀ e before after cq, d.ended = before ++ e :: after →
      (∀ x ∈ before, ∃ q ∈ d.entries, q.pkt = some x.serial) → (∀ q ∈ d.entries, q.pkt ≠ some e.serial) →
      s.cqOf e.pkt.ring e.pkt.cq = some cq → s.cqEnabled cq = true → s.regFld (cqOff cq + 8) 4 0 ≤ 16 → e.pkt.discard = false →
      0 < (s.setRing cq { s.ring cq with reserved := (s.ring cq).reserved - 1 }).cqFree cq →
      ∃ t, exec (.packetCompletion p) s = .next t ∧ t.drv p = { d with ended := d.ended.erase e } ∧
        (∀ p' : PartId, p' ≠ p → t.part p' = s.part p') ∧ t.mem = s.mem ∧
        ∃ b : Bytes, b = setLe (completionBytes e.pkt.id e.s56 e.s57 e.status (s.sqName e.pkt.ring) e.pkt.sqHead) 0x1B 1
            (b2n (s.ring cq).phase) ∧
          t.host.mem = memWrite s.host.mem ((s.reg (cqOff cq)).toNat + 32 * (s.regFld (cqOff cq + 0x10) 15 0)) b ∧
          t.regFld (cqOff cq + 0x10) 15 0 = (s.regFld (cqOff cq + 0x10) 15 0 + 1) % s.cqSize cq) ∧
    (∀ r k, s.nextPacket p true = some (r, k) → d.dstate = .running → k.immediate = false → s.pending = [] →
      ∃ t, step s = .next t ∧ (t.drv p).waitAt = if d.waitAt.any (fun w => w.2.2 = r) then d.waitAt
        else some (s.pins.clkT, s.regFld (ptBase p + 0x1008) 15 0, r)) ∧
    (∀ r k, s.nextPacket p true = some (r, k) → d.dstate = .running → d.waitRaised = false → k.immediate = false →
      (∃ from_ limit ring, d.waitAt = some (from_, limit, ring) ∧ from_ + 100 * limit < s.pins.clkT) →
      ∃ t, exec (.dispatchWaitExpiry p) s = .next t ∧ (t.drv p).waitRaised = true ∧
        t.events.seq = s.events.seq + 1 ∧ exec (.dispatchWaitExpiry p) { s with parts := t.parts } =
          .next { s with parts := t.parts }))

/-- LDS and DESC_LD read hold SRAM at sA + IMM, STS and DESC_ST write there exactly 8 bytes or 32 bytes a descriptor;
an access that leaves hold SRAM is an OPERAND_RANGE drover fault. Beside the counters of an issue, the wait counter
rises by at most 8 CLK_A a granule and the count of corrected errors by at most one a granule (R124, R136, R137,
Table 4.10). Where the rules leave a point open this states the model's choice (assumption log 8). -/
def Obligations.DroverLocalMovesAccessHoldSram : Prop :=
  ∀ (s : State) (p : PartId) (c : Ctx),
    let d := s.drv p
    let a := (d.sreg c.disp (iSrcA c.w) + iImm c.w).toNat
    let f := iDst c.w
    let n := iSrcB c.w + 1 - f
    let next : BitVec 14 := BitVec.ofNat 14 (c.pc + 1)
    let port := [ptBase p + 0x1028, ptBase p + 0x1030]
    let counts := fun (t : State) (m : Nat) =>
      ∃ w k, w ≤ 8 * granules a m ∧ k ≤ granules a m ∧
        t.reg (ptBase p + 0x1028) = s.reg (ptBase p + 0x1028) + BitVec.ofNat 64 w ∧
        t.reg (ptBase p + 0x1030) = s.reg (ptBase p + 0x1030) + BitVec.ofNat 64 k
    let loads := fun (t : State) (m : Nat) =>
      ({ s with freeCount := t.freeCount } : State).Advanced t p c next port ∧ counts t m
    let stores := fun (t : State) (b : Bytes) =>
      t = { s with parts := t.parts, bar0 := t.bar0, freeCount := t.freeCount } ∧ counts t b.length ∧
      (∀ p' : PartId, p' ≠ p → t.part p' = s.part p') ∧
      t.part p = { s.part p with drv := t.drv p, hsram := (t.part p).hsram } ∧ s.HoldWritten t p a b ∧
      t.drv p = { d with mainPc := (t.drv p).mainPc, dispPc := (t.drv p).dispPc, stalled := false } ∧
      (t.drv p).ctxPc c.disp = next ∧ (t.drv p).ctxPc (!c.disp) = d.ctxPc (!c.disp) ∧
      s.RegsBut t (issueRegs c ++ liveRegs p ++ port)
    (s.Ready p 0x1E c → a + 8 ≤ 12582912 → ∃ t, exec (.lds p) s = .next t ∧ loads t 8 ∧
      d.WroteScalar (t.drv p) c.disp f (wordOf ((List.range 8).map fun i => s.holdByte p (a + i)))) ∧
    (s.Ready p 0x1C c → a + 32 * n ≤ 12582912 → ∃ t, exec (.descLd p) s = .next t ∧ loads t (32 * n) ∧
      (∀ i, i < 16 → (t.drv p).dreg i = if f ≤ i ∧ i ≤ iSrcB c.w then
        BitVec.ofNat 256 (ofLe ((List.range 32).map fun j => s.holdByte p (a + 32 * (i - f) + j))) else d.dreg i) ∧
      { d with dregs := (t.drv p).dregs }.OnlyScalars (t.drv p) ∧ (t.drv p).sregs = d.sregs ∧
      (t.drv p).bank = d.bank) ∧
    (s.Ready p 0x1F c → a + 8 ≤ 12582912 → ∃ t, exec (.sts p) s = .next t ∧
      stores t (wordBytes (d.sreg c.disp (iSrcB c.w)))) ∧
    (s.Ready p 0x1D c → a + 32 * n ≤ 12582912 → ∃ t, exec (.descSt p) s = .next t ∧
      stores t (((List.range n).map fun i => leBytes 32 (d.dreg (f + i)).toNat).flatten)) ∧
    (∀ i key m, (i, key, m) ∈ [((.lds p : Instr), 0x1E, 8), (.sts p, 0x1F, 8), (.descLd p, 0x1C, 32 * n),
        (.descSt p, 0x1D, 32 * n)] → s.Ready p key c → 12582912 < a + m →
      ∃ t, exec i s = .next t ∧ s.DroverFaulted t p c St.operandRange)

/-- SIG_SET, WAIT, SIG_RD, FENCE and FAULT_POP do what Table 4.13 gives; WAIT and FENCE stall, and change nothing but
the stall mark and counters, until their condition holds. ABORT skips the queued instructions of its queue that carry
the tag reference it names; where none carries it, ABORT writes ABORT_LATE to its destination and changes nothing
else (R86 to R90, R97, R134). Where the rules leave a point open this states the model's choice (assumption log 16,
18). -/
def Obligations.SignalsAndAbort : Prop :=
  (∀ (s : State) (p : PartId) (c : Ctx),
    let d := s.drv p
    let g := iSigLo c.w
    let next : BitVec 14 := BitVec.ofNat 14 (c.pc + 1)
    let mark := (if c.disp then d.fenceDisp else d.fenceMain).getD d.nextUid
    let stalls := fun (t : State) => s.OnlyDrv t p ∧
      t.drv p = { d with stalled := true, fenceMain := (t.drv p).fenceMain, fenceDisp := (t.drv p).fenceDisp }
    (s.Ready p 0xA0 c → ∃ t, exec (.sigSet p) s = .next t ∧ s.Advanced t p c next ∧
      (∀ k, (t.drv p).count k = if g ≤ k ∧ k ≤ iSigHi c.w then c.w.setWidth 32 else d.count k) ∧
      (∀ k, (t.drv p).sfault k = if g ≤ k ∧ k ≤ iSigHi c.w then false else d.sfault k) ∧
      (∀ x k, (t.drv p).sreg x k = d.sreg x k) ∧ (t.drv p).queues = d.queues ∧ (t.drv p).preds = d.preds) ∧
    (s.Ready p 0xA6 c → ∃ t, exec (.sigRd p) s = .next t ∧ s.Advanced t p c next ∧
      d.WroteScalar (t.drv p) c.disp (iReg c.w)
        (BitVec.ofNat 64 ((d.count g).toNat + if d.sfault g then 2 ^ 32 else 0))) ∧
    (s.Ready p 0xA1 c → (d.count g - (d.sreg c.disp (iReg c.w)).setWidth 32).toNat < 2 ^ 31 →
      ∃ t, exec (.wait p) s = .next t ∧ s.Advanced t p c next ∧
      (∀ x j, j < 8 → (t.drv p).pred x j =
        if j ≠ 0 ∧ j = iPdst c.w ∧ (j < 6 ∨ x = c.disp) then d.sfault g else d.pred x j) ∧
      (∀ x k, (t.drv p).sreg x k = d.sreg x k) ∧ (t.drv p).sigCount = d.sigCount ∧ (t.drv p).sigFault = d.sigFault) ∧
    (s.Ready p 0xA1 c → 2 ^ 31 ≤ (d.count g - (d.sreg c.disp (iReg c.w)).setWidth 32).toNat →
      ∃ t, exec (.wait p) s = .next t ∧ stalls t) ∧
    (s.Ready p 0xA2 c → (∀ q, q < 9 → (iQmask c.w).testBit q = true → ∀ e ∈ d.queue q, mark ≤ e.uid) →
      ∃ t, exec (.fence p) s = .next t ∧ s.Advanced t p c next ∧ (t.drv p).queues = d.queues) ∧
    (s.Ready p 0xA2 c → (∃ q, q < 9 ∧ (iQmask c.w).testBit q = true ∧ ∃ e ∈ d.queue q, e.uid < mark) →
      ∃ t, exec (.fence p) s = .next t ∧ stalls t ∧
        (if c.disp then (t.drv p).fenceDisp else (t.drv p).fenceMain) = some mark) ∧
    (s.Ready p 0xA5 c → ∃ t, exec (.faultPop p) s = .next t ∧ s.Advanced t p c next ∧
      (t.drv p).faults = d.faults.drop 1 ∧
      (∀ i, i < 8 → (t.drv p).sreg c.disp (iReg c.w + i) =
        match d.faults with
        | [] => 0
        | r :: _ => (faultRecWords r).getD i 0) ∧
      (∀ j, j < iReg c.w ∨ iReg c.w + 8 ≤ j → (t.drv p).sreg c.disp j = d.sreg c.disp j) ∧
      (0 < iPdst c.w → (t.drv p).pred c.disp (iPdst c.w) = decide (d.faults.length ≤ 1)))) ∧
  (∀ (s : State) (p : PartId) (c : Ctx) (q : Nat), q < 9 → s.Ready p 0xA4 c → iQmask c.w = 2 ^ q →
    let d := s.drv p
    let tag := iSigTag c.w
    ((∀ x ∈ d.queue q, x.tag ≠ tag) → ∃ t, exec (.abort p) s = .next t ∧
      s.Advanced t p c (BitVec.ofNat 14 (c.pc + 1)) [ptBase p + 0x1100 + 8 * 28, ptBase p + 0x1100 + 8 * 29] ∧
      d.WroteScalar (t.drv p) c.disp (iReg c.w) (St.abortLate.setWidth 64)) ∧
    ((∀ e rest, d.queue q = e :: rest → e.tag ≠ tag) →
    ∃ t, exec (.abort p) s = .next t ∧ t.part p = { s.part p with drv := t.drv p } ∧
      (∀ p' : PartId, p' ≠ p → t.part p' = s.part p') ∧ t.mem = s.mem ∧ (t.drv p).ctxPc c.disp = BitVec.ofNat 14 (c.pc + 1) ∧
      (t.drv p).queue q = (d.queue q).map (fun e => if e.tag = tag ∧ e.phase = .queued then { e with phase := .skipped } else e) ∧
      (∀ q', q' ≠ q → (t.drv p).queue q' = d.queue q') ∧
      (t.drv p).sreg c.disp (iReg c.w) =
        (if ∃ e ∈ d.queue q, e.tag = tag ∧ (e.phase = .queued ∨ e.stoppable = true) then 0 else St.abortLate.setWidth 64) ∧
      t.reg (ptBase p + 0x1100 + 8 * 28) = s.reg (ptBase p + 0x1100 + 8 * 28) + 1))

/-- MF_RD reads a word of a manifest of the table and MF_FLAG writes one flag of it, a manifest whose CRC fails ends
FAILED there; MF_PHASE writes a phase that Table 1.2 allows its partition, once the trigger of the table has come,
with the current epoch, and clears EVICTED with DECODE; where it ends the request DONE, FAILED or, once cancelled,
CANCELLED, the final manifest goes to the manager; any other phase is a PHASE_ILLEGAL request fault and the request
ends FAILED; MF_FREE frees the slot of a request that has ended once no queued instruction refers to it; a slot that
holds no request is an OPERAND_RANGE drover fault (R17, R18, R25, R59, R127, R423). Where the rules leave a point
open this states the model's choice (assumption log 34, 99). -/
def Obligations.ManifestOpcodes : Prop :=
  ∀ (s : State) (p : PartId) (c : Ctx),
    let d := s.drv p
    let k := (d.sreg c.disp (iSrcA c.w)).toNat
    let base := (s.reg (ptBase p + 0x1010)).toNat % 2 ^ 24
    let m := s.manifest p k
    let ph := c.w.toNat % 16
    let next : BitVec 14 := BitVec.ofNat 14 (c.pc + 1)
    let held := k < 1024 ∧ (s.slot p k).held = true
    let writes := fun (t : State) (m' : Manifest) =>
      t = { s with parts := t.parts, bar0 := t.bar0 } ∧ (∀ p' : PartId, p' ≠ p → t.part p' = s.part p') ∧
      t.part p = { s.part p with drv := t.drv p, hsram := (t.part p).hsram } ∧
      s.HoldWritten t p (base + 64 * k) (mBytes m') ∧ t.manifest p k = m' ∧
      t.drv p = { d with mainPc := (t.drv p).mainPc, dispPc := (t.drv p).dispPc, stalled := false } ∧
      (t.drv p).ctxPc c.disp = next ∧ s.RegsBut t (issueRegs c ++ liveRegs p)
    base + 65536 ≤ 12582912 →
    (s.Ready p 0x60 c → held → mCrcOk m = true → ∃ t, exec (.mfRd p) s = .next t ∧
      ({ s with freeCount := t.freeCount } : State).Advanced t p c next [ptBase p + 0x1028, ptBase p + 0x1030] ∧
      d.WroteScalar (t.drv p) c.disp (iDst c.w)
        (wordOf ((List.range 8).map fun i => s.holdByte p (base + 64 * k + 8 * (c.w.toNat % 8) + i)))) ∧
    (s.Ready p 0x62 c → held → mCrcOk m = true → ∃ t, exec (.mfFlag p) s = .next t ∧
      writes t (mWithFlag m (c.w.toNat % 16) (!c.w.getLsbD 8))) ∧
    (s.Ready p 0x62 c → held → mCrcOk m = false → (s.slot p k).gone = false → terminal (mPhase m) = false →
      ∃ t, exec (.mfFlag p) s = .next t ∧ mPhase (t.manifest p k) = 8 ∧ (t.drv p).ctxPc c.disp = next) ∧
    (s.Ready p 0x61 c → held → (s.slot p k).gone = false → (s.slot p k).done = false → mCrcOk m = true →
      (mPhase m, ph) ∈ [(1, 2), (1, 3), (2, 3), (3, 4), (5, 1), (5, 3)] → (mPhase m = 1 → (s.slot p k).tokenHere = true) →
      (ph = 2 → (s.part p).role = .prompt) → (ph = 3 → (s.part p).role = .generate) →
      (mPhase m = 2 → (s.convoyRowOf p k).isSome = true) →
      (ph = 4 → (((s.slot p k).turnEnded && mFlag m 6) || mFlag m 7) = true) → (mPhase m = 5 → mFlag m 7 = decide (ph = 3)) →
      (∀ f ∈ (s.part p).fetches, f.slot ≠ k) → ∃ t, exec (.mfPhase p) s = .next t ∧
      writes t (mWithPhase (if ph = 3 then mWithFlag m 7 false else m) ph s.epoch)) ∧
    (s.Ready p 0x61 c → held → (s.slot p k).gone = false → mCrcOk m = true → s.outgoingOf p k = none →
      (mPhase m = 3 ∧ ph = 6 ∧ (s.slot p k).turnEnded = true ∧ mFlag m 6 = false ∨
        mPhase m ≤ 5 ∧ (s.slot p k).done = false ∧ (ph = 7 ∧ (s.slot p k).cancel = true ∨ ph = 8)) →
      ∃ t, exec (.mfPhase p) s = .next t ∧ t.manifest p k = mWithPhase m ph s.epoch ∧ (t.drv p).ctxPc c.disp = next ∧
        ∀ n, s.mgrNode = some n → t.Posted n (.finalManifest (mWithPhase m ph s.epoch))) ∧
    (s.Ready p 0x61 c → held → (s.slot p k).gone = false → mCrcOk m = true → s.outgoingOf p k = none → mPhase m ≤ 5 →
      (s.slot p k).done = false → ph ≠ 8 → (ph = 7 → (s.slot p k).cancel = false) →
      (mPhase m, ph) ∉ [(1, 2), (1, 3), (2, 3), (3, 4), (3, 6), (5, 1), (5, 3)] →
      ∃ t, exec (.mfPhase p) s = .next t ∧ t.manifest p k = mWithPhase m 8 s.epoch ∧ (t.drv p).ctxPc c.disp = next ∧
        (t.slot p k).faulted = true ∧ (t.drv p).faultSeq = d.faultSeq + 1 ∧
        (d.faults.length < 16 → ∃ r, (t.drv p).faults = d.faults ++ [r] ∧ r.status = St.phaseIllegal ∧ r.tag = k ∧
          r.pc = c.pc ∧ r.detail0 = BitVec.ofNat 64 (mPhase m + 16 * ph)) ∧
        ∀ n, s.mgrNode = some n → t.Posted n (.finalManifest (mWithPhase m 8 s.epoch))) ∧
    (s.Ready p 0x63 c → held → (∀ e ∈ d.entries, s.refersTo p k e = false) →
      ((s.slot p k).gone = true ∨ 6 ≤ mPhase m ∧ mPhase m ≤ 8) → ∃ t, exec (.mfFree p) s = .next t ∧
      t = { s with parts := t.parts, bar0 := t.bar0 } ∧ (∀ p' : PartId, p' ≠ p → t.part p' = s.part p') ∧
      t.part p = { s.part p with drv := t.drv p, slots := (t.part p).slots } ∧
      (∀ j, t.slot p j = if j = k then {} else s.slot p j) ∧ (t.drv p).ctxPc c.disp = next) ∧
    (s.Ready p 0x63 c → held → (∃ e ∈ d.entries, e.tag = k ∨ k ∈ e.members ∨ ∃ n, e.convoy = some n ∧
        ∃ x ∈ s.cvMembers p n, x.2 = k) → ∃ t, exec (.mfFree p) s = .next t ∧ s.OnlyDrv t p ∧
      t.drv p = { d with stalled := true }) ∧
    (∀ i key, (i, key) ∈ [((.mfRd p : Instr), 0x60), (.mfPhase p, 0x61), (.mfFlag p, 0x62), (.mfFree p, 0x63),
        (.smpCancel p, 0x52)] → s.Ready p key c → ¬held →
      ∃ t, exec i s = .next t ∧ s.DroverFaulted t p c St.operandRange)

/-- CV_JOIN writes the lowest invalid row of its convoy and sets its predicate, or writes 0 to the predicate and
changes nothing of hold SRAM; CV_LEAVE clears VALID of the member's row; SMP_CANCEL of a member of a convoy sets its
cancel bit, which its commit cycle reads (R182, R196, R197). Where the rules leave a point open this states the
model's choice (assumption log 33). -/
def Obligations.ConvoyMembership : Prop :=
  ∀ (s : State) (p : PartId) (c : Ctx),
    let d := s.drv p
    let n := (d.sreg c.disp (iSrcA c.w)).toNat
    let k := (d.sreg c.disp (iSrcB c.w)).toNat
    let m := s.manifest p k
    let ready := fun key => s.Ready p key c ∧ s.cvDefined p n = true ∧ s.slotOk p k = true ∧
      (∀ e ∈ d.entries, e.convoy ≠ some n)
    let header := s.cvBase p + 64 * n
    (∀ r, ready 0x64 → mCrcOk m = true → s.cvFreeRow p n = some r → s.convoyRowOf p k = none → mNextPos m ≠ 0 →
      (s.slot p k).done = false → r < (s.part p).rowLimit → 0 < iDst c.w →
      ∃ t, exec (.cvJoin p) s = .next t ∧ (t.drv p).pred c.disp (iDst c.w) = true ∧
      rowValid (t.cvWord p r) = true ∧ t.cvSlot p r = k ∧ rowPos (t.cvWord p r) = mNextPos m - 1 ∧
      (∀ tok, (s.logToken p m (mNextPos m - 1)).1 = some tok → rowToken (t.cvWord p r) = tok) ∧
      (t.drv p).ctxPc c.disp = BitVec.ofNat 14 (c.pc + 1) ∧
      ∀ a, (a < s.cvRowAt p r ∨ s.cvRowAt p r + 16 ≤ a) → (a < header ∨ header + 4 ≤ a) →
        t.holdByte p a = s.holdByte p a) ∧
    (ready 0x64 → mCrcOk m = true →
      (s.cvFreeRow p n = none ∨ (s.convoyRowOf p k).isSome ∨ mNextPos m = 0 ∨ (s.slot p k).done = true) → 0 < iDst c.w → ∃ t, exec (.cvJoin p) s = .next t ∧ s.OnlyDrv t p ∧
      (t.drv p).pred c.disp (iDst c.w) = false ∧ (t.drv p).ctxPc c.disp = BitVec.ofNat 14 (c.pc + 1) ∧
      t.reg (ptBase p + 0x1100 + 8 * 30) = s.reg (ptBase p + 0x1100 + 8 * 30) + 1) ∧
    (∀ i, ready 0x65 → (s.cvMembers p n).find? (fun x => x.2 = k) = some (i, k) →
      ∃ t, exec (.cvLeave p) s = .next t ∧ rowValid (t.cvWord p (s.cvFirst p n + i)) = false ∧
      t.cvSlot p (s.cvFirst p n + i) = k ∧ (t.drv p).ctxPc c.disp = BitVec.ofNat 14 (c.pc + 1) ∧
      (∀ p' : PartId, p' ≠ p → t.part p' = s.part p') ∧ t.mem = s.mem) ∧
    (let k := (d.sreg c.disp (iSrcA c.w)).toNat
     s.Ready p 0x52 c → s.slotOk p k = true → (s.slot p k).gone = false → (s.convoyRowOf p k).isSome →
      mPhase (s.manifest p k) ∈ [0, 1, 3, 5] → (∀ e ∈ d.entries, iOp e.insn ≠ 0x50) →
      ∃ t, exec (.smpCancel p) s = .next t ∧
      t = { s with parts := t.parts, bar0 := t.bar0 } ∧ (∀ p' : PartId, p' ≠ p → t.part p' = s.part p') ∧
      t.part p = { s.part p with drv := t.drv p, slots := (t.part p).slots } ∧
      ∀ j, t.slot p j = if j = k then { s.slot p k with cancel := true } else s.slot p j)

/-- An engine instruction issues into the tail of the queue it names with its operands captured, behind every
instruction issued before it, and stalls while 32 are queued there; an encoding error faults before the predicate is
looked at, a pending register stalls, and a false predicate skips an instruction, which still posts its signal with
FAULT clear (R79, R81 to R84, R110). Where the rules leave a point open this states the model's choice (assumption
log 13, 15). -/
def Obligations.InstructionsIssue : Prop :=
  (∀ (s : State) (p : PartId) (c : Ctx) (i : Instr) (op : Nat),
    let d := s.drv p
    let q := iQueue c.w
    (i, op) ∈ engineRows p →
    s.Ready p op c → (op = 0x83 → (s.reg (pcfgOff p)).getLsbD 4 = true) →
    ((d.queue q).length < 32 → ∃ t e, exec i s = .next t ∧ s.Advanced t p c (BitVec.ofNat 14 (c.pc + 1)) ∧
      (t.drv p).queue q = d.queue q ++ [e] ∧ (∀ q' : Nat, q' ≠ q → (t.drv p).queue q' = d.queue q') ∧
      e.insn = c.w ∧ e.uid = d.nextUid ∧ (t.drv p).nextUid = d.nextUid + 1 ∧ e.phase = .queued ∧
      e.da = d.dreg (iDa c.w) ∧ e.db = d.dreg (iDb c.w) ∧ e.dc = d.dreg (iDc c.w) ∧
      e.sa = d.sreg c.disp (iSa c.w) ∧ e.sb = d.sreg c.disp (iSb c.w) ∧ e.sc = d.sreg c.disp (iSc c.w) ∧
      (iWaitEn c.w = true → e.waitOn = some (iWaitSig c.w, (d.sreg c.disp (iWaitReg c.w)).setWidth 32)) ∧
      (∀ x k, (t.drv p).sreg x k = d.sreg x k) ∧ (t.drv p).dregs = d.dregs) ∧
    (32 ≤ (d.queue q).length → ∃ t, exec i s = .next t ∧ s.OnlyDrv t p ∧ t.drv p = { d with stalled := true } ∧
      t.reg (ptBase p + 0x1100 + 8) = s.reg (ptBase p + 0x1100 + 8) + 1)) ∧
  (∀ (s : State) (p : PartId) (c : Ctx) (i : Instr) (key : Nat), s.fetch p = .word c → (i, key) ∈ localRows p ++ engineRows p →
    let d := s.drv p
    (∀ k, rowKey c.w = some key → illegal d.isaMax c.w = some k → ∃ t, exec i s = .next t ∧
      s.DroverFaulted t p c St.illegalInsn) ∧
    (rowKey c.w = some key → illegal d.isaMax c.w = none → (∃ r ∈ scalarRegs c.w, regKey c.disp r ∈ d.pendingRegs) →
      ∃ t, exec i s = .next t ∧ s.OnlyDrv t p ∧ t.drv p = { d with stalled := true } ∧
      t.reg (ptBase p + 0x1100 + 16) = s.reg (ptBase p + 0x1100 + 16) + 1) ∧
    (rowKey c.w = some key → illegal d.isaMax c.w = none → (∀ r ∈ scalarRegs c.w, regKey c.disp r ∉ d.pendingRegs) →
      d.pred c.disp (iPred c.w) = iPneg c.w → ∃ t, exec i s = .next t ∧ s.OnlyDrv t p ∧
      t.drv p = { d with mainPc := (t.drv p).mainPc, dispPc := (t.drv p).dispPc, stalled := false
                         sigCount := (t.drv p).sigCount, sigFault := (t.drv p).sigFault } ∧
      (t.drv p).ctxPc c.disp = BitVec.ofNat 14 (c.pc + 1) ∧ (t.drv p).ctxPc (!c.disp) = d.ctxPc (!c.disp) ∧
      (∀ g, (t.drv p).count g = if g = iPost c.w ∧ iQueue c.w ≤ 8 ∧ g ≠ 0xFF then d.count g + 1 else d.count g) ∧
      (∀ g, (t.drv p).sfault g = d.sfault g)) ∧
    (rowKey c.w ≠ none → rowKey c.w ≠ some key → exec i s = .next s))

/-- A wait condition of a queue head holds when the count less the captured value, modulo 2^32, is less than 2^31:
the head then starts, or is skipped where the signal carries FAULT, and waits before. An instruction whose effect is
done retires from the head: it writes its register, posts its signal once, which wraps modulo 2^32, and is counted; a
remote post adds one to its signal while the target serves the job (R80, R83, R86, R87, R91, R96). Where the rules
leave a point open this states the model's choice (assumption log 15, 17). -/
def Obligations.HeadsStartAndRetire : Prop :=
  (∀ (s : State) (p : PartId) (q : QueueId) (e : QEntry) (rest : List QEntry),
    let d := s.drv p
    d.queue q.val = e :: rest → e.phase = .queued → d.dstate ≠ .offline → d.dstate ≠ .switchedOut →
    (∀ g k, e.waitOn = some (g, k) → 2 ^ 31 ≤ (d.count g - k).toNat → exec (.queueHeadStart p q) s = .next s) ∧
    ((∀ g k, e.waitOn = some (g, k) → (d.count g - k).toNat < 2 ^ 31 ∧ d.sfault g = false) →
      ¬(e.tag < 1024 ∧ (s.slot p e.tag).faulted = true) → s.startFault p e = none → (∀ x ∈ rest, x.uid ≠ e.uid) →
      e.att = none → e.spt = none → iOp e.insn ∉ [0x40, 0x41, 0x44, 0x83] →
      ∃ t x, exec (.queueHeadStart p q) s = .next t ∧ s.OnlyDrv t p ∧ t.bar0 = s.bar0 ∧
        (t.drv p).queue q.val = x :: rest ∧
        x = { e with
          phase := .running
          members := match e.convoy with
            | some n => (s.cvMembers p n).map (·.2)
            | none => []
          att := if iOp e.insn = 0x43 then
              some { geom := s.geom p, cores := (s.part p).presentCores, plans := [], zeroRows := [] } else none
          jobShare := s.jobShare ((s.jobOf p).getD 0)
          spt := if iOp e.insn = 0x80 then some s.spt else none } ∧
        t.drv p = { d with queues := (t.drv p).queues } ∧ ∀ q' : Nat, q' ≠ q.val → (t.drv p).queue q' = d.queue q') ∧
    (∀ g k, e.waitOn = some (g, k) → (d.count g - k).toNat < 2 ^ 31 → d.sfault g = true → iOp e.insn ≠ 0x50 →
      (∀ x ∈ rest, x.phase = .queued) → ∃ t, exec (.queueHeadStart p q) s = .next t ∧ s.OnlyDrv t p ∧
        (t.drv p).queue q.val = rest ∧ (iPost e.insn ≠ 0xFF → (t.drv p).count (iPost e.insn) = d.count (iPost e.insn) + 1 ∧
          (t.drv p).sfault (iPost e.insn) = true) ∧
        t.reg (ptBase p + 0x1100 + 8 * (13 + q.val)) = s.reg (ptBase p + 0x1100 + 8 * (13 + q.val)) + 1)) ∧
  (∀ (s : State) (p : PartId),
    (∀ (q : QueueId) (extra : Nat) (e : QEntry) (rest : List QEntry),
      let d := s.drv p
      d.queue q.val = e :: rest → e.phase = .done → d.dstate ≠ .switchedOut → iOp e.insn ≠ 0x50 → e.bales = [] →
      s.accessHeld p q.val e = false →
      (∀ x ∈ rest, x.phase ≠ .skipped) → ∃ t, exec (.instructionRetire p q extra) s = .next t ∧
        (t.drv p).queue q.val = rest ∧ (∀ q' : Nat, q' ≠ q.val → (t.drv p).queue q' = d.queue q') ∧
        (∀ k, e.wb = some k → k < 64 → e.wbOk = true → (t.drv p).sreg false k = e.wbVal) ∧
        (∀ k, k < 64 → (e.wb ≠ some k ∨ e.wbOk = false) → (t.drv p).sreg false k = d.sreg false k) ∧
        (∀ g, (t.drv p).count g = if g = iPost e.insn ∧ g ≠ 0xFF then d.count g + 1 else d.count g) ∧
        (∀ g, (t.drv p).sfault g = if g = iPost e.insn ∧ g ≠ 0xFF then d.sfault g || e.faultPost else d.sfault g) ∧
        t.reg (ptBase p + 0x1100 + 8 * (4 + q.val)) = s.reg (ptBase p + 0x1100 + 8 * (4 + q.val)) + 1 ∧
        (q.val ≠ 6 → q.val ≠ 7 → t.mem = s.mem) ∧ (t.part p).hsram = (s.part p).hsram ∧
        ∀ p' : PartId, p' ≠ p → t.part p' = s.part p') ∧
    (∀ (q : QueueId) (extra m : Nat) (e : QEntry), s.head p q.val = some e → m < 32 →
      (∃ x ∈ (s.mu m).held ++ (s.mu m).parked, x.who = some (p.val, e.uid)) →
      exec (.instructionRetire p q extra) s = .next s) ∧
    (∀ (job : JobId) (g : BitVec 8), (p, job, g.toNat) ∈ s.remotePosts →
      ∃ t, exec (.remotePostArrival p job g) s = .next t ∧
        t.remotePosts = s.remotePosts.erase (p, job, g.toNat) ∧
        (∀ k, (t.drv p).count k = if k = g.toNat ∧ (s.part p).st = .serving ∧ (s.part p).curJob = some job
          then (s.drv p).count k + 1 else (s.drv p).count k) ∧
        (∀ k, (t.drv p).sfault k = (s.drv p).sfault k) ∧ (t.drv p).queues = (s.drv p).queues ∧
        (∀ p' : PartId, p' ≠ p → t.part p' = s.part p') ∧ t.mem = s.mem))

/-- A wait condition gN ≥ sK, of a queue head and of WAIT, holds when the count less the value captured, modulo 2^32,
is less than 2^31: the head leaves its waiting state, or stands; WAIT goes on, or stalls. A post adds 1 to a count
modulo 2^32: counts wrap and do not saturate (R87). -/
def Obligations.WaitConditionsWrap : Prop :=
  ∀ (s : State) (p : PartId),
    let d := s.drv p
    (∀ (q : QueueId) (e : QEntry) (rest : List QEntry) (g : Nat) (k : BitVec 32), d.queue q.val = e :: rest →
      e.phase = .queued → d.dstate ≠ .offline → d.dstate ≠ .switchedOut → (∀ x ∈ rest, x.uid ≠ e.uid) →
      e.waitOn = some (g, k) →
      let diff := ((d.count g).toNat + 2 ^ 32 - k.toNat) % 2 ^ 32
      (diff < 2 ^ 31 → ∃ t, exec (.queueHeadStart p q) s = .next t ∧
        ∀ x, t.head p q.val = some x → x.uid = e.uid → x.phase ≠ .queued) ∧
      (2 ^ 31 ≤ diff → exec (.queueHeadStart p q) s = .next s)) ∧
    (∀ c : Ctx, s.Ready p 0xA1 c →
      let diff := ((d.count (iSigLo c.w)).toNat + 2 ^ 32 - (d.sreg c.disp (iReg c.w)).toNat % 2 ^ 32) % 2 ^ 32
      ∃ t, exec (.wait p) s = .next t ∧ (t.drv p).sigCount = d.sigCount ∧
        (diff < 2 ^ 31 → (t.drv p).stalled = false ∧ (t.drv p).ctxPc c.disp = BitVec.ofNat 14 (c.pc + 1)) ∧
        (2 ^ 31 ≤ diff → (t.drv p).stalled = true ∧ (t.drv p).ctxPc c.disp = d.ctxPc c.disp)) ∧
    (∀ (q : QueueId) (extra : Nat) (e : QEntry) (rest : List QEntry), d.queue q.val = e :: rest → e.phase = .done →
      d.dstate ≠ .switchedOut → s.accessHeld p q.val e = false → (∀ x ∈ rest, x.phase ≠ .skipped) →
      iPost e.insn ≠ 0xFF → ∃ t, exec (.instructionRetire p q extra) s = .next t ∧
        ((t.drv p).count (iPost e.insn)).toNat = ((d.count (iPost e.insn)).toNat + 1) % 2 ^ 32)

/-- The element-wise vector opcodes write to every row of dA the function of the rows of their sources, converted to
the format of dA, and nothing else; their cost is that of Table 4.11 (R125, R149, R150). Where the rules leave a
point open this states the model's choice (assumption log 3). -/
def Obligations.VectorElementwise : Prop :=
  ∀ (s : State) (p : PartId) (q : Nat) (e : QEntry),
    let w := e.insn
    let beats := fun k : Nat => 24 + k * ((tElems e.da + 16 * s.vxCores p w - 1) / (16 * s.vxCores p w))
    let gives := fun (i : Instr) (op : Nat) (rows : List (List Fl)) (cost : Nat) => s.runningHead p op = some (q, e) →
      ∃ t, exec i s = .next t ∧ s.EngineWrote t p q e rows cost
    let two := fun (f : Fl → Fl → Fl) =>
      (List.range (tRows e.da)).map fun i => List.zipWith f (s.tensorRow p e.db i) (s.tensorRow p e.dc i)
    let one := fun (f : Fl → Fl) => (List.range (tRows e.da)).map fun i => (s.tensorRow p e.db i).map f
    let same := fun x : Desc => tRows e.da = tRows x ∧ tCols e.da = tCols x
    tFits e.da → 0 < s.vxCores p w → (vxOne w = true → (s.part p).absentBit (vxCore w) = false) → same e.db →
    descInvalid e.db = none →
    (tFmt e.da ≤ 4 → tFmt e.db ≤ 4 →
      (tFmt e.dc ≤ 4 → same e.dc →
        gives (.vxAdd p .run) 0x30 (two f32add) (beats 1) ∧ gives (.vxMul p .run) 0x31 (two f32mul) (beats 1) ∧
        gives (.vxSwiglu p .run) 0x35 (two swiglu) (beats 4)) ∧
      gives (.vxScale p .run) 0x32 (one fun x => f32mul x (ofF32 (e.sa.setWidth 32))) (beats 1) ∧
      gives (.vxGelu p .run) 0x36 (one gelu) (beats 4) ∧ gives (.vxSfu p .run) 0x39 (one (sfu (fld w 35 32))) (beats 4)) ∧
    gives (.vxCvt p .run) 0x37 (one fun x => x) (beats 1)

/-- VX_REDUCE writes one sum or maximum a row, VX_RMSNORM each row scaled by the reciprocal root of its mean square
and by the weights, and VX_ROPE the rows rotated in place by the angles of their positions (R151, R444, Table 4.11).
Where the rules leave a point open this states the model's choice (assumption log 20, 21). -/
def Obligations.VectorRowOpcodes : Prop :=
  ∀ (s : State) (p : PartId) (q : Nat) (e : QEntry),
    let w := e.insn
    let n := tRows e.da
    let div := fun a : Nat => (a + 16 * s.vxCores p w - 1) / (16 * s.vxCores p w)
    tFits e.da → 0 < s.vxCores p w → (vxOne w = true → (s.part p).absentBit (vxCore w) = false) → tFmt e.da ≤ 4 →
    (tFmt e.db ≤ 4 → tRows e.db = n → tCols e.da = 1 → s.runningHead p 0x38 = some (q, e) →
      ∃ t, exec (.vxReduce p .run) s = .next t ∧
        s.EngineWrote t p q e ((List.range n).map fun i =>
          let c := s.rowCores p w i
          [if w.getLsbD 32 then rowReduce c (.inf true) f32max f32max (s.tensorRow p e.db i)
           else rowReduce c .zero f32add f32add (s.tensorRow p e.db i)]) (43 + div (tElems e.db))) ∧
    (tFmt e.db ≤ 4 → tFmt e.dc ≤ 4 → tRows e.db = n → tCols e.db = tCols e.da → tCols e.dc = tCols e.da →
      fld w 38 32 < tRows e.dc → s.runningHead p 0x33 = some (q, e) →
      ∃ t rows, exec (.vxRmsnorm p .run) s = .next t ∧ s.EngineWrote t p q e rows (48 + 2 * div (tElems e.da)) ∧
        rows.length = n ∧ ∀ i (h : i < rows.length),
          let x := s.tensorRow p e.db i
          let sum := rowReduce (s.rowCores p w i) .zero (fun acc y => f32fma y y acc) f32add x
          let eps := if fld w 31 0 = 0 then ofF32 0x3727C5AC#32 else ofF32 (w.setWidth 32)
          let scale := sfu 2 (f32add (f32div sum (.fin false (tCols e.da) 0)) eps)
          rows[i] = if x.all Fl.isZero then x.map fun _ => Fl.zero
            else List.zipWith (fun y g => f32mul (f32mul y scale) g) x (s.tensorRow p e.dc (fld w 38 32))) ∧
    (let half := if fld w 38 32 = 0 then 64 else fld w 38 32
     let cv := e.convoy.getD 0
     n ≤ s.cvCap p cv → tCols e.da % (2 * half) = 0 → e.sa = 0 → s.runningHead p 0x34 = some (q, e) →
      ∃ t rows, exec (.vxRope p .run) s = .next t ∧ t.DoneAt p q e (288 + 2 * div (tElems e.da)) ∧
        s.TensorWritten t p e.da rows ∧ rows.length = n ∧
        (∀ i (h : i < rows.length),
          let pos := fld (s.hsWord p (s.cvBase p + 256 + 16 * (s.cvFirst p cv + i))) 23 0
          let base := if fld w 31 0 = 0 then 0x461C4000#32 else w.setWidth 32
          let angles := (List.range half).map fun k => ropeAngle pos k half base
          rows[i] = (splitHeads (2 * half) (tCols e.da / (2 * half) + 1) (s.tensorRow p e.da i)).flatMap
            (ropeHead half angles)) ∧
        (∃ h, (t.part p).rope = some h ∧ h.convoy = cv ∧ h.rows = n ∧ h.half = half) ∧
        t = { s with parts := t.parts, bar0 := t.bar0 } ∧ (∀ p' : PartId, p' ≠ p → t.part p' = s.part p') ∧
        s.RegsBut t (liveRegs p))

/-- MX_GEMM writes dB · dCᵀ to dA: each element adds the block dot products of its K ranges in order, beginning at
dA's value under ACC; MX_LORA adds the low-rank update of a member's adapter to its row alone (R138 to R148, R203).
Where the rules leave a point open this states the model's choice (assumption log 23, 24, 25). -/
def Obligations.MatrixResults : Prop :=
  ∀ (s : State) (p : PartId) (q : Nat) (e : QEntry), tFits e.da → 0 < s.mxPresent p →
    (s.runningHead p 0x20 = some (q, e) → gemmBad e = none → tCompressed e.dc = false →
      ∃ t rows, exec (.mxGemm p .run) s = .next t ∧
        s.EngineWrote t p q e rows (96 + ceilDiv (2 * tRows e.db * tRows e.dc * tCols e.db)
          (9216 * s.mxPresent p * rate2 (tFmt e.dc))) ∧
        rows.length = tRows e.db ∧ ∀ i (h : i < rows.length), rows[i].length = tRows e.dc ∧
          ∀ j (h' : j < rows[i].length),
            let a := portRow (tFmt e.dc) (tFmt e.db) (tCols e.db) (s.hsRead p (tRowAt e.db i) (tRowBytes e.db))
              (s.hsRead p (tScaleAt e.db i) (tScaleBytes e.db))
            let b := blockRow (tFmt e.dc) (tCols e.dc) (s.hsRead p (tRowAt e.dc j) (tRowBytes e.dc))
              (s.hsRead p (tScaleAt e.dc j) (tScaleBytes e.dc))
            let start := if e.insn.getLsbD 2 then (s.tensorRow p e.da i).getD j .zero else .zero
            rows[i][j] = dotRow (decide (tFmt e.dc = 1 ∨ tFmt e.dc = 2)) (tRows e.db) a b start) ∧
    (s.runningHead p 0x20 = some (q, e) → gemmBad e = none → tCompressed e.dc = true →
      ∀ ws xs, s.portWeights p e.dc = .ok (ws, xs) →
      ∃ t cost, exec (.mxGemm p .run) s = .next t ∧ t.DoneAt p q e cost ∧
        s.TensorWritten t p e.da (s.gemmRows p e 0 ws)) ∧
    (∀ cv i slot k ad s1 s2 s3 dir down up, s.runningHead p 0x21 = some (q, e) → e.convoy = some cv →
      s.cvMembers p cv = [(i, slot)] → tFmt e.da = 0 → s.cvCap p cv ≤ tRows e.da → s.cvCap p cv ≤ tRows e.db →
      e.sa.toNat < 32 →
      let m := s.manifest p slot
      mCrcOk m = true → mFlag m flAdapter = true → s.adResolve (mAdapter m) (mAdapterGen m) = some (k, ad) →
      s.stRead (s.jobOf p) (ad.addr + 32 * e.sa.toNat) 32 = (.ok dir, s1) → leAt dir 16 4 = tCols e.db →
      leAt dir 20 4 = tCols e.da → 0 < tCols e.db → (portFormat ad.fmt (tFmt e.db)).isSome →
      s1.adMatrix (s.jobOf p) ad.fmt (ad.addr + leAt dir 0 8) ad.rank (tCols e.db) = (.ok down, s2) →
      s2.adMatrix (s.jobOf p) ad.fmt (ad.addr + leAt dir 8 8) (tCols e.da) ad.rank = (.ok up, s3) →
      ∃ t cost, exec (.mxLora p .run) s = .next t ∧ t.DoneAt p q e cost ∧
        t.hsRead p (tRowAt e.da i) (tRowBytes e.da) =
          (encodeRow 0 (loraRow ad.fmt (tFmt e.db) (tCols e.db) ad.rank (s.hsRead p (tRowAt e.db i) (tRowBytes e.db))
            (s.hsRead p (tScaleAt e.db i) (tScaleBytes e.db)) down up (s.tensorRow p e.da i))).1 ∧
        ∀ a, (a < tRowAt e.da i ∨ tRowAt e.da i + tRowBytes e.da ≤ a) → t.holdByte p a = s.holdByte p a) ∧
    (∀ cv, s.runningHead p 0x21 = some (q, e) → e.convoy = some cv → tFmt e.da = 0 → s.cvCap p cv ≤ tRows e.da →
      s.cvCap p cv ≤ tRows e.db → e.sa.toNat < 32 →
      (∀ x ∈ s.cvMembers p cv, mCrcOk (s.manifest p x.2) = true ∧ mFlag (s.manifest p x.2) flAdapter = false) →
      ∃ t, exec (.mxLora p .run) s = .next t ∧ s.EngineWrote t p q e [] 96) ∧
    (∀ cv r, s.runningHead p 0x21 = some (q, e) → e.convoy = some cv → tFmt e.da = 0 → s.cvCap p cv ≤ tRows e.da →
      s.cvCap p cv ≤ tRows e.db → e.sa.toNat < 32 →
      (s.cvMembers p cv).foldl (fun x m => loraMember p q e x m.1 m.2) ⟨s, 0, [], none⟩ = r → r.stop = none →
      ∃ t, exec (.mxLora p .run) s = .next t ∧ t.mem = r.s.mem ∧ (t.part p).hsram = (r.s.part p).hsram ∧
        t.DoneAt p q e (96 + 128 * r.seen.length + ceilDiv r.cost (2 * 9216 * s.mxPresent p)))

/-- DMA_COPY, DMA_GATHER and DMA_FILL write the rows of dA and no other byte of hold SRAM; a copy from the state
range or into it moves the bytes the accesses give, and DMA_FILL leaves the block scales of dA as they stand. A
source on another node waits for the lines it lacks; of a compressed source the image that its bales expand to is
copied (R124, R126, R215, R443, Table 4.10). Where the rules leave a point open this states the model's choice
(assumption log 37, 90). -/
def Obligations.DmaMovesRows : Prop :=
  ∀ (s : State) (p : PartId) (q : Nat) (e : QEntry),
    let n := tRows e.da
    let bytesIn := (s.part p).hsram
    let wrote := fun (t : State) (row : Nat → Bytes × Bytes) (cost : Nat) =>
      s.OnlyEngine t p q ∧ t.DoneAt p q e cost ∧
      (∀ i, i < n → t.hsRead p (tRowAt e.da i) (row i).1.length = (row i).1 ∧
        t.hsRead p (tScaleAt e.da i) (row i).2.length = (row i).2) ∧
      (∀ a, (∀ i, i < n → (a < tRowAt e.da i ∨ tRowAt e.da i + tRowBytes e.da ≤ a) ∧
        (a < tScaleAt e.da i ∨ tScaleAt e.da i + tScaleBytes e.da ≤ a)) → t.holdByte p a = memByte bytesIn a) ∧
      s.RegsBut t (liveRegs p ++ [ptBase p + 0x3000, 0x701000 + 0x80 * t.shareOf p e.tag + 0x48])
    let from_ := fun (d : Desc) (i : Nat) =>
      (s.hsRead p (tRowAt d i) (tRowBytes d), s.hsRead p (tScaleAt d i) (tScaleBytes d))
    let holds := fun d : Desc => tSpace d = 0 ∧ tCompressed d = false ∧ descInRange d = true
    (tFits e.da → holds e.db → sameTensor e.da e.db = true → s.runningHead p 0x10 = some (q, e) →
      ∃ t, exec (.dmaCopy p .run) s = .next t ∧ wrote t (from_ e.db) (40 + ceilDiv (tBytes e.db) 256)) ∧
    (tFits e.da → holds e.db → holds e.dc → tCols e.da = tCols e.db → tFmt e.da = tFmt e.db → tFmt e.dc = 0 →
      0 < tCols e.dc → n ≤ tElems e.dc → ∀ num : Nat → Nat,
      (∀ i, i < n → num i = ofLe (s.hsRead p (tRowAt e.dc (i / tCols e.dc) + 4 * (i % tCols e.dc)) 4) ∧
        num i < tRows e.db) → s.runningHead p 0x11 = some (q, e) →
      ∃ t, exec (.dmaGather p .run) s = .next t ∧
        wrote t (fun i => from_ e.db (num i)) (40 + n * ceilDiv (tRowBytes e.da) 128)) ∧
    (tFits e.da → s.runningHead p 0x12 = some (q, e) → ∃ t, exec (.dmaFill p .run) s = .next t ∧
      wrote t (fun _ => ((List.range (tRowBytes e.da)).map fun k => BitVec.ofNat 8 (e.sa.toNat / 256 ^ (k % 8)), []))
        (40 + ceilDiv (n * tRowBytes e.da) 256) ∧
      ∀ a, (∀ i, i < n → a < tRowAt e.da i ∨ tRowAt e.da i + tRowBytes e.da ≤ a) → t.holdByte p a = s.holdByte p a) ∧
    (∀ rows s1, tFits e.da → tSpace e.db ≠ 0 → e.needs s.fab.node (tSpace e.db) (rowRuns e.db (List.range n)) = [] → tCompressed e.db = false → sameTensor e.da e.db = true →
      e.readRows p e.db (List.range n) s = (.ok rows, s1) → s.runningHead p 0x10 = some (q, e) →
      ∃ t, exec (.dmaCopy p .run) s = .next t ∧ t.DoneAt p q e (40 + ceilDiv (tBytes e.db) 128) ∧ t.mem = s1.mem ∧
        ∀ i (h : i < rows.length), t.hsRead p (tRowAt e.da i) rows[i].1.length = rows[i].1 ∧
          t.hsRead p (tScaleAt e.da i) rows[i].2.length = rows[i].2) ∧
    (∀ l lines, tSpace e.db = 2 → tCompressed e.db = false → sameTensor e.da e.db = true →
      e.needs s.fab.node 2 (rowRuns e.db (List.range n)) = l :: lines → e.owed = 0 →
      (∀ r ∈ lineRuns (l :: lines), s.sendOk p (tagTenant (s.tagFor p e.tag)) false r.1 (64 * r.2) = true) →
      (∀ a ∈ l :: lines, s.Room p.val (Fin.ofNat 1024 (a / 2 ^ 42)) (lines.length + 1)) →
      s.runningHead p 0x10 = some (q, e) → ∃ t, exec (.dmaCopy p .run) s = .next t ∧ t.WaitsAt p q e ∧ t.mem = s.mem ∧
        (t.part p).hsram = (s.part p).hsram ∧ s.fab.sent.length < t.fab.sent.length) ∧
    (∀ x s1 s2 s3 sc, tFits e.da → tCompressed e.db = true → sameTensor e.da e.db = true →
      let m := imageOfDesc e.db
      let rd := e.read p (tSpace e.db)
      storedBytes rd m s = (.ok true, s1) → expandBales rd m m.n 0 Expanded.empty s1 = (x, s2) → x.stop = none →
      e.readScales p e.db (List.range n) s2 = (.ok sc, s3) → s.runningHead p 0x10 = some (q, e) →
      ∃ t, exec (.dmaCopy p .run) s = .next t ∧ t.mem = s3.mem ∧
        t.DoneAt p q e (40 + max (ceilDiv (tBytes e.db) 128) (ceilDiv x.input 64)) ∧
        ∀ i, i < n →
          let row := (x.bytes.drop (i * tStride e.db)).take (tRowBytes e.db)
          t.hsRead p (tRowAt e.da i) row.length = row ∧
            t.hsRead p (tScaleAt e.da i) (sc.getD i []).length = sc.getD i []) ∧
    (∀ s1, tSpace e.da = 1 → holds e.db → sameTensor e.da e.db = true →
      s.putRows p e.da ((List.range n).map fun i => (s.hsRead p (tRowAt e.db i) (tRowBytes e.db),
        if fmtBlock (tFmt e.db) then s.hsRead p (tScaleAt e.db i) (tScaleBytes e.db) else [])) = (none, s1) →
      s.runningHead p 0x10 = some (q, e) → ∃ t, exec (.dmaCopy p .run) s = .next t ∧
        t.DoneAt p q e (40 + ceilDiv (tBytes e.db) 128) ∧ t.mem = s1.mem ∧ (t.part p).hsram = (s.part p).hsram)

/-- DMA_LDS reads and DMA_STS writes eight bytes of hold SRAM or of the state range, ACCT_ADD adds to a counter of
its request's tenant, ACCT_RD reads one, SIG_REMOTE sends a post to a partition of the same job. SCATTER_KV and
SCATTER_CHUNK append the rows of a request to its pages, all of them or none (R91, R124, R161 to R163, R337, R445).
Where the rules leave a point open this states the model's choice (assumption log 39, 90, 96). -/
def Obligations.ScalarTransfersAndScatter : Prop :=
  (∀ (s : State) (p : PartId) (q : Nat) (e : QEntry),
    let a := e.sb.toNat
    let mode := fld e.insn 3 0
    (s.runningHead p 0x13 = some (q, e) → fld e.insn 1 0 = 0 → a % 8 = 0 → a + 8 ≤ 12582912 →
      ∃ t, exec (.dmaLds p .run) s = .next t ∧ s.OnlyEngine t p q ∧ (t.part p).hsram = (s.part p).hsram ∧
        t.DoneAt p q e 40 (wordOf ((List.range 8).map fun i => s.holdByte p (a + i)))) ∧
    (∀ b s1, s.runningHead p 0x13 = some (q, e) → fld e.insn 1 0 = 1 → a % 8 = 0 → a + 8 ≤ 0x26000000000 →
      s.stRead (s.jobOf p) a 8 = (.ok b, s1) → ∃ t, exec (.dmaLds p .run) s = .next t ∧
        t.DoneAt p q e 40 (wordOf b) ∧ t.mem = s1.mem) ∧
    (s.runningHead p 0x14 = some (q, e) → fld e.insn 1 0 = 0 → a % 8 = 0 → a + 8 ≤ 12582912 →
      ∃ t, exec (.dmaSts p .run) s = .next t ∧ s.OnlyEngine t p q ∧ s.HoldWritten t p a (wordBytes e.sa) ∧
        t.DoneAt p q e 40 ∧ t.reg (ptBase p + 0x3000) = s.reg (ptBase p + 0x3000) + 8) ∧
    (∀ s1, s.runningHead p 0x14 = some (q, e) → fld e.insn 1 0 = 1 → a % 8 = 0 → a + 8 ≤ 0x26000000000 →
      s.stWrite (s.jobOf p) a (wordBytes e.sa) = (none, s1) → ∃ t, exec (.dmaSts p .run) s = .next t ∧
        t.DoneAt p q e 40 ∧ t.mem = s1.mem ∧ (t.part p).hsram = (s.part p).hsram) ∧
    (s.runningHead p 0xB0 = some (q, e) → mode < 8 → e.tag < 1024 →
      let tenant := mTenant (s.manifest p e.tag)
      ∃ t, exec (.acctAdd p .run) s = .next t ∧ t.DoneAt p q e 24 ∧
        (∀ k, tabFind s.meter.map tenant = some k → t.bar0 = s.bar0 ∧ t.meter.map = s.meter.map ∧
          ∀ x, tabGet (fun _ => 0) t.meter.sets x =
            if x = k * 8 + mode then tabGet (fun _ => 0) s.meter.sets x + e.sa else tabGet (fun _ => 0) s.meter.sets x) ∧
        (tabFind s.meter.map tenant = none → t.meter = s.meter ∧ s.RegsBut t [0x700100 + 8 * mode] ∧
          t.reg (0x700100 + 8 * mode) = s.reg (0x700100 + 8 * mode) + e.sa)) ∧
    (∀ k, s.runningHead p 0xB1 = some (q, e) → mode < 8 → a < 65536 → tabFind s.meter.map a = some k →
      ∃ t, exec (.acctRd p .run) s = .next t ∧ s.OnlyEngine t p q ∧ t.bar0 = s.bar0 ∧
        t.DoneAt p q e 24 (tabGet (fun _ => 0) s.meter.sets (k * 8 + mode))) ∧
    (∀ (target : PartId) (job : JobId), s.runningHead p 0xA3 = some (q, e) → mode = target.val →
      (s.part target).st = .serving → (s.part target).curJob = some job → (s.part p).curJob = some job →
      ∃ t, exec (.sigRemote p .run) s = .next t ∧ t.DoneAt p q e 2 ∧
        t.remotePosts = (if target = p ∧ fld e.insn 11 4 = 255 then s.remotePosts
          else s.remotePosts ++ [(target, job, fld e.insn 11 4)]) ∧ t.mem = s.mem ∧
        (t.part p).hsram = (s.part p).hsram ∧ (∀ p' : PartId, p' ≠ p → t.part p' = s.part p') ∧
        s.RegsBut t [ptBase p + 0x1100 + 8 * 27])) ∧
  (∀ (s : State) (p : PartId) (q : Nat) (e : QEntry) (g : Geom) (slot layer : Nat), g = s.geomOf p e → layer = e.sb.toNat →
    (∀ (k : QueueId) rest, (s.drv p).queue k.val = e :: rest → e.phase = .queued → iOp e.insn = 0x44 → e.waitOn = none →
      e.att = none → (s.drv p).dstate = .running → ¬(e.tag < 1024 ∧ (s.slot p e.tag).faulted = true) →
      s.startFault p e = none → (∀ x ∈ rest, x.uid ≠ e.uid) → tCols e.da = 2 * g.kv * g.d → tRows e.da ≤ 2048 →
      let counts := (s.part p).role = .generate ∧ e.sb = 0
      let full := counts ∧ s.regFld (ptBase p + 0x5028) 11 0 < (s.part p).mixRows + tRows e.da
      ∃ t x, exec (.queueHeadStart p k) s = .next t ∧ (t.drv p).queue k.val = x :: rest ∧ x.uid = e.uid ∧ t.mem = s.mem ∧
        (full → x.phase = .done ∧ x.faultPost = true ∧ x.wbOk = false ∧ (t.part p).mixRows = (s.part p).mixRows ∧
          t.reg (ptBase p + 0x5058) = s.reg (ptBase p + 0x5058) + 1) ∧
        (¬full → x.phase = .running ∧ x.att.map (·.geom) = some g ∧ t.bar0 = s.bar0 ∧
          (counts → (t.part p).mixRows = (s.part p).mixRows + tRows e.da) ∧
          (¬counts → (t.part p).mixRows = (s.part p).mixRows))) ∧
    (∀ rows c s1, s.scatterSlot p g e slot layer rows = (none, c, s1) →
      slot = e.sa.toNat → rows = List.range (tRows e.da) → s.runningHead p 0x44 = some (q, e) → tSpace e.da ≠ 2 →
      e.att.isSome = true →
      ∃ t, exec (.scatterChunk p .run) s = .next t ∧ t.DoneAt p q e (32 + c) ∧ t.mem = s1.mem ∧ t.pools = s1.pools) ∧
    (∀ i c s1, s.scatterSlot p g e slot layer [i] = (none, c, s1) → s.runningHead p 0x43 = some (q, e) →
      tSpace e.da ≠ 2 → tCols e.da = 2 * g.kv * g.d → s.cvCap p e.sa.toNat ≤ tRows e.da →
      s.cvMembers p e.sa.toNat = [(i, slot)] → (s.slot p slot).faulted = false →
      ∃ t, exec (.scatterKv p .run) s = .next t ∧
        t.DoneAt p q e (32 + if c = 0 then ceilDiv (g.rowBytes g.kvFmt) 128 else c) ∧ t.mem = s1.mem ∧
        t.pools = s1.pools) ∧
    (∀ c s1, State.scatterMembers p g q e layer (s.cvMembers p e.sa.toNat) 0 s = (none, c, s1) →
      s.runningHead p 0x43 = some (q, e) → tSpace e.da ≠ 2 → tCols e.da = 2 * g.kv * g.d →
      s.cvCap p e.sa.toNat ≤ tRows e.da →
      ∃ t, exec (.scatterKv p .run) s = .next t ∧ t.DoneAt p q e (32 + c) ∧ t.mem = s1.mem ∧ t.pools = s1.pools) ∧
    (∀ rows pos bs x c s1 s2 s3, mCrcOk (s.manifest p slot) = true → s.scatterStart p slot layer = (.ok pos, s1) →
      e.readRows p e.da rows s1 = (.ok bs, s2) →
      State.scatterRows p g slot layer (bs.map fun b => decodeRow (tFmt e.da) (tCols e.da) b.1 b.2) pos [] s2 =
        (some x, c, s3) →
      ∃ t, s.scatterSlot p g e slot layer rows = (some x, 0, t) ∧ t.mem = s2.mem ∧ t.pools = s2.pools ∧
        t.mus = s2.mus ∧ t.spt = s3.spt) ∧
    (let runs := fun (m : Manifest) (page : Target) (pos : Nat) (row : List Fl) =>
      let a := dAddr page.desc % 2 ^ 42
      let table := mPtAddr m % 2 ^ 42
      ((List.range g.kv).flatMap fun h => [false, true].flatMap fun v =>
        let x := encodeRow (dFmt page.desc) ((row.drop ((if v then g.kv * g.d else 0) + h * g.d)).take g.d)
        [(a + g.elemAt (dFmt page.desc) h (pos % 256) v, x.1), (a + g.scaleAt (dFmt page.desc) h (pos % 256) v, x.2)]) ++
      [(table + descOff page.hdr.layers (pos / 256) layer, wordBytes (setFld page.desc 8 0 (dTokens page.desc + 1)))] ++
      if page.fresh.isSome then [(table + 0x10, leBytes 4 page.hdr.pages)] else []
     let taken := fun (u t : State) (page : Target) => t.pools = match page.fresh with
      | some k => (u.poolTake ((u.jobOf p).getD 0) k).pools
      | none => u.pools
     (∀ h pos row f s1 s2 page, s.scatterRow p g slot layer pos h row = (.ok f, s1) →
       s.scatterPage p g (s.manifest p slot) h layer pos = (.ok page, s2) → s2.RunsServed (runs (s.manifest p slot) page pos row) →
       s2.RunsWritten s1 (runs (s.manifest p slot) page pos row) ∧ taken s2 s1 page) ∧
     (∀ i pos b h page s1 s2 s3 s4, s.runningHead p 0x43 = some (q, e) → tSpace e.da ≠ 2 → tCols e.da = 2 * g.kv * g.d →
       s.cvCap p e.sa.toNat ≤ tRows e.da → s.cvMembers p e.sa.toNat = [(i, slot)] → (s.slot p slot).faulted = false →
       mCrcOk (s.manifest p slot) = true → s.scatterStart p slot layer = (.ok pos, s1) →
       e.readRows p e.da [i] s1 = (.ok [b], s2) → s2.ptHdr p (s2.manifest p slot) = (.ok h, s3) →
       s3.scatterPage p g (s3.manifest p slot) h layer pos = (.ok page, s4) →
       let ws := runs (s3.manifest p slot) page pos (decodeRow (tFmt e.da) (tCols e.da) b.1 b.2)
       (∀ w ∈ ws, s4.stCheck (s4.jobOf p) w.1 w.2.length = none) → s4.RunsServed ws →
       ∃ t cost, exec (.scatterKv p .run) s = .next t ∧ t.DoneAt p q e cost ∧ s4.RunsWritten t ws ∧ taken s4 t page) ∧
     (∀ pos b h page s1 s2 s3 s4, s.runningHead p 0x44 = some (q, e) → tSpace e.da ≠ 2 → e.att.isSome = true →
       slot = e.sa.toNat → tRows e.da = 1 → mCrcOk (s.manifest p slot) = true → s.scatterStart p slot layer = (.ok pos, s1) →
       e.readRows p e.da [0] s1 = (.ok [b], s2) → s2.ptHdr p (s2.manifest p slot) = (.ok h, s3) →
       s3.scatterPage p g (s3.manifest p slot) h layer pos = (.ok page, s4) →
       let ws := runs (s3.manifest p slot) page pos (decodeRow (tFmt e.da) (tCols e.da) b.1 b.2)
       (∀ w ∈ ws, s4.stCheck (s4.jobOf p) w.1 w.2.length = none) → s4.RunsServed ws →
       ∃ t cost, exec (.scatterChunk p .run) s = .next t ∧ t.DoneAt p q e cost ∧ s4.RunsWritten t ws ∧ taken s4 t page) ∧
     (∀ row rest pos c h f s1 s2, s.ptHdr p (s.manifest p slot) = (.ok h, s1) →
       s1.scatterRow p g slot layer pos h row = (.ok f, s2) →
       State.scatterRows p g slot layer (row :: rest) pos c s =
         State.scatterRows p g slot layer rest (pos + 1) (g.rowBytes f :: c) s2)) ∧
    (∀ pos h s1 s2, s.ptHdr p (s.manifest p slot) = (.ok h, s1) → layer < h.layers →
      s1.kvLen p (s.manifest p slot) h layer = (.ok pos, s2) → s.scatterStart p slot layer = (.ok pos, s2)) ∧
    (∀ m h pos row f s1, m = s.manifest p slot → s.scatterRow p g slot layer pos h row = (.ok f, s1) →
      ∃ page t, s.scatterPage p g m h layer pos = (.ok page, t) ∧ f = dFmt page.desc ∧
        (page.fresh = none → s1.pools = t.pools) ∧
        (∀ k, page.fresh = some k → s.poolLowest ((s.jobOf p).getD 0) = some k ∧ dTokens page.desc = 0 ∧
          dFmt page.desc = g.kvFmt)))

/-- What is written is read back, and nothing else changes: a run of bytes of a memory, with the poison of the lines
that it covers whole; a run of hold SRAM; and a run within one 4 KiB block of the state range whose page is mapped
and served at once, after which a read of it gives the bytes written and a read of a run at another place gives what
it gave (R224, R226, R230, R245). Where the rules leave a point open this states the model's choice (assumption log
4, 37). -/
def Obligations.MemoryReadsBack : Prop :=
  (∀ (m : Mem) (far : Bool) (key : Nat) (b : Bytes),
    (∀ x, (m.write far key b).byteAt far x = if key ≤ x ∧ x < key + b.length then b.getD (x - key) 0 else m.byteAt far x) ∧
    (∀ x, (m.write far key b).byteAt (!far) x = m.byteAt (!far) x) ∧
    (∀ n, m.bytes far key n = (List.range n).map fun i => m.byteAt far (key + i)) ∧
    (∀ x, (m.write far key b).line far x = (m.line far x && !(decide (key ≤ x / 64 * 64 ∧ x / 64 * 64 + 64 ≤ key + b.length)))) ∧
    ∀ x, (m.write far key b).line (!far) x = m.line (!far) x) ∧
  (∀ (s : State) (p : PartId) (a : Nat) (b : Bytes), s.HoldWritten (s.hsWrite p a b) p a b ∧
    (s.hsWrite p a b).hsRead p a b.length = b ∧ (s.hsWrite p a b).mem = s.mem ∧
    ∀ n, s.hsRead p a n = (List.range n).map fun i => s.holdByte p (a + i)) ∧
  ∀ (s : State) (job : Option Nat) (a : Nat) (b : Bytes) (pl : Place),
    s.Served a pl → s.translate job a = .ok pl → a % 4096 + b.length ≤ 4096 →
    (s.stWrite job a b).1 = none ∧ (s.stWrite job a b).2.mem = (if b = [] then s.mem else s.mem.write pl.far pl.key b) ∧
    (ePoisoned pl.entry = false → s.mem.anyPoison pl.far pl.key b.length = false →
      ((s.stWrite job a b).2.stRead job a b.length).1 = .ok b) ∧
    ∀ (job' : Option Nat) (c n : Nat) (pl' : Place), s.Served c pl' → c % 4096 + n ≤ 4096 →
      (pl'.far ≠ pl.far ∨ pl'.key + n ≤ pl.key ∨ pl.key + b.length ≤ pl'.key) →
      ((s.stWrite job a b).2.stRead job' c n).1 = (s.stRead job' c n).1

/-- ATT_BLOCK, ATT_CHUNK and NB_ATT take at their start the page geometry, the present cores and what each member
attends; a member whose request has faulted, or faults then, gets rows of zeros. They write to dA the attention of
the query rows over the pages attended, split as their start fixed it; a member that faults at its reads gets rows of
zeros; NB_ATT finds the pages by the page table of its start (R156 to R171, R252, R390, R446). Where the rules leave
a point open this states the model's choice (assumption log 27, 28, 95). -/
def Obligations.AttentionResults : Prop :=
  ∀ (s : State) (p : PartId) (q : Nat) (e : QEntry) (a : AttStart),
    let zero := List.replicate (tCols e.da) Fl.zero
    (∀ (k : QueueId) rest row slot chunk, (s.drv p).queue k.val = e :: rest → (∀ x ∈ rest, x.uid ≠ e.uid) →
      e.phase = .queued → e.att = none → e.waitOn = none → (s.drv p).dstate = .running → s.startFault p e = none →
      (iOp e.insn = 0x40 ∧ chunk = none ∧ s.cvMembers p e.sa.toNat = [(row, slot)] ∧ e.convoy = some e.sa.toNat ∧
          attBad (s.geom p) e (some (s.cvCap p e.sa.toNat)) = none ∨
        iOp e.insn = 0x41 ∧ chunk = some (tRows e.db) ∧ slot = e.tag ∧ row = 0 ∧ attBad (s.geom p) e none = none) →
      let g := s.geom p
      let cores := (s.part p).presentCores
      let mine := match chunk with
        | none => [row]
        | some r => List.range r
      let s0 := s.startHead p k.val
      ((s.slot p slot).faulted = true → (iOp e.insn = 0x41 ∨ 1024 ≤ e.tag) →
        ∃ t, exec (.queueHeadStart p k) s = .next t ∧ t.mem = s.mem ∧
          ∃ x, t.head p k.val = some x ∧ x.uid = e.uid ∧ x.phase = .running ∧ x.att = some ⟨g, cores, [], mine⟩) ∧
      ((s.slot p slot).faulted = false → mCrcOk (s.manifest p slot) = true → ∀ pl s1,
        s0.planMember p g (tFmt e.db) e.sb.toNat slot row chunk = (.ok pl, s1) →
        ∃ t, exec (.queueHeadStart p k) s = .next t ∧ t.mem = s1.mem ∧
          ∃ x, t.head p k.val = some x ∧ x.uid = e.uid ∧ x.phase = .running ∧ x.att = some ⟨g, cores, [pl], []⟩) ∧
      ((s.slot p slot).faulted = false → mCrcOk (s.manifest p slot) = true → ∀ miss s1,
        s0.planMember p g (tFmt e.db) e.sb.toNat slot row chunk = (.error miss, s1) → miss.status ≠ St.cxlLinkDown →
        ∃ t, exec (.queueHeadStart p k) s = .next t ∧ (t.slot p slot).faulted = true ∧
          ∃ x, t.head p k.val = some x ∧ x.uid = e.uid ∧ x.phase = .running ∧ x.att = some ⟨g, cores, [], mine⟩)) ∧
    (∀ pl, a.plans = [pl] → tFits e.da → tFmt e.da ≤ 3 → tCols e.da = a.geom.qper * a.geom.kv * a.geom.d → (pl.rows.map (·.1) ++ a.zeroRows).Nodup →
      (∀ r ∈ pl.rows.map (·.1) ++ a.zeroRows, r < tRows e.da) → e.att = some a →
      let g := a.geom
      let split := fun ppc : Nat => if ppc ≠ 0 then ppc
        else max 1 (ceilDiv ((pl.rows.map fun r => g.kv * ceilDiv r.2 256).sum) (4 * a.cores))
      let wrote := fun (t s2 : State) (n : Nat) (read : List ((Nat × Nat) × List PageData)) =>
        (∃ cost, t.DoneAt p q e cost) ∧
        (∀ r ∈ read,
          let row := (encodeRow (tFmt e.da) (attRow g n (attScale e.insn g.d) (s2.tensorRow p e.db r.1.1) r.2 r.1.2)).1
          t.hsRead p (tRowAt e.da r.1.1) row.length = row) ∧
        (∀ i ∈ a.zeroRows, t.hsRead p (tRowAt e.da i) (tRowBytes e.da) = (encodeRow (tFmt e.da) zero).1) ∧
        ∀ b, (∀ r ∈ pl.rows.map (·.1) ++ a.zeroRows, b < tRowAt e.da r ∨ tRowAt e.da r + tRowBytes e.da ≤ b) →
          t.holdByte p b = s2.holdByte p b
      (∀ i op read y s2, (i, op) ∈ [((.attBlock p .run : Instr), 0x40), (.attChunk p .run, 0x41)] →
        s.runningHead p op = some (q, e) →
        State.readRowsPages p g pl pl.rows Expanded.empty [] s = (.ok (read, y), s2) →
        ∃ t, exec i s = .next t ∧ wrote t s2 (split (fld e.insn 39 32)) read) ∧
      (∀ i op miss y s2, (i, op) ∈ [((.attBlock p .run : Instr), 0x40), (.attChunk p .run, 0x41)] →
        s.runningHead p op = some (q, e) →
        State.readRowsPages p g pl pl.rows Expanded.empty [] s = (.error (miss, y), s2) →
        miss.status ≠ St.cxlLinkDown → ∃ t, exec i s = .next t ∧ (∃ cost, t.DoneAt p q e cost) ∧
          (t.slot p pl.slot).faulted = true ∧
          ∀ r ∈ pl.rows, t.hsRead p (tRowAt e.da r.1) (tRowBytes e.da) = (encodeRow (tFmt e.da) zero).1) ∧
      (∀ m read y s2, s.runningHead p 0x83 = some (q, e) → s.driven p.val (q - 6) = some m →
        let v : State := { s with spt := e.spt.getD s.spt }
        v.nbAttMiss p g m pl.descs = none →
        State.readRowsPages p g pl pl.rows Expanded.empty [] (v.nbuOpen m) = (.ok (read, y), s2) →
        ∃ t, exec (.nbAtt p .run) s = .next t ∧ wrote t s2 (split 0) read ∧ (t.mu m).resultBuf = [])) ∧
    (tFits e.da → tFmt e.da ≤ 3 → tCols e.da = a.geom.qper * a.geom.kv * a.geom.d → e.att = some a →
      let t0 := (a.plans.map fun pl => (pl.rows.map fun r => a.geom.kv * ceilDiv r.2 256).sum).sum
      let n := if fld e.insn 39 32 ≠ 0 then fld e.insn 39 32 else max 1 (ceilDiv t0 (4 * a.cores))
      ∀ i op r, (i, op) ∈ [((.attBlock p .run : Instr), 0x40), (.attChunk p .run, 0x41)] →
        s.runningHead p op = some (q, e) →
        a.plans.foldl (attMember p q e a.geom n none) ⟨s, a.zeroRows.map fun j => (j, zero), 0, [], none⟩ = r →
        r.stop = none → (r.rows.map (·.1)).Nodup → (∀ x ∈ r.rows, x.1 < tRows e.da) →
        ∃ t cost, exec i s = .next t ∧ t.DoneAt p q e cost ∧ t.mem = r.s.mem ∧ ∀ x ∈ r.rows,
          let row := (encodeRow (tFmt e.da) x.2).1
          t.hsRead p (tRowAt e.da x.1) row.length = row)

/-- SMP_STEP commits one token for each member that samples one: NEXT_POS and OUTPUT_TOKENS rise by one, the row
holds the token, its position and STATUS, the entry at 4 · NEXT_POS of the token log is the token with OUTPUT set,
DRAWS of the sampler record is one higher, and every other byte of the memories stands; the slot knows that a token
was committed, and whether the turn has ended; a member whose turn has ended gets NO_TOKEN with cause 9 (R17, R184,
R194, R195). As it retires STEPS of its convoy rises by one and the count of the mix budget starts anew (R181, R200).
SMP_GRAMMAR checks a table, which is installed when it retires (R190). Where the rules leave a point open this states
the model's choice (assumption log 29, 30, 31, 97). -/
def Obligations.SamplingCommitsToken : Prop :=
  ∀ (s : State) (p : PartId) (q : Nat) (e : QEntry),
    let n := e.sa.toNat
    let shape := tFmt e.da ≤ 2 ∧ tCols e.da ≤ 262144 ∧ s.cvCap p n ≤ tRows e.da
    let apart := fun (slot r : Nat) => s.cvRowAt p r + 16 ≤ s.mftBase p + 64 * slot ∨
      s.mftBase p + 64 * slot + 64 ≤ s.cvRowAt p r
    (∀ i slot x s1 b tok (rc : Nat × Nat) s2, s.runningHead p 0x50 = some (q, e) → shape → s.cvMembers p n = [(i, slot)] →
      State.smpPrepAll p q e [(i, slot)] s = (.ok [x], s1) → x.sr = some b → x.stuck = false →
      (s1.slot p slot).done = false → (s1.slot p slot).faulted = false → (s1.slot p slot).leaving = false →
      (s1.slot p slot).cancel = false → s1.owns p slot = true → terminal (mPhase (s1.manifest p slot)) = false →
      mNextPos (s1.manifest p slot) < srLogCap b → mNextPos (s1.manifest p slot) < 16777215 →
      apart slot x.row → srGrammar b = 0xFFFF →
      chooseToken b (fun _ => true) ((s1.tensorRow p e.da i).zipIdx.map fun l => zValue b x.win l.2 l.1)
        (drawU (mSeed (s1.manifest p slot)) (mReqId (s1.manifest p slot)) (srDraws b)) = some tok → tok < 262144 →
      ((s1.addReg (ptBase p + 0x5050) (smpStalls (32 + x.passes * ceilDiv (tCols e.da) 256) [x] 32)).addReg
        (ptBase p + 0x5040) ((s1.tensorRow p e.da i).filter Fl.isNan).length).smpCommit p q e x b tok = .ok (rc, s2) →
      rc.1 ≠ 3 →
      ∃ t cost, exec (.smpStep p .run) s = .next t ∧ t.DoneAt p q e cost ∧
        mNextPos (t.manifest p slot) = mNextPos (s1.manifest p slot) + 1 ∧
        mOutput (t.manifest p slot) = (mOutput (s1.manifest p slot) + 1) % 2 ^ 24 ∧
        mCrcOk (t.manifest p slot) = true ∧ mReqId (t.manifest p slot) = mReqId (s1.manifest p slot) ∧
        rowToken (t.cvWord p x.row) = tok ∧ rowPos (t.cvWord p x.row) = mNextPos (s1.manifest p slot) ∧
        rowValid (t.cvWord p x.row) = rowValid (s1.cvWord p x.row) ∧ fld (t.cvWord p x.row) 62 60 = rc.1 % 8 ∧
        (rc.1 = 1 ∨ rc.1 = 2) ∧ t.mem = s2.mem ∧ (t.slot p slot).tokenHere = true ∧
        (t.slot p slot).turnEnded = decide (rc.1 = 2) ∧
        let rec_ := srSeal (setLe b 0x20 8 (srDraws b + 1))
        let ws := [(mSrAddr (s1.manifest p slot) % 2 ^ 42, rec_),
          ((srLogAddr b + 4 * mNextPos (s1.manifest p slot)) % 2 ^ 42, leBytes 4 (2 ^ 31 + tok % 2 ^ 18))]
        srDraws rec_ = (srDraws b + 1) % 2 ^ 64 ∧
        (s1.RunsServed ws → (∀ k, k < 32 → (s1.mu k).holds = false ∧ (s1.mu k).parked = [] ∧ (s1.mu k).held = []) →
          s1.RunsWritten t ws)) ∧
    (∀ i slot x s1, s.runningHead p 0x50 = some (q, e) → shape → s.cvMembers p n = [(i, slot)] →
      State.smpPrepAll p q e [(i, slot)] s = (.ok [x], s1) → (s1.slot p slot).done = true →
      ∃ t cost, exec (.smpStep p .run) s = .next t ∧ t.DoneAt p q e cost ∧
        fld (t.cvWord p x.row) 62 60 = 3 ∧ fld (t.cvWord p x.row) 59 56 = 9 ∧
        rowToken (t.cvWord p x.row) = rowToken (s1.cvWord p x.row) ∧ t.mem = s1.mem) ∧
    (∀ l s1 s2, s.runningHead p 0x50 = some (q, e) → shape → State.smpPrepAll p q e (s.cvMembers p n) s = (.ok l, s1) →
      let t0 := 32 + l.foldl (fun k x => max k x.passes) 0 * ceilDiv (tCols e.da) 256
      State.smpRows p q e l (s1.addReg (ptBase p + 0x5050) (smpStalls t0 l 32)) = .ok s2 →
      ∃ t, exec (.smpStep p .run) s = .next t ∧ t.DoneAt p q e (32 + l.length * t0) ∧ t.mem = s2.mem ∧
        (t.part p).hsram = (s2.part p).hsram) ∧
    (s.runningHead p 0x51 = some (q, e) → n < 16 → tFmt e.da = 5 → tRows e.da = 1 →
      grammarOk (fun o k => s.hsRead p (tAddr e.da + o) k) (tCols e.da) = true →
      ∃ t, exec (.smpGrammar p .run) s = .next t ∧ t.DoneAt p q e 64 ∧ s.OnlyEngine t p q ∧
        (t.part p).hsram = (s.part p).hsram ∧ t.bar0 = s.bar0) ∧
    (∀ (k : QueueId) extra rest, (s.drv p).queue k.val = e :: rest → e.phase = .done → e.wbOk = true →
      (s.drv p).dstate ≠ .switchedOut → e.bales = [] → s.accessHeld p k.val e = false →
      (∀ x ∈ rest, x.phase ≠ .skipped) → ∃ t, exec (.instructionRetire p k extra) s = .next t ∧
        (t.drv p).queue k.val = rest ∧
        (iOp e.insn = 0x51 → (t.part p).hsram = (s.part p).hsram ∧
          ∀ g, t.grammar p g = if g = n then some ⟨tAddr e.da, tCols e.da⟩ else s.grammar p g) ∧
        (iOp e.insn = 0x50 → e.convoy = some n → s.cvDefined p n = true → s.cvMembers p n = [] →
          (t.part p).mixRows = 0 ∧ s.HoldWritten t p (s.cvBase p + 64 * n + 4)
            (leBytes 4 (ofLe (s.hsRead p (s.cvBase p + 64 * n + 4) 4) + 1))))

/-- FAB_WR sends its lines as one WRITE frame of up to 64 lines, FAB_RD asks for its lines and writes dA once they
have come, FAB_FENCE waits for the unacknowledged frames of its fence, FAB_LOG for the manager and FAB_CARAVAN for
its receiver, to which it sends frame 0 with the manifest: the one the instruction names, or, where that one has
refused it, the target that the manager has assigned since (R13, R28, R45, R128, R198, R290 to R294). Where the rules
leave a point open this states the model's choice (assumption log 38, 39, 99). -/
def Obligations.FabricOpcodesSend : Prop :=
  ∀ (s : State) (p : PartId) (q : Nat) (e : QEntry),
    let a := e.sa.toNat
    let n := flatSize e.da
    let dst : NodeId := Fin.ofNat 1024 (a / 2 ^ 42)
    let m := s.manifest p e.tag
    let id := fld e.insn 15 8
    let free := ∀ y ∈ s.fab.backlog, hUnit y.frame ≠ p.val
    let named : NodeId × Nat := (Fin.ofNat 1024 (fld e.sb 13 4), fld e.sb 3 0)
    let dest := if (s.slot p e.tag).refuser = some named then (s.slot p e.tag).target.getD named else named
    (s.runningHead p 0x70 = some (q, e) → e.sentN = 0 → e.waitFrom = none → 0 < n → n ≤ 4096 →
      s.fabCheck p e true = none → s.replayRoom p.val dst (64 + n) = true → free →
      ∃ t, exec (.fabWr p .run) s = .next t ∧ t.DoneAt p q e (24 + ceilDiv n 128) ∧
        s.SentOne t dst (fun f => f.body = .bytes (s.flatBytes p e.da) ∧ hType f = 0 ∧ hAddr f = a ∧ hLines f = n / 64 ∧
          hLen f = n ∧ hFence f = id ∧ hFlag f = e.insn.getLsbD 0 ∧ hUnit f = p.val ∧
          hClass f = fld e.insn 18 16) ∧ (t.part p).hsram = (s.part p).hsram ∧ t.mem = s.mem) ∧
    (s.runningHead p 0x70 = some (q, e) → e.sentN = 0 → e.waitFrom = none → s.fabCheck p e true = none →
      let k := (transferFrames n).length
      s.replayUsed p.val + n + 64 * k ≤ 2097152 →
      (s.fab.sent.filter fun x => x.unit = p.val ∧ x.dst = dst).length + k ≤ 4096 → free →
      ∃ t, exec (.fabWr p .run) s = .next t ∧ t.DoneAt p q e (24 + ceilDiv n 128) ∧
        t.fab.sent.length = s.fab.sent.length + k ∧ (t.part p).hsram = (s.part p).hsram ∧ t.mem = s.mem) ∧
    (s.runningHead p 0x71 = some (q, e) → e.lines = [] → e.waitFrom = none → s.askedLines (p, q, e.uid) = [] → 0 < n →
      n ≤ 4096 → s.fabCheck p e false = none → s.replayRoom p.val dst 64 = true → free →
      ∃ t, exec (.fabRd p .run) s = .next t ∧ t.WaitsAt p q e ∧
        s.SentOne t dst (fun f => hType f = 1 ∧ hAddr f = a ∧ hLines f = n / 64) ∧
        (t.part p).hsram = (s.part p).hsram) ∧
    (s.runningHead p 0x71 = some (q, e) → tFits e.da → e.lines ≠ [] → (∀ x ∈ e.lines, x.2.length = 64) →
      e.waitFrom = none → e.missing a n = [] →
      ∃ t, exec (.fabRd p .run) s = .next t ∧ t.DoneAt p q e (24 + ceilDiv n 128) ∧ s.OnlyEngine t p q ∧
        ∀ i, i < tRows e.da → t.hsRead p (tRowAt e.da i) (tRowBytes e.da) =
          ((e.fromLines a n).drop (i * tRowBytes e.da)).take (tRowBytes e.da)) ∧
    (s.runningHead p 0x72 = some (q, e) → (∀ x ∈ s.fab.sent, x.unit ≠ p.val ∨ hFence x.frame ≠ id) →
      ∃ t, exec (.fabFence p .run) s = .next t ∧ t.DoneAt p q e 0 ∧ t.fab = s.fab) ∧
    (s.runningHead p 0x72 = some (q, e) → id ≠ 255 → (∃ x ∈ s.fab.sent, x.unit = p.val ∧ hFence x.frame = id) →
      ∃ t f, exec (.fabFence p .run) s = .next t ∧ t.WaitsAt p q e ∧ t.fab.fences = s.fab.fences ++ [f] ∧
        f.part = p ∧ f.uid = e.uid ∧ f.id = id ∧ t.fab.sent = s.fab.sent ∧
        ∀ x ∈ s.fab.sent, x.unit = p.val → hFence x.frame = id → (x.dst, x.seq) ∈ f.owed) ∧
    (s.runningHead p 0x74 = some (q, e) → mNextPos m ≤ (s.slot p e.tag).logged →
      ∃ t, exec (.fabLog p .run) s = .next t ∧ t.DoneAt p q e 0 ∧ t.fab = s.fab) ∧
    (∀ mgr l s1, s.runningHead p 0x74 = some (q, e) → (s.slot p e.tag).logged < mNextPos m → s.mgrNode = some mgr →
      let lo := (s.slot p e.tag).logged
      s.unlogged p e.tag lo = (.ok l, s1) → s1.mayKeep (s1.appendFrame p m mgr lo l) = true →
      ∃ t, exec (.fabLog p .run) s = .next t ∧ t.WaitsAt p q e ∧ s1.SentCtl t mgr (.logAppend (mReqId m) lo l)) ∧
    (∀ sr s1, s.runningHead p 0x73 = some (q, e) → fld e.insn 1 0 = 0 → (s.slot p e.tag).cancel = false →
      mCrcOk m = true → s.owns p e.tag = true → mPhase m = 2 → s.nodeState dest.1 = .active →
      mNextPos m ≤ (s.slot p e.tag).logged → mHops m < s.regFld 0x2000 5 0 →
      s.reqRead p (mSrAddr (s.mftToSend p e.tag none)) 128 = (.ok sr, s1) →
      s1.mayKeep (s1.placedFrame p.val (s.mftToSend p e.tag none) dest.1 dest.2 0 Ct.manifest false true (.bytes sr)) = true →
      ∃ t, exec (.fabCaravan p .run) s = .next t ∧ t.WaitsAt p q e ∧
        s1.SentOne t dest.1 (fun f => f.body = .bytes sr ∧ (∃ m', f.mft = some m' ∧
          mReqId m' = mReqId m ∧ mHops m' = mHops m + 1 ∧ mCrcOk m' = true) ∧ hPlaced f = true ∧
          tagIndex f.hdr.tag = 0 ∧ tagContent f.hdr.tag = 0) ∧ (t.slot p e.tag).leaving = true) ∧
    (s.runningHead p 0x73 = some (q, e) → (s.slot p e.tag).cancel = true →
      (terminal (mPhase m) = true ∨ (s.slot p e.tag).done = true) →
      ∃ t, exec (.fabCaravan p .run) s = .next t ∧ t.DoneAt p q e 0 (St.cancelled.setWidth 64) ∧
        t.fab.sent = s.fab.sent)

/-- NB_MODE begins the switch of its queue's MU and waits, NB_GEMV writes the products with the weights its MU holds
and fills the result buffer, NB_SUMX adds a result buffer to dA and waits while another transfer holds a bus it
needs; in memory mode NB_GEMV faults (R252 to R255, R265, R266). Where the rules leave a point open this states the
model's choice (assumption log 70, 72). -/
def Obligations.NearBankOpcodes : Prop :=
  ∀ (s : State) (p : PartId) (q : Nat) (e : QEntry) (m : Nat), m < 32 →
    (s.runningHead p 0x81 = some (q, e) → s.nbMu p q true = .ok m → (s.reg (pcfgOff p)).getLsbD 0 = false →
      (s.mu m).switching = false → ((s.part p).scopeDue = true → e.insn.getLsbD 0 = false) →
      ((s.mu m).proc ≠ e.insn.getLsbD 0 → ∃ t, exec (.nbMode p .run) s = .next t ∧ t.WaitsAt p q e ∧
        t.mu m = { s.mu m with switching := true, target := e.insn.getLsbD 0, before := e.uid } ∧
        (∀ k, k ≠ m → t.mu k = s.mu k) ∧ t.mem = s.mem) ∧
      ((s.mu m).proc = e.insn.getLsbD 0 → ∃ t, exec (.nbMode p .run) s = .next t ∧ t.DoneAt p q e 0 ∧
        t.mus = s.mus)) ∧
    (∀ ws s1, s.runningHead p 0x80 = some (q, e) → tFits e.da → s.nbMu p q true = .ok m → (s.mu m).proc = true →
      gemmBad e = none → fld e.insn 4 3 = 0 → (tRows e.db - 1) * tStride e.db + tRowBytes e.db ≤ 262144 →
      let v : State := { s with spt := e.spt.getD s.spt }
      v.nbuRowsBad p m e.dc 0 (tRows e.dc) = none → State.nbuWeights p m e.dc (tRows e.dc) 0 v = (.ok ws, s1) →
      ∃ t cost, exec (.nbGemv p .run) s = .next t ∧ t.DoneAt p q e cost ∧
        (∀ i, i < tRows e.db → t.hsRead p (tRowAt e.da i) (tRowBytes e.da) =
          (encodeRow (tFmt e.da) ((s.nbuAcc p e 0 ws).getD i [])).1) ∧
        (t.mu m).resultBuf = (if tRows e.db * tRows e.dc ≤ 16384 then (s.nbuAcc p e 0 ws).flatten.map toF32 else [])) ∧
    (s.runningHead p 0x80 = some (q, e) → s.nbMu p q true = .ok m → (s.mu m).proc = false →
      ∃ t x, exec (.nbGemv p .run) s = .next t ∧ t.head p q = some x ∧ x.phase = .done ∧ x.faultPost = true ∧
        x.wbOk = false ∧ (t.part p).hsram = (s.part p).hsram) ∧
    (∀ own, s.runningHead p 0x82 = some (q, e) → tFits e.da → s.nbMu p q false = .ok own → e.sa.toNat = m →
      (s.mu m).absent = false → (∀ k j, s.driverOf m = some (k, j) → k = p.val) → sumxBad e = none →
      e.waitFrom = none →
      tAddr e.db + (tRows e.db - 1) * tStride e.db + tRowBytes e.db ≤ 4 * (s.mu m).resultBuf.length →
      (s.mu m).resultBuf.length ≤ 16384 → (s.mu m).resultBuf ≠ [] →
      (s.busHeld p q m = false → s.busTurn p q m = true →
        ∃ t, exec (.nbSumx p .run) s = .next t ∧
          { s with tier := { s.tier with busLast := vset s.tier.busLast (m / 8) (m % 8) } }.EngineWrote t p q e
            ((List.range (tRows e.da)).map fun i => List.zipWith f32add (s.tensorRow p e.da i)
              ((((s.mu m).resultBuf.drop ((tAddr e.db + i * tStride e.db) / 4)).take (tCols e.db)).map ofF32))
            (64 + ceilDiv (tBytes e.db) 16)) ∧
      (s.busHeld p q m = true → ∃ t x, exec (.nbSumx p .run) s = .next t ∧ s.OnlyEngine t p q ∧
        (t.part p).hsram = (s.part p).hsram ∧ t.head p q = some x ∧ x = { e with waitFrom := some s.pins.clkT }))

/-- TIER_HINT and TIER_PIN write their field in the entries of the pages named and nothing else of them, or change
none; TIER_MOVE begins the move of the first page not in its place, where no other partition asks for the engine:
MIGRATING is set and every block of it is copied; a page that moves already is waited for (R129, R236, R238, R240).
The commands of TIER_MAP_A: MAP enters a free frame or rewrites HINT, PINNED and JOB, UNMAP clears the entry once its
page has stopped moving, CLEAR_POISON clears POISONED, MAP_ZERO zeroes the frame it enters, and completes with
CXL_LINK_DOWN where its far group is down; any other write completes with OPERAND_RANGE, and one during a command or
before S8 is ignored (R235, R246, R370, Table 9.4). Where the rules leave a point open this states the model's choice
(assumption log 67, 91). -/
def Obligations.TierOpcodesAndCommands : Prop :=
  (∀ (s : State) (p : PartId) (q : Nat) (e : QEntry),
    let pg := e.sa.toNat / 2 ^ 21
    let n := e.sb.toNat
    let named := fun k => pg ≤ k ∧ k < pg + n
    let mine := ∀ k, named k → k * 2 ^ 21 < 0x26000000000 ∧ (s.entry k).getLsbD 63 = true ∧
      some (fld (s.entry k) 51 48) = s.jobOf p
    let sets := fun (i : Instr) (op hi lo v : Nat) => s.runningHead p op = some (q, e) → mine →
      ∃ t, exec i s = .next t ∧ t.DoneAt p q e (64 + 4 * n) ∧ t.mem = s.mem ∧ t.bar0 = s.bar0 ∧
        ∀ k, t.entry k = if named k then setFld (s.entry k) hi lo v else s.entry k
    (fld e.insn 2 0 ≤ 4 → sets (.tierHint p .run) 0x91 59 57 (fld e.insn 2 0)) ∧
    sets (.tierPin p .run) 0x92 56 56 (fld e.insn 0 0) ∧
    (∀ k i op, (i, op) ∈ [((.tierHint p .run : Instr), 0x91), (.tierPin p .run, 0x92)] → fld e.insn 2 0 ≤ 4 →
      s.runningHead p op = some (q, e) → named k → s.pageOf p k = false → n ≤ s.spt.length →
      ∃ t, exec i s = .next t ∧ t.spt = s.spt ∧ t.mem = s.mem ∧ (t.drv p).faultSeq = (s.drv p).faultSeq + 1) ∧
    (s.runningHead p 0x90 = some (8, e) → e.sentN = n → ∃ t, exec (.tierMove p .run) s = .next t ∧
      t.DoneAt p 8 e (64 + e.cost) ∧ t.spt = s.spt ∧ t.mem = s.mem ∧ t.tier = s.tier) ∧
    (∀ pl f, s.runningHead p 0x90 = some (8, e) → fld e.insn 1 0 = 1 → e.sentN = 0 → 0 < n → s.pageOf p pg = true →
      (∀ o : PartId, o ≠ p → s.asksMover o = none) →
      (∀ x ∈ s.tier.moves, x.page ≠ pg) → (s.entry pg).getLsbD 56 = false → fld (s.entry pg) 62 61 = 0 →
      (s.entry pg).getLsbD 55 = false → s.translate (s.jobOf p) (pg * 2 ^ 21) = .ok pl →
      s.farTarget (fld (s.entry pg) 51 48) = some f → s.groupUp (s.groupOf f) = true → s.moverFree none = true →
      ∃ t x, exec (.tierMove p .run) s = .next t ∧ t.WaitsAt p 8 e ∧ t.tier.moves = s.tier.moves ++ [x] ∧
        x.page = pg ∧ x.farSrc = false ∧ x.farDst = true ∧ x.src = fld (s.entry pg) 20 0 ∧ x.dst = f ∧ x.pass = 1 ∧
        x.copying = List.range 512 ∧ x.by_ = some (p, e.uid) ∧ t.mem = s.mem ∧
        ∀ k, t.entry k = if k = pg then setFld (s.entry pg) 60 60 1 else s.entry k) ∧
    (s.runningHead p 0x90 = some (8, e) → e.sentN < n → s.pageOf p (pg + e.sentN) = true →
      (∃ x ∈ s.tier.moves, x.page = pg + e.sentN) → ∃ t, exec (.tierMove p .run) s = .next t ∧ t.spt = s.spt ∧
        t.mem = s.mem ∧ t.tier = s.tier ∧ t.head p 8 = some e)) ∧
  (∀ (s : State) (a : Word),
    let pg := fld a 20 0
    let b := s.reg 0x208010
    let e := s.entry pg
    let ended := fun (t : State) (st : Status) => t.mapBusy = false ∧ t.regFld 0x208020 47 32 = st.toNat ∧
      t.parts = s.parts ∧ t.pools = s.pools
    let entry := fun (t : State) (x : Word) => ∀ k, t.entry k = if k = pg then x else s.entry k
    let op := fun k => s.boot.ready = true ∧ s.mapBusy = false ∧ fld a 63 62 = k
    (op 0 → eValid e = false → s.mapNewOk pg b = true → ∃ t, exec (.map a) s = .next t ∧ ended t St.ok ∧ entry t b ∧
      t.mem = s.mem) ∧
    (op 0 → eValid e = true → s.mapOk b = true → eTier b = eTier e → eFrame b = eFrame e →
      ∃ t, exec (.map a) s = .next t ∧ ended t St.ok ∧ t.mem = s.mem ∧
        entry t (setFld (setFld (setFld e 59 57 (eHint b)) 56 56 (b2n (ePinned b))) 51 48 (eJob b))) ∧
    (op 0 → (eValid e = false ∧ s.mapNewOk pg b = false ∨ eValid e = true ∧ (s.mapOk b = false ∨ eTier b ≠ eTier e ∨
      eFrame b ≠ eFrame e)) → ∃ t, exec (.map a) s = .next t ∧ ended t St.operandRange ∧ t.spt = s.spt ∧ t.mem = s.mem) ∧
    (op 1 → eValid e = true → (∀ m ∈ s.tier.moves, m.page ≠ pg) → ∃ t, exec (.unmap a) s = .next t ∧ ended t St.ok ∧
      entry t 0 ∧ t.mem = s.mem) ∧
    (op 1 → eValid e = true → (∃ m ∈ s.tier.moves, m.page = pg) → ∃ t, exec (.unmap a) s = .next t ∧
      t.mapBusy = true ∧ t.spt = s.spt ∧ t.mem = s.mem ∧ t.tier = s.tier) ∧
    (op 2 → eValid e = true → ∃ t, exec (.clearPoison a) s = .next t ∧ ended t St.ok ∧ entry t (setFld e 55 55 0) ∧
      t.mem = s.mem) ∧
    (op 3 → s.mapNewOk pg b = true → (eFar b = true → s.groupUp (s.groupOf (eFrame b)) = true) →
      ∃ t, exec (.mapZero a) s = .next t ∧ ended t St.ok ∧ entry t b ∧
      ((eFar b = false → (s.mu (eFrame b / 2048)).holds = false) → ∀ o, o < 2 ^ 21 →
        memByte (if eFar b then t.mem.far else t.mem.near) (frameKey s.ways (eFar b) (eFrame b) o) = 0)) ∧
    (op 3 → s.mapNewOk pg b = true → eFar b = true → s.groupUp (s.groupOf (eFrame b)) = false →
      ∃ t, exec (.mapZero a) s = .next t ∧ ended t St.cxlLinkDown ∧ t.spt = s.spt ∧ t.mem = s.mem) ∧
    (∀ i k, (i, k) ∈ [((.unmap a : Instr), 1), (.clearPoison a, 2)] → op k → eValid e = false →
      ∃ t, exec i s = .next t ∧ ended t St.operandRange ∧ t.spt = s.spt ∧ t.mem = s.mem) ∧
    (op 3 → s.mapNewOk pg b = false → ∃ t, exec (.mapZero a) s = .next t ∧ ended t St.operandRange ∧ t.spt = s.spt ∧
      t.mem = s.mem) ∧
    (s.mapBusy = true ∨ s.boot.ready = false → ∀ i ∈ [Instr.map a, .unmap a, .clearPoison a, .mapZero a], exec i s = .next s))

/-! ## Memory tiers and near-bank units (chapters 9 and 10) -/

/-- A migration engine copies a page block by block, copies again what was written meanwhile, and at the switch
writes the entry and counts how long pass 5 held writes; the old frame is kept until its accesses end. An autonomous
move begins where hint and free frames call for it (R236, R237, R239, R240). Where the rules leave a point open this
states the model's choice (assumption log 67, 69, 73). -/
def Obligations.PagesMigrate : Prop :=
  ∀ (s : State),
    (∃ t, exec .accessBitSample s = .next t ∧
      t = { s with tier := t.tier, bar0 := t.bar0, freeCount := t.freeCount,
                   mem := { s.mem with poisonNear := t.mem.poisonNear, poisonFar := t.mem.poisonFar } } ∧
      t.tier.samples = s.tier.samples + 1 ∧
      t.tier.accessed = [] ∧ t.tier.moves = s.tier.moves ∧ ∀ k, tabGet (fun _ => 0) t.tier.lastSet k =
        if k ∈ s.tier.accessed then s.tier.samples + 1 else tabGet (fun _ => 0) s.tier.lastSet k) ∧
    (∀ (pg : BitVec 21) m, s.tier.moves.find? (fun m => m.page = pg.toNat) = some m →
      let calm := fun (far : Bool) (f : Nat) => far = true ∨ (s.mu (f / 2048)).holds = false ∧
        (s.mu (f / 2048)).parked = [] ∧ (s.mu (f / 2048)).held = []
      calm m.farSrc m.src → calm m.farDst m.dst →
      s.movePoison m = none → s.Canon → (m.farSrc, m.src) ≠ (m.farDst, m.dst) → (∀ b ∈ m.copying, b < 512) →
      m.by_ = none →
      (m.held = [] → ∃ t, exec (.migrationPassEnd pg) s = .next t ∧ ∀ b ∈ m.copying,
        t.mem.bytes m.farDst (frameKey s.ways m.farDst m.dst (b * 4096)) 4096 =
          s.mem.bytes m.farSrc (frameKey s.ways m.farSrc m.src (b * 4096)) 4096) ∧
      (m.dirty = [] ∨ m.pass = 5 → s.mapBusy = false → ∃ t, exec (.migrationPassEnd pg) s = .next t ∧
        t.tier.moves = s.tier.moves.filter (fun x => x.page ≠ m.page) ∧
        t.tier.oldFrames = s.tier.oldFrames ++ [(m.farSrc, m.src)] ∧ t.reg 0x208048 = s.reg 0x208048 + 1 ∧
        t.reg 0x208058 = s.reg 0x208058 + BitVec.ofNat 64 (m.held.map fun h => s.now - h.came).sum ∧
        t.parts = s.parts ∧ ∀ k, t.entry k = if k = m.page then
          setFld (setFld (setFld (s.entry k) 20 0 m.dst) 62 61 (b2n m.farDst)) 60 60 0 else s.entry k) ∧
      (m.dirty ≠ [] → m.pass ≠ 5 → ∃ t, exec (.migrationPassEnd pg) s = .next t ∧ t.spt = s.spt ∧
        t.parts = s.parts ∧ t.reg 0x208050 = s.reg 0x208050 + BitVec.ofNat 64 m.dirty.length ∧
        t.tier.moves = s.tier.moves.map fun x => if x.page = m.page then
          { m with pass := m.pass + 1, copying := m.dirty, dirty := [] } else x)) ∧
    (∀ far f, s.nbReads far f = false → s.accessWaits far f = false →
      ∃ t, exec (.oldFrameRelease far f) s = .next t ∧ t = { s with tier := t.tier } ∧
      t.tier.oldFrames = s.tier.oldFrames.erase (far, f) ∧ t.tier.moves = s.tier.moves) ∧
    (∀ far f, (s.nbReads far f = true ∨ s.accessWaits far f = true) → exec (.oldFrameRelease far f) s = .next s) ∧
    (∀ (pg : BitVec 21) f,
      let e := s.entry pg.toNat
      s.moverFree none = true → s.tierMoveWaits = false → eMovable e = true → eFar e = true → eHint e = 4 →
      s.groupUp (s.groupOf (eFrame e)) = true → 0 < s.nearFree → s.nearTarget (s.lowestPart (eJob e)) = some f →
      ∃ t x, exec (.migrationAutonomous pg) s = .next t ∧ t.tier.moves = s.tier.moves ++ [x] ∧ x.page = pg.toNat ∧
        x.farSrc = true ∧ x.farDst = false ∧ x.src = eFrame e ∧ x.dst = f ∧ x.pass = 1 ∧ x.copying = List.range 512 ∧
        x.by_ = none ∧ t.mem = s.mem ∧ t.bar0 = s.bar0 ∧
        ∀ k, t.entry k = if k = pg.toNat then setFld (s.entry k) 60 60 1 else s.entry k) ∧
    (∀ pg : BitVec 21, s.moverFree none = false → ∃ t, exec (.migrationAutonomous pg) s = .next t ∧
      t = { s with tier := { s.tier with demoting := t.tier.demoting } })

/-- An MU link retries a transfer three times, then retrains; the accesses that waited for that complete, and an MU
that cannot retrain is a chip failure; refreshes under an NBU sequence are counted, during a yield when it ends; none
of it happens while the chip is held in reset (R230, R231, R264, R437). Where the rules leave a point open this
states the model's choice (assumption log 6, 73, 80). -/
def Obligations.MemoryUnitLinks : Prop :=
  ∀ (s : State) (m : MuId),
    let x := s.mu m.val
    let muIs := fun (t : State) (y : Mu) => t = { s with bar0 := t.bar0, mus := t.mus } ∧
      ∀ k, k < 32 → t.mu k = if k = m.val then y else s.mu k
    let counts := fun (t : State) (o : Nat) => t.reg (muBase m.val + o) = s.reg (muBase m.val + o) + 1
    let clk := s.clocked = true
    (clk → x.retraining = false → x.retries < 3 → ∃ t, exec (.muCrcFailure m) s = .next t ∧
      muIs t { x with retries := x.retries + 1 } ∧ counts t 0x18 ∧ s.RegsBut t [muBase m.val + 0x18]) ∧
    (clk → x.retraining = false → 3 ≤ x.retries → ∃ t, exec (.muCrcFailure m) s = .next t ∧
      muIs t { x with retries := 0, retraining := true } ∧ counts t 0x20 ∧ s.RegsBut t [muBase m.val + 0x20]) ∧
    (clk → x.retraining = true → ∃ t, exec (.muRetrainDone m true) s = .next t ∧
      t = { s with bar0 := t.bar0, mus := t.mus, mem := t.mem } ∧ s.RegsBut t [muBase m.val + 0x40] ∧
      (∀ k, k < 32 → t.mu k = if k = m.val then { x with retraining := false, trained := true, held := [], retries := 0 } else s.mu k) ∧
      t.mem = x.held.foldl (fun v e =>
        match e.acc with
        | .read _ _ => v
        | .write d b => v.write false (m.val * 2 ^ 32 + d) b) s.mem) ∧
    (clk → x.retraining = true → s.regBit 0x708020 1 = false → ∃ t, exec (.muRetrainDone m false) s = .next t ∧
      (t.mu m.val).trained = false ∧ t.regBit 0x708020 1 = true ∧ t.pins.faultN = false ∧
      t.regFld 0x708020 63 48 = Ev.muFailed.toNat ∧ ∀ q : PartId, (t.part q).st ≠ .serving ∧ (t.part q).st ≠ .vacant) ∧
    (x.retraining = false → ∀ ok, exec (.muRetrainDone m ok) s = .next s) ∧
    (clk → x.yielding = true → ∃ t, exec (.refreshDue m) s = .next t ∧ muIs t { x with refreshDue := true } ∧
      t.bar0 = s.bar0) ∧
    (clk → x.yielding = false → x.proc = true → s.nbSequence m.val = true → ∃ t, exec (.refreshDue m) s = .next t ∧
      t = { s with bar0 := t.bar0 } ∧ counts t 0x58 ∧ s.RegsBut t [muBase m.val + 0x58]) ∧
    (x.yielding = false → (x.proc = false ∨ s.nbSequence m.val = false) → exec (.refreshDue m) s = .next s) ∧
    (s.clocked = false → ∀ i ∈ [Instr.muCrcFailure m, .muRetrainDone m true, .muRetrainDone m false, .refreshDue m],
      exec i s = .next s)

/-- An ordinary access is served at once in memory mode, waits while the link is retrained and parks under a running
NB instruction, in entries of 256 bytes at most; a yield serves what was parked when it began, and what is parked is
served between two instructions; a mode switch serves what is parked and completes its NB_MODE; NBU_PCFG is applied
whole or ignored, and a write of SERVICE into SCOPE on a partition that is not GENERATE completes once its MUs are in
memory mode (R230, R254 to R262, R264, R269, R370, R388). Where the rules leave a point open this states the model's
choice (assumption log 6, 70, 71). -/
def Obligations.ParkedAccessesAndModes : Prop :=
  ∀ (s : State) (m : MuId),
    let x := s.mu m.val
    let served := fun (mem : Mem) (l : List ParkEntry) => l.foldl (fun mem e =>
      match e.acc with
      | .read _ _ => mem
      | .write d b => mem.write false (m.val * 2 ^ 32 + d) b) mem
    let clk := s.clocked = true
    (∀ d b, clk → x.holds = false → x.retries = 0 → s.tier.moves = [] →
      exec (.parkedAccessArrival m (.write d b)) s = .next { s with mem := s.mem.write false (m.val * 2 ^ 32 + d) b }) ∧
    (∀ d n, x.holds = false → x.retries = 0 → exec (.parkedAccessArrival m (.read d n)) s = .next s) ∧
    (∀ a, clk → x.proc = false → x.switching = false → x.retraining = true → s.tier.moves = [] →
      ∃ t, exec (.parkedAccessArrival m a) s = .next t ∧ t = { s with mus := t.mus } ∧
        t.mu m.val = { x with held := x.held ++ [{ acc := a, arrived := s.now, entered := none, who := none, fn := s.host.writer }] } ∧
        ∀ k, k < 32 → k ≠ m.val → t.mu k = s.mu k) ∧
    (∀ a, clk → x.proc = true → x.switching = false → s.nbRunning m.val = true → s.tier.moves = [] →
      ∃ t, exec (.parkedAccessArrival m a) s = .next t ∧ t = { s with bar0 := t.bar0, mus := t.mus } ∧
        (t.mu m.val).parked.map (·.acc) = x.parked.map (·.acc) ++ parkPieces a ∧
        (∀ d n, a = .read d n → 0 < n → n ≤ 256 → parkPieces a = [a]) ∧
        (∀ d b, a = .write d b → 0 < b.length → b.length ≤ 256 → parkPieces a = [a]) ∧
        ∀ k, k < 32 → k ≠ m.val → t.mu k = s.mu k) ∧
    (∀ (p : PartId) (k : Nat) (q : QueueId) extra e rest, k < 2 → q.val = 6 + k → s.driven p.val k = some m.val →
      s.driverOf m.val = some (p.val, k) → x.proc = true → (s.drv p).queue q.val = e :: rest → e.phase = .done →
      (s.drv p).dstate ≠ .switchedOut → s.accessHeld p q.val e = false → (∀ y ∈ rest, y.phase = .queued) →
      iOp e.insn / 16 = 8 → e.bales = [] → ∃ t, exec (.instructionRetire p q extra) s = .next t ∧
        (t.mu m.val).parked = [] ∧ (t.mu m.val).yielding = false ∧ (t.drv p).queue q.val = rest ∧
        (x.yielding = false → t.reg (muBase m.val + 0x50) = s.reg (muBase m.val + 0x50) + 1)) ∧
    (clk → x.proc = true → x.yielding = false → x.retraining = false → s.nbRunning m.val = true →
      ∃ t, exec (.nbuYield m) s = .next t ∧ (t.mu m.val).yielding = true ∧ t.mem = served s.mem (x.parked.take 64) ∧
        (t.mu m.val).parked.map (·.acc) = (x.parked.drop 64).map (·.acc) ∧
        t.reg (muBase m.val + 0x50) = s.reg (muBase m.val + 0x50) + 1 ∧ t.parts = s.parts) ∧
    (clk → x.yielding = true → x.refreshDue = true → ∃ t, exec (.nbuYieldEnd m) s = .next t ∧
      t.mu m.val = { x with yielding := false, refreshDue := false } ∧
      t.reg (muBase m.val + 0x28) = s.reg (muBase m.val + 0x28) + 1 ∧
      t.reg (muBase m.val + 0x58) = s.reg (muBase m.val + 0x58) + (if s.nbSequence m.val then 1 else 0) ∧ t.mem = s.mem ∧
      t.parts = s.parts) ∧
    (clk → x.yielding = true → x.refreshDue = false → ∃ t, exec (.nbuYieldEnd m) s = .next t ∧ t.bar0 = s.bar0 ∧
      t.mu m.val = { x with yielding := false } ∧ t.parts = s.parts) ∧
    (clk → x.switching = true → s.switchBlocked m.val = false → x.parked = [] → ∃ t, exec (.modeSwitchComplete m) s = .next t ∧
      t.mu m.val = { x with switching := false, proc := x.target } ∧ t.mem = s.mem ∧
      t.reg (muBase m.val + 0x60) = s.reg (muBase m.val + 0x60) + 1 ∧
      ∀ (p : PartId) k e, s.driverOf m.val = some (p.val, k) → k < 2 → s.head p (6 + k) = some e →
        iOp e.insn = 0x81 → e.phase = .waiting → t.DoneAt p (6 + k) e 0) ∧
    (∀ (p : PartId) k, clk → x.switching = true → x.target = false → s.switchBlocked m.val = false → x.parked = [] →
      s.driverOf m.val = some (p.val, k) → (s.part p).scopeDue = true →
      (∀ j ∈ s.partMus p.val, j ≠ m.val → (s.mu j).proc = false ∧ (s.mu j).switching = false) →
      ∃ t, exec (.modeSwitchComplete m) s = .next t ∧ t.regBit (pcfgOff p) 4 = false ∧ (t.part p).scopeDue = false) ∧
    (s.switchBlocked m.val = true → exec (.modeSwitchComplete m) s = .next s) ∧
    (s.clocked = false → ∀ i, i ∈ [Instr.nbuYield m, .nbuYieldEnd m, .modeSwitchComplete m] ∨
      (∃ a, i = .parkedAccessArrival m a) → exec i s = .next s) ∧
    (∀ (p : PartId) v,
      let o := pcfgOff p
      let w := fieldsWrite ((regFields o).getD []) (BitVec.allOnes 64) (s.reg o) v
      s.boot.ready = true → (∀ k, k < 2 → (s.drv p).queue (6 + k) = []) →
      ((s.setReg o w).drivenOnce = true → bitOf w 0 = false → bitOf w 4 = true ∨ (s.part p).role = .generate →
        ∃ t, exec (.nbuPcfgWrite p v) s = .next t ∧
        t = { s with bar0 := t.bar0, mus := t.mus, parts := t.parts } ∧ (∀ p' : PartId, p' ≠ p → t.part p' = s.part p') ∧
        t.part p = { s.part p with scopeDue := false } ∧ t.reg o = w ∧ s.RegsBut t [o] ∧
        ∀ k, k ∈ s.partMus p.val → t.driverOf k = none → k < 32 →
          (if (t.mu k).switching then (t.mu k).target else (t.mu k).proc) = false) ∧
      ((s.setReg o w).drivenOnce = true → bitOf w 4 = false → (s.part p).role ≠ .generate →
        (∀ k ∈ (s.setReg o w).partMus p.val, (s.mu k).parked = [] ∧ (s.mu k).held = []) →
        ∃ t, exec (.nbuPcfgWrite p v) s = .next t ∧
        t.reg o = w ∧ t.mem = s.mem ∧
        ∀ k ∈ (s.setReg o w).partMus p.val, k < 32 → (t.mu k).proc = false ∧ (t.mu k).switching = false) ∧
      ((s.setReg o w).drivenOnce = true → bitOf (s.reg o) 4 = true → bitOf w 4 = false → (s.part p).role ≠ .generate →
        (∃ k ∈ (s.setReg o w).partMus p.val, k < 32 ∧ (s.mu k).proc = true ∧ (s.mu k).held ≠ []) →
        ∃ t, exec (.nbuPcfgWrite p v) s = .next t ∧ t.reg o = setFld w 4 4 1 ∧ (t.part p).scopeDue = true) ∧
      ((s.setReg o w).drivenOnce = false → ∃ t, exec (.nbuPcfgWrite p v) s = .next t ∧ s.Raised t Ev.writeIgnored ∧
        s.OnlyEvents t ∧ t.reg o = s.reg o)) ∧
    (∀ (p : PartId) v, s.boot.ready = false → exec (.nbuPcfgWrite p v) s = .next s)

/-- A CXL port: late reads are counted and reported once a millisecond, a port that goes down stops serving its
group, and a link that returns with another device poisons every page of the group (R244 to R246). Where the rules
leave a point open this states the model's choice (assumption log 6, 73). -/
def Obligations.CxlPortsFailAndReturn : Prop :=
  ∀ (s : State) (k : CxlId),
    let c := s.cxlPort k.val
    let up := c.present = true ∧ c.up = true
    let o := cxlBase k.val
    let down := c.up = false ∧ (c.present = true ∨ s.reg (o + 0x20) ≠ 0)
    (∀ n, up → c.lateAt ≠ some (s.now / 1000000) → ∃ t, exec (.farReadLate k n) s = .next t ∧
      s.Raised t Ev.cxlLate ∧ t.reg (o + 8) = s.reg (o + 8) + 1 ∧ t.reg (o + 0x10) = s.reg (o + 0x10) + BitVec.ofNat 64 n ∧
      t.cxlPort k.val = { c with lateAt := some (s.now / 1000000) } ∧ t.mem = s.mem ∧ t.spt = s.spt) ∧
    (∀ n, up → c.lateAt = some (s.now / 1000000) → ∃ t, exec (.farReadLate k n) s = .next t ∧
      t = { s with bar0 := t.bar0 } ∧ s.RegsBut t [o + 8, o + 0x10] ∧ t.reg (o + 8) = s.reg (o + 8) + 1) ∧
    (∀ i, i = .cxlPortDown k ∨ i = .cxlTimeoutExpiry k →
      (c.up = true → s.tier.moves = [] → ∃ t, exec i s = .next t ∧ s.Raised t Ev.cxlPortDown ∧
        t.cxlPort k.val = { c with up := false } ∧ t.reg (o + 0x20) = s.reg (o + 0x20) + 1 ∧ t.regFld o 6 0 = 0 ∧
        t.mem = s.mem ∧ t.spt = s.spt ∧ t.parts = s.parts ∧ ∀ j, j < 24 → j ≠ k.val → t.cxlPort j = s.cxlPort j) ∧
      (c.up = false → exec i s = .next s)) ∧
    (down → ∃ t, exec (.cxlRetrainAttempt k) s = .next t ∧ t = { s with bar0 := t.bar0 } ∧ s.RegsBut t [o + 0x28] ∧
      t.reg (o + 0x28) = s.reg (o + 0x28) + 1) ∧
    (¬down → exec (.cxlRetrainAttempt k) s = .next s) ∧
    (∀ serial dirty width rate, down →
      ((c.present = true → serial = c.serial ∧ dirty = c.dirtyCnt) → ∃ t, exec (.cxlLinkReturn k serial dirty width rate) s = .next t ∧
        t.cxlPort k.val = { c with up := true } ∧ t.spt = s.spt ∧ t.events = s.events ∧ s.RegsBut t [o] ∧
        t.regFld o 6 4 = width.toNat ∧ t.regFld o 3 0 = rate.toNat) ∧
      (c.present = true → (serial ≠ c.serial ∨ dirty ≠ c.dirtyCnt) → ∃ t, exec (.cxlLinkReturn k serial dirty width rate) s = .next t ∧
        t.cxlPort k.val = { c with up := true } ∧ s.Raised t Ev.cxlContentsLost ∧ t.regBit o 15 = true ∧ t.mem = s.mem ∧
        ∀ pg, t.entry pg = if eValid (s.entry pg) && eFar (s.entry pg) &&
            decide (s.groupOf (eFrame (s.entry pg)) = k.val / s.ways)
          then setFld (s.entry pg) 55 55 1 else s.entry pg)) ∧
    (∀ serial dirty width rate, ¬down → exec (.cxlLinkReturn k serial dirty width rate) s = .next s)

/-! ## Images, partitions and jobs (chapters 3 to 8 and 13) -/

/-- A load reads and checks an image; one that passes is staged for the partitions of PMASK, one that fails is
refused with its status; a staged image is installed when its moment comes and its bytes are still the same (R104,
R106, R361, R362). Where the rules leave a point open this states the model's choice (assumption log 6, 71, 74, 98).
-/
def Obligations.ImagesLoadAndInstall : Prop :=
  ∀ (s : State),
    (∀ v, s.boot.ready = false → exec (.go v) s = .next s) ∧
    (∀ v img, s.boot.ready = true → s.regBit imgStat 0 = false → bitOf v 16 = true →
      s.checkImage (s.regFld 0x500200 41 0) false (s.rdImage (s.regFld 0x500200 41 0)) = .ok img →
      ∃ t, exec (.go v) s = .next t ∧ t.host.loading = some img ∧ t.regBit imgStat 0 = true ∧
        t.regFld 0x500208 15 0 = fld v 15 0 ∧ t.parts = s.parts ∧ t.mem = s.mem) ∧
    (∀ v st, s.boot.ready = true → s.regBit imgStat 0 = false → bitOf v 16 = true →
      s.checkImage (s.regFld 0x500200 41 0) false (s.rdImage (s.regFld 0x500200 41 0)) = .error st →
      ∃ t, exec (.go v) s = .next t ∧ t.host.loading = none ∧ t.host.loadStatus = st ∧ t.regBit imgStat 0 = true ∧
        t.parts = s.parts) ∧
    (∀ v, s.regBit imgStat 0 = true → exec (.go v) s = .next s) ∧
    (∀ img, s.regBit imgStat 0 = true → s.host.loading = some img → ∃ t, exec .imageCheckDone s = .next t ∧
      t.regBit imgStat 0 = false ∧ t.regFld imgStat 63 48 = s.host.loadStatus.toNat ∧ t.regFld imgStat 47 32 = 0 ∧
      ∀ p : PartId, t.part p = { s.part p with
        staged := if (s.regFld 0x500208 15 0).testBit p.val then some img else (s.part p).staged }) ∧
    (s.regBit imgStat 0 = true → s.host.loading = none → ∃ t, exec .imageCheckDone s = .next t ∧
      t.regBit imgStat 0 = false ∧ t.regFld imgStat 63 48 = s.host.loadStatus.toNat ∧ s.Raised t Ev.imageRefused ∧
      t.parts = s.parts) ∧
    (s.regBit imgStat 0 = false → exec .imageCheckDone s = .next s) ∧
    (∀ (p : PartId) img b, (s.part p).staged = some img → s.installDue p = true → s.regBit (pcfgOff p) 0 = false →
      (∀ m ∈ s.partMus p.val, (s.mu m).proc = false ∧ (s.mu m).switching = false) →
      (if img.boot then s.rdFlash img.addr 0 img.signed.length else s.rdImage img.addr 0 img.signed.length) = .ok b →
      (sha3_512 b = img.digest → ∃ t, exec (.imageInstall p) s = .next t ∧
        t = { s with parts := t.parts, bar0 := t.bar0 } ∧ (∀ p' : PartId, p' ≠ p → t.part p' = s.part p') ∧
        (t.part p).staged = none ∧ (t.part p).role = img.role ∧ (t.part p).slots = (s.part p).slots ∧
        (t.drv p).istore = img.code ∧ (t.drv p).image = some img ∧
        (t.drv p).dstate = (if img.autostart then .running else .halted) ∧
        (img.autostart = true → (t.drv p).mainPc = img.entries.getD 0 0) ∧
        (∀ x k, (t.drv p).sreg x k = 0) ∧ (∀ k, (t.drv p).dreg k = 0) ∧ (∀ x k, 0 < k → (t.drv p).pred x k = false) ∧
        (t.drv p).queues = (s.drv p).queues ∧ (t.drv p).faults = (s.drv p).faults ∧
        s.HoldWritten t p img.dataLoad img.data) ∧
      (sha3_512 b ≠ img.digest → ∃ t, exec (.imageInstall p) s = .next t ∧ s.Raised t Ev.imageAltered ∧
        t.regFld imgStat 63 48 = St.imgAltered.toNat ∧ t.part p = { s.part p with staged := none } ∧
        ∀ p' : PartId, p' ≠ p → t.part p' = s.part p')) ∧
    (∀ (p : PartId) img b, (s.part p).staged = some img → s.installDue p = true → img.role ≠ .generate →
      s.regBit (pcfgOff p) 4 = false → (∀ k, k < 2 → (s.drv p).queue (6 + k) = []) → s.drivenOnce = true →
      (∀ m ∈ s.partMus p.val, (s.mu m).parked = [] ∧ (s.mu m).held = []) →
      (if img.boot then s.rdFlash img.addr 0 img.signed.length else s.rdImage img.addr 0 img.signed.length) = .ok b →
      sha3_512 b = img.digest → ∃ t, exec (.imageInstall p) s = .next t ∧ (t.part p).role = img.role ∧
        (t.drv p).image = some img ∧ t.mem = s.mem ∧
        ∀ m ∈ s.partMus p.val, m < 32 → (t.mu m).proc = false ∧ (t.mu m).switching = false) ∧
    (∀ p, (s.part p).staged = none ∨ s.installDue p = false → exec (.imageInstall p) s = .next s)

/-- Units that fail in service: a parity error withdraws its matrix unit, a core's number goes to its cluster's spare
or becomes absent, a hold-SRAM error takes the partition OFFLINE, a transit-router error fails the chip (R141, R331,
R340, R343, R404). Where the rules leave a point open this states the model's choice (assumption log 6, 75). -/
def Obligations.UnitsFailInService : Prop :=
  ∀ (s : State) (p : PartId),
    (s.clocked = false → (∀ u, exec (.mxUnitParityError p u) s = .next s) ∧
      (∀ core, exec (.coreSelfCheckFail p core) s = .next s) ∧ exec (.partitionFault p) s = .next s ∧
      (∀ o, exec (.holdSramUncorrectable p o) s = .next s) ∧ exec (.transitRouterError p) s = .next s) ∧
    (s.clocked = true →
    (∀ u, bitOf (s.mxPresentMask p) u.val = true → ∃ t, exec (.mxUnitParityError p u) s = .next t ∧ s.OnlyEvents t ∧
      t.regBit (ptBase p + 0x2000) u.val = true ∧ t.reg (ptBase p + 0x2008) = s.reg (ptBase p + 0x2008) + 1 ∧
      s.Raised t Ev.mxWithdrawn) ∧
    (∀ u, bitOf (s.mxPresentMask p) u.val = false → exec (.mxUnitParityError p u) s = .next s) ∧
    (∀ core, (s.part p).absentBit core.val = false →
      (bitOf (s.part p).spareUsed (core.val / 8) = false → ∃ t, exec (.coreSelfCheckFail p core) s = .next t ∧
        bitOf (t.part p).spareUsed (core.val / 8) = true ∧ (t.part p).absent = (s.part p).absent ∧
        s.Raised t Ev.spareUsed ∧ ∀ p' : PartId, p' ≠ p → t.part p' = s.part p') ∧
      (bitOf (s.part p).spareUsed (core.val / 8) = true → ∃ t, exec (.coreSelfCheckFail p core) s = .next t ∧
        (∀ c, c < 128 → (t.part p).absentBit c = if c = core.val then true else (s.part p).absentBit c) ∧
        s.Raised t Ev.coreAbsent ∧ ∀ p' : PartId, p' ≠ p → t.part p' = s.part p')) ∧
    (∀ i, i = .partitionFault p ∨ (∃ o, i = .holdSramUncorrectable p o ∧ o < 12582912) →
      ((s.part p).st = .serving ∨ (s.part p).st = .vacant → ∃ t, exec i s = .next t ∧ (t.part p).st = .offline ∧
        (t.part p).curJob = none ∧ (t.part p).slots = [] ∧ (t.drv p).dstate = .offline ∧ (t.drv p).pkt = none ∧
        (∀ p' : PartId, p' ≠ p → t.part p' = s.part p') ∧
        (∀ m, m ∈ s.partMus p.val → m < 32 →
          (if (t.mu m).switching then (t.mu m).target else (t.mu m).proc) = false) ∧
        ((∀ q, (s.drv p).queue q = []) → s.liveSlots p = [] → (s.part p).incoming = [] → (s.part p).fetches = [] →
          s.Raised t Ev.partitionFault ∧ t.mem = s.mem)) ∧
      ((s.part p).st ≠ .serving → (s.part p).st ≠ .vacant → exec i s = .next s)) ∧
    (s.regBit 0x708020 1 = false → ∃ t, exec (.transitRouterError p) s = .next t ∧ t.regBit 0x708020 1 = true ∧
      t.regFld 0x708020 63 48 = Ev.transitFailed.toNat ∧ t.pins.faultN = false ∧ t.pins.smbAlertN = false ∧
      ∀ q : PartId, (t.part q).st =
        if (s.part q).st = .serving ∨ (s.part q).st = .vacant then .offline else (s.part q).st))

/-- Writes of a partition's own registers: a field takes a value of its range, and a write that a rule forbids is
ignored with an event (R156, R180, R222, R423). Before S8 such a write is ignored (R370). That a CMP_REC_BASE that is
no multiple of 32, or whose ring does not end inside hold SRAM, is out of its field's range and leaves it as it is,
is the model's reading of R222 (log 37). -/
def Obligations.PartitionRegisterWrites : Prop :=
  ∀ (s : State) (p : PartId),
    (s.boot.ready = false → ∀ v : Word, (∀ w, exec (.attGeomWrite p w) s = .next s) ∧
      (∀ n, exec (.smpCvCfgWrite p n v) s = .next s) ∧ exec (.seqMftBaseWrite p v) s = .next s ∧
      exec (.cmpRecBaseWrite p v) s = .next s) ∧
    (s.boot.ready = true →
    let ignored := fun (i : Instr) (o : Nat) => ∃ t, exec i s = .next t ∧ s.Raised t Ev.writeIgnored ∧
      s.OnlyEvents t ∧ t.reg o = s.reg o
    let wrote := fun (t : State) (l : List Nat) => t = { s with bar0 := t.bar0 } ∧ s.RegsBut t l
    (∀ v, s.liveSlots p = [] →
      let o := ptBase p + 0x4000
      ∃ t, exec (.attGeomWrite p v) s = .next t ∧ wrote t [o] ∧
        t.regFld o 27 24 = (if kvFmtOk (fld v 27 24) then fld v 27 24 else s.regFld o 27 24) ∧
        t.regFld o 23 16 = (if 1 ≤ fld v 23 16 ∧ fld v 23 16 ≤ 16 then fld v 23 16 else s.regFld o 23 16) ∧
        t.regFld o 15 8 = (if 1 ≤ fld v 15 8 ∧ fld v 15 8 ≤ 64 then fld v 15 8 else s.regFld o 15 8) ∧
        t.regFld o 1 0 = (if fld v 1 0 ≤ 2 then fld v 1 0 else s.regFld o 1 0)) ∧
    (∀ v, s.liveSlots p ≠ [] → ignored (.attGeomWrite p v) (ptBase p + 0x4000)) ∧
    (∀ (n : Fin 4) v,
      let o := ptBase p + 0x5008 + 8 * n.val
      let cap := fld v 25 16
      let first := fld v 8 0
      let apart := ∀ k, k < 4 → k ≠ n.val → cap = 0 ∨ s.cvCap p k = 0 ∨ first + cap ≤ s.cvFirst p k ∨
        s.cvFirst p k + s.cvCap p k ≤ first
      cap ≤ 512 → (cap = 0 ∨ first + cap ≤ 512) →
      (apart → s.cvMembers p n.val = [] → ∃ t, exec (.smpCvCfgWrite p n v) s = .next t ∧ wrote t [o] ∧
        t.cvCap p n.val = cap ∧ t.cvFirst p n.val = first) ∧
      (¬apart ∨ s.cvMembers p n.val ≠ [] → ignored (.smpCvCfgWrite p n v) o)) ∧
    (∀ (n : Fin 4) v,
      let o := ptBase p + 0x5008 + 8 * n.val
      let cap := if fld v 25 16 ≤ 512 then fld v 25 16 else s.cvCap p n.val
      (0 < cap → 512 < fld v 8 0 + cap → ignored (.smpCvCfgWrite p n v) o)) ∧
    (∀ v,
      let b := fld v 23 0
      let free := s.heldSlots p = [] ∧ ∀ i ∈ (s.part p).incoming, i.park = true
      let o := ptBase p + 0x1010
      (free → b % 64 = 0 → b + 65536 ≤ 12582912 → ∃ t, exec (.seqMftBaseWrite p v) s = .next t ∧ wrote t [o] ∧
        t.mftBase p = b) ∧
      (¬free ∨ b % 64 ≠ 0 ∨ 12582912 < b + 65536 → ignored (.seqMftBaseWrite p v) o)) ∧
    (∀ v,
      let b := fld v 23 0
      (b % 32 = 0 → b + 2048 ≤ 12582912 → ∃ t, exec (.cmpRecBaseWrite p v) s = .next t ∧
        wrote t [ptBase p + 0x7000, ptBase p + 0x7008] ∧ t.regFld (ptBase p + 0x7000) 23 0 = b ∧
        t.reg (ptBase p + 0x7008) = 0) ∧
      (b % 32 ≠ 0 ∨ 12582912 < b + 2048 → exec (.cmpRecBaseWrite p v) s = .next s)))

/-- Adapter slots: a LOAD takes an EMPTY slot or waits, its directory check makes it READY or EMPTY, a RETIRE of a
READY slot waits for the requests pinned to it (R201, R202). Where the rules leave a point open this states the
model's choice (assumption log 6, 35). -/
def Obligations.AdapterSlots : Prop :=
  ∀ (s : State) (a : Word),
    let h := cmdHandle a
    let free := s.regBit 0x9010 31 = false ∧ ∀ w ∈ s.adapters.waiting, cmdHandle w.1 ≠ h
    let others := fun (t : State) (h k : Nat) => ∀ h' k', k' < 2 → (h' ≠ h ∨ k' ≠ k) → t.adSlot h' k' = s.adSlot h' k'
    let only := fun (t : State) => t = { s with bar0 := t.bar0, adapters := t.adapters }
    (s.boot.ready = false → exec (.adapterLoad a) s = .next s ∧ exec (.adapterRetire a) s = .next s) ∧
    (∀ k, s.boot.ready = true → free → cmdOp a = 0 → (∀ j, j < 2 → (s.adSlot h j).st ≠ 2 ∨ (s.adSlot h j).gen ≠ cmdGen a) →
      s.adIn h 0 = some k → ∃ t, exec (.adapterLoad a) s = .next t ∧ only t ∧
        t.adSlot h k = ⟨cmdGen a, cmdRank a, 1, cmdFmt a, 0, s.regFld 0x9008 41 0⟩ ∧ others t h k ∧
        t.regBit 0x9010 31 = true ∧ t.adapters.waiting = s.adapters.waiting) ∧
    (s.boot.ready = true → free → cmdOp a = 0 → (∀ j, j < 2 → (s.adSlot h j).st ≠ 2 ∨ (s.adSlot h j).gen ≠ cmdGen a) →
      s.adIn h 0 = none → ∃ t, exec (.adapterLoad a) s = .next t ∧ only t ∧ t.adapters.slots = s.adapters.slots ∧
        t.adapters.waiting = s.adapters.waiting ++ [(a, s.reg 0x9008)] ∧
        t.regFld 0x9010 47 32 = St.adapterPending.toNat) ∧
    (s.regBit 0x9010 31 = true → exec (.adapterLoad a) s = .next s ∧ exec (.adapterRetire a) s = .next s) ∧
    (∀ k, s.boot.ready = true → free → cmdOp a = 1 → k < 2 → (s.adSlot h k).st = 2 → (s.adSlot h k).gen = cmdGen a →
      (k = 0 ∨ (s.adSlot h 0).st ≠ 2 ∨ (s.adSlot h 0).gen ≠ cmdGen a) → ∃ t, exec (.adapterRetire a) s = .next t ∧
        only t ∧ t.regFld 0x9010 47 32 = 0 ∧ others t h k ∧
        t.adSlot h k = if (s.adSlot h k).refs = 0 then emptyAd else { s.adSlot h k with st := 3 }) ∧
    (∀ (hd : BitVec 12) (k : Fin 2) ok,
      let x := s.adSlot hd.toNat k.val
      let good := ok = true ∧ 1 ≤ x.rank ∧ x.rank ≤ 128 ∧ x.fmt ≤ 8
      x.st = 1 → (s.adSlot hd.toNat (1 - k.val)).st ≠ 2 → (∀ w ∈ s.adapters.waiting, cmdHandle w.1 ≠ hd.toNat) →
      (good → ∃ t, exec (.adapterCheckDone hd k ok) s = .next t ∧ only t ∧ others t hd.toNat k.val ∧
        t.adSlot hd.toNat k.val = { x with st := 2 } ∧ t.regFld 0x9010 47 32 = 0) ∧
      (¬good → ∃ t, exec (.adapterCheckDone hd k ok) s = .next t ∧ only t ∧ others t hd.toNat k.val ∧
        t.adSlot hd.toNat k.val = emptyAd ∧ t.regFld 0x9010 47 32 = St.descInvalid.toNat)) ∧
    (∀ (hd : BitVec 12) (k : Fin 2) ok, (s.adSlot hd.toNat k.val).st ≠ 1 →
      exec (.adapterCheckDone hd k ok) s = .next s)

/-- The commands of PT_CTL change the state of a partition as Table 13.2 gives; one that the table does not allow
completes with OPERAND_RANGE and changes nothing, and a write while BUSY is ignored whole; a re-test ends OFFLINE or
FAILED by what it found and keeps the numbering for ONLINE (R329, R330, R340 to R342). Where the rules leave a point
open this states the model's choice (assumption log 71, 75). -/
def Obligations.PartitionCommandsComplete : Prop :=
  (∀ (s : State) (p : PartId) (v : Word), s.boot.ready = true → s.ptBusy p = false →
    let st := (s.part p).st
    let j := ptJob v
    let frame := fun (t : State) => ∀ p' : PartId, p' ≠ p → t.part p' = s.part p'
    let refused := fun (i : Instr) (e : Status) => ∃ t, exec i s = .next t ∧ t.PtEnded p v e ∧ t.parts = s.parts ∧
      t.mem = s.mem ∧ s.RegsBut t [ptBase p, ptStat p, ptBase p + 0x20]
    let inMemory := ∀ m ∈ s.partMus p.val, (s.mu m).proc = false ∧ (s.mu m).switching = false
    (fld v 3 0 = 1 → st = .vacant → s.jobMay p j = true → (s.part p).staged = none → inMemory →
      ∃ t, exec (.assign p v) s = .next t ∧ t.PtEnded p v St.ok ∧ frame t ∧
        t.part p = { (s.part p).fresh with hsram := [], st := .serving, curJob := some j } ∧
        (t.drv p).dstate = .reset ∧ t.mem = s.mem ∧ ∀ r ∈ liveRegs p, t.reg r = 0) ∧
    (fld v 3 0 = 1 → st ≠ .vacant ∨ s.jobMay p j = false → refused (.assign p v) St.operandRange) ∧
    (fld v 3 0 = 4 → st = .serving → s.liveSlots p = [] → inMemory → ∃ t, exec (.release p v) s = .next t ∧
      t.PtEnded p v St.ok ∧ (t.part p).st = .vacant ∧ (t.part p).curJob = none ∧ (t.part p).hsram = [] ∧
      (t.part p).slots = [] ∧ (t.part p).role = .unset ∧ (t.drv p).dstate = .reset ∧
      (∀ q, (t.drv p).queue q = []) ∧ frame t) ∧
    (fld v 3 0 = 4 → st ≠ .serving ∨ s.liveSlots p ≠ [] → refused (.release p v) St.operandRange) ∧
    (fld v 3 0 = 5 → (st = .vacant ∨ st = .serving ∧ (s.liveSlots p = [] ∨ bitOf v 4 = true)) →
      ∃ t, exec (.offline p v) s = .next t ∧ t.PtEnded p v St.ok ∧ (t.part p).st = .offline ∧
        (t.part p).curJob = none ∧ (t.part p).slots = [] ∧ (t.part p).staged = (s.part p).staged ∧
        (t.drv p).dstate = .offline ∧ frame t) ∧
    (fld v 3 0 = 5 → st = .serving → s.liveSlots p ≠ [] → bitOf v 4 = false → refused (.offline p v) St.phaseIllegal) ∧
    (fld v 3 0 = 6 → st = .offline ∨ st = .failed → ∃ t, exec (.retest p v) s = .next t ∧ t.ptBusy p = true ∧
      t.part p = { s.part p with st := .testing } ∧ frame t ∧ t.mem = s.mem) ∧
    (fld v 3 0 = 6 → st ≠ .offline → st ≠ .failed → refused (.retest p v) St.operandRange) ∧
    (fld v 3 0 = 7 → st = .offline → bitOf v 12 = false → ∃ t, exec (.online p v) s = .next t ∧ t.PtEnded p v St.ok ∧
      (t.part p).st = .vacant ∧ (t.part p).curJob = none ∧ (t.part p).hsram = [] ∧ (t.drv p).dstate = .reset ∧
      (t.part p).staged = (s.part p).staged ∧ s.Raised t Ev.numbering ∧ frame t ∧
      t.regFld (ptBase p + 0x2000) 3 0 = 0 ∧ ∀ r, (s.part p).retested = some r →
        (t.part p).absent = ((s.part p).numbered r).absent ∧ (t.part p).mxAbsent = ((s.part p).numbered r).mxAbsent) ∧
    (fld v 3 0 = 7 → st ≠ .offline ∨ bitOf v 12 = true ∧ s.jobMay p j = false →
      refused (.online p v) St.operandRange) ∧
    (8 ≤ fld v 3 0 → ∃ t, exec (.ptCtlReservedOp p v) s = .next t ∧ t.PtEnded p v St.operandRange ∧
      t = { s with bar0 := t.bar0 } ∧ s.RegsBut t [ptBase p, ptStat p])) ∧
  (∀ (s : State) (p : PartId),
    (∀ v i, s.ptBusy p = true ∨ s.boot.ready = false → i ∈ [Instr.assign p v, .switchOut p v, .switchIn p v, .release p v, .offline p v,
      .retest p v, .online p v, .ptCtlReservedOp p v] → exec i s = .next s) ∧
    (∀ r ok, (s.part p).st = .testing → ∃ t, exec (.retestDone p r ok) s = .next t ∧ t.ptBusy p = false ∧
      t.regFld (ptStat p) 63 48 = 0 ∧ t.part p = { s.part p with
        st := if testPasses r then .offline else .failed, retested := some r } ∧
      (∀ p' : PartId, p' ≠ p → t.part p' = s.part p') ∧ t.mem = s.mem ∧
      ∀ m, s.driven p.val 0 = some m → ((List.range 16).flatMap s.partMus).count m = 1 → m < 32 →
        let x := { s.mu m with absent := !bitOf ok 0 }
        t.mu m = if bitOf ok 0 = false ∧ (if x.switching then x.target else x.proc) = true then
          { x with switching := true, target := false, before := 0 } else x) ∧
    (∀ r ok, (s.part p).st ≠ .testing → exec (.retestDone p r ok) s = .next s))

/-- SWITCH_OUT saves the partition's job, whose drover leaves RUNNING or HALTED, at SAVE_ADDR and leaves the
partition VACANT; SWITCH_IN restores what the image at SAVE_ADDR carries, whose header must be good; CONTROL frames
for a job switched out are held, at most 64 of them (R332 to R334, R347, R348). The layout of the header and what the
drover state of an image stands for are the model's choice (log 76). Where the rules leave a point open this states
the model's choice (assumption log 57, 71, 76). -/
def Obligations.SwitchOutAndIn : Prop :=
  ∀ (s : State) (p : PartId) (v : Word),
    let a := s.regFld (ptBase p + 8) 41 0
    let j := ptJob v
    let ds := (s.drv p).dstate
    (s.boot.ready = true → s.ptBusy p = false →
    (∀ j, fld v 3 0 = 2 → (s.part p).st = .serving → (s.part p).curJob = some j → s.saveAreaOk a j = true →
      ds = .running ∨ ds = .halted → (∀ q, (s.drv p).queue q = []) → (s.part p).incoming = [] → (s.part p).fetches = [] →
      ∃ t x, exec (.switchOut p v) s = .next t ∧ t.PtEnded p v St.ok ∧ (t.part p).st = .vacant ∧
        (t.part p).curJob = none ∧ (t.part p).hsram = [] ∧ (t.part p).slots = [] ∧ (t.drv p).dstate = .switchedOut ∧
        t.saves = (s.saves.map fun (y : Saved) => if y.part = p ∧ y.job = j then { y with out := false } else y) ++ [x] ∧
        x.part = p ∧ x.job = j ∧ x.addr = a ∧ x.out = true ∧
        x.saved = { s.part p with drv := { s.drv p with waitRaised := false, waitAt := none } } ∧
        x.liveMap = s.liveRegions p ∧ x.perf = s.perfRegs p ∧ x.accBytes = 0 ∧
        x.header = saveHeader p j x.serial (s.liveRegions p) (0, 0) (s.muModes p) ∧ saveHeaderOk p j x.header = true ∧
        t.reg (ptBase p + 0x18) = BitVec.ofNat 64 (65536 * x.liveMap.length + 16384) ∧
        (∀ r ∈ liveRegs p, t.reg r = 0) ∧ ∀ p' : PartId, p' ≠ p → t.part p' = s.part p') ∧
    (∀ j, fld v 3 0 = 2 → (s.part p).st = .serving → (s.part p).curJob = some j →
      s.saveAreaOk a j = false ∨ ds ≠ .running ∧ ds ≠ .halted → ∃ t, exec (.switchOut p v) s = .next t ∧ t.PtEnded p v St.operandRange ∧ t.parts = s.parts ∧ t.mem = s.mem) ∧
    (∀ x h s1, fld v 3 0 = 3 → (s.part p).st = .vacant → s.jobMay p j = true → (s.part p).staged = none →
      (s.setReg (ptBase p) (v &&& 0x1F1F)).stRead none a 4096 = (.ok h, s1) → saveHeaderOk p j h = true →
      x = s1.savedAs p j h → x.saved.slots = [] → s.regBit (pcfgOff p) 0 = false → leAt h 60 4 = 0 →
      (∀ m ∈ s.partMus p.val, (s.mu m).proc = false ∧ (s.mu m).switching = false) →
      (∀ h ∈ s.heldCtl, h.part ≠ p ∨ h.job ≠ j) → ∃ t, exec (.switchIn p v) s = .next t ∧ t.PtEnded p v St.ok ∧
        (t.part p).st = .serving ∧ (t.part p).curJob = some j ∧ (t.part p).role = x.saved.role ∧
        t.drv p = { x.saved.drv with nextUid := max x.saved.drv.nextUid (s.drv p).nextUid,
                                     ended := (s.drv p).ended ++ x.saved.drv.ended } ∧
        (t.part p).slots = [] ∧ (t.part p).absent = (s.part p).absent ∧
        t.saves = (s.saves.map fun (y : Saved) => if y = x then { y with out := false } else y) ∧
        (∀ y ∈ s.saves, y.serial = leAt h 8 8 → y.part = p → y.job = j →
          (∀ z ∈ s.saves, z.serial = y.serial → z = y) → x = y) ∧
        ∀ p' : PartId, p' ≠ p → t.part p' = s.part p') ∧
    (∀ h s1, fld v 3 0 = 3 → (s.part p).st = .vacant → s.jobMay p j = true →
      (s.setReg (ptBase p) (v &&& 0x1F1F)).stRead none a 4096 = (.ok h, s1) → saveHeaderOk p j h = false →
      ∃ t, exec (.switchIn p v) s = .next t ∧ t.PtEnded p v St.operandRange ∧ t.parts = s.parts ∧ t.saves = s.saves) ∧
    (fld v 3 0 = 3 → (s.part p).st ≠ .vacant ∨ s.jobMay p j = false → ∃ t, exec (.switchIn p v) s = .next t ∧
      t.PtEnded p v St.operandRange ∧ t.parts = s.parts ∧ t.saves = s.saves)) ∧
    (∀ j src c, s.accepts = false → exec (.controlForSwitchedJob p j src c) s = .next s) ∧
    (∀ j src c, s.accepts = true → s.switchedOut.any (fun x => decide (x.part = p) && decide (x.job = j)) = true →
      (∀ id who fwd, c ≠ .cancel id who fwd) →
      ((s.heldCtl.filter fun h => h.job = j).length < 64 → exec (.controlForSwitchedJob p j src c) s =
        .next { s with heldCtl := s.heldCtl ++ [{ part := p, job := j, src := src, ctl := c }] }) ∧
      (∀ id, 64 ≤ (s.heldCtl.filter fun h => h.job = j).length → ctlReq c = some id →
        s.mayKeep (s.ctlFrame unitRk src (ctlTagOf id) (.refuse id St.partOffline s.epoch)) = true →
        ∃ t, exec (.controlForSwitchedJob p j src c) s = .next t ∧ s.OnlySends t ∧
          s.SentCtl t src (.refuse id St.partOffline s.epoch)))

/-- Job registers take a write only while the job is current nowhere and the shares of a port stay within 256; the
tariff counters are mapped, snapped, dumped and ticked (R325, R326, R337 to R339). Where the rules leave a point open
this states the model's choice (assumption log 78). -/
def Obligations.JobsAndMetering : Prop :=
  ∀ (s : State) (j : JobId) (v : Word),
    let ignored := fun (i : Instr) (o : Nat) => ∃ t, exec i s = .next t ∧ s.Raised t Ev.writeIgnored ∧
      s.OnlyEvents t ∧ t.reg o = s.reg o
    let after := fun (o : Nat) => s.setReg o (s.written o (BitVec.allOnes 64) v)
    let masks := jobBase j.val
    (s.boot.ready = false → (∀ i, exec (.jobRegisterWrite j i v) s = .next s) ∧ exec (.fabShareWrite j v) s = .next s ∧
      exec (.mtrMap v) s = .next s ∧ exec (.snap v) s = .next s ∧ exec (.dump v) s = .next s) ∧
    (s.boot.ready = true →
    ((∀ p, s.jobOf p ≠ some j.val) → (after masks).sharesFit = true → wholeGroups s.ways (BitVec.ofNat 24 (fld v 55 32)) →
      ∃ t, exec (.jobRegisterWrite j 0 v) s = .next t ∧ t = { s with bar0 := t.bar0 } ∧ s.RegsBut t [masks] ∧
        t.jobValid j.val = bitOf v 63 ∧ t.jobShare j.val = fld v 60 56 ∧ t.jobCxlMask j.val = fld v 55 32 ∧
        t.jobPartMask j.val = fld v 15 0) ∧
    (∀ i : Fin 4, i ≠ 1 → (∃ p, s.jobOf p = some j.val) →
      ignored (.jobRegisterWrite j i v) (masks + 8 * i.val)) ∧
    ((after (masks + 8)).sharesFit = true → ∃ t, exec (.fabShareWrite j v) s = .next t ∧
      t = { s with bar0 := t.bar0, fab := { s.fab with shpWrites := t.fab.shpWrites } } ∧ s.RegsBut t [masks + 8] ∧
      t.reg (masks + 8) = v ∧ t.beforeWrites (masks + 8) = s.beforeWrites (masks + 8) ∧
      exec (.jobRegisterWrite j 1 v) s = .next t) ∧
    ((after (masks + 8)).sharesFit = false → ignored (.fabShareWrite j v) (masks + 8)) ∧
    (∃ t, exec (.mtrMap v) s = .next t ∧ t = { s with bar0 := t.bar0, meter := t.meter } ∧ t.meter.sets = s.meter.sets ∧
      t.regFld 0x700018 63 48 = 0 ∧
      ∀ x, tabFind t.meter.map x = if x = fld v 15 0 then (if bitOf v 63 then some (fld v 43 32) else none)
        else tabFind s.meter.map x) ∧
    (∃ t, exec (.snap v) s = .next t ∧ t = { s with bar0 := t.bar0 } ∧
      (∀ k, k < 8 → t.reg (0x700040 + 8 * k) = tabGet (fun _ => 0) s.meter.sets (fld v 11 0 * 8 + k)) ∧
      t.reg 0x700080 = BitVec.ofNat 64 s.now ∧ t.regFld 0x700018 63 48 = 0) ∧
    (∀ s1, s.stWrite none (s.regFld 0x700010 41 0) s.dumpBytes = (none, s1) → ∃ t, exec (.dump v) s = .next t ∧
      t.mem = s1.mem ∧ t.regFld 0x700018 63 48 = 0 ∧ t.meter = s.meter ∧ t.parts = s.parts) ∧
    (∀ e s1, s.stWrite none (s.regFld 0x700010 41 0) s.dumpBytes = (some e, s1) → ∃ t, exec (.dump v) s = .next t ∧
      t.mem = s.mem ∧ t.regFld 0x700018 63 48 = e.status.toNat ∧ t.meter = s.meter)) ∧
    (∃ t, exec .tariffTick s = .next t ∧ t = { s with bar0 := t.bar0, meter := t.meter } ∧
      t.meter.map = s.meter.map ∧ s.RegsBut t [0x700110, 0x700118] ∧
      ∀ x a jb k, (∀ p, s.jobOf p = none) → s.saves = [] → s.parked = [x] → x.slots = [a] →
        terminal (mPhase x.mft) = false → s.poolJob a = some jb → tabFind s.meter.map (mTenant x.mft) = some k →
        t.counterSet k 2 = s.counterSet k 2 + BitVec.ofNat 64 (s.unitsAt a (s.slotBytes jb)).1 ∧
        t.counterSet k 3 = s.counterSet k 3 + BitVec.ofNat 64 (s.unitsAt a (s.slotBytes jb)).2)

/-! ## Requests, caravans and the route book (chapter 1) -/

/-- The manager admits a request in phase ADMIT under the next request id and mirrors its log and its record to the
standby before it goes on; with the acknowledgement the host is told, and the copy of an append lets its answer go
out. Any other node sends the admission on to the manager (R14, R34, R35, R38, R73). A request that no receiver could
accept is not admitted: the model's choice (log 47). The manager's table follows the notes it gets: an ownership note
names the new owner and is acknowledged, a final manifest ends the request, frees its log and counts its outcome; one
that fails its CRC is discarded with an event (R14, R18, R59, R407). That the note brings the manifest's flags is the
model's choice (log 54). Where the rules leave a point open this states the model's choice (assumption log 47, 54,
60, 101). -/
def Obligations.AdmissionsAndNotes : Prop :=
  (∀ (s : State),
    let fits := fun a : Admission => 2 ≤ a.prio.toNat ∧ precisionOk a.precision.toNat = true ∧ a.prompt ≠ [] ∧
      a.prompt.length ≤ 16777215
    let admits := fun (a : Admission) (t : State) (r : ReqRec) => exec (.admissionRequest a) s = .next t ∧
      r.id = BitVec.ofNat 48 (max 1 s.mgr.nextId) ∧ t.request r.id = some r ∧
      (∃ l, t.logOf r.id = some l ∧ l.entries = inputEntries a.prompt) ∧ r.phase = 0 ∧
      r.node = s.fab.node ∧ r.tenant = a.tenant ∧ r.host = a.host ∧ mReqId r.mft = r.id ∧ mPhase r.mft = Ph.atAdmit ∧
      mNextPos r.mft = a.prompt.length ∧ mInput r.mft = a.prompt.length ∧ mOutput r.mft = 0 ∧
      mTenant r.mft = a.tenant.toNat ∧ mCrcOk r.mft = true ∧ t.mgr.nextId = max 1 s.mgr.nextId + 1 ∧ t.parts = s.parts
    (∀ a, s.isManager = true → fits a → 0 < s.regFld 0x2000 5 0 → ∃ t r, admits a t r) ∧
    (∀ a n, s.isManager = true → fits a → s.stby = some n →
      ∃ t r, admits a t r ∧ r.acked = false ∧ mHops r.mft = 0 ∧ t.mgr.mirrors.getLast? = some (.admitted r)) ∧
    (∀ a, s.isManager = true → ¬fits a → exec (.admissionRequest a) s = .next s) ∧
    (∀ a n, s.isManager = false → s.mgrNode = some n → n ≠ s.fab.node → s.Room unitRk n →
      ∃ t, exec (.admissionRequest a) s = .next t ∧ s.OnlySends t ∧
        s.SentCtl t n (.admission { a with host := s.fab.node })) ∧
    (∀ a, s.isManager = false → s.mgrNode = none ∨ s.mgrNode = some s.fab.node →
      exec (.admissionRequest a) s = .next s) ∧
    (s.accepts = false → exec .standbyMirrorAck s = .next s) ∧
    (∀ a rest, s.accepts = true → s.mgr.mirrors = a :: rest → ∃ t more, exec .standbyMirrorAck s = .next t ∧
      t.mgr.mirrors = rest ++ more ∧ t.parts = s.parts ∧ t.mem = s.mem) ∧
    (∀ r x rest, s.accepts = true → s.mgr.mirrors = .admitted r :: rest → s.request r.id = some x → x.acked = false →
      x.host = s.fab.node → ∃ t y, exec .standbyMirrorAck s = .next t ∧
        t.host.notes = s.host.notes ++ [.admitted r.id] ∧ t.request r.id = some y ∧ y.acked = true) ∧
    (∀ n id k rest, s.accepts = true → s.mgr.mirrors = .ackAppend n id k :: rest → s.Room unitRk n →
      ∃ t, exec .standbyMirrorAck s = .next t ∧ s.OnlyMgr t ∧ t.mgr = { s.mgr with mirrors := rest } ∧
        s.SentCtl t n (.logAck id k)) ∧
    (∀ rest, s.accepts = true → s.mgr.mirrors = .nothing :: rest →
      exec .standbyMirrorAck s = .next { s with mgr := { s.mgr with mirrors := rest } }) ∧
    (s.mgr.mirrors = [] → exec .standbyMirrorAck s = .next s)) ∧
  (∀ (s : State),
    (s.accepts = false → (∀ id ph n o, exec (.ownershipNote id ph n o) s = .next s) ∧
      ∀ m, exec (.finalManifest m) s = .next s) ∧
    (s.accepts = true → s.isManager = true →
    (∀ id ph n p m r, s.request id = some r →
      let r' := { r with phase := ph, node := n, part := p, mft := mNoted r.mft ph.toNat m,
                         parkedNs := if ph = 4 then s.now else r.parkedNs }
      (∃ t, exec (.ownershipNote id ph n ⟨p, m⟩) s = .next t ∧
        t.request id = some (if terminal r.phase.toNat then r else r') ∧ t.mgr.logs = s.mgr.logs ∧
        t.mgr.nextId = s.mgr.nextId ∧ t.parts = s.parts ∧ t.mem = s.mem ∧
        ∀ id', id' ≠ id → t.request id' = s.request id') ∧
      (s.stby = none → s.mgr.copyStarted = false → r.node = n ∨ r.node = s.fab.node → s.Room unitRk n →
        ∃ t, exec (.ownershipNote id ph n ⟨p, m⟩) s = .next t ∧ s.OnlyMgr t ∧ s.SentCtl t n (.ownershipAck id))) ∧
    (∀ id ph n p m, s.request id = none → s.Room unitRk n → ∃ t, exec (.ownershipNote id ph n ⟨p, m⟩) s = .next t ∧
      s.OnlySends t ∧ s.SentCtl t n (.ownershipAck id)) ∧
    (∀ m r, s.request (mReqId m) = some r → mCrcOk m = true →
      (∃ t, exec (.finalManifest m) s = .next t ∧ t.logOf (mReqId m) = none ∧
        t.request (mReqId m) = some { r with phase := BitVec.ofNat 4 (mPhase m), mft := mMerge m r.mft } ∧
        t.reg 0x7080A0 = s.reg 0x7080A0 + (if mPhase m = Ph.failed then 1 else 0) ∧
        t.reg 0x7080A8 = s.reg 0x7080A8 + (if mPhase m = Ph.cancelled then 1 else 0) ∧ t.parts = s.parts ∧
        ∀ id, id ≠ mReqId m → t.request id = s.request id ∧ t.logOf id = s.logOf id) ∧
      (s.stby = none → s.mgr.copyStarted = false → ∃ t, exec (.finalManifest m) s = .next t ∧
        t = { s with mgr := t.mgr, bar0 := t.bar0 } ∧
        s.RegsBut t [0x708080, 0x708088, 0x708090, 0x708098, 0x7080A0, 0x7080A8])) ∧
    (∀ m, mCrcOk m = false → ∃ t, exec (.finalManifest m) s = .next t ∧ s.OnlyEvents t ∧ s.Raised t Ev.manifestCrcRx)))

/-- The manager takes an append whose overlap agrees with its log, mirrors it and then acknowledges it; it refuses
one that starts beyond the log or whose overlap differs. A refused append is sent again, or faults the FAB_LOG that
sent it (R74). A node that takes no CONTROL frames discards both (R303, R369, R404). Where the rules leave a point
open this states the model's choice (assumption log 55, 100). -/
def Obligations.PromptLogAppends : Prop :=
  ∀ (s : State) (src : NodeId) (id : ReqId),
    (s.accepts = false → ∀ i es, exec (.promptLogAppend src id i es) s = .next s ∧
      exec (.appendRefusal id i) s = .next s) ∧
    (s.accepts = true →
    (∀ l i es, s.isManager = true → s.logOf id = some l → i ≤ l.entries.length →
      (l.entries.drop i).take es.length = es.take (l.entries.length - i) →
      let l' := { l with entries := l.entries ++ es.drop (l.entries.length - i) }
      (∃ t, exec (.promptLogAppend src id i es) s = .next t ∧ t.logOf id = some l' ∧ t.parts = s.parts) ∧
      (∀ n, s.stby = some n → s.mgr.copyStarted = false → s.Room unitRk n →
        ∃ t, exec (.promptLogAppend src id i es) s = .next t ∧ s.SentCtl t n (.mirror (.log l')) ∧
          t.mgr.mirrors = s.mgr.mirrors ++ [.ackAppend src id l'.entries.length]) ∧
      (s.stby = none → s.mgr.copyStarted = false → s.Room unitRk src →
        ∃ t, exec (.promptLogAppend src id i es) s = .next t ∧ t.mgr.mirrors = s.mgr.mirrors ∧
          s.SentCtl t src (.logAck id l'.entries.length))) ∧
    (∀ l i es, s.isManager = true → s.logOf id = some l → l.entries.length < i → s.Room unitRk src →
      ∃ t, exec (.promptLogAppend src id i es) s = .next t ∧ s.OnlySends t ∧
        s.SentCtl t src (.logRefuse id l.entries.length)) ∧
    (∀ l i es, s.isManager = true → s.logOf id = some l → i ≤ l.entries.length →
      (l.entries.drop i).take es.length ≠ es.take (l.entries.length - i) → s.Room unitRk src →
      ∃ t, exec (.promptLogAppend src id i es) s = .next t ∧ t.mgr = s.mgr ∧ t.mem = s.mem ∧
        s.Raised t Ev.logOverlapMismatch ∧ s.SentCtl t src (.logRefuse id l.entries.length)) ∧
    (∀ i es, s.isManager = false → exec (.promptLogAppend src id i es) s = .next s) ∧
    (∀ p k n, s.findReq id = some (p, k) → (∀ e ∈ (s.drv p).queue 5, e.phase ≠ .waiting) →
      let x := s.slot p k
      let y := { x with logged := min x.logged n, sentLog := n }
      (n < max x.logged x.sentLog → s.mgrNode = none →
        ∃ t, exec (.appendRefusal id n) s = .next t ∧ t = { s with parts := t.parts } ∧
          (∀ p' : PartId, p' ≠ p → t.part p' = s.part p') ∧ t.part p = { s.part p with slots := (t.part p).slots } ∧
          ∀ j, t.slot p j = if j = k then y else s.slot p j) ∧
      (∀ mgr l s1, n < max x.logged x.sentLog → s.mgrNode = some mgr →
        (s.setSlot p k y).unlogged p k n = (.ok l, s1) → l ≠ [] → s1.Room p.val mgr →
        ∃ t, exec (.appendRefusal id n) s = .next t ∧ s1.SentCtl t mgr (.logAppend (mReqId (s1.manifest p k)) n l) ∧
          t.slot p k = { s1.slot p k with sentLog := n + l.length }) ∧
      (max x.logged x.sentLog ≤ n → exec (.appendRefusal id n) s = .next s)) ∧
    (∀ p k n e, s.findReq id = some (p, k) → max (s.slot p k).logged (s.slot p k).sentLog ≤ n →
      (s.drv p).queue 5 = [e] → e.phase = .waiting →
      e.tag = k → iOp e.insn = 0x74 → ∃ t x, exec (.appendRefusal id n) s = .next t ∧ t.head p 5 = some x ∧
        x.uid = e.uid ∧ x.phase = .done ∧ x.wbOk = false ∧ x.faultPost = false ∧ (t.slot p k).faulted = true ∧
        (t.slot p k).logged = (s.slot p k).logged ∧ (t.drv p).faultSeq = (s.drv p).faultSeq + 1))

/-- A parked session: a continuation moves it to RESUME with its tokens appended to the log, or, evicted, without
any; the close of the session or the end of its lease to DONE, with a release to every member of its cache set (R17,
R20). An eviction tells the owner on a DRAINING node (R33). Where the rules leave a point open this states the
model's choice (assumption log 46, 48, 54). -/
def Obligations.ParkedSessions : Prop :=
  ∀ (s : State) (id : ReqId) (r : ReqRec), s.isManager = true → s.request id = some r →
    (∀ l tokens gen keep, s.logOf id = some l → r.phase.toNat = Ph.park →
      mFlag r.mft flEvicted = decide (tokens = []) → l.entries.length + tokens.length ≤ 16777215 →
      let resumes := fun (t : State) (r' : ReqRec) => exec (.continuationAdmit id tokens gen keep) s = .next t ∧
        t.request id = some r' ∧
        (∃ l', t.logOf id = some l' ∧ l'.entries = l.entries ++ inputEntries tokens ∧
          l'.turn = (if tokens = [] ∨ l.turn = 0xFFFF then l.turn else l.turn + 1)) ∧ r'.phase = 5 ∧
        r'.node = s.fab.node ∧ mPhase r'.mft = Ph.resume ∧ mNextPos r'.mft = l.entries.length + tokens.length ∧
        (tokens ≠ [] → mFlag r'.mft flKeep = keep) ∧ mCrcOk r'.mft = true ∧ t.parts = s.parts
      (0 < s.regFld 0x2000 5 0 → ∃ t r', resumes t r') ∧
      (∀ n, s.stby = some n → ∃ t r', resumes t r' ∧ mHops r'.mft = 0 ∧
        t.mgr.mirrors.getLast? = some (.admitted r'))) ∧
    (∀ i, i = .sessionClose id ∨ i = .parkLeaseExpiry id → r.phase.toNat = Ph.park → mReqId r.mft = id →
      (∀ x ∈ s.mgr.sends, x.id ≠ id) → ∃ t r', exec i s = .next t ∧ s.OnlyMgr t ∧ t.request id = some r' ∧
        r'.phase = 6 ∧ mPhase r'.mft = Ph.done ∧ t.logOf id = none ∧
        t.fab.sent.length + t.fab.backlog.length = s.fab.sent.length + s.fab.backlog.length +
          (if mCacheSet r.mft = 0xFFF then 0 else ((s.heldSet (mCacheSet r.mft)).map (·.members.length)).getD 0)) ∧
    (s.nodeState r.node = .draining → terminal r.phase.toNat = false → r.phase.toNat ≠ Ph.park → s.Room unitRk r.node →
      ∃ t, exec (.managerEvict id) s = .next t ∧ s.OnlySends t ∧ s.SentCtl t r.node (.evict id)) ∧
    (s.nodeState r.node ≠ .draining → exec (.managerEvict id) s = .next s)

/-- A cancel takes effect at the owner of the request: one in no convoy ends CANCELLED at once, a member of a convoy
at its commit cycle, and the sender of the frame is answered; a former owner forwards it; the manager ends a request
it owns itself (R44, R196 to R198). One whose manifest fails its CRC ends FAILED instead (R59). Where the rules leave
a point open this states the model's choice (assumption log 6, 57). -/
def Obligations.CancelsReachTheOwner : Prop :=
  ∀ (s : State) (src to_ : NodeId) (id : ReqId),
    (s.accepts = false → exec (.cancel src id to_ false) s = .next s) ∧
    (s.accepts = true →
    let absent := (∀ (p : PartId), ∀ k ∈ s.heldSlots p, mReqId (s.manifest p k) ≠ id) ∧ s.saves = []
    let unparked := absent ∧ s.newestCopy id = none
    (∀ p k, s.heldSlots p = [k] → (∀ p' : PartId, p' ≠ p → s.heldSlots p' = []) → mReqId (s.manifest p k) = id →
      s.owns p k = true → terminal (mPhase (s.manifest p k)) = false → mCrcOk (s.manifest p k) = true →
      (∀ e ∈ (s.drv p).entries, iOp e.insn ≠ 0x50 ∨ e.phase ≠ .done) →
      ((s.slot p k).done = true ∨ s.cancelWaits p k = true →
        ∃ t, exec (.cancel src id to_ false) s = .next t ∧ t = { s with parts := t.parts } ∧
          (∀ p' : PartId, p' ≠ p → t.part p' = s.part p') ∧ t.part p = { s.part p with slots := (t.part p).slots } ∧
          ∀ j, t.slot p j = if j = k then { s.slot p k with
            cancel := true, cancellers := (s.slot p k).cancellers ++ [src] } else s.slot p j) ∧
      ((s.slot p k).done = false → s.cancelWaits p k = false →
        ∃ t, exec (.cancel src id to_ false) s = .next t ∧ mPhase (t.manifest p k) = Ph.cancelled ∧
          mEpoch (t.manifest p k) = s.epoch ∧ (t.slot p k).faulted = true ∧ (t.slot p k).cancellers = [] ∧
          t.reg (ptBase p + 0x5060) = s.reg (ptBase p + 0x5060) + 1 ∧
          t.Posted src (.cancelAnswer id St.cancelled (mOutput (s.manifest p k))))) ∧
    (∀ p k, s.heldSlots p = [k] → (∀ p' : PartId, p' ≠ p → s.heldSlots p' = []) → mReqId (s.manifest p k) = id →
      s.owns p k = true → terminal (mPhase (s.manifest p k)) = false → mCrcOk (s.manifest p k) = false →
      ∃ t, exec (.cancel src id to_ false) s = .next t ∧ mPhase (t.manifest p k) = Ph.failed ∧
        t.Posted src (.cancelAnswer id St.alreadyDone (mOutput (s.manifest p k)))) ∧
    (∀ x c n, absent → s.newestCopy id = some x → terminal (mPhase x.mft) = false →
      s.cacheSet (mCacheSet x.mft) = some c → s.leadOf c = some n → n ≠ s.fab.node → s.Room unitRk n →
      ∃ t, exec (.cancel src id to_ false) s = .next t ∧ s.OnlySends t ∧ s.SentCtl t n (.cancel id to_ true)) ∧
    (∀ n q, unparked → tabFind s.mgr.owners id.toNat = some (n, q) → s.Room unitRk n →
      ∃ t, exec (.cancel src id to_ false) s = .next t ∧ s.OnlySends t ∧ s.SentCtl t n (.cancel id to_ true)) ∧
    (∀ r, unparked → tabFind s.mgr.owners id.toNat = none → s.isManager = true → s.request id = some r →
      mReqId r.mft = id → s.Room unitRk to_ →
      (terminal r.phase.toNat = true → ∃ t, exec (.cancel src id to_ false) s = .next t ∧ s.OnlySends t ∧
        s.SentCtl t to_ (.cancelAnswer id St.alreadyDone (mOutput r.mft))) ∧
      (r.node = s.fab.node → r.phase.toNat = Ph.atAdmit ∨ r.phase.toNat = Ph.resume →
        (∀ x ∈ s.mgr.sends, x.id ≠ id) → mCacheSet r.mft = 0xFFF →
        ∃ t r', exec (.cancel src id to_ false) s = .next t ∧ s.OnlyMgr t ∧ t.request id = some r' ∧ r'.phase = 7 ∧
          mPhase r'.mft = Ph.cancelled ∧ t.logOf id = none ∧
          s.SentCtl t to_ (.cancelAnswer id St.cancelled (mOutput r.mft)))))

/-- What a sender does with the answers to its caravan: an acceptance is noted, a refusal ends the FAB_CARAVAN with
its status and leaves the sender owner, a commit acknowledgement passes the request to the receiver (R12, R13, R45,
R297). A manager whose book is newer than a refusing receiver's sends it that book, else names another target to the
owner: for a PARK another cache set (the model's choice, log 48); a HANDOFF whose receiver has failed loses its
state; an owner sends its unacknowledged appends again to the manager its book names (R13, R28, R38). Where the rules
leave a point open this states the model's choice (assumption log 48, 54, 56). -/
def Obligations.CaravanAnswersAndRefusals : Prop :=
  (∀ (s : State) (src : NodeId) (id : ReqId),
    (s.accepts = false → (∀ slots, exec (.caravanAccept src id slots) s = .next s) ∧
      (∀ st ep, exec (.caravanRefusal src id st ep) s = .next s) ∧ exec (.commitAck src id) s = .next s) ∧
    (s.accepts = true →
    (∀ p o, s.transferTo src id = some (p, o) → (s.part p).outgoing = [o] →
      let noted := { o with accepted := o.accepted ++ [src] }
      (∀ slots, o.accepted.contains src = false → o.park = true → o.lead ≠ src → o.accepted.contains o.lead = false →
        o.allSent = [] → o.dsts ≠ [] → ∃ t, exec (.caravanAccept src id slots) s = .next t ∧
          t = { s with parts := t.parts } ∧ (∀ p' : PartId, p' ≠ p → t.part p' = s.part p') ∧
          t.part p = { s.part p with outgoing := [noted] }) ∧
      (∀ slots q fs s1, o.accepted.contains src = false → o.park = false → o.dsts = [(src, q)] →
        (s.setPart p { s.part p with outgoing := [noted] }).laterFrames p noted none 0 = (.ok fs, s1) →
        ∃ t x, exec (.caravanAccept src id slots) s = .next t ∧ (t.part p).outgoing = [x] ∧ x.uid = o.uid ∧
          x.accepted = noted.accepted) ∧
      (∀ slots, o.accepted.contains src = true → exec (.caravanAccept src id slots) s = .next s) ∧
      (∀ e st ep, s.head p 5 = some e → e.uid = o.uid →
        ∃ t, exec (.caravanRefusal src id st ep) s = .next t ∧ t.DoneAt p 5 e 0 (st.setWidth 64) ∧
          (t.part p).outgoing = [] ∧ (t.slot p o.slot).leaving = false ∧
          (t.slot p o.slot).gone = (s.slot p o.slot).gone ∧ (t.part p).hsram = (s.part p).hsram ∧ t.mem = s.mem ∧
          ((t.slot p o.slot).stale = if st = St.staleEpoch then true else (s.slot p o.slot).stale) ∧
          (o.park = true → st ≠ St.staleEpoch → (t.slot p o.slot).parkAfter = some s.epoch) ∧
          (o.park = false → (t.slot p o.slot).refuser = o.dsts.head? ∧ (t.slot p o.slot).target = none) ∧
          ∀ n, s.mgrNode = some n → t.Posted n (.staleReport o.id src (BitVec.ofNat 4 (mPhase o.mft)) ep st)) ∧
      (∀ e, s.head p 5 = some e → e.uid = o.uid → o.park = false →
        ∃ t, exec (.commitAck src id) s = .next t ∧ t.DoneAt p 5 e 0 ∧ (t.part p).outgoing = [] ∧
          (t.slot p o.slot).gone = true ∧ (t.slot p o.slot).leaving = false ∧
          tabFind t.mgr.owners o.id.toNat = some (src, ((o.dsts.find? fun d => d.1 = src).map (·.2)).getD 0)) ∧
      (o.park = true → exec (.commitAck src id) s = .next s)) ∧
    (∀ x, s.transferTo src id = none → s.sendTo src id = some x →
      (∀ slots, ∃ t, exec (.caravanAccept src id slots) s = .next t ∧ ∀ y ∈ t.mgr.sends, y.id = id → y.accepted = true) ∧
      (∃ t, exec (.commitAck src id) s = .next t ∧ t = { s with mgr := t.mgr } ∧
        t.mgr.sends = s.mgr.sends.filter (fun y => y.id ≠ id) ∧
        ∀ r, s.request id = some r → t.request id = some { r with node := src, part := Fin.ofNat 16 x.part })) ∧
    (∀ x, s.transferTo src id = none → s.sendTo src id = none → s.newestCopy id = some x →
      ∃ t, exec (.commitAck src id) s = .next t ∧ s.OnlySends t ∧ ∀ n, s.mgrNode = some n →
        t.Posted n (.ownership (mReqId x.mft) (BitVec.ofNat 4 (mPhase x.mft)) s.fab.node x.part (some x.mft))))) ∧
  (∀ (s : State) (id : ReqId),
    (∀ owner receiver r, s.accepts = false → exec (.staleEpochRefusal owner receiver id r) s = .next s) ∧
    (∀ owner receiver ph e b, s.accepts = true → s.isManager = true → s.mgr.cur = some b →
      let behind := 1 ≤ (b.epoch - e).toNat ∧ (b.epoch - e).toNat ≤ 32767
      let i := Instr.staleEpochRefusal owner receiver id ⟨ph, e⟩
      (behind → s.Room unitRk receiver → ∃ t, exec i s = .next t ∧ s.OnlySends t ∧
        s.SentCtl t receiver (.bookPart b)) ∧
      (∀ r n p s1, ¬behind → s.request id = some r → terminal r.phase.toNat = false → ph.toNat ≠ Ph.park →
        (ph.toNat = Ph.handoff → s.serves receiver = true) →
        s.pickTarget r.mft .generate [receiver] = (some (n, p), s1) → s1.Room unitRk owner →
        ∃ t, exec i s = .next t ∧ s1.OnlySends t ∧ s1.SentCtl t owner (.assign r.mft n (Fin.ofNat 16 p))) ∧
      (∀ r, ¬behind → s.request id = some r → terminal r.phase.toNat = true → exec i s = .next s) ∧
      (∀ r c n, ¬behind → s.request id = some r → terminal r.phase.toNat = false → ph.toNat = Ph.park → s.otherSets r.mft receiver = [c] →
        s.leadOf c = some n → s.Room unitRk owner → ∃ t m, exec i s = .next t ∧
          t = { s with bar0 := t.bar0, fab := t.fab, ports := t.ports, freeCount := s.freeCount + 1 } ∧
          mCacheSet m = c.number.toNat ∧ s.SentCtl t owner (.assign m n 0)) ∧
      (∀ r l, ¬behind → s.request id = some r → terminal r.phase.toNat = false → ph.toNat = Ph.handoff →
        s.serves receiver = false →
        s.logOf r.id = some l → 0 < s.regFld 0x2000 5 0 → ∃ t r', exec i s = .next t ∧ t.request id = some r' ∧
          r'.phase = 0 ∧ r'.node = s.fab.node ∧ mFlag r'.mft flStateLost = true)) ∧
    (∀ owner receiver ph e, s.isManager = false → exec (.staleEpochRefusal owner receiver id ⟨ph, e⟩) s = .next s) ∧
    (∀ n f i es, s.mgrNode = some n → s.mgr.unacked = [f] → f.body = .ctl (.logAppend id i es) → s.Room (hUnit f) n →
      ∃ t, exec (.ownerResend id) s = .next t ∧ s.OnlySends t ∧ s.SentCtl t n (.logAppend id i es)) ∧
    (s.mgrNode = none → exec (.ownerResend id) s = .next s))

/-- Frame 0 at a receiver: refused, held for a newer book, or accepted with pool slots for its pages, re-stamped
where it is of the book before and its route stands; the sender stays owner of a caravan refused (R13, R16, R26, R27,
R45, R59, R328). Where the rules leave a point open this states the model's choice (assumption log 40, 45). -/
def Obligations.FrameZeroIsJudged : Prop :=
  ∀ (s : State) (f : Frame),
    (s.accepts = false ∨ 9 ≤ tagContent f.hdr.tag → exec (.caravanFrame0 f) s = .next s) ∧
    ∀ (m : Manifest) (p : PartId), s.accepts = true → tagContent f.hdr.tag < 9 → f.mft = some m →
    s.targetPart f m = some p →
    s.fab.aborted.contains (abortKey (hSrc f) f.hdr.tag) = false → s.incomingOf (hSrc f) (mReqId m) = none →
    s.Room p.val (hSrc f) →
    let id := mReqId m
    let refused := fun (st : Status) => ∃ t, exec (.caravanFrame0 f) s = .next t ∧ s.OnlySends t ∧
      s.SentCtl t (hSrc f) (.refuse id st s.epoch)
    let serves := mCrcOk m = true ∧ (s.part p).st = .serving ∧ (s.part p).role ≠ .unset ∧ s.servesJobOf p m = true
    let good := serves ∧ (s.epochKind (mEpoch m) = 0 ∨ s.epochKind (mEpoch m) = 2) ∧ s.frame0Fault p f m = none
    let begun : Nat → Incoming := fun k =>
      { src := hSrc f, unit := hUnit f, slot := k, park := decide (mPhase m = Ph.park), mft := m,
        sampler := if mPhase m = Ph.atAdmit then [] else fitBytes 128 (bodyBytes f.body), accepted := false, frame0 := f,
        lines := [], owed := 0, got := [], forms := [], last := if tagLast f.hdr.tag then some 0 else none, pages := [] }
    -- the partition has begun to receive
    let begins := fun (i : Incoming) =>
      (s.modFab fun b => { b with dropped := b.dropped.erase (abortKey (hSrc f) f.hdr.tag) }).modPart p fun x =>
        { x with incoming := x.incoming ++ [i] }
    let recordOk := fun (u : State) (i : Incoming) => srCrcOk i.sampler = true ∧ srInRange i.sampler = true ∧
      u.grammarInRange p m i.sampler = true ∧ (mFlag m flSharedPrefix = false → srPrefixPt i.sampler = 0) ∧
      u.roomFor p i = true
    let accepted := fun (t : State) (i : Incoming) (ks : List Nat) (m' : Manifest) (slots : List Nat) =>
      (t.part p).incoming = (s.part p).incoming ++ [{ i with accepted := true, pages := ks, mft := m' }] ∧
        t.part p = { s.part p with incoming := (t.part p).incoming } ∧
        (∀ p' : PartId, p' ≠ p → t.part p' = s.part p') ∧ t.mem = s.mem ∧ s.SentCtl t (hSrc f) (.accept id slots)
    (mCrcOk m = false → ∃ t, exec (.caravanFrame0 f) s = .next t ∧ t.parts = s.parts ∧ t.mem = s.mem ∧
      s.Raised t Ev.manifestCrcRx ∧ s.SentCtl t (hSrc f) (.refuse id St.operandRange s.epoch)) ∧
    (mCrcOk m = true → (s.part p).st ≠ .serving ∨ (s.part p).role = .unset ∨ s.servesJobOf p m = false →
      refused St.partOffline) ∧
    (serves → s.epochKind (mEpoch m) = 3 → refused St.staleEpoch) ∧
    (serves → s.epochKind (mEpoch m) = 1 → exec (.caravanFrame0 f) s =
      .next { s with
        fab := { s.fab with dropped := s.fab.dropped.erase (abortKey (hSrc f) f.hdr.tag) }
        mgr := { s.mgr with held := s.mgr.held ++ [{ src := hSrc f, frame := f }] } }) ∧
    -- HANDOFF and RESUME: the record came with frame 0
    (good → mPhase m = Ph.handoff ∨ mPhase m = Ph.resume → mFlag m flSharedPrefix = false → ∀ k, s.freeSlot p = some k →
      recordOk s (begun k) → ∃ t ks, exec (.caravanFrame0 f) s = .next t ∧
        ks.length = s.pagesNeeded p m (begun k).sampler ∧ accepted t (begun k) ks (s.restamp p m) []) ∧
    -- ADMIT: the record is read from SR_ADDR
    (good → mPhase m = Ph.atAdmit → mFlag m flSharedPrefix = false → ∀ k, s.freeSlot p = some k →
      (∀ sr u, (begins (begun k)).gather p [] (mSrAddr m) 128 = (.bytes sr, u) →
        recordOk u { begun k with sampler := sr } → ∃ t ks, exec (.caravanFrame0 f) s = .next t ∧
          ks.length = u.pagesNeeded p m sr ∧ accepted t { begun k with sampler := sr } ks (s.restamp p m) []) ∧
      (∀ l u, (begins (begun k)).gather p [] (mSrAddr m) 128 = (.lines l, u) →
        let tag := tagOfManifest m Ct.sampler 0 false false
        u.askRefused p tag l = none →
        ∃ t, exec (.caravanFrame0 f) s = .next t ∧ (t.part p).incoming = (s.part p).incoming ++
            [{ begun k with owed := (u.askLines p admitQueue k (mPrio m) tag l).2 }] ∧
          t.fab = (u.askLines p admitQueue k (mPrio m) tag l).1.fab ∧ t.mem = s.mem)) ∧
    -- PARK: the lead of the cache set takes the slots and names them
    (good → mPhase m = Ph.park → recordOk s (begun 0) → ∃ t ks, exec (.caravanFrame0 f) s = .next t ∧
      let leads := (s.setUnder m).bind s.leadOf = some s.fab.node
      (leads → ks.length = s.pagesNeeded p m (begun 0).sampler) ∧ (¬leads → ks = []) ∧
      ∀ j, s.jobOf p = some j →
        accepted t (begun 0) ks (s.restampPark p m) (ks.map fun x => s.poolBase j + x * s.slotBytes j))

/-- Later frames are kept by their INDEX until the last one has come; then the request is written to the partition,
which becomes its owner and acknowledges: its manifest, token log, sampler record, page table and pages stand in
memory. A member of a cache set writes a parked copy instead. A frame whose tag differs from the manifest fails the
transfer; an abort and the end of a hold time discard what has come (R12, R46, R47, R52, R63, R27, R297). Where the
rules leave a point open this states the model's choice (assumption log 42, 43, 49). -/
def Obligations.CaravanFramesToCommit : Prop :=
  ∀ (s : State) (f : Frame) (p : PartId) (i : Incoming),
    let t := f.hdr.tag
    let tagOk := tagTenant t = mTenant i.sent ∧ tagEpoch t = mEpoch i.sent ∧ tagPhase t = mPhase i.sent
    let i' : Incoming := { i with got := tabPut i.got (tagIndex t) (bodyBytes f.body),
                                  forms := match f.body with
                                    | .page x c _ => tabPut i.forms (tagIndex t) (x.toNat, c)
                                    | _ => i.forms,
                                  last := if tagLast t then some (tagIndex t) else i.last }
    let recv := s.accepts = true ∧ tagContent t < 9 ∧ s.fab.aborted.contains (abortKey (hSrc f) t) = false ∧
      s.incomingOf (hSrc f) (tagReqId t) = some (p, i)
    let ended := i.accepted = true ∧ tagOk ∧ ∃ n, i'.last = some n ∧ ∀ k, k < n → (tabFind i'.got (k + 1)).isSome
    -- the state once the lines of the last frame are visible
    let s1 := (s.setIncoming p i i').placeFrame p i' f
    (s.accepts = false ∨ 9 ≤ tagContent t → exec (.caravanFrame f) s = .next s) ∧
    (recv → i.accepted = true → tagOk → i'.last = none → ∃ u, exec (.caravanFrame f) s = .next u ∧
      (∀ p' : PartId, p' ≠ p → u.part p' = s.part p') ∧
      u.part p = { s.part p with incoming := (s.part p).incoming.map fun x => if x = i then i' else x } ∧
      u.fab = s.fab ∧ u.mgr = s.mgr ∧
      (placeIn (s.frameRuns p i') 1 (tagIndex t) = none → u = { s with parts := u.parts })) ∧
    (recv → i.accepted = false → exec (.caravanFrame f) s = .next s) ∧
    (recv → i.accepted = true → ¬tagOk → ∃ u, exec (.caravanFrame f) s = .next u ∧ s.Raised u Ev.tagMismatch ∧
      (u.part p).incoming = (s.part p).incoming.erase i ∧ u.mem = s.mem ∧
      u.Posted i.src (.refuse (mReqId i.mft) St.operandRange s.epoch)) ∧
    (recv → ended → i.park = false → mFlag i.mft flSharedPrefix = false → ∀ ph l j,
      mPhase i.mft = ph → ph = Ph.atAdmit ∨ ph = Ph.handoff ∨ ph = Ph.resume → s.jobOf p = some j →
      -- no shared page is out of reach, and the parked copy of a resumed request lies on other nodes
      (ph ≠ Ph.resume → ∀ b, s.mgr.cur = some b → ∀ n ∈ b.nodes, n.state ≠ .removed) →
      (ph = Ph.resume → ∀ b, s.mgr.cur = some b ∨ s.mgr.prev = some b → ∀ c ∈ b.sets, s.fab.node ∉ c.members) →
      let g := s1.geom p
      let log := i'.run 1 (logFrames i.mft)
      i'.pagesFrom g (g.pageSize g.kvFmt) (if ph = Ph.handoff then i.pages.length else 0) (1 + logFrames i.mft) = some l →
      log.length = 4 * mNextPos i.mft →
      let addrs := if ph = Ph.resume then [] else i.pages.map fun k => s.poolBase j + k * s.slotBytes j
      let sr := srSeal (setLe i.sampler 0x40 8 (s.nodeBase + s.copyAddr 2 p i.slot))
      let parts := [(s.copyAddr 0 p i.slot, s1.buildTable p i' addrs [] (l.map (·.1))), (s.copyAddr 1 p i.slot, sr),
        (s.copyAddr 2 p i.slot, log)] ++ addrs.zip (l.map (·.2))
      (∀ x ∈ parts, s1.stCheck (some j) x.1 x.2.length = none) →
      ∃ u, exec (.caravanFrame f) s = .next u ∧ (s1.RunsServed parts → s1.RunsWritten u parts) ∧
        (u.slot p i.slot).held = true ∧ (ph ≠ Ph.resume → (u.slot p i.slot).gone = false) ∧
        (u.slot p i.slot).logged = mNextPos i.mft ∧ mReqId (u.manifest p i.slot) = mReqId i.mft ∧
        mPhase (u.manifest p i.slot) = (if ph = Ph.atAdmit then Ph.prefill else ph) ∧
        (ph = Ph.atAdmit → mEpoch (u.manifest p i.slot) = s.epoch) ∧ mHops (u.manifest p i.slot) = 0 ∧
        mOwnerNode (u.manifest p i.slot) = s.fab.node.val ∧ mOwnerPart (u.manifest p i.slot) = p.val ∧
        mPtAddr (u.manifest p i.slot) = s.nodeBase + s.copyAddr 0 p i.slot ∧
        mSrAddr (u.manifest p i.slot) = s.nodeBase + s.copyAddr 1 p i.slot ∧ mCrcOk (u.manifest p i.slot) = true ∧
        u.Posted i.src (.commitAck (mReqId i.mft)) ∧ ∀ n, s.mgrNode = some n →
          u.Posted n (.ownership (mReqId i.mft) (BitVec.ofNat 4 (if ph = Ph.atAdmit then Ph.prefill else ph)) s.fab.node p
            (some (u.manifest p i.slot)))) ∧
    (recv → ended → i.park = true → ∀ c log table parts, s1.setUnder i'.sent = some c → s.fab.node ∈ c.members →
      let x := i'.parkTable
      i'.split 1 (4 * mNextPos i.mft :: x.2.1 :: x.2.2.map fun d => stripeLen c.coded (carried (s1.geom p) x.1.pageBytes d)) =
        some (log :: table :: parts) →
      let slots := x.2.2.map dAddr
      let m := s1.restampPark p i.mft
      let base := parkedAddr 0 (mReqId m) (mNextPos m) slots
      let m' := mSeal (mClean { m with w5 := setFld m.w5 51 0 ((base + 256) % 2 ^ 42), w6 := setFld m.w6 51 0 ((base + 64) % 2 ^ 42) })
      let runs := [(base, mBytes m' ++ srStore i.sampler ++ zeros 64 ++ table),
        (parkedAddr 1 (mReqId m) (mNextPos m) slots, log)] ++ slots.zip parts
      (∀ w ∈ runs, s1.stCheck (s1.jobOf p) w.1 w.2.length = none) →
      ∃ u, exec (.caravanFrame f) s = .next u ∧ (s1.RunsServed runs → s1.RunsWritten u runs) ∧
        u.parked = s.parked ++ [{ id := mReqId m, part := p, mft := m', slots := slots, base := base }] ∧
        u.fab = s1.fab ∧ u.mgr = s.mgr ∧ (u.part p).slots = (s.part p).slots ∧
        ∀ p' : PartId, p' ≠ p → u.part p' = s.part p') ∧
    (∀ src g, s.accepts = false ∨ 9 ≤ tagContent g → exec (.transferAbort src g) s = .next s) ∧
    (∀ src g, s.accepts = true → tagContent g < 9 → s.incomingOf src (tagReqId g) = some (p, i) →
      ∃ u, exec (.transferAbort src g) s = .next u ∧
      u.fab.aborted.contains (abortKey src g) = true ∧ (u.part p).incoming = (s.part p).incoming.erase i ∧
      u.mem = s.mem ∧ (u.part p).slots = (s.part p).slots) ∧
    (∀ h m q, s.mgr.held = [h] → h.frame.mft = some m → s.targetPart h.frame m = some q →
      s.Room q.val h.src → ∃ u, exec (.epochHoldExpiry (mReqId m)) s = .next u ∧ s.OnlyMgr u ∧ u.mgr = { s.mgr with held := [] } ∧
        s.SentCtl u h.src (.refuse (mReqId m) St.staleEpoch s.epoch))

/-- After an install a resident caravan of the book before is stamped with the current epoch where its route still
stands, and one of the current book is left as it is (R26, R30); a member of a cache set frees what it holds on a
release (R297). Where the rules leave a point open this states the model's choice (assumption log 53, 58). -/
def Obligations.ResidentsAndReleases : Prop :=
  ∀ (s : State),
    (∀ (p : PartId) (slot : BitVec 10),
      let k := slot.toNat
      let m := s.manifest p k
      s.convoyRowOf p k = none → s.owns p k = true → terminal (mPhase m) = false → mCrcOk m = true →
      (s.epochKind (mEpoch m) = 2 → s.routeStands p (s.part p).role m = true → ∃ t, exec (.caravanReexamine p slot) s = .next t ∧
        t.manifest p k = mWithPhase m (mPhase m) s.epoch ∧ t = { s with parts := t.parts, bar0 := t.bar0 } ∧
        (∀ p' : PartId, p' ≠ p → t.part p' = s.part p') ∧ t.part p = { s.part p with hsram := (t.part p).hsram } ∧
        ∀ a, (a < s.mftBase p + 64 * k ∨ s.mftBase p + 64 * k + 64 ≤ a) → t.holdByte p a = s.holdByte p a) ∧
      (s.epochKind (mEpoch m) = 0 → exec (.caravanReexamine p slot) s = .next s)) ∧
    (∀ (p : PartId) (slot : BitVec 10), (s.convoyRowOf p slot.toNat).isSome →
      exec (.caravanReexamine p slot) s = .next s) ∧
    (∀ src c, s.accepts = false → exec (.parkRelease src c) s = .next s) ∧
    (∀ src c, s.accepts = true → (∀ (p : PartId), ∀ i ∈ (s.part p).incoming, i.src ≠ src ∨ incomingHit c i = false) →
      ∃ t, exec (.parkRelease src c) s = .next t ∧ t = { s with
        parked := s.parked.filter fun x => !copyHit c x
        pools := t.pools }) ∧
    (∀ src c, s.accepts = true → (∀ (p : PartId), ∀ i ∈ (s.part p).incoming, i.src ≠ src ∨ incomingHit c i = false) →
      (∀ x ∈ s.parked, copyHit c x = false) → exec (.parkRelease src c) s = .next s)

/-- The manager issues books one epoch apart, one at a time, and mirrors each to the standby; a node installs the
next book once no caravan carries the epoch before, and answers EPOCH_BUSY or STALE_EPOCH otherwise; a STALE_EPOCH
answer, or a newer book of another manager, stops the manager (R22, R24, R29 to R32, R34, R37). Where the rules leave
a point open this states the model's choice (assumption log 6, 52, 79). -/
def Obligations.BooksFollowEachOther : Prop :=
  ∀ (s : State),
    (∀ b c n, s.isManager = true → s.mgr.install = none → b.bytes ≤ 262144 → b.ranges.length ≤ 64 →
      s.mgr.cur = some c → c.stby = some n → n ≠ s.fab.node → s.mgr.copyStarted = false → s.Room unitRk n →
      ∃ t x, exec (.bookIssue b) s = .next t ∧ s.OnlyMgr t ∧ t.mgr.install = some x ∧ x.sent = false ∧
        x.book.epoch = c.epoch + 1 ∧ x.book.mgr = s.fab.node ∧ x.book.issuedNs = s.now ∧ x.book.bytes ≤ 262144 ∧ t.mgr.cur = s.mgr.cur ∧
        t.mgr.mirrors = s.mgr.mirrors ++ [.install] ∧ s.SentCtl t n (.mirror (.book x.book))) ∧
    (∀ b, s.isManager = true → s.mgr.install = none → b.bytes ≤ 262144 → b.ranges.length ≤ 64 →
      ∃ t x, exec (.bookIssue b) s = .next t ∧ t.mgr.install = some x ∧ x.book.mgr = s.fab.node ∧
        x.book.epoch = ((s.mgr.cur.map (·.epoch + 1)).getD 1) ∧ t.parts = s.parts ∧ t.mem = s.mem) ∧
    (∀ b, s.isManager = false ∨ s.mgr.install.isSome → exec (.bookIssue b) s = .next s) ∧
    (∀ src b, s.accepts = false → exec (.bookInstall src b) s = .next s) ∧
    (∀ n e st, s.accepts = false → exec (.bookAck n e st) s = .next s) ∧
    (∀ src b c, s.accepts = true → s.mgr.cur = some c → b.epoch = c.epoch + 1 →
      (∀ x, s.mgr.prev = some x → x.epoch ≠ b.epoch) →
      s.isManager = false → s.mgr.held = [] → s.Room unitRk src →
      (s.drainCount = 0 → (∀ p : PartId, (s.part p).incoming = [] ∧ ∀ e ∈ (s.drv p).queue 5, e.phase ≠ .waiting) →
        s.parked = [] → (∀ n ∈ b.nodes, n.state ≠ .removed) ∨ (∀ p : PartId, s.liveSlots p = []) ∧ s.saves = [] →
        ∃ t, exec (.bookInstall src b) s = .next t ∧ s.OnlyMgr t ∧
        t.mgr.cur = some { b with stby := b.stby.filter fun n => !s.mgr.failedNodes.contains n } ∧
        t.mgr.prev = some c ∧ s.SentCtl t src (.bookAck b.epoch St.ok b.epoch)) ∧
      (0 < s.drainCount → ∃ t, exec (.bookInstall src b) s = .next t ∧ s.OnlySends t ∧
        s.SentCtl t src (.bookAck b.epoch St.epochBusy c.epoch))) ∧
    (∀ src b c, s.accepts = true → s.mgr.cur = some c → b.epoch ≠ c.epoch + 1 → b.epoch ≠ c.epoch →
      (∀ x, s.mgr.prev = some x → x.epoch ≠ b.epoch) → s.isManager = false → s.Room unitRk src → ∃ t, exec (.bookInstall src b) s = .next t ∧ s.OnlySends t ∧
        s.SentCtl t src (.bookAck b.epoch St.staleEpoch c.epoch)) ∧
    (∀ src b c, s.accepts = true → s.mgr.cur = some c → b.epoch ≠ c.epoch + 1 → s.epochKind b.epoch = 1 →
      (∀ x, s.mgr.prev = some x → x.epoch ≠ b.epoch) → s.isManager = true → b.mgr ≠ s.fab.node →
      s.mgr.copyTo = none → s.mgr.takeover ≠ 1 → ∃ t, exec (.bookInstall src b) s = .next t ∧ s.Raised t Ev.managerStopped ∧
        t.mgr = { s.mgr with install := none, takeover := 0, role := .worker } ∧
        t.Posted src (.bookAck b.epoch St.staleEpoch c.epoch)) ∧
    (∀ n x, s.accepts = true → s.mgr.install = some x → x.sent = true →
      let y := { x with waiting := x.waiting.filter (· ≠ n), busy := x.busy.filter (· ≠ n) }
      (y.waiting ≠ [] ∨ y.busy ≠ [] → exec (.bookAck n x.book.epoch St.ok) s =
        .next { s with mgr := { s.mgr with install := some y } }) ∧
      exec (.bookAck n x.book.epoch St.epochBusy) s =
        .next { s with mgr := { s.mgr with install := some { y with busy := y.busy ++ [n] } } } ∧
      (∃ t, exec (.bookAck n x.book.epoch St.staleEpoch) s = .next t ∧ s.Raised t Ev.managerStopped ∧
        t.mgr.install = none ∧ t.mgr.role = .worker ∧ t.mgr.takeover = 0 ∧ t.mgr.copyTo = none ∧
        (s.mgr.copyTo = none → t.mgr = { s.mgr with install := none, takeover := 0, role := .worker }) ∧
        ((s.mgr.copyTo).isSome → t.regFld 0x2020 63 48 = St.pathLost.toNat ∧ t.regFld 0x2020 31 31 = 0) ∧
        t.parts = s.parts ∧ t.mem = s.mem) ∧
      (x.busy = [n] → s.Room unitRk n → ∃ t, exec .epochRetryExpiry s = .next t ∧ s.OnlySends t ∧ s.SentCtl t n (.bookPart x.book))) ∧
    (s.mgr.install = none → exec .epochRetryExpiry s = .next s)

/-- Heartbeats and liveness notes go out from the manager to the standby and from the other nodes to the manager;
their receipts leave nothing but a time that the model does not keep (assumption log 50); a standby that misses them
takes over and completes the install of the last mirrored book; of the requests those stay whose host was told (R36,
R38, R405). A JOIN is answered with the current book, or refused for its version or as a duplicate; the joining node
takes the book with no previous one, or stays refused until it is told to retry (R302, R303). Where the rules leave a
point open this states the model's choice (assumption log 50, 52, 98, 101). -/
def Obligations.MembershipAndTakeover : Prop :=
  (∀ (s : State),
    (∀ n, s.isManager = true → s.stby = some n → s.Room unitRk n → ∃ t, exec .heartbeatSend s = .next t ∧ s.OnlySends t ∧
      s.SentCtl t n .heartbeat) ∧
    (s.isManager = false → exec .heartbeatSend s = .next s) ∧
    (∀ n, s.isManager = false → s.regBit 0x708020 1 = false → s.mgrNode = some n → s.Room unitRk n →
      ∃ t, exec .livenessNote s = .next t ∧ s.OnlySends t ∧ s.SentCtl t n .liveness) ∧
    (s.regBit 0x708020 1 = true → exec .livenessNote s = .next s) ∧
    exec .heartbeatReceipt s = .next s ∧ (∀ n, exec (.livenessNoteReceipt n) s = .next s) ∧
    (∀ b, s.mgr.role = .standby → s.mgr.mirrored = some b → ∃ t x, exec .managerLossExpiry s = .next t ∧ s.OnlyMgr t ∧
      t.mgr.role = .manager ∧ t.mgr.install = some x ∧ x.book = b ∧ x.sent = true ∧
      x.waiting = (b.nodes.filter fun n => n.state ≠ .removed ∧ s.mgr.failedNodes.contains n.node = false).map (·.node) ∧ t.mgr.nextId = s.mgr.idBlock + 4096 ∧
      t.fab.sent.length + t.fab.backlog.length = s.fab.sent.length + s.fab.backlog.length + x.waiting.length ∧
      t.mgr.requests = s.mgr.requests.filter (·.acked) ∧
      t.mgr.logs = s.mgr.logs) ∧
    (s.mgr.role ≠ .standby → exec .managerLossExpiry s = .next s)) ∧
  (∀ (s : State),
    (s.regBit 0x708020 1 = true ∨ s.boot.fatal = true → (∀ n caps, exec (.join n caps) s = .next s) ∧
      ∀ st b, exec (.joinAnswer st b) s = .next s) ∧
    (s.boot.ready = false → exec .retry s = .next s) ∧
    let takes := s.regBit 0x708020 1 = false ∧ s.boot.fatal = false
    (∀ n caps, takes → s.isManager = true → s.mgr.install = none → s.Room unitRk n →
      let sameVersion := fld caps 3 0 ≤ 3 ∧ 3 ≤ fld caps 7 4
      let answered := fun (t : State) (st : Status) (b : Option Book) => s.OnlyMgr t ∧
        s.SentOne t n fun f => hType f = 6 ∧ f.body = .ctl (.joinAnswer st b)
      (sameVersion → s.nodeState n = .removed → ∃ t, exec (.join n caps) s = .next t ∧ answered t St.ok s.mgr.cur ∧
        t.mgr = { s.mgr with waitingJoins := s.mgr.waitingJoins.filter (fun j => j.1 ≠ n) ++ [(n, caps)] }) ∧
      (sameVersion → s.nodeState n ≠ .removed → ∃ t, exec (.join n caps) s = .next t ∧
        answered t St.joinDuplicate none ∧ t.mgr = s.mgr) ∧
      (¬sameVersion → ∃ t, exec (.join n caps) s = .next t ∧ answered t St.joinVersion none ∧ t.mgr = s.mgr)) ∧
    (∀ b, takes → s.isManager = false → s.mgr.held = [] → ∃ t, exec (.joinAnswer St.ok (some b)) s = .next t ∧ s.OnlyMgr t ∧
      t.mgr.cur = some b ∧ t.mgr.prev = none ∧ t.fab = { s.fab with joined := true, joinRefused := false } ∧
      t.regFld 0x301008 63 48 = 0) ∧
    (∀ st b, takes → st ≠ St.ok → ∃ t, exec (.joinAnswer st b) s = .next t ∧ s.Raised t Ev.joinRefused ∧
      t.fab = { s.fab with joined := false, joinRefused := true
                           sent := s.fab.sent.filter fun x => decide (hType x.frame ≠ Ft.join) } ∧ t.regFld 0x301008 63 48 = st.toNat ∧
      t.mgr = s.mgr ∧ t.parts = s.parts) ∧
    (s.boot.ready = true → s.isManager = false → s.Room unitRk s.boot.cfg.mgr → ∃ t, exec .retry s = .next t ∧ s.OnlySends t ∧
      t.regFld 0x301008 0 0 = 1 ∧ s.SentOne t s.boot.cfg.mgr fun f => hType f = 6 ∧ f.body = .join s.capWord) ∧
    (s.isManager = true → exec .retry s = .next s))

/-- The manager declares a node failed on a failure note of severity 3, on silence or on an install timeout: it is
counted, the event raised, and the next book lists the node REMOVED (R32, R405, R406). Mirror copies fill the
standby's tables and are acknowledged; a standby is copied to and then named by a book (R34, R35, R422). Where the
rules leave a point open this states the model's choice (assumption log 52, 56, 98). -/
def Obligations.FailedNodesAndTheStandby : Prop :=
  (∀ (s : State) (n : NodeId), s.isManager = true → n ≠ s.fab.node → s.mgr.failedNodes.contains n = false →
    let alone := s.mgr.copyTo ≠ some n ∧ s.mgr.requests = []
    (∀ i b, s.mgr.cur = some b → b.stby ≠ some n → alone → i = .nodeFailed n ∨ i = .nodeSilenceExpiry n ∨
        (∃ code : BitVec 16, i = .failureNote n code ∧ evSeverity code = 3 ∧ s.accepts = true) →
      s.nodeState n ≠ .removed → s.mgr.install = none → b.bytes ≤ 262144 → b.ranges.length ≤ 64 →
      ∃ t x, exec i s = .next t ∧ s.Raised t Ev.nodeFailed ∧ t.reg 0x7080B0 = s.reg 0x7080B0 + 1 ∧
        t.mgr.install = some x ∧ x.book.epoch = b.epoch + 1 ∧
        (∀ e ∈ x.book.nodes, e.node = n → e.state = .removed) ∧ (∀ e ∈ x.book.pools, e.node ≠ n) ∧
        t.parts = s.parts ∧ t.mem = s.mem) ∧
    (∀ x b, s.mgr.cur = some b → b.stby ≠ some n → alone → s.mgr.install = some x → x.sent = true →
      x.waiting.contains n = true → (∃ m ∈ x.waiting, m ≠ n) →
      ∃ t, exec (.installTimeout n) s = .next t ∧ s.Raised t Ev.nodeFailed ∧
        t.reg 0x7080B0 = s.reg 0x7080B0 + 1 ∧ t.mgr = { s.mgr with
          failedNodes := s.mgr.failedNodes ++ [n],
          install := some { x with waiting := x.waiting.filter (· ≠ n), busy := x.busy.filter (· ≠ n) } } ∧
        t.parts = s.parts ∧ t.mem = s.mem) ∧
    (∀ i, i = .nodeFailed n ∨ s.serves n = true ∧ (i = .nodeSilenceExpiry n ∨
        (∃ code : BitVec 16, i = .failureNote n code ∧ evSeverity code = 3 ∧ s.accepts = true)) ∨
        (i = .installTimeout n ∧ ∃ x, s.mgr.install = some x ∧ x.sent = true ∧ x.waiting.contains n = true) →
      ∃ t, exec i s = .next t ∧ t.reg 0x7080B0 = s.reg 0x7080B0 + 1) ∧
    (∀ code : BitVec 16, evSeverity code ≠ 3 ∨ s.accepts = false → exec (.failureNote n code) s = .next s)) ∧
  (∀ (s : State),
    (s.accepts = false → (∀ m, exec (.mirrorCopy m) s = .next s) ∧ ∀ n, exec (.standbyCopyAck n) s = .next s) ∧
    (s.boot.ready = false → ∀ v, exec (.standbyEnable v) s = .next s) ∧
    (∀ m n, s.accepts = true → s.mgr.role = .standby → s.mgrNode = some n → s.Room unitRk n →
      ∃ t, exec (.mirrorCopy m) s = .next t ∧ s.OnlyMgr t ∧
      s.SentCtl t n .mirrorAck ∧
      (match m with
        | .book b => t.mgr = { s.mgr with mirrored := some b }
        | .log l => t.logOf l.id = some l ∧ t.mgr = { s.mgr with logs := t.mgr.logs }
        | .request r => t.request r.id = some r ∧
            t.mgr = { s.mgr with requests := t.mgr.requests, logs := t.mgr.logs } ∧
            (if terminal r.phase.toNat then t.logOf r.id = none else t.mgr.logs = s.mgr.logs)
        | .idBlock k => t.mgr = { s.mgr with idBlock := k })) ∧
    (∀ v, s.boot.ready = true → bitOf v 16 = true → s.isManager = true → s.stby = none → s.mgr.copyTo = none → s.mgr.install = none →
      let n := nodeOf (fld v 9 0)
      s.nodeState n = .active → n ≠ s.fab.node → ∃ t, exec (.standbyEnable v) s = .next t ∧ s.OnlyMgr t ∧
        t.mgr = { s.mgr with copyTo := some n, copyStarted := true, copyAcked := false } ∧
        t.regFld 0x2020 9 0 = fld v 9 0 ∧ t.regFld 0x2020 31 31 = 1 ∧
        t.regFld 0x2020 16 16 = 1 ∧ t.fab.sent.length + t.fab.backlog.length =
          s.fab.sent.length + s.fab.backlog.length + s.mgr.cur.toList.length + s.mgr.prev.toList.length +
            s.mgr.logs.length + s.mgr.requests.length + 1) ∧
    (∀ v, s.boot.ready = true → bitOf v 16 = true → s.isManager = false ∨ s.stby.isSome →
      ∃ t, exec (.standbyEnable v) s = .next t ∧
      s.Raised t Ev.writeIgnored ∧ s.OnlyEvents t ∧ t.reg 0x2020 = s.reg 0x2020) ∧
    (∀ n b, s.accepts = true → s.mgr.copyTo = some n → s.mgr.copyStarted = true → s.mgr.cur = some b → b.stby = none →
      s.mgr.install = none → s.isManager = true → b.bytes ≤ 262144 → b.ranges.length ≤ 64 → s.mgr.failedNodes = [] →
      ∃ t x, exec (.standbyCopyAck n) s = .next t ∧ s.OnlyMgr t ∧ t.mgr.install = some x ∧ x.book.stby = some n ∧
        x.book.epoch = b.epoch + 1) ∧
    (∀ n, s.mgr.copyTo ≠ some n → exec (.standbyCopyAck n) s = .next s))

/-! ## The fabric at the receiver and the sender (chapter 11) -/

/-- A WRITE's lines become visible and it is acknowledged, a flagged line waits until the earlier frames of its
source are visible, a repeated frame is acknowledged again and written once, a READ_REQ is answered from the lines as
they stand or with the RSTATUS of the refusal, a READ_RESP goes to the instruction that asked (R278 to R281, R292,
R404). Where the rules leave a point open this states the model's choice (assumption log 61, 79). -/
def Obligations.ReceiverAnswersFrames : Prop :=
  ∀ (s : State) (f : Frame),
    let src := hSrc f
    let u := hUnit f
    let q := hSeq f
    let n := hLines f
    let a := hAddr f
    let takes := s.accepts = true ∧ tagContent f.hdr.tag < 9
    let win := s.rxWin src u
    let fresh := (win = none ∧ s.fab.wins.length < 2048) ∨
      (∃ w, win = some w ∧ q ∉ w.marks ∧ seqDist q w.base < 4096)
    let line := fun i => fitBytes 64 (((bodyBytes f.body).drop (64 * i)).take 64)
    let wrote := fun (t : State) (pl : Nat → Place) (k : Nat) =>
      t.mem = (List.range k).foldl (fun m i => m.write (pl i).far (pl i).key (line i)) s.mem
    (hPlaced f = false → ¬takes → exec (.write f) s = .next s) ∧
    (∀ pl : Nat → Place, hPlaced f = false → takes → fresh → a % 64 = 0 → (∀ i, i < n → s.Served ((a + 64 * i) % 2 ^ 42) (pl i)) →
      (hFlag f = false ∨ n = 0 ∨ win = none ∨ (∃ w, win = some w ∧ w.base = q) → ∃ t, exec (.write f) s = .next t ∧
        wrote t pl n ∧ t.AckWaits src q u (hFence f) ∧ t.parts = s.parts ∧ t.spt = s.spt ∧ t.fab.sent = s.fab.sent) ∧
      (∀ w, hFlag f = true → 0 < n → win = some w → w.base ≠ q → ∃ t, exec (.write f) s = .next t ∧
        wrote t pl (n - 1) ∧ t.fab.acks = s.fab.acks ∧ t.parts = s.parts ∧ t.spt = s.spt ∧
        ∃ w' h, t.rxWin src u = some w' ∧ h ∈ w'.held ∧ h.seq = q ∧ h.addr = a + 64 * (n - 1) ∧
          fitBytes 64 h.data = line (n - 1) ∧ h.fence = hFence f)) ∧
    (∀ x, hPlaced f = false → takes → fresh → a % 64 = 0 → n = 1 → s.translate none (a % 2 ^ 42) = .error x →
      hFlag f = false → ∃ t, exec (.write f) s = .next t ∧ t.mem = s.mem ∧ s.Raised t Ev.writeUnmapped ∧
        t.reg 0x301060 = s.reg 0x301060 + 1 ∧ t.AckWaits src q u (hFence f)) ∧
    (∀ w, hPlaced f = false → takes → win = some w → (2 ^ 31 ≤ seqDist q w.base ∨ q ∈ w.marks) →
      (∀ h ∈ w.held, h.seq ≠ q) → ∃ t, exec (.write f) s = .next t ∧
        t = { s with bar0 := t.bar0, fab := { s.fab with acks := t.fab.acks } } ∧ s.RegsBut t [0x301048] ∧
        t.reg 0x301048 = s.reg 0x301048 + 1 ∧ t.AckWaits src q u (hFence f)) ∧
    (hPlaced f = false → takes → win = none → 2048 ≤ s.fab.wins.length → exec (.write f) s = .next s) ∧
    (∀ unit : Fin 32, ∀ w h pl, s.rxWin src unit.val = some w → w.held.find? (fun h => h.seq = w.base) = some h →
      h.addr % 64 = 0 → s.Served (h.addr % 2 ^ 42) pl → ∃ t, exec (.flaggedLineRelease src unit) s = .next t ∧
        t.mem = s.mem.write pl.far pl.key (fitBytes 64 h.data) ∧ t.AckWaits src h.seq unit.val h.fence) ∧
    (∀ unit : Fin 32, (∀ w, s.rxWin src unit.val = some w → ∀ h ∈ w.held, h.seq ≠ w.base) →
      exec (.flaggedLineRelease src unit) s = .next s) ∧
    (¬takes → exec (.readReq f) s = .next s) ∧
    (∀ pl : Nat → Place, takes → fresh → a % 64 = 0 → (∀ i, i < n → s.Served (a % 2 ^ 42 + 64 * i) (pl i) ∧
        ePoisoned (pl i).entry = false ∧ s.mem.anyPoison (pl i).far (pl i).key 64 = false) →
      ∃ t, exec (.readReq f) s = .next t ∧ t.mem = s.mem ∧ t.fab.sent = s.fab.sent ∧
        s.Answered t src fun g => hType g = 2 ∧ hRstatus g = 0 ∧ hDunit g = u ∧ hRseq g = q ∧ hAddr g = a ∧
          hClass g = hClass f ∧
          g.body = .bytes ((List.range n).flatMap fun i => s.mem.bytes (pl i).far (pl i).key 64)) ∧
    (∀ x, takes → fresh → a % 64 = 0 → 0 < n → s.translate none (a % 2 ^ 42) = .error x →
      ∃ t, exec (.readReq f) s = .next t ∧ t.mem = s.mem ∧
        s.Answered t src fun g => hType g = 2 ∧ hRstatus g = 1 ∧ hDunit g = u ∧ hRseq g = q ∧ g.body = .bytes []) ∧
    (∀ x p k uid e,
      s.fab.sent.find? (fun x => decide (x.unit = hDunit f) && decide (x.seq = hRseq f) && decide (hType x.frame = 1) &&
        decide (hAddr x.frame = a)) = some x → takes → s.NoWaits → hDunit f ≠ 17 → x.owner = some (p, k, uid) → k < 9 →
      s.ownerEntry (p, k, uid) = some e →
      (hRstatus f = 0 → (bodyBytes f.body).length = 64 * n → ∃ t e', exec (.readResp f) s = .next t ∧
        t.fab.sent = s.fab.sent.erase x ∧ t.ownerEntry (p, k, uid) = some e' ∧ e'.owed = e.owed - 1 ∧
        e'.phase = (if e.owed - 1 = 0 then .running else e.phase) ∧
        (∀ i, i < n → tabFind e'.lines (x.place + 64 * i) = some (((bodyBytes f.body).drop (64 * i)).take 64)) ∧
        t.mem = s.mem) ∧
      ((hRstatus f = 1 ∨ hRstatus f = 2) → k = 5 → (e.phase = .running ∨ e.phase = .waiting) → iOp e.insn = 0x71 →
        (s.drv p).faults.length < 16 → s.NoSharers → ∃ t e' r, exec (.readResp f) s = .next t ∧ t.ownerEntry (p, k, uid) = some e' ∧
          e'.phase = .done ∧ e'.faultPost = true ∧ e'.wbOk = false ∧ (t.drv p).faults = (s.drv p).faults ++ [r] ∧
          r.status = St.operandRange ∧ r.queue = k ∧ t.mem = s.mem)) ∧
    (s.fab.sent.find? (fun x => decide (x.unit = hDunit f) && decide (x.seq = hRseq f) && decide (hType x.frame = 1) &&
      decide (hAddr x.frame = a)) = none → s.NoWaits → hDunit f ≠ 17 → exec (.readResp f) s = .next s) ∧
    (∀ c, takes → s.NoWaits → hDunit f = 17 → s.fab.comb.find? (fun c => c.seq = hRseq f ∧ c.addr = a) = some c → c.waiters = [] ∨
        (∃ w, c.waiters = [w]) → ∃ t, exec (.readResp f) s = .next t ∧ t.fab.comb = s.fab.comb.erase c ∧
          ∀ w ∈ c.waiters, s.Answered t w.src fun g => hType g = 2 ∧ hRstatus g = hRstatus f ∧ hDunit g = w.unit % 32 ∧
            hClass g = w.cls % 8 ∧ hRseq g = w.seq % 2 ^ 32 ∧ g.body = .bytes (bodyBytes f.body))

/-- Acknowledgements free replay copies and complete fences; a frame not acknowledged goes out again on the next
valid path, is held where none is left, and is abandoned after eight sends; a combiner asks four times (R285, R286,
R289, R291 to R295). Where the rules leave a point open this states the model's choice (assumption log 6, 39, 62). -/
def Obligations.AcknowledgementsAndReplay : Prop :=
  ∀ (s : State) (dst : NodeId),
    let quiet := s.NoWaits ∧ s.mgr.sends = [] ∧ ∀ p : PartId, (s.part p).outgoing = [] ∧ (s.part p).incoming = [] ∧
      (s.part p).fetches = []
    let onlyFab := fun (t : State) (b : Fab) => t = { s with fab := b }
    let noLive := s.NoSharers
    let goes := fun (p : Nat) => s.fab.joinRefused = false ∧ s.hop dst p < 8 ∧
      (s.port (Fin.ofNat 8 (s.hop dst p))).up = true
    (s.boot.fatal = true → (∀ l, exec (.ack dst l) s = .next s) ∧
      ∀ unit seq path, exec (.pathNotice unit seq path dst) s = .next s) ∧
    (s.accepts = false → ∀ unit seq, exec (.abandonNotice dst unit seq) s = .next s) ∧
    (∀ w, s.boot.fatal = false → quiet →
      let named := fun x : Sent => decide (x.unit = ackUnit w) && decide (x.dst = dst) && decide (x.seq = ackSeq w) &&
        decide (hType x.frame ≠ 1)
      let owes := fun f : Fence => f.part.val = ackUnit w ∧ f.id = ackFence w ∧ (dst, ackSeq w) ∈ f.owed
      let left := s.fab.sent.filter fun x => !named x
      ((∀ f ∈ s.fab.fences, ¬owes f) → (ackUnit w, dst, ackSeq w) ∉ s.fab.late → ∃ t, exec (.ack dst [w]) s = .next t ∧
        onlyFab t { s.fab with sent := left }) ∧
      ((∀ f ∈ s.fab.fences, ¬owes f) → (ackUnit w, dst, ackSeq w) ∈ s.fab.late → ∃ t, exec (.ack dst [w]) s = .next t ∧
        t.fab = { s.fab with sent := left, late := s.fab.late.erase (ackUnit w, dst, ackSeq w) } ∧
        t.reg 0x301058 = s.reg 0x301058 + 1 ∧ s.RegsBut t [0x301058]) ∧
      (∀ f e, s.fab.fences = [f] → owes f → f.owed = [(dst, ackSeq w)] → s.ownerEntry (f.part, 5, f.uid) = some e →
        (ackUnit w, dst, ackSeq w) ∉ s.fab.late → ∃ t e', exec (.ack dst [w]) s = .next t ∧
          t.fab = { s.fab with sent := left, fences := [] } ∧ t.ownerEntry (f.part, 5, f.uid) = some e' ∧
          e'.insn = e.insn ∧ e'.phase = .done ∧ e'.faultPost = e.faultPost)) ∧
    (∀ l, s.fab.acks.find? (fun x => x.1 = dst) = some (dst, l) → ∃ t, exec (.ackFlush dst) s = .next t ∧ s.OnlySends t ∧
      (∀ d x, d ≠ dst → ((d, x) ∈ t.fab.acks ↔ (d, x) ∈ s.fab.acks)) ∧
      (∀ x, (dst, x) ∈ t.fab.acks → 64 < l.length ∧ x = l.drop 64) ∧
      s.Answered t dst fun g => hType g = 3 ∧ g.body = .acks (l.take 64)) ∧
    ((∀ x ∈ s.fab.acks, x.1 ≠ dst) → exec (.ackFlush dst) s = .next s) ∧
    (∀ (unit : Fin 32) (seq : BitVec 32) (path : Fin 8),
      let found := s.findSent unit.val dst seq.toNat
      let i := Instr.pathNotice unit seq path dst
      s.boot.fatal = false → (unit.val ≠ 17 → (∀ x, found = some x → x.path ≠ some path.val ∨ x.heldBack = true) → ∃ t, exec i s = .next t ∧
        onlyFab t { s.fab with marks := if (dst, path.val) ∈ s.fab.marks then s.fab.marks
          else s.fab.marks ++ [(dst, path.val)] }) ∧
      (∀ c, unit.val = 17 → s.fab.comb.find? (fun c => c.dst = dst ∧ c.seq = seq.toNat ∧ c.path = some path.val) = some c →
        c.sends < 4 → s.combBehind c = false → s.fab.joinRefused = false →
        let l := (s.validPaths dst).filter (· ≠ path.val)
        ∃ t c', exec i s = .next t ∧ (dst, path.val) ∈ t.fab.marks ∧ c' ∈ t.fab.comb ∧
          c' = if l = [] then { c with held := true }
            else { c with sends := c.sends + 1, path := some (nextPath l path.val), held := false }) ∧
      (∀ x p', unit.val ≠ 17 → found = some x → x.path = some path.val → x.heldBack = false → x.sends < 8 → hDst x.frame = dst →
        (s.validPaths dst).filter (· ≠ path.val) = [p'] → goes p' → ∃ t, exec i s = .next t ∧
          (dst, path.val) ∈ t.fab.marks ∧ t.reg 0x301040 = s.reg 0x301040 + 1 ∧
          t.findSent unit.val dst seq.toNat = some { x with sends := x.sends + 1, path := some p' })) ∧
    (∀ path : Fin 8, exec (.pathNoticeExpiry dst path) s =
      .next { s with fab := { s.fab with marks := s.fab.marks.erase (dst, path.val) } }) ∧
    (s.CombQuiet → (s.validPaths dst = [] ∨ ∀ x ∈ s.fab.sent, x.dst = dst → x.heldBack = false) →
      exec (.pathRestored dst) s = .next s) ∧
    (∀ c p, s.fab.comb = [c] → c.dst = dst → c.held = true → c.path.isSome = true → s.fab.joinRefused = false →
      s.validPaths dst = [p] → (∀ x ∈ s.fab.sent, x.dst = dst → x.heldBack = false) →
      ∃ t, exec (.pathRestored dst) s = .next t ∧
        t.fab.comb = [{ c with sends := c.sends + 1, path := some p, held := false }]) ∧
    (∀ x p, s.CombQuiet → s.fab.sent.filter (fun x => x.heldBack ∧ x.dst = dst) = [x] → s.validPaths dst = [p] → goes p →
      hDst x.frame = dst → ∃ t, exec (.pathRestored dst) s = .next t ∧
        t.findSent x.unit dst x.seq = some { x with sends := x.sends + 1, path := some p, heldBack := false }) ∧
    (∀ (unit : Fin 32) (seq : BitVec 32),
      let found := s.findSent unit.val dst seq.toNat
      let i := Instr.replayExpiry unit dst seq
      s.NoWaits → (found = none → exec i s = .next s) ∧
      (∀ x p, found = some x → x.heldBack = false → x.sends < 8 → s.validPaths dst = [p] → goes p → hDst x.frame = dst →
        ∃ t, exec i s = .next t ∧ (x.path.isSome = true → t.reg 0x301040 = s.reg 0x301040 + 1) ∧
          t.findSent unit.val dst seq.toNat = some { x with sends := x.sends + 1, path := some p }) ∧
      (∀ x, found = some x → x.heldBack = false → x.sends < 8 → s.validPaths dst = [] → ∃ t, exec i s = .next t ∧
        t.findSent unit.val dst seq.toNat = some { x with heldBack := true } ∧ t.bar0 = s.bar0) ∧
      (∀ x, found = some x → x.heldBack = false → 8 ≤ x.sends → unit.val < 16 → x.owner = none →
        hPlaced x.frame = false → (∃ b, x.frame.body = .bytes b) → (hType x.frame = 1 → noLive) → s.fab.fences = [] →
        s.fab.sent.filter (fun x => x.unit = unit.val ∧ x.dst = dst) = [x] → ∃ t, exec i s = .next t ∧
          t.findSent unit.val dst seq.toNat = none ∧ s.Raised t Ev.pathLost ∧ t.reg 0x301050 = s.reg 0x301050 + 1 ∧
          t.Posted dst (.abandon unit.val seq))) ∧
    (∀ (unit : Fin 32) (seq : BitVec 32),
      let later := fun x : Nat => 0 < seqDist x seq.toNat ∧ seqDist x seq.toNat < 2 ^ 31
      (∀ w, s.accepts = true → s.rxWin dst unit.val = some w → seqDist seq.toNat w.base < 2 ^ 31 → ∃ t w',
        exec (.abandonNotice dst unit seq) s = .next t ∧ onlyFab t { s.fab with wins := t.fab.wins } ∧
        t.rxWin dst unit.val = some w' ∧ (∀ h, h ∈ w'.held ↔ h ∈ w.held ∧ later h.seq) ∧
        ((∀ m ∈ w.marks, ¬later m) → w'.base = (seq.toNat + 1) % 2 ^ 32)) ∧
      ((∀ w, s.rxWin dst unit.val = some w → 2 ^ 31 ≤ seqDist seq.toNat w.base) →
        exec (.abandonNotice dst unit seq) s = .next s)) ∧
    (∀ (addr : BitVec 52) lines,
      let found := s.fab.comb.find? fun c => c.dst = dst ∧ c.addr = addr.toNat ∧ c.lines = lines
      (found = none → exec (.combineExpiry dst addr lines) s = .next s) ∧
      (∀ c, found = some c → c.held = false → c.path.isSome = true → c.sends < 4 → s.combBehind c = false →
        s.fab.joinRefused = false → s.validPaths dst ≠ [] →
        ∃ t c', exec (.combineExpiry dst addr lines) s = .next t ∧
        c' ∈ t.fab.comb ∧ c' = { c with sends := c.sends + 1, path := c'.path }) ∧
      (∀ c, found = some c → c.held = true → c.sends + 1 < 4 → s.validPaths dst = [] →
        ∃ t, exec (.combineExpiry dst addr lines) s = .next t ∧ { c with sends := c.sends + 1 } ∈ t.fab.comb ∧
          t.fab.sent = s.fab.sent ∧ t.ports = s.ports) ∧
      (∀ c w, found = some c → c.held = false → c.path.isSome = true → 4 ≤ c.sends → c.waiters = [w] → ∃ t, exec (.combineExpiry dst addr lines) s = .next t ∧
        t.fab.comb = s.fab.comb.erase c ∧ s.Answered t w.src fun g => hType g = 2 ∧ hRstatus g = 3 ∧
          hDunit g = w.unit % 32 ∧ hClass g = w.cls % 8 ∧ hRseq g = w.seq % 2 ^ 32 ∧ g.body = .bytes [])) ∧
    (∀ unit : Fin 32,
      (∀ w, s.rxWin dst unit.val = some w → w.held = [] → ∃ t, exec (.windowIdleRelease dst unit) s = .next t ∧
        onlyFab t { s.fab with wins := s.fab.wins.erase w }) ∧
      ((∀ w, s.rxWin dst unit.val = some w → w.held ≠ []) → exec (.windowIdleRelease dst unit) s = .next s)) ∧
    (∀ p : PartId,
      s.NoWaits → ((∀ f ∈ s.fab.fences, f.part ≠ p) → exec (.fenceTimeoutExpiry p) s = .next s) ∧
      (∀ f x e, s.fab.fences = [f] → f.part = p → f.owed = [(dst, x.seq)] → s.findSent p.val dst x.seq = some x →
        s.fab.sent.filter (fun x => x.unit = p.val ∧ x.dst = dst) = [x] → x.owner = none → hPlaced x.frame = false →
        (∃ b, x.frame.body = .bytes b) → (hType x.frame = 1 → noLive) → s.ownerEntry (p, 5, f.uid) = some e → (s.drv p).faults.length < 16 →
        ∃ t e' r, exec (.fenceTimeoutExpiry p) s = .next t ∧ t.fab.fences = [] ∧
          t.ownerEntry (p, 5, f.uid) = some e' ∧ e'.phase = .done ∧ e'.faultPost = true ∧
          (t.drv p).faults = (s.drv p).faults ++ [r] ∧ r.status = St.fenceTimeout ∧ s.Raised t Ev.pathLost ∧
          t.findSent p.val dst x.seq = none ∧ (p.val, dst, x.seq) ∈ t.fab.late))

/-! ## Ports and the switch (chapters 11 and 12) -/

/-- A port comes up with a peer of its own mode, going down it discards what is queued for it and tells the sources,
a frame received passes the link CRC, the encapsulation, the header and the policer before it waits for the switch,
which delivers it, forwards it one hop nearer its end or drops it, and combines reads; a peer's credit and pauses are
kept (R270, R273 to R276, R285, R288, R312). Where the rules leave a point open this states the model's choice
(assumption log 6, 26, 63). -/
def Obligations.PortsAndSwitch : Prop :=
  ∀ (s : State) (k : PortId),
    let x := s.port k
    let portIs := fun (t : State) (y : Port) => t = { s with ports := t.ports } ∧ t.port k = y ∧
      ∀ j : PortId, j ≠ k → t.port j = s.port j
    let counts := fun (t : State) (o : Nat) => t = { s with bar0 := t.bar0 } ∧ s.RegsBut t [o] ∧ t.reg o = s.reg o + 1
    let mode : BitVec 2 := BitVec.ofNat 2 (s.regFld (portBase k) 2 1)
    let down := { x with trained := false, up := false, egress := Vector.replicate 8 [], inject := [], onWire := none,
                         sent := [], again := [], deficit := Vector.replicate 8 0, visited := false }
    let idle := x.onWire.isSome = true ∨ x.again = [] ∧ x.visited = false ∧ ∀ c, s.egressHead k c = none
    (∀ peer pm, s.regBit (portBase k) 0 = true → ∃ t, exec (.portLinkUp k peer pm) s = .next t ∧
      portIs t { x with trained := true, up := decide (mode = pm), mismatch := decide (mode ≠ pm), mode := mode,
                        peer := peer, credit := Vector.replicate 8 4096, paused := 0, given := Vector.replicate 8 0, pausing := 0,
                        onWire := none, sent := [], again := [], pathDelay := 0, syncAt := none, lastSync := none,
                        askedAt := none }) ∧
    (∀ peer pm, s.regBit (portBase k) 0 = false → exec (.portLinkUp k peer pm) s = .next s) ∧
    ((∀ c, c < 8 → vget x.egress c [] = []) → x.inject = [] → ∃ t, exec (.portLinkDown k) s = .next t ∧
      portIs t down) ∧
    (∃ t, exec (.portLinkDown k) s = .next t ∧ s.OnlySends t ∧ (t.port k).up = false ∧ (t.port k).trained = false ∧
      (t.port k).inject = [] ∧ (t.port k).onWire = none ∧ (∀ c, c < 8 → vget (t.port k).egress c [] = []) ∧
      ∀ f, x.inject = [] → x.egress.toList.flatten.map (·.frame) = [f] →
        (s.setPort k down).Answered t (hSrc f) fun g => hType g = 7 ∧
          g.body = .notice (hSrc f) (hUnit f) (BitVec.ofNat 32 (hSeq f)) (Fin.ofNat 8 (hPath f)) (hDst f)) ∧
    (∀ (f : Frame) e crc stomped,
      let i := Instr.frameReceive k f e crc stomped
      let off := polOff k (hClass f)
      let kept := x.up = true ∧ (stomped = false ∨ x.mode ≠ 0) ∧ crc = true ∧ s.encapOk k e = true ∧ frameOk f = true
      let waits := fun (t : State) => t.port k = { x with ingress := x.ingress ++ [f], pausing := (t.port k).pausing } ∧
        (x.mode = 0 → (t.port k).pausing = x.pausing)
      (x.up = false → exec i s = .next s) ∧
      (x.up = true → stomped = true → x.mode = 0 → ∃ t, exec i s = .next t ∧ counts t (portBase k + 0x60)) ∧
      (x.up = true → x.mode ≠ 0 → crc = false → ∃ t, exec i s = .next t ∧ counts t (portBase k + 0x50)) ∧
      (x.up = true → x.mode = 0 → stomped = false → crc = false → ∃ t, exec i s = .next t ∧
        t = { s with bar0 := t.bar0, fab := t.fab, ports := t.ports, freeCount := s.freeCount + 1 } ∧
        s.RegsBut t [portBase k + 0x50] ∧ t.reg (portBase k + 0x50) = s.reg (portBase k + 0x50) + 1 ∧
        (t.port k).ingress = x.ingress) ∧
      (x.up = true → (stomped = false ∨ x.mode ≠ 0) → crc = true → (s.encapOk k e = false ∨ frameOk f = false) →
        ∃ t, exec i s = .next t ∧ counts t 0x301060) ∧
      (kept → bkEn (s.bucket off) = false → ∃ t, exec i s = .next t ∧ waits t ∧
        portIs t (t.port k)) ∧
      (kept → bkEn (s.bucket off) = true → 0 ≤ s.tokens off → ∃ t, exec i s = .next t ∧ waits t ∧
        t = { s with ports := t.ports, fab := { s.fab with tokens := t.fab.tokens } } ∧
        ∀ o, t.tokens o = if o = off then s.tokens off - (8 * wireBytes x.mode.toNat f : Nat) else s.tokens o) ∧
      (kept → bkEn (s.bucket off) = true → s.tokens off < 0 → ∃ t, exec i s = .next t ∧
        t.reg (off + 8) = s.reg (off + 8) + 1 ∧ s.RegsBut t [off + 8] ∧
        if bkAct (s.bucket off) then t.port k = x else waits t)) ∧
    (x.ingress = [] → exec (.switchForward k) s = .next s ∧ exec (.switchCombine k) s = .next s) ∧
    (∀ f r, x.ingress = f :: r →
      let s' := s.takeHead k f r
      let hop := s.hop (hDst f) (hPath f)
      let comb := hType f = 1 ∧ hCombine f = true ∧ ¬(hSrc f = s.fab.node ∧ hUnit f = 17) ∧ s.fab.joinRefused = false
      let own := hSrc f = s.fab.node
      let sends := fun (t : State) (j : PortId) (g : Frame) => vget (t.port j).egress (hClass f) [] =
        vget (s.port j).egress (hClass f) [] ++ [{ frame := g, at_ := s.pins.clkT }]
      let out := fun (t : State) => ∀ j : PortId, hop = j.val → (s.port j).up = true →
        (¬own → 1 < hTtl f → ∃ g, hTtl g = hTtl f - 1 ∧ g.mft = f.mft ∧ g.body = f.body ∧ hDst g = hDst f ∧
          hSeq g = hSeq f ∧ sends t j g) ∧
        (own → s.unitJob (hUnit f) = none ∨ hClass f = 0 → sends t j f)
      let w : Waiter := { src := hSrc f, unit := hUnit f, seq := hSeq f, tag := f.hdr.tag, cls := hClass f }
      let found := s.fab.comb.find? fun c => c.dst = hDst f ∧ c.addr = hAddr f ∧ c.lines = hLines f
      -- a frame that is taken at this node is taken as the command of its type does, and an event about it names its port
      let at_ := s'.modFab fun b => { b with via := if k = 0 ∧ own then 0xFF else k.val }
      let as_ := fun (i : Instr) => ∃ t, exec i at_ = .next t ∧
        exec (.switchForward k) s = .next (t.modFab fun b => { b with via := 0xFF })
      let q := tabGet (fun _ => 0) s.fab.seqs (seqKey 17 (hDst f))
      let behind := s.fab.comb.any fun y => decide (y.dst = hDst f) && decide (y.path = none)
      let room := s.replayUsed 17 + 64 ≤ 2097152 ∧ (s.fab.sent.filter fun x => x.unit = 17 ∧ x.dst = hDst f).length +
        (s.fab.comb.filter fun c => c.dst = hDst f).length + 1 < 4096
      ((s'.port k).ingress = r ∧ (s'.port k).egress = x.egress ∧ s' = { s with ports := s'.ports } ∧
        (∀ j : PortId, j ≠ k → s'.port j = s.port j) ∧ (x.mode = 0 → k ≠ 0 ∨ ¬own → (s'.port k).given =
          vset x.given (hClass f) (vget x.given (hClass f) 0 + ceilDiv (frameBytes f) 64))) ∧
      (comb → exec (.switchForward k) s = .next s) ∧
      (¬comb → hop < 8 → ¬own → hTtl f ≤ 1 → ∃ t, exec (.switchForward k) s = .next t ∧ t.ports = s'.ports ∧
        t = { s with ports := t.ports, bar0 := t.bar0 } ∧ t.reg 0x301078 = s.reg 0x301078 + 1 ∧
        s.RegsBut t [0x301078]) ∧
      (¬comb → hop < 8 → ∃ t, exec (.switchForward k) s = .next t ∧ out t) ∧
      (¬comb → hop = 8 → 9 ≤ tagContent f.hdr.tag ∨ s.boot.fatal = true → exec (.switchForward k) s =
        .next (s'.modFab fun b => { b with via := 0xFF })) ∧
      (¬comb → hop = 8 → tagContent f.hdr.tag < 9 → (hType f = 0 → as_ (.write f)) ∧ (hType f = 1 → as_ (.readReq f)) ∧
        (hType f = 2 → as_ (.readResp f)) ∧ (∀ l, hType f = 3 → f.body = .acks l → as_ (.ack (hSrc f) l)) ∧
        (∀ a (u : Fin 32) q p d, hType f = 7 → f.body = .notice a u.val q p d → as_ (.pathNotice u q p d))) ∧
      (8 < hop ∨ hop < 8 ∧ (own ∨ 1 < hTtl f) ∧ (s.port (Fin.ofNat 8 hop)).up = false → ¬comb →
        ∃ t, exec (.switchForward k) s = .next t ∧ s.OnlySends t ∧ (t.reg 0x301078 ≠ s.reg 0x301078) ∧
          s'.Answered t (hSrc f) fun g => hType g = 7 ∧
            g.body = .notice (hSrc f) (hUnit f) (BitVec.ofNat 32 (hSeq f)) (Fin.ofNat 8 (hPath f)) (hDst f)) ∧
      (¬comb → exec (.switchCombine k) s = .next s) ∧
      (∀ c, comb → found = some c → (∃ y ∈ c.waiters, y.src = w.src ∧ y.unit = w.unit ∧ y.seq = w.seq) →
        exec (.switchCombine k) s = .next s') ∧
      (∀ c, comb → found = some c → (∀ y ∈ c.waiters, ¬(y.src = w.src ∧ y.unit = w.unit ∧ y.seq = w.seq)) →
        (c.waiters.length < 16 → ∃ t, exec (.switchCombine k) s = .next t ∧ t.ports = s'.ports ∧
          t.fab = { s.fab with comb := s.fab.comb.map fun y => if y = c then { c with waiters := c.waiters ++ [w] }
            else y } ∧ t.reg 0x301080 = s.reg 0x301080 + 1 ∧ s.RegsBut t [0x301080]) ∧
        (16 ≤ c.waiters.length → ∃ t, exec (.switchCombine k) s = .next t ∧ t.fab.comb = s.fab.comb ∧
          t.reg 0x301088 = s.reg 0x301088 + 1 ∧ out t) ∧
        (16 ≤ c.waiters.length → hop = 8 →
          exec (.switchCombine k) s = exec (.readReq f) (s'.addReg 0x301088 1))) ∧
      (comb → found = none → s.fab.comb.length < 1024 → (∀ y ∈ s.fab.comb, y.dst ≠ hDst f ∨ y.seq ≠ q) →
        ∃ t c, exec (.switchCombine k) s = .next t ∧
        t.fab.comb = s.fab.comb ++ [c] ∧ c.dst = hDst f ∧ c.addr = hAddr f ∧ c.lines = hLines f ∧ c.waiters = [w] ∧
        c.sends = (if behind = false ∧ room ∧ s.validPaths (hDst f) ≠ [] then 1 else 0) ∧
        c.held = decide (behind = false ∧ room ∧ s.validPaths (hDst f) = []) ∧
        c.cls = hClass f ∧ c.seq = q ∧ t.fab.sent = s.fab.sent) ∧
      (comb → found = none → 1024 ≤ s.fab.comb.length → (∃ t, exec (.switchCombine k) s = .next t ∧
        t.fab.comb = s.fab.comb ∧ t.reg 0x301088 = s.reg 0x301088 + 1 ∧ out t) ∧
        (hop = 8 → exec (.switchCombine k) s = exec (.readReq f) (s'.addReg 0x301088 1)))) ∧
    (∀ (c : Fin 8) n, x.up = true → x.mode = 0 → idle → ∃ t, exec (.creditReturn k c n) s = .next t ∧
      portIs t { x with credit := vset x.credit c (min 4096 (vget x.credit c 0 + n)) }) ∧
    (∀ c n, x.up = false ∨ x.mode ≠ 0 → exec (.creditReturn k c n) s = .next s) ∧
    (∀ m, x.up = true → x.mode ≠ 0 → idle → ∃ t, exec (.priorityFlowControl k m) s = .next t ∧
      portIs t { x with paused := m }) ∧
    (∀ m, x.up = false ∨ x.mode = 0 → exec (.priorityFlowControl k m) s = .next s)

/-- An egress that is free starts the eligible frame of the highest class, classes 2 to 7 in turn by their deficits;
shapers and policers take their settings up at a refill tick, a gate list at T; queue samples fall into their bins;
the servo follows its master, the best clock heard (R299, R300, R307 to R321). What PTP's messages carry, and which
clock is better, is presumed (log 102). Where the rules leave a point open this states the model's choice (assumption
log 6, 63, 64, 65, 66, 77, 98, 102). -/
def Obligations.EgressGatesAndTime : Prop :=
  ∀ (s : State) (k : PortId),
    let x := s.port k
    let starts := fun (t : State) (c : Nat) => ∃ f r, vget x.egress c [] = f :: r ∧ (t.port k).onWire = some f ∧
      (∀ j, j < 8 → vget (t.port k).egress j [] = if j = c then r else vget x.egress j []) ∧
      (∀ j : PortId, j ≠ k → t.port j = s.port j) ∧
      (bkEn (s.bucket (shpOff k c)) = true → t.tokens (shpOff k c) =
        s.tokens (shpOff k c) - (8 * wireBytes x.mode.toNat f.frame : Nat)) ∧
      (x.mode = 0 → vget (t.port k).credit c 0 = vget x.credit c 0 - creditBlocks f.frame) ∧
      (t.port k).encap = s.encapOf k f.frame ∧ t.mem = s.mem ∧ t.parts = s.parts
    let free := x.onWire = none ∧ x.up = true ∧ x.again = []
    (s.boot.ready = false → (∀ c policer v, exec (.shaperWrite k c policer v) s = .next s) ∧
      (∀ v, exec (.change k v) s = .next s) ∧ exec .clear s = .next s) ∧
    (∀ i, i = .schedulerRetest k ∨ i = .gateEntryBoundary k →
      (x.onWire.isSome = true ∨ x.up = false → exec i s = .next s) ∧
      (∀ f r, x.onWire = none → x.up = true → x.again = f :: r → ∃ t, exec i s = .next t ∧ t = { s with ports := t.ports } ∧
        (∀ j : PortId, j ≠ k → t.port j = s.port j) ∧ t.port k = { x with
          again := r, onWire := some { frame := f, at_ := s.pins.clkT }, encap := s.encapOf k f }) ∧
      (free → (∀ c, c < 8 → s.eligible k c = false) → x.turn < 8 → exec i s =
        .next (if x.visited then s.setPort k { x with turn := nextClass x.turn, visited := false } else s)) ∧
      (free → s.eligible k 0 = true → ∃ t, exec i s = .next t ∧ starts t 0) ∧
      (free → s.eligible k 0 = false → s.eligible k 1 = true → ∃ t, exec i s = .next t ∧ starts t 1) ∧
      (∀ f r,
        let c := x.turn
        let d := vget x.deficit c 0 + if x.visited then 0 else 512 * s.regFld (0x30C000 + 0x10 * k.val) (8 * c - 9) (8 * c - 16)
        free → s.eligible k 0 = false → s.eligible k 1 = false → 2 ≤ c → c < 8 → s.eligible k c = true →
        vget x.egress c [] = f :: r → s.wire k f.frame ≤ d → ∃ t, exec i s = .next t ∧ starts t c ∧
          vget (t.port k).deficit c 0 = if r = [] then 0 else d - s.wire k f.frame)) ∧
    (x.onWire = none → exec (.frameTxEnd k) s = .next s) ∧
    (x.onWire.isSome = true → (∀ c, c < 8 → vget x.egress c [] = []) → x.visited = false → x.again = [] →
      (x.mode ≠ 0 → ∃ t, exec (.frameTxEnd k) s = .next t ∧ t = { s with ports := t.ports } ∧
        t.port k = { x with onWire := none }) ∧
      (x.mode = 0 → x.up = true → ∃ t m, exec (.frameTxEnd k) s = .next t ∧ m ≤ x.sent.length ∧
        t = { s with ports := t.ports, bar0 := t.bar0, freeCount := s.freeCount + 1 } ∧
        s.RegsBut t [portBase k + 0x58] ∧ t.reg (portBase k + 0x58) = s.reg (portBase k + 0x58) + BitVec.ofNat 64 m ∧
        (m = 0 → t.port k = { x with onWire := none }) ∧
        (0 < m → (t.port k).onWire.toList.map (·.frame) ++ (t.port k).again = (x.sent.take m).reverse ∧
          (t.port k).onWire.isSome = true ∧ (t.port k).sent = x.sent))) ∧
    (x.onWire.isSome = true → x.up = true → x.again = [] → x.mode ≠ 0 ∨ x.sent = [] → s.eligible k 0 = true →
      ∃ t, exec (.frameTxEnd k) s = .next t ∧ starts t 0 ∧
      ∀ c, c < 8 → t.reg (shpOff k c + 8) =
        if (s.egressHead k c).isSome = true ∧ s.shaperHolds k c = true then s.reg (shpOff k c + 8) + 1
        else s.reg (shpOff k c + 8)) ∧
    (∀ (c : Fin 8) policer v,
      let off := if policer then polOff k c.val else shpOff k c.val
      let rate := fld v 16 0
      let burst := fld v 47 32
      let old := s.reg off
      let least := fun (n m : Nat) => if c = 0 then m else n
      let bad := c = 0 ∧ (rate < 2500 ∨ burst < 1024)
      let made := tabSet (fun _ => ((0 : Nat), (0 : Word))) s.fab.shpWrites off (s.pins.clkT + 1, s.beforeWrites off)
      let noted := { s.fab with shpWrites := made }
      s.boot.ready = true → ∃ t, exec (.shaperWrite k c policer v) s = .next t ∧ t.fab = noted ∧ t.ports = s.ports ∧
        bkRate (t.reg off) = (if least 0 2500 ≤ rate ∧ rate ≤ 80000 then rate else bkRate old) ∧
        bkBurst (t.reg off) = (if least 66 1024 ≤ burst then burst else bkBurst old) ∧ bkEn (t.reg off) = v.getLsbD 48 ∧
        (bad → s.Raised t Ev.writeIgnored ∧ ({ s with fab := noted } : State).OnlyEvents t) ∧
        (¬bad → t = { s with bar0 := t.bar0, fab := noted } ∧ s.RegsBut t [off])) ∧
    (∃ t, exec .refillTick s = .next t ∧
      (∀ (k : PortId) c, c < 8 → ∀ o, o = shpOff k c ∨ o = polOff k c → t.bucket o = s.beforeWrites o ∧
        t.tokens o = if bkEn (s.bucket o) then
          min (s.tokens o + (bkRate (s.beforeWrites o) : Nat)) (512 * bkBurst (s.beforeWrites o) : Nat) else s.tokens o) ∧
      (∀ (k : PortId) c (policer : Bool), c < 8 →
        let o := if policer then polOff k c else shpOff k c
        (tabGet (fun _ => ((0 : Nat), (0 : Word))) s.fab.shpWrites o).1 ≤ s.pins.clkT → s.beforeWrites o = s.reg o) ∧
      (∀ j, j < 16 → tabGet (fun _ => (0 : Word)) t.fab.share j = s.beforeWrites (jobBase j + 8)) ∧
      ((∀ k : PortId, (s.port k).inject = []) → t.ports = s.ports ∧ ∀ (k : PortId) j, j < 16 →
        tabGet (fun _ => (0 : Int)) t.fab.inj (injKey j k) =
          min (tabGet (fun _ => (0 : Int)) s.fab.inj (injKey j k) +
            (625 * fld (s.beforeWrites (jobBase j + 8)) (8 * k.val + 7) (8 * k.val) : Nat)) (1048576 : Nat)) ∧
        t.bar0 = s.bar0) ∧
    (∀ v,
      let off := gateOff k
      let w := fieldsWrite ((regFields off).getD []) (BitVec.allOnes 64) (s.reg off) v
      let g := (s.setReg off w).adminGates k
      s.boot.ready = true → x.gateT = none → s.regBit off 1 = false →
      (v.getLsbD 1 = false → ∃ t, exec (.change k v) s = .next t ∧ t = { s with bar0 := t.bar0 } ∧ s.RegsBut t [off] ∧
        t.regFld off 44 18 = (if 1 ≤ fld v 44 18 ∧ fld v 44 18 ≤ 100000000 then fld v 44 18 else s.regFld off 44 18) ∧
        t.regFld off 17 9 = (if 1 ≤ fld v 17 9 ∧ fld v 17 9 ≤ 256 then fld v 17 9 else s.regFld off 17 9) ∧
        t.regBit off 0 = v.getLsbD 0) ∧
      (v.getLsbD 1 = true → gateListOk g (fld w 17 9) = true → ∃ t T, exec (.change k v) s = .next t ∧
        t.regBit off 2 = true ∧ t.regBit off 1 = true ∧ t.port k = { x with gateT := some T } ∧ s.now + 1000 ≤ T ∧
        T < s.now + 1000 + 10 * g.cycle ∧ ((T : Int) - g.base) % (10 * g.cycle : Nat) = 0 ∧ s.RegsBut t [off]) ∧
      (v.getLsbD 1 = true → gateListOk g (fld w 17 9) = false → ∃ t, exec (.change k v) s = .next t ∧
        t.regBit off 3 = true ∧ t.regBit off 1 = false ∧ s.Raised t Ev.gateListRefused ∧ t.ports = s.ports)) ∧
    (∀ v, s.boot.ready = true → x.gateT.isSome = true → ∃ t, exec (.change k v) s = .next t ∧
      t = { s with bar0 := t.bar0 } ∧ s.RegsBut t [gateOff k] ∧ t.regFld (gateOff k) 44 18 = s.regFld (gateOff k) 44 18 ∧
      t.regFld (gateOff k) 17 9 = s.regFld (gateOff k) 17 9) ∧
    ((x.gateT = none ∨ ∃ T, x.gateT = some T ∧ s.now < T) → exec (.gateListEffect k) s = .next s) ∧
    (∀ T, x.gateT = some T → T ≤ s.now → ∃ t, exec (.gateListEffect k) s = .next t ∧
      t = { s with bar0 := t.bar0, ports := t.ports } ∧ t.port k = { x with gateT := none } ∧
      t.regBit (gateOff k) 2 = false ∧ t.regBit (gateOff k) 1 = false ∧ t.reg (gateOff k + 0x10) = s.reg (gateOff k + 8) ∧
      t.regFld (gateOff k + 0x18) 44 18 = s.regFld (gateOff k) 44 18 ∧
      t.regFld (gateOff k + 0x18) 17 9 = s.regFld (gateOff k) 17 9 ∧
      ∀ i, i < 256 → t.reg (operList k i) = setFld (s.reg (adminList k i)) 0 0 1) ∧
    (s.regBit 0x32F000 0 = false → exec .queueSample s = .next s) ∧
    (s.regBit 0x32F000 0 = true → ∃ t, exec .queueSample s = .next t ∧ t = { s with bar0 := t.bar0 } ∧
      t.regBit 0x32F000 1 = false ∧ ∀ (c b : Nat), c < 8 → b < 16 →
        let o := histOff k c
        let q := vget x.egress c []
        let depth := (q.map fun f => s.wire k f.frame).sum
        let delay := 10 * (s.pins.clkT - (q.head?.map (·.at_)).getD 0)
        let before := fun i => if s.regBit 0x32F000 1 then (0 : Word) else s.reg (o + 8 * i)
        let adds := fun (i : Nat) (yes : Prop) [Decidable yes] => t.reg (o + 8 * i) = before i + if yes then 1 else 0
        (q = [] → adds b (b = 0) ∧ adds (16 + b) (b = 0)) ∧
        (q ≠ [] → adds b (b = histBin 64 depth) ∧ (10 ≤ delay → adds (16 + b) (b = histBin 10 delay)) ∧
          (t.reg (o + 0x100)).toNat = (if (s.reg (o + 0x100)).toNat < depth then depth % 2 ^ 64
            else (s.reg (o + 0x100)).toNat))) ∧
    (s.boot.ready = true → ∃ t, exec .clear s = .next t ∧ t = { s with bar0 := t.bar0 } ∧ t.regBit 0x32F000 1 = true ∧
      s.RegsBut t [0x32F000]) ∧
    (∀ (m : PtpMsg) stamp slew,
      let i := Instr.ptpMessage k m stamp slew
      let takes := x.up = true ∧ s.regBit (portBase k) 3 = true ∧ m.domain.toNat = s.regFld 0x30A010 7 0
      let slave := s.fab.master.map (·.1) = some k
      let at_ : Int := stamp - s.ingressNs k - m.correction
      let off : Int := at_ - m.carries - x.pathDelay
      let sync := takes ∧ m.kind = .sync ∧ m.twoStep = false ∧ slave
      let one := fun (t : State) (y : Port) => t = { s with ports := t.ports } ∧ t.port k = y ∧
        ∀ j : PortId, j ≠ k → t.port j = s.port j
      let sends := fun (t : State) (kind : PtpKind) (carries correction : Int) => ∃ f g, f.frame = g ∧
        vget (t.port k).egress 0 [] = vget x.egress 0 [] ++ [f] ∧ hType g = 5 ∧ hClass g = 0 ∧
        ∃ n, g.body = .ptp n ∧ n.kind = kind ∧ n.carries = carries ∧ n.correction = correction ∧ n.domain = m.domain
      let before := s.fab.foreign.find? fun y => y.1 = k ∧ y.2.1 = m.clock.identity
      let noted := { s.fab with foreign := (s.fab.foreign.filter fun y =>
        !(decide (y.1 = k) && decide (y.2.1 = m.clock.identity))) ++ [(k, m.clock.identity, s.now)] }
      (¬takes → exec i s = .next s) ∧
      (takes → m.kind = .sync → ¬slave → exec i s = .next s) ∧
      (sync → -1000000 ≤ off → off ≤ 1000000 → ∃ t, exec i s = .next t ∧ t.reg 0x30A008 = BitVec.ofInt 64 off ∧
        s.RegsBut t [0x30A008] ∧ t.pins = s.pins ∧ t.fab.slew = slew ∧ t.fab.holdover = false ∧
        t.fab.locked = (if -50 ≤ off ∧ off ≤ 50 ∧ 7 ≤ s.fab.within then true
          else if (off < -200 ∨ 200 < off) ∧ 2 ≤ s.fab.outside then false else s.fab.locked) ∧
        (t.port k).lastSync = some (m.carries, at_) ∧
        sends t (if Config.ptpPeerToPeer then .pdelayReq else .delayReq) 0 0) ∧
      (sync → (off < -1000000 ∨ 1000000 < off) → ∃ t, exec i s = .next t ∧ s.Raised t Ev.timeStepped ∧
        t.reg 0x30A008 = BitVec.ofInt 64 off ∧ t.fab.slew = 0 ∧ t.pins.fabNs = ((s.pins.fabNs : Int) - off).toNat) ∧
      (takes → m.kind = .sync → m.twoStep = true → slave → ∃ t, exec i s = .next t ∧
        one t { x with syncAt := some at_ }) ∧
      (takes → m.kind = .announce → (∀ y, before = some y → y.2.2 + 8000000000 < s.now) →
        exec i s = .next { s with fab := noted }) ∧
      (∀ y, takes → m.kind = .announce → before = some y → s.now ≤ y.2.2 + 8000000000 →
        let followed := { noted with master := some (k, m.clock) }
        (s.fab.master = none → exec i s = .next (if clockBetter m.clock s.ownClock then { s with fab := followed }
          else { s with fab := noted })) ∧
        (∀ d, s.fab.master = some (k, d) → exec i s = .next (if clockBetter m.clock s.ownClock then { s with fab := followed }
          else { s with fab := { noted with master := none } })) ∧
        (∀ k' d, s.fab.master = some (k', d) → k' ≠ k → exec i s =
          .next (if clockBetter m.clock d ∧ clockBetter m.clock s.ownClock then { s with fab := followed }
            else { s with fab := noted }))) ∧
      (takes → m.kind = .delayReq → ¬slave → ∃ t, exec i s = .next t ∧ s.OnlySends t ∧
        sends t .delayResp (stamp - s.ingressNs k) m.correction) ∧
      (∀ t3 t1 t2, takes → m.kind = .delayResp → x.askedAt = some t3 → x.lastSync = some (t1, t2) →
        ∃ t, exec i s = .next t ∧ one t { x with
          askedAt := none
          pathDelay := (t2 - t1 + (m.carries - m.correction - t3)) / 2 }) ∧
      (takes → m.kind = .pdelayReq → ∃ t, exec i s = .next t ∧ s.OnlySends t ∧
        sends t .pdelayResp 0 (s.now + s.egressNs k - (stamp - s.ingressNs k) + m.correction)) ∧
      (∀ t1, takes → m.kind = .pdelayResp → x.askedAt = some t1 → ∃ t, exec i s = .next t ∧ one t { x with
        askedAt := none
        pathDelay := (stamp - s.ingressNs k - t1 - m.carries - m.correction) / 2 })) ∧
    exec .ptpMasterLoss s = .next { s with fab := { s.fab with master := none, foreign := [], holdover := true, slew := 0 } }

/-! ## The host interface (chapter 14) -/

/-- A BAR2 access reaches the state address its base gives or is refused with the event, one beyond the BAR and a
poisoned write are none of it, and a read waits for its function's earlier writes (R353); a doorbell value at or
above the ring's size is ignored with the event; enabling a ring starts it anew; the packet at the head of a ring is
fetched, or answered with PKT_INVALID, and stays there while its record has no room; a coalescing time that ends
signals the ring's vector: a message, a pending bit where it is masked, nothing where MSI-X is off (R351 to R360,
R364, R370). How MSI-X's enable, mask and pending bits act is PCIe's rule (assumption log 9, PRESUMED). Where the
rules leave a point open this states the model's choice (assumption log 9, 81, 83, 84, 85). -/
def Obligations.HostRingsAndWindows : Prop :=
  ∀ (s : State),
    (∀ (fn : Fin 17) x n, s.fnOn fn.val = false ∨ s.bar2Bytes fn.val < x + n → exec (.bar2Read fn x n) s = .next s) ∧
    (∀ (fn : Fin 17) x (b : HostData), s.fnOn fn.val = false ∨ s.bar2Bytes fn.val < x + b.bytes.length ∨ b.poisoned = true →
      exec (.bar2Write fn x b) s = .next s) ∧
    (∀ (fn : Fin 17) x n, s.fnOn fn.val = true → x + n ≤ s.bar2Bytes fn.val →
      s.bar2Waits fn.val = true ∨ (∃ r ∈ s.host.bar2Held, r.1 = fn.val) →
      exec (.bar2Read fn x n) s =
        .next { s with host := { s.host with bar2Held := s.host.bar2Held ++ [(fn.val, x, n)] } }) ∧
    (∀ (fn : Fin 17) x,
      let a := s.bar2Addr fn.val x
      let answers := fun (t : State) (k : Nat) (b : Bytes) => t.host.bar2 = (k, b) :: s.host.bar2
      let refused := fun (t : State) => s.Raised t Ev.bar2Refused ∧ t.reg 0x500318 = s.reg 0x500318 + 1 ∧
        t.mem = s.mem ∧ t.parts = s.parts ∧ t.spt = s.spt
      let closed := s.boot.ready = false ∨ s.bar2Job fn.val = none
      let calm := fun (pl : Place) => (∀ m ∈ s.tier.moves, m.page ≠ ePage a) ∧
        (pl.far = true ∨ (s.mu pl.unit).holds = false ∧ (s.mu pl.unit).parked = [] ∧ (s.mu pl.unit).held = [])
      let fits := fun (n : Nat) => x + n ≤ s.bar2Bytes fn.val
      let quiet := s.bar2Waits fn.val = false ∧ ∀ r ∈ s.host.bar2Held, r.1 ≠ fn.val
      s.fnOn fn.val = true →
      (0 < fn.val → a = s.regFld (0x500100 + 8 * fn.val) 41 30 * 2 ^ 30 + x) ∧
      (closed → (∀ n, fits n → quiet → ∃ t, exec (.bar2Read fn x n) s = .next t ∧ refused t ∧ answers t 1 []) ∧
        ∀ b : Bytes, fits b.length →
          ∃ t, exec (.bar2Write fn x ⟨b, false⟩) s = .next t ∧ refused t ∧ t.host.bar2 = s.host.bar2) ∧
      (∀ job n pl, s.boot.ready = true → s.bar2Job fn.val = some job → 0 < n → a % 4096 + n ≤ 4096 → fits n → quiet →
        s.translate job a = .ok pl → calm pl →
        (ePoisoned pl.entry = false → s.mem.anyPoison pl.far pl.key n = false →
          ∃ t, exec (.bar2Read fn x n) s = .next t ∧ answers t 0 (s.mem.bytes pl.far pl.key n) ∧ t.mem = s.mem ∧
            t.bar0 = s.bar0 ∧ t.events = s.events) ∧
        (ePoisoned pl.entry = true ∨ s.mem.anyPoison pl.far pl.key n = true →
          ∃ t, exec (.bar2Read fn x n) s = .next t ∧ answers t 3 [] ∧ t.mem = s.mem ∧
            t.reg 0x500318 = s.reg 0x500318)) ∧
      (∀ job n e, s.boot.ready = true → s.bar2Job fn.val = some job → 0 < n → s.translate job a = .error e → fits n →
        (quiet → ∃ t, exec (.bar2Read fn x n) s = .next t ∧ refused t ∧
          answers t (if e.status = St.cxlLinkDown then 2 else 1) []) ∧
        ∀ b : Bytes, b.length = n → ∃ t, exec (.bar2Write fn x ⟨b, false⟩) s = .next t ∧ refused t) ∧
      (∀ job (b : Bytes) pl, s.boot.ready = true → s.bar2Job fn.val = some job → b ≠ [] → a % 4096 + b.length ≤ 4096 →
        fits b.length → s.translate job a = .ok pl →
        (calm pl → ∃ t, exec (.bar2Write fn x ⟨b, false⟩) s = .next t ∧ t.mem = s.mem.write pl.far pl.key b ∧
            t.bar0 = s.bar0 ∧ t.spt = s.spt ∧ t.events = s.events ∧ t.host = { s.host with writer := none }) ∧
        (pl.far = false → pl.unit < 32 → (s.mu pl.unit).proc = true → (s.mu pl.unit).switching = false →
          s.nbRunning pl.unit = true → (∀ m ∈ s.tier.moves, m.page ≠ ePage a) →
          ∃ t, exec (.bar2Write fn x ⟨b, false⟩) s = .next t ∧ t.mem = s.mem ∧ t.bar2Waits fn.val = true ∧
            (t.mu pl.unit).parked.map (fun e => (e.acc, e.fn)) = (s.mu pl.unit).parked.map (fun e => (e.acc, e.fn)) ++
              (parkPieces (.write (pl.key % 2 ^ 32) b)).map fun k => (k, some fn.val)))) ∧
    (∀ (r : RingId) v cq w, s.boot.ready = false → exec (.sqTailDb r v) s = .next s ∧ exec (.cqHeadDb r v) s = .next s ∧
      exec (.ringEnable cq r w) s = .next s) ∧
    (∀ (r : RingId) v, s.boot.ready = true →
      (v.toNat < s.sqSize r.val → ∃ t, exec (.sqTailDb r v) s = .next t ∧ t = { s with bar0 := t.bar0 } ∧
        t.regFld (sqDbOff r.val) 11 0 = v.toNat % 2 ^ 12 ∧ s.RegsBut t [sqDbOff r.val]) ∧
      (s.sqSize r.val ≤ v.toNat → ∃ t, exec (.sqTailDb r v) s = .next t ∧ s.Raised t Ev.doorbellRange ∧
        s.OnlyEvents t ∧ t.reg (sqDbOff r.val) = s.reg (sqDbOff r.val)) ∧
      (v.toNat < s.cqSize r.val → (∀ w ∈ s.host.waiting, w.1 ≠ r.val) → ∃ t, exec (.cqHeadDb r v) s = .next t ∧
        t = { s with bar0 := t.bar0 } ∧ t.regFld (cqDbOff r.val) 15 0 = v.toNat ∧ s.RegsBut t [cqDbOff r.val]) ∧
      (∀ b, v.toNat < s.cqSize r.val → s.host.waiting = [(r.val, b)] → s.cqEnabled r.val = true →
        0 < ((s.setRegFld (cqDbOff r.val) 15 0 v.toNat).modHost fun h => { h with waiting := [] }).cqFree r.val →
        ∃ t, exec (.cqHeadDb r v) s = .next t ∧ t.host.waiting = [] ∧
          t.host.mem = memWrite s.host.mem ((s.reg (cqOff r.val)).toNat + 32 * s.regFld (cqOff r.val + 0x10) 15 0)
            (setLe b 0x1B 1 (b2n (s.ring r.val).phase)) ∧
          t.regFld (cqOff r.val + 0x10) 15 0 = (s.regFld (cqOff r.val + 0x10) 15 0 + 1) % s.cqSize r.val % 2 ^ 16) ∧
      (s.cqSize r.val ≤ v.toNat → ∃ t, exec (.cqHeadDb r v) s = .next t ∧ s.Raised t Ev.doorbellRange ∧
        s.OnlyEvents t ∧ t.reg (cqDbOff r.val) = s.reg (cqDbOff r.val))) ∧
    (∀ (r : RingId) v, s.boot.ready = true →
      let o := sqOff r.val + 8
      let log := fun (old : Nat) => if 4 ≤ fld v 3 0 ∧ fld v 3 0 ≤ 12 then fld v 3 0 else old
      ∃ t, exec (.ringEnable false r v) s = .next t ∧ t = { s with bar0 := t.bar0, host := t.host } ∧
        t.regBit o 4 = v.getLsbD 4 ∧
        t.regFld o 3 0 = (if s.regBit o 4 then s.regFld o 3 0 else log (s.regFld o 3 0)) ∧
        (s.regBit o 4 = false → v.getLsbD 4 = true → t.regFld (sqOff r.val + 0x10) 11 0 = 0 ∧
          t.regFld (sqDbOff r.val) 11 0 = 0 ∧ (t.ring r.val).fetched = []) ∧
        (s.regBit o 4 = true ∨ v.getLsbD 4 = false → t.host = s.host ∧ s.RegsBut t [o])) ∧
    (∀ (r : RingId) v, s.boot.ready = true →
      let o := cqOff r.val + 8
      let log := fun (old : Nat) => if 4 ≤ fld v 4 0 ∧ fld v 4 0 ≤ 16 then fld v 4 0 else old
      (∀ w ∈ s.host.waiting, w.1 ≠ r.val) →
      ∃ t, exec (.ringEnable true r v) s = .next t ∧ t = { s with bar0 := t.bar0, host := t.host } ∧
        t.regBit o 5 = v.getLsbD 5 ∧ t.regFld o 42 32 = fld v 42 32 ∧
        t.regFld o 4 0 = (if s.regBit o 5 then s.regFld o 4 0 else log (s.regFld o 4 0)) ∧
        (s.regBit o 5 = false → v.getLsbD 5 = true → t.regFld (cqOff r.val + 0x10) 15 0 = 0 ∧
          t.regFld (cqDbOff r.val) 15 0 = 0 ∧ (t.ring r.val).phase = true ∧ (t.ring r.val).unsignalled = 0 ∧
          (t.ring r.val).reserved = s.reservedFor r.val) ∧
        (s.regBit o 5 = true ∨ v.getLsbD 5 = false → t.host = s.host ∧ s.RegsBut t [o])) ∧
    (∀ (r : RingId) data,
      let b := fitBytes 2048 data
      let k := packetOf r.val b
      let c := s.cqOf r.val k.cq
      let named := ∃ n, c = some n ∧ s.cqEnabled n = true
      let o := sqOff r.val + 0x10
      let next := (s.regFld o 11 0 + 1) % s.sqSize r.val % 2 ^ 12
      (s.fetchDue r.val = false → exec (.packetPrefetch r data) s = .next s) ∧
      (s.fetchDue r.val = true → packetOk r.val b = true → named → ∃ t, exec (.packetPrefetch r data) s = .next t ∧
        t = { s with host := { s.host with rings := t.host.rings } } ∧ (t.ring r.val).fetched = [k] ∧
        ∀ n, n ≠ r.val → t.ring n = s.ring n) ∧
      (∀ n, s.fetchDue r.val = true → packetOk r.val b = false → c = some n → s.cqEnabled n = true → s.cqFree n = 0 →
        exec (.packetPrefetch r data) s = .next s) ∧
      (∀ n, s.fetchDue r.val = true → packetOk r.val b = false → c = some n → s.cqEnabled n = true → 0 < s.cqFree n →
        ∃ t, exec (.packetPrefetch r data) s = .next t ∧ t.regFld o 11 0 = next ∧
          t.reg 0x500308 = s.reg 0x500308 + 1 ∧ (t.ring r.val).fetched = [] ∧ t.parts = s.parts ∧
          t.host.mem = memWrite s.host.mem ((s.reg (cqOff n)).toNat + 32 * s.regFld (cqOff n + 0x10) 15 0)
            (setLe (completionBytes k.id 0 0 St.pktInvalid (s.sqName r.val) next) 0x1B 1 (b2n (s.ring n).phase))) ∧
      (s.fetchDue r.val = true → ¬named → ∃ t, exec (.packetPrefetch r data) s = .next t ∧ t.regFld o 11 0 = next ∧
        t.reg 0x500308 = s.reg 0x500308 + 1 ∧ t.host = s.host ∧ t.parts = s.parts)) ∧
    (∀ r : Fin 65,
      let due := if r.val = 64 then s.events.unsignalled else (s.ring r.val).unsignalled
      let fn := if r.val = 64 then 0 else s.ringOwner r.val
      let vec := if r.val = 64 then 0 else s.regFld (cqOff r.val + 8) 42 32
      let slot := fn * 2048 + vec
      let on := bitOf s.host.msixOn fn = true ∧ (fn = 0 ∨ vec < 64)
      let silent := fun (t : State) => t.host.msix = s.host.msix ∧ t.host.messages = s.host.messages
      (due = 0 → exec (.coalesceExpiry r) s = .next s) ∧
      (0 < due → ∃ t, exec (.coalesceExpiry r) s = .next t ∧ t.bar0 = s.bar0 ∧
        (if r.val = 64 then t.events.unsignalled else (t.ring r.val).unsignalled) = 0 ∧
        (¬on → silent t ∧ t.host.pba = s.host.pba) ∧
        (on → s.msixMasked fn vec = true → silent t ∧ ∀ m, m ∈ t.host.pba ↔ m = slot ∨ m ∈ s.host.pba) ∧
        (on → s.msixMasked fn vec = false → t.host.pba = s.host.pba ∧
          t.host.messages =
            (s.reg (msixOff fn (2 * vec)), (s.reg (msixOff fn (2 * vec + 1))).setWidth 32) :: s.host.messages ∧
          ∀ m, tabGet (fun _ => 0) t.host.msix m = tabGet (fun _ => 0) s.host.msix m + if m = slot then 1 else 0)))

/-- A reset of the host link, or an FLR, resets the rings, MSI-X tables and BAR2 bases of the function and discards
what waits for its rings; partitions, images, flash and device memory stand; the link trains again and comes up, with
flit mode at 64 GT/s and at no other rate (R349, R363, R370). What the resets leave of an unfinished load and of
MSI-X's enables is assumption log 85 (DEDUCED). Where the rules leave a point open this states the model's choice
(assumption log 6, 85). -/
def Obligations.HostResetsAndLink : Prop :=
  ∀ (s : State),
    let ringRegs := fun (r : Nat) => [sqOff r, sqOff r + 8, sqOff r + 0x10, cqOff r, cqOff r + 8, cqOff r + 0x10, sqDbOff r,
      cqDbOff r]
    let ringsReset := fun (t : State) (rs : List Nat) => (∀ r ∈ rs, t.ring r = Ring.reset ∧
        ∀ o ∈ ringRegs r, t.reg o = regReset o) ∧ (∀ w, w ∈ t.host.waiting ↔ w ∈ s.host.waiting ∧ w.1 ∉ rs) ∧
      t.reg 0x500310 = s.reg 0x500310 + BitVec.ofNat 64 (s.host.waiting.filter fun w => rs.contains w.1).length ∧
      (∀ p : PartId, t.part p = { s.part p with drv := (s.drv p).discard fun r => rs.contains r }) ∧
      t.saves = s.saves.map fun (x : Saved) =>
        { x with saved := { x.saved with drv := x.saved.drv.discard fun r => rs.contains r } }
    let stands := fun (t : State) => t.mem = s.mem ∧ t.spt = s.spt ∧ t.boot = s.boot ∧ t.fab = s.fab ∧
      t.events = s.events ∧ t.host.mem = s.host.mem
    (∀ i, i = .perstN ∨ i = .flrPf → ∃ t, exec i s = .next t ∧ ringsReset t (List.range 64) ∧ stands t ∧
      t.host.vfEnable = 0 ∧ t.host.latch = [] ∧ t.host.loading = none ∧ t.reg 0x500010 = 0 ∧
      t.regBit imgStat 0 = false ∧ t.regBit 0x500208 16 = false ∧ (∀ v, v < 16 → t.reg (0x500108 + 8 * v) = 0) ∧
      (∀ k, k < 4096 → t.reg (0x508000 + 8 * k) = regReset (0x508000 + 8 * k)) ∧ t.host.bar2Log = 30 ∧
      t.host.bar2Held = [] ∧ t.host.msixOn = 0 ∧ t.host.msixMask = 0 ∧ (∀ x ∈ t.host.pba, 17 ≤ x / 2048) ∧
      (i = .perstN → t.pins.perstN = false ∧ t.host.up = false ∧ t.host.training = false ∧ t.host.rate = 0 ∧
        t.host.width = 0 ∧ t.host.flit = false) ∧
      (i = .flrPf → t.pins = s.pins ∧ t.host.up = s.host.up)) ∧
    (∀ k : Fin 16, s.fnOn (k.val + 1) = true →
      let rs := (List.range 4).map fun i => 4 * k.val + i
      ∃ t, exec (.flrVf k) s = .next t ∧ ringsReset t rs ∧ stands t ∧ t.pins = s.pins ∧
        t.reg (0x500108 + 8 * k.val) = 0 ∧ (∀ n, n < 128 →
          t.reg (msixOff (k.val + 1) n) = regReset (msixOff (k.val + 1) n)) ∧
        bitOf t.host.msixOn (k.val + 1) = false ∧ (∀ x ∈ t.host.pba, x / 2048 ≠ k.val + 1) ∧
        (∀ e, e ∈ t.host.bar2Held ↔ e ∈ s.host.bar2Held ∧ e.1 ≠ k.val + 1) ∧
        t.host.vfEnable = s.host.vfEnable ∧ (∀ r, r < 64 → r ∉ rs → t.ring r = s.ring r ∧
          ∀ o ∈ ringRegs r, t.reg o = s.reg o)) ∧
    (∀ k : Fin 16, s.fnOn (k.val + 1) = false → exec (.flrVf k) s = .next s) ∧
    (∃ t, exec .perstNDeassert s = .next t ∧ t = { s with pins := { s.pins with perstN := true }, host := t.host } ∧
      t.host = { s.host with training := s.host.training || (decide (2 ≤ s.boot.stage) && !s.host.up) }) ∧
    (∀ rate width flit,
      let ok := s.host.training = true ∧ 1 ≤ rate.toNat ∧ rate.toNat ≤ 6 ∧ width.toNat ∈ [1, 2, 4, 8] ∧
        flit = decide (rate = 6)
      (ok → ∃ t, exec (.hostLinkUp rate width flit) s = .next t ∧ t.regFld 0x800 4 3 = 3 ∧ s.RegsBut t [0x800] ∧
        t.host = { s.host with up := true, training := false, rate := rate, width := width, flit := flit } ∧ t.parts = s.parts) ∧
      (¬ok → exec (.hostLinkUp rate width flit) s = .next s))

/-! ## Power, resets and bring-up (chapter 15) -/

/-- A loss of power, SYS_RST_N and the other internal resets lose every state but the flash, host memory, WARM_NEXT
and LOCK_LOST; SYS_RST_N released samples BOOT_MODE and begins S0 (R365 to R367, R417, R428, R432, R434, R439). Where
the rules leave a point open this states the model's choice (assumption log 6, 86). -/
def Obligations.StartsAndResets : Prop :=
  ∀ (s : State),
    let lost := fun (t : State) => t = { State.reset with
        pending := s.pending, pins := t.pins, bar0 := t.bar0, host := t.host, boot := t.boot, jtag := t.jtag,
        events := t.events, board := t.board, freeCount := s.freeCount } ∧
      t.boot.flash = s.boot.flash ∧ t.boot.ready = false ∧ t.boot.stage = 0 ∧ t.host.mem = s.host.mem ∧ t.host.up = false
    let keeps := fun (t : State) => t.regBit 0x1008 0 = s.regBit 0x1008 0 ∧ t.regBit 0x800 37 = s.regBit 0x800 37 ∧
      ∀ o, o ≠ 0x1008 → o ≠ 0x800 → t.reg o = regReset o
    let running := fun (t : State) => t.boot.started = true ∧ t.regFld 0x1000 3 0 = 0 ∧ t.regFld 0x1000 7 4 = 1 ∧
      t.regFld 0x1040 7 0 = 0 ∧ t.regFld 0x1040 15 8 = 1
    (s.pins.pwrGood = false → ∃ t, exec .pwrGoodRise s = .next t ∧ lost t ∧ t.bar0 = [] ∧ t.pins.pwrGood = true ∧
      t.pins.sysRstN = false ∧ t.pins.perstN = false ∧ t.pins.clkT = 0 ∧ t.boot.cold = true ∧
      t.boot.warmEligible = false ∧ t.jtag = Jtag.reset) ∧
    (s.pins.pwrGood = true → exec .pwrGoodRise s = .next s) ∧
    (s.pins.pwrGood = true → ∃ t, exec .pwrGoodFall s = .next t ∧ lost t ∧ t.bar0 = [] ∧ t.pins.pwrGood = false ∧
      t.pins.thermtripN = true ∧ t.boot.warmEligible = false ∧ t.jtag = Jtag.reset) ∧
    (s.pins.pwrGood = false → exec .pwrGoodFall s = .next s) ∧
    (s.pins.sysRstN = true → ∃ t, exec .sysRstNAssert s = .next t ∧ lost t ∧ keeps t ∧ t.pins.sysRstN = false ∧
      t.pins.faultN = true ∧ t.pins.thermAlertN = true ∧ t.pins.clkT = s.pins.clkT ∧ t.boot.started = false ∧
      t.boot.warmEligible = s.boot.warmEligible ∧ t.jtag = s.jtag) ∧
    (s.pins.sysRstN = false → exec .sysRstNAssert s = .next s) ∧
    (∀ mode,
      let due := s.pins.sysRstN = false ∧ s.pins.pwrGood = true ∧ s.pins.thermtripN = true
      let held := s.pins.sysRstN = false ∧ s.pins.pwrGood = true ∧ s.pins.thermtripN = false
      let freed := fun (t : State) => s.jtag.insn ∉ [JtagInsn.bypass, .idcode, .samplePreload] →
        t.jtag.effect = .bypass ∧ t.jtag.driven = false ∧ t.jtag.floating = false
      (¬due → ¬held → exec (.sysRstNDeassert mode) s = .next s) ∧
      (held → ∃ t, exec (.sysRstNDeassert mode) s = .next t ∧ freed t ∧ t = { s with
          pins := { s.pins with sysRstN := true, bootMode := mode, faultN := false, smbAlertN := false }
          jtag := t.jtag }) ∧
      (due → ∃ t, exec (.sysRstNDeassert mode) s = .next t ∧ running t ∧ t.pins.sysRstN = true ∧
        t.pins.bootMode = mode ∧ t.boot.stage = 0 ∧ t.boot.startUs = (if s.boot.cold then 0 else s.pins.clkT / 100) ∧
        t.parts = s.parts ∧ t.mem = s.mem ∧ t.boot.flash = s.boot.flash ∧ freed t)) ∧
    (s.pins.pwrGood = true → ∃ t, exec .thermtrip s = .next t ∧ lost t ∧ keeps t ∧ t.pins.thermtripN = false ∧
      t.pins.faultN = !s.pins.sysRstN ∧ t.boot.warmEligible = false ∧ t.boot.started = false) ∧
    (s.pins.pwrGood = false → exec .thermtrip s = .next s) ∧
    (s.boot.started = true → 1 ≤ s.boot.stage → ∃ t, exec .rootLockLoss s = .next t ∧ lost t ∧ running t ∧
      t.regBit 0x800 37 = true ∧ t.regBit 0x1008 0 = s.regBit 0x1008 0 ∧ t.pins.faultN = false ∧
      t.boot.forceFull = true ∧ t.boot.warmEligible = false) ∧
    (s.boot.started = false ∨ s.boot.stage = 0 → exec .rootLockLoss s = .next s)

/-- Each stage of bring-up takes its time, writes its record and begins the next one, or meets its fatal condition
and the chip has failed, its partitions in TEST_RECOVERY; S1 derives the device identity and makes the first request
for VDD_HUB, S2 announces a changed numbering, S4 retires the frames that fail the march, and at S8 the node is ready
and holds nothing that no start preserves (R345, R365 to R376, R384, R430, R433). A stage that is not due leaves the
state as it is (assumption log 6); how S1's operands spell the identity is assumption log 87, what S8 clears log 86.
Where the rules leave a point open this states the model's choice (assumption log 6, 86, 87, 89). -/
def Obligations.BringUpStages : Prop :=
  ∀ (s : State) (us : Nat),
    let rec_ := fun (n : Nat) => 0x1040 + 0x40 * n
    let took := fun (t : State) => t.pins.clkT = s.pins.clkT + 100 * us ∧ t.pins.fabNs = s.pins.fabNs + 1000 * us
    let ended := fun (t : State) (n : Nat) (result : Nat) (st : Status) => took t ∧ t.boot.stage = n + 1 ∧
      t.boot.fatal = false ∧ t.regFld (rec_ n) 7 0 = n ∧ t.regFld (rec_ n) 15 8 = result ∧
      t.regFld (rec_ n) 31 16 = st.toNat ∧ t.regFld 0x1000 3 0 = n + 1 ∧ t.regFld 0x1000 7 4 = 1 ∧
      (result = 3 → t.regBit 0x1000 (32 + n) = true) ∧ t.boot.flash = s.boot.flash
    let fatal := fun (t : State) (n : Nat) => t.boot.fatal = true ∧ t.boot.stage = n ∧ t.regBit 0x1000 19 = true ∧
      t.regFld (rec_ n) 15 8 = 4 ∧ t.regBit 0x708020 1 = true ∧ (s.regBit 0x708020 1 = false → t.pins.faultN = false) ∧
      ∀ p : PartId, t.regBit (pcfgOff p) 4 = true
    let full := s.boot.cfg.warmSample
    (∀ i, i = Instr.stageS0 false us ∨ i = .rootLockRetry false us → s.stageDue 0 = true → ∃ t, exec i s = .next t ∧
      took t ∧ t = { s with pins := t.pins }) ∧
    (∀ i, i = Instr.stageS0 true us ∨ i = .rootLockRetry true us → s.stageDue 0 = true → ∃ t, exec i s = .next t ∧
      ended t 0 2 St.ok ∧ t.reg 0x1008 = 0 ∧ t.regFld 0x800 1 0 = 3 ∧
      (t.pins.faultN = true ↔ s.regBit 0x708020 1 = false) ∧ t.board = { s.board with smbusUp := true } ∧
      (t.boot.warm = true ↔ s.boot.forceFull = false ∧ s.boot.warmEligible = true ∧
        (s.pins.bootMode = 1 ∨ s.pins.bootMode = 0 ∧ s.regBit 0x1008 0 = true)) ∧
      (t.boot.fullTest = !t.boot.warm) ∧ (t.boot.recovery = true ↔ s.boot.forceFull = false ∧ s.pins.bootMode = 2)) ∧
    (∀ rom sec flash corrected response, s.stageDue 1 = true →
      let i := Instr.stageS1 rom sec flash corrected response us
      let c := if s.boot.recovery then cfgDefaults 7 else if flash = false then cfgDefaults 1
        else readCfg (memRead s.boot.flash)
      let seed := (sha3_512 response).take 32
      let digest := sha3_512 (MlDsa.keyGen seed).pk
      let derived := corrected && flash
      let idOk := derived && decide (memRead s.boot.flash Config.idDigestPlace 64 = digest)
      let want := hubTarget 840
      (rom = false ∨ sec = false → ∃ t, exec i s = .next t ∧ fatal t 1) ∧
      (rom = true → sec = true → ∃ t, exec i s = .next t ∧
        ended t 1 2 (if idOk = false then St.idUnavailable else if c.defaulted then St.cfgDefaulted else St.ok) ∧
        t.boot.cfg = c ∧ t.fab.node = c.node ∧ t.boot.flashOk = flash ∧ t.boot.idOk = idOk ∧
        t.boot.idDigest = (if idOk then digest else []) ∧ t.boot.deviceSeed = (if derived then seed else []) ∧
        t.reg 8 = (if idOk then wordOf (digest.take 8) else 0) ∧
        (t.board = { s.board with avsOn := true, wantMv := want, unacked := false, hubMv := want, covers := 840 } ∨
          t.board = { s.board with avsOn := true, wantMv := want, unacked := true }) ∧ (∀ p : PartId, t.regBit (pcfgOff p) 4 = true) ∧
        t.events.seq = s.events.seq + (if idOk then 0 else 1) + (if c.defaulted then 1 else 0) ∧
        (s.pins.perstN = true → t.host.training = true))) ∧
    (∀ hub parts, s.stageDue 2 = true →
      let test := fun p : PartId => parts.getD p.val passingTest
      let some_ := ∃ p, testPasses (test p) = true
      let news := fun p : PartId => testPasses (test p) &&
        !(decide (((s.part p).numbered (test p)).presentCores = 128) && decide (((s.part p).numbered (test p)).mxAbsent = 0))
      (hub = false ∨ ¬some_ → ∃ t, exec (.stageS2 hub parts us) s = .next t ∧ fatal t 2) ∧
      (hub = true → some_ → ∃ t result, exec (.stageS2 hub parts us) s = .next t ∧ ended t 2 result St.ok ∧
        ((∃ p, testPasses (test p) = false) → result = 3) ∧ (parts = [] → result = 2) ∧
        t.events.seq = s.events.seq + BitVec.ofNat 32 ((List.finRange 16).countP news) ∧
        ∀ p, t.part p = { (s.part p).numbered (test p) with
          st := if testPasses (test p) then .vacant else .failed })) ∧
    (∀ links retrains, s.stageDue 3 = true →
      (links = 0x3F → ∃ t, exec (.stageS3 links retrains us) s = .next t ∧ ended t 3 2 St.ok ∧ t.parts = s.parts) ∧
      (links ≠ 0x3F → ∃ t, exec (.stageS3 links retrains us) s = .next t ∧ fatal t 3)) ∧
    (∀ trained nbu march ecc, s.stageDue 4 = true →
      let i := Instr.stageS4 trained nbu march ecc us
      let bad := fun f : FrameMarch => f.uncorrected = true ∨ 16 < f.corrected
      (trained ≠ BitVec.allOnes 32 → ∃ t, exec i s = .next t ∧ fatal t 4) ∧
      (trained = BitVec.allOnes 32 → (∀ f ∈ march, ¬bad f) → ∃ t, exec i s = .next t ∧
        ended t 4 (if nbu = 0 then 2 else 3) St.ok ∧ t.tier.retired = [] ∧
        ∀ m, m < 32 → (t.mu m).trained = true ∧ (t.mu m).absent = nbu.getLsbD m ∧
          t.regFld (muBase m) 15 8 = s.boot.cfg.rate % 256) ∧
      (∀ f, trained = BitVec.allOnes 32 → march = [f] → bad f → (s.boot.warm = false ∨ full = 0) →
        (f.frame.toNat < 65520 → ∃ t, exec i s = .next t ∧ ended t 4 3 St.ok ∧ t.tier.retired = [f.frame.toNat]) ∧
        (65520 ≤ f.frame.toNat → ∃ t, exec i s = .next t ∧ fatal t 4))) ∧
    (∀ devices, s.stageDue 5 = true → s.boot.retention = false →
      let i := Instr.stageS5 devices us
      let good := fun (k : CxlId) => ∃ d ∈ devices, d.port = k ∧ deviceBytes ≤ d.bytes ∧ d.marchOk = true
      (s.boot.fullTest = true → ∃ t, exec i s = .next t ∧ took t ∧ t.boot.stage = 5 ∧ t.boot.retention = true ∧
        ∀ k : CxlId, t.boot.farPresent.getLsbD k.val = true ↔ good k) ∧
      (s.boot.fullTest = false → ∃ t result, exec i s = .next t ∧ ended t 5 result St.ok ∧
        t.regFld 0x208000 35 32 = s.boot.cfg.farIlv % 16 ∧
        ∀ k : CxlId, (t.cxlPort k.val).present = true ↔ ∀ j : CxlId, j.val / t.ways = k.val / t.ways → good j)) ∧
    (∀ badPorts bad, s.stageDue 5 = true → s.boot.retention = true → ∃ t result,
      exec (.retentionWaitExpiry badPorts bad us) s = .next t ∧ ended t 5 result St.ok ∧ t.boot.retention = false ∧
      ∀ k : CxlId, (t.cxlPort k.val).present = true ↔ ∀ j : CxlId, j.val / s.ways = k.val / s.ways →
        s.boot.farPresent.getLsbD j.val = true ∧ badPorts.getLsbD j.val = false) ∧
    (s.stageDue 6 = true →
      let down := ∃ k : PortId, s.regBit (portBase k) 0 = true ∧ (s.port k).up = false
      ∃ t result, exec (.stageS6 us) s = .next t ∧ ended t 6 result St.ok ∧ (result = 3 ↔ down) ∧
        (s.boot.cfg.system = false ∨ s.boot.cfg.node = s.boot.cfg.mgr ∨ (∀ k : PortId, (s.port k).up = false) →
          t.fab = s.fab) ∧
        (s.boot.cfg.system = true → s.boot.cfg.node ≠ s.boot.cfg.mgr → (∃ k : PortId, (s.port k).up = true) →
          s.SentOne t s.boot.cfg.mgr fun f => hType f = 6 ∧ f.body = .join s.capWord)) ∧
    (s.stageDue 7 = true → ∃ t st, exec (.stageS7 us) s = .next t ∧ ended t 7 2 st ∧
      (s.boot.cfg.images = [] → st = St.ok ∧ t.parts = s.parts)) ∧
    (s.stageDue 8 = true → s.boot.ready = false → ∃ t, exec (.stageS8 us) s = .next t ∧ took t ∧ t.boot.ready = true ∧
      t.regFld (rec_ 8) 15 8 = 2 ∧ t.regFld 0x1000 3 0 = 8 ∧ t.regFld 0x1000 7 4 = 2 ∧ s.Raised t Ev.nodeReady ∧
      t.mgr = { s.mgr with role := startRole s.boot.cfg } ∧
      t.boot.warmEligible = (s.boot.fullTest || s.boot.warmEligible) ∧ t.spt = [] ∧ t.adapters = State.reset.adapters ∧
      t.meter = State.reset.meter ∧ (∀ p : PartId, (t.part p).curJob = none ∧ (t.drv p).image = none ∧
        (t.part p).staged = (s.part p).staged) ∧
      ∀ p : PartId, (t.part p).st = (if (s.part p).st = .failed then .failed else .vacant) ∧ (t.part p).hsram = [] ∧
        t.regBit (pcfgOff p) 4 = false) ∧
    (∀ i n, (i, n) ∈ [((.stageS0 true us : Instr), 0), (.rootLockRetry true us, 0), (.stageS1 true true true true [] us, 1),
        (.stageS2 true [] us, 2), (.stageS3 0x3F 0 us, 3), (.stageS4 (BitVec.allOnes 32) 0 [] 0 us, 4),
        (.stageS5 [] us, 5), (.retentionWaitExpiry 0 0 us, 5), (.stageS6 us, 6), (.stageS7 us, 7), (.stageS8 us, 8)] →
      s.stageDue n = false → exec i s = .next s)

/-! ## Flash, quotes, the event ring and BAR0 (chapters 15, 17 and 18) -/

/-- Flash commands read, program and erase or are refused with OPERAND_RANGE, a quote is written to state memory with
its ML-DSA signature by the device key, the event ring takes the events held since start-up when it is first enabled
(R356, R370, R381, R385, R401, R402, R408). A flash command that is not due leaves the state as it is (assumption
logs 6 and 88); ML-DSA.Sign is FIPS 204's (assumption log 103, PRESUMED), and its random bytes are free (log 88).
Where the rules leave a point open this states the model's choice (assumption log 6, 88, 98, 103). -/
def Obligations.FlashQuotesAndEvents : Prop :=
  ∀ (s : State) (v : Word),
    let addr := fld v 63 32
    let len := if 1 ≤ fld v 12 0 ∧ fld v 12 0 ≤ 4096 then fld v 12 0 else s.regFld 0x600200 12 0
    let due := s.boot.started = true ∧ 2 ≤ s.boot.stage ∧ s.regBit 0x600208 0 = false
    let status := fun (t : State) (st : Status) => t.regFld 0x600208 63 48 = st.toNat ∧ t.mem = s.mem ∧ t.parts = s.parts
    let byte := fun (t : State) (a : Nat) => memByte t.boot.flash a
    (∀ i k, (i, k) ∈ [((.read v : Instr), 0), (.program v, 1), (.erase4k v, 2)] →
      (¬due → exec i s = .next s) ∧
      (due → s.flashRefused k addr len = true → ∃ t, exec i s = .next t ∧ status t St.operandRange ∧ t.boot = s.boot)) ∧
    (due → s.flashRefused 0 addr len = false → ∃ t, exec (.read v) s = .next t ∧ status t St.ok ∧ t.boot = s.boot ∧
      t.flashBuf len = memRead s.boot.flash addr len) ∧
    (due → s.flashRefused 1 addr len = false → ∃ t, exec (.program v) s = .next t ∧ status t St.ok ∧
      (∀ i, i < len → byte s (addr + i) = 0xFF → byte t (addr + i) = (s.flashBuf len).getD i 0) ∧
      ∀ a, a < addr ∨ addr + len ≤ a → byte t a = byte s a) ∧
    (due → s.flashRefused 2 addr len = false → ∃ t, exec (.erase4k v) s = .next t ∧ status t St.ok ∧
      ∀ a, byte t a = if a / 4096 = addr / 4096 then 0xFF else byte s a) ∧
    (let to_ := s.regFld 0x600140 41 0
     let may := s.boot.ready = true ∧ s.regBit 0x600148 1 = false
     let ends := fun (t : State) (st : Status) => t.regFld 0x600148 63 48 = st.toNat
     (¬may → exec .quoteGo s = .next s) ∧
     (may → s.boot.idOk = false → ∃ t, exec .quoteGo s = .next t ∧ ends t St.idUnavailable ∧ t.mem = s.mem) ∧
     (may → s.boot.idOk = true → s.quotePages to_ = false → ∃ t, exec .quoteGo s = .next t ∧ ends t St.operandRange ∧
       t.mem = s.mem) ∧
     (∀ pl,
       let sig := (MlDsa.sign (MlDsa.keyGen s.boot.deviceSeed) ((List.range 32).map (Config.signRandom s.freeCount))
         [0x4D, 0x58, 0x31, 0x51] (sha3_512 s.quoteBody)).getD ((List.range sigBytes).map (Config.noSignature s.freeCount))
       let q := s.quoteBody ++ sig
       may → s.boot.idOk = true → s.quotePages to_ = true → to_ % 2 ^ 21 + q.length ≤ 2 ^ 21 →
       s.Served to_ pl → ∃ t, exec .quoteGo s = .next t ∧ ends t St.ok ∧ t.mem.bytes pl.far pl.key q.length = q)) ∧
    (s.boot.ready = false → ∀ x, exec (.evtHeadDb x) s = .next s ∧ exec (.evtRingEnable v) s = .next s) ∧
    (∀ x : BitVec 16, s.boot.ready = true →
      (x.toNat < s.evtSize → ∃ t, exec (.evtHeadDb x) s = .next t ∧ t = { s with bar0 := t.bar0 } ∧
        t.regFld 0x708018 15 0 = x.toNat ∧ s.RegsBut t [0x708018]) ∧
      (s.evtSize ≤ x.toNat → ∃ t, exec (.evtHeadDb x) s = .next t ∧ s.Raised t Ev.doorbellRange ∧
        t.regFld 0x708018 15 0 = s.regFld 0x708018 15 0)) ∧
    (let o := 0x708008
     let enables := s.regBit o 5 = false ∧ v.getLsbD 5 = true
     s.boot.ready = true → (∃ t, exec (.evtRingEnable v) s = .next t ∧ s.OnlyEvents t ∧ t.regBit o 5 = v.getLsbD 5 ∧
       t.regFld o 4 0 = (if s.regBit o 5 = true ∨ fld v 4 0 < 4 ∨ 16 < fld v 4 0 then s.regFld o 4 0 else fld v 4 0) ∧
       (enables → t.events.everEnabled = true ∧ t.regFld 0x708018 15 0 = 0 ∧
         (s.events.everEnabled = true ∨ s.events.bootQueue = [] → t.regFld 0x708010 15 0 = 0 ∧ t.events.phase = true) ∧
         (s.events.everEnabled = false → t.events.bootQueue = [])) ∧
       (¬enables → t.events = s.events ∧ t.host = s.host ∧ s.RegsBut t [o]) ∧
       ∀ e, enables → s.events.everEnabled = false → s.events.bootQueue = [e] → 4 ≤ t.regFld o 4 0 →
         t.regFld o 33 32 ≤ evSeverity e.event → t.regFld 0x708010 15 0 = 1 ∧
           t.host.mem = memWrite s.host.mem (s.reg 0x708000).toNat (evRecBytes s.fab.node true e)))

/-- BAR0: a write of another size or alignment, or of 4 bytes to a command, is ignored with the event; a register
with a command takes the command of its row; a range keeps a field; a read answers the value, its latched high half,
and clears a read-to-clear field (R304, R305, R351, R370, R411 to R416). Where the rules leave a point open this
states the model's choice (assumption log 80, 81, 82). -/
def Obligations.RegisterAccess : Prop :=
  ∀ (s : State),
    let writes := fun (off size : Nat) (v : Word) => exec (.registerWrite 0 off size v) s
    let reads := fun (s : State) (off size : Nat) => exec (.rcRegisterRead 0 off size) s
    let answer := fun (t : State) (w : Option Word) => t.host.regAnswer = some w
    let open_ := s.boot.ready = true
    (∀ (fn : Fin 17) off size v, s.fnOn fn.val = false →
      exec (.registerWrite fn off size v) s = .next s ∧ exec (.rcRegisterRead fn off size) s = .next s) ∧
    (∀ off size v, s.answers off = false → (size = 4 ∨ size = 8) → off % size = 0 → writes off size v = .next s) ∧
    (∀ (fn : Fin 17) off size v, s.fnOn fn.val = true → (size ≠ 4 ∧ size ≠ 8 ∨ off % size ≠ 0) →
      (off < (if fn.val = 0 then 0x4000000 else 0x20000) →
        ∃ t, exec (.registerWrite fn off size v) s = .next t ∧ s.Raised t Ev.writeIgnored ∧ s.OnlyEvents t) ∧
      ∃ t, exec (.rcRegisterRead fn off size) s = .next t ∧ answer t none ∧ t.bar0 = s.bar0) ∧
    (∀ off size v, s.answers off = true → (size = 4 ∨ size = 8) → off % size = 0 → off < 0x4000000 → isForward off = false →
      regFields (off / 8 * 8) = none → writes off size v = .next s ∧ ∃ t, reads s off size = .next t ∧
        answer t (some 0) ∧ t.bar0 = s.bar0) ∧
    (∀ off v, open_ → isCommand off = true → off % 8 = 0 → ∃ t, writes off 4 v = .next t ∧ s.Raised t Ev.writeIgnored ∧
      s.OnlyEvents t) ∧
    (∀ v, open_ →
      (∃ t, writes 0x10 8 v = .next t ∧ t = { s with bar0 := t.bar0 } ∧ s.RegsBut t [0x10] ∧ t.reg 0x10 = v) ∧
      (∀ off, off = 0x10 ∨ off = 0x14 → ∃ t, writes off 4 v = .next t ∧ s.Raised t Ev.writeIgnored ∧ s.OnlyEvents t ∧
        t.reg 0x10 = s.reg 0x10) ∧
      (∃ t, writes 0x2008 4 v = .next t ∧ t = { s with bar0 := t.bar0 } ∧ s.RegsBut t [0x2008] ∧
        t.regFld 0x2008 9 0 = (if 1 ≤ fld v 9 0 ∧ fld v 9 0 ≤ 1000 then fld v 9 0 else s.regFld 0x2008 9 0) ∧
        t.regFld 0x2008 63 32 = s.regFld 0x2008 63 32) ∧
      (∃ t, writes 0x200C 4 v = .next t ∧ t = { s with bar0 := t.bar0 } ∧ s.RegsBut t [0x2008] ∧
        t.regFld 0x2008 39 32 = (if 2 ≤ fld v 7 0 then fld v 7 0 else s.regFld 0x2008 39 32) ∧
        t.regFld 0x2008 31 0 = s.regFld 0x2008 31 0) ∧
      (∃ t, writes 0x2000 8 v = .next t ∧ t = { s with bar0 := t.bar0 } ∧ s.RegsBut t [0x2000] ∧
        t.regFld 0x2000 5 0 = (if 4 ≤ fld v 5 0 then fld v 5 0 else s.regFld 0x2000 5 0) ∧
        t.regFld 0x2000 34 24 = (if 1 ≤ fld v 34 24 ∧ fld v 34 24 ≤ 1024 then fld v 34 24 else s.regFld 0x2000 34 24)) ∧
      (∃ t, writes 0 8 v = .next t ∧ s.RegsBut t []) ∧
      (∃ t, writes 0x800 8 v = .next t ∧ s.RegsBut t [0x800] ∧
        t.reg 0x800 = if v.getLsbD 37 then setFld (s.reg 0x800) 37 37 0 else s.reg 0x800)) ∧
    (∀ d p, ∀ v, open_ → d < 1024 → p < 8 → ∃ t, writes (0x308000 + 4 * d) 4 v = .next t ∧
      t = { s with fab := { s.fab with fwd := t.fab.fwd } } ∧
      (∀ e, e ≠ d → t.fwdEntry e = s.fwdEntry e) ∧ fld (t.fwdEntry d) (4 * p + 3) (4 * p) =
        let x := fld v (4 * p + 3) (4 * p)
        if x ≤ 8 ∨ x = 15 then x else fld (s.fwdEntry d) (4 * p + 3) (4 * p)) ∧
    (∀ (p : PartId) v, open_ →
      (∀ i k, (i, k) ∈ [((.assign p v : Instr), 1), (.switchOut p v, 2), (.switchIn p v, 3), (.release p v, 4),
        (.offline p v, 5), (.retest p v, 6), (.online p v, 7)] → fld v 3 0 = k → writes (ptBase p) 8 v = exec i s) ∧
      (8 ≤ fld v 3 0 → writes (ptBase p) 8 v = exec (.ptCtlReservedOp p v) s) ∧
      writes 0x500208 8 v = exec (.go v) s ∧ writes (pcfgOff p) 8 v = exec (.nbuPcfgWrite p v) s ∧
      (v.getLsbD 0 = true → writes 0x600148 8 v = exec .quoteGo s) ∧
      writes 0x708008 8 v = exec (.evtRingEnable v) s ∧
      (∀ (k : PortId), writes (gateOff k) 8 v = exec (.change k v) s) ∧
      (∀ i k, (i, k) ∈ [((.map v : Instr), 0), (.unmap v, 1), (.clearPoison v, 2), (.mapZero v, 3)] → fld v 63 62 = k →
        writes 0x208018 8 v = exec i s)) ∧
    (open_ → ∃ t, reads s 0 8 = .next t ∧ answer t (some (s.reg 0 &&& 0xFFFFFFFF00FFF0FF)) ∧ t.bar0 = s.bar0) ∧
    (∀ (fn : Fin 17) off a fs,
      let w := s.view a &&& fieldsMask fs
      let read := fun (u : State) (o size : Nat) => exec (.rcRegisterRead fn o size) u
      s.fnOn fn.val = true → bar0Place fn.val off = some a → a % 8 = 0 → off % 8 = 0 → s.answers a = true →
      isForward a = false → placeFields a = some fs →
      (∃ t, read s off 8 = .next t ∧ answer t (some w) ∧ s.RegsBut t [a] ∧
        (∀ hi lo, .rc hi lo ∈ fs → fld (t.reg a) hi lo = 0) ∧ (hasRc fs = false → t.bar0 = s.bar0)) ∧
      (∃ t, read s off 4 = .next t ∧ answer t (some (BitVec.ofNat 64 (fld w 31 0))) ∧ s.RegsBut t [a] ∧
        (∀ hi lo, .rc hi lo ∈ fs → fld (t.reg a) hi lo = 0) ∧ (hasRc fs = false → t.bar0 = s.bar0) ∧
        (latches fs = true → ∀ u : State, u.host = t.host → u.boot = t.boot → ∃ x, read u (off + 4) 4 = .next x ∧
          answer x (some (BitVec.ofNat 64 (fld w 63 32))))) ∧
      ∃ t, read s (off + 4) 4 = .next t ∧ t.bar0 = s.bar0 ∧
        (s.latched fn.val (off + 4) = none → answer t (some (BitVec.ofNat 64 (fld w 63 32)))))

/-- A 4-byte read of the low half of a register whose fields are RO or RC latches its high half as it is then, which
the next read of the high half by the same function returns, whatever has become of the register and whatever other
functions read; an RC field is cleared by an 8-byte read or a read of the low half, and never by one of the high half
(R413). Where the rules leave a point open this states the model's choice (assumption log 80, 82). -/
def Obligations.LowReadsLatchHighHalf : Prop :=
  ∀ (s : State) (fn : Fin 17) (off a : Nat) (fs : List RegField),
    let w := s.view a &&& fieldsMask fs
    let read := fun (f : Fin 17) (u : State) (o size : Nat) => exec (.rcRegisterRead f o size) u
    let answer := fun (t : State) (x : Nat) => t.host.regAnswer = some (some (BitVec.ofNat 64 x))
    let latch := fun (u : State) => tabGet (fun _ => 0) u.host.latch fn.val
    s.fnOn fn.val = true → bar0Place fn.val off = some a → a % 8 = 0 → off % 8 = 0 → s.answers a = true →
    isForward a = false → placeFields a = some fs → latches fs = true →
    (∃ t, read fn s off 4 = .next t ∧ answer t (fld w 31 0) ∧ (∀ hi lo, .rc hi lo ∈ fs → fld (t.reg a) hi lo = 0) ∧
      (∀ u : State, latch u = latch t → u.boot = t.boot → u.fnOn fn.val = true →
        ∃ x, read fn u (off + 4) 4 = .next x ∧ answer x (fld w 63 32) ∧ x.bar0 = u.bar0) ∧
      ∀ (f : Fin 17) o size, f ≠ fn → ∃ u, read f t o size = .next u ∧ latch u = latch t ∧ u.boot = t.boot) ∧
    (∃ t, read fn s off 8 = .next t ∧ answer t w.toNat ∧ ∀ hi lo, .rc hi lo ∈ fs → fld (t.reg a) hi lo = 0) ∧
    ∃ t, read fn s (off + 4) 4 = .next t ∧ t.bar0 = s.bar0

/-! ## Pins, supply and boundary scan (chapter 19) -/

/-- The die temperatures drive THERM_ALERT_N, a VDD_HUB request for the hottest die's reading moves 5 mV at most and
is known when acknowledged, each whole second of fabric time pulses PPS_OUT once, SMBus, from the end of S0, writes
TEMP_HIGH in its range, and the boundary-scan instructions that drive or float pins take effect while SYS_RST_N is
low only (R420, R430, R434, R436, R438, R441, R442). A command that is not due leaves the state as it is (assumption
logs 6 and 89). Where the rules leave a point open this states the model's choice (assumption log 6, 89). -/
def Obligations.PinsAndBoundaryScan : Prop :=
  ∀ (s : State),
    let clocked := s.boot.started = true ∧ 1 ≤ s.boot.stage
    let reading := fun (l : List (BitVec 16)) (k : Nat) => (l.getD k 0x8000).toNat
    let hottest := fun (l : List (BitVec 16)) => ((List.range 7).map fun k => (l.getD k 0x8000).toInt).foldl max (-32768)
    (∀ l,
      let hi := s.board.tempHigh.toInt
      let alert := hi ≤ hottest l
      (¬clocked → exec (.tempRefresh l) s = .next s) ∧
      (clocked → ∃ t, exec (.tempRefresh l) s = .next t ∧
        (∀ k, k < 4 → t.regFld 0x818 (16 * k + 15) (16 * k) = reading l k) ∧
        (∀ k, k < 3 → t.regFld 0x820 (16 * k + 15) (16 * k) = reading l (k + 4)) ∧
        t.pins.thermAlertN = (if alert then false else if hottest l ≤ hi - 40 then true else s.pins.thermAlertN) ∧
        (alert → s.pins.thermAlertN = true → t.pins.smbAlertN = false) ∧ t.board = s.board ∧
        (s.board.unacked = false → s.RegsBut t [0x818, 0x820] ∧ t.parts = s.parts ∧ t.events = s.events))) ∧
    (∀ acked (temp : BitVec 16),
      let b := s.board
      let aim := max 700 (min 800 (Config.speedMonitorMillivolts (min (temp.toInt + 80) 840) + 15))
      let want := if b.hubMv < aim then min aim (b.hubMv + 5) else max aim (b.hubMv - 5)
      let due := clocked ∧ b.avsOn = true ∧ temp.toInt = s.hottest
      (¬due → exec (.avsAdjust acked temp) s = .next s) ∧
      (due → ∃ t, exec (.avsAdjust acked temp) s = .next t ∧ t.board.wantMv = want ∧
        t.board.hubMv = (if acked then want else b.hubMv) ∧ t.board.unacked = (!acked) ∧
        t.board.covers = (if acked = true ∧ aim ≤ want then min (temp.toInt + 80) 840 else b.covers) ∧
        (acked = true ∨ want ≤ b.hubMv ∨ temp.toInt < b.covers → t = { s with board := t.board }) ∧
        (acked = false → b.hubMv < want → b.covers ≤ temp.toInt → t.regBit 0x708020 1 = true ∧
          (s.regBit 0x708020 1 = false → t.pins.faultN = false ∧
            t.regFld 0x708020 63 48 = Ev.hubVoltage.toNat)))) ∧
    (let sec := s.pins.fabNs / 1000000000
     let due := clocked ∧ sec ≠ s.pins.ppsAt
     (due → exec .ppsPulse s = .next { s with pins := { s.pins with pps := s.pins.pps + 1, ppsAt := sec } }) ∧
     (¬due → exec .ppsPulse s = .next s)) ∧
    (∀ v : BitVec 16,
      let ok := s.board.smbusUp = true ∧ 0x280 ≤ v.toNat ∧ v.toNat ≤ 0x348
      (¬ok → exec (.smbusTempHighWrite v) s = .next s) ∧
      (ok → ∃ t, exec (.smbusTempHighWrite v) s = .next t ∧ t.board = { s.board with tempHigh := v } ∧
        (¬clocked → t.pins = s.pins) ∧ (clocked → t.pins.thermAlertN = (if v.toInt ≤ s.hottest then false else if s.hottest ≤ v.toInt - 40 then true
          else s.pins.thermAlertN)) ∧ t.bar0 = s.bar0)) ∧
    (s.board.smbusUp = true → exec .smbusAlertResponse s = .next { s with pins := { s.pins with smbAlertN := true } }) ∧
    (s.board.smbusUp = false → exec .smbusAlertResponse s = .next s) ∧
    (∀ cells, s.pins.pwrGood = false → ∀ i ∈ [(.bypass : Instr), .idcode, .samplePreload cells, .extest, .clamp, .highz,
      .extestPulse, .extestTrain], exec i s = .next s) ∧
    (∀ i j driven floating, (i, j, driven, floating) ∈ [((.extest : Instr), JtagInsn.extest, true, false),
        (.clamp, .clamp, true, false), (.highz, .highz, false, true), (.extestPulse, .extestPulse, true, false),
        (.extestTrain, .extestTrain, true, false)] → s.pins.pwrGood = true → ∃ t, exec i s = .next t ∧
      t = { s with jtag := { t.jtag with cells := s.jtag.cells } } ∧ t.jtag.insn = j ∧
      (s.pins.sysRstN = false → t.jtag.effect = j ∧ t.jtag.driven = driven ∧ t.jtag.floating = floating) ∧
      (s.pins.sysRstN = true → t.jtag.effect = .bypass ∧ t.jtag.driven = false ∧ t.jtag.floating = false)) ∧
    (∀ cells, ∀ i j x w, (i, j, x, w) ∈ [((.bypass : Instr), JtagInsn.bypass, s.jtag.cells, (0 : BitVec 32)),
        (.idcode, .idcode, s.jtag.cells, BitVec.ofNat 32 (0x2A450001 + 2 * Config.jep106.toNat)),
        (.samplePreload cells, .samplePreload, cells, 0)] → s.pins.pwrGood = true →
      exec i s = .next { s with jtag := { insn := j, effect := j, data := w, cells := x, driven := false,
                                          floating := false } })

/-! ## Reset, and what every step keeps -/

/-- Right after reset every memory and register file is in its canonical form and every FIFO within its bounds.
Registers hold the values that the register tables give for reset; an offset that no table defines holds 0; no memory
lists a byte, every partition is VACANT and its drover RESET (R417, Tables 3.8, 10.7, 11.7, 12.6, 13.6, 14.6, 17.8,
18.3). Where the rules leave a point open this states the model's choice (assumption log 2, 4). -/
def Obligations.ResetState : Prop :=
  (State.reset.Canon ∧ State.reset.Bounded ∧ State.reset.pending = []) ∧
  (let s := State.reset
  s.reg 0 = 0x0000A45000212033 ∧ s.reg 0x818 = 0x8000800080008000 ∧ s.reg 0x820 = 0x0000800080008000 ∧
    s.regFld 0x2000 57 48 = 10 ∧ s.regFld 0x2000 45 36 = 20 ∧ s.regFld 0x2000 34 24 = 64 ∧ s.regFld 0x2000 22 8 = 2048 ∧
    s.regFld 0x2000 5 0 = 24 ∧
    (∀ r, r < 64 → s.reg (sqOff r + 8) = 4 ∧ s.reg (cqOff r + 8) = 4 ∧ s.reg (sqOff r) = 0 ∧ s.reg (cqOff r) = 0) ∧
    (∀ (k : PortId) c, c < 8 → bkRate (s.reg (shpOff k c)) = 80000 ∧ bkBurst (s.reg (shpOff k c)) = 1024 ∧
      bkEn (s.reg (shpOff k c)) = false) ∧
    (∀ k, k < 8 → s.reg (0x30C000 + 0x10 * k) = 0x080808080808) ∧ s.reg 0x32F000 = 1 ∧
    (∀ p : PartId, s.regFld (pcfgOff p) 10 8 = 2 * (p.val % 4) ∧ s.regFld (pcfgOff p) 18 16 = 2 * (p.val % 4) + 1) ∧
    (∀ o, o % 8 = 0 → regFields o = none → s.reg o = 0) ∧
    (∀ p : PartId, (s.part p).st = .vacant ∧ (s.drv p).dstate = .reset ∧ (s.part p).hsram = []) ∧ s.mem.near = [] ∧
    s.mem.far = [] ∧ s.spt = [])

/-- No step breaks the canonical form of a memory or a register file: equal contents stay equal data. Where the rules
leave a point open this states the model's choice (assumption log 4). -/
def Obligations.StepKeepsCanon : Prop :=
 ∀ s t : State, s.Canon → step s = .next t → t.Canon

/-- No step overfills a FIFO: the fault queue, the call stack and the nine instruction queues of every drover, also
of a job switched out, and the events held until the event ring is first enabled (R79, R97, R402). -/
def Obligations.StepKeepsBounded : Prop :=
 ∀ s t : State, s.Bounded → step s = .next t → t.Bounded
end

