-- ==== Sys2Proof/Laws/State.lean ====
section
/-! SUPPORT. One lemma for each field of the state and each update: what the update leaves alone, true by unfolding,
so that no later proof unfolds a record update; and what a register, a partition or a drover reads after a write. -/

namespace Sys2Proof.Machine

/-! ### setReg -/

@[simp] theorem State.setReg_pending (s : State) (o : Nat) (w : Word) : (s.setReg o w).pending = s.pending := rfl
@[simp] theorem State.setReg_pins (s : State) (o : Nat) (w : Word) : (s.setReg o w).pins = s.pins := rfl
@[simp] theorem State.setReg_parts (s : State) (o : Nat) (w : Word) : (s.setReg o w).parts = s.parts := rfl
@[simp] theorem State.setReg_saves (s : State) (o : Nat) (w : Word) : (s.setReg o w).saves = s.saves := rfl
@[simp] theorem State.setReg_remotePosts (s : State) (o : Nat) (w : Word) : (s.setReg o w).remotePosts = s.remotePosts := rfl
@[simp] theorem State.setReg_heldCtl (s : State) (o : Nat) (w : Word) : (s.setReg o w).heldCtl = s.heldCtl := rfl
@[simp] theorem State.setReg_mem (s : State) (o : Nat) (w : Word) : (s.setReg o w).mem = s.mem := rfl
@[simp] theorem State.setReg_spt (s : State) (o : Nat) (w : Word) : (s.setReg o w).spt = s.spt := rfl
@[simp] theorem State.setReg_tier (s : State) (o : Nat) (w : Word) : (s.setReg o w).tier = s.tier := rfl
@[simp] theorem State.setReg_mus (s : State) (o : Nat) (w : Word) : (s.setReg o w).mus = s.mus := rfl
@[simp] theorem State.setReg_cxl (s : State) (o : Nat) (w : Word) : (s.setReg o w).cxl = s.cxl := rfl
@[simp] theorem State.setReg_pools (s : State) (o : Nat) (w : Word) : (s.setReg o w).pools = s.pools := rfl
@[simp] theorem State.setReg_parked (s : State) (o : Nat) (w : Word) : (s.setReg o w).parked = s.parked := rfl
@[simp] theorem State.setReg_ports (s : State) (o : Nat) (w : Word) : (s.setReg o w).ports = s.ports := rfl
@[simp] theorem State.setReg_fab (s : State) (o : Nat) (w : Word) : (s.setReg o w).fab = s.fab := rfl
@[simp] theorem State.setReg_mgr (s : State) (o : Nat) (w : Word) : (s.setReg o w).mgr = s.mgr := rfl
@[simp] theorem State.setReg_host (s : State) (o : Nat) (w : Word) : (s.setReg o w).host = s.host := rfl
@[simp] theorem State.setReg_adapters (s : State) (o : Nat) (w : Word) : (s.setReg o w).adapters = s.adapters := rfl
@[simp] theorem State.setReg_meter (s : State) (o : Nat) (w : Word) : (s.setReg o w).meter = s.meter := rfl
@[simp] theorem State.setReg_events (s : State) (o : Nat) (w : Word) : (s.setReg o w).events = s.events := rfl
@[simp] theorem State.setReg_boot (s : State) (o : Nat) (w : Word) : (s.setReg o w).boot = s.boot := rfl
@[simp] theorem State.setReg_board (s : State) (o : Nat) (w : Word) : (s.setReg o w).board = s.board := rfl
@[simp] theorem State.setReg_jtag (s : State) (o : Nat) (w : Word) : (s.setReg o w).jtag = s.jtag := rfl
@[simp] theorem State.setReg_freeCount (s : State) (o : Nat) (w : Word) : (s.setReg o w).freeCount = s.freeCount := rfl
@[simp] theorem State.setReg_part (s : State) (o : Nat) (w : Word) (p' : PartId) : (s.setReg o w).part p' = s.part p' := rfl
@[simp] theorem State.setReg_drv (s : State) (o : Nat) (w : Word) (p' : PartId) : (s.setReg o w).drv p' = s.drv p' := rfl

/-! ### setRegFld -/

@[simp] theorem State.setRegFld_pending (s : State) (o hi lo v : Nat) : (s.setRegFld o hi lo v).pending = s.pending := rfl
@[simp] theorem State.setRegFld_pins (s : State) (o hi lo v : Nat) : (s.setRegFld o hi lo v).pins = s.pins := rfl
@[simp] theorem State.setRegFld_parts (s : State) (o hi lo v : Nat) : (s.setRegFld o hi lo v).parts = s.parts := rfl
@[simp] theorem State.setRegFld_saves (s : State) (o hi lo v : Nat) : (s.setRegFld o hi lo v).saves = s.saves := rfl
@[simp] theorem State.setRegFld_remotePosts (s : State) (o hi lo v : Nat) : (s.setRegFld o hi lo v).remotePosts = s.remotePosts := rfl
@[simp] theorem State.setRegFld_heldCtl (s : State) (o hi lo v : Nat) : (s.setRegFld o hi lo v).heldCtl = s.heldCtl := rfl
@[simp] theorem State.setRegFld_mem (s : State) (o hi lo v : Nat) : (s.setRegFld o hi lo v).mem = s.mem := rfl
@[simp] theorem State.setRegFld_spt (s : State) (o hi lo v : Nat) : (s.setRegFld o hi lo v).spt = s.spt := rfl
@[simp] theorem State.setRegFld_tier (s : State) (o hi lo v : Nat) : (s.setRegFld o hi lo v).tier = s.tier := rfl
@[simp] theorem State.setRegFld_mus (s : State) (o hi lo v : Nat) : (s.setRegFld o hi lo v).mus = s.mus := rfl
@[simp] theorem State.setRegFld_cxl (s : State) (o hi lo v : Nat) : (s.setRegFld o hi lo v).cxl = s.cxl := rfl
@[simp] theorem State.setRegFld_pools (s : State) (o hi lo v : Nat) : (s.setRegFld o hi lo v).pools = s.pools := rfl
@[simp] theorem State.setRegFld_parked (s : State) (o hi lo v : Nat) : (s.setRegFld o hi lo v).parked = s.parked := rfl
@[simp] theorem State.setRegFld_ports (s : State) (o hi lo v : Nat) : (s.setRegFld o hi lo v).ports = s.ports := rfl
@[simp] theorem State.setRegFld_fab (s : State) (o hi lo v : Nat) : (s.setRegFld o hi lo v).fab = s.fab := rfl
@[simp] theorem State.setRegFld_mgr (s : State) (o hi lo v : Nat) : (s.setRegFld o hi lo v).mgr = s.mgr := rfl
@[simp] theorem State.setRegFld_host (s : State) (o hi lo v : Nat) : (s.setRegFld o hi lo v).host = s.host := rfl
@[simp] theorem State.setRegFld_adapters (s : State) (o hi lo v : Nat) : (s.setRegFld o hi lo v).adapters = s.adapters := rfl
@[simp] theorem State.setRegFld_meter (s : State) (o hi lo v : Nat) : (s.setRegFld o hi lo v).meter = s.meter := rfl
@[simp] theorem State.setRegFld_events (s : State) (o hi lo v : Nat) : (s.setRegFld o hi lo v).events = s.events := rfl
@[simp] theorem State.setRegFld_boot (s : State) (o hi lo v : Nat) : (s.setRegFld o hi lo v).boot = s.boot := rfl
@[simp] theorem State.setRegFld_board (s : State) (o hi lo v : Nat) : (s.setRegFld o hi lo v).board = s.board := rfl
@[simp] theorem State.setRegFld_jtag (s : State) (o hi lo v : Nat) : (s.setRegFld o hi lo v).jtag = s.jtag := rfl
@[simp] theorem State.setRegFld_freeCount (s : State) (o hi lo v : Nat) : (s.setRegFld o hi lo v).freeCount = s.freeCount := rfl
@[simp] theorem State.setRegFld_part (s : State) (o hi lo v : Nat) (p' : PartId) : (s.setRegFld o hi lo v).part p' = s.part p' := rfl
@[simp] theorem State.setRegFld_drv (s : State) (o hi lo v : Nat) (p' : PartId) : (s.setRegFld o hi lo v).drv p' = s.drv p' := rfl

/-! ### addReg -/

@[simp] theorem State.addReg_pending (s : State) (o n : Nat) : (s.addReg o n).pending = s.pending := rfl
@[simp] theorem State.addReg_pins (s : State) (o n : Nat) : (s.addReg o n).pins = s.pins := rfl
@[simp] theorem State.addReg_parts (s : State) (o n : Nat) : (s.addReg o n).parts = s.parts := rfl
@[simp] theorem State.addReg_saves (s : State) (o n : Nat) : (s.addReg o n).saves = s.saves := rfl
@[simp] theorem State.addReg_remotePosts (s : State) (o n : Nat) : (s.addReg o n).remotePosts = s.remotePosts := rfl
@[simp] theorem State.addReg_heldCtl (s : State) (o n : Nat) : (s.addReg o n).heldCtl = s.heldCtl := rfl
@[simp] theorem State.addReg_mem (s : State) (o n : Nat) : (s.addReg o n).mem = s.mem := rfl
@[simp] theorem State.addReg_spt (s : State) (o n : Nat) : (s.addReg o n).spt = s.spt := rfl
@[simp] theorem State.addReg_tier (s : State) (o n : Nat) : (s.addReg o n).tier = s.tier := rfl
@[simp] theorem State.addReg_mus (s : State) (o n : Nat) : (s.addReg o n).mus = s.mus := rfl
@[simp] theorem State.addReg_cxl (s : State) (o n : Nat) : (s.addReg o n).cxl = s.cxl := rfl
@[simp] theorem State.addReg_pools (s : State) (o n : Nat) : (s.addReg o n).pools = s.pools := rfl
@[simp] theorem State.addReg_parked (s : State) (o n : Nat) : (s.addReg o n).parked = s.parked := rfl
@[simp] theorem State.addReg_ports (s : State) (o n : Nat) : (s.addReg o n).ports = s.ports := rfl
@[simp] theorem State.addReg_fab (s : State) (o n : Nat) : (s.addReg o n).fab = s.fab := rfl
@[simp] theorem State.addReg_mgr (s : State) (o n : Nat) : (s.addReg o n).mgr = s.mgr := rfl
@[simp] theorem State.addReg_host (s : State) (o n : Nat) : (s.addReg o n).host = s.host := rfl
@[simp] theorem State.addReg_adapters (s : State) (o n : Nat) : (s.addReg o n).adapters = s.adapters := rfl
@[simp] theorem State.addReg_meter (s : State) (o n : Nat) : (s.addReg o n).meter = s.meter := rfl
@[simp] theorem State.addReg_events (s : State) (o n : Nat) : (s.addReg o n).events = s.events := rfl
@[simp] theorem State.addReg_boot (s : State) (o n : Nat) : (s.addReg o n).boot = s.boot := rfl
@[simp] theorem State.addReg_board (s : State) (o n : Nat) : (s.addReg o n).board = s.board := rfl
@[simp] theorem State.addReg_jtag (s : State) (o n : Nat) : (s.addReg o n).jtag = s.jtag := rfl
@[simp] theorem State.addReg_freeCount (s : State) (o n : Nat) : (s.addReg o n).freeCount = s.freeCount := rfl
@[simp] theorem State.addReg_part (s : State) (o n : Nat) (p' : PartId) : (s.addReg o n).part p' = s.part p' := rfl
@[simp] theorem State.addReg_drv (s : State) (o n : Nat) (p' : PartId) : (s.addReg o n).drv p' = s.drv p' := rfl

/-! ### perf -/

@[simp] theorem State.perf_pending (s : State) (p : PartId) (i : Nat) : (s.perf p i).pending = s.pending := State.addReg_pending s _ _
@[simp] theorem State.perf_pins (s : State) (p : PartId) (i : Nat) : (s.perf p i).pins = s.pins := State.addReg_pins s _ _
@[simp] theorem State.perf_parts (s : State) (p : PartId) (i : Nat) : (s.perf p i).parts = s.parts := State.addReg_parts s _ _
@[simp] theorem State.perf_saves (s : State) (p : PartId) (i : Nat) : (s.perf p i).saves = s.saves := State.addReg_saves s _ _
@[simp] theorem State.perf_remotePosts (s : State) (p : PartId) (i : Nat) : (s.perf p i).remotePosts = s.remotePosts := State.addReg_remotePosts s _ _
@[simp] theorem State.perf_heldCtl (s : State) (p : PartId) (i : Nat) : (s.perf p i).heldCtl = s.heldCtl := State.addReg_heldCtl s _ _
@[simp] theorem State.perf_mem (s : State) (p : PartId) (i : Nat) : (s.perf p i).mem = s.mem := State.addReg_mem s _ _
@[simp] theorem State.perf_spt (s : State) (p : PartId) (i : Nat) : (s.perf p i).spt = s.spt := State.addReg_spt s _ _
@[simp] theorem State.perf_tier (s : State) (p : PartId) (i : Nat) : (s.perf p i).tier = s.tier := State.addReg_tier s _ _
@[simp] theorem State.perf_mus (s : State) (p : PartId) (i : Nat) : (s.perf p i).mus = s.mus := State.addReg_mus s _ _
@[simp] theorem State.perf_cxl (s : State) (p : PartId) (i : Nat) : (s.perf p i).cxl = s.cxl := State.addReg_cxl s _ _
@[simp] theorem State.perf_pools (s : State) (p : PartId) (i : Nat) : (s.perf p i).pools = s.pools := State.addReg_pools s _ _
@[simp] theorem State.perf_parked (s : State) (p : PartId) (i : Nat) : (s.perf p i).parked = s.parked := State.addReg_parked s _ _
@[simp] theorem State.perf_ports (s : State) (p : PartId) (i : Nat) : (s.perf p i).ports = s.ports := State.addReg_ports s _ _
@[simp] theorem State.perf_fab (s : State) (p : PartId) (i : Nat) : (s.perf p i).fab = s.fab := State.addReg_fab s _ _
@[simp] theorem State.perf_mgr (s : State) (p : PartId) (i : Nat) : (s.perf p i).mgr = s.mgr := State.addReg_mgr s _ _
@[simp] theorem State.perf_host (s : State) (p : PartId) (i : Nat) : (s.perf p i).host = s.host := State.addReg_host s _ _
@[simp] theorem State.perf_adapters (s : State) (p : PartId) (i : Nat) : (s.perf p i).adapters = s.adapters := State.addReg_adapters s _ _
@[simp] theorem State.perf_meter (s : State) (p : PartId) (i : Nat) : (s.perf p i).meter = s.meter := State.addReg_meter s _ _
@[simp] theorem State.perf_events (s : State) (p : PartId) (i : Nat) : (s.perf p i).events = s.events := State.addReg_events s _ _
@[simp] theorem State.perf_boot (s : State) (p : PartId) (i : Nat) : (s.perf p i).boot = s.boot := State.addReg_boot s _ _
@[simp] theorem State.perf_board (s : State) (p : PartId) (i : Nat) : (s.perf p i).board = s.board := State.addReg_board s _ _
@[simp] theorem State.perf_jtag (s : State) (p : PartId) (i : Nat) : (s.perf p i).jtag = s.jtag := State.addReg_jtag s _ _
@[simp] theorem State.perf_freeCount (s : State) (p : PartId) (i : Nat) : (s.perf p i).freeCount = s.freeCount := State.addReg_freeCount s _ _
@[simp] theorem State.perf_part (s : State) (p : PartId) (i : Nat) (p' : PartId) : (s.perf p i).part p' = s.part p' := State.addReg_part s _ _ p'
@[simp] theorem State.perf_drv (s : State) (p : PartId) (i : Nat) (p' : PartId) : (s.perf p i).drv p' = s.drv p' := State.addReg_drv s _ _ p'

/-! ### setPart -/

@[simp] theorem State.setPart_pending (s : State) (p : PartId) (x : Part) : (s.setPart p x).pending = s.pending := rfl
@[simp] theorem State.setPart_pins (s : State) (p : PartId) (x : Part) : (s.setPart p x).pins = s.pins := rfl
@[simp] theorem State.setPart_bar0 (s : State) (p : PartId) (x : Part) : (s.setPart p x).bar0 = s.bar0 := rfl
@[simp] theorem State.setPart_saves (s : State) (p : PartId) (x : Part) : (s.setPart p x).saves = s.saves := rfl
@[simp] theorem State.setPart_remotePosts (s : State) (p : PartId) (x : Part) : (s.setPart p x).remotePosts = s.remotePosts := rfl
@[simp] theorem State.setPart_heldCtl (s : State) (p : PartId) (x : Part) : (s.setPart p x).heldCtl = s.heldCtl := rfl
@[simp] theorem State.setPart_mem (s : State) (p : PartId) (x : Part) : (s.setPart p x).mem = s.mem := rfl
@[simp] theorem State.setPart_spt (s : State) (p : PartId) (x : Part) : (s.setPart p x).spt = s.spt := rfl
@[simp] theorem State.setPart_tier (s : State) (p : PartId) (x : Part) : (s.setPart p x).tier = s.tier := rfl
@[simp] theorem State.setPart_mus (s : State) (p : PartId) (x : Part) : (s.setPart p x).mus = s.mus := rfl
@[simp] theorem State.setPart_cxl (s : State) (p : PartId) (x : Part) : (s.setPart p x).cxl = s.cxl := rfl
@[simp] theorem State.setPart_pools (s : State) (p : PartId) (x : Part) : (s.setPart p x).pools = s.pools := rfl
@[simp] theorem State.setPart_parked (s : State) (p : PartId) (x : Part) : (s.setPart p x).parked = s.parked := rfl
@[simp] theorem State.setPart_ports (s : State) (p : PartId) (x : Part) : (s.setPart p x).ports = s.ports := rfl
@[simp] theorem State.setPart_fab (s : State) (p : PartId) (x : Part) : (s.setPart p x).fab = s.fab := rfl
@[simp] theorem State.setPart_mgr (s : State) (p : PartId) (x : Part) : (s.setPart p x).mgr = s.mgr := rfl
@[simp] theorem State.setPart_host (s : State) (p : PartId) (x : Part) : (s.setPart p x).host = s.host := rfl
@[simp] theorem State.setPart_adapters (s : State) (p : PartId) (x : Part) : (s.setPart p x).adapters = s.adapters := rfl
@[simp] theorem State.setPart_meter (s : State) (p : PartId) (x : Part) : (s.setPart p x).meter = s.meter := rfl
@[simp] theorem State.setPart_events (s : State) (p : PartId) (x : Part) : (s.setPart p x).events = s.events := rfl
@[simp] theorem State.setPart_boot (s : State) (p : PartId) (x : Part) : (s.setPart p x).boot = s.boot := rfl
@[simp] theorem State.setPart_board (s : State) (p : PartId) (x : Part) : (s.setPart p x).board = s.board := rfl
@[simp] theorem State.setPart_jtag (s : State) (p : PartId) (x : Part) : (s.setPart p x).jtag = s.jtag := rfl
@[simp] theorem State.setPart_freeCount (s : State) (p : PartId) (x : Part) : (s.setPart p x).freeCount = s.freeCount := rfl
@[simp] theorem State.setPart_reg (s : State) (p : PartId) (x : Part) (o' : Nat) : (s.setPart p x).reg o' = s.reg o' := rfl

/-! ### modPart -/

@[simp] theorem State.modPart_pending (s : State) (p : PartId) (f : Part → Part) : (s.modPart p f).pending = s.pending := rfl
@[simp] theorem State.modPart_pins (s : State) (p : PartId) (f : Part → Part) : (s.modPart p f).pins = s.pins := rfl
@[simp] theorem State.modPart_bar0 (s : State) (p : PartId) (f : Part → Part) : (s.modPart p f).bar0 = s.bar0 := rfl
@[simp] theorem State.modPart_saves (s : State) (p : PartId) (f : Part → Part) : (s.modPart p f).saves = s.saves := rfl
@[simp] theorem State.modPart_remotePosts (s : State) (p : PartId) (f : Part → Part) : (s.modPart p f).remotePosts = s.remotePosts := rfl
@[simp] theorem State.modPart_heldCtl (s : State) (p : PartId) (f : Part → Part) : (s.modPart p f).heldCtl = s.heldCtl := rfl
@[simp] theorem State.modPart_mem (s : State) (p : PartId) (f : Part → Part) : (s.modPart p f).mem = s.mem := rfl
@[simp] theorem State.modPart_spt (s : State) (p : PartId) (f : Part → Part) : (s.modPart p f).spt = s.spt := rfl
@[simp] theorem State.modPart_tier (s : State) (p : PartId) (f : Part → Part) : (s.modPart p f).tier = s.tier := rfl
@[simp] theorem State.modPart_mus (s : State) (p : PartId) (f : Part → Part) : (s.modPart p f).mus = s.mus := rfl
@[simp] theorem State.modPart_cxl (s : State) (p : PartId) (f : Part → Part) : (s.modPart p f).cxl = s.cxl := rfl
@[simp] theorem State.modPart_pools (s : State) (p : PartId) (f : Part → Part) : (s.modPart p f).pools = s.pools := rfl
@[simp] theorem State.modPart_parked (s : State) (p : PartId) (f : Part → Part) : (s.modPart p f).parked = s.parked := rfl
@[simp] theorem State.modPart_ports (s : State) (p : PartId) (f : Part → Part) : (s.modPart p f).ports = s.ports := rfl
@[simp] theorem State.modPart_fab (s : State) (p : PartId) (f : Part → Part) : (s.modPart p f).fab = s.fab := rfl
@[simp] theorem State.modPart_mgr (s : State) (p : PartId) (f : Part → Part) : (s.modPart p f).mgr = s.mgr := rfl
@[simp] theorem State.modPart_host (s : State) (p : PartId) (f : Part → Part) : (s.modPart p f).host = s.host := rfl
@[simp] theorem State.modPart_adapters (s : State) (p : PartId) (f : Part → Part) : (s.modPart p f).adapters = s.adapters := rfl
@[simp] theorem State.modPart_meter (s : State) (p : PartId) (f : Part → Part) : (s.modPart p f).meter = s.meter := rfl
@[simp] theorem State.modPart_events (s : State) (p : PartId) (f : Part → Part) : (s.modPart p f).events = s.events := rfl
@[simp] theorem State.modPart_boot (s : State) (p : PartId) (f : Part → Part) : (s.modPart p f).boot = s.boot := rfl
@[simp] theorem State.modPart_board (s : State) (p : PartId) (f : Part → Part) : (s.modPart p f).board = s.board := rfl
@[simp] theorem State.modPart_jtag (s : State) (p : PartId) (f : Part → Part) : (s.modPart p f).jtag = s.jtag := rfl
@[simp] theorem State.modPart_freeCount (s : State) (p : PartId) (f : Part → Part) : (s.modPart p f).freeCount = s.freeCount := rfl
@[simp] theorem State.modPart_reg (s : State) (p : PartId) (f : Part → Part) (o' : Nat) : (s.modPart p f).reg o' = s.reg o' := rfl

/-! ### setDrv -/

@[simp] theorem State.setDrv_pending (s : State) (p : PartId) (d : Drover) : (s.setDrv p d).pending = s.pending := rfl
@[simp] theorem State.setDrv_pins (s : State) (p : PartId) (d : Drover) : (s.setDrv p d).pins = s.pins := rfl
@[simp] theorem State.setDrv_bar0 (s : State) (p : PartId) (d : Drover) : (s.setDrv p d).bar0 = s.bar0 := rfl
@[simp] theorem State.setDrv_saves (s : State) (p : PartId) (d : Drover) : (s.setDrv p d).saves = s.saves := rfl
@[simp] theorem State.setDrv_remotePosts (s : State) (p : PartId) (d : Drover) : (s.setDrv p d).remotePosts = s.remotePosts := rfl
@[simp] theorem State.setDrv_heldCtl (s : State) (p : PartId) (d : Drover) : (s.setDrv p d).heldCtl = s.heldCtl := rfl
@[simp] theorem State.setDrv_mem (s : State) (p : PartId) (d : Drover) : (s.setDrv p d).mem = s.mem := rfl
@[simp] theorem State.setDrv_spt (s : State) (p : PartId) (d : Drover) : (s.setDrv p d).spt = s.spt := rfl
@[simp] theorem State.setDrv_tier (s : State) (p : PartId) (d : Drover) : (s.setDrv p d).tier = s.tier := rfl
@[simp] theorem State.setDrv_mus (s : State) (p : PartId) (d : Drover) : (s.setDrv p d).mus = s.mus := rfl
@[simp] theorem State.setDrv_cxl (s : State) (p : PartId) (d : Drover) : (s.setDrv p d).cxl = s.cxl := rfl
@[simp] theorem State.setDrv_pools (s : State) (p : PartId) (d : Drover) : (s.setDrv p d).pools = s.pools := rfl
@[simp] theorem State.setDrv_parked (s : State) (p : PartId) (d : Drover) : (s.setDrv p d).parked = s.parked := rfl
@[simp] theorem State.setDrv_ports (s : State) (p : PartId) (d : Drover) : (s.setDrv p d).ports = s.ports := rfl
@[simp] theorem State.setDrv_fab (s : State) (p : PartId) (d : Drover) : (s.setDrv p d).fab = s.fab := rfl
@[simp] theorem State.setDrv_mgr (s : State) (p : PartId) (d : Drover) : (s.setDrv p d).mgr = s.mgr := rfl
@[simp] theorem State.setDrv_host (s : State) (p : PartId) (d : Drover) : (s.setDrv p d).host = s.host := rfl
@[simp] theorem State.setDrv_adapters (s : State) (p : PartId) (d : Drover) : (s.setDrv p d).adapters = s.adapters := rfl
@[simp] theorem State.setDrv_meter (s : State) (p : PartId) (d : Drover) : (s.setDrv p d).meter = s.meter := rfl
@[simp] theorem State.setDrv_events (s : State) (p : PartId) (d : Drover) : (s.setDrv p d).events = s.events := rfl
@[simp] theorem State.setDrv_boot (s : State) (p : PartId) (d : Drover) : (s.setDrv p d).boot = s.boot := rfl
@[simp] theorem State.setDrv_board (s : State) (p : PartId) (d : Drover) : (s.setDrv p d).board = s.board := rfl
@[simp] theorem State.setDrv_jtag (s : State) (p : PartId) (d : Drover) : (s.setDrv p d).jtag = s.jtag := rfl
@[simp] theorem State.setDrv_freeCount (s : State) (p : PartId) (d : Drover) : (s.setDrv p d).freeCount = s.freeCount := rfl
@[simp] theorem State.setDrv_reg (s : State) (p : PartId) (d : Drover) (o' : Nat) : (s.setDrv p d).reg o' = s.reg o' := rfl

/-! ### modDrv -/

@[simp] theorem State.modDrv_pending (s : State) (p : PartId) (f : Drover → Drover) : (s.modDrv p f).pending = s.pending := rfl
@[simp] theorem State.modDrv_pins (s : State) (p : PartId) (f : Drover → Drover) : (s.modDrv p f).pins = s.pins := rfl
@[simp] theorem State.modDrv_bar0 (s : State) (p : PartId) (f : Drover → Drover) : (s.modDrv p f).bar0 = s.bar0 := rfl
@[simp] theorem State.modDrv_saves (s : State) (p : PartId) (f : Drover → Drover) : (s.modDrv p f).saves = s.saves := rfl
@[simp] theorem State.modDrv_remotePosts (s : State) (p : PartId) (f : Drover → Drover) : (s.modDrv p f).remotePosts = s.remotePosts := rfl
@[simp] theorem State.modDrv_heldCtl (s : State) (p : PartId) (f : Drover → Drover) : (s.modDrv p f).heldCtl = s.heldCtl := rfl
@[simp] theorem State.modDrv_mem (s : State) (p : PartId) (f : Drover → Drover) : (s.modDrv p f).mem = s.mem := rfl
@[simp] theorem State.modDrv_spt (s : State) (p : PartId) (f : Drover → Drover) : (s.modDrv p f).spt = s.spt := rfl
@[simp] theorem State.modDrv_tier (s : State) (p : PartId) (f : Drover → Drover) : (s.modDrv p f).tier = s.tier := rfl
@[simp] theorem State.modDrv_mus (s : State) (p : PartId) (f : Drover → Drover) : (s.modDrv p f).mus = s.mus := rfl
@[simp] theorem State.modDrv_cxl (s : State) (p : PartId) (f : Drover → Drover) : (s.modDrv p f).cxl = s.cxl := rfl
@[simp] theorem State.modDrv_pools (s : State) (p : PartId) (f : Drover → Drover) : (s.modDrv p f).pools = s.pools := rfl
@[simp] theorem State.modDrv_parked (s : State) (p : PartId) (f : Drover → Drover) : (s.modDrv p f).parked = s.parked := rfl
@[simp] theorem State.modDrv_ports (s : State) (p : PartId) (f : Drover → Drover) : (s.modDrv p f).ports = s.ports := rfl
@[simp] theorem State.modDrv_fab (s : State) (p : PartId) (f : Drover → Drover) : (s.modDrv p f).fab = s.fab := rfl
@[simp] theorem State.modDrv_mgr (s : State) (p : PartId) (f : Drover → Drover) : (s.modDrv p f).mgr = s.mgr := rfl
@[simp] theorem State.modDrv_host (s : State) (p : PartId) (f : Drover → Drover) : (s.modDrv p f).host = s.host := rfl
@[simp] theorem State.modDrv_adapters (s : State) (p : PartId) (f : Drover → Drover) : (s.modDrv p f).adapters = s.adapters := rfl
@[simp] theorem State.modDrv_meter (s : State) (p : PartId) (f : Drover → Drover) : (s.modDrv p f).meter = s.meter := rfl
@[simp] theorem State.modDrv_events (s : State) (p : PartId) (f : Drover → Drover) : (s.modDrv p f).events = s.events := rfl
@[simp] theorem State.modDrv_boot (s : State) (p : PartId) (f : Drover → Drover) : (s.modDrv p f).boot = s.boot := rfl
@[simp] theorem State.modDrv_board (s : State) (p : PartId) (f : Drover → Drover) : (s.modDrv p f).board = s.board := rfl
@[simp] theorem State.modDrv_jtag (s : State) (p : PartId) (f : Drover → Drover) : (s.modDrv p f).jtag = s.jtag := rfl
@[simp] theorem State.modDrv_freeCount (s : State) (p : PartId) (f : Drover → Drover) : (s.modDrv p f).freeCount = s.freeCount := rfl
@[simp] theorem State.modDrv_reg (s : State) (p : PartId) (f : Drover → Drover) (o' : Nat) : (s.modDrv p f).reg o' = s.reg o' := rfl

/-! ### setSlot -/

@[simp] theorem State.setSlot_pending (s : State) (p : PartId) (k : Nat) (x : Slot) : (s.setSlot p k x).pending = s.pending := rfl
@[simp] theorem State.setSlot_pins (s : State) (p : PartId) (k : Nat) (x : Slot) : (s.setSlot p k x).pins = s.pins := rfl
@[simp] theorem State.setSlot_bar0 (s : State) (p : PartId) (k : Nat) (x : Slot) : (s.setSlot p k x).bar0 = s.bar0 := rfl
@[simp] theorem State.setSlot_saves (s : State) (p : PartId) (k : Nat) (x : Slot) : (s.setSlot p k x).saves = s.saves := rfl
@[simp] theorem State.setSlot_remotePosts (s : State) (p : PartId) (k : Nat) (x : Slot) : (s.setSlot p k x).remotePosts = s.remotePosts := rfl
@[simp] theorem State.setSlot_heldCtl (s : State) (p : PartId) (k : Nat) (x : Slot) : (s.setSlot p k x).heldCtl = s.heldCtl := rfl
@[simp] theorem State.setSlot_mem (s : State) (p : PartId) (k : Nat) (x : Slot) : (s.setSlot p k x).mem = s.mem := rfl
@[simp] theorem State.setSlot_spt (s : State) (p : PartId) (k : Nat) (x : Slot) : (s.setSlot p k x).spt = s.spt := rfl
@[simp] theorem State.setSlot_tier (s : State) (p : PartId) (k : Nat) (x : Slot) : (s.setSlot p k x).tier = s.tier := rfl
@[simp] theorem State.setSlot_mus (s : State) (p : PartId) (k : Nat) (x : Slot) : (s.setSlot p k x).mus = s.mus := rfl
@[simp] theorem State.setSlot_cxl (s : State) (p : PartId) (k : Nat) (x : Slot) : (s.setSlot p k x).cxl = s.cxl := rfl
@[simp] theorem State.setSlot_pools (s : State) (p : PartId) (k : Nat) (x : Slot) : (s.setSlot p k x).pools = s.pools := rfl
@[simp] theorem State.setSlot_parked (s : State) (p : PartId) (k : Nat) (x : Slot) : (s.setSlot p k x).parked = s.parked := rfl
@[simp] theorem State.setSlot_ports (s : State) (p : PartId) (k : Nat) (x : Slot) : (s.setSlot p k x).ports = s.ports := rfl
@[simp] theorem State.setSlot_fab (s : State) (p : PartId) (k : Nat) (x : Slot) : (s.setSlot p k x).fab = s.fab := rfl
@[simp] theorem State.setSlot_mgr (s : State) (p : PartId) (k : Nat) (x : Slot) : (s.setSlot p k x).mgr = s.mgr := rfl
@[simp] theorem State.setSlot_host (s : State) (p : PartId) (k : Nat) (x : Slot) : (s.setSlot p k x).host = s.host := rfl
@[simp] theorem State.setSlot_adapters (s : State) (p : PartId) (k : Nat) (x : Slot) : (s.setSlot p k x).adapters = s.adapters := rfl
@[simp] theorem State.setSlot_meter (s : State) (p : PartId) (k : Nat) (x : Slot) : (s.setSlot p k x).meter = s.meter := rfl
@[simp] theorem State.setSlot_events (s : State) (p : PartId) (k : Nat) (x : Slot) : (s.setSlot p k x).events = s.events := rfl
@[simp] theorem State.setSlot_boot (s : State) (p : PartId) (k : Nat) (x : Slot) : (s.setSlot p k x).boot = s.boot := rfl
@[simp] theorem State.setSlot_board (s : State) (p : PartId) (k : Nat) (x : Slot) : (s.setSlot p k x).board = s.board := rfl
@[simp] theorem State.setSlot_jtag (s : State) (p : PartId) (k : Nat) (x : Slot) : (s.setSlot p k x).jtag = s.jtag := rfl
@[simp] theorem State.setSlot_freeCount (s : State) (p : PartId) (k : Nat) (x : Slot) : (s.setSlot p k x).freeCount = s.freeCount := rfl
@[simp] theorem State.setSlot_reg (s : State) (p : PartId) (k : Nat) (x : Slot) (o' : Nat) : (s.setSlot p k x).reg o' = s.reg o' := rfl

/-! ### modHost -/

@[simp] theorem State.modHost_pending (s : State) (f : HostIf → HostIf) : (s.modHost f).pending = s.pending := rfl
@[simp] theorem State.modHost_pins (s : State) (f : HostIf → HostIf) : (s.modHost f).pins = s.pins := rfl
@[simp] theorem State.modHost_bar0 (s : State) (f : HostIf → HostIf) : (s.modHost f).bar0 = s.bar0 := rfl
@[simp] theorem State.modHost_parts (s : State) (f : HostIf → HostIf) : (s.modHost f).parts = s.parts := rfl
@[simp] theorem State.modHost_saves (s : State) (f : HostIf → HostIf) : (s.modHost f).saves = s.saves := rfl
@[simp] theorem State.modHost_remotePosts (s : State) (f : HostIf → HostIf) : (s.modHost f).remotePosts = s.remotePosts := rfl
@[simp] theorem State.modHost_heldCtl (s : State) (f : HostIf → HostIf) : (s.modHost f).heldCtl = s.heldCtl := rfl
@[simp] theorem State.modHost_mem (s : State) (f : HostIf → HostIf) : (s.modHost f).mem = s.mem := rfl
@[simp] theorem State.modHost_spt (s : State) (f : HostIf → HostIf) : (s.modHost f).spt = s.spt := rfl
@[simp] theorem State.modHost_tier (s : State) (f : HostIf → HostIf) : (s.modHost f).tier = s.tier := rfl
@[simp] theorem State.modHost_mus (s : State) (f : HostIf → HostIf) : (s.modHost f).mus = s.mus := rfl
@[simp] theorem State.modHost_cxl (s : State) (f : HostIf → HostIf) : (s.modHost f).cxl = s.cxl := rfl
@[simp] theorem State.modHost_pools (s : State) (f : HostIf → HostIf) : (s.modHost f).pools = s.pools := rfl
@[simp] theorem State.modHost_parked (s : State) (f : HostIf → HostIf) : (s.modHost f).parked = s.parked := rfl
@[simp] theorem State.modHost_ports (s : State) (f : HostIf → HostIf) : (s.modHost f).ports = s.ports := rfl
@[simp] theorem State.modHost_fab (s : State) (f : HostIf → HostIf) : (s.modHost f).fab = s.fab := rfl
@[simp] theorem State.modHost_mgr (s : State) (f : HostIf → HostIf) : (s.modHost f).mgr = s.mgr := rfl
@[simp] theorem State.modHost_adapters (s : State) (f : HostIf → HostIf) : (s.modHost f).adapters = s.adapters := rfl
@[simp] theorem State.modHost_meter (s : State) (f : HostIf → HostIf) : (s.modHost f).meter = s.meter := rfl
@[simp] theorem State.modHost_events (s : State) (f : HostIf → HostIf) : (s.modHost f).events = s.events := rfl
@[simp] theorem State.modHost_boot (s : State) (f : HostIf → HostIf) : (s.modHost f).boot = s.boot := rfl
@[simp] theorem State.modHost_board (s : State) (f : HostIf → HostIf) : (s.modHost f).board = s.board := rfl
@[simp] theorem State.modHost_jtag (s : State) (f : HostIf → HostIf) : (s.modHost f).jtag = s.jtag := rfl
@[simp] theorem State.modHost_freeCount (s : State) (f : HostIf → HostIf) : (s.modHost f).freeCount = s.freeCount := rfl
@[simp] theorem State.modHost_part (s : State) (f : HostIf → HostIf) (p' : PartId) : (s.modHost f).part p' = s.part p' := rfl
@[simp] theorem State.modHost_drv (s : State) (f : HostIf → HostIf) (p' : PartId) : (s.modHost f).drv p' = s.drv p' := rfl
@[simp] theorem State.modHost_reg (s : State) (f : HostIf → HostIf) (o' : Nat) : (s.modHost f).reg o' = s.reg o' := rfl

/-! ### setEntry -/

@[simp] theorem State.setEntry_pending (s : State) (k : Nat) (e : Word) : (s.setEntry k e).pending = s.pending := rfl
@[simp] theorem State.setEntry_pins (s : State) (k : Nat) (e : Word) : (s.setEntry k e).pins = s.pins := rfl
@[simp] theorem State.setEntry_bar0 (s : State) (k : Nat) (e : Word) : (s.setEntry k e).bar0 = s.bar0 := rfl
@[simp] theorem State.setEntry_parts (s : State) (k : Nat) (e : Word) : (s.setEntry k e).parts = s.parts := rfl
@[simp] theorem State.setEntry_saves (s : State) (k : Nat) (e : Word) : (s.setEntry k e).saves = s.saves := rfl
@[simp] theorem State.setEntry_remotePosts (s : State) (k : Nat) (e : Word) : (s.setEntry k e).remotePosts = s.remotePosts := rfl
@[simp] theorem State.setEntry_heldCtl (s : State) (k : Nat) (e : Word) : (s.setEntry k e).heldCtl = s.heldCtl := rfl
@[simp] theorem State.setEntry_mem (s : State) (k : Nat) (e : Word) : (s.setEntry k e).mem = s.mem := rfl
@[simp] theorem State.setEntry_tier (s : State) (k : Nat) (e : Word) : (s.setEntry k e).tier = s.tier := rfl
@[simp] theorem State.setEntry_mus (s : State) (k : Nat) (e : Word) : (s.setEntry k e).mus = s.mus := rfl
@[simp] theorem State.setEntry_cxl (s : State) (k : Nat) (e : Word) : (s.setEntry k e).cxl = s.cxl := rfl
@[simp] theorem State.setEntry_pools (s : State) (k : Nat) (e : Word) : (s.setEntry k e).pools = s.pools := rfl
@[simp] theorem State.setEntry_parked (s : State) (k : Nat) (e : Word) : (s.setEntry k e).parked = s.parked := rfl
@[simp] theorem State.setEntry_ports (s : State) (k : Nat) (e : Word) : (s.setEntry k e).ports = s.ports := rfl
@[simp] theorem State.setEntry_fab (s : State) (k : Nat) (e : Word) : (s.setEntry k e).fab = s.fab := rfl
@[simp] theorem State.setEntry_mgr (s : State) (k : Nat) (e : Word) : (s.setEntry k e).mgr = s.mgr := rfl
@[simp] theorem State.setEntry_host (s : State) (k : Nat) (e : Word) : (s.setEntry k e).host = s.host := rfl
@[simp] theorem State.setEntry_adapters (s : State) (k : Nat) (e : Word) : (s.setEntry k e).adapters = s.adapters := rfl
@[simp] theorem State.setEntry_meter (s : State) (k : Nat) (e : Word) : (s.setEntry k e).meter = s.meter := rfl
@[simp] theorem State.setEntry_events (s : State) (k : Nat) (e : Word) : (s.setEntry k e).events = s.events := rfl
@[simp] theorem State.setEntry_boot (s : State) (k : Nat) (e : Word) : (s.setEntry k e).boot = s.boot := rfl
@[simp] theorem State.setEntry_board (s : State) (k : Nat) (e : Word) : (s.setEntry k e).board = s.board := rfl
@[simp] theorem State.setEntry_jtag (s : State) (k : Nat) (e : Word) : (s.setEntry k e).jtag = s.jtag := rfl
@[simp] theorem State.setEntry_freeCount (s : State) (k : Nat) (e : Word) : (s.setEntry k e).freeCount = s.freeCount := rfl
@[simp] theorem State.setEntry_part (s : State) (k : Nat) (e : Word) (p' : PartId) : (s.setEntry k e).part p' = s.part p' := rfl
@[simp] theorem State.setEntry_drv (s : State) (k : Nat) (e : Word) (p' : PartId) : (s.setEntry k e).drv p' = s.drv p' := rfl
@[simp] theorem State.setEntry_reg (s : State) (k : Nat) (e : Word) (o' : Nat) : (s.setEntry k e).reg o' = s.reg o' := rfl

/-! ### setCxl -/

@[simp] theorem State.setCxl_pending (s : State) (k : Nat) (c : Cxl) : (s.setCxl k c).pending = s.pending := rfl
@[simp] theorem State.setCxl_pins (s : State) (k : Nat) (c : Cxl) : (s.setCxl k c).pins = s.pins := rfl
@[simp] theorem State.setCxl_bar0 (s : State) (k : Nat) (c : Cxl) : (s.setCxl k c).bar0 = s.bar0 := rfl
@[simp] theorem State.setCxl_parts (s : State) (k : Nat) (c : Cxl) : (s.setCxl k c).parts = s.parts := rfl
@[simp] theorem State.setCxl_saves (s : State) (k : Nat) (c : Cxl) : (s.setCxl k c).saves = s.saves := rfl
@[simp] theorem State.setCxl_remotePosts (s : State) (k : Nat) (c : Cxl) : (s.setCxl k c).remotePosts = s.remotePosts := rfl
@[simp] theorem State.setCxl_heldCtl (s : State) (k : Nat) (c : Cxl) : (s.setCxl k c).heldCtl = s.heldCtl := rfl
@[simp] theorem State.setCxl_mem (s : State) (k : Nat) (c : Cxl) : (s.setCxl k c).mem = s.mem := rfl
@[simp] theorem State.setCxl_spt (s : State) (k : Nat) (c : Cxl) : (s.setCxl k c).spt = s.spt := rfl
@[simp] theorem State.setCxl_tier (s : State) (k : Nat) (c : Cxl) : (s.setCxl k c).tier = s.tier := rfl
@[simp] theorem State.setCxl_mus (s : State) (k : Nat) (c : Cxl) : (s.setCxl k c).mus = s.mus := rfl
@[simp] theorem State.setCxl_pools (s : State) (k : Nat) (c : Cxl) : (s.setCxl k c).pools = s.pools := rfl
@[simp] theorem State.setCxl_parked (s : State) (k : Nat) (c : Cxl) : (s.setCxl k c).parked = s.parked := rfl
@[simp] theorem State.setCxl_ports (s : State) (k : Nat) (c : Cxl) : (s.setCxl k c).ports = s.ports := rfl
@[simp] theorem State.setCxl_fab (s : State) (k : Nat) (c : Cxl) : (s.setCxl k c).fab = s.fab := rfl
@[simp] theorem State.setCxl_mgr (s : State) (k : Nat) (c : Cxl) : (s.setCxl k c).mgr = s.mgr := rfl
@[simp] theorem State.setCxl_host (s : State) (k : Nat) (c : Cxl) : (s.setCxl k c).host = s.host := rfl
@[simp] theorem State.setCxl_adapters (s : State) (k : Nat) (c : Cxl) : (s.setCxl k c).adapters = s.adapters := rfl
@[simp] theorem State.setCxl_meter (s : State) (k : Nat) (c : Cxl) : (s.setCxl k c).meter = s.meter := rfl
@[simp] theorem State.setCxl_events (s : State) (k : Nat) (c : Cxl) : (s.setCxl k c).events = s.events := rfl
@[simp] theorem State.setCxl_boot (s : State) (k : Nat) (c : Cxl) : (s.setCxl k c).boot = s.boot := rfl
@[simp] theorem State.setCxl_board (s : State) (k : Nat) (c : Cxl) : (s.setCxl k c).board = s.board := rfl
@[simp] theorem State.setCxl_jtag (s : State) (k : Nat) (c : Cxl) : (s.setCxl k c).jtag = s.jtag := rfl
@[simp] theorem State.setCxl_freeCount (s : State) (k : Nat) (c : Cxl) : (s.setCxl k c).freeCount = s.freeCount := rfl
@[simp] theorem State.setCxl_part (s : State) (k : Nat) (c : Cxl) (p' : PartId) : (s.setCxl k c).part p' = s.part p' := rfl
@[simp] theorem State.setCxl_drv (s : State) (k : Nat) (c : Cxl) (p' : PartId) : (s.setCxl k c).drv p' = s.drv p' := rfl
@[simp] theorem State.setCxl_reg (s : State) (k : Nat) (c : Cxl) (o' : Nat) : (s.setCxl k c).reg o' = s.reg o' := rfl

/-! ### setMu -/

@[simp] theorem State.setMu_pending (s : State) (m : Nat) (x : Mu) : (s.setMu m x).pending = s.pending := rfl
@[simp] theorem State.setMu_pins (s : State) (m : Nat) (x : Mu) : (s.setMu m x).pins = s.pins := rfl
@[simp] theorem State.setMu_bar0 (s : State) (m : Nat) (x : Mu) : (s.setMu m x).bar0 = s.bar0 := rfl
@[simp] theorem State.setMu_parts (s : State) (m : Nat) (x : Mu) : (s.setMu m x).parts = s.parts := rfl
@[simp] theorem State.setMu_saves (s : State) (m : Nat) (x : Mu) : (s.setMu m x).saves = s.saves := rfl
@[simp] theorem State.setMu_remotePosts (s : State) (m : Nat) (x : Mu) : (s.setMu m x).remotePosts = s.remotePosts := rfl
@[simp] theorem State.setMu_heldCtl (s : State) (m : Nat) (x : Mu) : (s.setMu m x).heldCtl = s.heldCtl := rfl
@[simp] theorem State.setMu_mem (s : State) (m : Nat) (x : Mu) : (s.setMu m x).mem = s.mem := rfl
@[simp] theorem State.setMu_spt (s : State) (m : Nat) (x : Mu) : (s.setMu m x).spt = s.spt := rfl
@[simp] theorem State.setMu_tier (s : State) (m : Nat) (x : Mu) : (s.setMu m x).tier = s.tier := rfl
@[simp] theorem State.setMu_cxl (s : State) (m : Nat) (x : Mu) : (s.setMu m x).cxl = s.cxl := rfl
@[simp] theorem State.setMu_pools (s : State) (m : Nat) (x : Mu) : (s.setMu m x).pools = s.pools := rfl
@[simp] theorem State.setMu_parked (s : State) (m : Nat) (x : Mu) : (s.setMu m x).parked = s.parked := rfl
@[simp] theorem State.setMu_ports (s : State) (m : Nat) (x : Mu) : (s.setMu m x).ports = s.ports := rfl
@[simp] theorem State.setMu_fab (s : State) (m : Nat) (x : Mu) : (s.setMu m x).fab = s.fab := rfl
@[simp] theorem State.setMu_mgr (s : State) (m : Nat) (x : Mu) : (s.setMu m x).mgr = s.mgr := rfl
@[simp] theorem State.setMu_host (s : State) (m : Nat) (x : Mu) : (s.setMu m x).host = s.host := rfl
@[simp] theorem State.setMu_adapters (s : State) (m : Nat) (x : Mu) : (s.setMu m x).adapters = s.adapters := rfl
@[simp] theorem State.setMu_meter (s : State) (m : Nat) (x : Mu) : (s.setMu m x).meter = s.meter := rfl
@[simp] theorem State.setMu_events (s : State) (m : Nat) (x : Mu) : (s.setMu m x).events = s.events := rfl
@[simp] theorem State.setMu_boot (s : State) (m : Nat) (x : Mu) : (s.setMu m x).boot = s.boot := rfl
@[simp] theorem State.setMu_board (s : State) (m : Nat) (x : Mu) : (s.setMu m x).board = s.board := rfl
@[simp] theorem State.setMu_jtag (s : State) (m : Nat) (x : Mu) : (s.setMu m x).jtag = s.jtag := rfl
@[simp] theorem State.setMu_freeCount (s : State) (m : Nat) (x : Mu) : (s.setMu m x).freeCount = s.freeCount := rfl
@[simp] theorem State.setMu_part (s : State) (m : Nat) (x : Mu) (p' : PartId) : (s.setMu m x).part p' = s.part p' := rfl
@[simp] theorem State.setMu_drv (s : State) (m : Nat) (x : Mu) (p' : PartId) : (s.setMu m x).drv p' = s.drv p' := rfl
@[simp] theorem State.setMu_reg (s : State) (m : Nat) (x : Mu) (o' : Nat) : (s.setMu m x).reg o' = s.reg o' := rfl

/-! ### modFab -/

@[simp] theorem State.modFab_pending (s : State) (f : Fab → Fab) : (s.modFab f).pending = s.pending := rfl
@[simp] theorem State.modFab_pins (s : State) (f : Fab → Fab) : (s.modFab f).pins = s.pins := rfl
@[simp] theorem State.modFab_bar0 (s : State) (f : Fab → Fab) : (s.modFab f).bar0 = s.bar0 := rfl
@[simp] theorem State.modFab_parts (s : State) (f : Fab → Fab) : (s.modFab f).parts = s.parts := rfl
@[simp] theorem State.modFab_saves (s : State) (f : Fab → Fab) : (s.modFab f).saves = s.saves := rfl
@[simp] theorem State.modFab_remotePosts (s : State) (f : Fab → Fab) : (s.modFab f).remotePosts = s.remotePosts := rfl
@[simp] theorem State.modFab_heldCtl (s : State) (f : Fab → Fab) : (s.modFab f).heldCtl = s.heldCtl := rfl
@[simp] theorem State.modFab_mem (s : State) (f : Fab → Fab) : (s.modFab f).mem = s.mem := rfl
@[simp] theorem State.modFab_spt (s : State) (f : Fab → Fab) : (s.modFab f).spt = s.spt := rfl
@[simp] theorem State.modFab_tier (s : State) (f : Fab → Fab) : (s.modFab f).tier = s.tier := rfl
@[simp] theorem State.modFab_mus (s : State) (f : Fab → Fab) : (s.modFab f).mus = s.mus := rfl
@[simp] theorem State.modFab_cxl (s : State) (f : Fab → Fab) : (s.modFab f).cxl = s.cxl := rfl
@[simp] theorem State.modFab_pools (s : State) (f : Fab → Fab) : (s.modFab f).pools = s.pools := rfl
@[simp] theorem State.modFab_parked (s : State) (f : Fab → Fab) : (s.modFab f).parked = s.parked := rfl
@[simp] theorem State.modFab_ports (s : State) (f : Fab → Fab) : (s.modFab f).ports = s.ports := rfl
@[simp] theorem State.modFab_mgr (s : State) (f : Fab → Fab) : (s.modFab f).mgr = s.mgr := rfl
@[simp] theorem State.modFab_host (s : State) (f : Fab → Fab) : (s.modFab f).host = s.host := rfl
@[simp] theorem State.modFab_adapters (s : State) (f : Fab → Fab) : (s.modFab f).adapters = s.adapters := rfl
@[simp] theorem State.modFab_meter (s : State) (f : Fab → Fab) : (s.modFab f).meter = s.meter := rfl
@[simp] theorem State.modFab_events (s : State) (f : Fab → Fab) : (s.modFab f).events = s.events := rfl
@[simp] theorem State.modFab_boot (s : State) (f : Fab → Fab) : (s.modFab f).boot = s.boot := rfl
@[simp] theorem State.modFab_board (s : State) (f : Fab → Fab) : (s.modFab f).board = s.board := rfl
@[simp] theorem State.modFab_jtag (s : State) (f : Fab → Fab) : (s.modFab f).jtag = s.jtag := rfl
@[simp] theorem State.modFab_freeCount (s : State) (f : Fab → Fab) : (s.modFab f).freeCount = s.freeCount := rfl
@[simp] theorem State.modFab_part (s : State) (f : Fab → Fab) (p' : PartId) : (s.modFab f).part p' = s.part p' := rfl
@[simp] theorem State.modFab_drv (s : State) (f : Fab → Fab) (p' : PartId) : (s.modFab f).drv p' = s.drv p' := rfl
@[simp] theorem State.modFab_reg (s : State) (f : Fab → Fab) (o' : Nat) : (s.modFab f).reg o' = s.reg o' := rfl

/-! ### setPort -/

@[simp] theorem State.setPort_pending (s : State) (k : PortId) (x : Port) : (s.setPort k x).pending = s.pending := rfl
@[simp] theorem State.setPort_pins (s : State) (k : PortId) (x : Port) : (s.setPort k x).pins = s.pins := rfl
@[simp] theorem State.setPort_bar0 (s : State) (k : PortId) (x : Port) : (s.setPort k x).bar0 = s.bar0 := rfl
@[simp] theorem State.setPort_parts (s : State) (k : PortId) (x : Port) : (s.setPort k x).parts = s.parts := rfl
@[simp] theorem State.setPort_saves (s : State) (k : PortId) (x : Port) : (s.setPort k x).saves = s.saves := rfl
@[simp] theorem State.setPort_remotePosts (s : State) (k : PortId) (x : Port) : (s.setPort k x).remotePosts = s.remotePosts := rfl
@[simp] theorem State.setPort_heldCtl (s : State) (k : PortId) (x : Port) : (s.setPort k x).heldCtl = s.heldCtl := rfl
@[simp] theorem State.setPort_mem (s : State) (k : PortId) (x : Port) : (s.setPort k x).mem = s.mem := rfl
@[simp] theorem State.setPort_spt (s : State) (k : PortId) (x : Port) : (s.setPort k x).spt = s.spt := rfl
@[simp] theorem State.setPort_tier (s : State) (k : PortId) (x : Port) : (s.setPort k x).tier = s.tier := rfl
@[simp] theorem State.setPort_mus (s : State) (k : PortId) (x : Port) : (s.setPort k x).mus = s.mus := rfl
@[simp] theorem State.setPort_cxl (s : State) (k : PortId) (x : Port) : (s.setPort k x).cxl = s.cxl := rfl
@[simp] theorem State.setPort_pools (s : State) (k : PortId) (x : Port) : (s.setPort k x).pools = s.pools := rfl
@[simp] theorem State.setPort_parked (s : State) (k : PortId) (x : Port) : (s.setPort k x).parked = s.parked := rfl
@[simp] theorem State.setPort_fab (s : State) (k : PortId) (x : Port) : (s.setPort k x).fab = s.fab := rfl
@[simp] theorem State.setPort_mgr (s : State) (k : PortId) (x : Port) : (s.setPort k x).mgr = s.mgr := rfl
@[simp] theorem State.setPort_host (s : State) (k : PortId) (x : Port) : (s.setPort k x).host = s.host := rfl
@[simp] theorem State.setPort_adapters (s : State) (k : PortId) (x : Port) : (s.setPort k x).adapters = s.adapters := rfl
@[simp] theorem State.setPort_meter (s : State) (k : PortId) (x : Port) : (s.setPort k x).meter = s.meter := rfl
@[simp] theorem State.setPort_events (s : State) (k : PortId) (x : Port) : (s.setPort k x).events = s.events := rfl
@[simp] theorem State.setPort_boot (s : State) (k : PortId) (x : Port) : (s.setPort k x).boot = s.boot := rfl
@[simp] theorem State.setPort_board (s : State) (k : PortId) (x : Port) : (s.setPort k x).board = s.board := rfl
@[simp] theorem State.setPort_jtag (s : State) (k : PortId) (x : Port) : (s.setPort k x).jtag = s.jtag := rfl
@[simp] theorem State.setPort_freeCount (s : State) (k : PortId) (x : Port) : (s.setPort k x).freeCount = s.freeCount := rfl
@[simp] theorem State.setPort_part (s : State) (k : PortId) (x : Port) (p' : PartId) : (s.setPort k x).part p' = s.part p' := rfl
@[simp] theorem State.setPort_drv (s : State) (k : PortId) (x : Port) (p' : PartId) : (s.setPort k x).drv p' = s.drv p' := rfl
@[simp] theorem State.setPort_reg (s : State) (k : PortId) (x : Port) (o' : Nat) : (s.setPort k x).reg o' = s.reg o' := rfl

/-! ### modMgr -/

@[simp] theorem State.modMgr_pending (s : State) (f : Mgr → Mgr) : (s.modMgr f).pending = s.pending := rfl
@[simp] theorem State.modMgr_pins (s : State) (f : Mgr → Mgr) : (s.modMgr f).pins = s.pins := rfl
@[simp] theorem State.modMgr_bar0 (s : State) (f : Mgr → Mgr) : (s.modMgr f).bar0 = s.bar0 := rfl
@[simp] theorem State.modMgr_parts (s : State) (f : Mgr → Mgr) : (s.modMgr f).parts = s.parts := rfl
@[simp] theorem State.modMgr_saves (s : State) (f : Mgr → Mgr) : (s.modMgr f).saves = s.saves := rfl
@[simp] theorem State.modMgr_remotePosts (s : State) (f : Mgr → Mgr) : (s.modMgr f).remotePosts = s.remotePosts := rfl
@[simp] theorem State.modMgr_heldCtl (s : State) (f : Mgr → Mgr) : (s.modMgr f).heldCtl = s.heldCtl := rfl
@[simp] theorem State.modMgr_mem (s : State) (f : Mgr → Mgr) : (s.modMgr f).mem = s.mem := rfl
@[simp] theorem State.modMgr_spt (s : State) (f : Mgr → Mgr) : (s.modMgr f).spt = s.spt := rfl
@[simp] theorem State.modMgr_tier (s : State) (f : Mgr → Mgr) : (s.modMgr f).tier = s.tier := rfl
@[simp] theorem State.modMgr_mus (s : State) (f : Mgr → Mgr) : (s.modMgr f).mus = s.mus := rfl
@[simp] theorem State.modMgr_cxl (s : State) (f : Mgr → Mgr) : (s.modMgr f).cxl = s.cxl := rfl
@[simp] theorem State.modMgr_pools (s : State) (f : Mgr → Mgr) : (s.modMgr f).pools = s.pools := rfl
@[simp] theorem State.modMgr_parked (s : State) (f : Mgr → Mgr) : (s.modMgr f).parked = s.parked := rfl
@[simp] theorem State.modMgr_ports (s : State) (f : Mgr → Mgr) : (s.modMgr f).ports = s.ports := rfl
@[simp] theorem State.modMgr_fab (s : State) (f : Mgr → Mgr) : (s.modMgr f).fab = s.fab := rfl
@[simp] theorem State.modMgr_host (s : State) (f : Mgr → Mgr) : (s.modMgr f).host = s.host := rfl
@[simp] theorem State.modMgr_adapters (s : State) (f : Mgr → Mgr) : (s.modMgr f).adapters = s.adapters := rfl
@[simp] theorem State.modMgr_meter (s : State) (f : Mgr → Mgr) : (s.modMgr f).meter = s.meter := rfl
@[simp] theorem State.modMgr_events (s : State) (f : Mgr → Mgr) : (s.modMgr f).events = s.events := rfl
@[simp] theorem State.modMgr_boot (s : State) (f : Mgr → Mgr) : (s.modMgr f).boot = s.boot := rfl
@[simp] theorem State.modMgr_board (s : State) (f : Mgr → Mgr) : (s.modMgr f).board = s.board := rfl
@[simp] theorem State.modMgr_jtag (s : State) (f : Mgr → Mgr) : (s.modMgr f).jtag = s.jtag := rfl
@[simp] theorem State.modMgr_freeCount (s : State) (f : Mgr → Mgr) : (s.modMgr f).freeCount = s.freeCount := rfl
@[simp] theorem State.modMgr_part (s : State) (f : Mgr → Mgr) (p' : PartId) : (s.modMgr f).part p' = s.part p' := rfl
@[simp] theorem State.modMgr_drv (s : State) (f : Mgr → Mgr) (p' : PartId) : (s.modMgr f).drv p' = s.drv p' := rfl
@[simp] theorem State.modMgr_reg (s : State) (f : Mgr → Mgr) (o' : Nat) : (s.modMgr f).reg o' = s.reg o' := rfl

end Sys2Proof.Machine
end

