-- ==== Sys2Proof/Laws/Tables.lean ====
section
/-! SUPPORT. The laws of the sparse tables and byte memories: what is read after a write, and that every operation keeps
the canonical form. -/

namespace Sys2Proof.Machine

variable {β : Type}

/-! ## Reading after a write -/

theorem tabGet_tabErase (d : Nat → β) (t : Tab β) (k k' : Nat) :
    tabGet d (tabErase k t) k' = if k' = k then d k else tabGet d t k' := by
  induction t with
  | nil => simp only [tabErase, tabGet]; split <;> simp_all
  | cons e r ih =>
    obtain ⟨a, v⟩ := e
    simp only [tabErase, tabGet]
    split_ifs <;> simp_all [tabGet]

theorem tabGet_tabInsert (d : Nat → β) (t : Tab β) (k k' : Nat) (v : β) (h : ∀ e ∈ t, e.1 ≠ k) :
    tabGet d (tabInsert k v t) k' = if k' = k then v else tabGet d t k' := by
  induction t with
  | nil => simp [tabInsert, tabGet, eq_comm]
  | cons e r ih =>
    obtain ⟨a, w⟩ := e
    have ha : a ≠ k := h _ (List.mem_cons_self ..)
    have ih := ih fun e he => h e (List.mem_cons_of_mem _ he)
    simp only [tabInsert]
    by_cases hk : k' = k
    · subst hk
      split_ifs <;> simp_all [tabGet]
    · have hk' : ¬k = k' := fun h => hk h.symm
      split_ifs <;> simp_all [tabGet]

theorem ne_of_mem_tabErase {t : Tab β} {k : Nat} : ∀ e ∈ tabErase k t, e.1 ≠ k := by
  induction t with
  | nil => simp [tabErase]
  | cons e r ih =>
    obtain ⟨a, v⟩ := e
    simp only [tabErase]
    split_ifs with h
    · exact ih
    · intro x hx
      rcases List.mem_cons.1 hx with rfl | hx
      · exact h
      · exact ih x hx

/-- A table read after a write gives the value written at its key, and what it held at every other. -/
@[simp] theorem tabGet_tabSet [DecidableEq β] (d : Nat → β) (t : Tab β) (k k' : Nat) (v : β) :
    tabGet d (tabSet d t k v) k' = if k' = k then v else tabGet d t k' := by
  unfold tabSet
  split_ifs with h1 h2 h2
  · rw [tabGet_tabErase, if_pos h2, h1]
  · rw [tabGet_tabErase, if_neg h2]
  · rw [tabGet_tabInsert _ _ _ _ _ ne_of_mem_tabErase, if_pos h2]
  · rw [tabGet_tabInsert _ _ _ _ _ ne_of_mem_tabErase, if_neg h2, tabGet_tabErase, if_neg h2]

theorem tabGet_tabClear (d : Nat → β) (t : Tab β) (lo n k : Nat) :
    tabGet d (tabClear t lo n) k = if lo ≤ k ∧ k < lo + n then d k else tabGet d t k := by
  induction t with
  | nil => simp [tabClear, tabGet]
  | cons e r ih =>
    obtain ⟨a, v⟩ := e
    simp only [tabClear, List.filter_cons] at ih ⊢
    by_cases h : a < lo ∨ lo + n ≤ a
    · have hb : (decide (a < lo) || decide (lo + n ≤ a)) = true := by simpa using h
      simp only [hb, if_true, tabGet, ih]
      by_cases hk : a = k
      · subst hk
        have : ¬(lo ≤ a ∧ a < lo + n) := by omega
        simp [this]
      · simp [hk]
    · have hb : (decide (a < lo) || decide (lo + n ≤ a)) = false := by
        simp only [Bool.or_eq_false_iff, decide_eq_false_iff_not]; omega
      simp only [hb, tabGet]
      rw [if_neg (by simp), ih]
      by_cases hk : a = k
      · subst hk
        have : lo ≤ a ∧ a < lo + n := by omega
        simp [this]
      · simp [hk]

theorem memByte_memSet (m : Tab Byte) (a a' : Nat) (b : Byte) :
    memByte (memSet m a b) a' = if a' = a then b else memByte m a' :=
  tabGet_tabSet memDefault m a a' b

/-- Every byte outside those written stands. -/
theorem memByte_memWrite_out (b : Bytes) :
    ∀ (m : Tab Byte) (a a' : Nat), a' < a ∨ a + b.length ≤ a' → memByte (memWrite m a b) a' = memByte m a' := by
  induction b with
  | nil => intro m a a' _; rfl
  | cons x r ih =>
    intro m a a' h
    simp only [List.length_cons] at h
    rw [memWrite, ih _ _ _ (by omega), memByte_memSet, if_neg (by omega)]

/-- A byte written reads as written. -/
theorem memByte_memWrite_in (b : Bytes) :
    ∀ (m : Tab Byte) (a i : Nat), i < b.length → memByte (memWrite m a b) (a + i) = b.getD i 0 := by
  induction b with
  | nil => intro m a i h; simp at h
  | cons x r ih =>
    intro m a i h
    cases i with
    | zero => rw [memWrite, memByte_memWrite_out _ _ _ _ (by omega), memByte_memSet]; simp
    | succ i =>
      rw [memWrite, show a + (i + 1) = a + 1 + i by omega, ih _ _ _ (by simpa using h)]
      simp

theorem memRead_eq_map (m : Tab Byte) : ∀ n a, memRead m a n = (List.range n).map fun i => memByte m (a + i)
  | 0, _ => rfl
  | n + 1, a => by
    rw [memRead, memRead_eq_map m n, List.range_succ_eq_map]
    simp [Function.comp_def, Nat.add_assoc, Nat.add_comm 1]

/-- The bytes read where bytes were written are those written. -/
theorem memRead_memWrite (m : Tab Byte) (a : Nat) (b : Bytes) : memRead (memWrite m a b) a b.length = b := by
  rw [memRead_eq_map]
  refine List.ext_getElem (by simp) fun i h1 h2 => ?_
  rw [List.getElem_map, List.getElem_range, memByte_memWrite_in b m a i h2, List.getD_eq_getElem _ _ h2]

/-! ## The canonical form -/

section
variable [DecidableEq β]

theorem tabWf_cons {d : Nat → β} {k : Nat} {v : β} {r : Tab β} :
    tabWf d ((k, v) :: r) = true ↔ v ≠ d k ∧ (∀ e ∈ r, k < e.1) ∧ tabWf d r = true := by
  induction r generalizing k v with
  | nil => simp [tabWf]
  | cons e r ih =>
    obtain ⟨a, w⟩ := e
    rw [tabWf, Bool.and_eq_true, Bool.and_eq_true, ih]
    simp only [decide_eq_true_eq, List.mem_cons, forall_eq_or_imp]
    constructor
    · rintro ⟨⟨h1, h2⟩, h3, h4, h5⟩
      exact ⟨h1, ⟨h2, fun e he => lt_trans h2 (h4 e he)⟩, h3, h4, h5⟩
    · rintro ⟨h1, ⟨h2, _⟩, h3, h4, h5⟩
      exact ⟨⟨h1, h2⟩, h3, h4, h5⟩

theorem tabWf_filter {d : Nat → β} (f : Nat × β → Bool) {t : Tab β} (h : tabWf d t = true) :
    tabWf d (t.filter f) = true := by
  induction t with
  | nil => rfl
  | cons e r ih =>
    obtain ⟨a, v⟩ := e
    obtain ⟨h1, h2, h3⟩ := tabWf_cons.1 h
    rw [List.filter_cons]
    split
    · exact tabWf_cons.2 ⟨h1, fun e he => h2 e (List.mem_of_mem_filter he), ih h3⟩
    · exact ih h3

omit [DecidableEq β] in
theorem tabErase_eq_filter (k : Nat) (t : Tab β) : tabErase k t = t.filter fun e => decide (e.1 ≠ k) := by
  induction t with
  | nil => rfl
  | cons e r ih =>
    obtain ⟨a, v⟩ := e
    rw [tabErase, List.filter_cons, ih]
    by_cases h : a = k <;> simp [h]

theorem tabWf_tabErase {d : Nat → β} {t : Tab β} (k : Nat) (h : tabWf d t = true) : tabWf d (tabErase k t) = true := by
  rw [tabErase_eq_filter]; exact tabWf_filter _ h

omit [DecidableEq β] in
theorem mem_tabInsert {k : Nat} {v : β} {t : Tab β} {e : Nat × β} :
    e ∈ tabInsert k v t → e = (k, v) ∨ e ∈ t := by
  induction t with
  | nil => simp [tabInsert]
  | cons x r ih =>
    obtain ⟨a, w⟩ := x
    simp only [tabInsert]
    split
    · simp
    · intro h
      rcases List.mem_cons.1 h with h | h
      · exact .inr (h ▸ List.mem_cons_self ..)
      · rcases ih h with h | h
        · exact .inl h
        · exact .inr (List.mem_cons_of_mem _ h)

theorem tabWf_tabInsert {d : Nat → β} {k : Nat} {v : β} {t : Tab β} (h : tabWf d t = true) (hk : ∀ e ∈ t, e.1 ≠ k)
    (hv : v ≠ d k) : tabWf d (tabInsert k v t) = true := by
  induction t with
  | nil => exact tabWf_cons.2 ⟨hv, by simp, rfl⟩
  | cons x r ih =>
    obtain ⟨a, w⟩ := x
    obtain ⟨h1, h2, h3⟩ := tabWf_cons.1 h
    have ha : a ≠ k := hk _ (List.mem_cons_self ..)
    simp only [tabInsert]
    split
    · next hlt =>
      refine tabWf_cons.2 ⟨hv, fun e he => ?_, h⟩
      rcases List.mem_cons.1 he with rfl | he
      · exact hlt
      · exact lt_trans hlt (h2 e he)
    · next hge =>
      refine tabWf_cons.2 ⟨h1, fun e he => ?_, ih h3 fun e he => hk e (List.mem_cons_of_mem _ he)⟩
      rcases mem_tabInsert he with rfl | he
      · show a < k
        omega
      · exact h2 e he

/-- A table write keeps the canonical form. -/
theorem tabWf_tabSet {d : Nat → β} {t : Tab β} (k : Nat) (v : β) (h : tabWf d t = true) :
    tabWf d (tabSet d t k v) = true := by
  unfold tabSet
  split
  · exact tabWf_tabErase k h
  · next hv => exact tabWf_tabInsert (tabWf_tabErase k h) ne_of_mem_tabErase hv

/-- A table whose values all change, none to what an unlisted key holds, keeps the canonical form. -/
theorem tabWf_map {d : Nat → β} {t : Tab β} (f : Nat × β → β) (hf : ∀ e ∈ t, f e ≠ d e.1) (h : tabWf d t = true) :
    tabWf d (t.map fun e => (e.1, f e)) = true := by
  induction t with
  | nil => rfl
  | cons x r ih =>
    obtain ⟨a, w⟩ := x
    obtain ⟨h1, h2, h3⟩ := tabWf_cons.1 h
    refine tabWf_cons.2 ⟨hf _ (List.mem_cons_self ..), fun e he => ?_, ih (fun e he => hf e (List.mem_cons_of_mem _ he)) h3⟩
    obtain ⟨y, hy, rfl⟩ := List.mem_map.1 he
    exact h2 y hy

end

theorem Memory.wf_memSet {m : Tab Byte} (a : Nat) (b : Byte) (h : Memory.wf m = true) :
    Memory.wf (memSet m a b) = true := tabWf_tabSet a b h

theorem Memory.wf_memWrite (b : Bytes) : ∀ {m : Tab Byte} (a : Nat), Memory.wf m = true →
    Memory.wf (memWrite m a b) = true := by
  induction b with
  | nil => intro m a h; exact h
  | cons x r ih => intro m a h; exact ih (a + 1) (Memory.wf_memSet a x h)

theorem Memory.wf_memZero {m : Tab Byte} (a n : Nat) (h : Memory.wf m = true) : Memory.wf (memZero m a n) = true :=
  tabWf_filter _ h

theorem Memory.wf_foldl_memSet {α : Type} (l : List α) (f : α → Nat) (g : α → Byte) :
    ∀ {m : Tab Byte}, Memory.wf m = true → Memory.wf (l.foldl (fun m x => memSet m (f x) (g x)) m) = true := by
  induction l with
  | nil => intro m h; exact h
  | cons x r ih => intro m h; exact ih (Memory.wf_memSet _ _ h)

theorem Memory.wf_memMoveRange {m : Tab Byte} (src : Tab Byte) (a b n : Nat) (h : Memory.wf m = true) :
    Memory.wf (memMoveRange src m a b n) = true :=
  Memory.wf_foldl_memSet _ _ _ (Memory.wf_memZero b n h)

/-- Every write of the near or the far memory keeps both canonical. -/
theorem Mem.wf_write (m : Mem) (far : Bool) (key : Nat) (b : Bytes)
    (h : Memory.wf m.near = true ∧ Memory.wf m.far = true) :
    Memory.wf (m.write far key b).near = true ∧ Memory.wf (m.write far key b).far = true := by
  cases far
  · exact ⟨Memory.wf_memWrite b key h.1, h.2⟩
  · exact ⟨h.1, Memory.wf_memWrite b key h.2⟩

/-! ## Vectors indexed by numbers -/

@[simp] theorem vget_vset {n : Nat} (v : Vector β n) (i j : Nat) (x d : β) :
    vget (vset v i x) j d = if i = j ∧ i < n then x else vget v j d := by
  unfold vget vset
  by_cases hj : j < n
  · rw [Vector.getElem?_eq_getElem hj, Vector.getElem?_eq_getElem hj, Vector.getElem_setIfInBounds]
    by_cases h : i = j
    · subst h; simp [hj]
    · simp [h]
  · rw [Vector.getElem?_eq_none (by omega), Vector.getElem?_eq_none (by omega)]
    rw [if_neg (by omega)]

/-! ## Runs of bytes -/

theorem length_leBytes : ∀ n v, (leBytes n v).length = n
  | 0, _ => rfl
  | n + 1, v => congrArg (· + 1) (length_leBytes n (v / 256))

theorem ofLe_leBytes : ∀ n v, ofLe (leBytes n v) = v % 256 ^ n
  | 0, v => by simp [leBytes, ofLe, Nat.mod_one]
  | n + 1, v => by
    have h : ∀ a b : Nat, (BitVec.ofNat 8 a).toNat + 256 * b = a % 256 + 256 * b := fun a b => rfl
    rw [leBytes, ofLe, ofLe_leBytes n, h, Nat.pow_succ, Nat.mul_comm (256 ^ n), Nat.mod_mul]

theorem zeros_length (n : Nat) : (zeros n).length = n := List.length_replicate

end Sys2Proof.Machine
end

