-- ==== Sys2Proof/Laws/Views.lean ====
section
/-! SUPPORT. What is read after a write of a register, a partition or a drover, and what an issue does. -/

namespace Sys2Proof.Machine

/-! ## Registers -/

@[simp] theorem State.reg_setReg (s : State) (o o' : Nat) (w : Word) :
    (s.setReg o w).reg o' = if o' = o then w else s.reg o' := tabGet_tabSet regReset s.bar0 o o' w

@[simp] theorem State.reg_addReg (s : State) (o o' n : Nat) :
    (s.addReg o n).reg o' = if o' = o then s.reg o + BitVec.ofNat 64 n else s.reg o' := State.reg_setReg ..

@[simp] theorem State.reg_setRegFld (s : State) (o hi lo v o' : Nat) :
    (s.setRegFld o hi lo v).reg o' = if o' = o then setFld (s.reg o) hi lo v else s.reg o' := State.reg_setReg ..

@[simp] theorem State.reg_perf (s : State) (p : PartId) (i o' : Nat) :
    (s.perf p i).reg o' = if o' = ptBase p + 0x1100 + 8 * i then s.reg o' + 1 else s.reg o' := by
  rw [State.perf, State.reg_addReg]
  split
  · next h => rw [h]; rfl
  · rfl

/-! ## Partitions and drovers -/

@[simp] theorem State.part_setPart (s : State) (p p' : PartId) (x : Part) :
    (s.setPart p x).part p' = if p' = p then x else s.part p' := by
  simp only [State.part, State.setPart, Fin.getElem_fin, Vector.getElem_set, Fin.ext_iff, eq_comm]

@[simp] theorem State.part_modPart (s : State) (p p' : PartId) (f : Part → Part) :
    (s.modPart p f).part p' = if p' = p then f (s.part p) else s.part p' := State.part_setPart ..

@[simp] theorem State.part_setDrv (s : State) (p p' : PartId) (d : Drover) :
    (s.setDrv p d).part p' = if p' = p then { s.part p with drv := d } else s.part p' := State.part_setPart ..

@[simp] theorem State.part_modDrv (s : State) (p p' : PartId) (f : Drover → Drover) :
    (s.modDrv p f).part p' = if p' = p then { s.part p with drv := f (s.drv p) } else s.part p' :=
  State.part_setPart ..

@[simp] theorem State.drv_setDrv (s : State) (p p' : PartId) (d : Drover) :
    (s.setDrv p d).drv p' = if p' = p then d else s.drv p' := by
  rw [State.drv, State.part_setDrv]; split <;> rfl

@[simp] theorem State.drv_modDrv (s : State) (p p' : PartId) (f : Drover → Drover) :
    (s.modDrv p f).drv p' = if p' = p then f (s.drv p) else s.drv p' := State.drv_setDrv ..

@[simp] theorem State.slot_setSlot (s : State) (p : PartId) (k k' : Nat) (x : Slot) :
    (s.setSlot p k x).slot p k' = if k' = k then x else s.slot p k' := by
  simp [State.slot, State.setSlot]

/-! ## Issue (R81 to R84) -/

/-- The decoder of a ready instruction changes nothing and hands on the instruction. -/
theorem State.begin_of_ready {s : State} {p : PartId} {key : Nat} {c : Ctx} (h : s.Ready p key c) :
    s.begin p key = (s, some c) := by
  obtain ⟨h1, h2, h3, h4, h5⟩ := h
  unfold State.begin
  rw [h1]
  simp only [h2, h3, h4, h5, reduceCtorEq, ne_eq, not_true_eq_false, if_false, Bool.false_eq_true]

/-- A drover fetches for itself. -/
theorem State.fetch_part {s : State} {p : PartId} {c : Ctx} (h : s.fetch p = .word c) : c.p = p := by
  unfold State.fetch at h
  dsimp only at h
  split at h
  · split at h
    · cases h; rfl
    · cases h
  · split at h
    · cases h
    · split at h
      · cases h
      · split at h
        · cases h; rfl
        · cases h
  · cases h

theorem State.OnlyPart.refl (s : State) (p : PartId) : s.OnlyPart s p := ⟨rfl, fun _ _ => rfl⟩

theorem State.OnlyDrv.refl (s : State) (p : PartId) : s.OnlyDrv s p := ⟨.refl s p, rfl⟩

/-- Two states that agree in every field but the partitions and the registers. -/
theorem State.eq_but_parts_bar0 {s t : State} (h : t.pins = s.pins ∧ t.pending = s.pending ∧ t.saves = s.saves ∧ t.remotePosts = s.remotePosts ∧ t.heldCtl = s.heldCtl ∧ t.mem = s.mem ∧
    t.spt = s.spt ∧ t.tier = s.tier ∧ t.mus = s.mus ∧ t.cxl = s.cxl ∧ t.pools = s.pools ∧
    t.parked = s.parked ∧ t.ports = s.ports ∧ t.fab = s.fab ∧ t.mgr = s.mgr ∧
    t.host = s.host ∧ t.adapters = s.adapters ∧ t.meter = s.meter ∧ t.events = s.events ∧ t.boot = s.boot ∧
    t.board = s.board ∧ t.jtag = s.jtag ∧ t.freeCount = s.freeCount) :
    t = { s with parts := t.parts, bar0 := t.bar0 } := by
  obtain ⟨h0, h1, h2, h3, h4, h5, h6, h7, h8, h9, h10, h11, h12, h13, h14, h15, h16, h17, h18, h19, h20, h21, h22⟩ := h
  cases s
  cases t
  subst_vars
  rfl

/-- All that an issue does: the drover's program counter and stall mark, and the counters of an issue. -/
theorem State.issued_spec (s : State) (p : PartId) (c : Ctx) (pc : BitVec 14) (clk : Nat) (hp : c.p = p) :
    s.OnlyDrv (s.issued c pc clk) p ∧
      (s.issued c pc clk).drv p = { (s.drv p).setPc c.disp pc with stalled := false } ∧
      s.RegsBut (s.issued c pc clk) (issueRegs c) ∧
      (s.issued c pc clk).reg (ptBase p + 0x1100) = s.reg (ptBase p + 0x1100) + 1 := by
  subst hp
  obtain ⟨p, disp, n, w, b⟩ := c
  cases disp
  · refine ⟨⟨⟨State.eq_but_parts_bar0 (by simp [State.issued]), fun p' h => ?_⟩, ?_⟩, ?_, fun o ho => ?_, ?_⟩
    · simp [State.issued, h]
    · simp [State.issued]
    · simp [State.issued]
    · simp only [issueRegs, Bool.false_eq_true, if_false, List.append_nil, List.mem_singleton] at ho
      simp [State.issued, ho]
    · simp [State.issued]
  · refine ⟨⟨⟨State.eq_but_parts_bar0 (by simp [State.issued]), fun p' h => ?_⟩, ?_⟩, ?_, fun o ho => ?_, ?_⟩
    · simp [State.issued, h]
    · simp [State.issued]
    · simp [State.issued]
    · simp only [issueRegs, if_true, List.mem_append, List.mem_singleton, not_or] at ho
      simp [State.issued, ho]
    · simp [State.issued]

/-- An issue after an update of the drover that leaves the program counters alone. -/
theorem State.advanced_issued (s : State) (p : PartId) (c : Ctx) (f : Drover → Drover) (pc : BitVec 14) (clk : Nat)
    (hp : c.p = p) (hm : (f (s.drv p)).mainPc = (s.drv p).mainPc) (hd : (f (s.drv p)).dispPc = (s.drv p).dispPc) :
    s.Advanced ((s.modDrv p f).issued c pc clk) p c pc ∧
      ((s.modDrv p f).issued c pc clk).drv p = { (f (s.drv p)).setPc c.disp pc with stalled := false } := by
  obtain ⟨⟨⟨h1, h2⟩, h3⟩, h4, h5, h6⟩ := State.issued_spec (s.modDrv p f) p c pc clk hp
  simp only [State.drv_modDrv, if_true] at h4
  refine ⟨⟨⟨⟨?_, fun p' h => ?_⟩, ?_⟩, ?_, fun x => ?_, fun o ho => ?_, ?_⟩, h4⟩
  · rw [h1]; rfl
  · rw [h2 p' h]; simp [h]
  · rw [h3, h4]; simp
  · rw [h4]
  · rw [h4]
    cases x <;> cases h : c.disp <;> simp [Drover.ctxPc, Drover.setPc, hm, hd]
  · rw [h5 o (by simpa using ho)]; rfl
  · rw [h6]; rfl

end Sys2Proof.Machine
end

