-- ==== Sys2Proof/Laws/Canon.lean ====
section
/-! SUPPORT. What each shared operation does to the canonical form of the memories (`State.Canon`) and to the bounds of
the FIFOs (`State.Bounded`), and what raising an event may change. -/

namespace Sys2Proof.Machine

/-! ## The canonical form -/

/-- The canonical form speaks of the register file, the page table, the memories and hold SRAM alone. -/
theorem State.Canon.congr {s t : State} (h : s.Canon) (h1 : t.bar0 = s.bar0) (h2 : t.spt = s.spt) (h3 : t.mem = s.mem)
    (h4 : t.host.mem = s.host.mem) (h5 : t.boot.flash = s.boot.flash)
    (h6 : ∀ p, (t.part p).hsram = (s.part p).hsram) : t.Canon := by
  unfold State.Canon at *
  rw [h1, h2, h3, h4, h5]
  simpa only [h6] using h

theorem State.Canon.setReg {s : State} (h : s.Canon) (o : Nat) (w : Word) : (s.setReg o w).Canon :=
  ⟨tabWf_tabSet o w h.1, h.2⟩

theorem State.Canon.setRegFld {s : State} (h : s.Canon) (o hi lo v : Nat) : (s.setRegFld o hi lo v).Canon :=
  h.setReg ..

theorem State.Canon.addReg {s : State} (h : s.Canon) (o n : Nat) : (s.addReg o n).Canon := h.setReg ..

theorem State.Canon.perf {s : State} (h : s.Canon) (p : PartId) (i : Nat) : (s.perf p i).Canon := h.addReg ..

theorem State.Canon.setEntry {s : State} (h : s.Canon) (k : Nat) (e : Word) : (s.setEntry k e).Canon :=
  ⟨h.1, tabWf_tabSet k e h.2.1, h.2.2⟩

theorem State.Canon.memWrite {s : State} (h : s.Canon) (far : Bool) (key : Nat) (b : Bytes) :
    ({ s with mem := s.mem.write far key b } : State).Canon :=
  have hw := Mem.wf_write s.mem far key b ⟨h.2.2.1, h.2.2.2.1⟩
  ⟨h.1, h.2.1, hw.1, hw.2, h.2.2.2.2⟩

/-- An update of a partition that keeps its hold SRAM canonical keeps the canonical form. -/
theorem State.Canon.setPart {s : State} (h : s.Canon) (p : PartId) (x : Part) (hx : Memory.wf x.hsram = true) :
    (s.setPart p x).Canon := by
  refine ⟨h.1, h.2.1, h.2.2.1, h.2.2.2.1, h.2.2.2.2.1, h.2.2.2.2.2.1, fun p' => ?_⟩
  rw [State.part_setPart]
  split
  · exact hx
  · exact h.2.2.2.2.2.2 p'

theorem State.Canon.modPart {s : State} (h : s.Canon) (p : PartId) (f : Part → Part)
    (hf : Memory.wf (f (s.part p)).hsram = true) : (s.modPart p f).Canon := h.setPart p _ hf

theorem State.Canon.setDrv {s : State} (h : s.Canon) (p : PartId) (d : Drover) : (s.setDrv p d).Canon :=
  h.modPart p _ (h.2.2.2.2.2.2 p)

theorem State.Canon.modDrv {s : State} (h : s.Canon) (p : PartId) (f : Drover → Drover) : (s.modDrv p f).Canon :=
  h.setDrv ..

theorem State.Canon.setSlot {s : State} (h : s.Canon) (p : PartId) (k : Nat) (x : Slot) : (s.setSlot p k x).Canon :=
  h.modPart p _ (h.2.2.2.2.2.2 p)

/-- A fold of an operation that keeps the canonical form keeps it. -/
theorem State.Canon.foldl {α : Type} (f : State → α → State) (hf : ∀ s a, s.Canon → (f s a).Canon) (l : List α) :
    ∀ {s : State}, s.Canon → (l.foldl f s).Canon := by
  induction l with
  | nil => exact fun h => h
  | cons a r ih => exact fun h => ih (hf _ _ h)

theorem State.Canon.markLive {s : State} (h : s.Canon) (p : PartId) (off n : Nat) : (s.markLive p off n).Canon := by
  unfold State.markLive
  split
  · exact h
  · exact State.Canon.foldl _ (fun s a hs => hs.setReg _ _) _ h

theorem State.Canon.hsWrite {s : State} (h : s.Canon) (p : PartId) (off : Nat) (b : Bytes) : (s.hsWrite p off b).Canon :=
  State.Canon.markLive (h.modPart p _ (Memory.wf_memWrite b off (h.2.2.2.2.2.2 p))) ..

theorem State.Canon.hsZero {s : State} (h : s.Canon) (p : PartId) : (s.hsZero p).Canon :=
  (((h.modPart p _ rfl).setReg _ _).setReg _ _).setReg _ _

theorem State.Canon.hostWrite {s : State} (h : s.Canon) (a : Nat) (b : Bytes) : (s.hostWrite a b).Canon :=
  ⟨h.1, h.2.1, h.2.2.1, h.2.2.2.1, Memory.wf_memWrite b a h.2.2.2.2.1, h.2.2.2.2.2⟩

/-- All that signalling a vector may change of the host interface. -/
theorem HostIf.signal_only (h : HostIf) (fn vec : Nat) (k : Bool) (a : Word) (d : BitVec 32) :
    h.signal fn vec k a d = { h with
      msix := (h.signal fn vec k a d).msix, messages := (h.signal fn vec k a d).messages, pba := (h.signal fn vec k a d).pba } := by
  unfold HostIf.signal
  split
  · rfl
  · split <;> rfl

theorem State.signalMsix_only (s : State) (fn vec : Nat) :
    s.signalMsix fn vec = { s with host := { s.host with
      msix := (s.signalMsix fn vec).host.msix, messages := (s.signalMsix fn vec).host.messages,
      pba := (s.signalMsix fn vec).host.pba } } := by
  unfold State.signalMsix State.modHost
  exact congrArg (fun h => { s with host := h }) (HostIf.signal_only ..)

theorem State.Canon.signalMsix {s : State} (h : s.Canon) (fn vec : Nat) : (s.signalMsix fn vec).Canon := by
  rw [State.signalMsix_only]
  exact h.congr rfl rfl rfl rfl rfl fun _ => rfl

theorem State.Canon.setEvents {s : State} (h : s.Canon) (e : Events) : ({ s with events := e } : State).Canon :=
  h.congr rfl rfl rfl rfl rfl fun _ => rfl

theorem State.Canon.evtDrop {s : State} (h : s.Canon) : s.evtDrop.Canon := (h.addReg _ _).setRegFld ..

theorem State.Canon.evtSignal {s : State} (h : s.Canon) : s.evtSignal.Canon := by
  unfold State.evtSignal
  dsimp only
  split
  · exact (h.signalMsix 0 0).setEvents _
  · exact h.setEvents _

theorem State.Canon.evtWrite {s : State} (h : s.Canon) (e : EvRec) : (s.evtWrite e).Canon := by
  unfold State.evtWrite
  dsimp only
  split
  · exact h.evtDrop
  · refine State.Canon.evtSignal ?_
    split
    · exact State.Canon.setEvents ((h.hostWrite _ _).setRegFld _ _ _ _) _
    · exact (h.hostWrite _ _).setRegFld _ _ _ _

theorem State.Canon.evtCount {s : State} (h : s.Canon) (ev : BitVec 16) : (s.evtCount ev).Canon := by
  unfold State.evtCount
  dsimp only
  split
  · exact ((h.setEvents _).addReg _ _).setRegFld ..
  · exact (h.setEvents _).addReg _ _

theorem State.Canon.evtDeliver {s : State} (h : s.Canon) (e : EvRec) : (s.evtDeliver e).Canon := by
  unfold State.evtDeliver
  split
  · split
    · exact h.setEvents _
    · exact h.evtDrop
  · split
    · exact h
    · split
      · exact h.evtWrite _
      · exact h.evtDrop

/-- Raising an event keeps the canonical form. -/
theorem State.Canon.raise {s : State} (h : s.Canon) (ev : BitVec 16) (st : Status) (src unit : Nat) (req : Word)
    (d : Bytes) : (s.raise ev st src unit req d).Canon := (h.evtCount ev).evtDeliver _

theorem State.Canon.writeIgnored {s : State} (h : s.Canon) (off : Nat) : (s.writeIgnored off).Canon := h.raise ..

theorem State.Canon.post {s : State} (h : s.Canon) (p : PartId) (g : Nat) (f : Bool) : (s.post p g f).Canon := by
  unfold State.post
  split
  · exact h
  · exact (h.modDrv _ _).perf _ _

theorem State.Canon.faultRecord {s : State} (h : s.Canon) (p : PartId) (pkt : Option Nat) (r : FaultRec) :
    (s.faultRecord p pkt r).Canon := by
  unfold State.faultRecord
  dsimp only
  split
  · exact ((h.modDrv _ _).addReg _ _).raise ..
  · exact (h.modDrv _ _).addReg _ _

/-! ## What raising an event may change -/

theorem State.OnlyEvents.refl (s : State) : s.OnlyEvents s := rfl

theorem State.OnlyEvents.trans {s t u : State} (h1 : s.OnlyEvents t) (h2 : t.OnlyEvents u) : s.OnlyEvents u := by
  unfold State.OnlyEvents at *
  rw [h2, h1]

theorem State.onlyEvents_setReg (s : State) (o : Nat) (w : Word) : s.OnlyEvents (s.setReg o w) := rfl

theorem State.onlyEvents_events (s : State) (e : Events) : s.OnlyEvents { s with events := e } := rfl

theorem State.onlyEvents_hostWrite (s : State) (a : Nat) (b : Bytes) : s.OnlyEvents (s.hostWrite a b) := rfl

theorem State.onlyEvents_evtDrop (s : State) : s.OnlyEvents s.evtDrop := rfl

theorem State.onlyEvents_signalMsix (s : State) (fn vec : Nat) : s.OnlyEvents (s.signalMsix fn vec) := by
  rw [State.signalMsix_only]
  rfl

theorem State.onlyEvents_evtSignal (s : State) : s.OnlyEvents s.evtSignal := by
  unfold State.evtSignal
  dsimp only
  split
  · exact (State.onlyEvents_signalMsix s 0 0).trans (State.onlyEvents_events ..)
  · rfl

theorem State.onlyEvents_evtWrite (s : State) (e : EvRec) : s.OnlyEvents (s.evtWrite e) := by
  unfold State.evtWrite
  dsimp only
  split
  · exact State.onlyEvents_evtDrop s
  · refine State.OnlyEvents.trans ?_ (State.onlyEvents_evtSignal _)
    split
    · exact ((State.onlyEvents_hostWrite ..).trans (State.onlyEvents_setReg ..)).trans (State.onlyEvents_events ..)
    · exact (State.onlyEvents_hostWrite ..).trans (State.onlyEvents_setReg ..)

theorem State.onlyEvents_evtCount (s : State) (ev : BitVec 16) : s.OnlyEvents (s.evtCount ev) := by
  unfold State.evtCount
  dsimp only
  split <;> rfl

theorem State.onlyEvents_evtDeliver (s : State) (e : EvRec) : s.OnlyEvents (s.evtDeliver e) := by
  unfold State.evtDeliver
  split
  · split <;> rfl
  · split
    · rfl
    · split
      · exact State.onlyEvents_evtWrite ..
      · rfl

/-- Raising an event changes registers, the event ring and its interrupts alone. -/
theorem State.onlyEvents_raise (s : State) (ev : BitVec 16) (st : Status) (src unit : Nat) (req : Word) (d : Bytes) :
    s.OnlyEvents (s.raise ev st src unit req d) :=
  (State.onlyEvents_evtCount s ev).trans (State.onlyEvents_evtDeliver ..)

/-! ## The bounds of the FIFOs -/

/-- The bounds speak of the drovers, of the jobs switched out and of the events held. -/
theorem State.Bounded.congr {s t : State} (h : s.Bounded) (h1 : ∀ p, t.drv p = s.drv p) (h2 : t.saves = s.saves)
    (h3 : t.events.bootQueue = s.events.bootQueue) : t.Bounded := by
  unfold State.Bounded at *
  rw [h2, h3]
  simpa only [h1] using h

theorem State.Bounded.setReg {s : State} (h : s.Bounded) (o : Nat) (w : Word) : (s.setReg o w).Bounded :=
  h.congr (fun _ => rfl) rfl rfl

/-- An update of a drover that keeps it within its bounds keeps the state within them. -/
theorem State.Bounded.setDrv {s : State} (h : s.Bounded) (p : PartId) (d : Drover) (hd : d.Bounded) :
    (s.setDrv p d).Bounded := by
  refine ⟨fun p' => ?_, h.2⟩
  rw [State.drv_setDrv]
  split
  · exact hd
  · exact h.1 p'

theorem State.Bounded.modDrv {s : State} (h : s.Bounded) (p : PartId) (f : Drover → Drover)
    (hf : (f (s.drv p)).Bounded) : (s.modDrv p f).Bounded := h.setDrv p _ hf

/-- An update of a partition that leaves its drover alone keeps the bounds. -/
theorem State.Bounded.modPart {s : State} (h : s.Bounded) (p : PartId) (f : Part → Part)
    (hf : (f (s.part p)).drv = s.drv p) : (s.modPart p f).Bounded := by
  refine h.congr (fun p' => ?_) rfl rfl
  show ((s.modPart p f).part p').drv = _
  rw [State.part_modPart]
  split
  · next e => rw [e]; exact hf
  · rfl

theorem State.Bounded.foldl {α : Type} (f : State → α → State) (hf : ∀ s a, s.Bounded → (f s a).Bounded) (l : List α) :
    ∀ {s : State}, s.Bounded → (l.foldl f s).Bounded := by
  induction l with
  | nil => exact fun h => h
  | cons a r ih => exact fun h => ih (hf _ _ h)

theorem State.Bounded.markLive {s : State} (h : s.Bounded) (p : PartId) (off n : Nat) : (s.markLive p off n).Bounded := by
  unfold State.markLive
  split
  · exact h
  · exact State.Bounded.foldl _ (fun s a hs => hs.setReg _ _) _ h

theorem State.Bounded.hsWrite {s : State} (h : s.Bounded) (p : PartId) (off : Nat) (b : Bytes) :
    (s.hsWrite p off b).Bounded := State.Bounded.markLive (h.modPart p _ rfl) ..

theorem State.Bounded.hostWrite {s : State} (h : s.Bounded) (a : Nat) (b : Bytes) : (s.hostWrite a b).Bounded :=
  h.congr (fun _ => rfl) rfl rfl

theorem State.Bounded.setEvents {s : State} (h : s.Bounded) (e : Events) (he : e.bootQueue = s.events.bootQueue) :
    ({ s with events := e } : State).Bounded := h.congr (fun _ => rfl) rfl he

theorem State.Bounded.evtDrop {s : State} (h : s.Bounded) : s.evtDrop.Bounded := (h.setReg _ _).setReg _ _

theorem State.Bounded.evtSignal {s : State} (h : s.Bounded) : s.evtSignal.Bounded := by
  unfold State.evtSignal
  dsimp only
  split <;> exact h.congr (fun _ => rfl) rfl rfl

theorem State.Bounded.evtWrite {s : State} (h : s.Bounded) (e : EvRec) : (s.evtWrite e).Bounded := by
  unfold State.evtWrite
  dsimp only
  split
  · exact h.evtDrop
  · refine State.Bounded.evtSignal ?_
    split
    · exact State.Bounded.setEvents ((h.hostWrite _ _).setReg _ _) _ rfl
    · exact (h.hostWrite _ _).setReg _ _

theorem State.Bounded.evtCount {s : State} (h : s.Bounded) (ev : BitVec 16) : (s.evtCount ev).Bounded := by
  unfold State.evtCount
  dsimp only
  split <;> exact h.congr (fun _ => rfl) rfl rfl

/-- At most 32 events are held. -/
theorem State.Bounded.evtDeliver {s : State} (h : s.Bounded) (e : EvRec) : (s.evtDeliver e).Bounded := by
  unfold State.evtDeliver
  split
  · split
    · next hlt =>
      refine ⟨h.1, h.2.1, ?_⟩
      simp only [List.length_append, List.length_singleton]
      omega
    · exact h.congr (fun _ => rfl) rfl rfl
  · split
    · exact h
    · split
      · exact h.evtWrite _
      · exact h.congr (fun _ => rfl) rfl rfl

/-- Raising an event keeps the bounds. -/
theorem State.Bounded.raise {s : State} (h : s.Bounded) (ev : BitVec 16) (st : Status) (src unit : Nat) (req : Word)
    (d : Bytes) : (s.raise ev st src unit req d).Bounded := (h.evtCount ev).evtDeliver _

theorem Drover.Bounded.setSignal {d : Drover} (h : d.Bounded) (g : Nat) (c : BitVec 32) (f : Bool) :
    (d.setSignal g c f).Bounded := h

theorem State.Bounded.post {s : State} (h : s.Bounded) (p : PartId) (g : Nat) (f : Bool) : (s.post p g f).Bounded := by
  unfold State.post
  split
  · exact h
  · exact State.Bounded.setReg (h.modDrv p _ (h.1 p)) ..

theorem Drover.Bounded.pktFaulted {d : Drover} (h : d.Bounded) (pkt : Option Nat) (st : Status) :
    (d.pktFaulted pkt st).Bounded := by
  unfold Drover.pktFaulted
  split
  · exact h
  · split <;> exact h

/-- A fault record joins its queue only while fewer than 16 wait there. -/
theorem Drover.Bounded.pushFault {d : Drover} (h : d.Bounded) (r : FaultRec) : (d.pushFault r).Bounded := by
  refine ⟨?_, h.2⟩
  unfold Drover.pushFault
  dsimp only
  split
  · exact h.1
  · simp only [List.length_append, List.length_singleton]
    omega

theorem State.Bounded.faultRecord {s : State} (h : s.Bounded) (p : PartId) (pkt : Option Nat) (r : FaultRec) :
    (s.faultRecord p pkt r).Bounded := by
  have h1 := h.modDrv p (fun d => (d.pktFaulted pkt r.status).pushFault { r with time := BitVec.ofNat 64 s.now })
    (((h.1 p).pktFaulted pkt _).pushFault _)
  unfold State.faultRecord
  dsimp only
  split
  · exact State.Bounded.raise (h1.setReg _ _) ..
  · exact h1.setReg _ _

end Sys2Proof.Machine
end

