-- ==== Sys2Proof/Laws/MlDsa.lean ====
section
/-! SUPPORT. How long a signature is at most. -/

namespace Sys2Proof.Machine.MlDsa

theorem length_shake_le (r n : Nat) (b : Bytes) : (shake r n b).length ≤ n := List.length_take_le _ _

theorem length_pack (w : Nat) (l : List Nat) : (pack w l).length = w * l.length / 8 := length_leBytes _ _

theorem length_flatten_le {α : Type} (n : Nat) : ∀ l : List (List α), (∀ x ∈ l, x.length ≤ n) → l.flatten.length ≤ l.length * n
  | [], _ => by simp
  | a :: l, h => by
    have h1 := h a (List.mem_cons_self ..)
    have h2 := length_flatten_le n l fun x hx => h x (List.mem_cons_of_mem _ hx)
    rw [List.flatten_cons, List.length_append, List.length_cons, Nat.succ_mul]
    omega

/-- A row of the masking column has 256 numbers at most. -/
theorem length_mask (seed : Bytes) (n : Nat) : (mask seed n).length = 7 ∧ ∀ p ∈ mask seed n, p.length ≤ 256 := by
  refine ⟨by simp [mask], fun p hp => ?_⟩
  obtain ⟨r, -, rfl⟩ := List.mem_map.mp hp
  have := length_shake_le 17 640 (seed ++ leBytes 2 (n + r))
  simp only [unpack, List.length_map, List.length_range, shake256]
  omega

theorem length_packHints (h : List (List Bool)) : (packHints h).length = 83 := by
  simp [packHints, fitBytes, zeros]
  try omega

/-- A try that is accepted gives 4,627 bytes at most. -/
theorem length_trySign {a : List (List Poly)} {key : Key} {mu seed : Bytes} {n : Nat} {s : Bytes}
    (h : trySign a key mu seed n = some s) : s.length ≤ 4627 := by
  simp only [trySign] at h
  split at h
  · cases h
  · injection h with h
    subst h
    have ht := length_shake_le 17 64
    have hm := length_mask seed n
    have hz : ∀ l : List Poly, (((List.zipWith add (mask seed n) l).map fun p => pack 20 (p.map fun x =>
        (2 ^ 19 - centred x).toNat)).flatten).length ≤ 7 * 640 := by
      intro l
      refine Nat.le_trans (length_flatten_le 640 _ fun b hb => ?_) ?_
      · obtain ⟨p, hp, rfl⟩ := List.mem_map.mp hb
        have : p.length ≤ 256 := by
          obtain ⟨i, hi, rfl⟩ := List.mem_iff_getElem.mp hp
          rw [List.getElem_zipWith, add, List.length_zipWith]
          exact Nat.le_trans (Nat.min_le_left _ _) (hm.2 _ (List.getElem_mem _))
        rw [length_pack, List.length_map]
        omega
      · refine Nat.mul_le_mul_right _ ?_
        rw [List.length_map, List.length_zipWith, hm.1]
        exact Nat.min_le_left _ _
    rw [List.length_append, List.length_append, length_packHints]
    have h1 := ht (mu ++ packHigh ((matMul a ((mask seed n).map toNtt)).map fun p => p.map highBits))
    have h2 := hz (scale (toNtt (ball (shake256 64 (mu ++ packHigh ((matMul a ((mask seed n).map toNtt)).map fun p =>
      p.map highBits))))) key.s1)
    unfold shake256
    unfold shake256 at h2
    omega

theorem length_sign {key : Key} {rnd ctx m s : Bytes} (h : sign key rnd ctx m = some s) : s.length ≤ 4627 := by
  have hl : ∀ f n, signLoop (expandA key.rho) key (message key.tr ctx m) (shake256 64 (key.k ++ rnd ++ message key.tr ctx m)) f n =
      some s → s.length ≤ 4627 := by
    intro f
    induction f with
    | zero => intro n h; cases h
    | succ f ih =>
      intro n h
      rw [signLoop] at h
      split at h
      · rename_i x hx
        cases h
        exact length_trySign hx
      · exact ih _ h
  exact hl _ _ h

end Sys2Proof.Machine.MlDsa
end

