-- ==== Sys2Proof/Laws/Safe.lean ====
section
/-! SUPPORT. Each shared operation of the drover, the engines and the state range keeps the memories canonical and the
FIFOs within their bounds (`State.Safe`); what the reads and writes of the state range may change; what hold SRAM reads
as after a write. -/

namespace Sys2Proof.Machine

/-! ## The updates that touch nothing the safety speaks of -/

theorem State.Safe.congr {s t : State} (h : s.Safe) (h1 : t.bar0 = s.bar0) (h2 : t.spt = s.spt) (h3 : t.mem = s.mem)
    (h4 : t.host.mem = s.host.mem) (h5 : t.boot.flash = s.boot.flash) (h6 : t.parts = s.parts) (h7 : t.saves = s.saves)
    (h8 : t.events.bootQueue = s.events.bootQueue) : t.Safe :=
  have hp : ∀ p, t.part p = s.part p := fun p => by unfold State.part; rw [h6]
  ⟨h.1.congr h1 h2 h3 h4 h5 fun p => by rw [hp p],
    h.2.congr (fun p => by unfold State.drv; rw [hp p]) h7 h8⟩

theorem State.Safe.setReg {s : State} (h : s.Safe) (o : Nat) (w : Word) : (s.setReg o w).Safe :=
  ⟨h.1.setReg o w, h.2.setReg o w⟩

theorem State.Safe.setRegFld {s : State} (h : s.Safe) (o hi lo v : Nat) : (s.setRegFld o hi lo v).Safe := h.setReg ..

theorem State.Safe.addReg {s : State} (h : s.Safe) (o n : Nat) : (s.addReg o n).Safe := h.setReg ..

theorem State.Safe.perf {s : State} (h : s.Safe) (p : PartId) (i : Nat) : (s.perf p i).Safe := h.addReg ..

theorem State.Safe.setEntry {s : State} (h : s.Safe) (k : Nat) (e : Word) : (s.setEntry k e).Safe :=
  ⟨h.1.setEntry k e, h.2.congr (fun _ => rfl) rfl rfl⟩

theorem State.Safe.modDrv {s : State} (h : s.Safe) (p : PartId) (f : Drover → Drover) (hf : (f (s.drv p)).Bounded) :
    (s.modDrv p f).Safe := ⟨h.1.modDrv p f, h.2.modDrv p f hf⟩

theorem State.Safe.setDrv {s : State} (h : s.Safe) (p : PartId) (d : Drover) (hd : d.Bounded) : (s.setDrv p d).Safe :=
  ⟨h.1.setDrv p d, h.2.setDrv p d hd⟩

theorem State.Safe.modPart {s : State} (h : s.Safe) (p : PartId) (f : Part → Part)
    (h1 : Memory.wf (f (s.part p)).hsram = true) (h2 : (f (s.part p)).drv = s.drv p) : (s.modPart p f).Safe :=
  ⟨h.1.modPart p f h1, h.2.modPart p f h2⟩

theorem State.Safe.setSlot {s : State} (h : s.Safe) (p : PartId) (k : Nat) (x : Slot) : (s.setSlot p k x).Safe :=
  h.modPart p _ (h.1.2.2.2.2.2.2 p) rfl

theorem State.Safe.foldl {α : Type} (f : State → α → State) (hf : ∀ s a, s.Safe → (f s a).Safe) (l : List α) :
    ∀ {s : State}, s.Safe → (l.foldl f s).Safe := by
  induction l with
  | nil => exact fun h => h
  | cons a r ih => exact fun h => ih (hf _ _ h)

theorem State.Safe.hsWrite {s : State} (h : s.Safe) (p : PartId) (off : Nat) (b : Bytes) : (s.hsWrite p off b).Safe :=
  ⟨h.1.hsWrite p off b, h.2.hsWrite p off b⟩

theorem State.Safe.hostWrite {s : State} (h : s.Safe) (a : Nat) (b : Bytes) : (s.hostWrite a b).Safe :=
  ⟨h.1.hostWrite a b, h.2.hostWrite a b⟩

theorem State.Safe.raise {s : State} (h : s.Safe) (ev : BitVec 16) (st : Status) (src unit : Nat) (req : Word)
    (d : Bytes) : (s.raise ev st src unit req d).Safe := ⟨h.1.raise .., h.2.raise ..⟩

theorem State.Safe.post {s : State} (h : s.Safe) (p : PartId) (g : Nat) (f : Bool) : (s.post p g f).Safe :=
  ⟨h.1.post .., h.2.post ..⟩

theorem State.Safe.faultRecord {s : State} (h : s.Safe) (p : PartId) (pkt : Option Nat) (r : FaultRec) :
    (s.faultRecord p pkt r).Safe := ⟨h.1.faultRecord .., h.2.faultRecord ..⟩

theorem State.Safe.modHost {s : State} (h : s.Safe) (f : HostIf → HostIf) (hf : (f s.host).mem = s.host.mem) :
    (s.modHost f).Safe := h.congr rfl rfl rfl hf rfl rfl rfl rfl

theorem State.Safe.modFab {s : State} (h : s.Safe) (f : Fab → Fab) : (s.modFab f).Safe :=
  h.congr rfl rfl rfl rfl rfl rfl rfl rfl

theorem State.Safe.setPort {s : State} (h : s.Safe) (k : PortId) (x : Port) : (s.setPort k x).Safe :=
  h.congr rfl rfl rfl rfl rfl rfl rfl rfl

theorem State.Safe.setCxl {s : State} (h : s.Safe) (k : Nat) (c : Cxl) : (s.setCxl k c).Safe :=
  h.congr rfl rfl rfl rfl rfl rfl rfl rfl

theorem State.Safe.setMu {s : State} (h : s.Safe) (k : Nat) (x : Mu) : (s.setMu k x).Safe :=
  h.congr rfl rfl rfl rfl rfl rfl rfl rfl

theorem State.Safe.modMgr {s : State} (h : s.Safe) (f : Mgr → Mgr) : (s.modMgr f).Safe :=
  h.congr rfl rfl rfl rfl rfl rfl rfl rfl

theorem State.Safe.memWrite {s : State} (h : s.Safe) (far : Bool) (key : Nat) (b : Bytes) :
    ({ s with mem := s.mem.write far key b } : State).Safe :=
  ⟨h.1.memWrite far key b, h.2.congr (fun _ => rfl) rfl rfl⟩

/-! ## Drovers and queues -/

theorem Drover.Bounded.setSreg {d : Drover} (h : d.Bounded) (disp : Bool) (k : Nat) (v : Word) :
    (d.setSreg disp k v).Bounded := by
  unfold Drover.setSreg
  split <;> exact h

theorem Drover.Bounded.setPc {d : Drover} (h : d.Bounded) (disp : Bool) (v : BitVec 14) : (d.setPc disp v).Bounded := by
  unfold Drover.setPc
  split <;> exact h

/-- A queue set to at most 32 entries keeps the bounds. -/
theorem Drover.Bounded.setQueue {d : Drover} (h : d.Bounded) (q : Nat) (l : List QEntry) (hl : l.length ≤ 32) :
    (d.setQueue q l).Bounded := by
  refine ⟨h.1, h.2.1, fun q' => ?_⟩
  show (vget (vset d.queues q l) q' []).length ≤ 32
  rw [vget_vset]
  split
  · exact hl
  · exact h.2.2 q'

theorem State.Safe.setEntryOf {s : State} (h : s.Safe) (p : PartId) (q : Nat) (e : QEntry) : (s.setEntryOf p q e).Safe :=
  h.modDrv p _ ((h.2.1 p).setQueue q _ (by rw [List.length_map]; exact (h.2.1 p).2.2 q))

/-- Popping queue heads keeps the state safe. -/
theorem State.Safe.popHead (fuel : Nat) : ∀ {s : State}, s.Safe → ∀ (p : PartId) (q : Nat) (e : QEntry) (f : Bool) (k : Nat),
    (s.popHead p q fuel e f k).Safe := by
  induction fuel with
  | zero =>
    intro s h p q e f k
    exact State.Safe.perf (State.Safe.post (h.modDrv p _ ((h.2.1 p).setQueue q _
      (by have := (h.2.1 p).2.2 q; rw [List.length_drop]; omega))) ..) ..
  | succ n ih =>
    intro s h p q e f k
    have h1 : (((s.modDrv p fun d => d.setQueue q ((d.queue q).drop 1)).post p (iPost e.insn) f).perf p (k + q)).Safe :=
      State.Safe.perf (State.Safe.post (h.modDrv p _ ((h.2.1 p).setQueue q _
        (by have := (h.2.1 p).2.2 q; rw [List.length_drop]; omega))) ..) ..
    unfold State.popHead
    dsimp only
    split
    · split
      · exact ih h1 ..
      · exact h1
    · exact h1

theorem State.Safe.dropHead {s : State} (h : s.Safe) (p : PartId) (q : Nat) (e : QEntry) (f : Bool) (k : Nat) :
    (s.dropHead p q e f k).Safe := State.Safe.popHead 32 h ..

theorem State.Safe.instrFault {s : State} (h : s.Safe) (p : PartId) (q : Nat) (e : QEntry) (st : Status) (a b : Nat) :
    (s.instrFault p q e st a b).Safe := State.Safe.setEntryOf (h.faultRecord ..) ..

theorem State.Safe.slotFault {s : State} (h : s.Safe) (p : PartId) (q : Nat) (e : QEntry) (k : Nat) (st : Status)
    (a b : Nat) : (s.slotFault p q e k st a b).Safe := State.Safe.setSlot (h.faultRecord ..) ..

theorem State.Safe.reqFault {s : State} (h : s.Safe) (p : PartId) (q : Nat) (e : QEntry) (st : Status) (a b : Nat) :
    (s.reqFault p q e st a b).Safe := State.Safe.setEntryOf (h.slotFault ..) ..

theorem State.Safe.accessFault {s : State} (h : s.Safe) (p : PartId) (q : Nat) (e : QEntry) (st : Status) (a b : Nat) :
    (s.accessFault p q e st a b).Safe := by
  unfold State.accessFault
  split
  · exact h.reqFault ..
  · exact h.instrFault ..

theorem State.Safe.finish {s : State} (h : s.Safe) (p : PartId) (q : Nat) (e : QEntry) (c : Nat) (b : Bool) (v : Word) :
    (s.finish p q e c b v).Safe := h.setEntryOf ..

/-- The start of a queue head keeps the state safe. -/
theorem State.Safe.startHead {s : State} (h : s.Safe) (p : PartId) (q : Nat) : (s.startHead p q).Safe := by
  unfold State.startHead
  dsimp only
  split
  · exact h
  · split_ifs
    · exact h
    · exact h
    · exact h.dropHead ..
    · exact h.dropHead ..
    · split
      · exact h.instrFault ..
      · exact h.setEntryOf ..

/-! ## Fetch to issue -/

theorem State.Safe.endPacket {s : State} (h : s.Safe) (p : PartId) (f : Bool) : (s.endPacket p f).Safe := by
  unfold State.endPacket
  dsimp only
  split
  · exact h
  · refine State.Safe.addReg (h.setDrv p _ ?_) ..
    exact ⟨(h.2.1 p).1, le_trans (List.length_filter_le ..) (h.2.1 p).2.1, (h.2.1 p).2.2⟩

theorem State.Safe.droverFault {s : State} (h : s.Safe) (c : Ctx) (st : Status) (a b : Nat) :
    (s.droverFault c st a b).Safe := by
  unfold State.droverFault
  dsimp only
  split
  · exact State.Safe.endPacket ((h.faultRecord ..).raise ..) ..
  · exact State.Safe.modDrv ((h.faultRecord ..).raise ..) _ _ (((h.faultRecord ..).raise ..).2.1 _)

theorem State.Safe.stall {s : State} (h : s.Safe) (c : Ctx) (k : Option Nat) : (s.stall c k).Safe := by
  have h1 : (s.modDrv c.p fun d => { d with stalled := true }).Safe := h.modDrv _ _ (h.2.1 _)
  unfold State.stall
  dsimp only
  cases k with
  | none => split
            · exact h1.perf ..
            · exact h1
  | some k => split
              · exact (h1.perf ..).perf ..
              · exact h1.perf ..

theorem State.Safe.issued {s : State} (h : s.Safe) (c : Ctx) (pc : BitVec 14) (n : Nat) : (s.issued c pc n).Safe := by
  have h1 : (s.modDrv c.p fun d => { d.setPc c.disp pc with stalled := false }).Safe :=
    h.modDrv _ _ ((h.2.1 _).setPc ..)
  unfold State.issued
  dsimp only
  split
  · exact (h1.perf ..).addReg ..
  · exact h1.perf ..

/-- The steps from fetch to issue keep the state safe. -/
theorem State.Safe.begin {s : State} (h : s.Safe) (p : PartId) (key : Nat) : (s.begin p key).1.Safe := by
  unfold State.begin
  dsimp only
  split
  · exact h
  · exact h.droverFault ..
  · split
    · exact h.droverFault ..
    · split
      · exact h
      · split
        · exact h.droverFault ..
        · split
          · exact h.stall ..
          · split
            · by_cases he : isEngine ‹Ctx›.w = true
              · simp only [he, if_true]
                exact State.Safe.issued (h.post ..) ..
              · simp only [he, if_false, Bool.false_eq_true]
                exact h.issued ..
            · exact h

/-- An instruction that writes the drover's registers alone keeps the state safe. -/
theorem State.Safe.localOp {s : State} (h : s.Safe) (p : PartId) (key : Nat) (f : Ctx → Drover → Drover)
    (hf : ∀ c d, d.Bounded → (f c d).Bounded) : (s.localOp p key f).Safe := by
  have h1 := h.begin p key
  unfold State.localOp
  revert h1
  generalize s.begin p key = x
  rcases x with ⟨t, _ | c⟩
  · exact fun h1 => h1
  · exact fun h1 => State.Safe.issued (h1.modDrv p _ (hf c _ (h1.2.1 p))) ..

/-- An engine instruction enters a queue only while fewer than 32 wait there. -/
theorem State.Safe.issueEngine {s : State} (h : s.Safe) (p : PartId) (key : Nat) : (s.issueEngine p key).Safe := by
  have h1 := h.begin p key
  unfold State.issueEngine
  revert h1
  generalize s.begin p key = x
  rcases x with ⟨t, _ | c⟩
  · exact fun h1 => h1
  · intro h1
    dsimp only
    split
    · exact h1.stall ..
    · next hq =>
      refine State.Safe.issued (h1.setDrv p _ ?_) ..
      exact (h1.2.1 p).setQueue _ _ (by simp only [List.length_append, List.length_singleton]; omega)

theorem State.Safe.claimMu {s : State} (h : s.Safe) (x0 : Mu) (who : Nat × Nat) (m : Nat) : (s.claimMu x0 who m).Safe :=
  h.setMu m _

/-- Naming the instruction that the new waiting accesses belong to changes the waiting accesses alone. -/
theorem State.Safe.claim {s : State} (h : s.Safe) (s0 : State) (who : Nat × Nat) : (s0.claim s who).Safe := by
  unfold State.claim
  split
  · exact h
  · generalize hl : List.range 32 = l
    have h1 : (l.foldl (fun (s : State) m => s.claimMu (s0.mu m) who m) s).Safe :=
      State.Safe.foldl _ (fun _ _ ht => ht.claimMu ..) _ h
    exact h1.congr rfl rfl rfl rfl rfl rfl rfl rfl

/-- A row of an engine instruction keeps the state safe where its effect does. -/
theorem State.Safe.engineRow {s : State} (h : s.Safe) (p : PartId) (op : Nat) (a : Act) (f : Nat → QEntry → State → State)
    (hf : ∀ q e, (f q e s).Safe) : (s.engineRow p op a f).Safe := by
  unfold State.engineRow
  cases a with
  | issue => exact h.issueEngine ..
  | run => dsimp only; split
           · exact State.Safe.claim (hf ..) ..
           · exact h

/-! ## The state range -/

theorem State.Safe.touch {s : State} (h : s.Safe) (k : Nat) : (s.touch k).Safe := by
  unfold State.touch
  split
  · exact h
  · exact h.congr rfl rfl rfl rfl rfl rfl rfl rfl

theorem State.Safe.markDirty {s : State} (h : s.Safe) (far : Bool) (f b : Nat) : (s.markDirty far f b).Safe :=
  h.congr rfl rfl rfl rfl rfl rfl rfl rfl

theorem State.Safe.poisonHit {s : State} (h : s.Safe) (a : Nat) (pl : Place) : (s.poisonHit a pl).Safe := by
  have h1 : State.Safe (if pl.far then s.addReg (cxlBase pl.unit + 0x18) 1 else s.addReg (muBase pl.unit + 0x10) 1) := by
    split <;> exact h.addReg ..
  unfold State.poisonHit
  dsimp only
  by_cases hp : ePoisoned pl.entry = true
  · rw [if_pos hp]
    exact h1
  · rw [if_neg hp]
    exact (h1.setEntry ..).raise ..

/-- An access that acts on an MU's device keeps the memories canonical. -/
theorem State.Safe.muApply {s : State} (h : s.Safe) (m : Nat) (x : MuAccess) :
    ({ s with mem := Machine.muApply m x s.mem } : State).Safe := by
  cases x with
  | read _ _ => exact h
  | write _ _ => exact h.memWrite ..

theorem State.Safe.muDone {s : State} (h : s.Safe) (m : Nat) : (s.muDone m).Safe := by
  unfold State.muDone
  split
  · exact h
  · exact h.setMu ..

theorem State.Safe.serve {s : State} (h : s.Safe) (m : Nat) (e : ParkEntry) : (s.serve m e).Safe := by
  unfold State.serve
  dsimp only
  split
  · exact h.setMu ..
  · exact (h.muDone m).muApply ..

theorem State.Safe.admitParked {s : State} (h : s.Safe) (m : Nat) : (s.admitParked m).Safe :=
  State.Safe.setMu ((h.addReg ..).addReg ..) ..

theorem State.Safe.longest {s : State} (h : s.Safe) (m : Nat) (l : List ParkEntry) : (s.longest m l).Safe := h.setReg ..

theorem State.Safe.serveQueue {s : State} (h : s.Safe) (m : Nat) : (s.serveQueue m).Safe := by
  have h1 : State.Safe (if (s.mu m).retraining then s else s.longest m ((s.mu m).parked.take 64)) := by
    split
    · exact h
    · exact h.longest ..
  unfold State.serveQueue
  dsimp only
  exact State.Safe.admitParked (State.Safe.foldl _ (fun t e ht => ht.serve m e) _ (h1.setMu ..)) ..

theorem State.Safe.serveAll {s : State} (h : s.Safe) (m : Nat) : (s.serveAll m).Safe :=
  State.Safe.foldl _ (fun _ _ ht => ht.serveQueue m) _ h

/-- An access that comes to an MU is served, or waits there. -/
theorem State.Safe.muAccess {s : State} (h : s.Safe) (m : Nat) (x : MuAccess) : (s.muAccess m x).Safe := by
  unfold State.muAccess
  dsimp only
  split
  · split
    · exact State.Safe.serveAll (State.Safe.admitParked (h.setMu ..) ..) ..
    · exact State.Safe.admitParked (h.setMu ..) ..
  · split
    · exact h.setMu ..
    · exact (h.muDone m).muApply ..

theorem State.Safe.readBlocks (fuel : Nat) : ∀ {s : State}, s.Safe → ∀ (job : Option Nat) (a n : Nat) (acc : Bytes),
    (State.readBlocks fuel s job a n acc).2.Safe := by
  induction fuel with
  | zero => exact fun h _ _ _ _ => h
  | succ k ih =>
    intro s h job a n acc
    unfold State.readBlocks
    split
    · exact h
    · split
      · exact h
      · next pl _ =>
        have h1 : State.Safe (if pl.far then s.touch (ePage a)
            else (s.touch (ePage a)).muAccess pl.unit (.read (pl.key % 2 ^ 32) (chunkLen a n))) := by
          split
          · exact h.touch _
          · exact (h.touch _).muAccess ..
        dsimp only
        split
        · exact h1.poisonHit ..
        · exact ih h1 ..

/-- A read of the state range keeps the state safe. -/
theorem State.Safe.stRead {s : State} (h : s.Safe) (job : Option Nat) (a n : Nat) : (s.stRead job a n).2.Safe :=
  State.Safe.readBlocks _ h ..

/-- One block of a write reaches a memory, waits at its MU, or is held by pass 5 of a move. -/
theorem State.Safe.writeBlock {s : State} (h : s.Safe) (a : Nat) (pl : Place) (b : Bytes) : (s.writeBlock a pl b).Safe := by
  unfold State.writeBlock
  dsimp only
  split
  · exact (h.touch _).congr rfl rfl rfl rfl rfl rfl rfl rfl
  · unfold State.placeWrite
    split
    · exact State.Safe.memWrite ((h.touch _).markDirty ..) ..
    · exact State.Safe.muAccess ((h.touch _).markDirty ..) ..

theorem State.Safe.writeBlocks (fuel : Nat) : ∀ {s : State}, s.Safe → ∀ (job : Option Nat) (a : Nat) (b : Bytes),
    (State.writeBlocks fuel s job a b).Safe := by
  induction fuel with
  | zero => exact fun h _ _ _ => h
  | succ k ih =>
    intro s h job a b
    unfold State.writeBlocks
    split
    · exact h
    · split
      · exact h
      · exact ih (h.writeBlock ..) ..

/-- A write of the state range keeps the state safe; one that is refused changes nothing. -/
theorem State.stWrite_spec {s : State} (job : Option Nat) (a : Nat) (b : Bytes) :
    (∀ e, (s.stWrite job a b).1 = some e → (s.stWrite job a b).2 = s) ∧
      (s.Safe → (s.stWrite job a b).2.Safe) := by
  unfold State.stWrite
  split
  · exact ⟨fun _ _ => rfl, fun h => h⟩
  · exact ⟨fun _ h => (by cases h), fun h => State.Safe.writeBlocks _ h ..⟩

/-! ## Hold SRAM -/

@[simp] theorem State.markLive_part (s : State) (p p' : PartId) (off n : Nat) : (s.markLive p off n).part p' = s.part p' := by
  have h : ∀ (l : List Nat) (t : State), (l.foldl (fun s i =>
      s.setReg (ptBase p + 0x28 + 8 * ((off / 65536 + i) / 64))
        (s.reg (ptBase p + 0x28 + 8 * ((off / 65536 + i) / 64)) ||| BitVec.ofNat 64 (2 ^ ((off / 65536 + i) % 64)))) t).part
        p' = t.part p' := by
    intro l
    induction l with
    | nil => exact fun _ => rfl
    | cons i r ih => exact fun t => by rw [List.foldl_cons, ih]; rfl
  unfold State.markLive
  split
  · rfl
  · exact h _ _

/-- What hold SRAM reads as after a write: the bytes written where they lie, else what it held (R124). -/
theorem State.holdByte_hsWrite (s : State) (p p' : PartId) (off a : Nat) (b : Bytes) :
    (s.hsWrite p off b).holdByte p' a =
      if p' = p ∧ off ≤ a ∧ a < off + b.length then b.getD (a - off) 0 else s.holdByte p' a := by
  unfold State.hsWrite State.holdByte
  rw [State.markLive_part, State.part_modPart]
  by_cases hp : p' = p
  · subst hp
    simp only [if_true, true_and]
    split
    · next h =>
      have := memByte_memWrite_in b (s.part p').hsram off (a - off) (by omega)
      rwa [show off + (a - off) = a by omega] at this
    · next h => exact memByte_memWrite_out b _ _ _ (by omega)
  · simp only [hp, if_false, false_and]

end Sys2Proof.Machine
end

