-- ==== Sys2Proof/Laws/Send.lean ====
section
/-! SUPPORT. What sending a frame does: the port or the replay buffer it enters, and that nothing but registers, the
fabric and its ports changes (and, for a WRITE, the tariff counters). -/

namespace Sys2Proof.Machine

theorem State.OnlySends.refl (s : State) : s.OnlySends s := rfl

theorem State.OnlySends.trans {s t u : State} (h1 : s.OnlySends t) (h2 : t.OnlySends u) : s.OnlySends u := by
  unfold State.OnlySends at *
  rw [h2, h1]

theorem State.OnlySends.modFab {s t : State} (h : s.OnlySends t) (f : Fab → Fab) : s.OnlySends (t.modFab f) :=
  h.trans rfl

theorem State.OnlySends.setPort {s t : State} (h : s.OnlySends t) (k : PortId) (x : Port) : s.OnlySends (t.setPort k x) :=
  h.trans rfl

theorem State.OnlySends.addReg {s t : State} (h : s.OnlySends t) (o n : Nat) : s.OnlySends (t.addReg o n) := h.trans rfl

theorem State.OnlySends.markPath {s t : State} (h : s.OnlySends t) (d : NodeId) (p : Nat) :
    s.OnlySends (t.markPath d p) := by
  unfold State.markPath
  split
  · exact h
  · exact h.modFab _

theorem State.OnlySends.inject {s t : State} (h : s.OnlySends t) (k : PortId) (j : Option Nat) (f : Frame) :
    s.OnlySends (t.inject k j f) := by
  unfold State.inject
  split
  · exact h.setPort ..
  · split
    · exact h.setPort ..
    · dsimp only
      split
      · exact (h.modFab _).setPort ..
      · exact h.setPort ..

/-- A frame put on a path changes ports and injection buckets alone, and sends nothing anew. -/
theorem State.onlySends_emit {s t : State} {f : Frame} {j : Option Nat} (h : s.emit f j = some t) : s.OnlySends t := by
  unfold State.emit at h
  dsimp only at h
  split at h
  · cases h; exact State.OnlySends.setPort (.refl s) ..
  · split at h
    · cases h; exact State.OnlySends.inject (.refl s) ..
    · cases h

/-- The replay buffer and the sequence numbers stand when a copy goes out. -/
def SameSent (s t : State) : Prop := t.fab.sent = s.fab.sent ∧ t.fab.seqs = s.fab.seqs

theorem State.sameSent_inject (s : State) (k : PortId) (j : Option Nat) (f : Frame) : SameSent s (s.inject k j f) := by
  unfold State.inject
  split
  · exact ⟨rfl, rfl⟩
  · split
    · exact ⟨rfl, rfl⟩
    · dsimp only
      split <;> exact ⟨rfl, rfl⟩

theorem State.sameSent_emit {s t : State} {f : Frame} {j : Option Nat} (h : s.emit f j = some t) : SameSent s t := by
  unfold State.emit at h
  dsimp only at h
  split at h
  · cases h; exact ⟨rfl, rfl⟩
  · split at h
    · cases h; exact State.sameSent_inject ..
    · cases h

theorem State.sameSent_markPath (s : State) (d : NodeId) (p : Nat) : SameSent s (s.markPath d p) := by
  unfold State.markPath
  split <;> exact ⟨rfl, rfl⟩

/-- All that a transmission does: the copy keeps its unit, destination, number, frame, owner and place; only registers,
path marks and ports change. -/
theorem State.transmit_spec (n : Nat) : ∀ (s : State) (x : Sent),
    s.OnlySends (s.transmit n x).1 ∧ SameSent s (s.transmit n x).1 ∧ (s.transmit n x).2.unit = x.unit ∧
      (s.transmit n x).2.dst = x.dst ∧ (s.transmit n x).2.seq = x.seq ∧ (s.transmit n x).2.frame = x.frame ∧
      (s.transmit n x).2.owner = x.owner ∧ (s.transmit n x).2.place = x.place := by
  induction n with
  | zero => exact fun s x => ⟨.refl s, ⟨rfl, rfl⟩, rfl, rfl, rfl, rfl, rfl, rfl⟩
  | succ n ih =>
    intro s x
    unfold State.transmit
    dsimp only
    split
    · exact ⟨.refl s, ⟨rfl, rfl⟩, rfl, rfl, rfl, rfl, rfl, rfl⟩
    · next p0 ps _ =>
      have h0 : s.OnlySends (if x.path.isSome then s.addReg 0x301040 1 else s) := by
        split
        · exact State.OnlySends.addReg (.refl s) ..
        · exact .refl s
      have h0' : SameSent s (if x.path.isSome then s.addReg 0x301040 1 else s) := by
        split <;> exact ⟨rfl, rfl⟩
      revert h0 h0'
      generalize (if x.path.isSome then s.addReg 0x301040 1 else s) = t
      intro h0 h0'
      split
      · next u hu =>
        have h1 := State.sameSent_emit hu
        exact ⟨h0.trans (State.onlySends_emit hu), ⟨h1.1.trans h0'.1, h1.2.trans h0'.2⟩, rfl, rfl, rfl, rfl, rfl, rfl⟩
      · generalize pickPath x (p0 :: ps) = p
        have h2 : s.OnlySends ((t.addReg 0x301078 1).markPath x.dst p) := (h0.addReg ..).markPath ..
        have h3 : SameSent s ((t.addReg 0x301078 1).markPath x.dst p) :=
          have h4 := State.sameSent_markPath (t.addReg 0x301078 1) x.dst p
          ⟨h4.1.trans h0'.1, h4.2.trans h0'.2⟩
        split
        · exact ⟨h2, h3, rfl, rfl, rfl, rfl, rfl, rfl⟩
        · obtain ⟨a, b, c⟩ := ih ((t.addReg 0x301078 1).markPath x.dst p)
            { x with sends := x.sends + 1, path := some p, heldBack := false }
          exact ⟨h2.trans a, ⟨b.1.trans h3.1, b.2.trans h3.2⟩, c⟩

/-- A frame kept and sent is the newest in the replay buffer; nothing but registers, the fabric and its ports changes. -/
theorem State.keepAndSend_spec (s : State) (x : Sent) :
    s.OnlySends (s.keepAndSend x) ∧ (s.keepAndSend x).fab.seqs = s.fab.seqs ∧
      ∃ y, (s.keepAndSend x).fab.sent = s.fab.sent ++ [y] ∧ y.unit = x.unit ∧ y.dst = x.dst ∧ y.seq = x.seq ∧
        y.frame = x.frame ∧ y.owner = x.owner ∧ y.place = x.place := by
  unfold State.keepAndSend
  dsimp only
  split
  · exact ⟨State.OnlySends.modFab (.refl s) _, rfl, _, rfl, rfl, rfl, rfl, rfl, rfl, rfl⟩
  · obtain ⟨a, b, c⟩ := State.transmit_spec 8 s x
    exact ⟨a.modFab _, b.2, _, congrArg (· ++ [(s.transmit 8 x).2]) b.1, c⟩

/-- What sending a frame that is no WRITE charges lies in registers (R62). -/
theorem State.chargeSend_spec (s : State) (f : Frame) (h : hType f ≠ 0) :
    s.OnlySends (s.chargeSend f) ∧ (s.chargeSend f).fab = s.fab := by
  unfold State.chargeSend
  dsimp only
  rw [if_neg h]
  split
  · exact ⟨.refl s, rfl⟩
  · exact ⟨State.OnlySends.addReg (.refl s) .., rfl⟩

/-- Sending a frame that is no WRITE and finds room in its replay buffer: its copy, numbered next in its space, is the
newest there (R290, R291), and nothing but registers, the fabric and its ports changes. -/
theorem State.sendSeq_spec (s : State) (f : Frame) (o : Option (PartId × Nat × Nat)) (pl : Nat) (h : hType f ≠ 0)
    (hk : s.mayKeep f = true) :
    s.OnlySends (s.sendSeq f o pl) ∧
      s.SentOne (s.sendSeq f o pl) (hDst f) fun g =>
        g = numbered f (tabGet (fun _ => 0) s.fab.seqs (seqKey (hUnit f) (hDst f))) := by
  unfold State.sendSeq
  dsimp only
  rw [if_pos hk]
  unfold State.sendNow
  dsimp only
  generalize hs : s.modFab _ = t
  obtain ⟨h1, h2⟩ := State.chargeSend_spec t f h
  generalize hx : Sent.mk .. = x
  obtain ⟨a, _, y, b, c1, c2, c3, c4, _⟩ := State.keepAndSend_spec (t.chargeSend f) x
  rw [h2] at b
  subst hs
  subst hx
  exact ⟨((State.OnlySends.modFab (.refl s) _).trans h1).trans a, y, b, c2, by rw [c3, c1], c4⟩

end Sys2Proof.Machine
end

