-- ==== Sys2Proof/WellFormed.lean ====
section
/-! DEFINITION. Well-formed commands: the shape of the lists a command carries. A command that is not well formed
stands for nothing that can arrive at the block; the meanings are total and give it one all the same. -/

namespace Sys2Proof

/-- One entry for each of the 16 clusters of a partition (R372). -/
def PartTest.wf (t : PartTest) : Bool := t.cores.length == 16 && t.badRows.length == 4

/-- A sampler record is 128 bytes (R69). -/
def samplerWf (b : Bytes) : Bool := b.length == 128

def PromptLog.wf (l : PromptLog) : Bool := samplerWf l.sampler

def Mirror.wf : Mirror → Bool
  | .log l => l.wf
  | _ => true

def Ctl.wf : Ctl → Bool
  | .mirror m => m.wf
  | _ => true

/-- A frame's payload is at most 4,096 bytes, and an ACK frame carries at most 512 entries (R272, R292). -/
def Body.wf : Body → Bool
  | .bytes b => decide (b.length ≤ 4096)
  | .ctl c => c.wf
  | .acks l => decide (l.length ≤ 512)
  | _ => true

def Frame.wf (f : Frame) : Bool := f.body.wf

/-- The devices of S5: no port twice. -/
def devicesWf (l : List CxlDevice) : Bool := decide (l.map (·.port)).Nodup

/-- Well-formed commands. -/
def Instr.wf : Instr → Bool
  | .admissionRequest a => samplerWf a.sampler
  | .caravanFrame0 f | .caravanFrame f | .write f | .readReq f | .readResp f => f.wf
  | .frameReceive _ f _ _ _ => f.wf
  | .controlForSwitchedJob _ _ _ c => c.wf
  | .mirrorCopy m => m.wf
  | .retestDone _ t _ => t.wf
  | .stageS1 _ _ _ _ d _ => d.length == 64
  | .stageS2 _ ps _ => ps.length == 16 && ps.all PartTest.wf
  | .stageS5 ds _ => devicesWf ds
  | .tempRefresh ts => ts.length == 7
  | .packetPrefetch _ d => decide (d.length ≤ 2048)
  | _ => true

end Sys2Proof
end

