-- ==== Sys2Proof/Tests/Slice0.lean ====
section
/-! SUPPORT. Tests: ill-formed commands are refused by `Instr.wf`, and for every hypothesis of a statement a concrete
state and operands that meet it. -/

namespace Sys2Proof.Tests

open Sys2Proof Sys2Proof.Machine

set_option Elab.async false

/-! ## States for the tests -/

/-- A drover-local word (Table 4.3): opcode, DST, SRC_A, SRC_B, the low 94 bits. -/
def loc (op dst a b : Nat) (low : Nat := 0) : InsnWord :=
  BitVec.ofNat 128 (op * 2 ^ 120 + 15 * 2 ^ 112 + dst * 2 ^ 106 + a * 2 ^ 100 + b * 2 ^ 94 + low)

/-- An engine word (Table 4.2): opcode, queue, tag reference, signal 0xFF, the low 92 bits. -/
def eng (op q tag : Nat) (low : Nat := 0) : InsnWord :=
  BitVec.ofNat 128 (op * 2 ^ 120 + q * 2 ^ 112 + tag * 2 ^ 100 + 255 * 2 ^ 92 + low)

/-- Partition 0 runs a program of one word in its main context. -/
def run (w : InsnWord) (f : Drover → Drover := id) : State :=
  State.reset.modDrv 0 fun d => f { d with dstate := .running, istore := [w] }

def ctx (w : InsnWord) : Ctx := { p := 0, disp := false, pc := 0, w := w }

def packet (w : InsnWord) : Packet :=
  { ring := 0, immediate := true, target := 0, job := 0, cq := 0, id := 7, args := [], insns := [w], sqHead := 1,
    discard := false }

/-- Partition 0 runs a packet of one word in its dispatch context. -/
def runD (w : InsnWord) (f : Drover → Drover := id) : State :=
  State.reset.modDrv 0 fun d => f { d with dstate := .dispatch, resume := .halted, pkt := some (packet w) }

def ctxD (w : InsnWord) : Ctx := { p := 0, disp := true, pc := 0, w := w }

/-- A queue entry of tag reference `tag` in a phase. -/
def entry (w : InsnWord) (tag : Nat) (ph : QPhase) : QEntry := { Drover.reset.entryOf (ctx w) with tag := tag, phase := ph }

/-! ## Ill-formed commands -/

def frameWith (b : Body) : Frame := { hdr := ⟨⟨0, 0⟩, 0, 0, 0, 0, 0, 0⟩, mft := none, body := b }

theorem test_wf_sampler_short : (Instr.mirrorCopy (.log
    { id := 1, tenant := 0, turn := 0, admittedNs := 0, sampler := List.replicate 127 0, entries := [] })).wf = false := by
  decide +kernel

theorem test_wf_payload_long : (Instr.write (frameWith (.bytes (List.replicate 4097 0)))).wf = false := by decide +kernel

theorem test_wf_acks_many : (Instr.write (frameWith (.acks (List.replicate 513 0)))).wf = false := by decide +kernel

theorem test_wf_part_test : (Instr.retestDone 0 { cores := [], badRows := [0, 0, 0, 0], holdOk := true, droverOk := true } 0).wf = false := by
  decide

theorem test_wf_digest_short : (Instr.stageS1 true true true true [0] 0).wf = false := by decide

theorem test_wf_parts_few : (Instr.stageS2 true [] 0).wf = false := by decide

def device (k : CxlId) : CxlDevice := { port := k, bytes := deviceBytes, serial := 0, dirty := 0, marchOk := true, width := 1, rate := 1 }

theorem test_wf_device_twice : (Instr.stageS5 [device 3, device 3] 0).wf = false ∧ (Instr.stageS5 [device 3, device 4] 0).wf = true := by
  decide

theorem test_wf_temps_few : (Instr.tempRefresh [0, 0, 0, 0, 0, 0]).wf = false := by decide

theorem test_wf_packet_long : (Instr.packetPrefetch 0 (List.replicate 2049 0)).wf = false := by decide +kernel

/-! ## Commands and their queue -/

/-- The hypothesis of StepRunsFrontCommand. -/
theorem test_step_front : ({ State.reset with pending := [.nop 0] } : State).pending = .nop 0 :: [] := rfl

/-- The hypothesis of EmptyQueueTicks. -/
theorem test_step_idle : State.reset.pending = [] := rfl

/-! ## Control opcodes -/

/-- The hypotheses of ControlOpcodesWriteResults: register and immediate forms, in both contexts, CMP to p7. -/
theorem test_arith_ready :
    (∀ x ∈ [(0x01, loc 0x01 63 0 0 (2 ^ 64 - 1)), (0x02, loc 0x02 0 63 0), (0x03, loc 0x03 1 2 3),
        (0x03, loc 0x03 1 2 0 (2 ^ 93 + 7)), (0x04, loc 0x04 1 2 3), (0x05, loc 0x05 1 2 3), (0x06, loc 0x06 1 2 3),
        (0x07, loc 0x07 1 2 3), (0x08, loc 0x08 1 2 3), (0x09, loc 0x09 1 2 0 (2 ^ 93 + 64)), (0x0A, loc 0x0A 1 2 3),
        (0xB2, loc 0xB2 1 0 0), (0x0B, loc 0x0B 7 1 2 (7 * 2 ^ 90))],
      (run x.2).Ready 0 x.1 (ctx x.2)) ∧
    ∀ x ∈ [(0x01, loc 0x01 56 0 0 5), (0x0B, loc 0x0B 0 1 2)], (runD x.2).Ready 0 x.1 (ctxD x.2) := by
  unfold State.Ready
  decide +kernel

/-- Its hypotheses about branches: a CALL with 15 entries and with 16, a RET with none of its context. -/
theorem test_branch_ready :
    (∀ x ∈ [(0x00, loc 0 0 0 0), (0x0C, loc 0x0C 0 0 0 16383)], (run x.2).Ready 0 x.1 (ctx x.2)) ∧
    (let s := run (loc 0x0D 0 0 0 9) fun d => { d with stack := List.replicate 15 (false, 3) }
     s.Ready 0 0x0D (ctx (loc 0x0D 0 0 0 9)) ∧ (s.drv 0).stack.length < 16) ∧
    let s := run (loc 0x0D 0 0 0 9) fun d => { d with stack := List.replicate 16 (false, 3) }
    s.Ready 0 0x0D (ctx (loc 0x0D 0 0 0 9)) ∧ 16 ≤ (s.drv 0).stack.length := by
  unfold State.Ready
  decide +kernel

/-- A RET with no entry of its own context. -/
theorem test_ret_empty :
    let s := run (loc 0x0E 0 0 0) fun d => { d with stack := [(true, 3)] }
    s.Ready 0 0x0E (ctx (loc 0x0E 0 0 0)) ∧ ∀ e ∈ (s.drv 0).stack, e.1 ≠ (ctx (loc 0x0E 0 0 0)).disp :=
  ⟨by unfold State.Ready; decide +kernel, by simp [run, ctx]⟩

def retState : State := run (loc 0x0E 0 0 0) fun d => { d with stack := [(true, 4), (false, 3)] }

/-- A RET pops past a newer entry of the other context. -/
theorem test_ret_ready :
    retState.Ready 0 0x0E (ctx (loc 0x0E 0 0 0)) ∧ (retState.drv 0).stack = [(true, 4)] ++ (false, 3) :: [] ∧
      ∀ e ∈ [((true, 4) : Bool × BitVec 14)], e.1 ≠ (ctx (loc 0x0E 0 0 0)).disp :=
  ⟨by unfold State.Ready; decide +kernel, by simp [retState, run], by simp [ctx]⟩

/-- An image with one entry. -/
def image : Image :=
  { id := 1, role := .unset, entries := [5], isaMax := 0x12, autostart := false, code := [], data := [], dataLoad := 0,
    key := 0, digest := [], signed := [], addr := 0, boot := false }

def sysW (sub : Nat) : InsnWord := loc 0x0F 0 0 0 (sub * 2 ^ 86)

/-- The hypotheses of SystemOpcodesChangeContext, the faulting contexts among them. -/
theorem test_system_ready :
    (run (sysW 0)).Ready 0 0x100 (ctx (sysW 0)) ∧
    ((run (sysW 1)).Ready 0 0x101 (ctx (sysW 1)) ∧ ∀ r, r < 4 → ((run (sysW 1)).ring r).fetched = []) ∧
    ((runD (sysW 2)).Ready 0 0x102 (ctxD (sysW 2)) ∧ ((runD (sysW 2)).drv 0).pkt = some (packet (sysW 2))) ∧
    (let s := runD (sysW 3) fun d => { d with image := some image }
     s.Ready 0 0x103 (ctxD (sysW 3)) ∧ (s.drv 0).image = some image ∧ image.entries[(sysW 3).toNat % 32]? = some 5) ∧
    (runD (sysW 0)).Ready 0 0x100 (ctxD (sysW 0)) ∧ (runD (sysW 1)).Ready 0 0x101 (ctxD (sysW 1)) ∧
    (run (sysW 2)).Ready 0 0x102 (ctx (sysW 2)) ∧ (run (sysW 3)).Ready 0 0x103 (ctx (sysW 3)) := by
  unfold State.Ready
  decide +kernel

/-! ## A node that serves a request -/

/-- The manifest of request 0x51 of tenant 7 in DECODE, NEXT_POS 5. -/
def mft : Manifest :=
  { w0 := 0x0007000000000051, w1 := 0x30000, w2 := 0, w3 := 5, w4 := 0, w5 := 0, w6 := 0, w7 := 0x8f08ff5900000000 }

/-- A fault-free packet that completes in ring 0. -/
def ended : EndedPkt := { serial := 1, pkt := packet 0, status := St.ok, s56 := 1, s57 := 2 }

def setParts (p : PartId) (f : Part → Part) (s : State) : State := s.modPart p f

/-- Partition 0 serves job 0 with the request in slot 3, a member of convoy 0; page 0 of the state range is mapped;
completion ring 0 is enabled; tenant 7 has counter set 0. -/
def world (f : Drover → Drover := id) : State :=
  let s := State.reset.modPart 0 fun x =>
    { x with
      st := .serving, curJob := some 0, role := .generate,
      hsram := memWrite (memWrite (memWrite [] 0xBF00C0 (mBytes mft)) 0x20100 (wordBytes 0x8000000000000004)) 0x20108 (wordBytes 3),
      slots := [(3, { held := true })], drv := f x.drv }
  let s := { s with spt := [(0, 0x8000000000000000)], meter := { map := [(7, 0)], sets := [] } }
  let s := (s.setReg 0x105000 0x20000).setReg 0x105008 0x10000
  (s.setReg (cqOff 0 + 8) 0x0000000100000024).setReg (jobBase 0) 0x8100000000000001

/-- The state of a node that has reached S8. -/
def up (s : State) : State := { s with boot := { s.boot with started := true, stage := 9, ready := true } }

/-- The premises about the node: it has started, it is ready, and it takes frames. -/
theorem test_up :
    (up world).clocked = true ∧ (up world).boot.ready = true ∧ (up world).accepts = true ∧ world.boot.ready = false ∧
      world.clocked = false ∧ ({ world with boot := { world.boot with fatal := true } } : State).accepts = false ∧
      (world.modFab fun b => { b with joinRefused := true }).accepts = false := by
  decide +kernel

/-- Slot of an instruction in partition 0 that its engine runs. -/
def engine (w : InsnWord) (f : QEntry → QEntry := id) : State :=
  world fun d => d.setQueue (iQueue w) [f { d.entryOf (ctx w) with tag := iTag w, phase := .running }]

def head0 (w : InsnWord) (f : QEntry → QEntry := id) : QEntry :=
  f { Drover.reset.entryOf (ctx w) with tag := iTag w, phase := .running }

def desc (space fmt addr rows cols stride : Nat) : Desc :=
  BitVec.ofNat 256 (space * 2 ^ 56 + fmt * 2 ^ 52 + addr + cols * 2 ^ 80 + rows * 2 ^ 104 + stride * 2 ^ 224)

/-! ## Packets -/

/-- The hypotheses of PacketsRunToCompletion: an IMMEDIATE packet in RUNNING and in HALTED. -/
theorem test_packet_take (ds : DState) (h : ds ∈ [.running, .halted]) :
    let s := (world fun d => { d with dstate := ds }).setRing 0 { Ring.reset with fetched := [packet 0] }
    (s.part 0).st = .serving ∧ s.jobOf 0 = some (packet 0).job ∧
      s.nextPacket 0 (decide (ds = .reset ∨ ds = .halted ∨ ds = .faulted)) = some (0, packet 0) ∧
      s.regFld (sqOff 0 + 8) 3 0 ≤ 12 := by
  revert h
  cases ds <;> decide +kernel

/-- The hypotheses of its refusal: the partition does not serve, or serves another job. -/
theorem test_packet_refused (f : Part → Part) (h : f = (fun x => { x with st := .vacant }) ∨
    f = fun x => { x with curJob := some 1 }) :
    let s := setParts 0 f (world.setRing 0 { Ring.reset with fetched := [packet 0] })
    ((s.part 0).st ≠ .serving ∨ s.jobOf 0 ≠ some (packet 0).job) ∧ (packet 0).ring = 0 ∧ (s.ring 0).fetched = [packet 0] ∧
      (∀ q, q < 4 → q ≠ 0 → (s.ring q).fetched = []) ∧ s.regFld (sqOff 0 + 8) 3 0 ≤ 12 ∧ s.cqOf 0 (packet 0).cq = some 0 ∧
      s.cqEnabled 0 = true ∧ 0 < s.cqFree 0 ∧ s.regFld (cqOff 0 + 8) 4 0 ≤ 16 := by
  rcases h with rfl | rfl <;> decide +kernel

theorem test_packet_end :
    ((world fun d => { d with dstate := .dispatch, pkt := some (packet 0), dispPc := 1 }).drv 0).dispPc.toNat =
      (packet 0).insns.length ∧
    (let s := world fun d => { d with ended := [ended] }
     (s.drv 0).ended = [] ++ ended :: [] ∧ (∀ q ∈ (s.drv 0).entries, q.pkt ≠ some ended.serial) ∧
      s.cqOf ended.pkt.ring ended.pkt.cq = some 0 ∧ s.cqEnabled 0 = true ∧ s.regFld (cqOff 0 + 8) 4 0 ≤ 16 ∧
      ended.pkt.discard = false ∧ 0 < (s.setRing 0 { s.ring 0 with reserved := (s.ring 0).reserved - 1 }).cqFree 0) ∧
    (let s := (world fun d => { d with dstate := .running, waitAt := some (0, 10, 0) }).setRing 0
       { Ring.reset with fetched := [{ packet 0 with immediate := false }] }
     let s := { s with pins := { s.pins with clkT := 1001 } }
     s.nextPacket 0 true = some (0, { packet 0 with immediate := false }) ∧ (s.drv 0).waitRaised = false ∧ s.pending = [] ∧
      (s.drv 0).dstate = .running ∧ (s.drv 0).waitAt = some (0, 10, 0) ∧ 0 + 100 * 10 < s.pins.clkT) := by
  decide +kernel

/-! ## Hold SRAM, signals, the manifest table -/

/-- The hypotheses of DroverLocalMovesAccessHoldSram, at the last address of hold SRAM and one past it. -/
theorem test_moves_ready :
    (∀ x ∈ [(0x1E, loc 0x1E 1 0 0 12582904), (0x1F, loc 0x1F 0 0 1 12582904), (0x1C, loc 0x1C 3 0 3 12582880),
        (0x1D, loc 0x1D 3 0 3 12582880), (0x1E, loc 0x1E 1 0 0 12582905), (0x1F, loc 0x1F 0 0 1 12582905),
        (0x1C, loc 0x1C 3 0 3 12582881), (0x1D, loc 0x1D 3 0 3 12582881)], (run x.2).Ready 0 x.1 (ctx x.2)) ∧
    ((run (loc 0x1E 1 0 0 12582904)).drv 0).sreg false 0 = 0 := by
  unfold State.Ready
  decide +kernel

/-- A signal word (Table 4.4): opcode, bits [111:96], the rest. -/
def sig (op g h : Nat) (low : Nat := 0) : InsnWord :=
  BitVec.ofNat 128 (op * 2 ^ 120 + 15 * 2 ^ 112 + g * 2 ^ 104 + h * 2 ^ 96 + low)

def abortW (q tag : Nat) : InsnWord := sig 0xA4 0 0 (2 ^ (78 + q) + tag * 2 ^ 66)

/-- The hypotheses of SignalsAndAbort: a range of one signal, a wait that holds at 2^31 − 1 and one that does not at
2^31, a FENCE behind an earlier instruction and behind none. -/
theorem test_signals_ready :
    (∀ x ∈ [(0xA0, sig 0xA0 255 255 7), (0xA6, sig 0xA6 9 9 (5 * 2 ^ 90)), (0xA5, sig 0xA5 0 0 (56 * 2 ^ 90 + 2 ^ 87))],
      (run x.2).Ready 0 x.1 (ctx x.2)) ∧
    (let s := run (sig 0xA1 9 9 (2 ^ 87)) fun d => d.setSignal 9 0x7FFFFFFF false
     s.Ready 0 0xA1 (ctx (sig 0xA1 9 9 (2 ^ 87))) ∧ ((s.drv 0).count 9 - 0).toNat < 2 ^ 31) ∧
    (let s := run (sig 0xA1 9 9 (2 ^ 87)) fun d => d.setSignal 9 0x80000000 false
     s.Ready 0 0xA1 (ctx (sig 0xA1 9 9 (2 ^ 87))) ∧ 2 ^ 31 ≤ ((s.drv 0).count 9 - 0).toNat) ∧
    (let s := run (sig 0xA2 0 0 (2 ^ 78)) fun d => { d.setQueue 0 [entry 0 3 .running] with nextUid := 1 }
     s.Ready 0 0xA2 (ctx (sig 0xA2 0 0 (2 ^ 78))) ∧ (∀ e ∈ (s.drv 0).queue 0, e.uid < 1)) ∧
    (run (sig 0xA2 0 0 (2 ^ 86))).Ready 0 0xA2 (ctx (sig 0xA2 0 0 (2 ^ 86))) := by
  unfold State.Ready
  decide +kernel

/-- ABORT with its tag reference behind the head, and with none. -/
theorem test_abort_ready :
    let s := run (abortW 8 3) fun d => d.setQueue 8 [entry 0 4 .running, entry 0 3 .queued]
    s.Ready 0 0xA4 (ctx (abortW 8 3)) ∧ iQmask (abortW 8 3) = 2 ^ 8 ∧ iSigTag (abortW 8 3) = 3 ∧
      ((s.drv 0).queue 8).map (·.tag) = [4, 3] ∧ ((s.drv 0).queue 7) = [] := by
  unfold State.Ready
  decide +kernel

/-- The world with its drover at one word of the main context. -/
def at0 (w : InsnWord) (f : Drover → Drover := id) : State :=
  world fun d => f { d with dstate := .running, istore := [w], sregs := vset (vset d.sregs 1 3) 2 0 }

/-- The hypotheses of ManifestOpcodes: the request in slot 3, its phase one that DECODE may go to, its slot named by an
instruction in flight, ended, or holding none. -/
theorem test_manifest_ready :
    (∀ x ∈ [(0x60, loc 0x60 5 1 0 7), (0x62, loc 0x62 0 1 0 10), (0x61, loc 0x61 0 1 0 4), (0x63, loc 0x63 0 1 0),
        (0x60, loc 0x60 5 2 0 7), (0x61, loc 0x61 0 2 0 4), (0x62, loc 0x62 0 2 0 10), (0x63, loc 0x63 0 2 0),
        (0x52, loc 0x52 0 2 0)], (at0 x.2).Ready 0 x.1 (ctx x.2)) ∧
    (let s := at0 (loc 0x60 5 1 0 7)
     ((s.drv 0).sreg false 1).toNat = 3 ∧ (s.slot 0 3).held = true ∧ (s.slot 0 0).held = false ∧
      (s.reg 0x101010).toNat % 2 ^ 24 + 65536 ≤ 12582912 ∧ s.manifest 0 3 = mft ∧ mCrcOk mft = true ∧
      (s.part 0).fetches = [] ∧ (s.drv 0).entries = []) ∧
    (let s := at0 (loc 0x63 0 1 0) fun d => d.setQueue 0 [entry 0 3 .running]
     s.Ready 0 0x63 (ctx (loc 0x63 0 1 0)) ∧ ∃ e ∈ (s.drv 0).entries, e.tag = 3) ∧
    (let s := (at0 (loc 0x63 0 1 0)).setSlot 0 3 { held := true, gone := true }
     s.Ready 0 0x63 (ctx (loc 0x63 0 1 0)) ∧ (s.slot 0 3).gone = true) ∧
    (let s := (at0 (loc 0x62 0 1 0 10)).hsWrite 0 0xBF00C0 (mBytes { mft with w7 := 0 })
     s.Ready 0 0x62 (ctx (loc 0x62 0 1 0 10)) ∧ mCrcOk (s.manifest 0 3) = false ∧ (s.slot 0 3).gone = false ∧
      terminal (mPhase (s.manifest 0 3)) = false) := by
  unfold State.Ready
  decide +kernel

/-- The hypotheses of ConvoyMembership: a free row and a request in no convoy; the row a member holds; no row left. -/
theorem test_convoy_ready :
    (let s := (at0 (loc 0x64 7 2 1)).hsWrite 0 0x20100 (zeros 16)
     s.Ready 0 0x64 (ctx (loc 0x64 7 2 1)) ∧ s.cvDefined 0 0 = true ∧ s.slotOk 0 3 = true ∧ (s.drv 0).entries = [] ∧
      s.cvFreeRow 0 0 = some 0 ∧ s.convoyRowOf 0 3 = none ∧ mNextPos (s.manifest 0 3) ≠ 0 ∧ 0 < (s.part 0).rowLimit ∧
      (s.slot 0 3).done = false ∧ mCrcOk (s.manifest 0 3) = true) ∧
    (let s := at0 (loc 0x64 7 2 1)
     s.Ready 0 0x64 (ctx (loc 0x64 7 2 1)) ∧ s.cvFreeRow 0 0 = none ∧ s.convoyRowOf 0 3 = some (0, 0)) ∧
    (let s := at0 (loc 0x65 0 2 1)
     s.Ready 0 0x65 (ctx (loc 0x65 0 2 1)) ∧ (s.cvMembers 0 0).find? (fun x => x.2 = 3) = some (0, 3)) ∧
    (let s := at0 (loc 0x52 0 1 0)
     s.Ready 0 0x52 (ctx (loc 0x52 0 1 0)) ∧ s.slotOk 0 3 = true ∧ (s.convoyRowOf 0 3).isSome ∧
      (s.slot 0 3).gone = false ∧ mPhase (s.manifest 0 3) ∈ [0, 1, 3, 5]) := by
  unfold State.Ready
  decide +kernel

/-! ## Issue, start and retire -/

/-- One issuable word of every engine opcode (Tables 4.9 to 4.15): opcode, queue, tag reference, mode bits. -/
def engineWords : List (Nat × InsnWord) :=
  ([(0x10, 4), (0x11, 4), (0x12, 4), (0x13, 4), (0x14, 4), (0xB0, 4), (0xB1, 4), (0x20, 0), (0x30, 1), (0x31, 1), (0x32, 1),
    (0x33, 1), (0x34, 1), (0x35, 1), (0x36, 1), (0x37, 1), (0x38, 1), (0x39, 1), (0x41, 2), (0x44, 4), (0x51, 3),
    (0xA3, 0)].map fun x => (x.1, eng x.1 x.2 0xFFF)) ++
  ([(0x21, 0), (0x40, 2), (0x43, 4), (0x50, 3)].map fun x => (x.1, eng x.1 x.2 0x400)) ++
  ([(0x70, 5), (0x71, 5)].map fun x => (x.1, eng x.1 x.2 0xFFF (2 ^ 16))) ++
  [(0x72, 5), (0x73, 5), (0x74, 5), (0x80, 6), (0x81, 7), (0x82, 6), (0x83, 7), (0x90, 8), (0x91, 8), (0x92, 8)].map
    fun x => (x.1, eng x.1 x.2 0xFFF)

/-- The hypotheses of InstructionsIssue: every opcode, and the bit of NBU_PCFG that NB_ATT asks for. -/
theorem test_issue_ready :
    engineWords.length = 38 ∧ (∀ x ∈ engineWords, (run x.2).Ready 0 x.1 (ctx x.2)) ∧
    ((run 0).setReg (pcfgOff 0) 0x10).reg (pcfgOff 0) = 0x10 := by
  unfold State.Ready
  decide +kernel

/-- A queue of 31 and of 32 entries; an encoding error, a pending register, a false predicate, another row. -/
theorem test_issue_cases :
    ((((run (eng 0x10 4 0xFFF)).modDrv 0 fun d => d.setQueue 4 (List.replicate 31 (entry 0 0xFFF .queued))).drv 0).queue 4).length < 32 ∧
    32 ≤ ((((run (eng 0x10 4 0xFFF)).modDrv 0 fun d => d.setQueue 4 (List.replicate 32 (entry 0 0xFFF .queued))).drv 0).queue 4).length ∧
    (let w : InsnWord := loc 0x03 1 2 3 + 2 ^ 119
     (run w).fetch 0 = .word (ctx w) ∧ rowKey w = some 0x03 ∧ illegal ((run w).drv 0).isaMax w = some 3) ∧
    (let s := run (loc 0x03 1 2 3) fun d => d.setQueue 4 [{ entry 0 0xFFF .running with wb := some 2 }]
     s.fetch 0 = .word (ctx (loc 0x03 1 2 3)) ∧ illegal (s.drv 0).isaMax (loc 0x03 1 2 3) = none ∧
      ∃ r ∈ scalarRegs (loc 0x03 1 2 3), regKey false r ∈ (s.drv 0).pendingRegs) ∧
    (let w : InsnWord := eng 0x30 1 0xFFF + 2 ^ 116
     rowKey w = some 0x30 ∧ illegal ((run w).drv 0).isaMax w = none ∧ ((run w).drv 0).pred false (iPred w) = iPneg w ∧
      scalarRegs w = []) ∧
    ((.add 0 : Instr), 0x03) ∈ localRows 0 ++ engineRows 0 ∧ ((.vxAdd 0 .issue : Instr), 0x30) ∈ localRows 0 ++ engineRows 0 ∧
    rowKey (loc 0x03 1 2 3) ≠ none ∧ rowKey (loc 0x03 1 2 3) ≠ some 0x30 := by
  decide +kernel

/-- The hypotheses of WaitConditionsWrap: a head whose count is 2^31 − 1, and 2^31, past the value it captured. -/
theorem test_wait_head (k : BitVec 32) (h : k = 0x80000001 ∨ k = 0x80000000) :
    let s := engine (eng 0x30 1 0xFFF) fun e => { e with phase := .queued, waitOn := some (5, k) }
    (∃ e, (s.drv 0).queue 1 = [e] ∧ e.phase = .queued ∧ e.waitOn = some (5, k)) ∧ (s.drv 0).dstate = .reset ∧
      (s.drv 0).count 5 = 0 ∧ (0 + 2 ^ 32 - k.toNat) % 2 ^ 32 = if k = 0x80000001 then 2 ^ 31 - 1 else 2 ^ 31 := by
  rcases h with rfl | rfl <;> exact ⟨⟨_, rfl, rfl, rfl⟩, rfl, rfl, by decide⟩

/-- WAIT at both, and a post to a count of 2^32 − 1. -/
theorem test_wait_wraps :
    (let s := run (sig 0xA1 9 9 (2 ^ 87)) fun d => d.setSignal 9 0x7FFFFFFF false
     s.Ready 0 0xA1 (ctx (sig 0xA1 9 9 (2 ^ 87))) ∧ (s.drv 0).count 9 = 0x7FFFFFFF) ∧
    (let f : QEntry → QEntry := fun e => { e with phase := .done }
     let w : InsnWord := BitVec.ofNat 128 (0x30 * 2 ^ 120 + 2 ^ 112 + 0xFFF * 2 ^ 100 + 5 * 2 ^ 92)
     let s := engine w f
     let t := s.modDrv 0 fun d => d.setSignal 5 0xFFFFFFFF false
     (t.drv 0).queue 1 = [head0 w f] ∧ t.accessHeld 0 1 (head0 w f) = false ∧ iPost (head0 w f).insn = 5 ∧
      (t.drv 0).count 5 = 0xFFFFFFFF) := by
  unfold State.Ready
  decide +kernel

/-- The hypotheses of HeadsStartAndRetire at the boundary of a wait: 2^31 − 1 holds, 2^31 does not. -/
theorem test_head_start :
    (((engine (eng 0x30 1 0xFFF)).drv 0).count 5 - 0x80000001).toNat < 2 ^ 31 ∧
    2 ^ 31 ≤ (((engine (eng 0x30 1 0xFFF)).drv 0).count 5 - 0x80000000).toNat ∧
    (let s := engine (eng 0x30 1 0xFFF (2 ^ 91 + 5 * 2 ^ 83)) fun e =>
       { e with phase := .queued, da := desc 0 0 0x10000 2 8 32, db := desc 0 0 0x10000 2 8 32, dc := desc 0 0 0x10000 2 8 32 }
     ∃ e, (s.drv 0).queue 1 = [e] ∧ e.phase = .queued ∧ e.waitOn.isSome ∧ ¬(e.tag < 1024) ∧ s.startFault 0 e = none ∧
      e.att = none ∧ e.spt = none ∧ iOp e.insn ∉ [0x40, 0x41, 0x44, 0x83]) := by
  refine ⟨by decide +kernel, by decide +kernel, _, rfl, ?_⟩
  decide +kernel

theorem test_head_skip :
    (let s := (engine (eng 0x30 1 0xFFF (2 ^ 91 + 5 * 2 ^ 83)) fun e => { e with phase := .queued }).modDrv 0 fun d =>
       d.setSignal 5 0 true
     ∃ e ∈ (s.drv 0).queue 1, e.waitOn = some (5, 0) ∧ (s.drv 0).sfault 5 = true ∧ iOp e.insn ≠ 0x50) := by
  decide +kernel

/-- An instruction that may retire, and one that waits for an access. -/
theorem test_retire_ready :
    (let s := engine (eng 0x13 4 0xFFF) fun e => { e with phase := .done, wb := some 63, wbOk := true, wbVal := 9 }
     ∃ e ∈ (s.drv 0).queue 4, e.phase = .done ∧ e.bales = [] ∧ iOp e.insn ≠ 0x50 ∧ e.wb = some 63 ∧
      s.accessHeld 0 4 e = false) ∧
    (let s := engine (eng 0x13 4 0xFFF)
     let t := s.setMu 31 { s.mu 31 with held := [⟨.read 0 8, 0, none, some (0, 0), none⟩] }
     ∃ e, t.head 0 4 = some e ∧ ∃ x ∈ (t.mu 31).held ++ (t.mu 31).parked, x.who = some (0, e.uid)) ∧
    ((0 : PartId), (0 : JobId), (0xFF#8).toNat) ∈ ({ world with remotePosts := [(0, 0, 255)] } : State).remotePosts := by
  decide +kernel

/-! ## Vector, matrix, DMA -/

def vec (op low : Nat) (fa fb fc : Nat := 0) : State × QEntry :=
  let g : QEntry → QEntry := fun e =>
    { e with da := desc 0 fa 0x10000 2 8 32, db := desc 0 fb 0x11000 2 8 32, dc := desc 0 fc 0x12000 2 8 32 }
  (engine (eng op 1 (if op = 0x34 then 0x400 else 0xFFF) low) g, head0 (eng op 1 (if op = 0x34 then 0x400 else 0xFFF) low) g)

/-- The hypotheses of VectorElementwise, at the first and the last format they name, on all cores and on one. -/
theorem test_vector_ready :
    (∀ op ∈ [0x30, 0x31, 0x35, 0x32, 0x36, 0x39], ∀ x ∈ [vec op 0, vec op (2 ^ 39) 4 4 4],
      x.1.runningHead 0 op = some (1, x.2) ∧ tFmt x.2.da ≤ 4 ∧ tFmt x.2.db ≤ 4 ∧ tFmt x.2.dc ≤ 4 ∧
        0 < x.1.vxCores 0 x.2.insn ∧ (x.1.part 0).absentBit (vxCore x.2.insn) = false ∧
        tSpace x.2.da = 0 ∧ descInvalid x.2.da = none ∧ descInRange x.2.da = true ∧ tCompressed x.2.da = false ∧
        tScaleBytes x.2.da = 0 ∧ descInvalid x.2.db = none ∧ tRows x.2.da = tRows x.2.dc ∧ tCols x.2.da = tCols x.2.dc) ∧
    (vec 0x37 0 5 0).1.runningHead 0 0x37 = some (1, (vec 0x37 0 5 0).2) ∧
      descInvalid (vec 0x37 0 5 0).2.da = none := by
  decide +kernel

/-- A tensor of block format whose scales stand apart from its rows fits. -/
theorem test_tensor_fits :
    let d : Desc := desc 0 8 0x10000 2 32 32 + BitVec.ofNat 256 (0x20000 * 2 ^ 128 + 32 * 2 ^ 192)
    tFits d ∧ tScaleBytes d = 1 := by
  unfold tFits
  decide +kernel

/-- The hypotheses of VectorRowOpcodes. -/
theorem test_vector_rows_ready :
    (let g : QEntry → QEntry := fun e => { e with da := desc 0 0 0x10000 2 1 32, db := desc 0 0 0x11000 2 8 32 }
     let s := engine (eng 0x38 1 0xFFF (2 ^ 32)) g
     s.runningHead 0 0x38 = some (1, head0 (eng 0x38 1 0xFFF (2 ^ 32)) g) ∧ tFits (desc 0 0 0x10000 2 1 32)) ∧
    ((vec 0x33 (2 ^ 32)).1.runningHead 0 0x33 = some (1, (vec 0x33 (2 ^ 32)).2) ∧ fld (vec 0x33 (2 ^ 32)).2.insn 38 32 = 1 ∧
      fld (vec 0x33 (2 ^ 32)).2.insn 38 32 < tRows (vec 0x33 (2 ^ 32)).2.dc) ∧
    (let g : QEntry → QEntry := fun e => { e with da := desc 0 0 0x10000 1 8 32 }
     let w := eng 0x34 1 0x400 (4 * 2 ^ 32)
     let s := engine w g
     s.runningHead 0 0x34 = some (1, head0 w g) ∧ tFits (desc 0 0 0x10000 1 8 32) ∧ (head0 w g).convoy = some 0 ∧
      1 ≤ s.cvCap 0 0 ∧ 8 % (2 * fld w 38 32) = 0) := by
  unfold tFits
  decide +kernel

/-- The hypotheses of MatrixResults: a product; a product of compressed weights; one member with an adapter, and none. -/
theorem test_matrix_ready :
    (let g : QEntry → QEntry := fun e =>
       { e with da := desc 0 0 0x10000 2 4 32, db := desc 0 1 0x11000 2 32 64, dc := desc 0 1 0x12000 4 32 64 }
     let s := engine (eng 0x20 0 0xFFF 4) g
     let e := head0 (eng 0x20 0 0xFFF 4) g
     s.runningHead 0 0x20 = some (0, e) ∧ tFits e.da ∧ gemmBad e = none ∧ tCompressed e.dc = false ∧ 0 < s.mxPresent 0) ∧
    (let g : QEntry → QEntry := fun e => { e with da := desc 0 0 0x10000 1 8 32, db := desc 0 3 0x11000 1 32 32 }
     let s := engine (eng 0x21 0 0x400) g
     let e := head0 (eng 0x21 0 0x400) g
     s.runningHead 0 0x21 = some (0, e) ∧ tFits e.da ∧ e.convoy = some 0 ∧ s.cvMembers 0 0 = [(0, 3)] ∧ tFmt e.da = 0 ∧
      s.cvCap 0 0 ≤ tRows e.da ∧ s.cvCap 0 0 ≤ tRows e.db ∧ mFlag (s.manifest 0 3) flAdapter = false ∧
      mCrcOk (s.manifest 0 3) = true ∧
      ((s.cvMembers 0 0).foldl (fun x m => loraMember 0 0 e x m.1 m.2) ⟨s, 0, [], none⟩).stop = none) := by
  unfold tFits
  decide +kernel

/-- One raw bale of 64 bytes: its index table, then the bale. -/
def baleImage : Bytes :=
  leBytes 4 1 ++ leBytes 4 4 ++ zeros 24 ++ leBytes 8 (64 + 64 * 2 ^ 16 + 2 ^ 36) ++ zeros 64

theorem test_matrix_compressed :
    let g : QEntry → QEntry := fun e =>
      { e with da := desc 0 0 0x10000 2 1 32, db := desc 0 1 0x11000 2 32 64, dc := desc 0 1 0x12000 1 32 64 + 2 ^ 59 + 2 ^ 58 }
    let s := (engine (eng 0x20 0 0xFFF) g).hsWrite 0 0x12000 baleImage
    let e := head0 (eng 0x20 0 0xFFF) g
    s.runningHead 0 0x20 = some (0, e) ∧ gemmBad e = none ∧ tCompressed e.dc = true ∧
      (match s.portWeights 0 e.dc with | .ok _ => true | _ => false) = true := by
  decide +kernel

/-- The world with bytes in the near memory behind page 0. -/
def withMem (l : List (Nat × Bytes)) (s : State) : State :=
  { s with mem := { s.mem with near := l.foldl (fun m x => memWrite m x.1 x.2) s.mem.near } }

theorem test_lora_adapter :
    let g : QEntry → QEntry := fun e => { e with da := desc 0 0 0x10000 1 8 32, db := desc 0 1 0x11000 1 32 64 }
    let s := (engine (eng 0x21 0 0x400) g).hsWrite 0 0xBF00C0 (mBytes { mft with w2 := 0x2000000001000 })
    let s := withMem [(0x1000, leBytes 8 0x40 ++ leBytes 8 0x80 ++ leBytes 4 32 ++ leBytes 4 8)] s
    let s := { s with adapters := { slots := [(0, ⟨1, 1, 2, 1, 1, 0x1000⟩)], waiting := [] } }
    mFlag (s.manifest 0 3) flAdapter = true ∧ s.adResolve (mAdapter (s.manifest 0 3)) (mAdapterGen (s.manifest 0 3)) = some (0, ⟨1, 1, 2, 1, 1, 0x1000⟩) ∧
    (match s.stRead (s.jobOf 0) 0x1000 32 with
      | (.ok dir, s1) => decide (leAt dir 16 4 = 32 ∧ leAt dir 20 4 = 8) &&
        (match s1.adMatrix (s.jobOf 0) 1 (0x1000 + leAt dir 0 8) 1 32 with
          | (.ok _, s2) => (match s2.adMatrix (s.jobOf 0) 1 (0x1000 + leAt dir 8 8) 8 1 with | (.ok _, _) => true | _ => false)
          | _ => false)
      | _ => false) = true ∧ (portFormat 1 1).isSome := by
  decide +kernel

def okE {α β : Type} : Except α β → Bool
  | .ok _ => true
  | .error _ => false

/-- The hypotheses of DmaMovesRows: within hold SRAM, by row numbers, a fill, from the state range and into it. -/
theorem test_dma_ready :
    (let g : QEntry → QEntry := fun e =>
       { e with da := desc 0 0 0x10000 2 8 32, db := desc 0 0 0x11000 3 8 32, dc := desc 0 0 0x12000 1 2 32 }
     let s := (engine (eng 0x11 4 0xFFF) g).hsWrite 0 0x12000 (leBytes 4 2)
     s.runningHead 0 0x11 = some (4, head0 (eng 0x11 4 0xFFF) g) ∧ tFits (desc 0 0 0x10000 2 8 32) ∧
      ∀ x ∈ [(0, 2), (1, 0)], x.2 = ofLe (s.hsRead 0 (tRowAt (desc 0 0 0x12000 1 2 32) (x.1 / 2) + 4 * (x.1 % 2)) 4) ∧ x.2 < 3) ∧
    (let g : QEntry → QEntry := fun e => { e with da := desc 0 0 0x10000 2 8 32, db := desc 0 0 0x11000 2 8 32 }
     (engine (eng 0x10 4 0xFFF) g).runningHead 0 0x10 = some (4, head0 (eng 0x10 4 0xFFF) g) ∧
      (engine (eng 0x12 4 0xFFF) g).runningHead 0 0x12 = some (4, head0 (eng 0x12 4 0xFFF) g) ∧
      sameTensor (head0 0 g).da (head0 0 g).db = true) ∧
    (let g : QEntry → QEntry := fun e => { e with da := desc 0 0 0x10000 2 8 32, db := desc 1 0 0x40 2 8 64 }
     (match (head0 0 g).readRows 0 (head0 0 g).db (List.range 2) (engine (eng 0x10 4 0xFFF) g) with
        | (.ok _, _) => true | _ => false) = true) ∧
    (let d := desc 1 0 0x40 2 8 64
     ((engine (eng 0x10 4 0xFFF)).putRows 0 d [(zeros 32, []), (zeros 32, [])]).1 = none) := by
  unfold tFits
  decide +kernel

/-- A copy of a compressed source: its stored bytes and its bales read from hold SRAM. -/
theorem test_dma_compressed :
    let g : QEntry → QEntry := fun e =>
      { e with da := desc 0 1 0x10000 1 32 64, db := desc 0 1 0x12000 1 32 64 + 2 ^ 59 + 2 ^ 58 }
    let w := eng 0x10 4 0xFFF
    let s := (engine w g).hsWrite 0 0x12000 baleImage
    let e := head0 w g
    s.runningHead 0 0x10 = some (4, e) ∧ tFits e.da ∧ tCompressed e.db = true ∧ sameTensor e.da e.db = true ∧
      (let m := imageOfDesc e.db
       match storedBytes (e.read 0 0) m s with
        | (.ok true, s1) => match expandBales (e.read 0 0) m m.n 0 Expanded.empty s1 with
          | (x, s2) => x.stop.isNone && okE (e.readScales 0 e.db (List.range 1) s2).1
        | _ => false) = true := by
  unfold tFits
  decide +kernel

/-- The hypotheses of ScalarTransfersAndScatter, at the last word of hold SRAM; a tenant with counters and one without;
a post to this partition. -/
theorem test_scalar_ready :
    (∀ x ∈ [(0x13, eng 0x13 4 0xFFF), (0x14, eng 0x14 4 0xFFF), (0x13, eng 0x13 4 0xFFF 1), (0x14, eng 0x14 4 0xFFF 1),
        (0xB0, eng 0xB0 4 3 7), (0xB1, eng 0xB1 4 0xFFF 7)],
      (engine x.2 fun e => { e with sb := 12582904 }).runningHead 0 x.1 = some (4, head0 x.2 fun e => { e with sb := 12582904 })) ∧
    12582904 % 8 = 0 ∧ 12582904 + 8 ≤ 12582912 ∧
    (let s := engine (eng 0x13 4 0xFFF 1)
     (match s.stRead (s.jobOf 0) 8 8 with | (.ok _, _) => true | _ => false) = true ∧
      (s.stWrite (s.jobOf 0) 8 (wordBytes 5)).1 = none ∧ mTenant (s.manifest 0 3) = 7 ∧ tabFind s.meter.map 7 = some 0 ∧
      tabFind s.meter.map 8 = none) ∧
    (engine (eng 0xA3 4 0xFFF)).runningHead 0 0xA3 = some (4, head0 (eng 0xA3 4 0xFFF)) := by
  decide +kernel

/-! ## A request with pages and a sampler record -/

/-- The manifest with FP16 query, key and value formats, its page table at 0x1000, its sampler record at 0x2000. -/
def mftKv : Manifest := { mft with w2 := 0x11100000000, w5 := 0x1000, w6 := 0x2000, w7 := 0x9acb3b3800000000 }

/-- A greedy sampler record with its token log at 0x3000. -/
def sampler : Bytes :=
  (leBytes 4 0 ++ leBytes 4 0x3F800000 ++ leBytes 4 0 ++ leBytes 4 0x3F800000 ++ zeros 8 ++ leBytes 2 0 ++ leBytes 2 9 ++
    leBytes 2 0xFFFF ++ zeros 2 ++ zeros 8 ++ leBytes 16 (2 ^ 128 - 1) ++ zeros 4 ++ leBytes 4 16 ++ leBytes 8 0x3000 ++ zeros 52 ++
    leBytes 4 2007767638)

/-- The request's pages: one layer, a page of `n` tokens at 0x100000, or none. -/
def pageTable (n : Nat) : Bytes :=
  PtHdr.bytes ⟨0x51, 1, 4, b2n (decide (0 < n)), 65536, 0⟩ ++ (if n = 0 then [] else wordBytes (mkDesc 0x100000 1 n))

/-- That manifest in another phase, its CRC worked out beforehand. -/
def mftPh (ph : Nat) : Manifest :=
  { mftKv with
    w1 := BitVec.ofNat 64 (ph * 2 ^ 16)
    w7 := BitVec.ofNat 64 (match ph with
      | 0 => 13628551157197570048 | 1 => 6691963508533231616 | 2 => 8878791075599220736 | 4 => 3811475908296966144
      | 5 => 15355554457492389888 | 6 => 17505649282399600640 | 7 => 1372605091772628992 | _ => 0x9acb3b3800000000) }

/-- One KV head of dimension 64 in FP16, a pool of four pages. -/
def kv (n : Nat) (w : InsnWord) (f : QEntry → QEntry) : State :=
  let s := (engine w f).hsWrite 0 0xBF00C0 (mBytes mftKv)
  let s := withMem [(0x1000, pageTable n), (0x2000, sampler)] s
  ((s.setReg 0x104000 0x1010100).setReg (jobBase 0 + 0x10) 0x100000).setReg (jobBase 0 + 0x18) 0x400010000

/-- Whether a line of the state range is served at once. -/
def servedB (s : State) (a : Nat) : Bool :=
  match s.translate none a with
  | .ok pl => s.tier.moves.all (fun m => decide (m.page ≠ ePage a)) &&
      (pl.far || (!(s.mu pl.unit).holds && decide ((s.mu pl.unit).parked = []) && decide ((s.mu pl.unit).held = [])))
  | .error _ => false

theorem served_of {s : State} {a : Nat} (h : servedB s a = true) : ∃ pl, s.Served a pl := by
  unfold servedB at h
  split at h
  · rename_i pl ht
    simp only [Bool.and_eq_true, Bool.or_eq_true, List.all_eq_true, decide_eq_true_eq, Bool.not_eq_true'] at h
    exact ⟨pl, ht, h.1, h.2.imp id fun x => ⟨x.1.1, x.1.2, x.2⟩⟩
  · cases h

def runsB (s : State) (ws : List (Nat × Bytes)) : Bool :=
  ws.all (fun w => (List.range w.2.length).all fun i => servedB s (w.1 + i)) &&
    decide (ws.flatMap fun w => (List.range w.2.length).map fun i => s.placeOf (w.1 + i)).Nodup

theorem runsServed_of {s : State} {ws : List (Nat × Bytes)} (h : runsB s ws = true) : s.RunsServed ws := by
  simp only [runsB, Bool.and_eq_true, List.all_eq_true, List.mem_range, decide_eq_true_eq] at h
  exact ⟨fun w hw i hi => served_of (h.1 w hw i hi), h.2⟩

/-- The hypotheses of MemoryReadsBack: two lines of page 0, at one place each, neither poisoned. -/
theorem test_memory_served :
    servedB world 0x1000 = true ∧ servedB world 0x1040 = true ∧ okE (world.translate (world.jobOf 0) 0x1000) = true ∧
      world.mem.anyPoison false 0x1000 64 = false ∧ (0x1000 + 64) % 4096 ≤ 4096 := by
  decide +kernel

/-- The runs that a row of one KV head writes (R161). -/
def scatterRuns (g : Geom) (layer : Nat) (m : Manifest) (page : Target) (pos : Nat) (row : List Fl) : List (Nat × Bytes) :=
  let a := dAddr page.desc % 2 ^ 42
  let table := mPtAddr m % 2 ^ 42
  ((List.range g.kv).flatMap fun h => [false, true].flatMap fun v =>
    let x := encodeRow (dFmt page.desc) ((row.drop ((if v then g.kv * g.d else 0) + h * g.d)).take g.d)
    [(a + g.elemAt (dFmt page.desc) h (pos % 256) v, x.1), (a + g.scaleAt (dFmt page.desc) h (pos % 256) v, x.2)]) ++
  [(table + descOff page.hdr.layers (pos / 256) layer, wordBytes (setFld page.desc 8 0 (dTokens page.desc + 1)))] ++
  if page.fresh.isSome then [(table + 0x10, leBytes 4 page.hdr.pages)] else []

/-- The hypotheses about the bytes that a scatter writes: every run is served at once and may be written, the first row of
a page to allocate. -/
theorem test_scatter_served :
    let g : QEntry → QEntry := fun e => { e with da := desc 0 1 0x10000 1 128 256, sa := 0, sb := 0 }
    let s := kv 0 (eng 0x43 4 0x400) g
    let e := head0 (eng 0x43 4 0x400) g
    (match s.scatterStart 0 3 0 with
        | (.ok pos, s1) => match e.readRows 0 e.da [0] s1 with
          | (.ok [b], s2) => match s2.ptHdr 0 (s2.manifest 0 3) with
            | (.ok h, s3) => match s3.scatterPage 0 (s.geom 0) (s3.manifest 0 3) h 0 pos with
              | (.ok page, s4) =>
                let ws := scatterRuns (s.geom 0) 0 (s3.manifest 0 3) page pos (decodeRow (tFmt e.da) (tCols e.da) b.1 b.2)
                runsB s4 ws && ws.all fun w => (s4.stCheck (s4.jobOf 0) w.1 w.2.length).isNone
              | _ => false
            | _ => false
          | _ => false
        | _ => false) = true := by
  decide +kernel

/-- The hypotheses about the scatters: an existing page, a page to allocate, and a request whose table cannot be read. -/
theorem test_scatter_ready :
    let g : QEntry → QEntry := fun e => { e with da := desc 0 1 0x10000 1 128 256, sa := 0, sb := 0 }
    let c : QEntry → QEntry := fun e => { g e with sa := 3 }
    (∀ n ∈ [0, 1], ((kv n (eng 0x43 4 0x400) g).scatterSlot 0 ((kv n (eng 0x43 4 0x400) g).geom 0) (head0 (eng 0x43 4 0x400) g) 3 0 [0]).1 = none) ∧
    ((kv 0 (eng 0x44 4 0xFFF) c).scatterSlot 0 ((kv 0 (eng 0x44 4 0xFFF) c).geom 0) (head0 (eng 0x44 4 0xFFF) c) 3 0 [0]).1 = none ∧
    (kv 1 (eng 0x43 4 0x400) g).cvMembers 0 0 = [(0, 3)] ∧ tCols (g (head0 0)).da = 2 * ((kv 1 0 g).geom 0).kv * ((kv 1 0 g).geom 0).d ∧
    (State.scatterMembers 0 ((kv 1 0 g).geom 0) 4 (head0 (eng 0x43 4 0x400) g) 0 [(0, 3)] 0 (kv 1 (eng 0x43 4 0x400) g)).1 = none := by
  decide +kernel

/-- A SCATTER_CHUNK about to start, within the mix budget and beyond it. -/
theorem test_chunk_start_ready :
    let c : QEntry → QEntry := fun e => { e with da := desc 0 1 0x10000 1 128 256, sa := 3, sb := 0, phase := .queued }
    let w := eng 0x44 4 0xFFF
    let s := (kv 1 w c).modDrv 0 fun d => { d with dstate := .running }
    let t := setParts 0 (fun x => { x with mixRows := 4095 }) s
    let e := head0 w c
    (s.drv 0).queue 4 = [e] ∧ e.waitOn = none ∧ e.att = none ∧ s.startFault 0 e = none ∧ ¬(e.tag < 1024) ∧
      tCols e.da = 2 * (s.geom 0).kv * (s.geom 0).d ∧ (s.part 0).role = .generate ∧ e.sb = 0 ∧
      (s.part 0).mixRows + tRows e.da ≤ s.regFld (ptBase 0 + 0x5028) 11 0 ∧
      t.regFld (ptBase 0 + 0x5028) 11 0 < (t.part 0).mixRows + tRows e.da := by
  decide +kernel

/-- The hypotheses about a row of a page, with a page to allocate and without. -/
theorem test_scatter_row_ready :
    let g : QEntry → QEntry := fun e => { e with da := desc 0 1 0x10000 1 128 256 }
    ∀ n ∈ [0, 1],
      let s := kv n (eng 0x43 4 0x400) g
      (match s.scatterStart 0 3 0 with
        | (.ok pos, s1) => (match s1.ptHdr 0 (s1.manifest 0 3) with
          | (.ok h, s2) => okE (s2.scatterRow 0 (s2.geom 0) 3 0 pos h (List.replicate 128 Fl.zero)).1
          | _ => false)
        | _ => false) = true := by
  decide +kernel

theorem test_scatter_faults :
    let g : QEntry → QEntry := fun e => { e with da := desc 0 1 0x10000 1 128 256, sa := 0, sb := 0 }
    let s := (kv 0 (eng 0x43 4 0x400) g).setReg (jobBase 0 + 0x18) 0x10000
    okE (s.scatterStart 0 3 0).1 = true ∧
      (match s.scatterStart 0 3 0 with
        | (.ok pos, s1) => (match (head0 0 g).readRows 0 (head0 0 g).da [0] s1 with
            | (.ok bs, s2) => (State.scatterRows 0 (s.geom 0) 3 0 (bs.map fun b => decodeRow 1 128 b.1 b.2) pos [] s2).1.isSome
            | _ => false)
        | _ => false) = true := by
  decide +kernel

/-- The shapes of an attention instruction over the one member of convoy 0, or a chunk of one row. -/
def attOf (e : QEntry) : QEntry :=
  { e with da := desc 0 0 0x10000 1 64 256, db := desc 0 1 0x11000 1 64 128, sa := 0, sb := 0 }

def missOf {α β : Type} : Except Miss α × β → Status
  | (.error x, _) => x.status
  | _ => 0

/-- The hypotheses about the start of an attention instruction: a decode row, a chunk of one row, a layer that the page
table lacks. -/
theorem test_attention_start :
    ∀ x ∈ [(eng 0x40 2 0x400 (2 ^ 32), none, (0 : Word)), (eng 0x41 2 3, some 1, 3)],
      let s := (kv 1 x.1 fun e => { attOf e with phase := .queued, sa := x.2.2 }).modDrv 0 fun d => { d with dstate := .running }
      let e := { attOf (head0 x.1) with phase := .queued, sa := x.2.2 }
      let s0 := s.startHead 0 2
      (s.drv 0).queue 2 = [e] ∧ e.att = none ∧ e.waitOn = none ∧ s.startFault 0 e = none ∧
        attBad (s.geom 0) e (some (s.cvCap 0 0)) = none ∧ attBad (s.geom 0) e none = none ∧ s.cvMembers 0 0 = [(0, 3)] ∧
        (s.slot 0 3).faulted = false ∧ mCrcOk (s.manifest 0 3) = true ∧
        okE (s0.planMember 0 (s.geom 0) (tFmt e.db) 0 3 0 x.2.1).1 = true ∧
        missOf (s0.planMember 0 (s.geom 0) (tFmt e.db) 1 3 0 x.2.1) = St.operandRange := by
  decide +kernel

/-- A decode row about to run, the plan its start takes, and that plan run. -/
def attState : State := kv 1 (eng 0x40 2 0x400 (2 ^ 32)) attOf

def attPlan : Plan :=
  match attState.planMember 0 (attState.geom 0) 1 0 3 0 none with
  | (.ok pl, _) => pl
  | _ => ⟨0, 0, false, 0, 0, [], [], 0⟩

def attEntry : QEntry := { attOf (head0 (eng 0x40 2 0x400 (2 ^ 32))) with att := some ⟨attState.geom 0, 64, [attPlan], []⟩ }

/-- The hypotheses about its run: pages that can be read, a page whose state page is poisoned, several members, an
NB_ATT. -/
theorem test_attention_run :
    let s := attState
    let g := s.geom 0
    let bad := { s with spt := [(0, 0x8080000000000000)] }
    let nb := s.setMu 0 { s.mu 0 with proc := true }
    attPlan.rows = [(0, 1)] ∧ okE (State.readRowsPages 0 g attPlan attPlan.rows Expanded.empty [] s).1 = true ∧
      okE (State.readRowsPages 0 g attPlan attPlan.rows Expanded.empty [] bad).1 = false ∧
      okE (State.readRowsPages 0 g attPlan attPlan.rows Expanded.empty [] (nb.nbuOpen 0)).1 = true ∧
      (nb.nbAttMiss 0 g 0 attPlan.descs).isNone = true ∧ s.driven 0 0 = some 0 ∧
      (kv 1 (eng 0x83 6 0xFFF) attOf).runningHead 0 0x83 = some (6, attOf (head0 (eng 0x83 6 0xFFF))) := by
  decide +kernel

theorem test_attention_members :
    let r := [attPlan].foldl (attMember 0 2 attEntry (attState.geom 0) 1 none) ⟨attState, [], 0, [], none⟩
    r.stop.isNone = true ∧ r.rows.map (·.1) = [0] := by
  decide +kernel

/-- The hypotheses of SamplingCommitsToken: a member of the convoy commits the token of its largest logit; one whose turn
has ended; a grammar table of one state. -/
theorem test_sampling_ready :
    let g : QEntry → QEntry := fun e => { e with da := desc 0 0 0x10000 1 8 32, sa := 0 }
    let w := eng 0x50 3 0x400
    let s := (kv 1 w g).hsWrite 0 0x1000C (leBytes 4 0x3F800000)
    s.runningHead 0 0x50 = some (3, head0 w g) ∧ s.cvMembers 0 0 = [(0, 3)] ∧ s.cvCap 0 0 ≤ 1 ∧
      (match State.smpPrepAll 0 3 (head0 w g) [(0, 3)] s with
        | (.ok [x], s1) => (match x.sr with
          | some b => !x.stuck && decide (mNextPos (s1.manifest 0 3) < srLogCap b ∧ srGrammar b = 0xFFFF ∧ x.row = 0) &&
              decide (chooseToken b (fun _ => true) ((s1.tensorRow 0 (head0 w g).da 0).zipIdx.map fun l => zValue b x.win l.2 l.1)
                (drawU (mSeed (s1.manifest 0 3)) (mReqId (s1.manifest 0 3)) (srDraws b)) = some 3) &&
              (match s1.smpCommit 0 3 (head0 w g) x b 3 with | .ok (rc, _) => decide (rc.1 = 1) | _ => false) &&
              okE (State.smpRows 0 3 (head0 w g) [x] s1)
          | none => false)
        | _ => false) = true ∧
      s.cvRowAt 0 0 + 16 ≤ s.mftBase 0 + 64 * 3 := by
  decide +kernel

/-- The log entry and the sampler record of that member are served at once. -/
theorem test_sampling_served :
    let g : QEntry → QEntry := fun e => { e with da := desc 0 0 0x10000 1 8 32, sa := 0 }
    let s := kv 1 (eng 0x50 3 0x400) g
    runsB s [(0x2000, srSeal (setLe sampler 0x20 8 1)), (0x3000 + 4 * 5, leBytes 4 (2 ^ 31 + 3))] = true ∧
      (∀ k, k < 32 → (s.mu k).holds = false ∧ (s.mu k).parked = [] ∧ (s.mu k).held = []) := by
  decide +kernel

/-- A SMP_STEP that retires over an empty convoy, and a SMP_GRAMMAR. -/
theorem test_sampling_retire :
    let s := ((engine (eng 0x50 3 0x400) fun e => { e with phase := .done, wbOk := true, sa := 0 }).hsWrite 0 0x20100 (zeros 16))
    let e := { head0 (eng 0x50 3 0x400) with phase := .done, wbOk := true, sa := 0 }
    (s.drv 0).queue 3 = [e] ∧ e.convoy = some 0 ∧ s.cvDefined 0 0 = true ∧ s.cvMembers 0 0 = [] ∧ e.bales = [] ∧
      s.accessHeld 0 3 e = false := by
  decide +kernel

/-- The hypotheses of MF_PHASE in ManifestOpcodes: from HANDOFF to DECODE on a GENERATE partition, in a convoy; to PARK where
the turn has ended and KEEP is set; to DONE where it has ended and KEEP is clear; to CANCELLED and FAILED; to a phase that the
table does not allow. -/
theorem test_mf_phase_ready :
    (let w := loc 0x61 0 1 0 3
     let s := (at0 w).hsWrite 0 0xBF00C0 (mBytes (mftPh 2))
     s.Ready 0 0x61 (ctx w) ∧ s.manifest 0 3 = mftPh 2 ∧ mCrcOk (mftPh 2) = true ∧ mPhase (mftPh 2) = 2 ∧ w.toNat % 16 = 3 ∧
      (s.part 0).role = .generate ∧ (s.part 0).fetches = [] ∧ (s.slot 0 3).gone = false ∧ (s.slot 0 3).done = false ∧
      (s.convoyRowOf 0 3).isSome = true) ∧
    (let w := loc 0x61 0 1 0 4
     let m := mWithFlag mft 6 true
     let s := ((at0 w).hsWrite 0 0xBF00C0 (mBytes m)).setSlot 0 3 { held := true, turnEnded := true }
     s.Ready 0 0x61 (ctx w) ∧ s.manifest 0 3 = m ∧ mCrcOk m = true ∧ mPhase m = 3 ∧ mFlag m 6 = true ∧
      (s.slot 0 3).turnEnded = true ∧ (s.slot 0 3).gone = false ∧ (s.slot 0 3).done = false ∧ (s.part 0).fetches = []) ∧
    (∀ ph ∈ [5, 6, 7, 8],
      let w := loc 0x61 0 1 0 ph
      let s := (at0 w).setSlot 0 3 { held := true, turnEnded := true, cancel := true }
      s.Ready 0 0x61 (ctx w) ∧ s.manifest 0 3 = mft ∧ mCrcOk mft = true ∧ s.outgoingOf 0 3 = none ∧ mPhase mft = 3 ∧
        mFlag mft 6 = false ∧ (s.slot 0 3).gone = false ∧ (s.slot 0 3).done = false ∧ w.toNat % 16 = ph ∧
        ((3, 5) : Nat × Nat) ∉ [(1, 2), (1, 3), (2, 3), (3, 4), (3, 6), (5, 1), (5, 3)]) := by
  unfold State.Ready
  decide +kernel

/-- A grammar of one state over 16 tokens: it allows every token and ends at any (Table 7.6). -/
theorem test_grammar_ready :
    let w := eng 0x51 3 0xFFF
    let g : QEntry → QEntry := fun e => { e with da := desc 0 5 0x10000 1 256 256, sa := 15 }
    let h := leBytes 4 0x4D524753 ++ leBytes 4 1 ++ leBytes 4 16 ++ leBytes 4 0 ++ leBytes 4 1 ++ leBytes 4 32 ++ leBytes 4 64 ++
      leBytes 4 96 ++ leBytes 4 128 ++ leBytes 4 0
    let s := (engine w g).hsWrite 0 0x10000 h
    s.runningHead 0 0x51 = some (3, head0 w g) ∧ tFmt (head0 w g).da = 5 ∧ tRows (head0 w g).da = 1 ∧
      grammarOk (fun o k => s.hsRead 0 (0x10000 + o) k) 256 = true := by
  decide +kernel

/-! ## Fabric, near-bank units, tiers -/

/-- A book of two nodes, managed by node 1. -/
def book : Book :=
  { epoch := 1, mgr := 1, stby := none, issuedNs := 0, bytes := 64, digest := 0,
    nodes := [⟨0, 0, .active, [.generate], [1]⟩, ⟨1, 0, .active, [.prompt], [1]⟩], pools := [], sets := [], tclasses := [],
    ranges := [] }

/-- Node 1 is reached on every path by port 0, which is up; job 0 may read and write the first 32 MiB of node 1. -/
def linked (s : State) : State :=
  let s := s.modFab fun b => { b with fwd := [(1, 0)] }
  let s := s.setPort 0 { s.port 0 with up := true, trained := true, peer := 1 }
  let s := s.modMgr fun m => { m with cur := some book }
  (s.setReg (winOff 0 0) 0xF004000000000000).setReg (winOff 0 0 + 8) 16

/-- A frame of partition 0 that waits for its acknowledgement. -/
def sentFrame (fence : Nat) : Sent :=
  { unit := 0, dst := 1, seq := 0, frame := frameMod (frameWith (.bytes [])) fun h => { h with w3 := setFld h.w3 31 24 fence },
    sends := 1, path := some 0, heldBack := false, owner := none, place := 0 }

/-- The hypotheses of FabricOpcodesSend: one line, and a frame of 64 lines; the lines of a read; fences; logs; a caravan
whose cancel has come. -/
theorem test_fabric_ready :
    let g := fun (cols : Nat) (e : QEntry) => { e with da := desc 0 5 0x10000 1 cols cols, sa := 2 ^ 42, tag := 3 }
    (∀ n ∈ [64, 4096], ∀ op ∈ [0x70, 0x71],
      let s := linked (kv 0 (eng op 5 3 (2 ^ 16)) (g n))
      let e := head0 (eng op 5 3 (2 ^ 16)) (g n)
      s.runningHead 0 op = some (5, e) ∧ flatSize e.da = n ∧ s.fabCheck 0 e true = none ∧ s.fabCheck 0 e false = none ∧
        s.replayRoom 0 1 (64 + n) = true ∧ e.waitFrom = none ∧ s.fab.backlog = [] ∧ e.sentN = 0 ∧ e.lines = [] ∧
        s.askedLines (0, 5, e.uid) = [] ∧
        s.replayUsed 0 + n + 64 * (transferFrames n).length ≤ 2097152) ∧
    (let e := { g 64 (head0 (eng 0x71 5 3 (2 ^ 16))) with lines := [(2 ^ 42, zeros 64)] }
     e.missing (2 ^ 42) 64 = [] ∧ ∀ x ∈ e.lines, x.2.length = 64) ∧
    (let s := (engine (eng 0x72 5 0xFFF (7 * 2 ^ 8))).modFab fun b => { b with sent := [sentFrame 7] }
     s.runningHead 0 0x72 = some (5, head0 (eng 0x72 5 0xFFF (7 * 2 ^ 8))) ∧
      ∃ x ∈ s.fab.sent, x.unit = 0 ∧ hFence x.frame = fld (eng 0x72 5 0xFFF (7 * 2 ^ 8)) 15 8) := by
  decide +kernel

theorem test_fabric_log_ready :
    let g : QEntry → QEntry := fun e => { e with tag := 3, sa := 3, sb := 16 }
    let s := linked (kv 0 (eng 0x74 5 0xFFF) g)
    s.runningHead 0 0x74 = some (5, head0 (eng 0x74 5 0xFFF) g) ∧ (s.slot 0 3).logged < mNextPos (s.manifest 0 3) ∧
      s.mgrNode = some 1 ∧ (match s.unlogged 0 3 (s.slot 0 3).logged with
        | (.ok l, s1) => s1.mayKeep (s1.appendFrame 0 (s.manifest 0 3) 1 (s.slot 0 3).logged l)
        | _ => false) = true ∧
    (let t := s.setSlot 0 3 { held := true, logged := 5 }
     mNextPos (t.manifest 0 3) ≤ (t.slot 0 3).logged) := by
  decide +kernel

/-- A HANDOFF caravan whose log the manager has, and one that a cancel has overtaken. -/
theorem test_caravan_send_ready :
    let g : QEntry → QEntry := fun e => { e with tag := 3, sa := 3, sb := 16 }
    let s := ((linked (kv 0 (eng 0x73 5 0xFFF) g)).setSlot 0 3 { held := true, logged := 5 }).hsWrite 0 0xBF00C0 (mBytes (mftPh 2))
    s.runningHead 0 0x73 = some (5, head0 (eng 0x73 5 0xFFF) g) ∧ fld (eng 0x73 5 0xFFF) 1 0 = 0 ∧ (s.slot 0 3).cancel = false ∧
      mCrcOk (s.manifest 0 3) = true ∧ s.owns 0 3 = true ∧ mPhase (s.manifest 0 3) = 2 ∧
      s.nodeState (Fin.ofNat 1024 (fld (16 : Word) 13 4)) = .active ∧ mNextPos (s.manifest 0 3) ≤ (s.slot 0 3).logged ∧
      mHops (s.manifest 0 3) < s.regFld 0x2000 5 0 ∧ (s.slot 0 3).refuser = none ∧
      (match s.reqRead 0 (mSrAddr (s.mftToSend 0 3 none)) 128 with
        | (.ok sr, s1) => s1.mayKeep (s1.placedFrame 0 (s.mftToSend 0 3 none) 1 0 0 Ct.manifest false true (.bytes sr))
        | _ => false) = true ∧
    (let t := (s.setSlot 0 3 { held := true, cancel := true }).hsWrite 0 0xBF00C0 (mBytes (mftPh 7))
     (t.slot 0 3).cancel = true ∧ terminal (mPhase (t.manifest 0 3)) = true) ∧
    (let t := s.setSlot 0 3 { held := true, logged := 5, refuser := some (1, 0), target := some (1, 2) }
     (t.slot 0 3).refuser = some (Fin.ofNat 1024 (fld (16 : Word) 13 4), fld (16 : Word) 3 0) ∧ t.nodeState 1 = .active) := by
  decide +kernel

/-- A copy from another node: its lines are not there, may be read, and have room. -/
theorem test_dma_far_node :
    let g : QEntry → QEntry := fun e =>
      { e with da := desc 0 0 0x10000 2 16 64, db := desc 2 0 (2 ^ 42) 2 16 64, tag := 3 }
    let w := eng 0x10 4 3
    let s := linked (engine w g)
    let e := head0 w g
    s.runningHead 0 0x10 = some (4, e) ∧ sameTensor e.da e.db = true ∧ tSpace e.db = 2 ∧ tCompressed e.db = false ∧
      e.needs s.fab.node 2 (rowRuns e.db (List.range 2)) = [2 ^ 42, 2 ^ 42 + 64] ∧ e.owed = 0 ∧
      (∀ r ∈ lineRuns [2 ^ 42, 2 ^ 42 + 64], s.sendOk 0 (tagTenant (s.tagFor 0 e.tag)) false r.1 (64 * r.2) = true) ∧
      s.fab.backlog = [] ∧ s.replayUsed 0 + 4224 * 2 ≤ 2097152 ∧
      (s.fab.sent.filter fun x => x.unit = 0 ∧ x.dst = 1).length + 2 ≤ 4096 := by
  decide +kernel

/-- The hypotheses of NearBankOpcodes: both modes of MU 0, weights in its page, a result buffer of exactly the size read. -/
theorem test_near_bank_ready :
    let g : QEntry → QEntry := fun e =>
      { e with da := desc 0 0 0x10000 2 4 32, db := desc 0 1 0x11000 2 32 64, dc := desc 1 1 0x8000 4 32 64 }
    let s := engine (eng 0x80 6 0xFFF) g
    let e := head0 (eng 0x80 6 0xFFF) g
    let t := s.setMu 0 { s.mu 0 with proc := true }
    (match s.nbMu 0 6 true with | .ok m => decide (m = 0) | _ => false) = true ∧ (s.mu 0).proc = false ∧ (t.mu 0).proc = true ∧
      (s.mu 0).switching = false ∧ (s.reg (pcfgOff 0)).getLsbD 0 = false ∧ (s.part 0).scopeDue = false ∧ e.spt = none ∧
      s.runningHead 0 0x80 = some (6, e) ∧ gemmBad e = none ∧ fld e.insn 4 3 = 0 ∧ t.nbuRowsBad 0 0 e.dc 0 4 = none ∧
      okE (State.nbuWeights 0 0 e.dc 4 0 t).1 = true ∧ (2 - 1) * tStride e.db + tRowBytes e.db ≤ 262144 := by
  decide +kernel

theorem test_sumx_ready :
    let g : QEntry → QEntry := fun e =>
      { e with da := desc 0 0 0x10000 2 8 32, db := desc 0 0 0 2 8 32, sa := 0 }
    let s := engine (eng 0x82 6 0xFFF) g
    let e := head0 (eng 0x82 6 0xFFF) g
    let t := s.setMu 0 { s.mu 0 with resultBuf := List.replicate 16 0 }
    t.runningHead 0 0x82 = some (6, e) ∧ (match t.nbMu 0 6 false with | .ok _ => true | _ => false) = true ∧
      t.driverOf 0 = some (0, 0) ∧ sumxBad e = none ∧
      tAddr e.db + (tRows e.db - 1) * tStride e.db + tRowBytes e.db = 4 * (t.mu 0).resultBuf.length ∧
      t.busHeld 0 6 0 = false ∧ t.busTurn 0 6 0 = true ∧ e.waitFrom = none ∧
    (t.modDrv 0 fun d => d.setQueue 7 [{ e with uid := 9, phase := .done }]).busHeld 0 6 0 = true := by
  decide +kernel

/-- All ports of far group 0 hold a device and are up. -/
def withFar (s : State) : State :=
  { s with cxl := Vector.replicate 24 { Cxl.reset with present := true, up := true } }

/-- The hypotheses of TierOpcodes: page 0 and no other mapped; a move to the far tier. -/
theorem test_tier_ready :
    let f : QEntry → QEntry := fun e => { e with sa := 0, sb := 1 }
    (∀ x ∈ [(0x91, eng 0x91 8 0xFFF 4), (0x92, eng 0x92 8 0xFFF 1), (0x90, eng 0x90 8 0xFFF 1)],
      (engine x.2 f).runningHead 0 x.1 = some (8, head0 x.2 f)) ∧
    (let s := withFar ((engine (eng 0x90 8 0xFFF 1) f).setReg (jobBase 0) 0x80FFFFFF00000001)
     s.pageOf 0 0 = true ∧ s.pageOf 0 1 = false ∧ 1 ≤ s.spt.length ∧ (s.entry 0).getLsbD 63 = true ∧ some (fld (s.entry 0) 51 48) = s.jobOf 0 ∧
      (s.entry 0).getLsbD 56 = false ∧ (s.entry 0).getLsbD 55 = false ∧ okE (s.translate (s.jobOf 0) 0) = true ∧
      s.farTarget 0 = some 0 ∧ s.groupUp (s.groupOf 0) = true ∧ s.moverFree none = true ∧ s.tier.moves = [] ∧
      ∀ o : PartId, o ≠ 0 → s.asksMover o = none) ∧
    (let m : Move := { page := 0, die := none, farSrc := false, farDst := true, src := 0, dst := 0, pass := 1, dirty := [],
                       copying := [511], held := [], by_ := some (0, 0) }
     let s := (engine (eng 0x90 8 0xFFF 1) f)
     ∃ x ∈ ({ s with tier := { s.tier with moves := [m] } } : State).tier.moves, x.page = 0 + (f (head0 (eng 0x90 8 0xFFF 1))).sentN) := by
  decide +kernel


/-! ## Pages, memory units, CXL ports -/

/-- `b` stands in TIER_MAP_B. -/
def mapB (b : Word) : State := world.setReg 0x208010 b

/-- Page 0 moves from near frame 0 to near frame 9. -/
def move (pass : Nat) (dirty : List Nat) : Move :=
  { page := 0, die := none, farSrc := false, farDst := false, src := 0, dst := 9, pass := pass, dirty := dirty,
    copying := [511], held := [], by_ := none }

def moving (m : Move) (s : State) : State := { s with tier := { s.tier with moves := [m] } }

/-- The hypotheses of PageTableCommands: page 0 is mapped to frame 0; page 0x12FFFF, the last of the state range, is not,
and the page after it lies beyond (R68); b names frame 0, which is in use, or frame 9, which is not; far frame 0 may be
zeroed where its group is up. -/
theorem test_page_table_ready :
    (∀ x ∈ [((0x12FFFF : Word), 0), (0x4000000000000000, 1), (0x8000000000000000, 2), (0xC00000000012FFFF, 3)],
      (up world).mapBusy = false ∧ (up world).boot.ready = true ∧ fld x.1 63 62 = x.2) ∧
    (mapB 0x8000000000000009).mapNewOk 0x12FFFF 0x8000000000000009 = true ∧ eValid (world.entry 0x12FFFF) = false ∧
    (mapB 0x8000000000000009).mapNewOk 0x130000 0x8000000000000009 = false ∧ (world.mu 0).holds = false ∧
    (let s := withFar (world.setReg (jobBase 0) 0x80FFFFFF00000001)
     s.mapNewOk 0x12FFFF 0xA000000000000000 = true ∧ s.groupUp (s.groupOf 0) = true ∧
      (let t := { s with cxl := Vector.replicate 24 { Cxl.reset with present := true, up := false } }
       t.mapNewOk 0x12FFFF 0xA000000000000000 = true ∧ t.groupUp (t.groupOf 0) = false)) ∧
    world.mapNewOk 0x12FFFF 0x8000000000000000 = false ∧ world.mapNewOk 0x12FFFF 0x8A00000000000009 = false ∧
    eValid (world.entry 0) = true ∧ world.mapOk 0x8800000000000000 = true ∧ world.mapOk 0x8A00000000000000 = false ∧
    eTier 0x8800000000000000 = eTier (world.entry 0) ∧ eFrame 0x8800000000000000 = eFrame (world.entry 0) ∧
    world.tier.moves = [] ∧ (∃ m ∈ (moving (move 1 []) world).tier.moves, m.page = 0) ∧
    (world.setReg 0x208020 0x80000000).mapBusy = true := by
  decide +kernel

/-- The hypotheses of PagesMigrate: a pass with a dirty block and none, pass 5, an engine free and none. -/
theorem test_migrate_ready :
    (∀ m ∈ [move 1 [], move 4 [3], move 5 [3]],
      let s := moving m world
      s.tier.moves.find? (fun m => m.page = 0) = some m ∧
        ((s.mu (m.src / 2048)).holds = false ∧ (s.mu (m.src / 2048)).parked = [] ∧ (s.mu (m.src / 2048)).held = []) ∧
        ((s.mu (m.dst / 2048)).holds = false ∧ (s.mu (m.dst / 2048)).parked = [] ∧ (s.mu (m.dst / 2048)).held = []) ∧
        s.movePoison m = none ∧ (m.farSrc, m.src) ≠ (m.farDst, m.dst) ∧ (∀ b ∈ m.copying, b < 512) ∧ m.by_ = none ∧ m.held = [] ∧
        s.mapBusy = false) ∧
    world.nbReads false 0 = false ∧ world.accessWaits false 0 = false ∧
    ((engine (eng 0x80 6 0xFFF) fun e => { e with phase := .done }).nbReads false 0 = true) ∧
    (let s := { withFar (world.setReg (jobBase 0) 0x8000000000000001) with spt := [(0, 0xA800000000000000)] }
     let e := s.entry 0
     s.moverFree none = true ∧ s.tierMoveWaits = false ∧ eMovable e = true ∧ eFar e = true ∧ eHint e = 4 ∧
      s.groupUp (s.groupOf (eFrame e)) = true ∧ 0 < s.nearFree ∧ (s.nearTarget (s.lowestPart (eJob e))).isSome) ∧
    ({ world with tier := { world.tier with moves := List.replicate 8 (move 1 []) } } : State).moverFree none = false := by
  decide +kernel

theorem test_world_canon : (moving (move 1 []) world).Canon := by
  unfold State.Canon
  decide +kernel

/-- MU 0 in a state of its link and its mode, an NB_GEMM of partition 0 running. -/
def unit0 (f : Mu → Mu) : State :=
  let s := up (engine (eng 0x80 6 0xFFF))
  s.setMu 0 (f (s.mu 0))

/-- The hypotheses of MemoryUnitLinks, at 2 and at 3 retries. -/
theorem test_memory_units_ready :
    (∀ r ∈ [2, 3], ((unit0 fun x => { x with retries := r }).mu 0).retries = r ∧
      ((unit0 fun x => { x with retries := r }).mu 0).retraining = false) ∧
    ((unit0 fun x => { x with retraining := true }).mu 0).retraining = true ∧
    (unit0 id).clocked = true ∧
    (unit0 id).regBit 0x708020 1 = false ∧ ((unit0 fun x => { x with yielding := true }).mu 0).yielding = true ∧
    (let s := unit0 fun x => { x with proc := true }
     (s.mu 0).yielding = false ∧ (s.mu 0).proc = true ∧ s.nbSequence 0 = true) ∧ ((unit0 id).mu 0).proc = false := by
  decide +kernel

/-- The hypotheses of ParkedAccessesAndModes: a parked queue of 65; a switch that its queue holds back; a pairing that
names an MU twice. -/
theorem test_parked_ready :
    (let x := (unit0 id).mu 0
     x.holds = false ∧ x.parked = [] ∧ x.retries = 0 ∧ (unit0 id).tier.moves = []) ∧
    (let x := (unit0 fun x => { x with retraining := true }).mu 0
     x.proc = false ∧ x.switching = false ∧ x.retraining = true) ∧
    (let s := (engine (eng 0x80 6 0xFFF) fun e => { e with phase := .done }).setMu 0 { world.mu 0 with proc := true }
     s.driven 0 0 = some 0 ∧ s.driverOf 0 = some (0, 0) ∧ (s.mu 0).proc = true ∧
      (s.drv 0).queue 6 = [{ head0 (eng 0x80 6 0xFFF) with phase := .done }] ∧
      s.accessHeld 0 6 { head0 (eng 0x80 6 0xFFF) with phase := .done } = false ∧ iOp (eng 0x80 6 0xFFF) / 16 = 8) ∧
    (let s := unit0 fun x => { x with proc := true, parked := List.replicate 65 ⟨.read 0 64, 0, none, none, none⟩ }
     (s.mu 0).proc = true ∧ (s.mu 0).switching = false ∧ (s.mu 0).yielding = false ∧ (s.mu 0).retraining = false ∧
      s.nbRunning 0 = true ∧ s.tier.moves = []) ∧
    ((unit0 fun x => { x with yielding := true, refreshDue := true }).mu 0).refreshDue = true ∧
    (let s := (engine (eng 0x81 6 0xFFF) fun e => { e with phase := .waiting }).setMu 0
       { (world.mu 0) with switching := true, target := true }
     (s.mu 0).switching = true ∧ s.switchBlocked 0 = false ∧ (s.mu 0).parked = [] ∧ s.driverOf 0 = some (0, 0) ∧
      ∃ e, s.head 0 6 = some e ∧ iOp e.insn = 0x81 ∧ e.phase = .waiting) ∧
    (unit0 fun x => { x with switching := true, target := false, before := 1 }).switchBlocked 0 = true ∧
    (let w := fun v => fieldsWrite ((regFields (pcfgOff 0)).getD []) (BitVec.allOnes 64) (world.reg (pcfgOff 0)) v
     (∀ k, k < 2 → (world.drv 0).queue (6 + k) = []) ∧
      (world.setReg (pcfgOff 0) (w (world.reg (pcfgOff 0)))).drivenOnce = true ∧ bitOf (w (world.reg (pcfgOff 0))) 0 = false ∧
      (world.setReg (pcfgOff 0) (w (2 ^ 13))).drivenOnce = false ∧ (world.part 0).role = .generate ∧
      bitOf (w (world.reg (pcfgOff 0) ||| 16)) 4 = true ∧ bitOf (w (world.reg (pcfgOff 0))) 4 = false ∧
      (setParts 0 (fun x => { x with role := .prompt }) world |>.part 0).role ≠ .generate ∧
      (∀ k ∈ (world.setReg (pcfgOff 0) (w (world.reg (pcfgOff 0)))).partMus 0, (world.mu k).parked = [])) := by
  refine ⟨by decide +kernel, by decide +kernel, by decide +kernel, by decide +kernel, by decide +kernel, ⟨by decide +kernel,
    by decide +kernel, by decide +kernel, by decide +kernel, _, rfl, by decide +kernel, by decide +kernel⟩,
    by decide +kernel, by decide +kernel⟩

/-- The hypotheses about SCOPE: a switch that ends what a write of SERVICE waits for, and one that the write begins. -/
theorem test_scope_ready :
    (let s := (setParts 0 (fun x => { x with role := .prompt, scopeDue := true }) (up world)).setMu 0
       { world.mu 0 with proc := true, switching := true, target := false }
     s.clocked = true ∧ (s.mu 0).switching = true ∧ s.switchBlocked 0 = false ∧ (s.mu 0).parked = [] ∧
      s.driverOf 0 = some (0, 0) ∧ (s.part 0).scopeDue = true ∧
      ∀ j ∈ s.partMus 0, j ≠ 0 → (s.mu j).proc = false ∧ (s.mu j).switching = false) ∧
    (let s := (setParts 0 (fun x => { x with role := .prompt }) (up world)).setMu 0
       { world.mu 0 with proc := true, held := [⟨.read 0 64, 0, none, none, none⟩] }
     let s := s.setReg (pcfgOff 0) (s.reg (pcfgOff 0) ||| 16)
     let w := fieldsWrite ((regFields (pcfgOff 0)).getD []) (BitVec.allOnes 64) (s.reg (pcfgOff 0)) (world.reg (pcfgOff 0))
     s.boot.ready = true ∧ (∀ k, k < 2 → (s.drv 0).queue (6 + k) = []) ∧ (s.setReg (pcfgOff 0) w).drivenOnce = true ∧
      bitOf (s.reg (pcfgOff 0)) 4 = true ∧ bitOf w 4 = false ∧ (s.part 0).role ≠ .generate ∧
      ∃ k ∈ (s.setReg (pcfgOff 0) w).partMus 0, k < 32 ∧ (s.mu k).proc = true ∧ (s.mu k).held ≠ []) := by
  decide +kernel

/-- The hypotheses of CxlPortsFailAndReturn. -/
theorem test_cxl_ready :
    let up := withFar world
    let down := { up with cxl := Vector.replicate 24 { Cxl.reset with present := true } }
    (up.cxlPort 23).present = true ∧ (up.cxlPort 23).up = true ∧ (up.cxlPort 23).lateAt ≠ some (up.now / 1000000) ∧
      up.tier.moves = [] ∧ (down.cxlPort 23).present = true ∧ (down.cxlPort 23).up = false ∧
      (0 : Word) = (down.cxlPort 23).serial ∧ (0 : Nat) = (down.cxlPort 23).dirtyCnt ∧ (1 : Word) ≠ (down.cxlPort 23).serial := by
  decide +kernel


/-! ## Images, partitions, jobs -/

/-- The image of no bytes with its own digest, staged for partition 0. -/
def staged (b : Bytes) (s : State) : State := setParts 0 (fun x => { x with staged := some { image with digest := b } }) s

/-- A header that keeps every rule of R103: one word of code, one entry. -/
def imageHeader : Bytes :=
  leBytes 4 0x49584D53 ++ leBytes 2 1 ++ leBytes 2 0 ++ leBytes 4 4899 ++ leBytes 4 16 ++ zeros 8 ++ leBytes 2 (2 + 256) ++
    zeros 174 ++ leBytes 4 272 ++ leBytes 4 4627 ++ zeros 48

/-- The hypotheses of ImagesLoadAndInstall: no load running and one running; a header refused; an install whose bytes are
the same and whose are not. -/
theorem test_image_ready :
    (up world).regBit imgStat 0 = false ∧ bitOf (0x10000 : Word) 16 = true ∧
      (match (up world).checkImage (world.regFld 0x500200 41 0) false ((up world).rdImage (world.regFld 0x500200 41 0)) with
        | .error st => decide (st = St.imgMalformed)
        | .ok _ => false) = true ∧
      (world.setReg imgStat 1).regBit imgStat 0 = true ∧ world.host.loading = none ∧
      ({ world with host := { world.host with loading := some image } } : State).host.loading = some image := by
  decide +kernel

theorem test_install_ready :
    let s := staged [] (setParts 0 (fun x => { x with slots := [] }) world)
    s.installDue 0 = true ∧ (s.part 0).staged = some { image with digest := [] } ∧ image.boot = false ∧
      okE (s.rdImage image.addr 0 image.signed.length) = true ∧ world.installDue 0 = false ∧ s.regBit (pcfgOff 0) 0 = false ∧
      (∀ m ∈ s.partMus 0, (s.mu m).proc = false ∧ (s.mu m).switching = false ∧ (s.mu m).parked = [] ∧ (s.mu m).held = []) ∧
      s.regBit (pcfgOff 0) 4 = false ∧ (∀ k, k < 2 → (s.drv 0).queue (6 + k) = []) ∧ s.drivenOnce = true ∧
      ({ image with role := .prompt } : Image).role ≠ .generate := by
  decide +kernel

/-- A loaded image passes its checks where its signature verifies with the root key. -/
theorem test_image_passes (sig : Bytes) (h : MlDsa.verify Config.rootKey (sha3_512 (imageHeader ++ zeros 16)) sig [] = true) :
    headerOk imageHeader = true ∧ world.imageChecks imageHeader (imageHeader ++ zeros 16) sig = none := by
  refine ⟨by decide +kernel, ?_⟩
  have hv : ¬ 0x12 < leAt imageHeader 6 1 := by decide +kernel
  have hc : ¬ (BitVec.ofNat 64 (leAt imageHeader 0xC0 8) &&& ~~~world.capWord ≠ 0) := by decide +kernel
  have hk : world.imageKey (leAt imageHeader 0x1A 2) = some Config.rootKey := by
    have : leAt imageHeader 0x1A 2 = 0 := by decide +kernel
    rw [this]; rfl
  unfold State.imageChecks
  rw [if_neg hv, if_neg hc, hk]
  exact if_pos h

theorem test_install_same :
    let img : Image := { image with digest := sha3_512 [] }
    sha3_512 (memRead [] img.addr img.signed.length) = img.digest := rfl

/-- The hypotheses of UnitsFailInService. -/
theorem test_units_ready :
    bitOf (world.mxPresentMask 0) 3 = true ∧ bitOf ((setParts 0 (fun x => { x with mxAbsent := 8 }) world).mxPresentMask 0) 3 = false ∧
    (world.part 0).absentBit 127 = false ∧ bitOf (world.part 0).spareUsed 15 = false ∧
    bitOf ((setParts 0 (fun x => { x with spareUsed := 0x8000 }) world).part 0).spareUsed 15 = true ∧
    (world.part 0).st = .serving ∧ (∀ q, q < 9 → (world.drv 0).queue q = []) ∧
    (setParts 0 (fun x => { x with slots := [] }) world).liveSlots 0 = [] ∧ (world.part 0).incoming = [] ∧
    (world.part 0).fetches = [] ∧ ((setParts 0 (fun x => { x with st := .testing }) world).part 0).st = .testing ∧
    world.regBit 0x708020 1 = false := by
  decide +kernel

/-- The hypotheses of PartitionRegisterWrites, at the ends of the ranges that R156, R180 and R222 give. -/
theorem test_part_regs_ready :
    State.reset.liveSlots 0 = [] ∧ world.liveSlots 0 ≠ [] ∧
    (fld (0x02000000 : Word) 25 16 = 512 ∧ (0 : Nat) + 512 ≤ 512) ∧
    (∀ k, k < 4 → k ≠ 1 → State.reset.cvCap 0 k = 0) ∧ State.reset.cvMembers 0 1 = [] ∧
    (world.cvMembers 0 0 ≠ []) ∧ State.reset.heldSlots 0 = [] ∧ world.heldSlots 0 ≠ [] ∧
    (fld (0xBF0000 : Word) 23 0 % 64 = 0 ∧ fld (0xBF0000 : Word) 23 0 + 65536 ≤ 12582912) ∧
    12582912 < fld (0xBF0040 : Word) 23 0 + 65536 ∧
    (fld (0xBFF800 : Word) 23 0 % 32 = 0 ∧ fld (0xBFF800 : Word) 23 0 + 2048 ≤ 12582912) ∧
    12582912 < fld (0xBFF820 : Word) 23 0 + 2048 := by
  decide +kernel

/-- An adapter handle with one slot in state `st`. -/
def adapter (st refs : Nat) : State := { world with adapters := { slots := [(1, ⟨1, 128, st, 8, refs, 0⟩)], waiting := [] } }

/-- The hypotheses of AdapterSlots: an EMPTY slot beside a READY one; none EMPTY; a slot LOADING; one READY to retire. -/
theorem test_adapter_ready :
    (let s := adapter 2 0
     s.regBit 0x9010 31 = false ∧ s.adapters.waiting = [] ∧ cmdHandle 0 = 0 ∧ cmdOp 0 = 0 ∧
      (∀ j, j < 2 → (s.adSlot 0 j).st ≠ 2 ∨ (s.adSlot 0 j).gen ≠ cmdGen 0) ∧ s.adIn 0 0 = some 0) ∧
    (let s := { adapter 2 0 with adapters := { slots := [(0, ⟨1, 128, 2, 8, 0, 0⟩), (1, ⟨2, 128, 3, 8, 1, 0⟩)], waiting := [] } }
     (∀ j, j < 2 → (s.adSlot 0 j).st ≠ 2 ∨ (s.adSlot 0 j).gen ≠ cmdGen 0) ∧ s.adIn 0 0 = none) ∧
    ((adapter 1 0).setReg 0x9010 0x80000000).regBit 0x9010 31 = true ∧
    (let x := (adapter 1 0).adSlot 0 1
     x.st = 1 ∧ ((adapter 1 0).adSlot 0 (1 - 1)).st ≠ 2 ∧ 1 ≤ x.rank ∧ x.rank ≤ 128 ∧ x.fmt ≤ 8) := by
  decide +kernel

/-- The partition in a state, with no live request. -/
def inState (st : PState) (j : Option JobId) : State :=
  setParts 0 (fun x => { x with st := st, curJob := j, slots := [] }) (up world)

/-- The hypotheses of PartitionCommandsComplete, one state of each row of Table 13.2. -/
theorem test_partition_ready :
    (∀ st ∈ [PState.serving, .vacant, .offline, .testing, .failed], (inState st none).ptBusy 0 = false ∧
      (inState st none).boot.ready = true ∧ ((inState st none).part 0).st = st) ∧
    ((List.range 16).flatMap world.partMus).count 0 = 1 ∧
    (∀ x ∈ [((1 : Word), 1), (4, 4), (5, 5), (0x15, 5), (6, 6), (7, 7), (0x1007, 7), (8, 8), (15, 15)], fld x.1 3 0 = x.2) ∧
    (inState .vacant none).jobMay 0 (ptJob 1) = true ∧ ((inState .vacant none).part 0).staged = none ∧
    State.reset.jobMay 0 (ptJob 1) = false ∧ (inState .serving (some 0)).liveSlots 0 = [] ∧ world.liveSlots 0 ≠ [] ∧
    bitOf (0x15 : Word) 4 = true ∧ bitOf (5 : Word) 4 = false ∧ bitOf (7 : Word) 12 = false ∧ bitOf (0x1007 : Word) 12 = true ∧
    (world.setReg (ptStat 0) 0x10000).ptBusy 0 = true ∧
    world.driven 0 0 = some 0 ∧ world.driven 0 1 ≠ some 0 ∧
    ∀ st ∈ [PState.serving, .vacant], ∀ m ∈ (inState st none).partMus 0,
      ((inState st none).mu m).proc = false ∧ ((inState st none).mu m).switching = false := by
  decide +kernel

/-- Seven pages of the save area at 0, and a save image of partition 0 there. -/
def saveArea (n : Nat) (st : PState) : State :=
  { inState st (some 0) with spt := (List.range n).map fun i => (i, BitVec.ofNat 64 (2 ^ 63 + i)) }

def bytesOf {α : Type} : Except α Bytes → Bytes
  | .ok b => b
  | .error _ => []

def savedHeader : Bytes := saveHeader 0 0 1 [] (0, 0) []

def savedPart : Saved :=
  { serial := 1, out := true, part := 0, job := 0, addr := 0, saved := (inState .serving (some 0)).part 0, mftBase := 0xBF0000,
    liveMap := [], header := savedHeader, accBytes := 0, perf := [], modes := [] }

/-- The image of that part stands in the save area. -/
def savedState : State :=
  let s := saveArea 7 .vacant
  { s with saves := [savedPart], mem := { s.mem with near := memWrite [] 0 savedHeader } }

theorem savedHeader_split : ∃ b : Bytes, b.length = 4092 ∧ savedHeader = b ++ leBytes 4 (crc32c b).toNat := by
  unfold savedHeader saveHeader
  exact ⟨_, by simp only [List.length_append, length_leBytes, zeros_length], rfl⟩

theorem length_savedHeader : savedHeader.length = 4096 := by
  obtain ⟨b, hb, h⟩ := savedHeader_split
  rw [h, List.length_append, length_leBytes, hb]

/-- The header of an image is good: its CRC stands in its last four bytes. -/
theorem test_saved_header : saveHeaderOk 0 0 savedHeader = true ∧ saveHeaderOk 0 1 savedHeader = false ∧ leAt savedHeader 60 4 = 0 := by
  have h : leAt savedHeader 4092 4 = (crc32c (savedHeader.take 4092)).toNat := by
    obtain ⟨b, hb, h⟩ := savedHeader_split
    rw [h, leAt, List.drop_left' hb, List.take_left' hb, List.take_of_length_le (by rw [length_leBytes]), ofLe_leBytes]
    exact Nat.mod_eq_of_lt (crc32c b).isLt
  have h0 : leAt savedHeader 0 4 = 0 := by rfl
  have h1 : leAt savedHeader 4 4 = 0 := by rfl
  refine ⟨?_, ?_, by rfl⟩
  · rw [saveHeaderOk, h, h0, h1, decide_eq_true rfl]; rfl
  · rw [saveHeaderOk, h, h0, h1, decide_eq_true rfl]; rfl

/-- A read of one block of near memory that nothing waits at, moves or poisons. -/
theorem stRead_block (s : State) (pl : Place) (h : s.translate none 0 = .ok pl) (hf : pl.far = false) (hk : pl.key = 0)
    (hm : (s.mu pl.unit).held = [] ∧ (s.mu pl.unit).parked = []) (hv : s.tier.moves = []) (hp : s.mem.poisonNear = [])
    (he : ePoisoned pl.entry = false) : (s.stRead none 0 4096).1 = .ok (memRead s.mem.near 0 4096) := by
  have hw : s.memView (ePage 0) pl = s.mem := by
    simp only [State.memView, State.muView, hf, hm.1, hm.2, hv]; rfl
  have ha : s.mem.anyPoison false 0 4096 = false := by simp [Mem.anyPoison, hp]
  rw [State.stRead, State.readBlocks, if_neg (by decide), h]
  dsimp only
  rw [hw, hf, hk, he, show chunkLen 0 4096 = 4096 from rfl, ha, if_neg (by simp)]
  rfl

/-- A header of 4,096 bytes that stands at address 0 is what SWITCH_IN reads there. -/
theorem stRead_header (s : State) (l : List Saved) (b : Bytes) (hb : b.length = 4096) (pl : Place)
    (h : s.translate none 0 = .ok pl) (hf : pl.far = false) (hk : pl.key = 0)
    (hm : (s.mu pl.unit).held = [] ∧ (s.mu pl.unit).parked = []) (hv : s.tier.moves = []) (hp : s.mem.poisonNear = [])
    (he : ePoisoned pl.entry = false) :
    (State.stRead { s with saves := l, mem := { s.mem with near := memWrite [] 0 b } } none 0 4096).1 = .ok b := by
  refine (stRead_block { s with saves := l, mem := { s.mem with near := memWrite [] 0 b } } pl h hf hk hm hv hp he).trans ?_
  exact congrArg _ ((congrArg (memRead _ 0) hb.symm).trans (memRead_memWrite [] 0 b))

/-- SWITCH_IN is commanded there. -/
def saved3 : State := (saveArea 7 .vacant).setReg (ptBase 0) (3 &&& 0x1F1F)

theorem test_saved_read : ((savedState.setReg (ptBase 0) (3 &&& 0x1F1F)).stRead none 0 4096).1 = .ok savedHeader := by
  have hd : saved3.translate none 0 = .ok ⟨false, 0, 0, 0, 0x8000000000000000⟩ := by
    have : (match saved3.translate none 0 with
      | .ok pl => decide (pl = ⟨false, 0, 0, 0, 0x8000000000000000⟩) | .error _ => false) = true := by decide +kernel
    revert this
    cases saved3.translate none 0 with
    | ok pl => intro h; rw [of_decide_eq_true h]
    | error e => intro h; cases h
  have hm : (saved3.mu 0).held = [] ∧ (saved3.mu 0).parked = [] ∧
      saved3.tier.moves = [] ∧ saved3.mem.poisonNear = [] := by decide +kernel
  have hs : ∀ (b : State) o v l m, State.setReg { b with saves := l, mem := { b.mem with near := m } } o v =
      { b.setReg o v with saves := l, mem := { (b.setReg o v).mem with near := m } } := fun _ _ _ _ _ => rfl
  unfold savedState
  rw [hs]
  exact stRead_header _ _ _ length_savedHeader _ hd rfl rfl ⟨hm.1, hm.2.1⟩ hm.2.2.1 hm.2.2.2 (by decide)

/-- The other hypotheses of SWITCH_IN. -/
theorem test_switch_in_ready :
    let s := saveArea 7 .vacant
    s.boot.ready = true ∧ s.ptBusy 0 = false ∧ fld (3 : Word) 3 0 = 3 ∧ (s.part 0).st = .vacant ∧
      s.jobMay 0 (ptJob 3) = true ∧ (s.part 0).staged = none ∧ s.heldCtl = [] ∧ s.regBit (pcfgOff 0) 0 = false ∧
      State.reset.jobMay 0 (ptJob 3) = false ∧ (∀ m ∈ s.partMus 0, (s.mu m).proc = false ∧ (s.mu m).switching = false) := by
  decide +kernel

/-- A replay buffer that holds nothing has room for any frame. -/
theorem test_may_keep (f : Frame) : world.mayKeep f = true := by
  have hl : hLen f < 2 ^ 13 := Nat.mod_lt _ (by decide)
  have hs : world.fab.sent = [] ∧ world.fab.comb = [] ∧ world.fab.backlog = [] := by decide +kernel
  simp only [State.mayKeep, State.replayRoom, State.replayUsed, frameBytes, hs.1, hs.2.1, hs.2.2]
  split <;> split <;> simp <;> omega

/-- The hypotheses of SwitchOutAndIn: a save area of seven pages and of six; an image found; 63 and 64 frames held. -/
theorem test_switch_ready :
    (let s := (saveArea 7 .serving).modDrv 0 fun d => { d with dstate := .running }
     (s.drv 0).dstate = .running ∧ s.ptBusy 0 = false ∧ fld (2 : Word) 3 0 = 2 ∧ (s.part 0).st = .serving ∧ (s.part 0).curJob = some 0 ∧
      s.saveAreaOk (s.regFld (ptBase 0 + 8) 41 0) 0 = true ∧ (∀ q, q < 9 → (s.drv 0).queue q = []) ∧
      (s.part 0).incoming = [] ∧ (s.part 0).fetches = []) ∧
    (saveArea 6 .serving).saveAreaOk 0 0 = false ∧ ((saveArea 6 .serving).drv 0).dstate ≠ .running ∧
    ((saveArea 6 .serving).drv 0).dstate ≠ .halted ∧
    (let s := { saveArea 7 .vacant with saves := [savedPart] }
     s.accepts = true ∧ s.switchedOut.any (fun x => decide (x.part = 0) && decide (x.job = 0)) = true ∧
      savedPart.saved.slots = []) ∧
    (let h : HeldCtl := ⟨0, 0, 1, .logAck 1 0⟩
     ((List.replicate 63 h).filter fun h => h.job = 0).length < 64 ∧ 64 ≤ ((List.replicate 64 h).filter fun h => h.job = 0).length ∧
      ctlReq h.ctl = some 1) := by
  decide +kernel

/-- The hypotheses of JobsAndMetering: shares of 256 and of 257, a whole group, a page the dump can write, one parked
slot in the pool of job 0. -/
theorem test_jobs_ready :
    (∀ p, (inState .vacant none).jobOf p ≠ some 0) ∧ (∃ p, world.jobOf p = some 0) ∧
    (let s := (inState .vacant none).setReg (jobBase 1) 0x8100000000000001
     let after := fun v => s.setReg (jobBase 1 + 8) (s.written (jobBase 1 + 8) (BitVec.allOnes 64) v)
     (after 0xFF).sharesFit = true) ∧
    (let s := ((inState .vacant none).setReg (jobBase 1) 0x8100000000000001).setReg (jobBase 0 + 8) 2
     (s.setReg (jobBase 1 + 8) (s.written (jobBase 1 + 8) (BitVec.allOnes 64) 0xFF)).sharesFit = false) ∧
    wholeGroups world.ways 0xFFFFFF = true ∧
    (let s := { (kv 0 0 id).setReg 0x104000 0x1010100 with parked := [⟨0x51, 0, mft, [0x100000], 0⟩], saves := [] }
     s.parked = [⟨0x51, 0, mft, [0x100000], 0⟩] ∧ terminal (mPhase mft) = false ∧ s.poolJob 0x100000 = some 0 ∧
      tabFind s.meter.map (mTenant mft) = some 0) := by
  decide +kernel


/-! ## Requests, caravans and the route book -/

/-- Node 1 manages the book; node 0 is the standby, or none is. -/
def managed (stby : Option NodeId) : State :=
  let s := State.reset.modFab fun b => { b with node := 1 }
  s.modMgr fun m => { m with role := .manager, cur := some { book with stby := stby } }

/-- The manifest of request 0x51 in a caravan: FMT_VER 1, PRIO 2, five input tokens, no cache set. -/
def mftC (ph : Nat) (ep : Nat) : Manifest :=
  { w0 := 0x0007000000000051, w1 := BitVec.ofNat 64 (0x0100000008000000 + ph * 2 ^ 16 + ep), w2 := 0x11100000000, w3 := 0x5000005,
    w4 := 0x000FFF0000000000, w5 := 0x1000, w6 := 0x2000,
    w7 := if ph = 2 ∧ ep = 1 then 14189637382575226880 else if ph = 2 ∧ ep = 3 then 9933295496267300864
      else if ph = 4 then 10032155545953107968 else 215647653642371072 }

def record (ph : Nat) : ReqRec :=
  { id := 0x51, tenant := 7, phase := BitVec.ofNat 4 ph, node := 1, part := 0, mft := mftC ph 1, parkedNs := 0, host := 1,
    acked := true, base := 0 }

def log : PromptLog := { id := 0x51, tenant := 7, turn := 0, admittedNs := 0, sampler := sampler, entries := [1, 2] }

/-- The manager holds the request and its log. -/
def holding (ph : Nat) (s : State) : State := s.modMgr fun m => { m with requests := [record ph], logs := [log] }

def admission : Admission :=
  { host := 1, tenant := 7, tclass := 0, share := 0, prio := 2, precision := 0x1110, adapter := none, strict := false,
    keep := false,
    sharedPrefix := false, grammar := false, seed := 0, prompt := [5], sampler := sampler }

theorem test_wf_admission : (Instr.admissionRequest { admission with sampler := [] }).wf = false := by decide

/-- A worker, node 0, that reaches node 1, the manager of its book. -/
def worker : State := linked State.reset

/-- The hypotheses of AdmissionsAndNotes about admissions: with and without a standby, an admission that fits and one that does
not, a node that sends it on and one that cannot; the standby's answers. -/
theorem test_admission_ready :
    (let s := managed (some 0)
     s.isManager = true ∧ 2 ≤ admission.prio.toNat ∧ precisionOk admission.precision.toNat = true ∧ admission.prompt ≠ [] ∧
      admission.prompt.length ≤ 16777215 ∧ s.stby = some 0 ∧ 0 < s.regFld 0x2000 5 0 ∧
      ¬(2 ≤ ({ admission with prio := 1 } : Admission).prio.toNat)) ∧
    (worker.isManager = false ∧ worker.mgrNode = some 1 ∧ (1 : NodeId) ≠ worker.fab.node ∧ worker.Room unitRk 1) ∧
    (State.reset.isManager = false ∧ State.reset.mgrNode = none) ∧
    (let r := { record 0 with acked := false }
     let s := (managed (some 0)).modMgr fun m => { m with mirrors := [.admitted r], requests := [r] }
     s.mgr.mirrors = .admitted r :: [] ∧ s.request r.id = some r ∧ r.acked = false ∧ r.host = s.fab.node) ∧
    (let s := (managed (some 0)).modMgr fun m => { m with mirrors := [.ackAppend 0 0x51 2] }
     s.mgr.mirrors = .ackAppend 0 0x51 2 :: [] ∧ s.Room unitRk 0) ∧
    ((managed (some 0)).modMgr fun m => { m with mirrors := [.nothing] }).mgr.mirrors = .nothing :: [] ∧
    (managed (some 0)).mgr.mirrors = [] := by
  unfold State.Room
  decide +kernel

/-- The hypotheses of AdmissionsAndNotes about notes: a request held, one that is not, a manifest whose CRC is right and one
whose is not. -/
theorem test_notes_ready :
    let s := holding 3 (managed none)
    s.isManager = true ∧ s.stby = none ∧ s.mgr.copyStarted = false ∧ s.request 0x51 = some (record 3) ∧
      (record 3).node = s.fab.node ∧ s.Room unitRk 1 ∧ s.request 0x52 = none ∧
      s.request (mReqId (mftPh 6)) = some (record 3) ∧ mCrcOk (mftPh 6) = true ∧ mCrcOk { mftPh 6 with w7 := 0 } = false := by
  unfold State.Room
  decide +kernel

/-- The hypotheses of PromptLogAppends about the manager: an append at the end of the log, one that overlaps it, one beyond
it, one that differs; with a standby and without. -/
theorem test_append_ready :
    (let s := holding 3 (managed (some 0))
     s.isManager = true ∧ s.logOf 0x51 = some log ∧ s.stby = some 0 ∧ s.mgr.copyStarted = false ∧ s.Room unitRk 0 ∧
      2 ≤ log.entries.length ∧
      (log.entries.drop 2).take 1 = ([3] : List (BitVec 32)).take (log.entries.length - 2) ∧
      (log.entries.drop 1).take 2 = ([2, 3] : List (BitVec 32)).take (log.entries.length - 1) ∧ log.entries.length < 3 ∧
      (log.entries.drop 1).take 1 ≠ ([9] : List (BitVec 32)).take (log.entries.length - 1)) ∧
    (holding 3 (managed none)).stby = none := by
  unfold State.Room
  decide +kernel

/-- An owner of request 0x51 in slot 3 of partition 0 whose log is known to the manager up to `logged`. -/
def logging (logged : Nat) (f : QEntry → QEntry) : State :=
  (kv 1 (eng 0x74 5 3) fun e => f { e with tag := 3 }).setSlot 0 3 { held := true, logged := logged, sentLog := logged }

/-- The hypotheses of PromptLogAppends about the owner: a refusal below what it has sent, with a manager and without; one at
it, with a FAB_LOG that waits and without. -/
theorem test_refusal_ready :
    (let s := logging 5 id
     s.findReq 0x51 = some (0, 3) ∧ (∀ e ∈ (s.drv 0).queue 5, e.phase ≠ .waiting) ∧
      4 < max (s.slot 0 3).logged (s.slot 0 3).sentLog ∧ max (s.slot 0 3).logged (s.slot 0 3).sentLog ≤ 5 ∧ s.mgrNode = none) ∧
    (let s := linked (logging 5 id)
     s.mgrNode = some 1 ∧ s.findReq 0x51 = some (0, 3) ∧ (∀ e ∈ (s.drv 0).queue 5, e.phase ≠ .waiting) ∧
      (match (s.setSlot 0 3 { s.slot 0 3 with logged := 4, sentLog := 4 }).unlogged 0 3 4 with
        | (.ok l, s1) => decide (l ≠ []) && decide ((∀ y ∈ s1.fab.backlog, hUnit y.frame ≠ 0) ∧
            s1.replayUsed 0 + 4224 * 1 ≤ 2097152 ∧ (s1.fab.sent.filter fun x => x.unit = 0 ∧ x.dst = 1).length + 1 ≤ 4096)
        | _ => false) = true) ∧
    (let e := { head0 (eng 0x74 5 3) with tag := 3, phase := .waiting }
     ((logging 5 fun e => { e with phase := .waiting }).drv 0).queue 5 = [e] ∧ e.phase = .waiting ∧ e.tag = 3 ∧
      iOp e.insn = 0x74) := by
  decide +kernel

/-- A record of an evicted request. -/
def evicted (ph : Nat) : ReqRec := { record ph with mft := { (record ph).mft with w2 := (record ph).mft.w2 ||| BitVec.ofNat 64 (2 ^ (44 + flEvicted)) } }

/-- The hypotheses of ParkedSessions: with tokens and, evicted, without; with a standby and without. -/
theorem test_parked_session_ready :
    (let s := holding 4 (managed (some 0))
     s.isManager = true ∧ s.request 0x51 = some (record 4) ∧ s.logOf 0x51 = some log ∧ (record 4).phase.toNat = Ph.park ∧
      mFlag (record 4).mft flEvicted = decide (([1] : List (BitVec 18)) = []) ∧
      mFlag (evicted 4).mft flEvicted = decide (([] : List (BitVec 18)) = []) ∧ log.entries.length + 1 ≤ 16777215 ∧
      0 < s.regFld 0x2000 5 0 ∧ s.stby = some 0 ∧ mReqId (record 4).mft = 0x51 ∧ s.mgr.sends = []) ∧
    (let s := (holding 3 (managed none)).modMgr fun m =>
       { m with cur := some { book with nodes := [⟨1, 0, .draining, [.generate], [1]⟩] } }
     s.nodeState (record 3).node = .draining ∧ terminal (record 3).phase.toNat = false ∧ (record 3).phase.toNat ≠ Ph.park ∧
      s.Room unitRk (record 3).node) ∧
    (holding 3 (managed none)).nodeState 1 ≠ .draining := by
  unfold State.Room
  decide +kernel

/-- Nodes 1 and 2 mirror cache set 2; node 1 leads it. -/
def setBook : Book :=
  { book with nodes := book.nodes ++ [⟨2, 0, .active, [.cache], [1]⟩], sets := [⟨2, false, [1, 2], [0]⟩] }

/-- A parked copy that this node holds, of cache set 2. -/
def parkedCopy : Parked := ⟨0x51, 0, { mftC 4 1 with w4 := 0x0000020000000000 }, [0], 0⟩

/-- The hypotheses of CancelsReachTheOwner: an owner of a convoy member, of a request in none; a member of a cache set that
does not lead it; a former owner; a manager. -/
theorem test_cancel_ready :
    world.heldSlots 0 = [3] ∧ (∀ p : PartId, p ≠ 0 → world.heldSlots p = []) ∧ mReqId (world.manifest 0 3) = 0x51 ∧
    world.owns 0 3 = true ∧ terminal (mPhase (world.manifest 0 3)) = false ∧ world.cancelWaits 0 3 = true ∧
    (world.drv 0).entries = [] ∧
    (let s := world.hsWrite 0 0x20100 (zeros 16)
     (s.slot 0 3).done = false ∧ s.cancelWaits 0 3 = false ∧ mReqId (s.manifest 0 3) = 0x51) ∧
    (let s := { worker with parked := [parkedCopy] }.modMgr fun m => { m with cur := some setBook }
     (∀ p : PartId, s.heldSlots p = []) ∧ s.saves = [] ∧ s.newestCopy 0x51 = some parkedCopy ∧
      terminal (mPhase parkedCopy.mft) = false ∧ (s.cacheSet (mCacheSet parkedCopy.mft)).bind s.leadOf = some 1 ∧
      (1 : NodeId) ≠ s.fab.node ∧ s.Room unitRk 1) ∧
    (let s := worker.modMgr fun m => { m with owners := [(0x51, (1, 0))] }
     (∀ p : PartId, s.heldSlots p = []) ∧ s.saves = [] ∧ s.newestCopy 0x51 = none ∧
      tabFind s.mgr.owners 0x51 = some (1, 0) ∧ s.Room unitRk 1) ∧
    (let s := holding 0 (managed none)
     (∀ p : PartId, s.heldSlots p = []) ∧ s.saves = [] ∧ s.newestCopy 0x51 = none ∧ tabFind s.mgr.owners 0x51 = none ∧
      s.isManager = true ∧ s.request 0x51 = some (record 0) ∧ mReqId (record 0).mft = 0x51 ∧ s.Room unitRk 0 ∧
      terminal (record 6).phase.toNat = true ∧ (record 0).node = s.fab.node ∧ (record 0).phase.toNat = Ph.atAdmit ∧
      s.mgr.sends = [] ∧ mCacheSet (record 0).mft = 0xFFF) := by
  unfold State.Room
  decide +kernel

/-- An owner whose manifest fails its CRC. -/
theorem test_cancel_bad_crc :
    let s := world.hsWrite 0 0xBF00C0 (mBytes { mft with w7 := 0 })
    s.heldSlots 0 = [3] ∧ (∀ p : PartId, p ≠ 0 → s.heldSlots p = []) ∧ mReqId (s.manifest 0 3) = 0x51 ∧ s.owns 0 3 = true ∧
      terminal (mPhase (s.manifest 0 3)) = false ∧ mCrcOk (s.manifest 0 3) = false ∧ mCrcOk (world.manifest 0 3) = true := by
  decide +kernel

/-- A transfer that a FAB_CARAVAN of slot 3 makes to node 1. -/
def leaving (park : Bool) : Outgoing :=
  { uid := 0, slot := 3, id := 0x51, park := park, dsts := [(1, 0)], mft := mftC 2 1, lead := 2, accepted := [],
    sentRest := [], allSent := [], slots := [] }

def sending (park : Bool) : State :=
  setParts 0 (fun x => { x with outgoing := [leaving park] })
    (kv 1 (eng 0x73 5 0xFFF) fun e => { e with phase := .waiting })

/-- The hypotheses of CaravanAnswersAndRefusals about a caravan of this node: the first acceptance by a member, an acceptance
of a HANDOFF whose later frames can be read, a second acceptance, the entry that waits. -/
theorem test_answers_ready :
    (∀ park, (sending park).transferTo 1 0x51 = some (0, leaving park) ∧ ((sending park).part 0).outgoing = [leaving park]) ∧
    (leaving true).accepted.contains 1 = false ∧ (leaving true).lead ≠ 1 ∧ (leaving true).accepted.contains (leaving true).lead = false ∧
    (leaving true).allSent = [] ∧ (leaving true).dsts ≠ [] ∧ (leaving false).dsts = [(1, 0)] ∧
    { leaving true with accepted := [1] }.accepted.contains 1 = true ∧
    (let o := { leaving false with accepted := [1] }
     okE (((sending false).setPart 0 { (sending false).part 0 with outgoing := [o] }).laterFrames 0 o none 0).1 = true) ∧
    ((sending false).head 0 5).any (fun e => decide (e.uid = (leaving false).uid)) = true := by
  decide +kernel

/-- The hypotheses of CaravanAnswersAndRefusals about a caravan of the manager, and a copy committed at the lead. -/
theorem test_manager_answers_ready :
    (let x : MgrSend := { id := 0x51, dst := 0, part := 2, accepted := false, sent := 0 }
     let s := (holding 0 (managed none)).modMgr fun m => { m with sends := [x] }
     s.transferTo 0 0x51 = none ∧ s.sendTo 0 0x51 = some x ∧ s.request 0x51 = some (record 0)) ∧
    (let s := { worker with parked := [parkedCopy] }
     s.transferTo 1 0x51 = none ∧ s.sendTo 1 0x51 = none ∧ s.newestCopy 0x51 = some parkedCopy ∧ s.mgrNode = some 1) := by
  decide +kernel

/-- A manager with a pool of one partition of role `r` on node 0, beside set 2 of nodes 1 and 2. -/
def pooled (r : Role) : State :=
  (holding 3 (managed none)).modMgr fun m =>
    { m with cur := some { setBook with pools := [⟨r, 0, 1, 1⟩] } }

/-- The hypotheses of CaravanAnswersAndRefusals about the manager: a receiver whose book is older and one whose is not; a
receiver that serves and one that does not; a cache set that the receiver has no part in; appends to send again. -/
theorem test_stale_ready :
    (let s := pooled .generate
     s.isManager = true ∧ s.mgr.cur.map (·.epoch) = some 1 ∧ (1 ≤ ((1 : BitVec 16) - 0).toNat ∧ ((1 : BitVec 16) - 0).toNat ≤ 32767) ∧
      ¬(1 ≤ ((1 : BitVec 16) - 1).toNat) ∧ s.Room unitRk 0 ∧ s.request 0x51 = some (record 3) ∧ s.serves 2 = true ∧
      s.serves 3 = false ∧ s.logOf 0x51 = some log ∧ 0 < s.regFld 0x2000 5 0 ∧
      s.otherSets (record 3).mft 0 = [⟨2, false, [1, 2], [0]⟩] ∧ s.leadOf ⟨2, false, [1, 2], [0]⟩ = some 1) ∧
    State.reset.isManager = false ∧ State.reset.mgrNode = none ∧
    (let f := { frameWith (.ctl (.logAppend 0x51 2 [3])) with mft := none }
     let s := worker.modMgr fun m => { m with unacked := [f] }
     s.mgrNode = some 1 ∧ s.mgr.unacked = [f] ∧ s.Room (hUnit f) 1) := by
  unfold State.Room
  decide +kernel

/-- One generate node in the pools: it is the target whatever the free choice. -/
theorem test_target_ready :
    ∃ s1, (pooled .generate).pickTarget (record 3).mft .generate [1] = (some (0, 0), s1) ∧ s1.fab = (pooled .generate).fab := by
  refine ⟨{ pooled .generate with freeCount := (pooled .generate).freeCount + 1 }, ?_, rfl⟩
  have h : (pooled .generate).targets (record 3).mft .generate [1] = [⟨.generate, 0, 1, 1⟩] := by decide +kernel
  have hs : slicePart 1 = 0 := by decide +kernel
  simp only [State.pickTarget, h, List.length_singleton, Nat.mod_one]
  rfl

/-- Frame 0 of that caravan, from node 0. -/
def frame0 (m : Manifest) : Frame :=
  { hdr := ⟨tagOfManifest m 0 0 false true, 0, 0, 0, 0, 0, 0⟩, mft := some m, body := .bytes sampler }

/-- What a receiver keeps of it. -/
def coming (m : Manifest) : Incoming :=
  { src := 0, unit := 0, slot := 0, park := false, mft := m, sampler := fitBytes 128 (bodyBytes (frame0 m).body),
    accepted := false, frame0 := frame0 m, lines := [], owed := 0, got := [], forms := [], last := none, pages := [] }

/-- A pool of 256 slots: enough for the pages of one position, whatever the number of layers. -/
def receiverOf (j : JobId) : State :=
  let s := setParts 0 (fun x => { x with curJob := some j }) (linked (kv 0 0 id))
  let s := { s with spt := [(0, BitVec.ofNat 64 (2 ^ 63 + j * 2 ^ 48))] }
  let s := (s.setReg (jobBase j + 0x10) 0x100000).setReg (jobBase j + 0x18) 0x10000010000
  (s.setReg (winOff j 0) 0xF004000000000000).setReg (winOff j 0 + 8) 16

def receiver : State := receiverOf 0

/-- The job of tenant 7, a free value, and a receiver whose current job it is. -/
def itsJob : JobId := Fin.ofNat 16 (Config.requestJob 7)
def server : State := receiverOf itsJob

theorem test_serves (m : Manifest) (h : mTenant m = 7) : server.servesJobOf 0 m = true := by
  have hj : ∀ j, ((receiverOf j).part 0).curJob = some j := by decide +kernel
  have hs : (server.part 0).curJob = some itsJob := hj itsJob
  unfold State.servesJobOf
  rw [hs, h]
  exact decide_eq_true rfl

/-- The manifests of the other phases: ADMIT with its sampler record there and on node 1, RESUME, PARK to cache set 2. -/
def mftAdmit : Manifest := mftC 0 1
def mftAway : Manifest := { mftC 0 1 with w6 := 0x40000002000, w7 := 12042317226800316416 }
def mftResume : Manifest := { mftC 5 1 with w7 := 7693720568255741952 }
def mftPark : Manifest := { mftC 4 1 with w4 := 0x0000020000000000, w7 := 202963361086832640 }

set_option maxRecDepth 100000 in
/-- The hypotheses of FrameZeroIsJudged that name the manifest alone: each phase, an epoch before and after, a bad CRC. -/
theorem test_frame0_manifest :
    (∀ m ∈ [mftC 2 1, mftAdmit, mftAway, mftResume, mftPark], mCrcOk m = true ∧ mTenant m = 7 ∧ mFlag m flSharedPrefix = false) ∧
    mCrcOk (mftC 2 3) = true ∧ mCrcOk { mftC 2 1 with w7 := 0 } = false ∧ mPhase (mftC 2 1) = Ph.handoff ∧
    mPhase mftAdmit = Ph.atAdmit ∧ mPhase mftAway = Ph.atAdmit ∧ mPhase mftResume = Ph.resume ∧ mPhase mftPark = Ph.park ∧
    (∀ m ∈ [mftC 2 1, mftPark], srCrcOk (coming m).sampler = true ∧ srInRange (coming m).sampler = true ∧
      srPrefixPt (coming m).sampler = 0) ∧
    (∀ m ∈ [mftC 2 1, mftAdmit, mftAway, mftResume, mftPark], tagContent (frame0 m).hdr.tag < 9) := by
  decide +kernel

set_option maxRecDepth 100000 in
/-- The hypotheses of FrameZeroIsJudged, whatever job the receiver serves: a caravan of the current epoch, of a later one and
of an older one. -/
theorem test_frame0_ready (j : JobId) :
    let s := receiverOf j
    s.accepts = true ∧ s.Room 0 0 ∧ s.fab.aborted = [] ∧ (s.part 0).st = .serving ∧ (s.part 0).role ≠ .unset ∧
    s.epochKind 1 = 0 ∧ s.epochKind 3 = 1 ∧ s.epochKind 0xFFFF = 3 ∧ s.freeSlot 0 = some 0 ∧
    (∀ m ∈ [mftC 2 1, mftAdmit, mftAway, mftResume], hSrc (frame0 m) = 0 ∧ s.targetPart (frame0 m) m = some 0 ∧
      s.incomingOf 0 (mReqId m) = none ∧ s.frame0Fault 0 (frame0 m) m = none) ∧
    s.grammarInRange 0 (mftC 2 1) (coming (mftC 2 1)).sampler = true ∧
    (match (s.gather 0 [] (mSrAddr mftAdmit) 128).1 with | .bytes b => decide (b = sampler) | _ => false) = true ∧
    (match (s.gather 0 [] (mSrAddr mftAway) 128).1 with
      | .lines l => decide (s.askRefused 0 (tagOfManifest mftAway Ct.sampler 0 false false) l = none) | _ => false) = true := by
  unfold State.Room
  revert j
  decide +kernel

/-- A member of cache set 2, its lead or not. -/
def member (j : JobId) (members : List NodeId) : State :=
  (setParts 0 (fun x => { x with role := .cache }) (receiverOf j)).modMgr fun m =>
    { m with cur := some { setBook with sets := [⟨2, false, members, [0]⟩] } }

set_option maxRecDepth 100000 in
/-- The hypotheses of FrameZeroIsJudged about PARK: at the lead of the cache set, and at another member. -/
theorem test_frame0_park (j : JobId) :
    (∀ l ∈ [[(0 : NodeId), 1, 2], [1, 2]], (member j l).frame0Fault 0 (frame0 mftPark) mftPark = none ∧
      (member j l).epochKind (mEpoch mftPark) = 0 ∧ (member j l).accepts = true) ∧
    (((member j [0, 1, 2]).setUnder mftPark).bind (member j [0, 1, 2]).leadOf = some (member j []).fab.node) ∧
    (((member j [1, 2]).setUnder mftPark).bind (member j [1, 2]).leadOf ≠ some (member j []).fab.node) ∧
    (member j [1, 2]).grammarInRange 0 mftPark (coming mftPark).sampler = true := by
  revert j
  decide +kernel

/-- Room for the pages of one position, whatever the number of layers. -/
theorem room_of (s : State) (i : Incoming) (j : Nat) (hj : s.jobOf 0 = some j) (hp : 256 ≤ s.poolFree j)
    (hk : kvPositions i.mft ≤ 256) (hf : mFlag i.mft flSharedPrefix = false) (hs : mNextPos i.mft ≤ srLogCap i.sampler)
    (hg : (s.geom 0).pageSize (s.geom 0).kvFmt = s.slotBytes j)
    (hh : i.park = false → kvFmtOk (mKfmt i.mft) = true ∧ (s.geom 0).pageSize (mKfmt i.mft) ≤ s.slotBytes j)
    (hc : i.park = true → ∃ c, s.setUnder i.sent = some c ∧ c.coded = false) : s.roomFor 0 i = true := by
  have hn : s.pagesNeeded 0 i.mft i.sampler ≤ 256 := by
    show (ceilDiv (kvPositions i.mft) 256 - (if mFlag i.mft flSharedPrefix then _ else 0)) * s.layers 0 ≤ 256
    have hl : s.layers 0 ≤ 255 := Nat.one_add_le_iff.mpr (Nat.mod_lt _ (by decide))
    have h1 : ceilDiv (kvPositions i.mft) 256 ≤ 1 := by rw [ceilDiv, if_neg (by decide)]; omega
    rw [hf, if_neg Bool.false_ne_true, Nat.sub_zero]
    exact Nat.le_trans (Nat.mul_le_mul h1 hl) (by decide)
  simp only [State.roomFor, hj]
  cases hi : i.park with
  | false => simp [hg, (hh hi).1, (hh hi).2, Nat.le_trans hn hp, hs]
  | true => obtain ⟨c, h1, h2⟩ := hc hi; simp [h1, h2, hg, Nat.le_trans hn hp, hs]

theorem test_room (j : JobId) (m : Manifest) (hm : m ∈ [mftC 2 1, mftResume]) :
    (receiverOf j).roomFor 0 (coming m) = true := by
  have h : ∀ j : JobId, let s := receiverOf j
      s.jobOf 0 = some j.val ∧ 256 ≤ s.poolFree j ∧ (s.geom 0).pageSize (s.geom 0).kvFmt = s.slotBytes j ∧
      ∀ m ∈ [mftC 2 1, mftResume], kvPositions m ≤ 256 ∧ mFlag m flSharedPrefix = false ∧
        mNextPos m ≤ srLogCap (coming m).sampler ∧ kvFmtOk (mKfmt m) = true ∧ (s.geom 0).pageSize (mKfmt m) ≤ s.slotBytes j := by
    decide +kernel
  obtain ⟨h1, h2, h3, h4⟩ := h j
  obtain ⟨h5, h6, h7, h8⟩ := h4 m hm
  exact room_of _ _ _ h1 h2 h5 h6 h7 h3 (fun _ => h8) (fun h => by cases h)

/-- The record of an ADMIT as its receiver reads it, and the state then. -/
def admitting : Incoming := { coming mftAdmit with sampler := sampler }

def afterRead (j : JobId) : State :=
  ((setParts 0 (fun x => { x with incoming := x.incoming ++ [{ coming mftAdmit with sampler := [] }] }) (receiverOf j)).gather 0 []
    (mSrAddr mftAdmit) 128).2

theorem test_admit_room (j : JobId) : (afterRead j).roomFor 0 admitting = true := by
  have h : ∀ j : JobId, let s := afterRead j
      s.jobOf 0 = some j.val ∧ 256 ≤ s.poolFree j ∧ (s.geom 0).pageSize (s.geom 0).kvFmt = s.slotBytes j ∧
      kvPositions mftAdmit ≤ 256 ∧ mFlag mftAdmit flSharedPrefix = false ∧ mNextPos mftAdmit ≤ srLogCap sampler ∧
      kvFmtOk (mKfmt mftAdmit) = true ∧ (s.geom 0).pageSize (mKfmt mftAdmit) ≤ s.slotBytes j ∧
      s.grammarInRange 0 mftAdmit sampler = true := by
    decide +kernel
  obtain ⟨h1, h2, h3, h4, h5, h6, h7, h8, -⟩ := h j
  exact room_of _ _ _ h1 h2 h4 h5 h6 h3 (fun _ => ⟨h7, h8⟩) (fun h => by cases h)

/-- What the lead keeps of a PARK. -/
def parking : Incoming := { coming mftPark with park := true }

theorem test_park_room (j : JobId) (l : List NodeId) (hl : l = [0, 1, 2] ∨ l = [1, 2]) :
    (member j l).roomFor 0 parking = true := by
  have h : ∀ j : JobId, ∀ l ∈ [[(0 : NodeId), 1, 2], [1, 2]], let s := member j l
      s.jobOf 0 = some j.val ∧ 256 ≤ s.poolFree j ∧ (s.geom 0).pageSize (s.geom 0).kvFmt = s.slotBytes j ∧
      kvPositions mftPark ≤ 256 ∧ mFlag mftPark flSharedPrefix = false ∧ mNextPos mftPark ≤ srLogCap parking.sampler ∧
      s.setUnder parking.sent = some ⟨2, false, l, [0]⟩ := by
    decide +kernel
  obtain ⟨h1, h2, h3, h4, h5, h6, h7⟩ := h j l (by simpa using hl)
  exact room_of _ _ _ h1 h2 h4 h5 h6 h3 (fun h => by cases h) (fun _ => ⟨_, h7, rfl⟩)

/-- The partition of role CACHE that serves the request's job takes its PARK. -/
theorem test_park_target (l : List NodeId) : (member itsJob l).targetPart (frame0 mftPark) mftPark = some 0 := by
  have h0 : (List.finRange 16) = 0 :: (List.finRange 16).tail := by decide
  have hr : ∀ j l, (((member j l).part 0).st = .serving) ∧ ((member j l).part 0).role = .cache ∧
      ((member j l).part 0).curJob = some j := fun j l => ⟨rfl, rfl, rfl⟩
  have hj : (member itsJob l).servesJobOf 0 mftPark = true := by
    unfold State.servesJobOf
    rw [(hr itsJob l).2.2, show mTenant mftPark = 7 by decide +kernel]
    exact decide_eq_true rfl
  unfold State.targetPart
  rw [if_pos (by decide +kernel), h0, List.find?_cons_of_pos]
  simp [(hr itsJob l).1, (hr itsJob l).2.1, hj]

/-- A later frame of the caravan: its index, and whether it is the last. -/
def laterFrame (m : Manifest) (k : Nat) (last : Bool) : Frame :=
  { hdr := ⟨tagOfManifest m Ct.tokenLog k last false, 0, 0, 0, 0, 0, 0⟩, mft := none, body := .bytes (zeros 20) }

def receiving (i : Incoming) (f : State → State := id) : State := f (setParts 0 (fun x => { x with incoming := [i] }) receiver)

def accepted : Incoming := { coming (mftC 2 1) with accepted := true }

/-- The hypotheses of CaravanFramesToCommit: a frame with more to come, the last frame, one whose epoch differs. -/
theorem test_frames_ready :
    let s := receiving accepted
    let m := mftC 2 1
    let t := (laterFrame m 1 true).hdr.tag
    s.fab.aborted = [] ∧ s.incomingOf (hSrc (laterFrame m 1 true)) (tagReqId t) = some (0, accepted) ∧
    accepted.accepted = true ∧ (coming m).accepted = false ∧ tagLast (laterFrame m 1 false).hdr.tag = false ∧ tagLast t = true ∧
    tagTenant t = mTenant m ∧ tagEpoch t = mEpoch m ∧ tagPhase t = mPhase m ∧
    tagEpoch (laterFrame (mftC 2 3) 1 true).hdr.tag ≠ mEpoch m ∧ tagIndex t = 1 ∧ accepted.park = false ∧
    s.epochKind (mEpoch m) = 0 ∧ mFlag m flAdapter = false ∧ mFlag m flSharedPrefix = false ∧ accepted.pages = [] ∧
    mPhase m = Ph.handoff ∧ logFrames m = 1 ∧
    (Incoming.run { accepted with got := [(1, zeros 20)], last := some 1 } 1 (logFrames m)).length = 4 * mNextPos m ∧
    tagTenant (laterFrame m 1 false).hdr.tag = mTenant accepted.sent ∧ tagEpoch t = mEpoch accepted.sent ∧
    tagPhase t = mPhase accepted.sent ∧
    placeIn ((receiving { accepted with park := true, mft := mftC 4 1 }).frameRuns 0 { accepted with park := true, mft := mftC 4 1 }) 1
      2000 = none := by
  decide +kernel

/-- Where the free addresses of the receiver's copies fall in page 0, they can be written. -/
theorem test_copies_ready (w : Nat) (h : Config.ownCopy w 0 0 0 = 0) :
    (receiving accepted).stCheck ((receiving accepted).jobOf 0) ((receiving accepted).copyAddr w 0 0) 128 = none := by
  have hj : (receiving accepted).jobOf 0 = some 0 := by decide +kernel
  have ha : (receiving accepted).copyAddr w 0 0 = 0 := by
    unfold State.copyAddr
    rw [hj]
    simp [h]
  rw [hj, ha]
  decide +kernel

/-- A HANDOFF with one page of 16 frames `z`, all there; the last frame that came is one sent before. -/
def paged (z : Bytes) : Incoming :=
  { accepted with got := (0, zeros 20) :: (1, zeros 20) :: (List.range 16).map fun k => (k + 2, z), last := some 17, pages := [0] }

/-- Its page is cut as the layout says. -/
theorem test_paged (g : Geom) (z : Bytes) (hz : z.length = 4096) (hg : g.pageSize g.kvFmt = 65536)
    (hf : g.pageSize (mKfmt (mftC 2 1)) = 65536) : ∃ l, (paged z).pagesFrom g (g.pageSize g.kvFmt) 1 2 = some l := by
  have hl : ((paged z).run 2 16).length = 65536 := by
    have h : (paged z).run 2 16 = (List.range 16).flatMap fun _ => z := rfl
    rw [h, List.length_flatMap]
    simp only [hz]
    decide
  have hk : (tabFind (paged z).forms 2).getD (mKfmt (paged z).mft, false) = (mKfmt (mftC 2 1), false) := rfl
  have hb : g.formBytes (mKfmt (mftC 2 1), false) = 65536 := hf
  have hc : kvFmtOk (mKfmt (mftC 2 1)) = true := by decide +kernel
  have he : (paged z).last = some 17 := rfl
  refine ⟨[((mKfmt (mftC 2 1), false), (paged z).run 2 16)], ?_⟩
  simp only [Incoming.pagesFrom, hk, hb, hg, hf, hc, he, show ceilDiv 65536 4096 = 16 from rfl, hl]
  simp

/-- The other hypotheses of that commit: the frame that came last is an earlier one again. -/
theorem test_paged_ready (z : Bytes) :
    let i := paged z
    let f := laterFrame (mftC 2 1) 0 false
    let s := receiving i
    s.incomingOf (hSrc f) (tagReqId f.hdr.tag) = some (0, i) ∧ i.accepted = true ∧ i.sent = mftC 2 1 ∧ i.mft = mftC 2 1 ∧
      (∀ k, k < 17 → (tabFind i.got (k + 1)).isSome) ∧ i.park = false ∧ i.pages.length = 1 ∧ i.run 1 1 = zeros 20 ∧
      placeIn (s.frameRuns 0 i) 1 0 = none := by
  have hp : ∀ a n l, placeIn ((a, n) :: l) 1 0 = none := fun a n l => by simp [placeIn]
  have hi : ∀ p : PartId, ((receiving (paged z)).part p).incoming = if p = 0 then [paged z] else [] := by
    intro p
    fin_cases p <;> rfl
  have hm : (paged z).src = hSrc (laterFrame (mftC 2 1) 0 false) ∧
      mReqId (paged z).mft = tagReqId (laterFrame (mftC 2 1) 0 false).hdr.tag := by
    have : hSrc (laterFrame (mftC 2 1) 0 false) = 0 ∧ mReqId (mftC 2 1) = tagReqId (laterFrame (mftC 2 1) 0 false).hdr.tag := by
      decide +kernel
    exact ⟨this.1.symm, this.2⟩
  have h0 : List.finRange 16 = 0 :: (List.finRange 16).tail := by decide
  refine ⟨?_, rfl, rfl, rfl, ?_, rfl, rfl, rfl, ?_⟩
  · unfold State.incomingOf
    rw [h0, List.findSome?_cons, hi 0, if_pos rfl, List.find?_cons_of_pos (by simpa using hm)]
    rfl
  · intro k hk
    interval_cases k <;> rfl
  · unfold State.frameRuns
    rw [if_neg (show ¬((paged z).park = true) from Bool.false_ne_true)]
    exact hp _ _ _

theorem test_paged_at :
    let f := laterFrame (mftC 2 1) 0 false
    let m := mftC 2 1
    let s := receiver
    s.accepts = true ∧ tagContent f.hdr.tag < 9 ∧ s.fab.aborted = [] ∧ tagTenant f.hdr.tag = mTenant m ∧
      tagEpoch f.hdr.tag = mEpoch m ∧ tagPhase f.hdr.tag = mPhase m ∧ tagLast f.hdr.tag = false ∧ s.jobOf 0 = some 0 ∧
      (∀ b ∈ s.mgr.cur, ∀ n ∈ b.nodes, n.state ≠ .removed) ∧ logFrames m = 1 ∧ 4 * mNextPos m = 20 ∧
      (s.geom 0).pageSize (s.geom 0).kvFmt = 65536 ∧ (s.geom 0).pageSize (mKfmt m) = 65536 ∧
      s.stCheck (some 0) (s.poolBase 0) 65536 = none := by
  decide +kernel

/-- A PARK without a parked page, all there, at a member that is not the lead. -/
def parked2 : Incoming :=
  { parking with accepted := true, got := [(0, zeros 20), (1, zeros 20), (2, pageTable 0)], last := some 2 }

theorem test_park_commit_ready (j : JobId) :
    let f := laterFrame mftPark 0 false
    let s := setParts 0 (fun x => { x with incoming := [parked2] }) (member j [1, 0])
    s.accepts = true ∧ tagContent f.hdr.tag < 9 ∧ s.fab.aborted = [] ∧
      s.incomingOf (hSrc f) (tagReqId f.hdr.tag) = some (0, parked2) ∧ tagTenant f.hdr.tag = mTenant parked2.sent ∧
      tagEpoch f.hdr.tag = mEpoch parked2.sent ∧ tagPhase f.hdr.tag = mPhase parked2.sent ∧ tagLast f.hdr.tag = false ∧
      (∀ k, k < 2 → (tabFind parked2.got (k + 1)).isSome) ∧ parked2.park = true ∧
      s.setUnder parked2.sent = some ⟨2, false, [1, 0], [0]⟩ ∧ s.fab.node = 0 ∧ parked2.parkTable.2 = (64, []) ∧
      (parked2.split 1 [4 * mNextPos parked2.mft, 64]).isSome := by
  revert j
  decide +kernel

/-- A manifest held for a newer book. -/
theorem test_hold_ready :
    let s := receiver.modMgr fun m => { m with held := [{ src := 0, frame := frame0 (mftC 2 3) }] }
    s.Room 0 0 ∧ ∃ h, s.mgr.held = [h] ∧ h.src = 0 ∧ h.frame.mft = some (mftC 2 3) ∧
      s.targetPart h.frame (mftC 2 3) = some 0 := by
  refine ⟨by unfold State.Room; decide +kernel, _, rfl, rfl, rfl, by decide +kernel⟩

/-- The hypotheses of ResidentsAndReleases: a resident caravan of the book before and of the current book; a convoy
member; a record and none. -/
theorem test_resident_ready :
    (let s := (receiver.hsWrite 0 0xBF00C0 (mBytes (mftC 2 1))).hsWrite 0 0x20100 (zeros 16)
     let s' := s.modMgr fun m => { m with cur := some { book with epoch := 2 } }
     s.convoyRowOf 0 3 = none ∧ s.owns 0 3 = true ∧ terminal (mPhase (s.manifest 0 3)) = false ∧ mCrcOk (s.manifest 0 3) = true ∧
      s.epochKind (mEpoch (s.manifest 0 3)) = 0 ∧ s'.epochKind (mEpoch (s'.manifest 0 3)) = 2 ∧
      s'.routeStands 0 (s'.part 0).role (s'.manifest 0 3) = true) ∧
    (world.convoyRowOf 0 3).isSome ∧ (∀ p : PartId, (world.part p).incoming = []) ∧
    copyHit ⟨0x51, none, none, none⟩ parkedCopy = true ∧ copyHit ⟨0x51, some 0, none, none⟩ parkedCopy = true ∧
    copyHit ⟨0x52, none, none, none⟩ parkedCopy = false ∧ copyHit ⟨0x51, some 64, none, none⟩ parkedCopy = false ∧
    incomingHit ⟨0x52, none, none, none⟩ accepted = false := by
  decide +kernel

def installing (sent : Bool) (waiting busy : List NodeId) : State :=
  (managed none).modMgr fun m =>
    { m with install := some { book := { book with epoch := 2 }, sent := sent, waiting := waiting, busy := busy } }

/-- The hypotheses of BooksFollowEachOther: a book of 262144 bytes; the next book with and without a drain; a stale one; an
install with one node and with two to come. -/
theorem test_book_ready :
    (let s := managed (some 0)
     s.isManager = true ∧ s.mgr.install = none ∧ book.bytes ≤ 262144 ∧ book.ranges.length ≤ 64 ∧ s.stby = some 0 ∧
      s.mgr.copyStarted = false ∧ s.Room unitRk 0 ∧ State.reset.isManager = false) ∧
    (let s := receiver
     s.accepts = true ∧ (∀ p : PartId, ∀ e ∈ (s.drv p).queue 5, e.phase ≠ .waiting) ∧
      s.mgr.cur = some book ∧ s.mgr.prev = none ∧ s.isManager = false ∧ s.mgr.held = [] ∧ s.drainCount = 0 ∧
      (∀ p : PartId, (s.part p).incoming = []) ∧ s.parked = [] ∧ (∀ n ∈ book.nodes, n.state ≠ .removed) ∧
      s.Room unitRk 1) ∧
    (let s := managed none
     s.accepts = true ∧ s.mgr.copyTo = none ∧ s.isManager = true ∧ s.epochKind 5 = 1 ∧ ({ book with mgr := 0, epoch := 5 } : Book).mgr ≠ s.fab.node ∧ s.mgr.takeover ≠ 1) ∧
    (let s := (receiver.hsWrite 0 0xBF00C0 (mBytes (mftC 2 1))).modMgr fun m =>
       { m with cur := some { book with epoch := 2 }, prev := some book }
     0 < s.drainCount) ∧
    (book.epoch + 1 = 2 ∧ (5 : BitVec 16) ≠ book.epoch + 1 ∧ (5 : BitVec 16) ≠ book.epoch) ∧
    (∀ l ∈ [[(0 : NodeId)], [0, 1]], (installing true l []).mgr.install.map (·.waiting) = some l) ∧
    (installing true [1] []).accepts = true ∧ (installing true [1] []).mgr.copyTo = none ∧
    ((installing true [1] []).modMgr fun m => { m with copyTo := some 0 }).mgr.copyTo.isSome = true ∧
    (installing true [] [0]).mgr.install.map (·.busy) = some [0] ∧ (installing true [] [0]).Room unitRk 0 ∧
    (installing true [] [0]).mgr.install.map (·.sent) = some true := by
  unfold State.Room
  decide +kernel

/-- The hypotheses of MembershipAndTakeover: capabilities of version 3, and of none; an active node and one not in the
book; a standby with a mirrored book. -/
theorem test_membership_ready :
    (let s := managed (some 0)
     s.isManager = true ∧ s.stby = some 0 ∧ s.mgr.install = none ∧ s.nodeState 2 = .removed ∧ s.nodeState 0 ≠ .removed ∧
      s.Room unitRk 0 ∧ s.Room unitRk 2 ∧
      (fld (0x33 : Word) 3 0 ≤ 3 ∧ 3 ≤ fld (0x33 : Word) 7 4) ∧ ¬(fld (0x22 : Word) 3 0 ≤ 3 ∧ 3 ≤ fld (0x22 : Word) 7 4)) ∧
    receiver.isManager = false ∧ receiver.regBit 0x708020 1 = false ∧ receiver.mgrNode = some 1 ∧ receiver.Room unitRk 1 ∧
    receiver.mgr.held = [] ∧ receiver.Room unitRk receiver.boot.cfg.mgr ∧
    (receiver.setRegFld 0x708020 1 1 1).regBit 0x708020 1 = true ∧
    (let s := receiver.modMgr fun m => { m with role := .standby, mirrored := some book }
     s.mgr.role = .standby ∧ s.mgr.mirrored = some book ∧ s.mgrNode = some 1 ∧ s.Room unitRk 1) ∧ receiver.mgr.role ≠ .standby ∧
    St.joinVersion ≠ St.ok := by
  unfold State.Room
  decide +kernel

/-- The hypotheses of StandbyIsCopied and JoiningTheSystem about a node that is ready, one that is not, and one that has
failed; of the clauses about a node that takes no frames. -/
theorem test_node_ready :
    (let s := up (managed none)
     s.boot.ready = true ∧ s.isManager = true ∧ s.stby = none ∧ s.mgr.copyTo = none ∧ s.mgr.install = none ∧
      s.nodeState 0 = .active ∧ s.mgr.failedNodes = []) ∧
    (managed none).boot.ready = false ∧ (managed none).accepts = true ∧ (managed (some 0)).accepts = true ∧
    (up receiver).boot.ready = true ∧ (up receiver).isManager = false ∧ (up receiver).Room unitRk (up receiver).boot.cfg.mgr ∧
    receiver.boot.fatal = false ∧ (receiver.modFab fun b => { b with joinRefused := true }).accepts = false ∧
    (holding 3 (managed none)).accepts = true ∧ (holding 3 (managed (some 0))).accepts = true ∧ worker.accepts = true ∧
    (sending true).accepts = true ∧ (sending false).accepts = true ∧ (pooled .generate).accepts = true ∧
    (logging 5 id).accepts = true ∧ mCrcOk (world.manifest 0 3) = true := by
  unfold State.Room
  decide +kernel

/-- The hypotheses of FailedNodesAndTheStandby. -/
theorem test_failed_node_ready :
    (let s := managed none
     s.isManager = true ∧ (0 : NodeId) ≠ s.fab.node ∧ s.mgr.failedNodes = [] ∧ s.mgr.cur = some { book with stby := none } ∧
      s.mgr.copyTo = none ∧ s.mgr.requests = [] ∧ s.nodeState 0 = .active ∧ s.serves 0 = true ∧ s.mgr.install = none ∧
      s.stby = none ∧
      nodeOf (fld (0x10000 : Word) 9 0) = 0 ∧ bitOf (0x10000 : Word) 16 = true) ∧
    evSeverity Ev.muFailed = 3 ∧ evSeverity 0 ≠ 3 ∧
    (∃ m ∈ [(0 : NodeId), 2], m ≠ 0) ∧ ((installing true [0, 2] []).mgr.install.map (·.sent)) = some true ∧
    ((managed none).modMgr fun m => { m with copyTo := some 0, copyStarted := true }).mgr.copyTo = some 0 := by
  decide +kernel


/-! ## The fabric, the host interface, bring-up, pins -/

/-- A frame of node 0, unit 2: its TYPE, LINES, SEQ, flags, ADDR and words 5. -/
def frame (ty lines seq flags addr w5 : Nat) (body : Body) (content : Nat := 8) (tag : Nat := 0) : Frame :=
  { hdr := ⟨⟨BitVec.ofNat 64 tag, BitVec.ofNat 64 (content * 2 ^ 20)⟩,
      BitVec.ofNat 64 (ty * 2 ^ 60 + 2 * 2 ^ 29 + lines * 2 ^ 22 + 5 * 2 ^ 16), BitVec.ofNat 64 (seq * 2 ^ 32 + flags),
      BitVec.ofNat 64 addr, BitVec.ofNat 64 w5, 0, 0⟩
    mft := none, body := body }

/-- A window of node 0, unit 2 that expects SEQ 5, has seen 6, and holds the flagged line of 8. -/
def window : RxWin := { src := 0, unit := 2, base := 5, marks := [6], held := [⟨8, 0x40, zeros 64, 0, ⟨0, 0⟩, 0⟩] }

def withWin (w : RxWin) : State := world.modFab fun b => { b with wins := [w] }

/-- The hypotheses of ReceiverAnswersFrames about WRITE and READ_REQ: content 8 and 9; no window, the SEQ expected, the last
one a window takes, one seen, one before; page 0 mapped and page 1 not. -/
theorem test_receive_ready :
    world.accepts = true ∧ tagContent (frame 0 1 5 0 64 0 (.bytes (zeros 64))).hdr.tag < 9 ∧
    ¬ tagContent (frame 0 1 5 0 64 0 (.bytes []) 9).hdr.tag < 9 ∧ hPlaced (frame 0 1 5 0 64 0 (.bytes [])) = false ∧
    hFlag (frame 0 1 5 1 64 0 (.bytes [])) = true ∧ hSeq (frame 0 1 5 0 64 0 (.bytes [])) = 5 ∧
    hLines (frame 0 64 5 0 64 0 (.bytes [])) = 64 ∧ world.rxWin 0 2 = none ∧ world.fab.wins.length < 2048 ∧
    (withWin window).rxWin 0 2 = some window ∧ (7 ∉ window.marks ∧ seqDist 7 5 < 4096) ∧ seqDist (5 + 4095) 5 < 4096 ∧
    2 ^ 31 ≤ seqDist 4 5 ∧ (∀ h ∈ window.held, h.seq ≠ 6) ∧
    (match world.translate none 0x1FFFC0, world.translate none 0x200000 with
      | .ok pl, .error _ => (world.mu pl.unit).parked.isEmpty && !pl.far && !ePoisoned pl.entry &&
          !world.mem.anyPoison pl.far pl.key 64
      | _, _ => false) = true ∧
    (window.held.find? (fun h => h.seq = { window with base := 8 }.base)) = some ⟨8, 0x40, zeros 64, 0, ⟨0, 0⟩, 0⟩ ∧
    (∀ h ∈ window.held, h.seq ≠ window.base) ∧ (∀ p : PartId, (inState .serving none).liveSlots p = []) := by
  decide +kernel

/-- A read that a FAB_PULL of partition 0 sent, and its answer. -/
def readSent : Sent :=
  { sentFrame 0 with frame := frame 1 1 0 0 0x40000000040 0 (.bytes []), owner := some (0, 5, 0), place := 0 }

theorem test_answer_ready :
    let s := (engine (eng 0x71 5 3) fun e => { e with phase := .waiting, owed := 1 }).modFab fun b => { b with sent := [readSent] }
    let f := frame 2 1 9 0 0x40000000040 0 (.bytes (zeros 64))
    s.fab.sent.find? (fun x => decide (x.unit = hDunit f) && decide (x.seq = hRseq f) && decide (hType x.frame = 1) &&
      decide (hAddr x.frame = hAddr f)) = some readSent ∧ s.accepts = true ∧ hDunit f ≠ 17 ∧
      (s.ownerEntry (0, 5, 0)).any (fun e => e.phase = .waiting ∧ iOp e.insn = 0x71) = true ∧ (bodyBytes f.body).length = 64 * hLines f ∧
      hRstatus f = 0 ∧ (s.drv 0).faults.length < 16 ∧
      hRstatus (frame 2 1 9 (2 ^ 16) 0 0 (.bytes [])) = 1 ∧ hRstatus (frame 2 1 9 (2 * 2 ^ 16) 0 0 (.bytes [])) = 2 ∧
      hDunit (frame 2 1 9 0 0 (17 * 2 ^ 27) (.bytes [])) = 17 := by
  decide +kernel

/-- A combining entry with `n` waiters. -/
def comb (n : Nat) (sends : Nat) : Comb :=
  { dst := 1, addr := 0x40000000040, lines := 1, waiters := List.replicate n ⟨0, 2, 9, ⟨0, 0⟩, 1⟩, seq := 0, sends := sends,
    path := some 0, cls := 0, held := false }

/-- The world of a node that reaches node 1 on one path, or on two. -/
def paths (w : BitVec 32) (sent : List Sent) (f : Fab → Fab := id) : State :=
  let s := (linked world).modFab fun b => f { b with fwd := [(1, w)], sent := sent }
  s.setPort 1 { s.port 1 with up := true, trained := true, peer := 1 }

def fence : Fence := { part := 0, uid := 0, id := 7, owed := [(1, 0)] }

/-- An ack entry of unit 0, SEQ 0, with or without its fence. -/
def ackW (f : Nat) : Word := BitVec.ofNat 64 (f * 2 ^ 19)

/-- The hypotheses of AcknowledgementsAndReplay: acks, fences, notices and expiries at the seventh and the eighth send. -/
theorem test_replay_ready :
    (let s := paths 0xFFFFFFF0 [sentFrame 7]
     s.accepts = true ∧ s.mgr.sends = [] ∧ (∀ p : PartId, (s.part p).outgoing = [] ∧ (s.part p).incoming = [] ∧ (s.part p).fetches = []) ∧
      s.fab.fences = [] ∧ s.fab.late = [] ∧ s.validPaths 1 = [0] ∧ s.fab.joinRefused = false ∧ s.hop 1 0 < 8 ∧
      (s.port (Fin.ofNat 8 (s.hop 1 0))).up = true ∧ s.findSent 0 1 0 = some (sentFrame 7) ∧
      s.fab.sent.filter (fun x => x.unit = 0 ∧ x.dst = 1) = [sentFrame 7] ∧ (sentFrame 7).owner = none ∧
      hPlaced (sentFrame 7).frame = false ∧ s.findSent 0 1 1 = none) ∧
    (paths 0xFFFFFFF0 [] fun b => { b with late := [(0, 1, 0)] }).fab.late.contains (ackUnit (ackW 7), 1, ackSeq (ackW 7)) = true ∧
    (let s := (engine (eng 0x72 5 0xFFF) fun e => { e with phase := .waiting }).modFab fun b => { b with fences := [fence] }
     fence.part.val = ackUnit (ackW 7) ∧ fence.id = ackFence (ackW 7) ∧ fence.owed = [((1 : NodeId), ackSeq (ackW 7))] ∧
      (s.ownerEntry (fence.part, 5, fence.uid)).isSome ∧ (s.drv 0).faults.length < 16) ∧
    (paths 0xFFFFFF10 [sentFrame 7]).validPaths 1 = [0, 1] ∧ ((paths 0xFFFFFF10 [sentFrame 7]).validPaths 1).filter (· ≠ 0) = [1] ∧
    (paths 0xFFFFFF10 []).hop 1 1 = 1 ∧ (paths 0xFFFFFFFF [sentFrame 7]).validPaths 1 = [] ∧
    hDst ({ sentFrame 7 with frame := frameMod (frameWith (.bytes [])) fun h => { h with w2 := setFld h.w2 53 44 1 } }).frame = 1 ∧
    (paths 0xFFFFFFF0 [] fun b => { b with acks := [(1, List.replicate 65 0)] }).fab.acks.find? (fun x => x.1 = 1) =
      some (1, List.replicate 65 0) ∧
    (let s := withWin window
     s.rxWin 0 2 = some window ∧ seqDist 6 window.base < 2 ^ 31 ∧ 2 ^ 31 ≤ seqDist 4 window.base ∧ { window with held := [] }.held = [] ∧
      (s.fab.comb = [])) ∧
    (let s := world.modFab fun b => { b with comb := [comb 1 4] }
     s.fab.comb.find? (fun c => c.dst = 1 ∧ c.addr = (0x40000000040 : BitVec 52).toNat ∧ c.lines = 1) = some (comb 1 4) ∧
      4 ≤ (comb 1 4).sends ∧ (comb 1 3).sends < 4 ∧ (comb 1 4).waiters = [⟨0, 2, 9, ⟨0, 0⟩, 1⟩]) := by
  decide +kernel

/-- A frame that is held for want of a path. -/
def heldFrame : Sent := { sentFrame 7 with heldBack := true, path := none }

/-- The hypotheses of AcknowledgementsAndReplay about a frame sent for the eighth time, one held back, one that the combiner
sent, and a fence whose time is over. -/
theorem test_replay_ends_ready :
    (let x := { sentFrame 7 with sends := 8 }
     let s := paths 0xFFFFFFF0 [x]
     s.fab.backlog = [] ∧ s.fab.comb = [] ∧ s.findSent 0 1 0 = some x ∧ x.heldBack = false ∧ 8 ≤ x.sends ∧ x.owner = none ∧
      hPlaced x.frame = false ∧ bodyBytes x.frame.body = [] ∧ hType x.frame ≠ 1 ∧ s.fab.fences = [] ∧
      s.fab.sent.filter (fun x => x.unit = 0 ∧ x.dst = 1) = [x]) ∧
    (let s := paths 0xFFFFFFF0 [heldFrame]
     s.fab.sent.filter (fun x => x.heldBack ∧ x.dst = 1) = [heldFrame] ∧ s.validPaths 1 = [0] ∧ heldFrame.heldBack = true) ∧
    (let c := comb 1 3
     let s := paths 0xFFFFFFF0 [] fun b => { b with comb := [c] }
     s.fab.comb.find? (fun c => c.dst = 1 ∧ c.seq = 0 ∧ c.path = some 0) = some c ∧ c.sends < 4) ∧
    (let s := ((engine (eng 0x72 5 0xFFF) fun e => { e with phase := .waiting }).modFab fun b =>
       { b with fences := [fence], sent := [sentFrame 7] })
     s.fab.backlog = [] ∧ s.fab.comb = [] ∧ s.fab.fences = [fence] ∧ fence.part = 0 ∧ fence.owed = [(1, (sentFrame 7).seq)] ∧
      s.findSent 0 1 (sentFrame 7).seq = some (sentFrame 7) ∧ (s.ownerEntry (0, 5, fence.uid)).isSome ∧
      (s.drv 0).faults.length < 16) ∧
    ({ worker with fab := { worker.fab with joinRefused := true } } : State).accepts = false := by
  decide +kernel

/-- The hypotheses of AcknowledgementsAndReplay about the combiner's own reads: one that is held while no path is valid, and
goes out when one is; nothing waits for room; a chip that met a fatal condition. -/
theorem test_combiner_ready :
    (let c := { comb 1 1 with held := true }
     let s := paths 0xFFFFFFF0 [] fun b => { b with comb := [c] }
     let s' := paths 0xFFFFFFFF [] fun b => { b with comb := [c] }
     s.fab.comb = [c] ∧ c.dst = 1 ∧ c.held = true ∧ c.path.isSome = true ∧ s.fab.joinRefused = false ∧ s.validPaths 1 = [0] ∧
      s.fab.sent = [] ∧ s'.validPaths 1 = [] ∧ c.sends + 1 < 4 ∧
      s'.fab.comb.find? (fun x => x.dst = 1 ∧ x.addr = (0x40000000040 : BitVec 52).toNat ∧ x.lines = 1) = some c) ∧
    (let s := paths 0xFFFFFFF0 [] fun b => { b with comb := [comb 1 3] }
     s.combBehind (comb 1 3) = false ∧ s.NoWaits ∧ (comb 1 3).held = false) ∧
    (paths 0xFFFFFFF0 [sentFrame 7]).NoWaits ∧ (paths 0xFFFFFFF0 [sentFrame 7]).boot.fatal = false ∧
    ({ world with boot := { world.boot with fatal := true } } : State).boot.fatal = true := by
  unfold State.NoWaits State.CombQuiet
  decide +kernel

/-- A frame whose header is whole. -/
def sound (f : Frame) : Frame := frameMod f id

/-- The hypotheses of PortsAndSwitch: a port with a frame to switch, to drop at TTL 1, to deliver, to combine. -/
theorem test_port_ready :
    (let s := linked world
     (s.port 0).up = true ∧ (s.port 0).mode = 0 ∧ (s.port 1).up = false ∧ s.encapOk 0 .native = true ∧
      s.encapOk 0 (.enet ⟨0, 0, none⟩ 0) = false ∧ frameOk (sound (frame 0 1 5 0 64 0 (.bytes (zeros 64)))) = true ∧
      frameOk (frame 0 1 5 0 64 0 (.bytes (zeros 64))) = false ∧ bkEn (s.bucket (polOff 0 0)) = false ∧ (s.port 0).inject = [] ∧
      (∀ c, c < 8 → vget (s.port 0).egress c [] = []) ∧ (∀ c, c < 8 → s.egressHead 0 c = none) ∧
      (s.setReg (portBase 0) 1).regBit (portBase 0) 0 = true ∧ s.regBit (portBase 0) 0 = false) ∧
    (let s := (linked world).modFab fun b => { b with shp := [(polOff 0 0, 2 ^ 48)], tokens := [(polOff 0 0, -1)] }
     bkEn (s.bucket (polOff 0 0)) = true ∧ s.tokens (polOff 0 0) < 0 ∧ 0 ≤ (linked world).tokens (polOff 0 0)) ∧
    (let f := frame 1 1 9 4 0x40000000040 0 (.bytes [])
     let g := { f with hdr := { f.hdr with w2 := setFld f.hdr.w2 53 44 1 } }
     let s := (linked world).modFab fun b => { b with fwd := [(0, 0xFFFFFFF8), (1, 0xFFFFFFF0)] }
     hCombine g = true ∧ hType g = 1 ∧ s.hop (hDst g) (hPath g) = 0 ∧ s.hop (hDst f) (hPath f) = 8 ∧ 1 < hTtl f ∧
      hTtl { f with hdr := { f.hdr with w2 := 2 ^ 16 } } = 1 ∧ 8 < (linked world).hop 0 0 ∧ (comb 15 1).waiters.length < 16 ∧
      16 ≤ (comb 16 1).waiters.length ∧ s.fab.comb.length < 1024 ∧ 1024 ≤ (List.replicate 1024 (comb 1 1)).length) := by
  decide +kernel


/-- The hypotheses of PortsAndSwitch about the port: idle, and busy; frames that stand as ingress: for this node, for node 1,
from it, and to combine; a frame waiting when the link goes down. -/
theorem test_ingress_ready :
    (let x := (linked world).port 0
     x.again = [] ∧ x.visited = false ∧ x.onWire = none ∧ x.inject = [] ∧ x.ingress = []) ∧
    (let f := frame 0 1 5 0 64 0 (.bytes (zeros 64))
     let x := { (linked world).port 0 with egress := vset (Vector.replicate 8 []) 0 [{ frame := f, at_ := 0 }] }
     x.inject = [] ∧ x.egress.toList.flatten.map (·.frame) = [f]) ∧
    (let s := (linked world).modFab fun b => { b with fwd := [(0, 0xFFFFFFF8), (1, 0xFFFFFFF0)] }
     (∀ ty ∈ [0, 1, 2, 3, 7], let f := frame ty 1 5 0 64 0 (.bytes (zeros 64))
       hType f = ty ∧ s.hop (hDst f) (hPath f) = 8 ∧ tagContent f.hdr.tag < 9 ∧ hSrc f = s.fab.node ∧ hCombine f = false) ∧
     ¬ tagContent (frame 0 1 5 0 64 0 (.bytes []) 9).hdr.tag < 9 ∧ s.fab.joinRefused = false ∧
     s.unitJob (hUnit (frame 0 1 5 0 64 0 (.bytes []))) = none ∧ s.validPaths 1 ≠ [] ∧ s.replayUsed 17 + 64 ≤ 2097152) ∧
    (let s := (linked world).modFab fun b => { b with node := 2 }
     hSrc (frame 0 1 5 0 64 0 (.bytes [])) ≠ s.fab.node) := by
  decide +kernel

/-- Port 0 with one frame in class `c`, free to send. -/
def queued (c : Nat) : State :=
  let s := linked world
  s.setPort 0 { s.port 0 with
    egress := vset (s.port 0).egress c [{ frame := frame 0 1 5 0 64 0 (.bytes (zeros 64)), at_ := 0 }],
    credit := Vector.replicate 8 4096 }

/-- Cycle 100 units, one gate entry of `t` units that opens every class. -/
def gates (t : Nat) : State :=
  let s := (linked world).setReg (gateOff 0) (BitVec.ofNat 64 (100 * 2 ^ 18 + 2 ^ 9))
  s.setReg (adminList 0 0) (BitVec.ofNat 64 (t * 2 ^ 8 + 255))

/-- The hypotheses of EgressGatesAndTime. -/
theorem test_egress_ready :
    (∀ c ∈ [0, 1, 2], ((queued c).port 0).onWire = none ∧ ((queued c).port 0).up = true ∧ (queued c).eligible 0 c = true ∧
      ∀ d, d < c → (queued c).eligible 0 d = false) ∧
    (∀ c, c < 8 → (linked world).eligible 0 c = false) ∧
    (let s := queued 2
     (s.port 0).turn = 2 ∧ (s.port 0).visited = false ∧ vget (s.port 0).deficit 2 0 = 0 ∧
      s.wire 0 (frame 0 1 5 0 64 0 (.bytes (zeros 64))) ≤ 512 * s.regFld 0x30C000 7 0) ∧
    (let s := (queued 0).setPort 0 { (queued 0).port 0 with onWire := some { frame := frame 0 1 5 0 64 0 (.bytes (zeros 64)), at_ := 0 } }
     (s.port 0).onWire.isSome = true ∧ (s.port 0).up = true ∧ s.eligible 0 0 = true) ∧
    (let g := fun t => (gates t).adminGates 0
     ((gates 100).port 0).gateT = none ∧ (gates 100).regBit (gateOff 0) 1 = false ∧ gateListOk (g 100) 1 = true ∧
      gateListOk (g 0) 1 = false) ∧
    ((gates 100).setPort 0 { (gates 100).port 0 with gateT := some 0 }).now = 0 ∧
    ((linked world).setReg 0x32F000 0).regBit 0x32F000 0 = false ∧ (linked world).regBit 0x32F000 0 = true ∧
    ((linked world).setReg (portBase 0) 8).regBit (portBase 0) 3 = true := by
  decide +kernel

/-- The hypotheses of EgressGatesAndTime about what the link sends again, about an UALink port whose frame has ended, and about
a node that is ready and one that is not. -/
theorem test_resend_ready :
    (let f := frame 0 1 5 0 64 0 (.bytes (zeros 64))
     let x := { (linked world).port 0 with again := [f] }
     let y := { (linked world).port 0 with onWire := some { frame := f, at_ := 0 }, sent := [f] }
     x.onWire = none ∧ x.up = true ∧ x.again = [f] ∧ y.onWire.isSome = true ∧ y.up = true ∧ y.mode = 0 ∧ y.again = [] ∧
      y.visited = false ∧ (∀ c, c < 8 → vget y.egress c [] = []) ∧ y.sent.length = 1) ∧
    (up (gates 100)).boot.ready = true ∧ (gates 100).boot.ready = false ∧
    ((queued 0).port 0).again = [] ∧ ((queued 0).port 0).sent = [] := by
  decide +kernel

/-- Port 0 takes PTP messages, and is the slave of a clock heard there. -/
def timed (f : Port → Port := id) : State :=
  let s := (linked world).setReg (portBase 0) 9
  (s.setPort 0 (f (s.port 0))).modFab fun b => { b with master := some (0, ⟨1, 1, 1, 1, 1⟩) }

def ptp (k : PtpKind) (two : Bool) (carries : Int) : PtpMsg :=
  { kind := k, domain := 0, twoStep := two, carries := carries, correction := 0, clock := ⟨0, 0, 0, 0, 0⟩ }

/-- The hypotheses of EgressGatesAndTime about PTP: a Sync inside 1 ms and outside it, a clock heard first, the answers to
what this node asked. -/
theorem test_ptp_ready :
    ((timed.port 0).up = true ∧ timed.regBit (portBase 0) 3 = true ∧
      (ptp .sync false 0).domain.toNat = timed.regFld 0x30A010 7 0 ∧ timed.fab.master.map (·.1) = some 0 ∧
      (0 : Int) - timed.ingressNs 0 - 0 - 0 - (timed.port 0).pathDelay ≤ 1000000 ∧
      1000000 < (2000000 : Int) - timed.ingressNs 0 - 0 - 0 - (timed.port 0).pathDelay) ∧
    (linked world).fab.master = none ∧ (linked world).fab.master.map (·.1) ≠ some 0 ∧
    ((linked world).setReg (portBase 0) 8).regBit (portBase 0) 3 = true ∧
    ((timed fun x => { x with askedAt := some 5, lastSync := some (1, 2) }).port 0).askedAt = some 5 ∧
    ((timed fun x => { x with askedAt := some 5, lastSync := some (1, 2) }).port 0).lastSync = some (1, 2) ∧
    ((linked world).setReg (portBase 0) 1).regBit (portBase 0) 3 = false := by
  decide +kernel

/-- The hypotheses of EgressGatesAndTime about Announce: a clock heard before within eight seconds, one not heard; the clock
followed is of this port, of another, or none. -/
theorem test_announce_ready :
    let heard := fun (ns : Nat) (m : Option (PortId × PtpClock)) =>
      (linked world).modFab fun b => { b with foreign := [(0, 0, ns)], master := m }
    (heard 0 none).fab.foreign.find? (fun y => y.1 = 0 ∧ y.2.1 = (ptp .announce false 0).clock.identity) = some (0, 0, 0) ∧
    (heard 0 none).now ≤ 0 + 8000000000 ∧ (linked world).fab.foreign = [] ∧ (heard 0 none).fab.master = none ∧
    (heard 0 (some (0, ⟨1, 1, 1, 1, 1⟩))).fab.master = some (0, ⟨1, 1, 1, 1, 1⟩) ∧
    (heard 0 (some (1, ⟨1, 1, 1, 1, 1⟩))).fab.master = some (1, ⟨1, 1, 1, 1, 1⟩) ∧ (1 : PortId) ≠ 0 := by
  decide +kernel

/-- The hypotheses of EgressGatesAndTime about the buckets: a class-0 write below its least rate and one above, a frame of
this node that a shaper holds. -/
theorem test_shaper_ready :
    (fld (2499 : Word) 16 0 < 2500 ∧ 2500 ≤ fld (2500 : Word) 16 0 ∧ fld (1023 * 2 ^ 32 : Word) 47 32 < 1024) ∧
    (tabGet (fun _ => ((0 : Nat), (0 : Word))) world.fab.shpWrites (shpOff 0 0)).1 ≤ world.pins.clkT ∧
    (∀ k : PortId, (world.port k).inject = []) := by
  decide +kernel

/-- The node in operation. -/
def ready (s : State) : State := { s with boot := { s.boot with ready := true, started := true, stage := 9 } }

/-- Submission ring 0 enabled, with a packet to fetch. -/
def ringDue : State :=
  ((world.setReg (sqOff 0 + 8) 0x14).setReg (sqDbOff 0) 1)

/-- A packet of one word, completed in ring 0, with its CRC. -/
def packetBytes : Bytes :=
  [1, 1] ++ leBytes 2 1 ++ zeros 4 ++ leBytes 8 7 ++ zeros 44 ++ leBytes 4 2104037751 ++ zeros 16

/-- The hypotheses of HostRingsAndWindows: an open window and a closed one, the last doorbell value and the one past it, a
packet that stands and one that does not. -/
theorem test_host_ready :
    (let s := ready world
     s.fnOn 0 = true ∧ s.fnOn 1 = false ∧ s.boot.ready = true ∧ s.bar2Job 0 = some none ∧ world.boot.ready = false ∧
      (match s.translate none 0x1FF000 with
        | .ok pl => !pl.far && decide (pl.unit < 32) && (s.mu pl.unit).parked.isEmpty && !(s.mu pl.unit).proc &&
            !(s.mu pl.unit).switching && !ePoisoned pl.entry && !s.mem.anyPoison pl.far pl.key 4096
        | _ => false) = true ∧
      (match s.translate none 0x200000 with | .error _ => true | _ => false) = true ∧ 0x1FF000 % 4096 + 4096 ≤ 4096) ∧
    (ringDue.sqSize 0 = 16 ∧ ringDue.cqSize 0 = 16) ∧
    ringDue.fetchDue 0 = true ∧ world.fetchDue 0 = false ∧ ringDue.cqOf 0 0 = some 0 ∧ ringDue.cqEnabled 0 = true ∧
      0 < ringDue.cqFree 0 ∧ packetOk 0 (fitBytes 2048 []) = false ∧ ringDue.host.waiting = [] ∧
      (State.reset.cqOf 0 0).map State.reset.cqEnabled = some false ∧ world.events.unsignalled = 0 ∧
      0 < (({ world with events := { world.events with unsignalled := 1 } } : State).events.unsignalled) := by
  decide +kernel

set_option maxRecDepth 100000 in
theorem test_packet_stands : packetOk 0 (fitBytes 2048 packetBytes) = true := by
  have hn : leAt (fitBytes 2048 packetBytes) 2 2 = 1 := by decide +kernel
  have hc : leAt (fitBytes 2048 packetBytes) 0x3C 4 = 2104037751 := by decide +kernel
  have hd : (crc32c ((fitBytes 2048 packetBytes).take 0x3C ++ ((fitBytes 2048 packetBytes).drop 64).take (16 * 1))).toNat =
      2104037751 := by
    decide +kernel
  have hk : leAt (fitBytes 2048 packetBytes) 0 1 = 1 ∧ leAt (fitBytes 2048 packetBytes) 1 1 ≤ 1 ∧
      (packetOf 0 (fitBytes 2048 packetBytes)).target = 0 / 4 ∧
      ringDue.jobMay (Fin.ofNat 16 (0 / 4)) (Fin.ofNat 16 (packetOf 0 (fitBytes 2048 packetBytes)).job) = true := by
    decide +kernel
  unfold packetOk
  simp only [hn, hc, hd, hk, decide_true, Bool.and_self, Nat.le_refl]
  decide

/-- The hypotheses of HostRingsAndWindows about a window onto a page whose unit is in processor mode, and onto a poisoned
page. -/
theorem test_window_ready :
    (let s := ready (unit0 fun x => { x with proc := true })
     s.bar2Job 0 = some none ∧ s.nbRunning 0 = true ∧ (s.mu 0).switching = false ∧ s.tier.moves = [] ∧
      (match s.translate none 0 with | .ok pl => !pl.far && decide (pl.unit = 0) | _ => false) = true) ∧
    (let s : State := { ready world with spt := [(0, 0x8080000000000000)] }
     (match s.translate none 0 with
       | .ok pl => ePoisoned pl.entry && !(s.mu pl.unit).holds && (s.mu pl.unit).parked.isEmpty && (s.mu pl.unit).held.isEmpty
       | _ => false) = true) ∧
    (match (ready world).translate none 0x1FF000 with
      | .ok pl => !((ready world).mu pl.unit).holds && ((ready world).mu pl.unit).held.isEmpty
      | _ => false) = true := by
  decide +kernel

theorem test_waiting_record :
    let s := { ringDue with host := { ringDue.host with waiting := [(0, zeros 32)] } }
    s.host.waiting = [(0, zeros 32)] ∧ s.cqEnabled 0 = true ∧
      0 < ((s.setRegFld (cqDbOff 0) 15 0 3).modHost fun h => { h with waiting := [] }).cqFree 0 := by
  decide +kernel

/-- The hypotheses of HostRingsAndWindows about a BAR2 access inside the BAR and past its end, a read that waits for its
function's write, a refused packet whose ring has no room, and the message of a vector: MSI-X off, on, masked. -/
theorem test_bar2_ready :
    (let s := ready world
     s.bar2Bytes 0 = 2 ^ 30 ∧ 0x1FF000 + 4096 ≤ s.bar2Bytes 0 ∧ s.bar2Bytes 0 < 2 ^ 30 + 1 ∧ s.bar2Waits 0 = false ∧
      s.host.bar2Held = []) ∧
    (let s := (ready (unit0 fun x => { x with proc := true, parked := [{ acc := .write 0 [1], arrived := 0, entered := none, who := none, fn := some 0 }] }))
     s.bar2Waits 0 = true) ∧
    (let s : State := (ringDue.setRegFld (cqDbOff 0) 15 0 1)
     (ready s).boot.ready = true ∧ s.cqFree 0 = 0 ∧ s.fetchDue 0 = true ∧ s.cqOf 0 0 = some 0 ∧ s.cqEnabled 0 = true) ∧
    (let due := fun (on mask : BitVec 17) =>
       { world with events := { world.events with unsignalled := 1 }, host := { world.host with msixOn := on, msixMask := mask } }
     bitOf (due 1 0).host.msixOn 0 = true ∧ bitOf (due 0 0).host.msixOn 0 = false ∧ (due 1 1).msixMasked 0 0 = true ∧
      ((due 1 0).setReg (msixOff 0 1) 0).msixMasked 0 0 = false) := by
  decide +kernel

/-- The hypotheses of HostResetsAndLink. -/
theorem test_host_reset_ready :
    (let s := { world with host := { world.host with vfEnable := 16 } }
     s.fnOn 16 = true ∧ world.fnOn 16 = false) ∧
    (let s := { world with host := { world.host with training := true } }
     s.host.training = true ∧ world.host.training = false ∧ (true = decide ((6 : BitVec 4) = 6)) ∧
      (false = decide ((5 : BitVec 4) = 6)) ∧ 1 ≤ (6 : BitVec 4).toNat ∧ (6 : BitVec 4).toNat ≤ 6 ∧ (8 : BitVec 4).toNat ∈ [1, 2, 4, 8]) := by
  decide +kernel

/-- The pins and the stage of a start. -/
def starting (stage : Nat) (f : Boot → Boot := id) : State :=
  { State.reset with
    pins := { State.reset.pins with pwrGood := true, sysRstN := true, thermtripN := true },
    boot := f { State.reset.boot with started := true, stage := stage } }

/-- The hypotheses of StartsAndResets. -/
theorem test_start_ready :
    ({ State.reset with pins := { State.reset.pins with pwrGood := false } } : State).pins.pwrGood = false ∧
    (starting 0).pins.pwrGood = true ∧ (starting 0).pins.sysRstN = true ∧
    (let s := { starting 0 with pins := { (starting 0).pins with sysRstN := false } }
     s.pins.sysRstN = false ∧ s.pins.pwrGood = true ∧ s.pins.thermtripN = true) ∧
    (let s := { starting 0 with pins := { (starting 0).pins with sysRstN := false, thermtripN := false } }
     s.pins.sysRstN = false ∧ s.pins.pwrGood = true ∧ s.pins.thermtripN = false) ∧
    ((starting 1).boot.started = true ∧ 1 ≤ (starting 1).boot.stage) ∧ (starting 0).boot.stage = 0 := by
  decide

/-- The hypotheses of BringUpStages: each stage is due in its turn, and no other; parts that pass and that do not. -/
theorem test_stages_ready :
    (∀ n, n < 9 → (starting n).stageDue n = true ∧ (starting (n + 1)).stageDue n = false) ∧
    testPasses passingTest = true ∧ testPasses { passingTest with holdOk := false } = false ∧
    (starting 4).boot.warm = false ∧ ((65519 : BitVec 16).toNat < 65520 ∧ 65520 ≤ (65520 : BitVec 16).toNat) ∧
    (starting 5).boot.retention = false ∧ (starting 5 fun b => { b with retention := true }).boot.retention = true ∧
    (starting 5 fun b => { b with fullTest := true }).boot.fullTest = true ∧
    (starting 6 fun b => { b with cfg := { b.cfg with system := true, node := 1 } }).boot.cfg.system = true ∧
    (starting 7).boot.cfg.images = [] ∧ (starting 8).boot.ready = false := by
  decide +kernel

/-- The hypotheses of BringUpStages about the frames that S4 retires, about S2's numbering and about a node with a port. -/
theorem test_frames_of_march :
    (let bad := fun f : FrameMarch => f.uncorrected = true ∨ 16 < f.corrected
     (∀ f ∈ [(⟨65519, true, 0⟩ : FrameMarch), ⟨65520, false, 17⟩], bad f) ∧ ¬bad ⟨0, false, 16⟩ ∧
      (⟨65519, true, 0⟩ : FrameMarch).frame.toNat < 65520 ∧ 65520 ≤ (⟨65520, false, 17⟩ : FrameMarch).frame.toNat) ∧
    (starting 4).boot.cfg.warmSample = (starting 1).boot.cfg.warmSample ∧
    (∃ k : PortId, ((linked (starting 6)).port k).up = true) := by
  refine ⟨by decide +kernel, rfl, 0, by decide +kernel⟩

/-- The hypotheses of FlashQuotesAndEvents: a flash of 256 KiB, the last byte and the one past it, the sectors kept. -/
theorem test_flash_ready :
    (let s := starting 2 fun b => { b with flashOk := true, flashBytes := 0x40000 }
     s.boot.started = true ∧ 2 ≤ s.boot.stage ∧ s.regBit 0x600208 0 = false ∧ s.flashRefused 0 0x3FFFF 1 = false ∧
      s.flashRefused 0 0x3FFFF 2 = true ∧ s.flashRefused 1 0x20000 4096 = false ∧ s.flashRefused 1 0x1FFFF 1 = true ∧
      s.flashRefused 2 0x20000 1 = false) ∧
    (let s := { ready world with boot := { (ready world).boot with idOk := true } }
     s.boot.ready = true ∧ s.regBit 0x600148 1 = false ∧ s.boot.idOk = true ∧ s.quotePages 0 = true ∧ s.quotePages 0x200000 = false ∧
      world.boot.idOk = false ∧ s.tier.moves = [] ∧
      (match s.translate none 0 with
        | .ok pl => !(s.mu pl.unit).holds && (s.mu pl.unit).parked.isEmpty && (s.mu pl.unit).held.isEmpty
        | _ => false) = true) ∧
    world.evtSize = 16 ∧ world.regBit 0x708008 5 = false ∧ world.events.everEnabled = false ∧ bitOf (0x20 : Word) 5 = true := by
  decide +kernel

/-- The length of a quote: its body is 1,440 bytes, its signature at most 4,627. -/
theorem test_quote_fits (s : State) (n : Nat) (key : MlDsa.Key) (rnd m : Bytes) :
    0 + (s.quoteBody ++ (MlDsa.sign key rnd quoteContext m).getD ((List.range sigBytes).map (Config.noSignature n))).length ≤
      2 ^ 21 := by
  have h : ((MlDsa.sign key rnd quoteContext m).getD ((List.range sigBytes).map (Config.noSignature n))).length ≤ 4627 := by
    cases hs : MlDsa.sign key rnd quoteContext m with
    | none => simp [sigBytes]
    | some x => exact MlDsa.length_sign hs
  have hp : ∀ p : PartId, (s.quotePart p).length ≤ 72 := by
    intro p
    unfold State.quotePart
    split
    · simp [zeros_length]
    · simp only [List.length_append, length_leBytes, zeros_length, fitBytes, List.length_take]
      omega
  have hb : s.quoteBody.length ≤ 288 + 16 * 72 := by
    have := MlDsa.length_flatten_le 72 ((List.finRange 16).map s.quotePart) fun x hx => by
      obtain ⟨p, -, rfl⟩ := List.mem_map.mp hx
      exact hp p
    have hl : ((List.range 8).map fun i => wordBytes (s.reg (0x600100 + 8 * i))).flatten.length ≤ 8 * 8 := by
      have := MlDsa.length_flatten_le 8 ((List.range 8).map fun i => wordBytes (s.reg (0x600100 + 8 * i))) fun x hx => by
        obtain ⟨i, -, rfl⟩ := List.mem_map.mp hx
        exact Nat.le_of_eq (length_leBytes 8 _)
      simpa using this
    have hf : ∀ b : Bytes, (fitBytes 64 b).length ≤ 64 := fun b => List.length_take_le _ _
    have hc : (if s.boot.cfg.defaulted then (List.range 64).map Config.romDefaultDigest else fitBytes 64 s.boot.cfg.digest).length ≤ 64 := by
      split
      · simp
      · exact hf _
    have hd := hf s.boot.bootDigest
    simp only [State.quoteBody, wordBytes, List.length_append, length_leBytes, zeros_length, List.length_map, List.length_range]
      at this hl ⊢
    simp only [List.length_finRange] at this
    omega
  rw [List.length_append]
  omega

/-- The hypotheses of RegisterAccess and LowReadsLatchHighHalf: an access of a bad size and one that is not aligned, at the PF
and at a VF; a register that latches and one that does not, answered by the PF. -/
theorem test_low_read_ready :
    (let s := { ready world with host := { world.host with vfEnable := 1 } }
     s.fnOn 0 = true ∧ s.fnOn 1 = true ∧ (2 : Nat) ≠ 4 ∧ (2 : Nat) ≠ 8 ∧ 0x14 % 8 ≠ 0 ∧ 0x1FFF8 < 0x20000 ∧
      s.answers 0x708028 = true ∧ bar0Place 0 0x708028 = some 0x708028 ∧ isForward 0x708028 = false ∧
      s.latched 0 0x70802C = none) ∧
    (∃ fs, placeFields 0x708028 = some fs ∧ latches fs = true) ∧ (∃ fs, placeFields 0x10 = some fs ∧ latches fs = false) := by
  refine ⟨by decide +kernel, ⟨_, rfl, by decide +kernel⟩, _, rfl, by decide +kernel⟩

/-- The hypotheses of RegisterAccess: before S8 and after it, a register, a command, a reserved offset, a VF's place. -/
theorem test_register_ready :
    State.reset.answers 0 = false ∧ (ready world).answers 0 = true ∧ (starting 2).answers 0x1000 = true ∧
    isCommand 0x9000 = true ∧ regFields 0x18 = none ∧ isForward 0x308000 = true ∧ isForward 0x18 = false ∧
    world.fnOn 1 = false ∧
    (let s := { ready world with host := { world.host with vfEnable := 1 } }
     s.fnOn 1 = true ∧ bar0Place 1 0x10 = some 0x100010 ∧ (placeFields 0x100010).isSome ∧ s.answers 0x100010 = true ∧
      s.latched 1 0x14 = none) ∧
    (∃ fs, placeFields 0x708028 = some fs ∧ latches fs = true) := by
  refine ⟨by decide +kernel, by decide +kernel, by decide +kernel, by decide +kernel, by decide +kernel, by decide +kernel,
    by decide +kernel, by decide +kernel, by decide +kernel, _, rfl, by decide +kernel⟩

/-- The hypotheses of PinsAndBoundaryScan about the hottest die, a second of fabric time, SMBus and the power. -/
theorem test_pins_due :
    (let s := { starting 2 with board := { (starting 2).board with avsOn := true, smbusUp := true } }
     (BitVec.ofInt 16 s.hottest).toInt = s.hottest ∧ s.board.smbusUp = true ∧ s.pins.pwrGood = true) ∧
    (let s := { starting 2 with pins := { (starting 2).pins with fabNs := 1000000000 } }
     s.pins.fabNs / 1000000000 ≠ s.pins.ppsAt ∧ (starting 2).pins.fabNs / 1000000000 = (starting 2).pins.ppsAt) ∧
    State.reset.board.smbusUp = false ∧
    ({ State.reset with pins := { State.reset.pins with pwrGood := false } } : State).pins.pwrGood = false := by
  decide +kernel

/-- The hypotheses of PinsAndBoundaryScan. -/
theorem test_pins_ready :
    ((starting 1).boot.started = true ∧ 1 ≤ (starting 1).boot.stage) ∧ ¬(1 ≤ (starting 0).boot.stage) ∧
    ({ starting 2 with board := { (starting 2).board with avsOn := true } } : State).board.avsOn = true ∧
    (0x280 ≤ (0x280 : BitVec 16).toNat ∧ (0x348 : BitVec 16).toNat ≤ 0x348) ∧ (starting 1).board.unacked = false ∧
    (starting 1).pins.sysRstN = true ∧
    ({ starting 1 with pins := { (starting 1).pins with sysRstN := false } } : State).pins.sysRstN = false := by
  decide +kernel

/-- The hypotheses of StepKeepsCanon and StepKeepsBounded. -/
theorem test_reset_steps : State.reset.Canon ∧ ∃ t, step { State.reset with pending := [.nop 0] } = .next t := by
  refine ⟨by unfold State.Canon; decide +kernel, _, rfl⟩

theorem test_reset_bounded : ∀ p : PartId, (State.reset.drv p).faults.length ≤ 16 ∧ (State.reset.drv p).stack.length ≤ 16 ∧
    ∀ q, q < 9 → ((State.reset.drv p).queue q).length ≤ 32 := by
  decide +kernel

end Sys2Proof.Tests
end

