-- ==== Sys2Proof/Proofs/Fields.lean ====
section
/-! SUPPORT. Bit fields: what a field reads after a write of the same field and of another. -/

namespace Sys2Proof.Machine

theorem testBit_fld {n : Nat} (w : BitVec n) (hi lo j : Nat) :
    (fld w hi lo).testBit j = (decide (j < hi + 1 - lo) && w.getLsbD (lo + j)) := by
  rw [fld, Nat.testBit_mod_two_pow, Nat.testBit_shiftRight, BitVec.testBit_toNat]

/-- A bit of a word after a write of a field: of the value inside the field, else as before. -/
theorem getLsbD_setFld {n : Nat} (w : BitVec n) (hi lo v j : Nat) :
    (setFld w hi lo v).getLsbD j =
      if lo ≤ j ∧ j < hi + 1 then decide (j < n) && v.testBit (j - lo) else w.getLsbD j := by
  by_cases hn : j < n
  · rw [setFld, BitVec.getLsbD_or, BitVec.getLsbD_and, BitVec.getLsbD_not, BitVec.getLsbD_ofNat, BitVec.getLsbD_ofNat,
      Nat.testBit_shiftLeft, Nat.testBit_shiftLeft, Nat.testBit_two_pow_sub_one, Nat.testBit_mod_two_pow]
    by_cases h : lo ≤ j
    · by_cases h2 : j < hi + 1
      · rw [decide_eq_true (by omega : j - lo < hi + 1 - lo)]
        simp [hn, h, h2]
      · rw [decide_eq_false (by omega : ¬ j - lo < hi + 1 - lo)]
        simp [hn, h2]
    · simp [hn, h]
  · rw [BitVec.getLsbD_of_ge _ _ (by omega), BitVec.getLsbD_of_ge _ _ (by omega)]
    simp [hn]

/-- A field reads what was written to it. -/
theorem fld_setFld_same {n : Nat} (w : BitVec n) (hi lo v : Nat) (h : hi < n) :
    fld (setFld w hi lo v) hi lo = v % 2 ^ (hi + 1 - lo) := by
  apply Nat.eq_of_testBit_eq
  intro j
  rw [testBit_fld, getLsbD_setFld, Nat.testBit_mod_two_pow]
  by_cases hj : j < hi + 1 - lo
  · have h1 : lo ≤ lo + j ∧ lo + j < hi + 1 := by omega
    have h2 : lo + j < n := by omega
    simp [hj, h1, h2]
  · simp [hj]

/-- A field apart from one written stands. -/
theorem fld_setFld_apart {n : Nat} (w : BitVec n) (hi lo hi' lo' v : Nat) (h : hi < lo' ∨ hi' < lo) :
    fld (setFld w hi' lo' v) hi lo = fld w hi lo := by
  apply Nat.eq_of_testBit_eq
  intro j
  rw [testBit_fld, testBit_fld, getLsbD_setFld]
  by_cases hj : j < hi + 1 - lo
  · rw [if_neg (by omega)]
  · simp [hj]

/-- A bit apart from a field written stands. -/
theorem bitOf_setFld_apart {n : Nat} (w : BitVec n) (hi lo v i : Nat) (h : hi < i ∨ i < lo) :
    bitOf (setFld w hi lo v) i = bitOf w i := by
  rw [bitOf, bitOf, getLsbD_setFld, if_neg (by omega)]

/-- A one-bit field reads what was written to it. -/
theorem bitOf_setFld_same {n : Nat} (w : BitVec n) (i : Nat) (b : Bool) (h : i < n) :
    bitOf (setFld w i i (b2n b)) i = b := by
  rw [bitOf, getLsbD_setFld, if_pos (by omega)]
  cases b <;> simp [h, b2n]

/-- The low bits of a word below a field written stand. -/
theorem setWidth_setFld {n m : Nat} (w : BitVec n) (hi lo v : Nat) (h : m ≤ lo) :
    (setFld w hi lo v).setWidth m = w.setWidth m := by
  apply BitVec.eq_of_getLsbD_eq
  intro i hi'
  rw [BitVec.getLsbD_setWidth, BitVec.getLsbD_setWidth, getLsbD_setFld, if_neg (by omega)]

end Sys2Proof.Machine
end

