-- ==== Sys2Proof/Proofs/Sending.lean ====
section
/-! SUPPORT. Frames as they are built, and what sending them changes: a CONTROL frame fits the room that `Room` asks for,
and is one more in the replay buffer or in the queue before it. -/

namespace Sys2Proof.Machine

/-! ## Header fields of a frame being built (Table 11.2) -/

theorem fld_ofNat (x hi lo : Nat) : fld (BitVec.ofNat 64 x) hi lo = x % 2 ^ 64 / 2 ^ lo % 2 ^ (hi + 1 - lo) := by
  rw [fld, BitVec.toNat_ofNat, Nat.shiftRight_eq_div_pow]

/-- The word of a header that names type, path, nodes, unit and lengths. -/
theorem NewFrame.w2_build (n : NewFrame) (m : Option Manifest) (b : Body) :
    (n.build m b).hdr.w2 = BitVec.ofNat 64 (n.len % 2 ^ 13 + n.lines % 128 * 2 ^ 22 + n.unit % 32 * 2 ^ 29 +
      n.src.val * 2 ^ 34 + n.dst.val * 2 ^ 44 + n.cls % 8 * 2 ^ 57 + n.type % 16 * 2 ^ 60) := rfl

@[simp] theorem NewFrame.hType_build (n : NewFrame) (m : Option Manifest) (b : Body) :
    hType (n.build m b) = n.type % 16 := by
  rw [hType, NewFrame.w2_build, fld_ofNat]
  have := n.src.isLt
  have := n.dst.isLt
  omega

@[simp] theorem NewFrame.hUnit_build (n : NewFrame) (m : Option Manifest) (b : Body) :
    hUnit (n.build m b) = n.unit % 32 := by
  rw [hUnit, NewFrame.w2_build, fld_ofNat]
  have := n.src.isLt
  have := n.dst.isLt
  omega

@[simp] theorem NewFrame.hDst_build (n : NewFrame) (m : Option Manifest) (b : Body) :
    hDst (n.build m b) = n.dst := by
  rw [hDst, NewFrame.w2_build, fld_ofNat, nodeOf]
  have := n.src.isLt
  have := n.dst.isLt
  apply Fin.ext
  rw [Fin.val_ofNat]
  omega

@[simp] theorem NewFrame.hLen_build (n : NewFrame) (m : Option Manifest) (b : Body) :
    hLen (n.build m b) = n.len % 2 ^ 13 := by
  rw [hLen, NewFrame.w2_build, fld_ofNat]
  have := n.src.isLt
  have := n.dst.isLt
  omega

@[simp] theorem NewFrame.body_build (n : NewFrame) (m : Option Manifest) (b : Body) : (n.build m b).body = b := rfl

@[simp] theorem NewFrame.mft_build (n : NewFrame) (m : Option Manifest) (b : Body) : (n.build m b).mft = m := rfl

@[simp] theorem NewFrame.tag_build (n : NewFrame) (m : Option Manifest) (b : Body) : (n.build m b).hdr.tag = n.tag := rfl

/-! ## CONTROL frames -/

/-- A frame of the control class: no WRITE, and of at most 4,096 bytes beyond its header and manifest. -/
structure IsCtl (f : Frame) (unit : Nat) (dst : NodeId) (c : Ctl) : Prop where
  type : hType f = Ft.control
  unit : hUnit f = unit
  dst : hDst f = dst
  body : f.body = .ctl c
  len : hLen f ≤ 4096

theorem ctlLen_lt (c : Ctl) : ctlLen c < 4097 := by
  unfold ctlLen
  split
  · omega
  · exact Nat.mod_lt _ (by omega)
  · exact Nat.mod_lt _ (by omega)

/-- A CONTROL frame of a unit of this node, with or without a manifest. -/
theorem State.isCtl_ctlFrame (s : State) (unit : Nat) (dst : NodeId) (t : Tag) (c : Ctl) (m : Option Manifest)
    (h : unit < 32) : IsCtl { s.ctlFrame unit dst t c with mft := m } unit dst c where
  type := by
    show hType (s.ctlFrame unit dst t c) = 4
    rw [State.ctlFrame, NewFrame.hType_build]
    rfl
  unit := by
    show hUnit (s.ctlFrame unit dst t c) = unit
    rw [State.ctlFrame, NewFrame.hUnit_build]
    exact Nat.mod_eq_of_lt h
  dst := by
    show hDst (s.ctlFrame unit dst t c) = dst
    rw [State.ctlFrame, NewFrame.hDst_build]
  body := rfl
  len := by
    show hLen (s.ctlFrame unit dst t c) ≤ 4096
    rw [State.ctlFrame, NewFrame.hLen_build]
    have := ctlLen_lt c
    dsimp only
    omega

theorem IsCtl.frameBytes_le {f : Frame} {unit : Nat} {dst : NodeId} {c : Ctl} (h : IsCtl f unit dst c) :
    frameBytes f ≤ 4224 := by
  have := h.len
  unfold frameBytes
  split <;> omega

/-- A CONTROL frame of a unit other than the combiner's may be kept where there is room for it. -/
theorem State.mayKeep_of_room {s : State} {f : Frame} {unit : Nat} {dst : NodeId} {c : Ctl} (hf : IsCtl f unit dst c)
    (hu : unit ≠ unitComb) (h : s.Room unit dst) : s.mayKeep f = true := by
  obtain ⟨hq, hn, hk⟩ := h
  have hb := hf.frameBytes_le
  unfold State.mayKeep State.replayRoom
  rw [hf.unit, hf.dst, if_neg hu]
  simp only [Bool.and_eq_true, decide_eq_true_eq, List.all_eq_true]
  exact ⟨⟨by omega, by omega⟩, hq⟩

/-! ## What sending changes -/

/-- The counters that sending a frame other than a WRITE may advance: re-sends, drops, and the bytes charged to a share
class (R62, R285, R293). -/
def sendReg (o : Nat) : Prop := o = 0x301040 ∨ o = 0x301078 ∨ 0x701000 ≤ o ∧ o < 0x702000

/-- Frames other than WRITE frames have been sent, or wait for room: the newest in the replay buffers and in the queue
before them, those before as they were. -/
structure State.Sends (s t : State) : Prop where
  only : s.OnlySends t
  fab : t.fab = { s.fab with
    seqs := t.fab.seqs, sent := t.fab.sent, marks := t.fab.marks, inj := t.fab.inj, backlog := t.fab.backlog }
  sent : s.fab.sent <+: t.fab.sent
  backlog : s.fab.backlog <+: t.fab.backlog
  regs : ∀ o, ¬ sendReg o → t.reg o = s.reg o

theorem State.Sends.refl (s : State) : s.Sends s := ⟨.refl s, rfl, List.prefix_rfl, List.prefix_rfl, fun _ _ => rfl⟩

theorem State.Sends.trans {s t u : State} (h1 : s.Sends t) (h2 : t.Sends u) : s.Sends u where
  only := h1.only.trans h2.only
  fab := by rw [h2.fab, h1.fab]
  sent := h1.sent.trans h2.sent
  backlog := h1.backlog.trans h2.backlog
  regs o ho := (h2.regs o ho).trans (h1.regs o ho)

section
variable {s t : State} (h : s.Sends t)
include h

theorem State.Sends.parts : t.parts = s.parts := by rw [h.only]
theorem State.Sends.part (p : PartId) : t.part p = s.part p := congrArg (fun v : Vector Part 16 => v[p]) h.parts
theorem State.Sends.mem : t.mem = s.mem := by rw [h.only]
theorem State.Sends.mgr : t.mgr = s.mgr := by rw [h.only]
theorem State.Sends.host : t.host = s.host := by rw [h.only]
theorem State.Sends.boot : t.boot = s.boot := by rw [h.only]
theorem State.Sends.events : t.events = s.events := by rw [h.only]
theorem State.Sends.saves : t.saves = s.saves := by rw [h.only]
theorem State.Sends.parked : t.parked = s.parked := by rw [h.only]
theorem State.Sends.pools : t.pools = s.pools := by rw [h.only]
theorem State.Sends.comb : t.fab.comb = s.fab.comb := by rw [h.fab]
theorem State.Sends.node : t.fab.node = s.fab.node := by rw [h.fab]

end

theorem State.sends_addReg (s : State) {o : Nat} (n : Nat) (h : sendReg o) : s.Sends (s.addReg o n) where
  only := State.OnlySends.addReg (.refl s) ..
  fab := rfl
  sent := List.prefix_rfl
  backlog := List.prefix_rfl
  regs o' ho := by
    rw [State.reg_addReg, if_neg]
    rintro rfl
    exact ho h

theorem State.sends_setPort (s : State) (k : PortId) (x : Port) : s.Sends (s.setPort k x) :=
  ⟨State.OnlySends.setPort (.refl s) .., rfl, List.prefix_rfl, List.prefix_rfl, fun _ _ => rfl⟩

theorem State.sends_markPath (s : State) (d : NodeId) (p : Nat) : s.Sends (s.markPath d p) := by
  unfold State.markPath
  split
  · exact .refl s
  · exact ⟨rfl, rfl, List.prefix_rfl, List.prefix_rfl, fun _ _ => rfl⟩

theorem State.sends_inject (s : State) (k : PortId) (j : Option Nat) (f : Frame) : s.Sends (s.inject k j f) := by
  unfold State.inject
  split
  · exact s.sends_setPort ..
  · split
    · exact s.sends_setPort ..
    · dsimp only
      split <;> exact ⟨rfl, rfl, List.prefix_rfl, List.prefix_rfl, fun _ _ => rfl⟩

theorem State.sends_emit {s t : State} {f : Frame} {j : Option Nat} (h : s.emit f j = some t) : s.Sends t := by
  unfold State.emit at h
  dsimp only at h
  split at h
  · cases h; exact s.sends_setPort ..
  · split at h
    · cases h; exact s.sends_inject ..
    · cases h

theorem State.sends_transmit (n : Nat) : ∀ (s : State) (x : Sent), s.Sends (s.transmit n x).1 := by
  induction n with
  | zero => exact fun s _ => .refl s
  | succ n ih =>
    intro s x
    unfold State.transmit
    dsimp only
    split
    · exact .refl s
    · have h0 : s.Sends (if x.path.isSome then s.addReg 0x301040 1 else s) := by
        split
        · exact s.sends_addReg 1 (.inl rfl)
        · exact .refl s
      revert h0
      generalize (if x.path.isSome then s.addReg 0x301040 1 else s) = t
      intro h0
      split
      · next u hu => exact h0.trans (State.sends_emit hu)
      · generalize pickPath x _ = p
        have h1 : s.Sends ((t.addReg 0x301078 1).markPath x.dst p) :=
          (h0.trans (t.sends_addReg 1 (.inr (.inl rfl)))).trans (State.sends_markPath ..)
        split
        · exact h1
        · exact h1.trans (ih _ _)

theorem State.sends_keepAndSend (s : State) (x : Sent) : s.Sends (s.keepAndSend x) := by
  unfold State.keepAndSend
  dsimp only
  split
  · exact ⟨rfl, rfl, List.prefix_append .., List.prefix_rfl, fun _ _ => rfl⟩
  · exact (s.sends_transmit 8 x).trans ⟨rfl, rfl, List.prefix_append .., List.prefix_rfl, fun _ _ => rfl⟩

theorem State.sends_chargeSend (s : State) (f : Frame) (h : hType f ≠ 0) : s.Sends (s.chargeSend f) := by
  unfold State.chargeSend
  dsimp only
  rw [if_neg h]
  split
  · exact .refl s
  · refine s.sends_addReg _ (.inr (.inr ?_))
    have : tagShare f.hdr.tag < 32 := Nat.mod_lt _ (by decide)
    omega

/-- Sending a frame that is no WRITE. -/
theorem State.sends_sendSeq (s : State) (f : Frame) (o : Option (PartId × Nat × Nat)) (pl : Nat) (h : hType f ≠ 0) :
    s.Sends (s.sendSeq f o pl) := by
  unfold State.sendSeq
  dsimp only
  split
  · unfold State.sendNow
    have h0 : ∀ g : Fab → Tab Nat, s.Sends (s.modFab fun b => { b with seqs := g b }) := fun g =>
      ⟨rfl, rfl, List.prefix_rfl, List.prefix_rfl, fun _ _ => rfl⟩
    exact ((h0 _).trans (State.sends_chargeSend _ f h)).trans (State.sends_keepAndSend _ _)
  · exact ⟨rfl, rfl, List.prefix_rfl, List.prefix_append .., fun _ _ => rfl⟩

theorem IsCtl.type_ne {f : Frame} {unit : Nat} {dst : NodeId} {c : Ctl} (h : IsCtl f unit dst c) : hType f ≠ 0 := by
  rw [h.type]
  decide

theorem State.hType_ctlFrame (s : State) (unit : Nat) (dst : NodeId) (t : Tag) (c : Ctl) :
    hType (s.ctlFrame unit dst t c) = 4 := by
  rw [State.ctlFrame, NewFrame.hType_build]
  rfl

/-- A CONTROL frame is sent. -/
theorem State.sends_sendCtlFrame (s u : State) (unit : Nat) (dst : NodeId) (t : Tag) (c : Ctl) (m : Option Manifest) :
    s.Sends (s.sendSeq { u.ctlFrame unit dst t c with mft := m }) := by
  refine s.sends_sendSeq _ _ _ ?_
  show hType (u.ctlFrame unit dst t c) ≠ 0
  rw [State.hType_ctlFrame]
  decide

/-- The route keeper sends. -/
theorem State.sends_sendCtl (s : State) (dst : NodeId) (c : Ctl) (t : Tag) : s.Sends (s.sendCtl dst c t) :=
  s.sends_sendCtlFrame s unitRk dst t c none

/-- A partition sends to the manager. -/
theorem State.sends_sendMgr (s : State) (p : PartId) (t : Tag) (c : Ctl) (m : Option Manifest) :
    s.Sends (s.sendMgr p t c m) := by
  unfold State.sendMgr
  split
  · exact .refl s
  · exact s.sends_sendCtlFrame s p.val _ t c m

theorem State.sends_foldl {α : Type} (f : State → α → State) (hf : ∀ (s : State) a, s.Sends (f s a)) (l : List α) :
    ∀ s : State, s.Sends (l.foldl f s) := by
  induction l with
  | nil => exact .refl
  | cons a r ih => exact fun s => (hf s a).trans (ih _)

/-! ## Messages sent -/

/-- A CONTROL frame that finds room has been sent. -/
theorem State.sentCtl_sendSeq {s : State} {f : Frame} {unit : Nat} {dst : NodeId} {c : Ctl} (hf : IsCtl f unit dst c)
    (hu : unit ≠ unitComb) (h : s.Room unit dst) : s.SentCtl (s.sendSeq f) dst c := by
  obtain ⟨-, hsent⟩ := s.sendSeq_spec f none 0 hf.type_ne (State.mayKeep_of_room hf hu h)
  rw [hf.dst] at hsent
  obtain ⟨x, h1, h2, h3, h4⟩ := hsent
  exact ⟨x, h1, h2, h3, by rw [h4]; exact hf.body⟩

/-- What the route keeper sends has been sent where there is room. -/
theorem State.sentCtl_sendCtl {s : State} {dst : NodeId} (c : Ctl) (t : Tag) (h : s.Room unitRk dst) :
    s.SentCtl (s.sendCtl dst c t) dst c :=
  State.sentCtl_sendSeq (s.isCtl_ctlFrame unitRk dst t c none (by decide)) (by decide) h

/-- A CONTROL frame is on its way once it is sent, or waits for room. -/
theorem State.posted_sendSeq (s : State) {f : Frame} {unit : Nat} {dst : NodeId} {c : Ctl} (hf : IsCtl f unit dst c) :
    (s.sendSeq f).Posted dst c := by
  by_cases hk : s.mayKeep f = true
  · obtain ⟨-, x, h1, h2, -, h4⟩ := s.sendSeq_spec f none 0 hf.type_ne hk
    refine .inl ⟨x, ?_, h2.trans hf.dst, ?_⟩
    · rw [h1]
      exact List.mem_append_right _ (List.mem_singleton_self x)
    · rw [h4]
      exact hf.body
  · unfold State.sendSeq
    dsimp only
    rw [if_neg hk]
    exact .inr ⟨_, List.mem_append_right _ (List.mem_singleton_self _), hf.dst, hf.body⟩

theorem State.posted_sendCtl (s : State) (dst : NodeId) (c : Ctl) (t : Tag) : (s.sendCtl dst c t).Posted dst c :=
  s.posted_sendSeq (s.isCtl_ctlFrame unitRk dst t c none (by decide))

theorem State.posted_sendMgr {s : State} {n : NodeId} (h : s.mgrNode = some n) (p : PartId) (t : Tag) (c : Ctl)
    (m : Option Manifest) : (s.sendMgr p t c m).Posted n c := by
  unfold State.sendMgr
  rw [h]
  exact s.posted_sendSeq (s.isCtl_ctlFrame p.val n t c m (by omega))

/-- A message on its way stays so while other frames are sent. -/
theorem State.Posted.mono {s t : State} {dst : NodeId} {c : Ctl} (h : s.Posted dst c)
    (h1 : s.fab.sent <+: t.fab.sent) (h2 : s.fab.backlog <+: t.fab.backlog) : t.Posted dst c := by
  rcases h with ⟨x, hx, h⟩ | ⟨y, hy, h⟩
  · exact .inl ⟨x, h1.subset hx, h⟩
  · exact .inr ⟨y, h2.subset hy, h⟩

theorem State.Posted.sends {s t : State} {dst : NodeId} {c : Ctl} (h : s.Posted dst c) (h1 : s.Sends t) :
    t.Posted dst c := h.mono h1.sent h1.backlog

theorem State.Posted.congr {s t : State} {dst : NodeId} {c : Ctl} (h : s.Posted dst c) (h1 : t.fab = s.fab) :
    t.Posted dst c := by
  unfold State.Posted
  rw [h1]
  exact h

end Sys2Proof.Machine
end

