-- ==== Sys2Proof/Proofs/Slots.lean ====
section
/-! SUPPORT. What the manifest table, the slots and the convoy rows of a partition read after a write of a slot's marks or
of a register. -/

namespace Sys2Proof.Machine

/-! ## After a write of a slot's marks -/

section
variable (s : State) (p : PartId) (k : Nat) (x : Slot)

theorem State.part_setSlot (p' : PartId) : (s.setSlot p k x).part p' =
    if p' = p then { s.part p with slots := tabSet (fun _ => {}) (s.part p).slots k x } else s.part p' :=
  State.part_modPart ..

@[simp] theorem State.hsram_setSlot (p' : PartId) : ((s.setSlot p k x).part p').hsram = (s.part p').hsram := by
  rw [State.part_setSlot]
  split
  · next h => rw [h]
  · rfl

@[simp] theorem State.hsRead_setSlot (p' : PartId) (a n : Nat) :
    (s.setSlot p k x).hsRead p' a n = s.hsRead p' a n := by
  rw [State.hsRead, State.hsRead, State.hsram_setSlot]

@[simp] theorem State.manifest_setSlot (p' : PartId) (k' : Nat) :
    (s.setSlot p k x).manifest p' k' = s.manifest p' k' :=
  congrArg manifestOf (s.hsRead_setSlot ..)

@[simp] theorem State.cvWord_setSlot (p' : PartId) (r : Nat) : (s.setSlot p k x).cvWord p' r = s.cvWord p' r :=
  congrArg wordOf (s.hsRead_setSlot ..)

@[simp] theorem State.cvSlot_setSlot (p' : PartId) (r : Nat) : (s.setSlot p k x).cvSlot p' r = s.cvSlot p' r :=
  congrArg (fun b => fld (wordOf b) 9 0) (s.hsRead_setSlot ..)

@[simp] theorem State.convoyRowOf_setSlot (p' : PartId) (k' : Nat) :
    (s.setSlot p k x).convoyRowOf p' k' = s.convoyRowOf p' k' := by
  have hcap : ∀ n, (s.setSlot p k x).cvCap p' n = s.cvCap p' n := fun _ => rfl
  have hfirst : ∀ n, (s.setSlot p k x).cvFirst p' n = s.cvFirst p' n := fun _ => rfl
  simp only [State.convoyRowOf, hcap, hfirst, State.cvWord_setSlot, State.cvSlot_setSlot]

@[simp] theorem State.cancelWaits_setSlot (p' : PartId) (k' : Nat) :
    (s.setSlot p k x).cancelWaits p' k' = s.cancelWaits p' k' := by
  simp only [State.cancelWaits, State.manifest_setSlot, State.convoyRowOf_setSlot]

end

/-! ## After frames have been sent -/

/-- The registers of a partition are none that a send advances. -/
theorem not_sendReg_ptBase (p : PartId) {o : Nat} (h : o < 0x10000) : ¬ sendReg (ptBase p + o) := by
  have := p.isLt
  unfold sendReg ptBase
  omega

theorem State.Sends.regPart {s t : State} (h : s.Sends t) (p : PartId) {o : Nat} (ho : o < 0x10000) :
    t.reg (ptBase p + o) = s.reg (ptBase p + o) := h.regs _ (not_sendReg_ptBase p ho)

theorem State.Sends.manifest {s t : State} (h : s.Sends t) (p : PartId) (k : Nat) :
    t.manifest p k = s.manifest p k := by
  rw [State.manifest, State.manifest, State.hsRead, State.hsRead, h.part, State.mftBase, State.mftBase, State.regFld,
    State.regFld, h.regPart p (by decide)]

theorem State.Sends.slot {s t : State} (h : s.Sends t) (p : PartId) (k : Nat) : t.slot p k = s.slot p k := by
  rw [State.slot, State.slot, h.part]

theorem State.Sends.drv {s t : State} (h : s.Sends t) (p : PartId) : t.drv p = s.drv p := by
  rw [State.drv, State.drv, h.part]

theorem State.Sends.mgrNode {s t : State} (h : s.Sends t) : t.mgrNode = s.mgrNode := by
  rw [State.mgrNode, State.mgrNode, State.book, State.book, h.mgr]

end Sys2Proof.Machine
end

