-- ==== Sys2Proof/Proofs/FabricRefuted.lean ====
section
/-! REFUTED. The FAB opcodes (O21): a FAB_RD that counts frames as sent already. -/

namespace Sys2Proof.Machine

/-- A FAB_RD of 64 bytes at fabric address 0 that runs at the head of queue 5 and counts one frame as sent already. -/
def countedRead : QEntry where
  uid := 0
  insn := BitVec.ofNat 128 (0x71 * 2 ^ 120)
  pc := 0
  pkt := none
  tag := 1024
  waitOn := none
  da := BitVec.ofNat 256 (1 * 2 ^ 104 + 64 * 2 ^ 80 + 3 * 2 ^ 52)
  db := 0
  dc := 0
  sa := 0
  sb := 0
  sc := 0
  wb := none
  wbVal := 0
  wbOk := false
  phase := .running
  faultPost := false
  committed := false
  cost := 0
  members := []
  bales := []
  lines := []
  owed := 0
  sentN := 1
  waitFrom := none

/-- The reset state with that FAB_RD queued on partition 0: no translation window is open. -/
def countedReadState : State :=
  State.reset.modDrv 0 fun d => d.setQueue 5 [countedRead]

/-- The state after the command. -/
def countedReadNext : State :=
  countedReadState.engineRow 0 0x71 .run fun q e s => s.fabRd 0 q e

/-- `fabCheck` looks only at the frames still to be sent, and there are none; then the window check of the run refuses
its line, and the instruction faults: it does not wait. -/
theorem phase_countedReadNext : (countedReadNext.head 0 5).map (·.phase) = some .done := by decide +kernel

/-- Refutes O21: the clause of FAB_RD leaves the count of frames already sent open, and `fabCheck` skips that many frames.
A FAB_RD whose count is 1 passes it where no window is open, and then faults on its first line. -/
theorem not_fabricOpcodesSend : ¬ Obligations.FabricOpcodesSend := by
  unfold Obligations.FabricOpcodesSend
  intro h
  obtain ⟨-, -, hread, -⟩ := h countedReadState 0 5 countedRead
  obtain ⟨t, hexec, ⟨x, hhead, -, hphase⟩, -⟩ := hread (by decide +kernel) rfl rfl (by decide +kernel) (by decide +kernel)
    (by decide +kernel) (by decide +kernel) (by decide +kernel) (by intro y hy; cases hy)
  have ht : t = countedReadNext := (Host.Outcome.next.inj hexec).symm
  have hdone := phase_countedReadNext
  rw [← ht, hhead, Option.map_some, hphase] at hdone
  cases hdone

end Sys2Proof.Machine
end

