-- ==== Sys2Proof/Proofs/AnswersRefuted.lean ====
section
/-! REFUTED. Answers to a caravan (O39): an append of the combiner's unit that finds no room. -/

namespace Sys2Proof.Machine

/-- A read of the combiner to node 1. -/
def combinedRead : Comb where
  dst := 1
  addr := 0
  lines := 1
  waiters := []
  seq := 0
  sends := 1
  path := some 0
  cls := 0
  held := false

/-- An append to the log of request 5, from the combiner's source unit. -/
def combinerAppend : Frame :=
  NewFrame.build { tag := ctlTagOf 5, type := Ft.control, cls := 0, dst := 0, src := 0, unit := unitComb } none
    (.ctl (.logAppend 5 0 []))

/-- A book whose manager is node 1. -/
def bookOfNodeOne : Book where
  epoch := 1
  mgr := 1
  stby := none
  issuedNs := 0
  bytes := 0
  digest := 0
  nodes := []
  pools := []
  sets := []
  tclasses := []
  ranges := []

/-- The reset state with that append not acknowledged, and 4,096 reads of the combiner not acknowledged by node 1. -/
def fullCombinerState : State :=
  { State.reset with
    mgr := { Mgr.reset with cur := some bookOfNodeOne, unacked := [combinerAppend] }
    fab := { Fab.reset with comb := List.replicate 4096 combinedRead } }

/-- The append waits for room: the reads of the combiner count as unacknowledged frames of its unit. -/
theorem sent_ownerResend_fullCombinerState : (fullCombinerState.ownerResend 5).fab.sent = [] := by decide +kernel

/-- Refutes O39: in the clause of OWNER_RESEND the unit of the append is open, and `Room` does not count the reads of the
combiner. With 4,096 of them to the manager, an append of the combiner's unit waits for room and is not sent. -/
theorem not_caravanAnswersAndRefusals : ¬ Obligations.CaravanAnswersAndRefusals := by
  unfold Obligations.CaravanAnswersAndRefusals
  intro h
  obtain ⟨_, hmgr⟩ := h
  obtain ⟨-, -, -, hresend, -⟩ := hmgr fullCombinerState 5
  obtain ⟨t, hexec, -, x, hsent, -⟩ := hresend 1 combinerAppend 0 [] rfl rfl rfl
    ⟨(by intro y hy; cases hy), by decide +kernel, by decide +kernel⟩
  have ht : t = fullCombinerState.ownerResend 5 := (Host.Outcome.next.inj hexec).symm
  rw [ht, sent_ownerResend_fullCombinerState] at hsent
  cases hsent

end Sys2Proof.Machine
end

