-- ==== Sys2Proof/Proofs/FrameZeroRefuted.lean ====
section
/-! REFUTED. Frame 0 of a caravan (O40): the read of a sampler record that lets a waiting write through. -/

namespace Sys2Proof.Machine

/-! ## Frame 0 of a caravan in ADMIT -/

/-- A read of pool slots takes none of them from memory. -/
theorem State.mem_takeSlots (j n : Nat) : ∀ s : State, (State.takeSlots j n s).2.mem = s.mem := by
  induction n with
  | zero => exact fun _ => rfl
  | succ n ih =>
    intro s
    unfold State.takeSlots
    split
    · rfl
    · exact ih _

/-- An acceptance takes pool slots and sends a frame: the memories stand. -/
theorem State.mem_acceptCaravan (s : State) (p : PartId) (i : Incoming) : (s.acceptCaravan p i).mem = s.mem := by
  unfold State.acceptCaravan
  extract_lets j lead n
  have hslots := State.mem_takeSlots j n s
  clear_value n
  generalize State.takeSlots j n s = r at hslots ⊢
  obtain ⟨ks, u⟩ := r
  dsimp only at hslots ⊢
  rw [(State.sends_sendSeq _ _ none 0 (by rw [State.hType_ctlFrame]; decide)).mem]
  exact hslots

/-- A caravan that brings no page fits where a page fills a slot and the log its capacity. -/
theorem State.roomFor_of_noPages {s : State} {p : PartId} {i : Incoming} {j : Nat} (hj : s.jobOf p = some j)
    (hpark : i.park = false) (hn : s.pagesNeeded p i.mft i.sampler = 0)
    (hlog : mNextPos i.mft ≤ srLogCap i.sampler) (hpage : (s.geom p).pageSize (s.geom p).kvFmt = s.slotBytes j) :
    s.roomFor p i = true := by
  unfold State.roomFor
  rw [hj]
  simp [hn, hlog, hpark, hpage]

theorem State.pagesNeeded_admit (s : State) (p : PartId) {m : Manifest} (sr : Bytes) (h : mPhase m = Ph.atAdmit) :
    s.pagesNeeded p m sr = 0 := by
  simp [State.pagesNeeded, kvPositions, h, ceilDiv]

/-- What a receiver makes of frame 0 of a caravan that takes a slot. -/
def admitBegun (f : Frame) (m : Manifest) (k : Nat) : Incoming where
  src := hSrc f
  unit := hUnit f
  slot := k
  park := decide (mPhase m = Ph.park)
  mft := m
  sampler := if mPhase m = Ph.atAdmit then [] else fitBytes 128 (bodyBytes f.body)
  accepted := false
  frame0 := f
  lines := []
  owed := 0
  got := []
  forms := []
  last := if tagLast f.hdr.tag then some 0 else none
  pages := []

/-- The partition that has begun to receive it. -/
def State.beginsAdmit (s : State) (f : Frame) (p : PartId) (i : Incoming) : State :=
  (s.modFab fun b => { b with dropped := b.dropped.erase (abortKey (hSrc f) f.hdr.tag) }).modPart p fun x =>
    { x with incoming := x.incoming ++ [i] }

/-- A frame 0 at ADMIT that nothing refuses is received. -/
theorem State.rxFrame0_admit {s : State} {f : Frame} {m : Manifest} {p : PartId} {k : Nat}
    (hcontent : tagContent f.hdr.tag < 9) (hm : f.mft = some m)
    (habort : s.fab.aborted.contains (abortKey (hSrc f) f.hdr.tag) = false)
    (hnew : s.incomingOf (hSrc f) (mReqId m) = none) (htarget : s.targetPart f m = some p) (hcrc : mCrcOk m = true)
    (hst : (s.part p).st = .serving) (hrole : (s.part p).role ≠ .unset) (hjob : s.servesJobOf p m = true)
    (hepoch : s.epochKind (mEpoch m) = 0) (hfault : s.frame0Fault p f m = none) (hphase : mPhase m = Ph.atAdmit)
    (hk : s.freeSlot p = some k) :
    s.rxFrame0 f = (s.beginsAdmit f p (admitBegun f m k)).rxContinue p (admitBegun f m k) := by
  unfold State.rxFrame0
  rw [if_neg (by omega), hm]
  simp only [habort, hnew, Bool.false_eq_true, if_false]
  set u := s.modFab _ with hu
  have h1 : u.targetPart f m = some p := htarget
  have h2 : u.servesJobOf p m = true := hjob
  have h3 : u.epochKind (mEpoch m) = 0 := hepoch
  have h4 : u.frame0Fault p f m = none := hfault
  have h5 : u.freeSlot p = some k := hk
  have h6 : (u.part p).st = .serving := hst
  have h7 : (u.part p).role ≠ .unset := hrole
  have hpark : ¬ mPhase m = Ph.park := by rw [hphase]; decide
  simp only [h1, h2, h3, h4, h6, h7, hcrc, reduceCtorEq, ne_eq, not_true_eq_false, or_self, if_false]
  rw [if_neg (by rwa [decide_eq_true_eq]), h5]
  rfl

/-- A receiver that has read the sampler record of a caravan at ADMIT, and finds it and its room good, accepts it. -/
theorem State.rxContinue_admit {s u : State} {p : PartId} {i : Incoming} {sr : Bytes}
    (hphase : mPhase i.mft = Ph.atAdmit) (hshared : mFlag i.mft flSharedPrefix = false)
    (hread : s.gather p i.lines (mSrAddr i.mft) 128 = (.bytes sr, u)) (hcrc : srCrcOk sr = true)
    (hrange : srInRange sr = true) (hgram : u.grammarInRange p i.mft sr = true) (hprefix : srPrefixPt sr = 0)
    (hroom : (u.setIncoming p i { i with sampler := sr }).roomFor p { i with sampler := sr } = true) :
    s.rxContinue p i = (u.setIncoming p i { i with sampler := sr }).acceptCaravan p { i with sampler := sr } := by
  unfold State.rxContinue
  simp [hphase, hshared, hread, hcrc, hrange, hgram, hprefix, hroom]

/-! ## A frame 0 whose record lies behind a parked write -/

/-- A book of epoch 1. -/
def bookOfEpochOne : Book where
  epoch := 1
  mgr := 0
  stby := none
  issuedNs := 0
  bytes := 0
  digest := 0
  nodes := []
  pools := []
  sets := []
  tclasses := []
  ranges := []

/-- Near memory whose first 128 bytes are a sampler record with every value in range. -/
def recordMemory : Tab Byte :=
  [(6, 0x80), (7, 0x3F), (14, 0x80), (15, 0x3F), (26, 1), (28, 0xFF), (29, 0xFF), (60, 1), (124, 0x89), (125, 0x25),
    (126, 0xC6), (127, 0xB1)]

/-- That record. -/
@[irreducible] def plainRecord : Bytes := memRead recordMemory 0 128

/-- A request of tenant 0 at ADMIT with one position, its sampler record at address 0 of node 0. -/
@[irreducible] def admittedManifest : Manifest :=
  mSeal { w0 := 5, w1 := BitVec.ofNat 64 (1 * 2 ^ 56 + 2 * 2 ^ 26 + 1), w2 := 0, w3 := BitVec.ofNat 64 (1 * 2 ^ 24 + 1)
          w4 := 0, w5 := 0, w6 := 0, w7 := 0 }

/-- Its frame 0, for partition 0 of node 0. -/
@[irreducible] def admittedFrame : Frame :=
  NewFrame.build { tag := tagOfManifest admittedManifest Ct.manifest 0 false true, type := Ft.write, cls := 0, dst := 0
                   src := 0, unit := 1, placed := true } (some admittedManifest) (.bytes [])

/-- A write of one byte that waits at an MU. -/
def waitingWrite : ParkEntry where
  acc := .write 4096 [1]
  arrived := 0
  entered := none
  who := none
  fn := none

/-- Partition 0 serves job `j` in role PROMPT; the record lies at the start of near memory, whose MU 0 is in processor mode
with no instruction running, and one write waits there. -/
@[irreducible] def parkedWriteState (j : JobId) : State :=
  { State.reset with
    bar0 := tabSet regReset [] (ptBase 0 + 0x4000) 0
    parts := State.reset.parts.set 0 { Part.reset with st := .serving, curJob := some j, role := .prompt }
    mem := { State.reset.mem with near := recordMemory }
    spt := [(0, BitVec.ofNat 64 (2 ^ 63 + j.val * 2 ^ 48))]
    mus := State.reset.mus.set 0 { Mu.reset with proc := true, parked := [waitingWrite] }
    mgr := { Mgr.reset with cur := some bookOfEpochOne } }

/-- The state in which the receiver reads the record. -/
abbrev parkedWriteBegun (j : JobId) : State :=
  (parkedWriteState j).beginsAdmit admittedFrame 0 (admitBegun admittedFrame admittedManifest 0)

/-- The CRC of the record, taken in two halves. -/
theorem crc_plainRecord_first : (plainRecord.take 62).foldl crcByte 0xFFFFFFFF#32 = 0xfc3dfb6f#32 := by decide +kernel

theorem crc_plainRecord_second : ((plainRecord.drop 62).take 62).foldl crcByte 0xfc3dfb6f#32 = 0x4e39da76#32 := by
  decide +kernel

theorem srCrcOk_plainRecord : srCrcOk plainRecord = true := by
  have hcut : plainRecord.take 124 = plainRecord.take 62 ++ (plainRecord.drop 62).take 62 := List.take_add (i := 62) (j := 62)
  have hcrc : crc32c (plainRecord.take 124) = 0x4e39da76#32 ^^^ 0xFFFFFFFF#32 := by
    rw [crc32c, hcut, List.foldl_append, crc_plainRecord_first, crc_plainRecord_second]
  rw [srCrcOk, hcrc]
  decide +kernel

/-- Every value of the record is in range. -/
theorem plainRecord_inRange : srInRange plainRecord = true ∧ srPrefixPt plainRecord = 0 ∧
    mNextPos admittedManifest ≤ srLogCap plainRecord := by decide +kernel

/-- Partition 0 takes the frame: nothing about it is refused. -/
theorem takes_parkedWriteState : ∀ j : JobId,
    let s := parkedWriteState j
    s.accepts = true ∧ s.targetPart admittedFrame admittedManifest = some 0 ∧
      s.fab.aborted.contains (abortKey (hSrc admittedFrame) admittedFrame.hdr.tag) = false ∧
      s.incomingOf (hSrc admittedFrame) (mReqId admittedManifest) = none ∧ (s.part 0).st = .serving ∧
      (s.part 0).role ≠ .unset ∧ s.epochKind (mEpoch admittedManifest) = 0 ∧
      s.frame0Fault 0 admittedFrame admittedManifest = none ∧ s.freeSlot 0 = some 0 := by decide +kernel

theorem admittedFrame_good : tagContent admittedFrame.hdr.tag < 9 ∧ mCrcOk admittedManifest = true ∧
    mPhase admittedManifest = Ph.atAdmit ∧ mFlag admittedManifest flSharedPrefix = false ∧
    mSrAddr admittedManifest = 0 := by decide +kernel

/-- The record is read behind the write that waits, which the read lets go through. -/
theorem gather_parkedWriteBegun : ∀ j : JobId, ((parkedWriteBegun j).gather 0 [] 0 128).1 = .bytes plainRecord ∧
    ((parkedWriteBegun j).gather 0 [] 0 128).2.mem ≠ (parkedWriteState j).mem := by decide +kernel

/-- The receiver finds the record good, and a page fills a slot of its pool. -/
theorem record_parkedWriteBegun : ∀ j : JobId,
    let u := ((parkedWriteBegun j).gather 0 [] 0 128).2
    let i := admitBegun admittedFrame admittedManifest 0
    let v := u.setIncoming 0 i { i with sampler := plainRecord }
    u.grammarInRange 0 admittedManifest plainRecord = true ∧ v.jobOf 0 = some j.val ∧ u.jobOf 0 = some j.val ∧
      (v.geom 0).pageSize (v.geom 0).kvFmt = v.slotBytes j.val ∧ (u.geom 0).pageSize (u.geom 0).kvFmt = u.slotBytes j.val := by
  decide +kernel

/-- The job that a request of tenant 0 names. -/
@[irreducible] def tenantJob : JobId := Fin.ofNat 16 (Config.requestJob (mTenant admittedManifest))

theorem servesJobOf_parkedWriteState : (parkedWriteState tenantJob).servesJobOf 0 admittedManifest = true := by
  have hjob : ∀ j : JobId, ((parkedWriteState j).part 0).curJob = some j := by decide +kernel
  rw [State.servesJobOf, decide_eq_true_eq, hjob, tenantJob]

theorem mft_admittedFrame : admittedFrame.mft = some admittedManifest := by decide +kernel

theorem room_parkedWriteState (j : JobId) : (parkedWriteState j).Room (0 : PartId).val (hSrc admittedFrame) := by
  have hempty : ∀ j : JobId, (parkedWriteState j).fab = Fab.reset := by decide +kernel
  unfold State.Room State.replayUsed
  rw [hempty]
  exact ⟨(by intro y hy; cases hy), by decide +kernel, by decide +kernel⟩

theorem park_admitBegun : (admitBegun admittedFrame admittedManifest 0).park = false := by decide +kernel

/-- What the receiver has read: the record, good, with room for the request; and the write that waited is in memory. -/
theorem read_parkedWriteBegun : ∃ u,
    (parkedWriteBegun tenantJob).gather 0 [] (mSrAddr admittedManifest) 128 = (.bytes plainRecord, u) ∧
      u.mem ≠ (parkedWriteState tenantJob).mem ∧ u.grammarInRange 0 admittedManifest plainRecord = true ∧
      ∀ v, v = u ∨ v = u.setIncoming 0 (admitBegun admittedFrame admittedManifest 0)
          { admitBegun admittedFrame admittedManifest 0 with sampler := plainRecord } →
        v.roomFor 0 { admitBegun admittedFrame admittedManifest 0 with sampler := plainRecord } = true := by
  obtain ⟨-, -, hphase, -, haddr⟩ := admittedFrame_good
  obtain ⟨-, -, hlog⟩ := plainRecord_inRange
  obtain ⟨hbytes, hmem⟩ := gather_parkedWriteBegun tenantJob
  obtain ⟨hgram, hjobv, hjobu, hpagev, hpageu⟩ := record_parkedWriteBegun tenantJob
  have hnone : ∀ v : State, v.pagesNeeded 0 admittedManifest plainRecord = 0 := fun v =>
    State.pagesNeeded_admit v 0 plainRecord hphase
  refine ⟨((parkedWriteBegun tenantJob).gather 0 [] 0 128).2, ?_, hmem, hgram, ?_⟩
  · have hpair := (Prod.mk.eta (p := (parkedWriteBegun tenantJob).gather 0 [] 0 128)).symm
    rw [hbytes] at hpair
    rw [haddr]
    exact hpair
  · rintro v (rfl | rfl)
    · exact State.roomFor_of_noPages hjobu park_admitBegun (hnone _) hlog hpageu
    · exact State.roomFor_of_noPages hjobv park_admitBegun (hnone _) hlog hpagev

/-- The frame is accepted, and the memories are those after the read. -/
theorem mem_rxFrame0_parkedWriteState {u : State}
    (hread : (parkedWriteBegun tenantJob).gather 0 [] (mSrAddr admittedManifest) 128 = (.bytes plainRecord, u))
    (hgram : u.grammarInRange 0 admittedManifest plainRecord = true)
    (hroom : (u.setIncoming 0 (admitBegun admittedFrame admittedManifest 0)
        { admitBegun admittedFrame admittedManifest 0 with sampler := plainRecord }).roomFor 0
          { admitBegun admittedFrame admittedManifest 0 with sampler := plainRecord } = true) :
    ((parkedWriteState tenantJob).rxFrame0 admittedFrame).mem = u.mem := by
  obtain ⟨-, htarget, habort, hnew, hst, hrole, hepoch, hfault, hslot⟩ := takes_parkedWriteState tenantJob
  obtain ⟨hcontent, hcrc, hphase, hshared, -⟩ := admittedFrame_good
  obtain ⟨hrange, hprefix, -⟩ := plainRecord_inRange
  rw [State.rxFrame0_admit hcontent mft_admittedFrame habort hnew htarget hcrc hst hrole servesJobOf_parkedWriteState hepoch hfault
    hphase hslot, State.rxContinue_admit (i := admitBegun admittedFrame admittedManifest 0) hphase hshared hread srCrcOk_plainRecord hrange hgram hprefix hroom,
    State.mem_acceptCaravan]
  rfl

/-- Refutes O40: the clause of ADMIT says that an acceptance leaves the memories as they are, but the read of the sampler
record at SR_ADDR is an access to an MU: where a write waits at an MU in processor mode whose NBU runs nothing, the read
has it served, and the write reaches memory. -/
theorem not_frameZeroIsJudged : ¬ Obligations.FrameZeroIsJudged := by
  unfold Obligations.FrameZeroIsJudged
  intro h
  obtain ⟨hacc, htarget, habort, hnew, hst, hrole, hepoch, hfault, hslot⟩ := takes_parkedWriteState tenantJob
  obtain ⟨hcontent, hcrc, hphase, hshared, -⟩ := admittedFrame_good
  obtain ⟨hrange, hprefix, -⟩ := plainRecord_inRange
  obtain ⟨u, hread, hmem, hgram, hroom⟩ := read_parkedWriteBegun
  obtain ⟨-, hclauses⟩ := h (parkedWriteState tenantJob) admittedFrame
  obtain ⟨-, -, -, -, -, hadmit, -⟩ := hclauses admittedManifest 0 hacc hcontent mft_admittedFrame htarget habort hnew
    (room_parkedWriteState tenantJob)
  obtain ⟨hkept, -⟩ := hadmit ⟨⟨hcrc, hst, hrole, servesJobOf_parkedWriteState⟩, .inl hepoch, hfault⟩ hphase hshared 0 hslot
  obtain ⟨t, ks, hexec, -, -, -, -, hstands, -⟩ :=
    hkept plainRecord u hread ⟨srCrcOk_plainRecord, hrange, hgram, fun _ => hprefix, hroom u (.inl rfl)⟩
  have ht : t = (parkedWriteState tenantJob).rxFrame0 admittedFrame := by
    have := (Host.Outcome.next.inj hexec).symm
    rwa [State.ifTakes, if_pos hacc] at this
  rw [ht, mem_rxFrame0_parkedWriteState hread hgram (hroom _ (.inr rfl))] at hstands
  exact hmem hstands

end Sys2Proof.Machine
end

