-- ==== Sys2Proof/Proofs/CancelsRefuted.lean ====
section
/-! REFUTED. Cancels (O38): what a cancel at the owner of a request comes to, and a slot whose manifest the live map overlaps. -/

namespace Sys2Proof.Machine

/-! ## A cancel at the owner -/

/-- A cancel of a request that this node owns, in no convoy and not done, takes effect at once. -/
theorem State.rxCancel_owner {s : State} {src : NodeId} {id : ReqId} (to_ : NodeId) {p : PartId} {k : Nat}
    (howner : ((List.finRange 16).findSome? fun p =>
      ((s.heldSlots p).find? fun k => s.owns p k && mReqId (s.manifest p k) == id).map fun k => (p, k)) = some (p, k))
    (hcrc : mCrcOk (s.manifest p k) = true) (hrow : s.convoyRowOf p k = none)
    (howns : s.owns p k = true) (hterm : terminal (mPhase (s.manifest p k)) = false) (hdone : (s.slot p k).done = false)
    (hwaits : s.cancelWaits p k = false) :
    s.rxCancel src id to_ false =
      ((s.setSlot p k { s.slot p k with cancel := true, cancellers := (s.slot p k).cancellers ++ [src] }).cancelEffect p
        k).endHeldCaravan p k := by
  unfold State.rxCancel
  simp only [howner, Bool.false_eq_true, false_and, if_false]
  rw [State.checkOwn, if_pos hcrc]
  unfold State.cancelWrite State.cancelLate
  simp only [hrow, Option.toList_some]
  have howns' : (s.setSlot p k { s.slot p k with
      cancel := true, cancellers := (s.slot p k).cancellers ++ [src] }).owns p k = true := by
    rw [State.owns, State.slot_setSlot, if_pos rfl]
    exact howns
  rw [if_neg (by rw [howns']; decide), if_neg (by rw [State.manifest_setSlot, hterm]; decide),
    if_neg (by rw [hdone, State.cancelWaits_setSlot, hwaits]; decide)]

/-- The answers to the cancels of a slot are sent, and none is owed any more. -/
theorem State.answerCancels_spec (s : State) (p : PartId) (k : Nat) (st : Status) : ∃ v, s.Sends v ∧
    s.answerCancels p k st = v.setSlot p k { v.slot p k with cancellers := [] } :=
  ⟨_, State.sends_foldl _ (fun u n => u.sends_sendCtlFrame u p.val n _ _ none) _ s, rfl⟩

theorem State.stopTransfer_of_none {s : State} {p : PartId} {k : Nat} (st : Status) (h : s.outgoingOf p k = none) :
    s.stopTransfer p k st = s := by
  unfold State.stopTransfer
  rw [h]

/-- What a cancel writes on the partition before it is answered: the phase, the fault record and the count (R197). -/
def State.cancelStamped (s : State) (p : PartId) (k : Nat) : State :=
  ((s.stamp p k Ph.cancelled).ownFault p k St.cancelled (mOutput (s.manifest p k)) 0 none).addReg (ptBase p + 0x5060) 1

/-- A cancel takes effect on a live request that is not being sent (R197). -/
theorem State.cancelEffect_live {s : State} {p : PartId} {k : Nat} (howns : s.owns p k = true)
    (hterm : terminal (mPhase (s.manifest p k)) = false) (hcrc : mCrcOk (s.manifest p k) = true)
    (hout : s.outgoingOf p k = none) :
    s.cancelEffect p k = ((s.cancelStamped p k).answerCancels p k St.cancelled).closeRequest p k := by
  unfold State.cancelEffect
  rw [if_neg (by rw [hterm, howns]; decide), if_neg (by rw [hcrc]; decide), State.stopTransfer_of_none _ hout]
  rfl

theorem State.freePages_of_remote {s : State} {p : PartId} {k : Nat}
    (h : mPtAddr (s.manifest p k) / 2 ^ 42 ≠ s.fab.node.val) : s.freePages p k = s := by
  unfold State.freePages State.ownPages State.ptHdr State.reqRead State.ownAddr
  rw [if_neg h]
  rfl

/-- The terminal actions of a request whose page table lies elsewhere, that has no adapter, has not failed and was never
parked, at a node without a book: there is nothing to do. -/
theorem State.closeRequest_of_nothing {s : State} {p : PartId} {k : Nat}
    (hpages : mPtAddr (s.manifest p k) / 2 ^ 42 ≠ s.fab.node.val) (hadapter : mFlag (s.manifest p k) flAdapter = false)
    (hphase : mPhase (s.manifest p k) ≠ Ph.failed) (hmgr : s.mgrNode = none) (hset : (s.slot p k).oldSet = none) :
    s.closeRequest p k = s := by
  unfold State.closeRequest
  simp only [State.freePages_of_remote hpages, State.adRef, hadapter, if_true, hphase, if_false, State.sendMgr, hmgr,
    State.releaseSet, hset, Option.bind_none]

theorem State.endHeldCaravan_of_empty {s : State} {p : PartId} (k : Nat) (h : (s.drv p).queue 5 = []) :
    s.endHeldCaravan p k = s := by
  unfold State.endHeldCaravan
  rw [h]
  rfl

/-- Where there is nothing to do for the end of a request, answering its cancels leaves its manifest as it stands. -/
theorem State.manifest_answerCancels_close {u : State} {p : PartId} {k : Nat} (st : Status)
    (hpages : mPtAddr (u.manifest p k) / 2 ^ 42 ≠ u.fab.node.val) (hadapter : mFlag (u.manifest p k) flAdapter = false)
    (hphase : mPhase (u.manifest p k) ≠ Ph.failed) (hmgr : u.mgrNode = none) (hset : (u.slot p k).oldSet = none)
    (hqueue : (u.drv p).queue 5 = []) :
    (((u.answerCancels p k st).closeRequest p k).endHeldCaravan p k).manifest p k = u.manifest p k := by
  obtain ⟨v, hv, hanswer⟩ := u.answerCancels_spec p k st
  have hmft : (u.answerCancels p k st).manifest p k = u.manifest p k := by
    rw [hanswer, State.manifest_setSlot, hv.manifest]
  have hslot : ((u.answerCancels p k st).slot p k).oldSet = none := by
    rw [hanswer, State.slot_setSlot, if_pos rfl, hv.slot]
    exact hset
  have hnode : (u.answerCancels p k st).fab.node = u.fab.node := by
    rw [hanswer]
    exact hv.node
  have hbook : (u.answerCancels p k st).mgrNode = none := by
    rw [hanswer]
    exact hv.mgrNode.trans hmgr
  have hq : ((u.answerCancels p k st).drv p).queue 5 = [] := by
    rw [hanswer, State.drv, State.part_setSlot, if_pos rfl]
    exact (congrArg (fun d : Drover => d.queue 5) (hv.drv p)).trans hqueue
  rw [State.closeRequest_of_nothing (by rwa [hmft, hnode]) (by rwa [hmft]) (by rwa [hmft]) hbook hslot,
    State.endHeldCaravan_of_empty _ hq, hmft]

/-! ## A cancel whose slot lies far beyond the manifest table -/

/-- A request of id 5 at ADMIT whose address words are all ones. -/
@[irreducible] def onesManifest : Manifest :=
  mSeal { w0 := 5, w1 := 0, w2 := 0, w3 := 0, w4 := 0, w5 := BitVec.allOnes 64, w6 := BitVec.allOnes 64, w7 := 0 }

/-- A slot number whose place in hold SRAM is in a region that the live map would note in SEQ_MFT_BASE. -/
def farSlot : Nat := (509 * 64 * 65536 - 0xBF0000) / 64

/-- Partition 0 holds that request in that slot. -/
@[irreducible] def farSlotState : State :=
  { State.reset with
    parts := State.reset.parts.set 0 { Part.reset with
      slots := [(farSlot, { held := true })], hsram := memWrite [] (0xBF0000 + 64 * farSlot) (mBytes onesManifest) } }

/-- The state after the cancel has been noted in the slot. -/
@[irreducible] def farSlotCancelled : State :=
  farSlotState.setSlot 0 farSlot { farSlotState.slot 0 farSlot with
    cancel := true, cancellers := (farSlotState.slot 0 farSlot).cancellers ++ [0] }

/-- Nothing stands in the way of the cancel. -/
theorem owned_farSlotState :
    let s := farSlotState
    s.accepts = true ∧ s.heldSlots 0 = [farSlot] ∧ (∀ p : PartId, p ≠ 0 → s.heldSlots p = []) ∧
      mReqId (s.manifest 0 farSlot) = 5 ∧ s.owns 0 farSlot = true ∧ terminal (mPhase (s.manifest 0 farSlot)) = false ∧
      mCrcOk (s.manifest 0 farSlot) = true ∧ (s.drv 0).entries = [] ∧ (s.slot 0 farSlot).done = false ∧
      s.cancelWaits 0 farSlot = false ∧ s.convoyRowOf 0 farSlot = none := by decide +kernel

theorem owner_farSlotState : ((List.finRange 16).findSome? fun p =>
    ((farSlotState.heldSlots p).find? fun k => farSlotState.owns p k && mReqId (farSlotState.manifest p k) == 5).map
      fun k => (p, k)) = some (0, farSlot) := by decide +kernel

theorem owned_farSlotCancelled :
    let s := farSlotCancelled
    s.owns 0 farSlot = true ∧ terminal (mPhase (s.manifest 0 farSlot)) = false ∧
      mCrcOk (s.manifest 0 farSlot) = true ∧ s.outgoingOf 0 farSlot = none := by decide +kernel

/-- SEQ_MFT_BASE is one higher, and the manifest reads one byte off. -/
theorem stamped_farSlotState :
    let s := farSlotCancelled.cancelStamped 0 farSlot
    mPhase (s.manifest 0 farSlot) = 0 ∧ mPtAddr (s.manifest 0 farSlot) / 2 ^ 42 ≠ s.fab.node.val ∧
      mFlag (s.manifest 0 farSlot) flAdapter = false ∧ s.mgrNode = none ∧ (s.slot 0 farSlot).oldSet = none ∧
      (s.drv 0).queue 5 = [] := by decide +kernel

/-- After the cancel the manifest of the slot is in phase 0. -/
theorem mPhase_rxCancel_farSlotState :
    mPhase ((farSlotState.rxCancel 0 5 0 false).manifest 0 farSlot) = 0 := by
  obtain ⟨-, -, -, -, howns, hterm, hcrc, -, hdone, hwaits, hrow⟩ := owned_farSlotState
  obtain ⟨hphase, hpages, hadapter, hmgr, hset, hqueue⟩ := stamped_farSlotState
  obtain ⟨howns', hterm', hcrc', hout⟩ := owned_farSlotCancelled
  rw [State.rxCancel_owner 0 owner_farSlotState hcrc hrow howns hterm hdone hwaits, ← farSlotCancelled,
    State.cancelEffect_live howns' hterm' hcrc' hout,
    State.manifest_answerCancels_close _ hpages hadapter (by rw [hphase]; decide) hmgr hset hqueue, hphase]

/-- Refutes O38: the clause of a cancel that takes effect at once leaves the slot number open. For a slot whose manifest
lies in region 509 · 64 of the live map, that map's register of the region is SEQ_MFT_BASE: writing the manifest moves the
base of the table, and the slot's manifest does not read CANCELLED. -/
theorem not_cancelsReachTheOwner : ¬ Obligations.CancelsReachTheOwner := by
  unfold Obligations.CancelsReachTheOwner
  intro h
  obtain ⟨hacc, hheld, hothers, hid, howns, hterm, hcrc, hentries, hdone, hwaits, -⟩ := owned_farSlotState
  obtain ⟨-, hclauses⟩ := h farSlotState 0 0 5
  obtain ⟨howner, -⟩ := hclauses hacc
  obtain ⟨-, hatOnce⟩ := howner 0 farSlot hheld hothers hid howns hterm hcrc (by rw [hentries]; intro e he; cases he)
  obtain ⟨t, hexec, hcancelled, -⟩ := hatOnce hdone hwaits
  have ht : t = farSlotState.rxCancel 0 5 0 false := by
    have := (Host.Outcome.next.inj hexec).symm
    rwa [State.ifTakes, if_pos hacc] at this
  rw [ht, mPhase_rxCancel_farSlotState] at hcancelled
  cases hcancelled

end Sys2Proof.Machine
end

