-- ==== Sys2Proof/Proofs/SamplingRefuted.lean ====
section
/-! REFUTED. SMP_STEP and SMP_GRAMMAR (O20): an SMP_STEP that retires ahead of a FAB_CARAVAN in the same queue. -/

namespace Sys2Proof.Machine

/-- An SMP_STEP of convoy 0 that is done. -/
def endedStep : QEntry where
  uid := 1
  insn := BitVec.ofNat 128 (0x50 * 2 ^ 120)
  pc := 0
  pkt := none
  tag := 0x400
  waitOn := none
  da := 0
  db := 0
  dc := 0
  sa := 0
  sb := 0
  sc := 0
  wb := none
  wbVal := 0
  wbOk := true
  phase := .done
  faultPost := false
  committed := true
  cost := 0
  members := []
  bales := []
  lines := []
  owed := 0
  sentN := 0
  waitFrom := none

/-- A FAB_CARAVAN of slot 1 that waits for the answers to its transfer. -/
def waitingCaravan : QEntry :=
  { endedStep with uid := 2, insn := BitVec.ofNat 128 (0x73 * 2 ^ 120), tag := 1, wbOk := false, phase := .waiting,
                   committed := false }

/-- The transfer of that FAB_CARAVAN. -/
def waitingTransfer : Outgoing where
  uid := 2
  slot := 1
  id := 0
  park := false
  dsts := []
  mft := manifestOf (zeros 64)
  lead := 0
  accepted := []
  sentRest := []
  allSent := []
  slots := []

/-- Partition 0 of the reset state with both in queue 5. Slot 1 is held; its manifest, all zero, fails its CRC. It is the
only member of convoy 0. -/
def stepBeforeCaravan : State :=
  let u : State := { State.reset with
    parts := State.reset.parts.set 0 { Part.reset with
      slots := [(1, { held := true })], outgoing := [waitingTransfer] } }
  let u := (u.modDrv 0 fun d => d.setQueue 5 [endedStep, waitingCaravan]).setRegFld (ptBase 0 + 0x5008) 25 16 1
  u.hsWrite 0 (u.cvRowAt 0 0) (leBytes 8 (2 ^ 63) ++ leBytes 8 1)

/-- No access of hold SRAM waits or is corrected where no granule is taken. -/
theorem State.hsramCounts_zero (s : State) (p : PartId) : s.hsramCounts p 0 =
    (({ s with freeCount := s.freeCount + 1 } : State).addReg (ptBase p + 0x1028) 0).addReg (ptBase p + 0x1030) 0 := by
  unfold State.hsramCounts
  simp only [Nat.mul_zero, Nat.zero_add, Nat.mod_one]

/-- That state once the SMP_STEP, which took no time, has been charged. -/
def stepCharged : State :=
  let u := (stepBeforeCaravan.chargeEngine 0 5 endedStep 0).busyClk 0 5 0
  (({ u with freeCount := u.freeCount + 1 } : State).addReg (ptBase 0 + 0x1028) 0).addReg (ptBase 0 + 0x1030) 0

theorem endCharge_stepBeforeCaravan : stepBeforeCaravan.endCharge 0 5 endedStep 0 = stepCharged :=
  State.hsramCounts_zero ..

/-- The retire of an instruction that writes no register, installs no grammar and read no bales. -/
theorem State.retire_of_head {s : State} {p : PartId} {q extra : Nat} {e : QEntry} (hhead : s.head p q = some e)
    (hready : ¬(e.phase ≠ .done ∨ (s.part p).drv.dstate = .switchedOut ∨ s.accessHeld p q e)) (hwb : e.wb = none)
    (hop : iOp e.insn ≠ 0x51) (hbales : e.bales = []) :
    s.retire p q extra = ((s.endCharge p q e (e.cost + extra)).boundaries
      ((s.endCharge p q e (e.cost + extra)).dropHead p q e e.faultPost 4) p q).yieldBetween p q := by
  unfold State.retire
  simp only [hhead, if_neg hready, hwb, hop, hbales, false_and, if_false, List.foldl_nil]

theorem retire_stepBeforeCaravan : stepBeforeCaravan.retire 0 5 0 =
    (stepCharged.boundaries (stepCharged.dropHead 0 5 endedStep false 4) 0 5).yieldBetween 0 5 := by
  have hhead : stepBeforeCaravan.head 0 5 = some endedStep := by decide +kernel
  rw [← endCharge_stepBeforeCaravan]
  exact State.retire_of_head hhead (by decide +kernel) rfl (by decide +kernel) rfl

/-- The step boundary examines the member again, which ends FAILED for its CRC; its transfer is stopped, and with it the
FAB_CARAVAN ends. -/
theorem phases_retire_stepBeforeCaravan :
    ((((stepBeforeCaravan.retire 0 5 0).drv 0).queue 5).map (·.phase)) = [.done] := by
  rw [retire_stepBeforeCaravan]
  decide +kernel

/-- Refutes O20: the clause on the retire leaves open in which queue the instruction stands. An SMP_STEP at the head of
queue 5 whose convoy has a member with a damaged manifest and a transfer under way ends the FAB_CARAVAN behind it, so what
is left of the queue is not what stood behind the head. -/
theorem not_samplingCommitsToken : ¬ Obligations.SamplingCommitsToken := by
  unfold Obligations.SamplingCommitsToken
  intro h
  obtain ⟨-, -, -, -, hretire⟩ := h stepBeforeCaravan 0 5 endedStep
  obtain ⟨t, hexec, hqueue, -⟩ := hretire 5 0 [waitingCaravan] (by decide +kernel) rfl rfl (by decide +kernel) rfl
    (by decide +kernel) (by decide +kernel)
  have ht : t = stepBeforeCaravan.retire 0 5 0 := (Host.Outcome.next.inj hexec).symm
  have hdone := phases_retire_stepBeforeCaravan
  rw [← ht] at hdone
  have hwaits : ((t.drv 0).queue 5).map (·.phase) = [.waiting] := congrArg (List.map (·.phase)) hqueue
  rw [hwaits] at hdone
  cases hdone

end Sys2Proof.Machine
end

