-- ==== Sys2Proof/Proofs/Memories.lean ====
section
/-! SUPPORT. The manifest table: bytes and fields of a manifest, and what a write of a manifest leaves. -/

namespace Sys2Proof.Machine

/-! ## Bytes of words and manifests -/

@[simp] theorem length_wordBytes (w : Word) : (wordBytes w).length = 8 := length_leBytes ..

theorem wordOf_append (w : Word) (r : Bytes) : wordOf (wordBytes w ++ r) = w := by
  rw [wordOf, List.take_left' (length_wordBytes w), wordBytes, ofLe_leBytes]
  apply BitVec.eq_of_toNat_eq
  rw [BitVec.toNat_ofNat]
  have := w.isLt
  omega

theorem drop_wordBytes_append (w : Word) (r : Bytes) (n : Nat) : (wordBytes w ++ r).drop (8 + n) = r.drop n := by
  rw [← List.drop_drop, List.drop_left' (length_wordBytes w)]

@[simp] theorem length_mBytes (m : Manifest) : (mBytes m).length = 64 := by simp [mBytes]

/-- A manifest is read back from its bytes. -/
@[simp] theorem manifestOf_mBytes (m : Manifest) : manifestOf (mBytes m) = m := by
  have hlast : wordBytes m.w7 = wordBytes m.w7 ++ [] := (List.append_nil _).symm
  unfold manifestOf mBytes
  rw [hlast]
  simp only [List.append_assoc, wordOf_append, drop_wordBytes_append _ _ 0, drop_wordBytes_append _ _ 8,
    drop_wordBytes_append _ _ 16, drop_wordBytes_append _ _ 24, drop_wordBytes_append _ _ 32,
    drop_wordBytes_append _ _ 40, drop_wordBytes_append _ _ 48, List.drop_zero]

/-! ## The live map (R332) -/

/-- A write to hold SRAM is noted in registers alone. -/
theorem State.markLive_only (s : State) (p : PartId) (off n : Nat) :
    s.markLive p off n = { s with bar0 := (s.markLive p off n).bar0 } := by
  unfold State.markLive
  split
  · rfl
  · generalize List.range _ = l
    induction l generalizing s with
    | nil => rfl
    | cons i r ih =>
      rw [List.foldl_cons]
      exact (ih _).trans rfl

/-- The live map's registers but those of the regions written stand. -/
theorem State.reg_markLive_of_ne (s : State) (p : PartId) {off n o : Nat}
    (h : ∀ r, r ≤ (off + n - 1) / 65536 → o ≠ ptBase p + 0x28 + 8 * (r / 64)) :
    (s.markLive p off n).reg o = s.reg o := by
  unfold State.markLive
  split
  · rfl
  · have hl : ∀ i ∈ List.range ((off + n - 1) / 65536 - off / 65536 + 1),
        o ≠ ptBase p + 0x28 + 8 * ((off / 65536 + i) / 64) := by
      intro i hi
      have := List.mem_range.1 hi
      have hend : off / 65536 ≤ (off + n - 1) / 65536 := Nat.div_le_div_right (by omega)
      exact h _ (by omega)
    revert hl
    generalize List.range _ = l
    intro hl
    induction l generalizing s with
    | nil => rfl
    | cons i r ih =>
      rw [List.foldl_cons, ih _ fun j hj => hl j (List.mem_cons_of_mem _ hj), State.reg_setReg,
        if_neg (hl i (List.mem_cons_self ..))]

/-- The live map of a write of `n` bytes from `off` lies in the registers from `0x28` on, one for 4 MiB. -/
theorem State.reg_markLive_apart (s : State) (p : PartId) {off n o : Nat}
    (h : o < ptBase p + 0x28 ∨ ptBase p + 0x28 + 8 * ((off + n) / 4194304) < o) :
    (s.markLive p off n).reg o = s.reg o :=
  s.reg_markLive_of_ne p fun r hr => by omega

/-! ## A write of a manifest -/

section
variable (s : State) (p : PartId) (k : Nat) (m : Manifest)

theorem State.hsWrite_only (off : Nat) (b : Bytes) : s.hsWrite p off b =
    { s with parts := (s.hsWrite p off b).parts, bar0 := (s.hsWrite p off b).bar0 } := by
  unfold State.hsWrite
  have h := State.markLive_only (s.modPart p fun x => { x with hsram := memWrite x.hsram off b }) p off b.length
  generalize State.markLive _ p off b.length = t at h ⊢
  rw [h]
  rfl

theorem State.part_hsWrite (p' : PartId) (off : Nat) (b : Bytes) : (s.hsWrite p off b).part p' =
    if p' = p then { s.part p with hsram := memWrite (s.part p).hsram off b } else s.part p' := by
  rw [State.hsWrite, State.markLive_part, State.part_modPart]

theorem State.setManifest_only : s.setManifest p k m =
    { s with parts := (s.setManifest p k m).parts, bar0 := (s.setManifest p k m).bar0 } := State.hsWrite_only ..

theorem State.part_setManifest (p' : PartId) : (s.setManifest p k m).part p' =
    if p' = p then { s.part p with hsram := memWrite (s.part p).hsram (s.mftBase p + 64 * k) (mBytes m) }
    else s.part p' := State.part_hsWrite ..

theorem State.mftBase_lt : s.mftBase p < 2 ^ 24 := Nat.mod_lt _ (by decide)

/-- A manifest written to the table touches the live map alone of the registers. -/
theorem State.reg_setManifest_apart {k : Nat} (hk : k < 1024) {o : Nat}
    (ho : o < ptBase p + 0x28 ∨ ptBase p + 0x48 < o) : (s.setManifest p k m).reg o = s.reg o := by
  unfold State.setManifest State.hsWrite
  have := s.mftBase_lt p
  rw [State.reg_markLive_apart]
  · rfl
  · rw [length_mBytes]
    omega

theorem State.mftBase_setManifest {k : Nat} (hk : k < 1024) : (s.setManifest p k m).mftBase p = s.mftBase p := by
  unfold State.mftBase State.regFld
  rw [State.reg_setManifest_apart s p m hk (by omega)]

/-- The manifest written is read back. -/
theorem State.manifest_setManifest_same {k : Nat} (hk : k < 1024) : (s.setManifest p k m).manifest p k = m := by
  have hread := memRead_memWrite (s.part p).hsram (s.mftBase p + 64 * k) (mBytes m)
  rw [length_mBytes] at hread
  rw [State.manifest, State.mftBase_setManifest s p m hk, State.hsRead, State.part_setManifest, if_pos rfl, hread,
    manifestOf_mBytes]

/-- Hold SRAM beside the manifest written stands. -/
theorem State.holdByte_setManifest_apart (p' : PartId) {a : Nat}
    (ha : a < s.mftBase p + 64 * k ∨ s.mftBase p + 64 * k + 64 ≤ a) :
    (s.setManifest p k m).holdByte p' a = s.holdByte p' a := by
  rw [State.setManifest, State.holdByte_hsWrite, if_neg]
  rw [length_mBytes]
  omega

end

end Sys2Proof.Machine
end

