-- ==== Sys2Proof/Proofs/Events.lean ====
section
/-! SUPPORT. Events: which registers raising one writes, and that it is counted once. -/

namespace Sys2Proof.Machine

/-- The registers of the event ring, its flags and counters (Table 17.4). -/
def eventReg (o : Nat) : Prop := 0x708010 ≤ o ∧ o < 0x708080

/-- Registers of the event ring below the counts of the classes, which delivering a record may write. -/
def ringReg (o : Nat) : Prop := 0x708010 ≤ o ∧ o < 0x708040

/-- An event record has been delivered: SEQ and every register but those of the ring stand. -/
def State.Delivered (s t : State) : Prop := t.events.seq = s.events.seq ∧ ∀ o, ¬ ringReg o → t.reg o = s.reg o

theorem State.reg_evtDrop_apart (s : State) {o : Nat} (h : ¬ ringReg o) : s.evtDrop.reg o = s.reg o := by
  unfold ringReg at h
  rw [State.evtDrop, State.reg_setRegFld, if_neg (by unfold evtBase; omega), State.reg_addReg,
    if_neg (by unfold evtBase; omega)]

theorem State.delivered_evtDrop (s : State) : s.Delivered s.evtDrop := ⟨rfl, fun _ h => s.reg_evtDrop_apart h⟩

theorem State.reg_signalMsix (s : State) (fn vec o : Nat) : (s.signalMsix fn vec).reg o = s.reg o := by
  rw [State.signalMsix_only]
  rfl

theorem State.delivered_evtSignal (s : State) : s.Delivered s.evtSignal := by
  unfold State.evtSignal
  dsimp only
  split
  · exact ⟨rfl, fun o _ => s.reg_signalMsix 0 0 o⟩
  · exact ⟨rfl, fun _ _ => rfl⟩

theorem State.delivered_evtWrite (s : State) (e : EvRec) : s.Delivered (s.evtWrite e) := by
  unfold State.evtWrite
  dsimp only
  split
  · exact s.delivered_evtDrop
  · have hr : ∀ (u : State) (n o : Nat), ¬ ringReg o → (u.setRegFld (evtBase + 0x10) 15 0 n).reg o = u.reg o := by
      intro u n o ho
      rw [State.reg_setRegFld, if_neg (by unfold ringReg at ho; unfold evtBase; omega)]
    split
    · exact ⟨(State.delivered_evtSignal _).1, fun o ho => ((State.delivered_evtSignal _).2 o ho).trans (hr _ _ o ho)⟩
    · exact ⟨(State.delivered_evtSignal _).1, fun o ho => ((State.delivered_evtSignal _).2 o ho).trans (hr _ _ o ho)⟩

theorem State.delivered_evtDeliver (s : State) (e : EvRec) : s.Delivered (s.evtDeliver e) := by
  unfold State.evtDeliver
  split
  · split
    · exact ⟨rfl, fun _ _ => rfl⟩
    · exact s.delivered_evtDrop
  · split
    · exact ⟨rfl, fun _ _ => rfl⟩
    · split
      · exact s.delivered_evtWrite e
      · exact s.delivered_evtDrop

theorem State.reg_evtCount (s : State) (ev : BitVec 16) {o : Nat} (h : ¬ ringReg o) :
    (s.evtCount ev).reg o =
      if o = evtBase + 0x40 + 8 * (evClass ev % 8) then s.reg o + BitVec.ofNat 64 1 else s.reg o := by
  have h2 : ∀ u : State, u.bar0 = s.bar0 → (u.addReg (evtBase + 0x40 + 8 * (evClass ev % 8)) 1).reg o =
      if o = evtBase + 0x40 + 8 * (evClass ev % 8) then s.reg o + BitVec.ofNat 64 1 else s.reg o := by
    intro u hu
    rw [State.reg_addReg, State.reg, State.reg, State.reg, hu]
    split
    · next ho => rw [ho]
    · rfl
  unfold State.evtCount
  dsimp only
  split
  · rw [State.reg_setRegFld, if_neg (by unfold ringReg at h; unfold evtBase; omega)]
    exact h2 _ rfl
  · exact h2 _ rfl

theorem State.seq_evtCount (s : State) (ev : BitVec 16) : (s.evtCount ev).events.seq = s.events.seq + 1 := by
  unfold State.evtCount
  dsimp only
  split <;> rfl

section
variable (s : State) (ev : BitVec 16) (st : Status) (src unit : Nat) (req : Word) (d : Bytes)

/-- Raising an event counts it once. -/
theorem State.raised_raise : s.Raised (s.raise ev st src unit req d) ev := by
  obtain ⟨h1, h2⟩ := State.delivered_evtDeliver (s.evtCount ev)
    { event := ev, status := st, source := src, unit := unit, time := s.now, seq := s.events.seq, req := req, detail := d }
  have ho : ¬ ringReg (evtBase + 0x40 + 8 * (evClass ev % 8)) := by unfold ringReg evtBase; omega
  exact ⟨h1.trans (s.seq_evtCount ev), by rw [State.raise, h2 _ ho, s.reg_evtCount ev ho, if_pos rfl]; rfl⟩

/-- Raising an event writes no register apart from those of the events. -/
theorem State.reg_raise_apart {o : Nat} (h : ¬ eventReg o) : (s.raise ev st src unit req d).reg o = s.reg o := by
  have ho : ¬ ringReg o := fun h1 => h ⟨h1.1, by have := h1.2; omega⟩
  rw [State.raise, (State.delivered_evtDeliver _ _).2 o ho, s.reg_evtCount ev ho, if_neg]
  intro h1
  exact h (by unfold eventReg evtBase at *; omega)

@[simp] theorem State.mgr_raise : (s.raise ev st src unit req d).mgr = s.mgr := by rw [State.onlyEvents_raise]
@[simp] theorem State.fab_raise : (s.raise ev st src unit req d).fab = s.fab := by rw [State.onlyEvents_raise]
@[simp] theorem State.parts_raise : (s.raise ev st src unit req d).parts = s.parts := by rw [State.onlyEvents_raise]
@[simp] theorem State.mem_raise : (s.raise ev st src unit req d).mem = s.mem := by rw [State.onlyEvents_raise]

end

/-- An event counted stands counted in a state that keeps SEQ and the counts of the classes. -/
theorem State.Raised.congr {s t u : State} {ev : BitVec 16} (h : s.Raised t ev) (h1 : u.events = t.events)
    (h2 : ∀ o, eventReg o → u.reg o = t.reg o) : s.Raised u ev := by
  obtain ⟨hs, hr⟩ := h
  exact ⟨by rw [h1, hs], by rw [h2 _ (by unfold eventReg evtBase; omega), hr]⟩

/-- An event counted from a state is counted from one with the same SEQ and counts of the classes. -/
theorem State.Raised.congr_left {s s' t : State} {ev : BitVec 16} (h : s'.Raised t ev) (h1 : s'.events = s.events)
    (h2 : ∀ o, eventReg o → s'.reg o = s.reg o) : s.Raised t ev := by
  obtain ⟨hs, hr⟩ := h
  exact ⟨by rw [hs, h1], by rw [hr, h2 _ (by unfold eventReg evtBase; omega)]⟩

theorem not_sendReg_of_eventReg {o : Nat} (h : eventReg o) : ¬ sendReg o := by
  unfold eventReg at h
  unfold sendReg
  omega

theorem State.Raised.sends {s t u : State} {ev : BitVec 16} (h : s.Raised t ev) (h1 : t.Sends u) : s.Raised u ev :=
  h.congr h1.events fun o ho => h1.regs o (not_sendReg_of_eventReg ho)

end Sys2Proof.Machine
end

