-- ==== Sys2Proof/Proofs/Managers.lean ====
section
/-! SUPPORT. What the manager does with its tables and its messages: it changes the route keeper, and sends. -/

namespace Sys2Proof.Machine

/-! ## Frames on their way -/

/-- Frames that are in a replay buffer or wait for room in one. -/
def State.onTheWay (s : State) : Nat := s.fab.sent.length + s.fab.backlog.length

theorem State.backlog_inject (s : State) (k : PortId) (j : Option Nat) (f : Frame) :
    (s.inject k j f).fab.backlog = s.fab.backlog := by
  unfold State.inject
  split
  · rfl
  · split
    · rfl
    · dsimp only
      split <;> rfl

theorem State.backlog_emit {s t : State} {f : Frame} {j : Option Nat} (h : s.emit f j = some t) :
    t.fab.backlog = s.fab.backlog := by
  unfold State.emit at h
  dsimp only at h
  split at h
  · cases h
    rfl
  · split at h
    · cases h
      exact s.backlog_inject ..
    · cases h

theorem State.backlog_markPath (s : State) (d : NodeId) (p : Nat) : (s.markPath d p).fab.backlog = s.fab.backlog := by
  unfold State.markPath
  split <;> rfl

theorem State.backlog_transmit (n : Nat) : ∀ (s : State) (x : Sent), (s.transmit n x).1.fab.backlog = s.fab.backlog := by
  induction n with
  | zero => exact fun _ _ => rfl
  | succ n ih =>
    intro s x
    unfold State.transmit
    dsimp only
    split
    · rfl
    · have h0 : (if x.path.isSome then s.addReg 0x301040 1 else s).fab = s.fab := by split <;> rfl
      revert h0
      generalize (if x.path.isSome then s.addReg 0x301040 1 else s) = t
      intro h0
      rw [← h0]
      split
      · next u hu => exact State.backlog_emit hu
      · generalize pickPath x _ = p
        have h1 : ((t.addReg 0x301078 1).markPath x.dst p).fab.backlog = t.fab.backlog := State.backlog_markPath ..
        split
        · exact h1
        · exact (ih _ _).trans h1

theorem State.backlog_keepAndSend (s : State) (x : Sent) : (s.keepAndSend x).fab.backlog = s.fab.backlog := by
  unfold State.keepAndSend
  dsimp only
  split
  · rfl
  · exact s.backlog_transmit 8 x

/-- A frame sent is one more on its way. -/
theorem State.onTheWay_sendSeq (s : State) (f : Frame) (o : Option (PartId × Nat × Nat)) (pl : Nat) (h : hType f ≠ 0) :
    (s.sendSeq f o pl).onTheWay = s.onTheWay + 1 := by
  by_cases hk : s.mayKeep f = true
  · obtain ⟨-, x, hsent, -⟩ := s.sendSeq_spec f o pl h hk
    have hback : (s.sendSeq f o pl).fab.backlog = s.fab.backlog := by
      unfold State.sendSeq State.sendNow
      dsimp only
      rw [if_pos hk, State.backlog_keepAndSend, (State.chargeSend_spec _ f h).2]
      rfl
    rw [State.onTheWay, State.onTheWay, hsent, hback, List.length_append, List.length_singleton]
    omega
  · unfold State.sendSeq
    dsimp only
    rw [if_neg hk]
    show s.fab.sent.length + (s.fab.backlog ++ [_]).length = _
    rw [List.length_append, List.length_singleton]
    rfl

theorem State.onTheWay_sendCtl (s : State) (dst : NodeId) (c : Ctl) (t : Tag) :
    (s.sendCtl dst c t).onTheWay = s.onTheWay + 1 := by
  refine s.onTheWay_sendSeq _ _ _ ?_
  rw [State.hType_ctlFrame]
  decide

theorem State.onTheWay_foldl {α : Type} (f : State → α → State) (hf : ∀ (s : State) a, (f s a).onTheWay = s.onTheWay + 1)
    (l : List α) : ∀ s : State, (l.foldl f s).onTheWay = s.onTheWay + l.length := by
  induction l with
  | nil => exact fun _ => rfl
  | cons a r ih =>
    intro s
    rw [List.foldl_cons, ih, hf, List.length_cons]
    omega

theorem State.onTheWay_modMgr (s : State) (f : Mgr → Mgr) : (s.modMgr f).onTheWay = s.onTheWay := rfl

/-! ## The route keeper and what it sends -/

/-- The route keeper's state has changed and frames have been sent; nothing else. -/
structure State.Directs (s t : State) : Prop where
  only : s.OnlyMgr t
  fab : t.fab = { s.fab with
    seqs := t.fab.seqs, sent := t.fab.sent, marks := t.fab.marks, inj := t.fab.inj, backlog := t.fab.backlog }
  sent : s.fab.sent <+: t.fab.sent
  backlog : s.fab.backlog <+: t.fab.backlog
  regs : ∀ o, ¬ sendReg o → t.reg o = s.reg o

theorem State.OnlyMgr.refl (s : State) : s.OnlyMgr s := rfl

theorem State.OnlyMgr.trans {s t u : State} (h1 : s.OnlyMgr t) (h2 : t.OnlyMgr u) : s.OnlyMgr u := by
  unfold State.OnlyMgr at *
  rw [h2, h1]

theorem State.OnlySends.onlyMgr {s t : State} (h : s.OnlySends t) : s.OnlyMgr t := by
  unfold State.OnlySends at h
  unfold State.OnlyMgr
  rw [h]

theorem State.Directs.refl (s : State) : s.Directs s := ⟨.refl s, rfl, List.prefix_rfl, List.prefix_rfl, fun _ _ => rfl⟩

theorem State.Directs.trans {s t u : State} (h1 : s.Directs t) (h2 : t.Directs u) : s.Directs u where
  only := h1.only.trans h2.only
  fab := by rw [h2.fab, h1.fab]
  sent := h1.sent.trans h2.sent
  backlog := h1.backlog.trans h2.backlog
  regs o ho := (h2.regs o ho).trans (h1.regs o ho)

theorem State.Sends.directs {s t : State} (h : s.Sends t) : s.Directs t :=
  ⟨h.only.onlyMgr, h.fab, h.sent, h.backlog, h.regs⟩

theorem State.directs_modMgr (s : State) (f : Mgr → Mgr) : s.Directs (s.modMgr f) :=
  ⟨rfl, rfl, List.prefix_rfl, List.prefix_rfl, fun _ _ => rfl⟩

section
variable {s t : State} (h : s.Directs t)
include h

theorem State.Directs.parts : t.parts = s.parts := by rw [h.only]
theorem State.Directs.mem : t.mem = s.mem := by rw [h.only]
theorem State.Directs.events : t.events = s.events := by rw [h.only]
theorem State.Directs.node : t.fab.node = s.fab.node := by rw [h.fab]

end

theorem State.Raised.directs {s t u : State} {ev : BitVec 16} (h : s.Raised t ev) (h1 : t.Directs u) : s.Raised u ev :=
  h.congr h1.events fun o ho => h1.regs o (not_sendReg_of_eventReg ho)

/-! ## Mirror copies and books (R32, R34) -/

theorem State.sends_mirrors (s : State) (n : NodeId) (l : List Mirror) :
    s.Sends (l.foldl (fun (s : State) m => s.sendCtl n (.mirror m)) s) :=
  State.sends_foldl _ (fun s m => s.sends_sendCtl n (.mirror m) ctlTag) l s

/-- Mirror copies go to the candidate standby, where one is being copied to, and to the standby. -/
theorem State.directs_mirrorSend (s : State) (l : List Mirror) (a : AfterMirror) : s.Directs (s.mirrorSend l a) := by
  unfold State.mirrorSend
  extract_lets s1
  have h1 : s.Directs s1 := by
    unfold s1
    split
    · exact (s.sends_mirrors _ l).directs
    · exact .refl s
  split
  · exact h1
  · exact (h1.trans (s1.sends_mirrors _ l).directs).trans (State.directs_modMgr _ _)

/-- What waits for the standby's acknowledgements once mirror copies have gone out. -/
def State.mirrorsWith (s : State) (l : List Mirror) (a : AfterMirror) : List AfterMirror :=
  if s.stby.isSome then s.mgr.mirrors ++ List.replicate (l.length - 1) AfterMirror.nothing ++ [a] else s.mgr.mirrors

/-- Mirroring changes of the route keeper only what waits for the standby's acknowledgements. -/
theorem State.mgr_mirrorSend (s : State) (l : List Mirror) (a : AfterMirror) :
    (s.mirrorSend l a).mgr = { s.mgr with mirrors := s.mirrorsWith l a } := by
  unfold State.mirrorSend State.mirrorsWith
  extract_lets s1
  have h1 : s.Sends s1 := by
    unfold s1
    split
    · exact s.sends_mirrors _ l
    · exact .refl s
  have hst : s1.stby = s.stby := by
    rw [State.stby, State.stby, State.book, State.book, h1.mgr, h1.node]
  rw [hst]
  cases s.stby with
  | none => exact h1.mgr
  | some n =>
    dsimp only
    rw [State.modMgr, (s1.sends_mirrors n l).mgr, h1.mgr]
    rfl

theorem State.stby_mirrorSend (s : State) (l : List Mirror) (a : AfterMirror) : (s.mirrorSend l a).stby = s.stby := by
  rw [State.stby, State.stby, State.book, State.book, (s.directs_mirrorSend l a).node, State.mgr_mirrorSend]

/-- With no candidate being copied to, mirror copies go to the standby alone. -/
theorem State.mirrorSend_standby {s : State} {n : NodeId} (hc : s.mgr.copyStarted = false) (hs : s.stby = some n)
    (l : List Mirror) (a : AfterMirror) :
    s.mirrorSend l a = (l.foldl (fun (s : State) m => s.sendCtl n (.mirror m)) s).modMgr fun g =>
      { g with mirrors := g.mirrors ++ List.replicate (l.length - 1) AfterMirror.nothing ++ [a] } := by
  unfold State.mirrorSend
  simp only [hc, hs, Bool.false_eq_true, if_false]

/-- What waited for the standby waits on while there is a standby. -/
theorem State.mirrorOut_standby {s : State} {n : NodeId} (hs : s.stby = some n) (l : List Mirror) (a : AfterMirror) :
    s.mirrorOut l a = s.mirrorSend l a := by
  unfold State.mirrorOut
  dsimp only
  rw [State.stby_mirrorSend, hs]
  rfl

/-- Without a standby what would wait for it is done at once. -/
theorem State.mirrorOut_alone {s : State} (hs : s.stby = none) (l : List Mirror) (a : AfterMirror) :
    s.mirrorOut l a = (s.mirrorSend l a).afterMirror a := by
  unfold State.mirrorOut
  dsimp only
  rw [State.stby_mirrorSend, hs]
  rfl

/-- The nodes to which a book goes: all that have not failed (R32). -/
def State.bookNodes (s : State) (b : Book) : List NodeId :=
  (b.nodes.filter fun n => n.state ≠ .removed ∧ s.mgr.failedNodes.contains n.node = false).map (·.node)

theorem State.sends_books (s : State) (b : Book) (ns : List NodeId) :
    s.Sends (ns.foldl (fun s n => s.sendCtl n (.bookPart b)) s) :=
  State.sends_foldl _ (fun s n => s.sends_sendCtl n (.bookPart b) ctlTag) ns s

/-- The book to be installed is marked as sent, and goes to every node that has not failed. -/
theorem State.sendBook_eq {s : State} {x : Install} (h : s.mgr.install = some x) :
    s.sendBook = (s.bookNodes x.book).foldl (fun s n => s.sendCtl n (.bookPart x.book)) (s.modMgr fun g =>
      { g with install := some { x with sent := true, waiting := s.bookNodes x.book } }) := by
  unfold State.sendBook
  rw [h]
  rfl

theorem State.directs_sendBook (s : State) : s.Directs s.sendBook := by
  cases h : s.mgr.install with
  | none =>
    unfold State.sendBook
    rw [h]
    exact .refl s
  | some x =>
    rw [State.sendBook_eq h]
    exact (s.directs_modMgr _).trans (State.sends_books _ _ _).directs

theorem State.mgr_sendBook {s : State} {x : Install} (h : s.mgr.install = some x) :
    s.sendBook.mgr = { s.mgr with install := some { x with sent := true, waiting := s.bookNodes x.book } } := by
  rw [State.sendBook_eq h, (State.sends_books _ _ _).mgr]
  rfl

/-- A book to be mirrored: it goes out now, or once the standby has acknowledged it. -/
theorem State.directs_mirrorOut_install (s : State) (l : List Mirror) : s.Directs (s.mirrorOut l .install) := by
  unfold State.mirrorOut
  dsimp only
  split
  · exact (s.directs_mirrorSend l _).trans (State.directs_sendBook _)
  · exact s.directs_mirrorSend l _

/-- Of a book that is mirrored the route keeper notes which nodes it waits for, or that it waits for the standby. -/
theorem State.mgr_mirrorOut_install {s : State} {x : Install} (h : s.mgr.install = some x) (l : List Mirror) :
    ∃ y ms, (s.mirrorOut l .install).mgr = { s.mgr with install := some y, mirrors := ms } ∧ y.book = x.book := by
  cases hs : s.stby with
  | none =>
    have h1 : (s.mirrorSend l .install).mgr.install = some x := by rw [State.mgr_mirrorSend, h]
    rw [State.mirrorOut_alone hs]
    show ∃ y ms, (s.mirrorSend l .install).sendBook.mgr = _ ∧ _
    rw [State.mgr_sendBook h1, State.mgr_mirrorSend]
    exact ⟨_, _, rfl, rfl⟩
  | some n =>
    rw [State.mirrorOut_standby hs, State.mgr_mirrorSend]
    exact ⟨x, s.mirrorsWith l .install, by rw [← h], rfl⟩

/-! ## The book that is issued (R22, R32) -/

/-- The book that the manager makes of the one it is asked to issue: numbered one above the book before, with the nodes
that have joined or failed since. -/
def State.bookMade (s : State) (b : Book) : Book :=
  measured { markRemoved s.mgr.failedNodes (setsAllowed (addJoined s.mgr.waitingJoins b)) with
    epoch := match s.mgr.cur with | some c => c.epoch + 1 | none => 1
    mgr := s.fab.node
    issuedNs := s.now
    tclasses := (markRemoved s.mgr.failedNodes (setsAllowed (addJoined s.mgr.waitingJoins b))).tclasses.map
      (leaseIn ((s.mgr.cur.map (·.tclasses)).getD [])) }

/-- The manager with a book to be installed that no node has been sent yet. -/
def State.withInstall (s : State) (b : Book) : State :=
  s.modMgr fun g => { g with install := some { book := b, sent := false, waiting := [], busy := [] }, waitingJoins := [] }

/-- The manager issues a book of legal size while no install is in progress. -/
theorem State.issueBook_eq {s : State} {b : Book} (hm : s.isManager = true) (hi : s.mgr.install = none)
    (hb : b.bytes ≤ 262144) (hr : b.ranges.length ≤ 64) :
    s.issueBook b = (s.withInstall (s.bookMade b)).mirrorOut [.book (s.bookMade b)] .install := by
  unfold State.issueBook
  rw [if_neg (by rw [hm, hi]; simp; omega)]
  rfl

theorem State.directs_issueBook (s : State) (b : Book) : s.Directs (s.issueBook b) := by
  unfold State.issueBook
  split
  · exact .refl s
  · extract_lets e b1 before b2 s1
    exact (s.directs_modMgr _).trans (State.directs_mirrorOut_install _ _)

/-- Issuing a book notes the install, takes the joins that waited, and changes nothing else of the route keeper but what
waits for the standby. -/
theorem State.mgr_issueBook {s : State} {b : Book} (hm : s.isManager = true) (hi : s.mgr.install = none)
    (hb : b.bytes ≤ 262144) (hr : b.ranges.length ≤ 64) :
    ∃ y ms, (s.issueBook b).mgr = { s.mgr with install := some y, waitingJoins := [], mirrors := ms } ∧
      y.book = s.bookMade b := by
  rw [State.issueBook_eq hm hi hb hr]
  exact State.mgr_mirrorOut_install (s := s.withInstall (s.bookMade b)) rfl _

@[simp] theorem State.mgr_bookMade (s : State) (b : Book) : (s.bookMade b).mgr = s.fab.node := rfl
@[simp] theorem State.issuedNs_bookMade (s : State) (b : Book) : (s.bookMade b).issuedNs = s.now := rfl

theorem State.epoch_bookMade (s : State) (b : Book) : (s.bookMade b).epoch = (s.mgr.cur.map (·.epoch + 1)).getD 1 := by
  show (match s.mgr.cur with | some c => c.epoch + 1 | none => 1) = _
  cases s.mgr.cur <;> rfl

theorem State.bytes_bookMade_le (s : State) (b : Book) : (s.bookMade b).bytes ≤ 262144 :=
  Nat.le_of_lt_succ (Nat.mod_lt _ (by decide))

/-! ## The request table and the prompt logs -/

/-- What is put into a table in the place of its key is found there. -/
theorem find?_upsert {α κ : Type} [DecidableEq κ] (key : α → κ) (a : α) (l : List α) :
    ((if l.any fun x => decide (key x = key a) then l.map fun x => if key x = key a then a else x
      else l ++ [a]).find? fun x => decide (key x = key a)) = some a := by
  induction l with
  | nil => simp
  | cons b r ih =>
    by_cases hb : key b = key a
    · simp [hb]
    · by_cases hr : (r.any fun x => decide (key x = key a)) = true
      · rw [if_pos hr] at ih
        rw [if_pos (by simp only [List.any_cons, hr, Bool.or_true]), List.map_cons, if_neg hb, List.find?_cons_of_neg (by simp [hb])]
        exact ih
      · rw [if_neg hr] at ih
        rw [if_neg (by simp only [List.any_cons, hr, hb, decide_false, Bool.or_false]; decide), List.cons_append, List.find?_cons_of_neg (by simp [hb])]
        exact ih

theorem State.request_putRequest (s : State) (r : ReqRec) : (s.putRequest r).request r.id = some r :=
  find?_upsert ReqRec.id r s.mgr.requests

theorem State.logOf_putLog (s : State) (l : PromptLog) : (s.putLog l).logOf l.id = some l :=
  find?_upsert PromptLog.id l s.mgr.logs

end Sys2Proof.Machine
end

