-- ==== Sys2Proof/Proofs/Stores.lean ====
section
/-! SUPPORT. Writes of the state range: what they change besides the memories. -/

namespace Sys2Proof.Machine

/-- The registers of the 32 MUs, which count the accesses that wait (Table 8.3). -/
def memReg (o : Nat) : Prop := 0x200000 ≤ o ∧ o < 0x202000

/-- Accesses have reached the memories: what they hold, what waits at them, the marks of the tier manager and the counts of
the MUs may have changed, and nothing else. -/
structure State.Stores (s t : State) : Prop where
  only : t = { s with bar0 := t.bar0, mem := t.mem, tier := t.tier, mus := t.mus }
  regs : ∀ o, ¬ memReg o → t.reg o = s.reg o

theorem State.Stores.refl (s : State) : s.Stores s := ⟨rfl, fun _ _ => rfl⟩

theorem State.Stores.trans {s t u : State} (h1 : s.Stores t) (h2 : t.Stores u) : s.Stores u where
  only := by rw [h2.only, h1.only]
  regs o ho := (h2.regs o ho).trans (h1.regs o ho)

section
variable {s t : State} (h : s.Stores t)
include h

theorem State.Stores.parts : t.parts = s.parts := by rw [h.only]
theorem State.Stores.mgr : t.mgr = s.mgr := by rw [h.only]
theorem State.Stores.fab : t.fab = s.fab := by rw [h.only]
theorem State.Stores.events : t.events = s.events := by rw [h.only]
theorem State.Stores.host : t.host = s.host := by rw [h.only]
theorem State.Stores.freeCount : t.freeCount = s.freeCount := by rw [h.only]

end

theorem State.stores_mem (s : State) (m : Mem) : s.Stores { s with mem := m } := ⟨rfl, fun _ _ => rfl⟩
theorem State.stores_tier (s : State) (x : Tier) : s.Stores { s with tier := x } := ⟨rfl, fun _ _ => rfl⟩
theorem State.stores_setMu (s : State) (m : Nat) (x : Mu) : s.Stores (s.setMu m x) := ⟨rfl, fun _ _ => rfl⟩

theorem State.stores_setReg (s : State) {o : Nat} (w : Word) (h : memReg o) : s.Stores (s.setReg o w) where
  only := rfl
  regs o' ho := by
    rw [State.reg_setReg, if_neg]
    rintro rfl
    exact ho h

theorem State.stores_addReg (s : State) {o : Nat} (n : Nat) (h : memReg o) : s.Stores (s.addReg o n) :=
  s.stores_setReg _ h

theorem State.stores_foldl {α : Type} (f : State → α → State) (hf : ∀ (s : State) a, s.Stores (f s a)) (l : List α) :
    ∀ s : State, s.Stores (l.foldl f s) := by
  induction l with
  | nil => exact .refl
  | cons a r ih => exact fun s => (hf s a).trans (ih _)

/-! ## Accesses of an MU -/

theorem memReg_muBase {m o : Nat} (h : m < 32) (ho : o < 0x100) : memReg (muBase m + o) := by
  unfold memReg muBase
  omega

theorem State.stores_muDone (s : State) (m : Nat) : s.Stores (s.muDone m) := by
  unfold State.muDone
  split
  · exact .refl s
  · exact s.stores_setMu ..

theorem State.stores_serve (s : State) (m : Nat) (e : ParkEntry) : s.Stores (s.serve m e) := by
  unfold State.serve
  dsimp only
  split
  · exact s.stores_setMu ..
  · exact (s.stores_muDone m).trans (State.stores_mem ..)

section
variable {m : Nat} (hm : m < 32)
include hm

theorem State.stores_admitParked (s : State) : s.Stores (s.admitParked m) := by
  unfold State.admitParked
  exact ((s.stores_addReg _ (memReg_muBase hm (by omega))).trans
    (State.stores_addReg _ _ (memReg_muBase hm (by omega)))).trans (State.stores_setMu ..)

theorem State.stores_serveQueue (s : State) : s.Stores (s.serveQueue m) := by
  unfold State.serveQueue
  dsimp only
  refine State.Stores.trans (State.Stores.trans ?_ (State.stores_foldl _ (fun s e => s.stores_serve m e) _ _))
    (State.stores_admitParked hm _)
  split
  · exact s.stores_setMu ..
  · exact (s.stores_setReg _ (memReg_muBase hm (by omega))).trans (State.stores_setMu ..)

theorem State.stores_serveAll (s : State) : s.Stores (s.serveAll m) :=
  State.stores_foldl _ (fun s _ => s.stores_serveQueue hm) _ s

theorem State.stores_muAccess (s : State) (a : MuAccess) : s.Stores (s.muAccess m a) := by
  unfold State.muAccess
  extract_lets x new s1 s2
  have h1 : s.Stores s1 := (s.stores_setMu ..).trans (State.stores_admitParked hm _)
  split
  · split
    · exact h1.trans (State.stores_serveAll hm _)
    · exact h1
  · split
    · exact s.stores_setMu ..
    · exact (s.stores_muDone m).trans (State.stores_mem ..)

end

/-! ## Writes -/

/-- A page of the near tier lies behind one of the 32 MUs. -/
theorem State.unit_lt_of_translate {s : State} {job : Option Nat} {a : Nat} {pl : Place}
    (h : s.translate job a = .ok pl) (hfar : pl.far = false) : pl.unit < 32 := by
  unfold State.translate at h
  extract_lets e far d at h
  obtain ⟨-, h⟩ | ⟨hok, h⟩ := ite_eq_iff.mp h
  · cases h
  obtain ⟨-, h⟩ | ⟨-, h⟩ := ite_eq_iff.mp h
  · cases h
  obtain ⟨-, h⟩ | ⟨-, h⟩ := ite_eq_iff.mp h
  · cases h
  obtain rfl := Except.ok.inj h
  have hnear : far = false := hfar
  show d.1 < 32
  unfold d
  rw [hnear] at hok ⊢
  simp only [Bool.false_eq_true, if_false, not_or] at hok
  show eFrame e / 2048 < 32
  unfold nearFrames at hok
  omega

theorem State.stores_touch (s : State) (page : Nat) : s.Stores (s.touch page) := by
  unfold State.touch
  split
  · exact .refl s
  · exact s.stores_tier _

theorem State.stores_writeBlock (s : State) (a : Nat) {pl : Place} (h : pl.far = false → pl.unit < 32) (b : Bytes) :
    s.Stores (s.writeBlock a pl b) := by
  unfold State.writeBlock
  extract_lets s1
  have h1 : s.Stores s1 := s.stores_touch _
  split
  · exact h1.trans (State.stores_tier ..)
  · have h2 : s1.Stores (s1.markDirty pl.far pl.frame (a % 2 ^ 21 / 4096)) := s1.stores_tier _
    refine (h1.trans h2).trans ?_
    unfold State.placeWrite
    cases hf : pl.far with
    | true => exact State.stores_mem ..
    | false => exact State.stores_muAccess (h hf) _ _

theorem State.stores_writeBlocks (fuel : Nat) : ∀ (s : State) (job : Option Nat) (a : Nat) (b : Bytes),
    s.Stores (State.writeBlocks fuel s job a b) := by
  induction fuel with
  | zero => exact fun s _ _ _ => .refl s
  | succ n ih =>
    intro s job a b
    unfold State.writeBlocks
    split
    · exact .refl s
    · split
      · exact .refl s
      · next pl hpl => exact (s.stores_writeBlock a (State.unit_lt_of_translate hpl) _).trans (ih _ _ _ _)

theorem State.stores_stWrite (s : State) (job : Option Nat) (a : Nat) (b : Bytes) : s.Stores (s.stWrite job a b).2 := by
  unfold State.stWrite
  split
  · exact .refl s
  · exact State.stores_writeBlocks _ s job a b

/-- Writing a prompt log changes the memories alone. -/
theorem State.stores_storeLog (s : State) (l : PromptLog) (sr : Bytes) : s.Stores (s.storeLog l sr) :=
  s.stores_stWrite _ _ _

end Sys2Proof.Machine
end

