-- ==== Sys2Proof/Proofs/ManifestFields.lean ====
section
/-! SUPPORT. The fields of a manifest: what each reads after a write of another, and what sealing leaves. -/

namespace Sys2Proof.Machine

/-! ## The CRC (R59) -/

theorem take_leBytes : ∀ n k v, (leBytes (n + k) v).take n = leBytes n v
  | 0, _, _ => rfl
  | n + 1, k, v => by
    rw [Nat.add_right_comm]
    show BitVec.ofNat 8 v :: (leBytes (n + k) (v / 256)).take n = _
    rw [take_leBytes n k]
    rfl

theorem leBytes_mod : ∀ n v, leBytes n (v % 256 ^ n) = leBytes n v
  | 0, _ => rfl
  | n + 1, v => by
    have h1 : BitVec.ofNat 8 (v % 256 ^ (n + 1)) = BitVec.ofNat 8 v := by
      apply BitVec.eq_of_toNat_eq
      rw [BitVec.toNat_ofNat, BitVec.toNat_ofNat, pow_succ']
      exact Nat.mod_mod_of_dvd v (Dvd.intro _ rfl)
    have h2 : v % 256 ^ (n + 1) / 256 = v / 256 % 256 ^ n := by
      rw [pow_succ', Nat.mod_mul_right_div_self]
    show BitVec.ofNat 8 (v % 256 ^ (n + 1)) :: leBytes n (v % 256 ^ (n + 1) / 256) = _
    rw [h1, h2, leBytes_mod n]
    rfl

/-- The bytes that the CRC covers do not hold it. -/
theorem take_mBytes_mSeal (m : Manifest) : (mBytes (mSeal m)).take 60 = (mBytes m).take 60 := by
  have hlow : (wordBytes (setFld m.w7 63 32 (mCrcCalc m).toNat)).take 4 = (wordBytes m.w7).take 4 := by
    have hw := congrArg BitVec.toNat (setWidth_setFld (m := 32) m.w7 63 32 (mCrcCalc m).toNat (by omega))
    rw [BitVec.toNat_setWidth, BitVec.toNat_setWidth] at hw
    rw [wordBytes, wordBytes, take_leBytes 4 4, take_leBytes 4 4, ← leBytes_mod, ← leBytes_mod 4 m.w7.toNat]
    exact congrArg (leBytes 4) hw
  have hsplit : ∀ x : Manifest, (mBytes x).take 60 = (wordBytes x.w0 ++ wordBytes x.w1 ++ wordBytes x.w2 ++ wordBytes x.w3 ++
      wordBytes x.w4 ++ wordBytes x.w5 ++ wordBytes x.w6) ++ (wordBytes x.w7).take 4 := by
    intro x
    rw [mBytes, List.take_append, List.take_of_length_le (by simp [length_wordBytes])]
    simp [length_wordBytes]
  rw [hsplit, hsplit]
  exact congrArg _ hlow

/-- A sealed manifest passes its CRC. -/
@[simp] theorem mCrcOk_mSeal (m : Manifest) : mCrcOk (mSeal m) = true := by
  have h : mCrc (mSeal m) = (mCrcCalc m).toNat := by
    show fld (setFld m.w7 63 32 (mCrcCalc m).toNat) 63 32 = _
    rw [fld_setFld_same _ _ _ _ (by omega)]
    exact Nat.mod_eq_of_lt (mCrcCalc m).isLt
  rw [mCrcOk, h, mCrcCalc, mCrcCalc, take_mBytes_mSeal]
  exact decide_eq_true rfl

@[simp] theorem mCrcOk_mWithPhase (m : Manifest) (ph : Nat) (e : BitVec 16) : mCrcOk (mWithPhase m ph e) = true :=
  mCrcOk_mSeal _

@[simp] theorem mCrcOk_mWithFlag (m : Manifest) (i : Nat) (v : Bool) : mCrcOk (mWithFlag m i v) = true :=
  mCrcOk_mSeal _

/-! ## Phase and epoch -/

section
variable (m : Manifest) (ph : Nat) (e : BitVec 16)

@[simp] theorem mPhase_mWithPhase : mPhase (mWithPhase m ph e) = ph % 16 := by
  show fld (setFld (setFld m.w1 19 16 ph) 15 0 e.toNat) 19 16 = _
  rw [fld_setFld_apart _ _ _ _ _ _ (by omega), fld_setFld_same _ _ _ _ (by omega)]
  rfl

@[simp] theorem mHops_mWithPhase : mHops (mWithPhase m ph e) = mHops m := by
  show fld (setFld (setFld m.w1 19 16 ph) 15 0 e.toNat) 25 20 = _
  rw [fld_setFld_apart _ _ _ _ _ _ (by omega), fld_setFld_apart _ _ _ _ _ _ (by omega)]
  rfl

@[simp] theorem mFlag_mWithPhase (i : Nat) : mFlag (mWithPhase m ph e) i = mFlag m i := rfl
@[simp] theorem mNextPos_mWithPhase : mNextPos (mWithPhase m ph e) = mNextPos m := rfl
@[simp] theorem mReqId_mWithPhase : mReqId (mWithPhase m ph e) = mReqId m := rfl
@[simp] theorem mCacheSet_mWithPhase : mCacheSet (mWithPhase m ph e) = mCacheSet m := rfl
@[simp] theorem w0_mWithPhase : (mWithPhase m ph e).w0 = m.w0 := rfl
@[simp] theorem w2_mWithPhase : (mWithPhase m ph e).w2 = m.w2 := rfl
@[simp] theorem w3_mWithPhase : (mWithPhase m ph e).w3 = m.w3 := rfl
@[simp] theorem w4_mWithPhase : (mWithPhase m ph e).w4 = m.w4 := rfl

end

/-! ## Flags (Table 2.4) -/

section
variable (m : Manifest) (i : Nat) (v : Bool)

@[simp] theorem mFlag_mWithFlag_same (h : i < 16) : mFlag (mWithFlag m i v) i = v :=
  bitOf_setFld_same m.w2 (44 + i) v (by omega)

theorem mFlag_mWithFlag_apart {j : Nat} (h : j ≠ i) : mFlag (mWithFlag m i v) j = mFlag m j :=
  bitOf_setFld_apart m.w2 _ _ _ _ (by omega)

@[simp] theorem w0_mWithFlag : (mWithFlag m i v).w0 = m.w0 := rfl
@[simp] theorem w1_mWithFlag : (mWithFlag m i v).w1 = m.w1 := rfl
@[simp] theorem w3_mWithFlag : (mWithFlag m i v).w3 = m.w3 := rfl
@[simp] theorem w4_mWithFlag : (mWithFlag m i v).w4 = m.w4 := rfl
@[simp] theorem mPhase_mWithFlag : mPhase (mWithFlag m i v) = mPhase m := rfl

end

/-- The words but the one of the flags stand as sticky flags are taken over (R56). -/
theorem words_mMerge (m n : Manifest) :
    (mMerge m n).w0 = m.w0 ∧ (mMerge m n).w1 = m.w1 ∧ (mMerge m n).w3 = m.w3 ∧ (mMerge m n).w4 = m.w4 := by
  unfold mMerge
  generalize (List.range 16).filter _ = l
  induction l generalizing m with
  | nil => exact ⟨rfl, rfl, rfl, rfl⟩
  | cons i r ih =>
    obtain ⟨h0, h1, h3, h4⟩ := ih (mWithFlag m i true)
    exact ⟨h0, h1, h3, h4⟩

@[simp] theorem mPhase_mMerge (m n : Manifest) : mPhase (mMerge m n) = mPhase m := by
  rw [mPhase, mPhase, (words_mMerge m n).2.1]

@[simp] theorem mReqId_mMerge (m n : Manifest) : mReqId (mMerge m n) = mReqId m := by
  rw [mReqId, mReqId, (words_mMerge m n).1]

end Sys2Proof.Machine
end

