-- ==== Sys2Proof/Proofs/Requests.lean ====
section
/-! SUPPORT. What the manager does with its requests: it launches, admits and ends them. -/

namespace Sys2Proof.Machine

/-! ## Frames of any type -/

/-- Frames of any type have been sent: registers, the fabric, its ports and the meters have changed, and nothing else. -/
def State.OnlyTraffic (s t : State) : Prop :=
  t = { s with bar0 := t.bar0, fab := t.fab, ports := t.ports, meter := t.meter }

theorem State.OnlyTraffic.trans {s t u : State} (h1 : s.OnlyTraffic t) (h2 : t.OnlyTraffic u) : s.OnlyTraffic u := by
  unfold State.OnlyTraffic at *
  rw [h2, h1]

theorem State.OnlySends.onlyTraffic {s t : State} (h : s.OnlySends t) : s.OnlyTraffic t := by
  unfold State.OnlySends at h
  unfold State.OnlyTraffic
  rw [h]

section
variable {s t : State} (h : s.OnlyTraffic t)
include h

theorem State.OnlyTraffic.parts : t.parts = s.parts := by rw [h]
theorem State.OnlyTraffic.mem : t.mem = s.mem := by rw [h]
theorem State.OnlyTraffic.mgr : t.mgr = s.mgr := by rw [h]
theorem State.OnlyTraffic.host : t.host = s.host := by rw [h]

end

theorem State.onlyTraffic_meterAdd (s : State) (tenant kind n : Nat) : s.OnlyTraffic (s.meterAdd tenant kind n) := by
  unfold State.meterAdd
  split <;> rfl

theorem State.onlyTraffic_chargeSend (s : State) (f : Frame) : s.OnlyTraffic (s.chargeSend f) := by
  have hshare : ∀ n, s.OnlyTraffic (s.chargeBytes (tagShare f.hdr.tag) n) := fun _ => rfl
  unfold State.chargeSend
  dsimp only
  split
  · unfold State.chargeFrame
    dsimp only
    split
    · exact hshare _
    · exact (hshare _).trans (State.onlyTraffic_meterAdd ..)
  · split
    · rfl
    · exact hshare _

/-- Sending a frame of any type. -/
theorem State.onlyTraffic_sendSeq (s : State) (f : Frame) (o : Option (PartId × Nat × Nat)) (pl : Nat) :
    s.OnlyTraffic (s.sendSeq f o pl) := by
  unfold State.sendSeq State.sendNow
  dsimp only
  split
  · refine (State.OnlyTraffic.trans (t := s.modFab _) ?_ (State.onlyTraffic_chargeSend _ f)).trans
      (State.sends_keepAndSend _ _).only.onlyTraffic
    rfl
  · rfl

/-! ## Entries of the tables -/

/-- What stands in a table under another key stands as an entry is put into it. -/
theorem find?_upsert_apart {α κ : Type} [DecidableEq κ] (key : α → κ) (a : α) {k : κ} (hk : k ≠ key a) (l : List α) :
    ((if l.any fun x => decide (key x = key a) then l.map fun x => if key x = key a then a else x
      else l ++ [a]).find? fun x => decide (key x = k)) = l.find? fun x => decide (key x = k) := by
  have hmap : ∀ l : List α, ((l.map fun x => if key x = key a then a else x).find? fun x => decide (key x = k)) =
      l.find? fun x => decide (key x = k) := by
    intro l
    induction l with
    | nil => rfl
    | cons b r ih =>
      rw [List.map_cons]
      by_cases hb : key b = key a
      · rw [if_pos hb, List.find?_cons_of_neg (by simpa using hk.symm),
          List.find?_cons_of_neg (by simpa [hb] using hk.symm), ih]
      · rw [if_neg hb, List.find?_cons, List.find?_cons, ih]
  split
  · exact hmap l
  · rw [List.find?_append, List.find?_cons_of_neg (by simpa using hk.symm), List.find?_nil, Option.or_none]

theorem State.request_putRequest_apart (s : State) (r : ReqRec) {id : ReqId} (h : id ≠ r.id) :
    (s.putRequest r).request id = s.request id := find?_upsert_apart ReqRec.id r h s.mgr.requests

theorem State.id_of_request {s : State} {id : ReqId} {r : ReqRec} (h : s.request id = some r) : r.id = id := by
  simpa using List.find?_some h

theorem State.id_of_logOf {s : State} {id : ReqId} {l : PromptLog} (h : s.logOf id = some l) : l.id = id := by
  simpa using List.find?_some h

/-! ## Launching a request (R15, R19) -/

/-- A request record as launching and acknowledging it leave it: its manifest stands, or is stamped anew with the hops. -/
def Relaunched (r r' : ReqRec) : Prop :=
  r' = { r with mft := r'.mft, base := r'.base, acked := r'.acked } ∧
    (r'.mft = r.mft ∨ ∃ h e, r'.mft = mWithPhase { r.mft with w1 := setFld r.mft.w1 25 20 h } r.phase.toNat e)

/-- Launching leaves every word of the manifest but those of the phase and the CRC, and a sealed manifest sealed. -/
theorem Relaunched.words {r r' : ReqRec} (h : Relaunched r r') : r'.mft.w0 = r.mft.w0 ∧ r'.mft.w2 = r.mft.w2 ∧
    r'.mft.w3 = r.mft.w3 ∧ r'.mft.w4 = r.mft.w4 ∧ (mPhase r.mft = r.phase.toNat → mPhase r'.mft = r.phase.toNat) ∧
    (mCrcOk r.mft = true → mCrcOk r'.mft = true) := by
  obtain ⟨-, hm | ⟨hops, e, hm⟩⟩ := h
  · rw [hm]
    exact ⟨rfl, rfl, rfl, rfl, id, id⟩
  · rw [hm]
    exact ⟨rfl, rfl, rfl, rfl, fun _ => (mPhase_mWithPhase ..).trans (Nat.mod_eq_of_lt r.phase.isLt),
      fun _ => mCrcOk_mWithPhase ..⟩

/-- The request under an id is as launched; the logs, the id counter and the partitions stand. -/
def State.Launched (s t : State) (id : ReqId) (r : ReqRec) : Prop :=
  (∃ r', t.request id = some r' ∧ Relaunched r r') ∧ t.mgr.logs = s.mgr.logs ∧ t.mgr.nextId = s.mgr.nextId ∧
    t.parts = s.parts

/-- A request below the hop limit is launched, or waits for a target. -/
theorem State.launched_launch {s : State} {id : ReqId} {r : ReqRec} {l : PromptLog} (hr : s.request id = some r)
    (hl : s.logOf id = some l) (hh : mHops r.mft < s.regFld 0x2000 5 0) (avoid : List NodeId) :
    s.Launched (s.launch id avoid) id r := by
  have hid := State.id_of_request hr
  unfold State.launch
  simp only [hr, hl]
  rw [if_neg (by rw [State.regFld, State.modMgr_reg]; exact Nat.not_le.mpr hh)]
  split
  · next u h =>
    obtain rfl := congrArg Prod.snd h
    exact ⟨⟨r, hr, rfl, .inl rfl⟩, rfl, rfl, rfl⟩
  · next n p u h =>
    have hu : u.mgr.logs = s.mgr.logs ∧ u.mgr.nextId = s.mgr.nextId ∧ u.parts = s.parts := by
      have hu : (_ : State) = u := congrArg Prod.snd h
      rw [← hu]
      exact ⟨rfl, rfl, rfl⟩
    obtain ⟨hlogs, hnext, hparts⟩ := hu
    generalize hr1 : ({ r with mft := _, base := _ } : ReqRec) = r1
    have hrel : Relaunched r r1 := by
      rw [← hr1]
      exact ⟨rfl, .inr ⟨_, _, rfl⟩⟩
    have hid1 : r1.id = id := by
      rw [hrel.1]
      exact hid
    generalize hv : (u.putRequest r1).modMgr _ = v
    generalize State.placedFrame _ _ _ _ _ _ _ _ _ _ = f
    have htraffic := v.onlyTraffic_sendSeq f none 0
    refine ⟨⟨r1, ?_, hrel⟩, ?_, ?_, ?_⟩
    · rw [State.request, htraffic.mgr, ← hv, ← hid1]
      exact u.request_putRequest r1
    · rw [htraffic.mgr, ← hv]
      exact hlogs
    · rw [htraffic.mgr, ← hv]
      exact hnext
    · rw [htraffic.parts, ← hv]
      exact hparts

/-! ## Admissions that the standby has acknowledged (R34, R38) -/

theorem State.OnlyTraffic.launched {s t u : State} {id : ReqId} {r : ReqRec} (h : s.Launched t id r)
    (h1 : t.OnlyTraffic u) : s.Launched u id r := by
  obtain ⟨⟨r', hr', hrel⟩, hlogs, hnext, hparts⟩ := h
  exact ⟨⟨r', by rw [State.request, h1.mgr]; exact hr', hrel⟩, by rw [h1.mgr, hlogs], by rw [h1.mgr, hnext],
    by rw [h1.parts, hparts]⟩

theorem Relaunched.trans {r r1 r2 : ReqRec} (h1 : Relaunched r r1) (hm : r1.mft = r.mft) (h2 : Relaunched r1 r2) :
    Relaunched r r2 := by
  obtain ⟨e1, -⟩ := h1
  obtain ⟨e2, h⟩ := h2
  have hph : r1.phase = r.phase := by rw [e1]
  refine ⟨by rw [e2, e1], ?_⟩
  rw [hm, hph] at h
  exact h

/-- A host has been told: notes of this node's host, or frames sent. -/
structure State.Tells (s t : State) : Prop where
  only : t = { s with host := t.host, bar0 := t.bar0, fab := t.fab, ports := t.ports }
  regs : ∀ o, ¬ sendReg o → t.reg o = s.reg o

theorem State.Sends.tells {s t : State} (h : s.Sends t) : s.Tells t where
  only := by rw [h.only]
  regs := h.regs

theorem State.tells_tellHost (s : State) (n : NodeId) (x : HostNote) : s.Tells (s.tellHost n x) := by
  unfold State.tellHost
  split
  · exact ⟨rfl, fun _ _ => rfl⟩
  · split <;> exact (s.sends_sendCtl ..).tells

/-- An admission acknowledged: its record says so, and its manifest, the logs and the partitions stand. -/
theorem State.ackAdmission_spec {s : State} {id : ReqId} {r : ReqRec} (hr : s.request id = some r) :
    (∃ r', (s.ackAdmission id).request id = some r' ∧ r' = { r with acked := true }) ∧
      (s.ackAdmission id).mgr.logs = s.mgr.logs ∧ (s.ackAdmission id).mgr.nextId = s.mgr.nextId ∧
      (s.ackAdmission id).parts = s.parts ∧ (s.ackAdmission id).mem = s.mem ∧
      (∀ o, ¬ sendReg o → (s.ackAdmission id).reg o = s.reg o) := by
  have hid := State.id_of_request hr
  unfold State.ackAdmission
  rw [hr]
  dsimp only
  split
  · next hack => exact ⟨⟨r, hr, by rw [← hack]⟩, rfl, rfl, rfl, rfl, fun _ _ => rfl⟩
  · generalize hr1 : ({ r with acked := true } : ReqRec) = r1
    have hid1 : r1.id = id := by rw [← hr1]; exact hid
    obtain ⟨honly, hregs⟩ := (s.putRequest r1).tells_tellHost r.host (.admitted id)
    generalize hv : (s.putRequest r1).tellHost r.host (.admitted id) = v at honly hregs
    have hmgr : v.mgr = (s.putRequest r1).mgr := by rw [honly]
    have hdir := v.directs_mirrorSend [.request r1] .nothing
    have hm := v.mgr_mirrorSend [.request r1] .nothing
    refine ⟨⟨r1, ?_, rfl⟩, ?_, ?_, ?_, ?_, fun o ho => ?_⟩
    · rw [State.request, hm, hmgr, ← hid1]
      exact s.request_putRequest r1
    · rw [hm, hmgr]
      rfl
    · rw [hm, hmgr]
      rfl
    · rw [hdir.parts, honly]
      rfl
    · rw [hdir.mem, honly]
      rfl
    · rw [hdir.regs o ho, hregs o ho]
      rfl

/-- A request that has been mirrored is as admitted, whether or not a standby still has to acknowledge it. -/
theorem State.launched_mirrorOut {s : State} {r : ReqRec} {l : PromptLog} (hr : s.request r.id = some r)
    (hl : s.logOf r.id = some l) (hh : mHops r.mft < s.regFld 0x2000 5 0) (ms : List Mirror) :
    s.Launched (s.mirrorOut ms (.admitted r)) r.id r := by
  have hdir := s.directs_mirrorSend ms (.admitted r)
  have hm := s.mgr_mirrorSend ms (.admitted r)
  have hr' : (s.mirrorSend ms (.admitted r)).request r.id = some r := by rw [State.request, hm]; exact hr
  cases hs : s.stby with
  | some n =>
    rw [State.mirrorOut_standby hs]
    exact ⟨⟨r, hr', rfl, .inl rfl⟩, by rw [hm], by rw [hm], hdir.parts⟩
  | none =>
    rw [State.mirrorOut_alone hs]
    show s.Launched (((s.mirrorSend ms (.admitted r)).ackAdmission r.id).launch r.id []) r.id r
    generalize s.mirrorSend ms (.admitted r) = v at hdir hm hr'
    obtain ⟨⟨r1, hr1, hack⟩, hlogs, hnext, hparts, -, hregs⟩ := State.ackAdmission_spec hr'
    have hl1 : (v.ackAdmission r.id).logOf r.id = some l := by
      rw [State.logOf, hlogs, hm]
      exact hl
    have hmft : r1.mft = r.mft := by rw [hack]
    have hreg : (v.ackAdmission r.id).regFld 0x2000 5 0 = s.regFld 0x2000 5 0 := by
      rw [State.regFld, hregs _ (by unfold sendReg; omega), hdir.regs _ (by unfold sendReg; omega), State.regFld]
    obtain ⟨⟨r2, hr2, hrel⟩, hlogs2, hnext2, hparts2⟩ :=
      State.launched_launch hr1 hl1 (by rw [hreg, hmft]; exact hh) []
    have hrel1 : Relaunched r r1 := ⟨by rw [hack], .inl hmft⟩
    exact ⟨⟨r2, hr2, hrel1.trans hmft hrel⟩, by rw [hlogs2, hlogs, hm], by rw [hnext2, hnext, hm],
      by rw [hparts2, hparts, hdir.parts]⟩

/-- A request entered with its prompt log, which is written to memory too. -/
def State.entered (s : State) (l : PromptLog) (r : ReqRec) : State := ((s.putLog l).storeLog l l.sampler).putRequest r

theorem State.entered_spec (s : State) (l : PromptLog) (r : ReqRec) :
    (s.entered l r).request r.id = some r ∧ (s.entered l r).logOf l.id = some l ∧ (s.entered l r).parts = s.parts ∧
      (s.entered l r).mgr.nextId = s.mgr.nextId ∧ (s.entered l r).regFld 0x2000 5 0 = s.regFld 0x2000 5 0 ∧
      (s.entered l r).stby = s.stby := by
  have hst := (s.putLog l).stores_storeLog l l.sampler
  refine ⟨State.request_putRequest _ r, ?_, hst.parts, ?_, ?_, ?_⟩
  · show ((s.putLog l).storeLog l l.sampler).mgr.logs.find? _ = _
    rw [hst.mgr]
    exact s.logOf_putLog l
  · show ((s.putLog l).storeLog l l.sampler).mgr.nextId = _
    rw [hst.mgr]
    rfl
  · show ((s.putLog l).storeLog l l.sampler).regFld 0x2000 5 0 = _
    rw [State.regFld, hst.regs _ (by unfold memReg; omega)]
    rfl
  · show (((s.putLog l).storeLog l l.sampler).mgr.cur.bind (·.stby)).filter
      (fun n => n ≠ ((s.putLog l).storeLog l l.sampler).fab.node) = _
    rw [hst.mgr, hst.fab]
    rfl

/-- What is mirrored to a standby waits for it, and the request is in the table as it was. -/
theorem State.mirrorOut_waiting {s : State} {n : NodeId} {r : ReqRec} (hs : s.stby = some n) (hr : s.request r.id = some r)
    (ms : List Mirror) : (s.mirrorOut ms (.admitted r)).request r.id = some r ∧
      (s.mirrorOut ms (.admitted r)).mgr.mirrors.getLast? = some (.admitted r) ∧
      (s.mirrorOut ms (.admitted r)).mgr.logs = s.mgr.logs ∧
      (s.mirrorOut ms (.admitted r)).mgr.nextId = s.mgr.nextId ∧
      (s.mirrorOut ms (.admitted r)).parts = s.parts := by
  have hm := s.mgr_mirrorSend ms (.admitted r)
  rw [State.mirrorOut_standby hs]
  refine ⟨by rw [State.request, hm]; exact hr, ?_, by rw [hm], by rw [hm], (s.directs_mirrorSend ms _).parts⟩
  rw [hm, State.mirrorsWith, if_pos (by rw [hs]; rfl)]
  exact List.getLast?_concat ..

/-! ## The end of a request (R18, R407) -/

/-- A count of an outcome rises where the outcome is so. -/
def State.countIf (s : State) (i : Nat) (b : Bool) : State := if b then s.addReg (0x708080 + 8 * i) 1 else s

theorem State.countIf_only (s : State) (i : Nat) (b : Bool) : s.countIf i b = { s with bar0 := (s.countIf i b).bar0 } := by
  unfold State.countIf
  split <;> rfl

theorem State.reg_countIf (s : State) (i : Nat) (b : Bool) (o : Nat) :
    (s.countIf i b).reg o = if o = 0x708080 + 8 * i ∧ b = true then s.reg o + 1 else s.reg o := by
  unfold State.countIf
  cases b with
  | false => simp
  | true =>
    rw [if_pos rfl, State.reg_addReg]
    by_cases h : o = 0x708080 + 8 * i
    · rw [if_pos h, if_pos ⟨h, rfl⟩, h]
      rfl
    · rw [if_neg h, if_neg fun h' => h h'.1]

/-- The outcomes of a final manifest, counted: the flags that it or the manager's own copy has, and its phase. -/
def State.countFinal (s : State) (m : Manifest) : State :=
  let flag := fun i => mFlag m i || (s.request (mReqId m)).any fun r => mFlag r.mft i
  (((((s.countIf 0 (flag flReconstructed)).countIf 1 (flag flStateLost)).countIf 2 (flag flRecomputed)).countIf 3
    (flag flWidened)).countIf 4 (decide (mPhase m = Ph.failed))).countIf 5 (decide (mPhase m = Ph.cancelled))

theorem State.countFinal_only (s : State) (m : Manifest) :
    s.countFinal m = { s with bar0 := (s.countFinal m).bar0 } := by
  have hstep : ∀ (u : State) i b, u = { s with bar0 := u.bar0 } →
      u.countIf i b = { s with bar0 := (u.countIf i b).bar0 } := by
    intro u i b hu
    refine (u.countIf_only i b).trans ?_
    rw [hu]
  exact hstep _ _ _ (hstep _ _ _ (hstep _ _ _ (hstep _ _ _ (hstep _ _ _ (hstep _ _ _ rfl)))))

theorem State.reg_countFinal (s : State) (m : Manifest) :
    (s.countFinal m).reg 0x7080A0 = s.reg 0x7080A0 + (if mPhase m = Ph.failed then 1 else 0) ∧
      (s.countFinal m).reg 0x7080A8 = s.reg 0x7080A8 + (if mPhase m = Ph.cancelled then 1 else 0) ∧
      s.RegsBut (s.countFinal m) [0x708080, 0x708088, 0x708090, 0x708098, 0x7080A0, 0x7080A8] := by
  unfold State.countFinal
  extract_lets flag
  simp only [State.reg_countIf]
  refine ⟨?_, ?_, fun o ho => ?_⟩
  · by_cases h : mPhase m = Ph.failed <;> simp [h]
  · by_cases h : mPhase m = Ph.cancelled <;> simp [h]
  · simp only [List.mem_cons, List.not_mem_nil, or_false, not_or] at ho
    obtain ⟨h0, h1, h2, h3, h4, h5⟩ := ho
    simp only [State.reg_countIf]
    rw [if_neg fun h => h5 h.1, if_neg fun h => h4 h.1, if_neg fun h => h3 h.1, if_neg fun h => h2 h.1,
      if_neg fun h => h1 h.1, if_neg fun h => h0 h.1]

/-- The prompt log of the request is freed, and what the manager sends of it stops. -/
def State.freeLog (s : State) (id : ReqId) : State :=
  s.modMgr fun g => { g with logs := g.logs.filter (fun l => l.id ≠ id), sends := g.sends.filter fun x => x.id ≠ id }

theorem State.finalAt_eq {s : State} (hm : s.isManager = true) (m : Manifest) :
    s.finalAt m = match s.request (mReqId m) with
      | some r => ((s.countFinal m).freeLog (mReqId m)).putRequest { r with phase := BitVec.ofNat 4 (mPhase m), mft := mMerge m r.mft }
      | none => (s.countFinal m).freeLog (mReqId m) := by
  unfold State.finalAt
  rw [if_neg (by rw [hm]; decide)]
  rfl

theorem State.mgr_countFinal (s : State) (m : Manifest) : (s.countFinal m).mgr = s.mgr := by rw [State.countFinal_only]

theorem State.request_countFinal (s : State) (m : Manifest) (id : ReqId) :
    ((s.countFinal m).freeLog (mReqId m)).request id = s.request id := by
  show (s.countFinal m).mgr.requests.find? _ = _
  rw [s.mgr_countFinal]
  rfl

theorem State.logOf_countFinal (s : State) (m : Manifest) (id : ReqId) :
    ((s.countFinal m).freeLog (mReqId m)).logOf id = if id = mReqId m then none else s.logOf id := by
  show ((s.countFinal m).mgr.logs.filter fun l => l.id ≠ mReqId m).find? (fun l => decide (l.id = id)) = _
  rw [s.mgr_countFinal, List.find?_filter]
  split
  · next h =>
    rw [List.find?_eq_none]
    intro l _
    simp [h]
  · next h =>
    refine List.find?_congr fun l _ => ?_
    by_cases hl : l.id = id
    · simp [hl, h]
    · simp [hl]

/-- A final manifest ends the request in the table, frees its log, and counts its outcome. -/
theorem State.finalAt_spec {s : State} (hm : s.isManager = true) (m : Manifest) :
    (s.finalAt m).request (mReqId m) = (s.request (mReqId m)).map (fun r =>
        { r with phase := BitVec.ofNat 4 (mPhase m), mft := mMerge m r.mft }) ∧
      (∀ id, id ≠ mReqId m → (s.finalAt m).request id = s.request id) ∧
      (∀ id, (s.finalAt m).logOf id = if id = mReqId m then none else s.logOf id) ∧
      s.finalAt m = { s with mgr := (s.finalAt m).mgr, bar0 := (s.countFinal m).bar0 } ∧
      (s.finalAt m).mgr = { s.mgr with requests := (s.finalAt m).mgr.requests, logs := (s.finalAt m).mgr.logs,
                                       sends := (s.finalAt m).mgr.sends } := by
  have hreq := s.request_countFinal m
  have hlog := s.logOf_countFinal m
  have honly := s.countFinal_only m
  rw [State.finalAt_eq hm]
  generalize s.countFinal m = v at hreq hlog honly
  have hfree : ∀ f : Mgr → Mgr, v.modMgr f = { s with mgr := f s.mgr, bar0 := v.bar0 } := by
    intro f
    rw [honly]
    rfl
  cases hr : s.request (mReqId m) with
  | none =>
    refine ⟨(hreq _).trans (by rw [hr]; rfl), fun id _ => hreq id, hlog, ?_, ?_⟩
    · dsimp only
      rw [State.freeLog, hfree]
    · dsimp only
      rw [State.freeLog, hfree]
  | some r =>
    have hid := State.id_of_request hr
    dsimp only
    refine ⟨?_, fun id h => ?_, hlog, ?_, ?_⟩
    · generalize hr1 : ({ r with phase := _, mft := _ } : ReqRec) = r1
      have hid1 : r1.id = mReqId m := by rw [← hr1]; exact hid
      rw [← hid1, State.request_putRequest, Option.map_some, hr1]
    · rw [State.request_putRequest_apart _ _ (by rw [hid]; exact h), hreq]
    · rw [State.freeLog, hfree]
      rfl
    · rw [State.freeLog, hfree]
      rfl

end Sys2Proof.Machine
end

