-- ==== Sys2Proof/Proofs/Closing.lean ====
section
/-! SUPPORT. The end of a request at its owner: what freeing its pages and telling the manager leave alone. -/

namespace Sys2Proof.Machine

/-- No partition, no register of one and nothing of the route keeper has changed, and frames on their way stay so. -/
structure State.Aside (s t : State) : Prop where
  parts : t.parts = s.parts
  mgr : t.mgr = s.mgr
  node : t.fab.node = s.fab.node
  sent : s.fab.sent <+: t.fab.sent
  backlog : s.fab.backlog <+: t.fab.backlog
  regs : ∀ o, 0x100000 ≤ o → o < 0x200000 → t.reg o = s.reg o

theorem State.Aside.refl (s : State) : s.Aside s := ⟨rfl, rfl, rfl, List.prefix_rfl, List.prefix_rfl, fun _ _ _ => rfl⟩

theorem State.Aside.trans {s t u : State} (h1 : s.Aside t) (h2 : t.Aside u) : s.Aside u where
  parts := h2.parts.trans h1.parts
  mgr := h2.mgr.trans h1.mgr
  node := h2.node.trans h1.node
  sent := h1.sent.trans h2.sent
  backlog := h1.backlog.trans h2.backlog
  regs o h h' := (h2.regs o h h').trans (h1.regs o h h')

section
variable {s t : State} (h : s.Aside t)
include h

theorem State.Aside.part (p : PartId) : t.part p = s.part p := congrArg (fun v : Vector Part 16 => v[p]) h.parts
theorem State.Aside.drv (p : PartId) : t.drv p = s.drv p := by rw [State.drv, State.drv, h.part]
theorem State.Aside.slot (p : PartId) (k : Nat) : t.slot p k = s.slot p k := by rw [State.slot, State.slot, h.part]
theorem State.Aside.mgrNode : t.mgrNode = s.mgrNode := by rw [State.mgrNode, State.mgrNode, State.book, State.book, h.mgr]
theorem State.Aside.epoch : t.epoch = s.epoch := by rw [State.epoch, State.epoch, h.mgr]
theorem State.Aside.outgoingOf (p : PartId) (k : Nat) : t.outgoingOf p k = s.outgoingOf p k := by
  rw [State.outgoingOf, State.outgoingOf, h.part]

theorem State.Aside.regPart (p : PartId) {o : Nat} (ho : o < 0x10000) : t.reg (ptBase p + o) = s.reg (ptBase p + o) :=
  h.regs _ (by unfold ptBase; omega) (by have := p.isLt; unfold ptBase; omega)

theorem State.Aside.mftBase (p : PartId) : t.mftBase p = s.mftBase p := by
  rw [State.mftBase, State.mftBase, State.regFld, State.regFld, h.regPart p (by decide)]

theorem State.Aside.manifest (p : PartId) (k : Nat) : t.manifest p k = s.manifest p k := by
  rw [State.manifest, State.manifest, State.hsRead, State.hsRead, h.part, h.mftBase]

theorem State.Aside.posted {n : NodeId} {c : Ctl} (hp : s.Posted n c) : t.Posted n c := hp.mono h.sent h.backlog

end

theorem State.Stores.aside {s t : State} (h : s.Stores t) : s.Aside t where
  parts := h.parts
  mgr := h.mgr
  node := by rw [h.fab]
  sent := by rw [h.fab]
  backlog := by rw [h.fab]
  regs o h1 h2 := h.regs o (by unfold memReg; omega)

theorem State.Sends.aside {s t : State} (h : s.Sends t) : s.Aside t where
  parts := h.parts
  mgr := h.mgr
  node := h.node
  sent := h.sent
  backlog := h.backlog
  regs o h1 h2 := h.regs o (by unfold sendReg; omega)

theorem State.aside_raise (s : State) (ev : BitVec 16) (st : Status) (src unit : Nat) (req : Word) (d : Bytes) :
    s.Aside (s.raise ev st src unit req d) where
  parts := State.parts_raise ..
  mgr := State.mgr_raise ..
  node := by rw [State.fab_raise]
  sent := by rw [State.fab_raise]
  backlog := by rw [State.fab_raise]
  regs o h1 h2 := State.reg_raise_apart _ _ _ _ _ _ _ (by unfold eventReg; omega)

theorem State.aside_setReg (s : State) {o : Nat} (w : Word) (h : o < 0x100000 ∨ 0x200000 ≤ o) : s.Aside (s.setReg o w) where
  parts := rfl
  mgr := rfl
  node := rfl
  sent := List.prefix_rfl
  backlog := List.prefix_rfl
  regs o' h1 h2 := by rw [State.reg_setReg, if_neg (by omega)]

theorem State.aside_foldl {α : Type} (f : State → α → State) (hf : ∀ (s : State) a, s.Aside (f s a)) (l : List α) :
    ∀ s : State, s.Aside (l.foldl f s) := by
  induction l with
  | nil => exact .refl
  | cons a r ih => exact fun s => (hf s a).trans (ih _)

/-! ## Reads of the state range -/

theorem State.aside_poisonHit (s : State) (a : Nat) (pl : Place) : s.Aside (s.poisonHit a pl) := by
  have hcount : s.Aside (if pl.far then s.addReg (cxlBase pl.unit + 0x18) 1 else s.addReg (muBase pl.unit + 0x10) 1) := by
    split
    · exact s.aside_setReg _ (by unfold cxlBase; omega)
    · exact s.aside_setReg _ (by unfold muBase; omega)
  unfold State.poisonHit
  dsimp only
  split
  · exact hcount
  · refine hcount.trans (State.Aside.trans (t := State.setEntry _ _ _) ?_ (State.aside_raise ..))
    exact ⟨rfl, rfl, rfl, List.prefix_rfl, List.prefix_rfl, fun _ _ _ => rfl⟩

theorem State.aside_readBlocks (fuel : Nat) : ∀ (s : State) (job : Option Nat) (a n : Nat) (acc : Bytes),
    s.Aside (State.readBlocks fuel s job a n acc).2 := by
  induction fuel with
  | zero => exact fun s _ _ _ _ => .refl s
  | succ m ih =>
    intro s job a n acc
    unfold State.readBlocks
    split
    · exact .refl s
    · split
      · exact .refl s
      · next pl hpl =>
        dsimp only
        have hread : s.Aside (if pl.far then s.touch (ePage a)
            else (s.touch (ePage a)).muAccess pl.unit (.read (pl.key % 2 ^ 32) (chunkLen a n))) := by
          cases hf : pl.far with
          | true => exact (s.stores_touch _).aside
          | false =>
            exact ((s.stores_touch _).trans (State.stores_muAccess (State.unit_lt_of_translate hpl hf) _ _)).aside
        split
        · exact hread.trans (State.aside_poisonHit ..)
        · exact hread.trans (ih _ _ _ _ _)

theorem State.aside_stRead (s : State) (job : Option Nat) (a n : Nat) : s.Aside (s.stRead job a n).2 :=
  State.aside_readBlocks _ s job a n []

theorem State.aside_reqRead (s : State) (p : PartId) (a n : Nat) : s.Aside (s.reqRead p a n).2 := by
  unfold State.reqRead
  split
  · exact .refl s
  · next b _ =>
    have h := s.aside_stRead (s.jobOf p) b n
    split
    · next hb => rw [hb] at h; exact h
    · next hb => rw [hb] at h; exact h

/-! ## Pages and adapters (R18, R201) -/

theorem State.aside_ownPages (s : State) (p : PartId) (m : Manifest) : s.Aside (s.ownPages p m).2 := by
  have hhdr : s.Aside (s.ptHdr p m).2 := by
    have h := s.aside_reqRead p (mPtAddr m) 64
    unfold State.ptHdr
    split
    · next hb => rw [hb] at h; exact h
    · next hb => rw [hb] at h; exact h
  unfold State.ownPages
  split
  · next hb => rw [hb] at hhdr; exact hhdr
  · next hdr u hb =>
    rw [hb] at hhdr
    refine hhdr.trans ?_
    generalize List.range _ = l
    suffices hl : ∀ acc : List Nat × State, u.Aside acc.2 → u.Aside (l.foldl _ acc).2 from hl ([], u) (.refl u)
    induction l with
    | nil => exact fun _ h => h
    | cons q r ih =>
      intro acc hacc
      refine ih _ ?_
      dsimp only
      have hread := acc.2.aside_reqRead p (mPtAddr m + 64 + 8 * q) 8
      split
      · next hq =>
        rw [hq] at hread
        split <;> exact hacc.trans hread
      · next hq =>
        rw [hq] at hread
        exact hacc.trans hread

theorem State.aside_poolGiveAddr (s : State) (j a : Nat) : s.Aside (s.poolGiveAddr j a) := by
  unfold State.poolGiveAddr
  dsimp only
  split
  · exact ⟨rfl, rfl, rfl, List.prefix_rfl, List.prefix_rfl, fun _ _ _ => rfl⟩
  · exact .refl s

theorem State.aside_freePages (s : State) (p : PartId) (k : Nat) : s.Aside (s.freePages p k) :=
  (s.aside_ownPages p _).trans (State.aside_foldl _ (fun s a => s.aside_poolGiveAddr _ a) _ _)

theorem State.aside_setAdSlot (s : State) (handle k : Nat) (a : AdSlot) : s.Aside (s.setAdSlot handle k a) :=
  ⟨rfl, rfl, rfl, List.prefix_rfl, List.prefix_rfl, fun _ _ _ => rfl⟩

theorem State.aside_adFlags (s : State) : s.Aside s.adFlags :=
  (s.aside_setReg _ (by omega)).trans (State.aside_setReg _ _ (by omega))

theorem State.aside_adProceed (s : State) (handle : Nat) : s.Aside (s.adProceed handle) := by
  unfold State.adProceed
  split
  · exact (s.aside_setAdSlot ..).trans (State.aside_adFlags _)
  · exact s.aside_adFlags

theorem State.aside_adRef (s : State) (m : Manifest) (arrive : Bool) : s.Aside (s.adRef m arrive) := by
  unfold State.adRef
  split
  · exact .refl s
  · split
    · exact .refl s
    · dsimp only
      split
      · exact s.aside_setAdSlot ..
      · split
        · exact (s.aside_setAdSlot ..).trans (State.aside_adProceed ..)
        · exact s.aside_setAdSlot ..

/-! ## The terminal actions -/

/-- A release goes to every member of the cache set. -/
theorem State.sends_releaseSet (s : State) (unit : Nat) (m : Manifest) (k copy upTo : Option Nat) :
    s.Sends (s.releaseSet unit m k copy upTo) := by
  unfold State.releaseSet
  split
  · exact .refl s
  · exact State.sends_foldl _ (fun s n => s.sends_sendCtlFrame s unit n _ _ none) _ s

/-- The end of a request leaves the partitions alone, and its final manifest is on its way to the manager. -/
theorem State.closeRequest_spec (s : State) (p : PartId) (k : Nat) : s.Aside (s.closeRequest p k) ∧
    ∀ n, s.mgrNode = some n → (s.closeRequest p k).Posted n (.finalManifest (s.manifest p k)) := by
  unfold State.closeRequest
  extract_lets m s1 s2 s3 s4
  have h3 : s.Aside s3 := by
    have h2 : s.Aside s2 := (s.aside_freePages p k).trans (State.aside_adRef ..)
    unfold s3
    split
    · exact h2.trans (State.aside_raise ..)
    · exact h2
  have h4 : s3.Aside s4 := (State.sends_sendMgr ..).aside
  have h5 : s4.Aside (s4.releaseSet p.val m (s4.slot p k).oldSet) := (State.sends_releaseSet ..).aside
  exact ⟨(h3.trans h4).trans h5, fun n hn => h5.posted (State.posted_sendMgr (h3.mgrNode.trans hn) ..)⟩

end Sys2Proof.Machine
end

