-- ==== Sys2Proof/Proofs/Residents.lean ====
section
/-! PROOFS. Resident caravans after an install, and releases (O42). -/

namespace Sys2Proof.Machine

/-! ## Re-examination (R26, R30) -/

theorem State.restampIf_before {s : State} {m : Manifest} (h : s.epochKind (mEpoch m) = 2) :
    s.restampIf true m = mWithPhase m (mPhase m) s.epoch := by
  rw [State.restampIf, if_pos ⟨h, rfl⟩]

theorem State.restampIf_current {s : State} {m : Manifest} (b : Bool) (h : s.epochKind (mEpoch m) = 0) :
    s.restampIf b m = m := by
  rw [State.restampIf, if_neg]
  rintro ⟨h2, -⟩
  omega

/-- A live request with a good manifest is left, or its manifest is written as re-stamped. -/
theorem State.reexamine_live {s : State} {p : PartId} {k : Nat} (howns : s.owns p k = true)
    (hterm : terminal (mPhase (s.manifest p k)) = false) (hcrc : mCrcOk (s.manifest p k) = true) :
    s.reexamine p k = if s.restamp p (s.manifest p k) = s.manifest p k then s
      else s.setManifest p k (s.restamp p (s.manifest p k)) := by
  unfold State.reexamine
  rw [if_neg (by rw [howns, hterm]; decide), if_neg (by rw [hcrc]; decide)]

/-! ## Releases (R297) -/

/-- A release that names no transfer still arriving drops none. -/
theorem State.dropArriving_none {s : State} {src : NodeId} {c : ParkedCopies}
    (h : ∀ p : PartId, ∀ i ∈ (s.part p).incoming, i.src ≠ src ∨ incomingHit c i = false) :
    (List.finRange 16).foldl (fun s p =>
      ((s.part p).incoming.filter fun i => decide (i.src = src) && incomingHit c i).foldl
        (fun s i => s.dropIncoming p i) s) s = s := by
  refine List.foldl_fixed' (fun p => ?_) _
  have hnone : ((s.part p).incoming.filter fun i => decide (i.src = src) && incomingHit c i) = [] := by
    rw [List.filter_eq_nil_iff]
    intro i hi
    rcases h p i hi with h | h <;> simp [h]
  rw [hnone]
  rfl

/-- Giving slots back changes the pools alone. -/
theorem State.poolGiveAddr_only (s : State) (j a : Nat) :
    s.poolGiveAddr j a = { s with pools := (s.poolGiveAddr j a).pools } := by
  unfold State.poolGiveAddr
  dsimp only
  split <;> rfl

theorem State.foldl_pools_only {α : Type} (f : State → α → State)
    (hf : ∀ (s : State) a, f s a = { s with pools := (f s a).pools }) (l : List α) :
    ∀ s : State, l.foldl f s = { s with pools := (l.foldl f s).pools } := by
  induction l with
  | nil => exact fun _ => rfl
  | cons a r ih =>
    intro s
    rw [List.foldl_cons, ih, hf]

/-- A release that names no transfer still arriving frees the copies it names. -/
theorem State.parkFree_spec {s : State} {src : NodeId} {c : ParkedCopies}
    (h : ∀ p : PartId, ∀ i ∈ (s.part p).incoming, i.src ≠ src ∨ incomingHit c i = false) :
    s.parkFree src c =
      { s with parked := s.parked.filter fun x => !copyHit c x, pools := (s.parkFree src c).pools } := by
  unfold State.parkFree
  simp only [State.dropArriving_none h]
  rw [State.foldl_pools_only _ fun s a => State.foldl_pools_only _ (fun s j => s.poolGiveAddr_only j a) _ s]

/-- A release that names nothing this node holds changes nothing. -/
theorem State.parkFree_none {s : State} {src : NodeId} {c : ParkedCopies}
    (h : ∀ p : PartId, ∀ i ∈ (s.part p).incoming, i.src ≠ src ∨ incomingHit c i = false)
    (hc : ∀ x ∈ s.parked, copyHit c x = false) : s.parkFree src c = s := by
  have hhit : s.parked.filter (copyHit c) = [] := by
    rw [List.filter_eq_nil_iff]
    intro x hx
    simp [hc x hx]
  have hkeep : (s.parked.filter fun x => !copyHit c x) = s.parked := by
    rw [List.filter_eq_self]
    intro x hx
    simp [hc x hx]
  unfold State.parkFree
  simp only [State.dropArriving_none h, hhit, List.flatMap_nil, List.foldl_nil, hkeep]

/-- Settles O42: a resident caravan's manifest is written back as re-stamped, and a release frees the copies it names. -/
theorem residentsAndReleases : Obligations.ResidentsAndReleases := by
  unfold Obligations.ResidentsAndReleases
  intro s
  refine ⟨?resident, ?convoy, ?deaf, ?release, ?nothing⟩
  case resident =>
    intro p slot k m hrow howns hterm hcrc
    have hexec : exec (.caravanReexamine p slot) s = .next (s.reexamine p k) := by
      show execCaravanReexamine p slot s = _
      rw [execCaravanReexamine, hrow]
      rfl
    have hk : k < 1024 := slot.isLt
    rw [State.reexamine_live howns hterm hcrc] at hexec
    refine ⟨fun hepoch hroute => ?_, fun hepoch => ?_⟩
    · have hstamp : s.restamp p m = mWithPhase m (mPhase m) s.epoch := by
        rw [State.restamp, hroute, State.restampIf_before hepoch]
      by_cases hsame : s.restamp p m = m
      · rw [if_pos hsame] at hexec
        exact ⟨s, hexec, hsame.symm.trans hstamp, rfl, fun _ _ => rfl, rfl, fun _ _ => rfl⟩
      · rw [if_neg hsame, hstamp] at hexec
        refine ⟨_, hexec, s.manifest_setManifest_same p _ hk, s.setManifest_only p k _, fun p' hp' => ?_, ?_, fun a ha => ?_⟩
        · rw [State.part_setManifest, if_neg hp']
        · rw [State.part_setManifest, if_pos rfl]
        · exact s.holdByte_setManifest_apart p k _ p ha
    · rwa [if_pos (show s.restamp p m = m from State.restampIf_current _ hepoch)] at hexec
  case convoy =>
    intro p slot hrow
    show execCaravanReexamine p slot s = _
    rw [execCaravanReexamine, if_pos hrow]
  case deaf =>
    intro src c hacc
    show execParkRelease src c s = _
    rw [execParkRelease, State.ifTakes, if_neg (by rw [hacc]; decide)]
  case release =>
    intro src c hacc h
    refine ⟨s.parkFree src c, ?_, State.parkFree_spec h⟩
    show execParkRelease src c s = _
    rw [execParkRelease, State.ifTakes, if_pos hacc]
  case nothing =>
    intro src c hacc h hc
    show execParkRelease src c s = _
    rw [execParkRelease, State.ifTakes, if_pos hacc, State.parkFree_none h hc]

end Sys2Proof.Machine
end

