-- ==== Sys2Proof/Proofs/Books.lean ====
section
/-! PROOFS. Books are issued and installed (O43). -/

namespace Sys2Proof.Machine

/-! ## A manager that stops (R37, R422) -/

/-- The standby command ends: only RK_STBY and what the manager knows of the candidate change. -/
theorem State.stbyDone_spec (s : State) (st : Status) :
    s.OnlyMgr (s.stbyDone st) ∧ (s.stbyDone st).fab = s.fab ∧
      (s.stbyDone st).mgr = { s.mgr with copyTo := none, copyStarted := false, copyAcked := false } ∧
      ∀ o, o ≠ 0x2020 → (s.stbyDone st).reg o = s.reg o := by
  refine ⟨rfl, rfl, rfl, fun o ho => ?_⟩
  rw [State.stbyDone, State.modMgr_reg, State.reg_setRegFld, if_neg ho, State.reg_setRegFld, if_neg ho,
    State.reg_setRegFld, if_neg ho]

/-- The status of the standby command stands in RK_STBY, which shows no command running. -/
theorem State.regFld_stbyDone (s : State) (st : Status) :
    (s.stbyDone st).regFld 0x2020 63 48 = st.toNat ∧ (s.stbyDone st).regFld 0x2020 31 31 = 0 := by
  have h : (s.stbyDone st).reg 0x2020 =
      setFld (setFld (setFld (s.reg 0x2020) 63 48 st.toNat) 31 31 0) 16 16 0 := by
    simp only [State.stbyDone, State.modMgr_reg, State.reg_setRegFld, if_true]
  rw [State.regFld, State.regFld, h]
  constructor
  · rw [fld_setFld_apart _ _ _ _ _ _ (by omega), fld_setFld_apart _ _ _ _ _ _ (by omega),
      fld_setFld_same _ _ _ _ (by omega)]
    exact Nat.mod_eq_of_lt st.isLt
  · rw [fld_setFld_apart _ _ _ _ _ _ (by omega), fld_setFld_same _ _ _ _ (by omega), Nat.zero_mod]

theorem State.stopManager_alone {s : State} (st : Status) (h : s.mgr.copyTo = none) :
    s.stopManager st = (s.raise Ev.managerStopped st 16).modMgr fun g =>
      { g with install := none, takeover := 0, role := .worker } := by
  unfold State.stopManager
  dsimp only
  rw [if_neg]
  simp [h, State.modMgr]

theorem State.stopManager_copying {s : State} (st : Status) (h : s.mgr.copyTo.isSome = true) :
    s.stopManager st = ((s.raise Ev.managerStopped st 16).modMgr fun g =>
      { g with install := none, takeover := 0, role := .worker }).stbyDone St.pathLost := by
  unfold State.stopManager
  dsimp only
  rw [if_pos]
  simpa [State.modMgr] using h

theorem State.raised_modMgr {s t : State} {ev : BitVec 16} (h : s.Raised t ev) (f : Mgr → Mgr) :
    s.Raised (t.modMgr f) ev := h

/-- A manager that stops raises the event, serves as a worker, and ends a standby command that runs. -/
theorem State.stopManager_spec (s : State) (st : Status) :
    s.Raised (s.stopManager st) Ev.managerStopped ∧ (s.stopManager st).parts = s.parts ∧
      (s.stopManager st).mem = s.mem ∧ (s.stopManager st).fab = s.fab ∧
      ((s.stopManager st).mgr.install = none ∧ (s.stopManager st).mgr.role = .worker ∧
        (s.stopManager st).mgr.takeover = 0 ∧ (s.stopManager st).mgr.copyTo = none) ∧
      (s.mgr.copyTo = none →
        (s.stopManager st).mgr = { s.mgr with install := none, takeover := 0, role := .worker }) ∧
      (s.mgr.copyTo.isSome → (s.stopManager st).regFld 0x2020 63 48 = St.pathLost.toNat ∧
        (s.stopManager st).regFld 0x2020 31 31 = 0) := by
  have hraise := State.raised_modMgr (s.raised_raise Ev.managerStopped st 16 0xFF 0 []) fun g =>
    { g with install := none, takeover := 0, role := .worker }
  cases hc : s.mgr.copyTo with
  | none =>
    rw [State.stopManager_alone st hc]
    have hm : ((s.raise Ev.managerStopped st 16).modMgr fun g =>
        { g with install := none, takeover := 0, role := .worker }).mgr =
        { s.mgr with install := none, takeover := 0, role := .worker } := by
      rw [State.modMgr, State.mgr_raise]
    refine ⟨hraise, State.parts_raise .., State.mem_raise .., State.fab_raise .., ?_, fun _ => hm, nofun⟩
    rw [hm]
    exact ⟨rfl, rfl, rfl, hc⟩
  | some n =>
    rw [State.stopManager_copying st (by rw [hc]; rfl)]
    generalize hu : (s.raise Ev.managerStopped st 16).modMgr _ = u at hraise
    obtain ⟨honly, hfab, hmgr, hregs⟩ := u.stbyDone_spec St.pathLost
    have hmu : u.mgr = { s.mgr with install := none, takeover := 0, role := .worker } := by
      rw [← hu, State.modMgr, State.mgr_raise]
    refine ⟨hraise.congr ?_ fun o ho => hregs o ?_, ?_, ?_, ?_, ?_, nofun,
      fun _ => u.regFld_stbyDone St.pathLost⟩
    · rw [honly]
    · unfold eventReg at ho
      omega
    · rw [honly, ← hu]
      exact State.parts_raise ..
    · rw [honly, ← hu]
      exact State.mem_raise ..
    · rw [hfab, ← hu]
      exact State.fab_raise ..
    · rw [hmgr, hmu]
      exact ⟨rfl, rfl, rfl, rfl⟩

/-! ## A book installed where nothing waits for it (R24, R30) -/

theorem State.modPart_self {s : State} {p : PartId} {f : Part → Part} (h : f (s.part p) = s.part p) :
    s.modPart p f = s := by
  rw [State.modPart, State.setPart, h]
  show { s with parts := s.parts.set p.val s.parts[p.val] } = s
  rw [Vector.set_getElem_self]

/-- With no caravan being received and no parked copy, none is re-examined at the install. -/
theorem State.reexamineHeld_of_none {s : State} (h : ∀ p : PartId, (s.part p).incoming = []) (hp : s.parked = []) :
    s.reexamineHeld = s := by
  unfold State.reexamineHeld
  have hparts : ∀ g : State → PartId → Incoming → Incoming, (List.finRange 16).foldl (fun s p => s.modPart p fun x =>
      { x with incoming := x.incoming.map (g s p) }) s = s := by
    intro g
    refine List.foldl_fixed' (fun p => State.modPart_self ?_) _
    rw [h p, List.map_nil, ← h p]
  simp only [hparts, hp, List.foldl_nil]

theorem State.judgeHeld_of_none {s : State} (h : s.mgr.held = []) : s.judgeHeld = s := by
  unfold State.judgeHeld
  rw [h, List.foldl_nil, ← h]

/-- With no PARK waiting at the head of a fabric queue, none goes on. -/
theorem State.parkAgain_of_none {s : State} (h : ∀ p : PartId, ∀ e ∈ (s.drv p).queue 5, e.phase ≠ .waiting) :
    s.parkAgain = s := by
  unfold State.parkAgain
  refine List.foldl_fixed' (fun p => ?_) _
  have hnone : (((s.drv p).queue 5).filter fun e => e.phase = .waiting ∧ iOp e.insn = 0x73 ∧ iMode e.insn 1 0 = 1 ∧
      (s.slot p e.tag).parkAfter.isSome) = [] := by
    rw [List.filter_eq_nil_iff]
    intro e he
    simp [h p e he]
  rw [hnone, List.foldl_nil]

theorem SharedPages.hit_of_none (x : SharedPages) {bad : Nat → Nat → Bool} (h : ∀ a n, bad a n = false) :
    x.hit bad = false := by
  rw [SharedPages.hit, List.any_eq_false]
  intro a _
  rw [h]
  decide

theorem bookRemoved_of_none {b : Book} (h : ∀ n ∈ b.nodes, n.state ≠ .removed) (a : Nat) : bookRemoved b a = false := by
  rw [bookRemoved, List.any_eq_false]
  intro n hn
  simp [h n hn]

/-- No state is lost with pages that all can still be read. -/
theorem State.sharedLost_of_readable {s : State} {bad : Nat → Nat → Bool} (h : ∀ a n, bad a n = false) :
    s.sharedLost bad = s := by
  have hlive : s.sharedLostLive bad = s := by
    simp only [State.sharedLostLive, SharedPages.hit_of_none _ h, Bool.false_eq_true, if_false, List.foldl_fixed]
  have hsaved : s.sharedLostSaved bad = s := by
    simp only [State.sharedLostSaved, SharedPages.hit_of_none _ h, Bool.and_false, Bool.false_eq_true, if_false,
      List.foldl_fixed]
  have hparked : s.sharedLostParked bad = s := by
    simp only [State.sharedLostParked, SharedPages.hit_of_none _ h, Bool.false_eq_true, if_false, List.foldl_fixed]
  rw [State.sharedLost, hlive, hsaved, hparked]

/-- No state is lost where no request whose state this node holds could attend a shared page. -/
theorem State.sharedLost_of_noSharers {s : State} (h : s.NoSharers) (bad : Nat → Nat → Bool) : s.sharedLost bad = s := by
  obtain ⟨hslots, hsaves, hparked⟩ := h
  have hlive : s.sharedLostLive bad = s := by
    unfold State.sharedLostLive
    refine List.foldl_fixed' (fun p => ?_) _
    rw [hslots p, List.foldl_nil]
  have hsaved : s.sharedLostSaved bad = s := by
    rw [State.sharedLostSaved, State.switchedOut, hsaves]
    rfl
  have hpark : s.sharedLostParked bad = s := by
    rw [State.sharedLostParked, hparked]
    rfl
  rw [State.sharedLost, hlive, hsaved, hpark]

/-- The role under a book: nothing but the route keeper's state and RK_STBY changes, and of that state only the role and
what it knows of a candidate standby. -/
theorem State.roleUnder_spec (s : State) (b : Book) :
    s.OnlyMgr (s.roleUnder b) ∧ (s.roleUnder b).fab = s.fab ∧ (s.roleUnder b).mgr.held = s.mgr.held ∧
      (s.roleUnder b).mgr.failedNodes = s.mgr.failedNodes ∧ ∀ o, o ≠ 0x2020 → (s.roleUnder b).reg o = s.reg o := by
  unfold State.roleUnder
  extract_lets me r u
  split
  · obtain ⟨honly, hfab, hmgr, hregs⟩ := u.stbyDone_spec St.pathLost
    refine ⟨State.OnlyMgr.trans (t := u) rfl honly, hfab, ?_, ?_, hregs⟩
    · rw [hmgr]
      rfl
    · rw [hmgr]
      rfl
  · exact ⟨rfl, rfl, rfl, rfl, fun _ _ => rfl⟩

/-- The manager's state at a node that takes a book as its current one. -/
def State.underBook (s : State) (b : Book) (prev : Option Book) : State :=
  (s.roleUnder b).modMgr fun g =>
    { g with cur := some { b with stby := b.stby.filter fun n => !s.mgr.failedNodes.contains n }, prev := prev }

theorem State.underBook_spec (s : State) (b : Book) (prev : Option Book) :
    s.OnlyMgr (s.underBook b prev) ∧ (s.underBook b prev).fab = s.fab ∧ (s.underBook b prev).mgr.held = s.mgr.held ∧
      ∀ o, o ≠ 0x2020 → (s.underBook b prev).reg o = s.reg o := by
  obtain ⟨honly, hfab, hheld, -, hregs⟩ := s.roleUnder_spec b
  exact ⟨honly.trans rfl, hfab, hheld, hregs⟩

/-- What live requests a partition holds lies in the partition and its registers. -/
theorem State.liveSlots_underBook (s : State) (b : Book) (prev : Option Book) (p : PartId) :
    (s.underBook b prev).liveSlots p = s.liveSlots p := by
  obtain ⟨honly, -, -, hregs⟩ := s.underBook_spec b prev
  have hpart : (s.underBook b prev).part p = s.part p := by rw [honly]; rfl
  have hbase : (s.underBook b prev).mftBase p = s.mftBase p := by
    rw [State.mftBase, State.mftBase, State.regFld, State.regFld, hregs]
    unfold ptBase
    omega
  unfold State.liveSlots State.heldSlots State.slot State.manifest State.hsRead
  rw [hpart, hbase]

/-- A book is installed where no caravan is being received or parked, nothing is held for it, and no state is lost by it. -/
theorem State.install_of_quiet {s u : State} {b : Book} (hu : u = s.underBook b u.mgr.prev)
    (hin : ∀ p : PartId, (s.part p).incoming = [] ∧ ∀ e ∈ (s.drv p).queue 5, e.phase ≠ .waiting)
    (hpark : s.parked = []) (hheld : s.mgr.held = [])
    (hlost : (∀ n ∈ b.nodes, n.state ≠ .removed) ∨ (∀ p : PartId, s.liveSlots p = []) ∧ s.saves = []) :
    (u.reexamineHeld.judgeHeld.sharedLost fun a _ => bookRemoved b a).parkAgain = u := by
  obtain ⟨honly, -, hh, -⟩ := s.underBook_spec b u.mgr.prev
  rw [← hu] at honly hh
  have hpart : ∀ p, u.part p = s.part p := fun p => by rw [honly]; rfl
  have hparked : u.parked = [] := by rw [honly]; exact hpark
  have hlost' : (u.sharedLost fun a _ => bookRemoved b a) = u := by
    rcases hlost with h | ⟨h, hsaves⟩
    · exact State.sharedLost_of_readable fun a _ => bookRemoved_of_none h a
    · refine State.sharedLost_of_noSharers ⟨fun p => ?_, ?_, hparked⟩ _
      · rw [hu, State.liveSlots_underBook, h p]
      · rw [honly]
        exact hsaves
  have hwait : ∀ p : PartId, ∀ e ∈ (u.drv p).queue 5, e.phase ≠ .waiting := by
    intro p
    rw [State.drv, hpart]
    exact (hin p).2
  rw [State.reexamineHeld_of_none (fun p => by rw [hpart, (hin p).1]) hparked,
    State.judgeHeld_of_none (hh.trans hheld), hlost', State.parkAgain_of_none hwait]

/-! ## A book is offered (R24, R29 to R31) -/

/-- A node that does not act as manager of an older book hears a book as it is. -/
def State.heardBook (s : State) (b : Book) : State :=
  if s.isManager ∧ b.mgr ≠ s.fab.node ∧ s.epochKind b.epoch = 1 ∧ s.ownTakeover b = false then s.stopManager St.ok else s

theorem State.heardBook_worker {s : State} (b : Book) (h : s.isManager = false) : s.heardBook b = s := by
  rw [State.heardBook, if_neg]
  simp [h]

/-- A node holds no book of an epoch that is neither its current book's nor the one before's. -/
theorem find_heldBook_none {b c : Book} {prev : Option Book} (hcur : b.epoch ≠ c.epoch)
    (hprev : ∀ x, prev = some x → x.epoch ≠ b.epoch) :
    ((some c :: [prev]).filterMap id |>.find? fun x => x.epoch = b.epoch) = none := by
  cases prev with
  | none => simp [hcur.symm]
  | some x => simp [hcur.symm, hprev x rfl]

/-- A book of an epoch that this node does not hold, and not the next, is answered with STALE_EPOCH. -/
theorem State.offerBook_stale {s : State} {b c : Book} (hc : (s.heardBook b).mgr.cur = some c)
    (hnext : b.epoch ≠ c.epoch + 1) (hcur : b.epoch ≠ c.epoch)
    (hprev : ∀ x, (s.heardBook b).mgr.prev = some x → x.epoch ≠ b.epoch) :
    s.offerBook b = (St.staleEpoch, s.heardBook b) := by
  unfold State.offerBook
  rw [← State.heardBook]
  simp only [hc, find_heldBook_none hcur hprev, if_pos hnext]

section
variable {s : State} {b c : Book} (hm : s.isManager = false) (hc : s.mgr.cur = some c)
  (hnext : b.epoch = c.epoch + 1) (hprev : ∀ x, s.mgr.prev = some x → x.epoch ≠ b.epoch)
include hm hc hnext hprev

/-- The next book is answered with EPOCH_BUSY while a caravan carries the epoch before the current one. -/
theorem State.offerBook_busy (hd : 0 < s.drainCount) : s.offerBook b = (St.epochBusy, s) := by
  have hcur : b.epoch ≠ c.epoch := by simp [hnext]
  unfold State.offerBook
  rw [← State.heardBook, State.heardBook_worker b hm]
  simp only [hc, find_heldBook_none hcur hprev, if_neg (not_not.mpr hnext), if_pos hd]

/-- The next book is installed once no caravan carries the epoch before the current one. -/
theorem State.offerBook_next (hd : s.drainCount = 0) : s.offerBook b = (St.ok,
    ((s.underBook b (some c)).reexamineHeld.judgeHeld.sharedLost fun a _ => bookRemoved b a).parkAgain) := by
  have hcur : b.epoch ≠ c.epoch := by simp [hnext]
  unfold State.offerBook
  rw [← State.heardBook, State.heardBook_worker b hm]
  simp only [hc, find_heldBook_none hcur hprev, if_neg (not_not.mpr hnext), if_neg (Nat.not_lt.mpr (Nat.le_of_eq hd))]
  rfl

end

theorem State.exec_bookInstall {s u : State} {b : Book} {st : Status} (h : s.accepts = true)
    (ho : s.offerBook b = (st, u)) (src : NodeId) :
    exec (.bookInstall src b) s = .next (u.sendCtl src (.bookAck b.epoch st u.epoch)) := by
  show execBookInstall src b s = _
  rw [execBookInstall, State.ifTakes, if_pos h, State.bookInstall, ho]

theorem State.exec_bookAck {s : State} (h : s.accepts = true) (n : NodeId) (e : BitVec 16) (st : Status) :
    exec (.bookAck n e st) s = .next (s.bookAcked n e st) := by
  show execBookAck n e st s = _
  rw [execBookAck, State.ifTakes, if_pos h]

/-- Room in a replay buffer is a matter of the fabric alone. -/
theorem State.Room.congr {s t : State} {unit : Nat} {dst : NodeId} {k : Nat} (h : s.Room unit dst k)
    (h1 : t.fab = s.fab) : t.Room unit dst k := by
  unfold State.Room State.replayUsed at *
  rw [h1]
  exact h

/-- What has been sent is a matter of the fabric alone. -/
theorem State.SentOne.congr {s s' t t' : State} {dst : NodeId} {what : Frame → Prop} (h : s'.SentOne t' dst what)
    (h1 : s'.fab = s.fab) (h2 : t.fab = t'.fab) : s.SentOne t dst what := by
  unfold State.SentOne at *
  rw [← h1, h2]
  exact h

theorem State.SentCtl.congr {s s' t t' : State} {dst : NodeId} {c : Ctl} (h : s'.SentCtl t' dst c)
    (h1 : s'.fab = s.fab) (h2 : t.fab = t'.fab) : s.SentCtl t dst c :=
  State.SentOne.congr h h1 h2

/-- Settles O43: issuing mirrors the next book, an install follows the rules of the epochs, and a refusal stops the
manager. -/
theorem booksFollowEachOther : Obligations.BooksFollowEachOther := by
  unfold Obligations.BooksFollowEachOther
  intro s
  refine ⟨?mirrored, ?issued, ?idle, ?deafBook, ?deafAck, ?next, ?stale, ?other, ?acks, ?noRetry⟩
  case mirrored =>
    intro b c n hm hi hb hr hc hst hn hcopy hroom
    have hstby : s.stby = some n := by simp [State.stby, State.book, hc, hst, hn]
    have hissue := State.issueBook_eq (b := { b with stby := c.stby }) hm hi hb hr
    generalize hmade : s.bookMade { b with stby := c.stby } = b' at hissue
    have hstby' : (s.withInstall b').stby = some n := hstby
    have hcopy' : (s.withInstall b').mgr.copyStarted = false := hcopy
    rw [State.mirrorOut_standby hstby', State.mirrorSend_standby hcopy' hstby', List.foldl_cons, List.foldl_nil] at hissue
    simp only [List.length_singleton, Nat.sub_self, List.replicate_zero, List.append_nil] at hissue
    have hsends := (s.withInstall b').sends_sendCtl n (.mirror (.book b')) ctlTag
    have hexec : exec (.bookIssue b) s = .next (s.issueBook { b with stby := c.stby }) := by
      show execBookIssue b s = _
      rw [execBookIssue, State.bookIssue, hc]
    have hmgr : (s.issueBook { b with stby := c.stby }).mgr =
        { (s.withInstall b').mgr with mirrors := s.mgr.mirrors ++ [.install] } := by
      rw [hissue, State.modMgr, hsends.mgr]
      rfl
    refine ⟨_, { book := b', sent := false, waiting := [], busy := [] }, hexec, (s.directs_issueBook _).only, ?_, rfl,
      ?_, ?_, ?_, ?_, ?_, ?_, ?_⟩
    · rw [hmgr]
      rfl
    · rw [← hmade, State.epoch_bookMade, hc]
      rfl
    · rw [← hmade, State.mgr_bookMade]
    · rw [← hmade, State.issuedNs_bookMade]
    · rw [← hmade]
      exact s.bytes_bookMade_le _
    · rw [hmgr]
      rfl
    · rw [hmgr]
    · rw [hissue]
      have hsent : (s.withInstall b').SentCtl _ n (.mirror (.book b')) := State.sentCtl_sendCtl _ ctlTag (hroom.congr rfl)
      exact hsent.congr rfl (State.modMgr_fab ..)
  case issued =>
    intro b hm hi hb hr
    let b0 : Book := match s.mgr.cur with | some c => { b with stby := c.stby } | none => b
    have hb0 : b0.bytes ≤ 262144 ∧ b0.ranges.length ≤ 64 := by
      unfold b0
      split <;> exact ⟨hb, hr⟩
    obtain ⟨x, ms, hmgr, hx⟩ := State.mgr_issueBook hm hi hb0.1 hb0.2
    refine ⟨s.issueBook b0, x, rfl, by rw [hmgr], ?_, ?_, (s.directs_issueBook b0).parts, (s.directs_issueBook b0).mem⟩
    · rw [hx, State.mgr_bookMade]
    · rw [hx, State.epoch_bookMade]
  case idle =>
    intro b h
    show execBookIssue b s = _
    have hno : ∀ b0, s.issueBook b0 = s := by
      intro b0
      unfold State.issueBook
      rw [if_pos]
      exact h.imp_right .inl
    rw [execBookIssue, State.bookIssue, hno]
  case deafBook =>
    intro src b hacc
    show execBookInstall src b s = _
    rw [execBookInstall, State.ifTakes, if_neg (by rw [hacc]; decide)]
  case deafAck =>
    intro n e st hacc
    show execBookAck n e st s = _
    rw [execBookAck, State.ifTakes, if_neg (by rw [hacc]; decide)]
  case next =>
    intro src b c hacc hc hnext hprev hm hheld hroom
    refine ⟨fun hd hin hpark hlost => ?_, fun hd => ?_⟩
    · have hexec := State.exec_bookInstall hacc (State.offerBook_next hm hc hnext hprev hd) src
      obtain ⟨honly, hfab, -, -⟩ := s.underBook_spec b (some c)
      have hquiet := State.install_of_quiet (u := s.underBook b (some c)) rfl hin hpark hheld hlost
      have hepoch : (s.underBook b (some c)).epoch = b.epoch := rfl
      rw [hquiet, hepoch] at hexec
      have hsends := (s.underBook b (some c)).sends_sendCtl src (.bookAck b.epoch St.ok b.epoch) ctlTag
      refine ⟨_, hexec, honly.trans hsends.only.onlyMgr, ?_, ?_, ?_⟩
      · rw [hsends.mgr]
        rfl
      · rw [hsends.mgr]
        rfl
      · exact State.SentCtl.congr (State.sentCtl_sendCtl _ ctlTag (hroom.congr hfab)) hfab rfl
    · have hexec := State.exec_bookInstall hacc (State.offerBook_busy hm hc hnext hprev hd) src
      have hepoch : s.epoch = c.epoch := by rw [State.epoch, hc]; rfl
      rw [hepoch] at hexec
      exact ⟨_, hexec, (s.sends_sendCtl ..).only, State.sentCtl_sendCtl _ ctlTag hroom⟩
  case stale =>
    intro src b c hacc hc hnext hcur hprev hm hroom
    have hexec := State.exec_bookInstall hacc (State.offerBook_stale (by rwa [State.heardBook_worker b hm]) hnext hcur
      (by rwa [State.heardBook_worker b hm])) src
    rw [State.heardBook_worker b hm] at hexec
    have hepoch : s.epoch = c.epoch := by rw [State.epoch, hc]; rfl
    rw [hepoch] at hexec
    exact ⟨_, hexec, (s.sends_sendCtl ..).only, State.sentCtl_sendCtl _ ctlTag hroom⟩
  case other =>
    intro src b c hacc hc hnext hkind hprev hm hmgr hcopy htake
    have hcur : b.epoch ≠ c.epoch := by
      intro h
      rw [State.epochKind, hc, h] at hkind
      simp at hkind
    have hheard : s.heardBook b = s.stopManager St.ok := by
      rw [State.heardBook, if_pos]
      exact ⟨hm, hmgr, hkind, by rw [State.ownTakeover, decide_eq_false htake, Bool.false_and]⟩
    obtain ⟨hraised, -, -, -, -, hstop, -⟩ := s.stopManager_spec St.ok
    have hstop := hstop hcopy
    have hexec := State.exec_bookInstall hacc (State.offerBook_stale (c := c) (by rw [hheard, hstop, ← hc]) hnext hcur
      (by rw [hheard, hstop]; exact hprev)) src
    rw [hheard] at hexec
    have hepoch : (s.stopManager St.ok).epoch = c.epoch := by rw [State.epoch, hstop, hc]; rfl
    rw [hepoch] at hexec
    have hsends := (s.stopManager St.ok).sends_sendCtl src (.bookAck b.epoch St.staleEpoch c.epoch) ctlTag
    exact ⟨_, hexec, hraised.sends hsends, hsends.mgr.trans hstop, State.posted_sendCtl ..⟩
  case acks =>
    intro n x hacc hx hsent y
    have hacked : ∀ st, exec (.bookAck n x.book.epoch st) s = .next (if st = St.ok then
        (s.modMgr fun g => { g with install := some y }).installCheck
      else if st = St.epochBusy then s.modMgr fun g => { g with install := some { y with busy := y.busy ++ [n] } }
      else if st = St.staleEpoch then s.stopManager St.staleEpoch else s) := by
      intro st
      rw [State.exec_bookAck hacc, State.bookAcked, hx]
      dsimp only
      rw [if_neg (by simp [hsent])]
    refine ⟨fun hwait => ?_, hacked St.epochBusy, ?_, fun hbusy hroom => ?_⟩
    · rw [hacked St.ok, if_pos rfl]
      unfold State.installCheck
      show Host.Outcome.next (if y.sent ∧ y.waiting = [] ∧ y.busy = [] then _ else _) = _
      rw [if_neg]
      · rfl
      · rintro ⟨-, h1, h2⟩
        exact hwait.elim (· h1) (· h2)
    · obtain ⟨hraised, hparts, hmem, -, ⟨hi, hrole, htake, hcopy⟩, halone, hcopying⟩ := s.stopManager_spec St.staleEpoch
      exact ⟨_, hacked St.staleEpoch, hraised, hi, hrole, htake, hcopy, halone, hcopying, hparts, hmem⟩
    · have hexec : exec .epochRetryExpiry s = .next (s.sendCtl n (.bookPart x.book)) := by
        show execEpochRetryExpiry s = _
        rw [execEpochRetryExpiry, State.epochRetry, hx]
        dsimp only
        rw [hbusy, List.foldl_cons, List.foldl_nil]
      exact ⟨_, hexec, (s.sends_sendCtl ..).only, State.sentCtl_sendCtl _ ctlTag hroom⟩
  case noRetry =>
    intro hi
    show execEpochRetryExpiry s = _
    rw [execEpochRetryExpiry, State.epochRetry, hi]

end Sys2Proof.Machine
end

