-- ==== Sys2Proof/Proofs/Membership.lean ====
section
/-! PROOFS. Heartbeats, takeover and joining (O44). -/

namespace Sys2Proof.Machine

/-! ## JOIN frames (Table 11.4) -/

theorem State.hType_joinFrame (s : State) (dst : NodeId) (b : Body) : hType (s.joinFrame dst b) = 6 := by
  rw [State.joinFrame, NewFrame.hType_build]
  rfl

theorem State.hUnit_joinFrame (s : State) (dst : NodeId) (b : Body) : hUnit (s.joinFrame dst b) = unitRk := by
  rw [State.joinFrame, NewFrame.hUnit_build]
  rfl

theorem State.hDst_joinFrame (s : State) (dst : NodeId) (b : Body) : hDst (s.joinFrame dst b) = dst := by
  rw [State.joinFrame, NewFrame.hDst_build]

theorem State.frameBytes_joinFrame_le (s : State) (dst : NodeId) (b : Body) : frameBytes (s.joinFrame dst b) ≤ 4224 := by
  have h : hLen (s.joinFrame dst b) ≤ 4096 := by
    rw [State.joinFrame, NewFrame.hLen_build]
    dsimp only
    omega
  unfold frameBytes
  split <;> omega

theorem hType_numbered (f : Frame) (q : Nat) : hType (numbered f q) = hType f := rfl

/-- A JOIN frame that finds room has been sent. -/
theorem State.sentOne_joinFrame {s : State} {dst : NodeId} (h : s.Room unitRk dst) (u : State) (b : Body) :
    s.SentOne (s.sendSeq (u.joinFrame dst b)) dst fun f => hType f = 6 ∧ f.body = b := by
  have htype := u.hType_joinFrame dst b
  have hbytes := u.frameBytes_joinFrame_le dst b
  have hkeep : s.mayKeep (u.joinFrame dst b) = true := by
    obtain ⟨hq, hn, hk⟩ := h
    unfold State.mayKeep State.replayRoom
    rw [u.hUnit_joinFrame, u.hDst_joinFrame, if_neg (by decide)]
    simp only [Bool.and_eq_true, decide_eq_true_eq, List.all_eq_true]
    exact ⟨⟨by omega, by omega⟩, hq⟩
  obtain ⟨-, x, h1, h2, h3, h4⟩ := s.sendSeq_spec (u.joinFrame dst b) none 0 (by rw [htype]; decide) hkeep
  refine ⟨x, h1, h2.trans (u.hDst_joinFrame dst b), ?_, ?_⟩
  · rw [h3, u.hDst_joinFrame]
  · rw [h4]
    exact ⟨(hType_numbered ..).trans htype, rfl⟩

theorem State.sends_joinFrame (s u : State) (dst : NodeId) (b : Body) : s.Sends (s.sendSeq (u.joinFrame dst b)) :=
  s.sends_sendSeq _ _ _ (by rw [u.hType_joinFrame]; decide)

/-! ## The standby takes over (R36) -/

/-- The standby as it takes over: manager, with the mirrored book to be installed and the requests whose host was told. -/
def State.tookOver (s : State) (b : Book) : State :=
  s.modMgr fun g =>
    { g with role := .manager, takeover := 1, nextId := g.idBlock + 4096, mirrors := [],
             requests := g.requests.filter fun r => r.acked,
             cur := g.cur.map fun c => { c with stby := none },
             install := some { book := b, sent := false, waiting := [], busy := [] } }

/-! ## Joining (R302, R303) -/

theorem State.exec_join {s : State} (h : s.regBit 0x708020 1 = false ∧ s.boot.fatal = false) (n : NodeId) (caps : Word) :
    exec (.join n caps) s = .next (s.rxJoin n caps) := by
  show execJoin n caps s = _
  rw [execJoin, State.ifJoins, if_neg (by simp [h])]

theorem State.exec_joinAnswer {s : State} (h : s.regBit 0x708020 1 = false ∧ s.boot.fatal = false) (st : Status)
    (b : Option Book) : exec (.joinAnswer st b) s = .next (s.rxJoinAnswer st b) := by
  show execJoinAnswer st b s = _
  rw [execJoinAnswer, State.ifJoins, if_neg (by simp [h])]

/-- The state of the last JOIN, once its answer is known: STATUS as answered, RETRY clear. -/
def State.joinStatus (s : State) (st : Status) : State := (s.setRegFld 0x301008 63 48 st.toNat).setRegFld 0x301008 0 0 0

/-- A node that has joined. -/
def State.joined (s : State) (st : Status) : State :=
  (s.joinStatus st).modFab fun f => { f with joined := true, joinRefused := false }

/-- A node whose JOIN was refused: it sends no JOIN, not even a copy of the last. -/
def State.refusedAtJoin (s : State) (st : Status) : State :=
  (s.joinStatus st).modFab fun f => { f with
    joined := false, joinRefused := true, sent := f.sent.filter fun x => decide (hType x.frame ≠ Ft.join) }

theorem State.regFld_joinStatus (s : State) (st : Status) : (s.joinStatus st).regFld 0x301008 63 48 = st.toNat := by
  rw [State.regFld, State.joinStatus, State.reg_setRegFld, if_pos rfl, fld_setFld_apart _ _ _ _ _ _ (by omega),
    State.reg_setRegFld, if_pos rfl, fld_setFld_same _ _ _ _ (by omega)]
  exact Nat.mod_eq_of_lt st.isLt

/-- Settles O44: what heartbeats, notes, takeovers and JOINs send and change. -/
theorem membershipAndTakeover : Obligations.MembershipAndTakeover := by
  unfold Obligations.MembershipAndTakeover
  refine ⟨fun s => ⟨?beat, ?noBeat, ?note, ?noNote, rfl, fun _ => rfl, ?takeover, ?noTakeover⟩,
    fun s => ⟨?deaf, ?notReady, ?joins⟩⟩
  case beat =>
    intro n hm hs hroom
    refine ⟨s.sendCtl n .heartbeat, ?_, (s.sends_sendCtl ..).only, State.sentCtl_sendCtl _ ctlTag hroom⟩
    show execHeartbeatSend s = _
    rw [execHeartbeatSend, hm, if_pos rfl, hs]
  case noBeat =>
    intro hm
    show execHeartbeatSend s = _
    rw [execHeartbeatSend, hm, if_neg Bool.false_ne_true]
  case note =>
    intro n hm hbit hn hroom
    refine ⟨s.sendCtl n .liveness, ?_, (s.sends_sendCtl ..).only, State.sentCtl_sendCtl _ ctlTag hroom⟩
    show execLivenessNote s = _
    rw [execLivenessNote, if_neg (by simp [hm, hbit]), hn]
  case noNote =>
    intro hbit
    show execLivenessNote s = _
    rw [execLivenessNote, if_pos (.inr hbit)]
  case takeover =>
    intro b hrole hb
    have hexec : exec .managerLossExpiry s = .next (s.tookOver b).sendBook := by
      show execManagerLossExpiry s = _
      rw [execManagerLossExpiry, State.takeOver, if_neg (not_not.mpr hrole), hb]
      rfl
    have hmgr := State.mgr_sendBook (s := s.tookOver b) rfl
    have hdir := (s.tookOver b).directs_sendBook
    refine ⟨_, _, hexec, hdir.only, by rw [hmgr]; rfl, by rw [hmgr], rfl, rfl, rfl, by rw [hmgr]; rfl, ?_, by rw [hmgr]; rfl,
      by rw [hmgr]; rfl⟩
    show (s.tookOver b).sendBook.onTheWay = s.onTheWay + ((s.tookOver b).bookNodes b).length
    rw [State.sendBook_eq (s := s.tookOver b) rfl,
      State.onTheWay_foldl _ (fun s n => s.onTheWay_sendCtl n (.bookPart b) ctlTag)]
    rfl
  case noTakeover =>
    intro hrole
    show execManagerLossExpiry s = _
    rw [execManagerLossExpiry, State.takeOver, if_pos hrole]
  case deaf =>
    intro h
    have hj : ∀ t, s.ifJoins t = s := by
      intro t
      rw [State.ifJoins, if_pos]
      simpa using h
    exact ⟨fun n caps => congrArg Host.Outcome.next (hj _), fun st b => congrArg Host.Outcome.next (hj _)⟩
  case notReady =>
    intro h
    show execRetry s = _
    rw [execRetry, State.ifReady, if_neg (by rw [h]; decide)]
  case joins =>
    intro takes
    refine ⟨?judged, ?answer, ?refused, ?retry, ?managerRetry⟩
    case judged =>
      intro n caps htakes hm hi hroom sameVersion answered
      have hjudge : exec (.join n caps) s = .next (s.judgeJoin n caps) := by
        rw [State.exec_join htakes, State.rxJoin, if_neg (by simp [hm]), if_neg (by simp [hi])]
      have hver : (aufMax < fld caps 3 0 ∨ fld caps 7 4 < aufMax) ↔ ¬ sameVersion := by
        unfold sameVersion aufMax
        omega
      have hsend := fun st b => s.sends_joinFrame s n (.ctl (.joinAnswer st b))
      have hsent := fun st b => State.sentOne_joinFrame hroom s (.ctl (.joinAnswer st b))
      refine ⟨fun hv hnode => ?_, fun hv hnode => ?_, fun hv => ?_⟩
      · rw [State.judgeJoin, if_neg (by rw [hver]; exact not_not.mpr hv), if_neg (not_not.mpr hnode)] at hjudge
        refine ⟨_, hjudge, ⟨((hsend St.ok s.mgr.cur).directs.trans (State.directs_modMgr _ _)).only, ?_⟩, ?_⟩
        · exact (hsent St.ok s.mgr.cur).congr rfl (State.modMgr_fab ..)
        · rw [State.modMgr, (hsend St.ok s.mgr.cur).mgr]
      · rw [State.judgeJoin, if_neg (by rw [hver]; exact not_not.mpr hv), if_pos hnode] at hjudge
        exact ⟨_, hjudge, ⟨(hsend _ _).only.onlyMgr, hsent _ _⟩, (hsend _ _).mgr⟩
      · rw [State.judgeJoin, if_pos (hver.mpr hv)] at hjudge
        exact ⟨_, hjudge, ⟨(hsend _ _).only.onlyMgr, hsent _ _⟩, (hsend _ _).mgr⟩
    case answer =>
      intro b htakes hm hheld
      have hexec := State.exec_joinAnswer htakes St.ok (some b)
      obtain ⟨honly, hfab, hheld', -, hregs⟩ := (s.joined St.ok).roleUnder_spec b
      have hjudge : ((((s.joined St.ok).roleUnder b).modMgr fun g => { g with cur := some b, prev := none }).judgeHeld) =
          ((s.joined St.ok).roleUnder b).modMgr fun g => { g with cur := some b, prev := none } :=
        State.judgeHeld_of_none (hheld'.trans hheld)
      have hanswer : s.rxJoinAnswer St.ok (some b) =
          (((s.joined St.ok).roleUnder b).modMgr fun g => { g with cur := some b, prev := none }).judgeHeld := by
        unfold State.rxJoinAnswer
        dsimp only
        rw [if_pos rfl]
        rfl
      rw [hanswer, hjudge] at hexec
      refine ⟨_, hexec, (State.OnlyMgr.trans (t := s.joined St.ok) rfl honly).trans (State.directs_modMgr _ _).only, rfl, rfl,
        hfab, ?_⟩
      rw [State.regFld, State.modMgr_reg, hregs _ (by decide)]
      exact s.regFld_joinStatus St.ok
    case refused =>
      intro st b htakes hst
      have hexec := State.exec_joinAnswer htakes st b
      rw [State.rxJoinAnswer, ← State.joinStatus, if_neg hst, ← State.refusedAtJoin] at hexec
      refine ⟨_, hexec, ?_, ?_, ?_, State.mgr_raise .., State.parts_raise ..⟩
      · refine (State.raised_raise _ _ _ _ _ _ _).congr_left rfl fun o ho => ?_
        unfold eventReg at ho
        show (s.joinStatus st).reg o = _
        rw [State.joinStatus, State.reg_setRegFld, if_neg (by omega), State.reg_setRegFld, if_neg (by omega)]
      · rw [State.fab_raise]
        rfl
      · rw [State.regFld, State.reg_raise_apart _ _ _ _ _ _ _ (by unfold eventReg; omega)]
        exact s.regFld_joinStatus st
    case retry =>
      intro hready hm hroom
      have hexec : exec .retry s = .next (s.setRegFld 0x301008 0 0 1).sendJoin := by
        show execRetry s = _
        rw [execRetry, State.ifReady, if_pos hready, State.retryJoin, if_neg (by simp [hm])]
      have hcap : (s.setRegFld 0x301008 0 0 1).capWord = s.capWord := by
        have hways : (s.setRegFld 0x301008 0 0 1).ways = s.ways := by
          rw [State.ways, State.ways, State.regFld, State.regFld, State.reg_setRegFld, if_neg (by decide)]
        unfold State.capWord State.farGroups State.groupPresent
        rw [hways]
        rfl
      have hsends := (s.setRegFld 0x301008 0 0 1).sends_joinFrame (s.setRegFld 0x301008 0 0 1) s.boot.cfg.mgr
        (.join (s.setRegFld 0x301008 0 0 1).capWord)
      refine ⟨_, hexec, State.OnlySends.trans (t := s.setRegFld 0x301008 0 0 1) rfl hsends.only, ?_, ?_⟩
      · show fld (State.reg _ _) 0 0 = 1
        refine (congrArg (fun w => fld w 0 0) (hsends.regs 0x301008 (by unfold sendReg; omega))).trans ?_
        rw [State.reg_setRegFld, if_pos rfl, fld_setFld_same _ _ _ _ (by omega)]
        rfl
      · have hsent := State.sentOne_joinFrame (s := s.setRegFld 0x301008 0 0 1) (hroom.congr rfl)
          (s.setRegFld 0x301008 0 0 1) (.join (s.setRegFld 0x301008 0 0 1).capWord)
        rw [hcap] at hsent
        exact hsent.congr rfl (by rw [State.sendJoin, hcap]; rfl)
    case managerRetry =>
      intro hm
      show execRetry s = _
      rw [execRetry, State.ifReady, State.retryJoin, if_pos hm, ite_self]

end Sys2Proof.Machine
end

