-- ==== Sys2Proof/Proofs/Failures.lean ====
section
/-! PROOFS. Failed nodes and the standby (O45). -/

namespace Sys2Proof.Machine

/-! ## The count of failed nodes stands while the manager does anything else -/

/-- The count of nodes declared failed stands (Table 17.4). -/
def State.KeepsFailures (s t : State) : Prop := t.reg 0x7080B0 = s.reg 0x7080B0

theorem State.KeepsFailures.refl (s : State) : s.KeepsFailures s := rfl

theorem State.KeepsFailures.trans {s t u : State} (h1 : s.KeepsFailures t) (h2 : t.KeepsFailures u) :
    s.KeepsFailures u := Eq.trans h2 h1

theorem State.Sends.keepsFailures {s t : State} (h : s.Sends t) : s.KeepsFailures t :=
  h.regs _ (by unfold sendReg; omega)

theorem State.Directs.keepsFailures {s t : State} (h : s.Directs t) : s.KeepsFailures t :=
  h.regs _ (by unfold sendReg; omega)

theorem State.Stores.keepsFailures {s t : State} (h : s.Stores t) : s.KeepsFailures t :=
  h.regs _ (by unfold memReg; omega)

theorem State.keepsFailures_modMgr (s : State) (f : Mgr → Mgr) : s.KeepsFailures (s.modMgr f) := rfl

theorem State.keepsFailures_raise (s : State) (ev : BitVec 16) (st : Status) (src unit : Nat) (req : Word) (d : Bytes) :
    s.KeepsFailures (s.raise ev st src unit req d) :=
  s.reg_raise_apart ev st src unit req d (by unfold eventReg; omega)

theorem State.keepsFailures_addReg (s : State) {o : Nat} (n : Nat) (h : o ≠ 0x7080B0) :
    s.KeepsFailures (s.addReg o n) := by
  unfold State.KeepsFailures
  rw [State.reg_addReg, if_neg (Ne.symm h)]

theorem State.keepsFailures_foldl {α : Type} (f : State → α → State) (hf : ∀ (s : State) a, s.KeepsFailures (f s a))
    (l : List α) : ∀ s : State, s.KeepsFailures (l.foldl f s) := by
  induction l with
  | nil => exact .refl
  | cons a r ih => exact fun s => (hf s a).trans (ih _)

theorem State.keepsFailures_meterAdd (s : State) (tenant : Nat) {kind : Nat} (h : kind < 8) (n : Nat) :
    s.KeepsFailures (s.meterAdd tenant kind n) := by
  unfold State.meterAdd
  split
  · exact s.keepsFailures_addReg _ (by omega)
  · rfl

theorem State.keepsFailures_chargeSend (s : State) (f : Frame) : s.KeepsFailures (s.chargeSend f) := by
  have hshare : ∀ n, s.KeepsFailures (s.chargeBytes (tagShare f.hdr.tag) n) := by
    intro n
    refine s.keepsFailures_addReg n ?_
    have : tagShare f.hdr.tag < 32 := Nat.mod_lt _ (by decide)
    omega
  unfold State.chargeSend
  dsimp only
  split
  · unfold State.chargeFrame
    dsimp only
    split
    · exact hshare _
    · exact (hshare _).trans (State.keepsFailures_meterAdd _ _ (by decide) _)
  · split
    · rfl
    · exact hshare _

theorem State.keepsFailures_sendSeq (s : State) (f : Frame) (o : Option (PartId × Nat × Nat)) (pl : Nat) :
    s.KeepsFailures (s.sendSeq f o pl) := by
  unfold State.sendSeq State.sendNow
  dsimp only
  split
  · refine (State.KeepsFailures.trans ?_ (State.keepsFailures_chargeSend _ f)).trans
      (State.sends_keepAndSend _ _).keepsFailures
    rfl
  · rfl

theorem State.keepsFailures_sendCtl (s : State) (dst : NodeId) (c : Ctl) (t : Tag) :
    s.KeepsFailures (s.sendCtl dst c t) := (s.sends_sendCtl dst c t).keepsFailures

/-! ### The end of a request -/

theorem State.keepsFailures_putRequest (s : State) (r : ReqRec) : s.KeepsFailures (s.putRequest r) := rfl

theorem State.keepsFailures_finalAt (s : State) (m : Manifest) : s.KeepsFailures (s.finalAt m) := by
  unfold State.finalAt
  split
  · rfl
  · extract_lets id own flag count s1 s2 s3
    have hcount : ∀ (u : State) i b, i < 6 → u.KeepsFailures (count u i b) := by
      intro u i b hi
      unfold count
      split
      · exact u.keepsFailures_addReg 1 (by omega)
      · rfl
    have h1 : s.KeepsFailures s1 :=
      (((hcount _ _ _ (by omega)).trans (hcount _ _ _ (by omega))).trans (hcount _ _ _ (by omega))).trans
        (hcount _ _ _ (by omega))
    have h3 : s.KeepsFailures s3 := (h1.trans (hcount _ _ _ (by omega))).trans (hcount _ _ _ (by omega))
    clear_value own
    cases own with
    | none => exact h3
    | some r => exact h3

theorem State.keepsFailures_endAtManager (s : State) (r : ReqRec) (ph : Nat) :
    s.KeepsFailures (s.endAtManager r ph) := by
  unfold State.endAtManager
  extract_lets m s1 s2
  have h1 : s.KeepsFailures s1 := by
    unfold s1
    split
    · exact s.keepsFailures_sendCtl ..
    · rfl
  have h2 : s1.KeepsFailures s2 := by
    unfold s2
    split
    · exact s1.keepsFailures_raise ..
    · rfl
  exact ((h1.trans h2).trans ((State.sends_releaseSet ..).keepsFailures)).trans (State.keepsFailures_finalAt ..)

/-! ### The manager's caravans -/

theorem State.keepsFailures_launch (s : State) (id : ReqId) (avoid : List NodeId) : s.KeepsFailures (s.launch id avoid) := by
  unfold State.launch
  split
  · dsimp only
    split
    · exact State.KeepsFailures.trans (t := s.modMgr _) rfl (State.keepsFailures_endAtManager ..)
    · split
      · next u h =>
        obtain rfl := congrArg Prod.snd h
        rfl
      · next n p u h =>
        obtain rfl := congrArg Prod.snd h
        exact State.KeepsFailures.trans (by rfl) (State.keepsFailures_sendSeq ..)
  · rfl

theorem State.keepsFailures_tellHost (s : State) (n : NodeId) (x : HostNote) : s.KeepsFailures (s.tellHost n x) := by
  unfold State.tellHost
  split
  · rfl
  · split <;> exact s.keepsFailures_sendCtl ..

theorem State.keepsFailures_readmit (s : State) (r : ReqRec) (lost : Bool) (avoid : List NodeId) :
    s.KeepsFailures (s.readmit r lost avoid) := by
  unfold State.readmit
  split
  · exact s.keepsFailures_endAtManager ..
  · next l _ =>
    exact ((s.stores_storeLog l _).keepsFailures.trans (State.keepsFailures_putRequest ..)).trans
      (State.keepsFailures_launch ..)

theorem State.keepsFailures_stateLost (s : State) (r : ReqRec) (avoid : List NodeId) :
    s.KeepsFailures (s.stateLost r avoid) :=
  ((s.keepsFailures_raise ..).trans (State.keepsFailures_tellHost ..)).trans (State.keepsFailures_readmit ..)

theorem State.keepsFailures_requestOfFailed (s : State) (n : NodeId) (r : ReqRec) :
    s.KeepsFailures (s.requestOfFailed n r) := by
  unfold State.requestOfFailed
  dsimp only
  split
  · exact s.keepsFailures_launch ..
  · split
    · rfl
    · split
      · exact s.keepsFailures_stateLost ..
      · split
        · exact s.keepsFailures_readmit ..
        · split
          · exact (s.keepsFailures_putRequest _).trans (State.keepsFailures_launch ..)
          · rfl

/-! ### What waits for the standby, and the end of an install -/

theorem State.keepsFailures_ackAdmission (s : State) (id : ReqId) : s.KeepsFailures (s.ackAdmission id) := by
  unfold State.ackAdmission
  split
  · rfl
  · dsimp only
    split
    · rfl
    · exact ((s.keepsFailures_putRequest _).trans (State.keepsFailures_tellHost ..)).trans
        (State.directs_mirrorSend ..).keepsFailures

theorem State.keepsFailures_afterMirror (s : State) (a : AfterMirror) : s.KeepsFailures (s.afterMirror a) := by
  unfold State.afterMirror
  cases a with
  | admitted r => exact (s.keepsFailures_ackAdmission r.id).trans (State.keepsFailures_launch ..)
  | install => exact s.directs_sendBook.keepsFailures
  | ackAppend n id k => exact s.keepsFailures_sendCtl ..
  | nothing => rfl

theorem State.keepsFailures_cancelAtManager (s : State) (id : ReqId) (to_ : NodeId) :
    s.KeepsFailures (s.cancelAtManager id to_) := by
  unfold State.cancelAtManager State.answerCancel
  split
  · rfl
  · dsimp only
    split
    · exact s.keepsFailures_sendCtl ..
    · split
      · exact (s.keepsFailures_endAtManager _ _).trans (State.keepsFailures_sendCtl ..)
      · exact s.keepsFailures_sendCtl ..

theorem State.keepsFailures_judgeJoin (s : State) (n : NodeId) (caps : Word) :
    s.KeepsFailures (s.judgeJoin n caps) := by
  have hanswer : ∀ b, s.KeepsFailures (s.sendSeq (s.joinFrame n b)) := fun b => s.keepsFailures_sendSeq ..
  unfold State.judgeJoin
  dsimp only
  split
  · exact hanswer _
  · split
    · exact hanswer _
    · exact (hanswer _).trans (State.keepsFailures_modMgr ..)

theorem State.keepsFailures_stbyDone (s : State) (st : Status) : s.KeepsFailures (s.stbyDone st) :=
  (s.stbyDone_spec st).2.2.2 _ (by decide)

theorem State.keepsFailures_stbyCopy (s : State) : s.KeepsFailures s.stbyCopy := by
  unfold State.stbyCopy
  split
  · rfl
  · split
    · exact s.keepsFailures_stbyDone _
    · exact (s.sends_mirrors _ _).keepsFailures.trans (State.keepsFailures_modMgr ..)

theorem State.keepsFailures_stbyBook (s : State) : s.KeepsFailures s.stbyBook := by
  unfold State.stbyBook
  split
  · split
    · exact (s.directs_issueBook _).keepsFailures
    · rfl
  · rfl

theorem State.keepsFailures_installDone (s : State) (b : Book) : s.KeepsFailures (s.installDone b) := by
  unfold State.installDone
  extract_lets gone s1 s2 s3 s4 joins s5 s6 cancels s7 s8
  have h1 : s.KeepsFailures s1 := State.KeepsFailures.trans (by rfl) (State.keepsFailures_raise ..)
  split
  · exact h1.trans (State.KeepsFailures.trans (by rfl) (State.directs_issueBook _ _).keepsFailures)
  · have h2 : s1.KeepsFailures s2 := by
      unfold s2
      split
      · exact State.KeepsFailures.trans (by rfl) (State.keepsFailures_raise ..)
      · rfl
    have h3 : s2.KeepsFailures s3 := by
      unfold s3
      split
      · split
        · exact s2.keepsFailures_stbyDone _
        · split
          · exact s2.keepsFailures_stbyBook
          · exact s2.keepsFailures_stbyCopy
      · rfl
    have h4 : s3.KeepsFailures s4 := by
      unfold s4
      split
      · exact (s3.directs_issueBook b).keepsFailures
      · rfl
    have h6 : s5.KeepsFailures s6 := State.keepsFailures_foldl _ (fun s j => s.keepsFailures_judgeJoin j.1 j.2) joins s5
    have h8 : s7.KeepsFailures s8 :=
      State.keepsFailures_foldl _ (fun s c => s.keepsFailures_cancelAtManager c.1 c.2) cancels s7
    have h45 : s4.KeepsFailures s5 := rfl
    have h67 : s6.KeepsFailures s7 := rfl
    exact (((((((h1.trans h2).trans h3).trans h4).trans h45).trans h6).trans h67).trans h8).trans
      (State.keepsFailures_foldl _ (fun s (r : ReqRec) => s.keepsFailures_launch r.id []) _ s8)

theorem State.keepsFailures_installCheck (s : State) : s.KeepsFailures s.installCheck := by
  unfold State.installCheck
  split
  · split
    · exact s.keepsFailures_installDone _
    · rfl
  · rfl

/-! ## A node is declared failed (R32, R405, R406) -/

/-- The manager's state once a node has been declared failed: the node is listed and awaited no more. -/
def Mgr.withFailed (g : Mgr) (n : NodeId) : Mgr :=
  { g with failedNodes := g.failedNodes ++ [n],
           install := g.install.map fun x =>
             { x with waiting := x.waiting.filter (· ≠ n), busy := x.busy.filter (· ≠ n) } }

/-- The event is raised, the failure counted and the node listed. -/
def State.declared (s : State) (n : NodeId) : State :=
  ((s.raise Ev.nodeFailed St.ok 16 0xFF 0 (evDetail 0 0 n.val)).addReg 0x7080B0 1).modMgr fun g => g.withFailed n

theorem State.reg_declared (s : State) (n : NodeId) : (s.declared n).reg 0x7080B0 = s.reg 0x7080B0 + 1 := by
  rw [State.declared, State.modMgr_reg, State.reg_addReg, if_pos rfl,
    State.reg_raise_apart _ _ _ _ _ _ _ (by unfold eventReg; omega)]
  rfl

theorem State.raised_declared (s : State) (n : NodeId) : s.Raised (s.declared n) Ev.nodeFailed :=
  (s.raised_raise Ev.nodeFailed St.ok 16 0xFF 0 (evDetail 0 0 n.val)).congr rfl fun o ho => by
    unfold eventReg at ho
    rw [State.declared, State.modMgr_reg, State.reg_addReg, if_neg (by omega)]

theorem State.mgr_declared (s : State) (n : NodeId) : (s.declared n).mgr = s.mgr.withFailed n := by
  show (s.raise _ _ _ _ _ _).mgr.withFailed n = _
  rw [State.mgr_raise]

theorem State.parts_declared (s : State) (n : NodeId) : (s.declared n).parts = s.parts := State.parts_raise ..
theorem State.mem_declared (s : State) (n : NodeId) : (s.declared n).mem = s.mem := State.mem_raise ..

theorem not_failure_ignored {s : State} {n : NodeId} (hm : s.isManager = true) (hn : n ≠ s.fab.node)
    (hf : s.mgr.failedNodes.contains n = false) :
    ¬ (s.isManager = false ∨ n = s.fab.node ∨ s.mgr.failedNodes.contains n = true) := by
  rw [hm, hf]
  simp [hn]

/-- Whatever else a failure brings, it is counted once. -/
theorem State.reg_nodeFailed {s : State} {n : NodeId} (hm : s.isManager = true) (hn : n ≠ s.fab.node)
    (hf : s.mgr.failedNodes.contains n = false) : (s.nodeFailed n).reg 0x7080B0 = s.reg 0x7080B0 + 1 := by
  rw [← s.reg_declared n]
  show (s.declared n).KeepsFailures (s.nodeFailed n)
  unfold State.nodeFailed
  rw [if_neg (not_failure_ignored hm hn hf)]
  extract_lets s1 was s2 s3 l s4 s5 s6
  have h2 : s.declared n = s2 := rfl
  have h3 : s2.KeepsFailures s3 := by
    unfold s3
    split
    · exact s2.keepsFailures_stbyDone _
    · rfl
  have h5 : s3.KeepsFailures s5 := by
    unfold s5
    split
    · exact State.KeepsFailures.trans (by rfl) (State.keepsFailures_foldl _ (fun s a => s.keepsFailures_afterMirror a) l s4)
    · rfl
  have h6 : s5.KeepsFailures s6 := by
    unfold s6
    split
    · split
      · exact (s5.directs_issueBook _).keepsFailures
      · exact s5.keepsFailures_installCheck
    · rfl
  rw [h2]
  exact ((h3.trans h5).trans h6).trans
    (State.keepsFailures_foldl _ (fun s (r : ReqRec) => s.keepsFailures_requestOfFailed n r) _ s6)

/-- The failure of a node that is neither the standby nor the candidate: the next book is issued, or the install goes on
without the node. -/
theorem State.nodeFailed_eq {s : State} {n : NodeId} {b : Book} (hm : s.isManager = true) (hn : n ≠ s.fab.node)
    (hf : s.mgr.failedNodes.contains n = false) (hb : s.mgr.cur = some b) (hst : b.stby ≠ some n)
    (hc : s.mgr.copyTo ≠ some n) :
    s.nodeFailed n =
      let u := if s.mgr.install.isNone then (s.declared n).issueBook b else (s.declared n).installCheck
      u.mgr.requests.foldl (fun s r => s.requestOfFailed n r) u := by
  have hwas : s.stby ≠ some n := by
    rw [State.stby, State.book, hb]
    intro h
    exact hst (Option.filter_eq_some_iff.mp h).1
  have hmgr := s.mgr_declared n
  unfold State.nodeFailed
  rw [if_neg (not_failure_ignored hm hn hf)]
  extract_lets s1 was s2 s3 l s4 s5 s6
  have hwas1 : s1.stby ≠ some n := by
    rwa [show s1.stby = s.stby from ?_]
    show ((s.raise _ _ _ _ _ _).mgr.cur.bind (·.stby)).filter (fun n => n ≠ (s.raise _ _ _ _ _ _).fab.node) = _
    rw [State.mgr_raise, State.fab_raise]
    rfl
  have h2 : s2 = s.declared n := rfl
  have h3 : s3 = s2 := if_neg (by rw [h2, hmgr]; exact hc)
  have h5 : s5 = s3 := if_neg (by simpa [was] using hwas1)
  have hcur : (s.declared n).mgr.cur = some b := by rw [hmgr]; exact hb
  have hinst : (s.declared n).mgr.install.isNone = s.mgr.install.isNone := by
    rw [hmgr, Mgr.withFailed, Option.isNone_map]
  have h6 : s6 = if s.mgr.install.isNone then (s.declared n).issueBook b else (s.declared n).installCheck := by
    unfold s6
    rw [h5, h3, h2, hcur]
    dsimp only
    rw [hinst]
  rw [h6]

theorem State.exec_failureNote {s : State} {n : NodeId} {code : BitVec 16} (hcode : evSeverity code = 3)
    (hacc : s.accepts = true) (hs : s.serves n = true) : exec (.failureNote n code) s = .next (s.nodeFailed n) := by
  show execFailureNote n code s = _
  rw [execFailureNote, State.ifTakes, if_pos hacc, if_pos ⟨hcode, hs⟩]

theorem State.exec_nodeSilenceExpiry {s : State} {n : NodeId} (hs : s.serves n = true) :
    exec (.nodeSilenceExpiry n) s = .next (s.nodeFailed n) := by
  show execNodeSilenceExpiry n s = _
  rw [execNodeSilenceExpiry, if_pos hs]

theorem State.exec_installTimeout {s : State} {n : NodeId} {x : Install} (hx : s.mgr.install = some x)
    (hsent : x.sent = true) (hw : x.waiting.contains n = true) :
    exec (.installTimeout n) s = .next (s.nodeFailed n) := by
  show execInstallTimeout n s = _
  rw [execInstallTimeout, State.installTimeout, hx]
  dsimp only
  rw [if_pos ⟨hsent, hw⟩]

/-- A book that is made lists the failed nodes REMOVED. -/
theorem State.removed_bookMade {s : State} {n : NodeId} (b : Book) (h : s.mgr.failedNodes.contains n = true) :
    (∀ e ∈ (s.bookMade b).nodes, e.node = n → e.state = .removed) ∧ ∀ e ∈ (s.bookMade b).pools, e.node ≠ n := by
  constructor
  · intro e he hen
    obtain ⟨e0, -, rfl⟩ := List.mem_map.mp (show e ∈ (addJoined s.mgr.waitingJoins b).nodes.map fun n =>
      if s.mgr.failedNodes.contains n.node then { n with state := .removed } else n from he)
    split
    · rfl
    · next hno =>
      rw [if_neg hno] at hen
      rw [hen] at hno
      exact absurd h hno
  · intro e he hen
    have hmem := List.mem_filter.mp (show e ∈ (addJoined s.mgr.waitingJoins b).pools.filter fun e =>
      !s.mgr.failedNodes.contains e.node from he)
    rw [hen, h] at hmem
    exact absurd hmem.2 (by decide)

/-! ## Mirror copies at the standby (R34, R35) -/

/-- What a mirror copy changes of the standby's tables. -/
def State.mirrored (s : State) (m : Mirror) : State :=
  match m with
  | .book b => s.modMgr fun g => { g with mirrored := some b }
  | .log l => s.putLog l
  | .request r =>
    let s := s.putRequest r
    if terminal r.phase.toNat then s.modMgr fun g => { g with logs := g.logs.filter fun l => l.id ≠ r.id } else s
  | .idBlock n => s.modMgr fun g => { g with idBlock := n }

theorem State.mirrored_only (s : State) (m : Mirror) : s.mirrored m = { s with mgr := (s.mirrored m).mgr } := by
  unfold State.mirrored
  cases m with
  | book b => rfl
  | log l => rfl
  | request r =>
    dsimp only
    split <;> rfl
  | idBlock n => rfl

theorem State.mirrored_keeps (s : State) (m : Mirror) :
    (s.mirrored m).mgr.cur = s.mgr.cur ∧ (s.mirrored m).mgr.role = s.mgr.role := by
  unfold State.mirrored
  cases m with
  | book b => exact ⟨rfl, rfl⟩
  | log l => exact ⟨rfl, rfl⟩
  | request r =>
    dsimp only
    split <;> exact ⟨rfl, rfl⟩
  | idBlock n => exact ⟨rfl, rfl⟩

/-- A standby acknowledges each mirror copy. -/
theorem State.rxMirror_standby {s : State} {n : NodeId} (hr : s.mgr.role = .standby) (hn : s.mgrNode = some n)
    (m : Mirror) : s.rxMirror m = (s.mirrored m).sendCtl n .mirrorAck := by
  obtain ⟨hcur, hrole⟩ := s.mirrored_keeps m
  have hn' : (s.mirrored m).mgrNode = some n := by rw [State.mgrNode, State.book, hcur]; exact hn
  show (match (s.mirrored m).mgrNode with | none => _ | some n => _) = _
  rw [hn']
  exact if_pos (hrole.trans hr)

/-! ## The standby command (R422) -/

theorem State.exec_standbyEnable {s : State} (h : s.boot.ready = true) (v : Word) :
    exec (.standbyEnable v) s = .next (s.standbyEnable v) := by
  show execStandbyEnable v s = _
  rw [execStandbyEnable, State.ifReady, if_pos h]

/-- What goes to a candidate standby: both books, every prompt log, the request table and the id counter. -/
def Mgr.wholeCopy (g : Mgr) : List Mirror :=
  (g.cur.toList.map .book) ++ (g.prev.toList.map .book) ++ g.logs.map .log ++ g.requests.map .request ++
    [.idBlock (g.nextId / 4096 * 4096)]

theorem Mgr.length_wholeCopy (g : Mgr) : g.wholeCopy.length =
    g.cur.toList.length + g.prev.toList.length + g.logs.length + g.requests.length + 1 := by
  simp only [Mgr.wholeCopy, List.length_append, List.length_map, List.length_singleton]

theorem State.stbyCopy_eq {s : State} {n : NodeId} (hc : s.mgr.copyTo = some n) (ha : s.nodeState n = .active)
    (hn : n ≠ s.fab.node) : s.stbyCopy = (s.mgr.wholeCopy.foldl (fun (s : State) m => s.sendCtl n (.mirror m)) s).modMgr
      fun g => { g with copyStarted := true } := by
  unfold State.stbyCopy
  rw [hc]
  dsimp only
  rw [if_neg (by simp [ha, hn])]
  rfl

/-- RK_STBY and the manager as a standby command starts. -/
def State.commanded (s : State) (v : Word) : State :=
  (((s.setRegFld 0x2020 9 0 (fld v 9 0)).setRegFld 0x2020 31 31 1).setRegFld 0x2020 16 16 1).modMgr fun g =>
    { g with copyTo := some (nodeOf (fld v 9 0)), copyStarted := false, copyAcked := false }

theorem State.regFld_commanded (s : State) (v : Word) :
    (s.commanded v).regFld 0x2020 9 0 = fld v 9 0 ∧ (s.commanded v).regFld 0x2020 31 31 = 1 ∧
      (s.commanded v).regFld 0x2020 16 16 = 1 := by
  have h : (s.commanded v).reg 0x2020 =
      setFld (setFld (setFld (s.reg 0x2020) 9 0 (fld v 9 0)) 31 31 1) 16 16 1 := by
    simp only [State.commanded, State.modMgr_reg, State.reg_setRegFld, if_true]
  rw [State.regFld, State.regFld, State.regFld, h]
  refine ⟨?_, ?_, ?_⟩
  · rw [fld_setFld_apart _ _ _ _ _ _ (by omega), fld_setFld_apart _ _ _ _ _ _ (by omega),
      fld_setFld_same _ _ _ _ (by omega)]
    exact Nat.mod_eq_of_lt (Nat.mod_lt _ (by decide))
  · rw [fld_setFld_apart _ _ _ _ _ _ (by omega), fld_setFld_same _ _ _ _ (by omega)]
    rfl
  · rw [fld_setFld_same _ _ _ _ (by omega)]
    rfl

/-- Settles O45: a failure is counted and the next book made without the node; a standby follows the manager's tables. -/
theorem failedNodesAndTheStandby : Obligations.FailedNodesAndTheStandby := by
  unfold Obligations.FailedNodesAndTheStandby
  refine ⟨fun s n hm hn hf => ?_, fun s => ⟨?deaf, ?notReady, ?mirror, ?enable, ?ignored, ?copied, ?stranger⟩⟩
  · intro alone
    refine ⟨?issued, ?timeout, ?counted, ?mild⟩
    case issued =>
      intro i b hcur hst halone hi hstate hinst hbytes hranges
      obtain ⟨hcopy, hreq⟩ := halone
      have hserves : s.serves n = true := by rw [State.serves, hf]; simp [hstate]
      have hexec : exec i s = .next (s.nodeFailed n) := by
        rcases hi with rfl | rfl | ⟨code, rfl, hcode, hacc⟩
        · rfl
        · exact State.exec_nodeSilenceExpiry hserves
        · exact State.exec_failureNote hcode hacc hserves
      have hmgr := s.mgr_declared n
      have hm' : (s.declared n).isManager = true := by rw [State.isManager, hmgr]; exact hm
      have hinst' : (s.declared n).mgr.install = none := by rw [hmgr, Mgr.withFailed, hinst]; rfl
      obtain ⟨x, ms, hbook, hx⟩ := State.mgr_issueBook hm' hinst' hbytes hranges
      have heq : s.nodeFailed n = (s.declared n).issueBook b := by
        rw [State.nodeFailed_eq hm hn hf hcur hst hcopy, hinst]
        show ((s.declared n).issueBook b).mgr.requests.foldl _ ((s.declared n).issueBook b) = _
        rw [hbook, hmgr]
        show s.mgr.requests.foldl _ _ = _
        rw [hreq, List.foldl_nil]
      have hdir := (s.declared n).directs_issueBook b
      have hlisted : (s.declared n).mgr.failedNodes.contains n = true := by
        rw [hmgr, Mgr.withFailed]
        simp
      obtain ⟨hnodes, hpools⟩ := State.removed_bookMade b hlisted
      rw [heq] at hexec
      refine ⟨_, x, hexec, (s.raised_declared n).directs hdir, ?_, by rw [hbook], ?_, ?_, ?_, ?_, ?_⟩
      · rw [hdir.keepsFailures, s.reg_declared n]
      · rw [hx, State.epoch_bookMade, hmgr]
        show (s.mgr.cur.map _).getD 1 = _
        rw [hcur]
        rfl
      · rw [hx]
        exact hnodes
      · rw [hx]
        exact hpools
      · rw [hdir.parts, s.parts_declared n]
      · rw [hdir.mem, s.mem_declared n]
    case timeout =>
      intro x b hcur hst halone hinst hsent hw hrest
      obtain ⟨hcopy, hreq⟩ := halone
      obtain ⟨m, hm1, hm2⟩ := hrest
      have hmgr := s.mgr_declared n
      have hcheck : (s.declared n).installCheck = s.declared n := by
        unfold State.installCheck
        rw [hmgr, Mgr.withFailed, hinst, Option.map_some]
        dsimp only
        rw [if_neg]
        rintro ⟨-, h, -⟩
        have hmem : m ∈ x.waiting.filter (· ≠ n) := List.mem_filter.mpr ⟨hm1, decide_eq_true hm2⟩
        rw [h] at hmem
        exact absurd hmem List.not_mem_nil
      have heq : s.nodeFailed n = s.declared n := by
        rw [State.nodeFailed_eq hm hn hf hcur hst hcopy, hinst]
        show (s.declared n).installCheck.mgr.requests.foldl _ (s.declared n).installCheck = _
        rw [hcheck, hmgr]
        show s.mgr.requests.foldl _ _ = _
        rw [hreq, List.foldl_nil]
      have hexec := State.exec_installTimeout hinst hsent hw
      rw [heq] at hexec
      refine ⟨_, hexec, s.raised_declared n, s.reg_declared n, ?_, s.parts_declared n, s.mem_declared n⟩
      rw [hmgr, Mgr.withFailed, hinst]
      rfl
    case counted =>
      intro i hi
      have hexec : exec i s = .next (s.nodeFailed n) := by
        rcases hi with rfl | ⟨hs, rfl | ⟨code, rfl, hcode, hacc⟩⟩ | ⟨rfl, x, hx, hsent, hw⟩
        · rfl
        · exact State.exec_nodeSilenceExpiry hs
        · exact State.exec_failureNote hcode hacc hs
        · exact State.exec_installTimeout hx hsent hw
      exact ⟨_, hexec, State.reg_nodeFailed hm hn hf⟩
    case mild =>
      intro code h
      show execFailureNote n code s = _
      rw [execFailureNote]
      rcases h with h | h
      · rw [if_neg (fun h' => h h'.1), State.ifTakes, ite_self]
      · rw [State.ifTakes, if_neg (by rw [h]; decide)]
  case deaf =>
    intro hacc
    have hno : ∀ t, s.ifTakes t = s := fun t => by rw [State.ifTakes, if_neg (by rw [hacc]; decide)]
    exact ⟨fun m => congrArg Host.Outcome.next (hno _), fun n => congrArg Host.Outcome.next (hno _)⟩
  case notReady =>
    intro h v
    show execStandbyEnable v s = _
    rw [execStandbyEnable, State.ifReady, if_neg (by rw [h]; decide)]
  case mirror =>
    intro m n hacc hrole hn hroom
    have hexec : exec (.mirrorCopy m) s = .next ((s.mirrored m).sendCtl n .mirrorAck) := by
      show execMirrorCopy m s = _
      rw [execMirrorCopy, State.ifTakes, if_pos hacc, State.rxMirror_standby hrole hn]
    have honly := s.mirrored_only m
    have hfab : (s.mirrored m).fab = s.fab := by rw [honly]
    have hsends := (s.mirrored m).sends_sendCtl n .mirrorAck ctlTag
    have hmgr := hsends.mgr
    refine ⟨_, hexec, State.OnlyMgr.trans (t := s.mirrored m) ?_ hsends.only.onlyMgr,
      (State.sentCtl_sendCtl .mirrorAck ctlTag (hroom.congr hfab)).congr hfab rfl, ?_⟩
    · unfold State.OnlyMgr
      rw [honly]
    · cases m with
      | book b =>
        dsimp only
        rw [hmgr]
        rfl
      | log l =>
        dsimp only
        rw [State.logOf, hmgr]
        exact ⟨s.logOf_putLog l, rfl⟩
      | request r =>
        dsimp only
        rw [State.logOf, State.request, hmgr, State.mirrored]
        by_cases ht : terminal r.phase.toNat = true
        · rw [if_pos ht, if_pos ht]
          refine ⟨s.request_putRequest r, rfl, ?_⟩
          rw [List.find?_eq_none]
          intro l hl
          simpa using (List.mem_filter.mp hl).2
        · rw [if_neg ht, if_neg ht]
          exact ⟨s.request_putRequest r, rfl, rfl⟩
      | idBlock k =>
        dsimp only
        rw [hmgr]
        rfl
  case enable =>
    intro v hready hgo hm hst hcopy hinst n hact hn
    have hcmd : s.standbyEnable v = (s.commanded v).stbyCopy := by
      unfold State.standbyEnable
      rw [if_neg (by rw [hgo]; decide), if_neg (by simp [hm, hst]), if_neg (by simp [hcopy])]
      extract_lets s1 s2
      have hi : s2.mgr.install = none := hinst
      rw [if_neg (by rw [hi]; simp)]
      rfl
    have hexec := State.exec_standbyEnable hready v
    rw [hcmd, State.stbyCopy_eq (s := s.commanded v) (n := n) rfl hact hn] at hexec
    have hsends := (s.commanded v).sends_mirrors n (s.commanded v).mgr.wholeCopy
    have hregs : ∀ hi lo, (((s.commanded v).mgr.wholeCopy.foldl (fun (s : State) m => s.sendCtl n (.mirror m))
        (s.commanded v)).modMgr fun g => { g with copyStarted := true }).regFld 0x2020 hi lo =
        (s.commanded v).regFld 0x2020 hi lo := by
      intro hi lo
      rw [State.regFld, State.modMgr_reg, hsends.regs _ (by unfold sendReg; omega), State.regFld]
    obtain ⟨hf1, hf2, hf3⟩ := s.regFld_commanded v
    refine ⟨_, hexec, (State.OnlyMgr.trans (t := s.commanded v) rfl hsends.only.onlyMgr).trans
      (State.directs_modMgr _ _).only, ?_, ?_, ?_, ?_, ?_⟩
    · rw [State.modMgr, hsends.mgr]
      rfl
    · rw [hregs, hf1]
    · rw [hregs, hf2]
    · rw [hregs, hf3]
    · show (((s.commanded v).mgr.wholeCopy.foldl _ (s.commanded v)).modMgr _).onTheWay = s.onTheWay + _ + _ + _ + _ + 1
      rw [State.onTheWay_modMgr, State.onTheWay_foldl _ (fun s m => s.onTheWay_sendCtl n (.mirror m) ctlTag),
        Mgr.length_wholeCopy]
      show s.onTheWay + (s.mgr.cur.toList.length + s.mgr.prev.toList.length + s.mgr.logs.length +
        s.mgr.requests.length + 1) = _
      omega
  case ignored =>
    intro v hready hgo h
    have hcmd : s.standbyEnable v = s.writeIgnored 0x2020 := by
      unfold State.standbyEnable
      rw [if_neg (by rw [hgo]; decide), if_pos h]
    refine ⟨_, hcmd ▸ State.exec_standbyEnable hready v, State.raised_raise .., State.onlyEvents_raise .., ?_⟩
    exact State.reg_raise_apart _ _ _ _ _ _ _ (by unfold eventReg; omega)
  case copied =>
    intro n b hacc hcopy hstart hcur hst hinst hm hbytes hranges hfailed
    have hexec : exec (.standbyCopyAck n) s =
        .next ((s.modMgr fun g => { g with copyAcked := true }).issueBook { b with stby := some n }) := by
      show execStandbyCopyAck n s = _
      rw [execStandbyCopyAck, State.ifTakes, if_pos hacc, State.stbyCopied, if_pos ⟨hcopy, hstart⟩]
      unfold State.stbyBook
      simp [State.modMgr, hcopy, hcur, hinst, hst]
    obtain ⟨x, ms, hbook, hx⟩ := State.mgr_issueBook (s := s.modMgr fun g => { g with copyAcked := true })
      (b := { b with stby := some n }) hm hinst hbytes hranges
    refine ⟨_, x, hexec, State.OnlyMgr.trans (State.directs_modMgr s _).only (State.directs_issueBook _ _).only,
      by rw [hbook], ?_, ?_⟩
    · rw [hx]
      show (some n).filter (fun n => !s.mgr.failedNodes.contains n) = some n
      rw [hfailed]
      rfl
    · rw [hx, State.epoch_bookMade]
      show (s.mgr.cur.map _).getD 1 = _
      rw [hcur]
      rfl
  case stranger =>
    intro n h
    show execStandbyCopyAck n s = _
    rw [execStandbyCopyAck, State.stbyCopied, if_neg (fun h' => h h'.1), State.ifTakes, ite_self]

end Sys2Proof.Machine
end

