-- ==== Sys2Proof/Proofs/Sessions.lean ====
section
/-! PROOFS. Parked sessions (O37). -/

namespace Sys2Proof.Machine

/-! ## Continuations (R17, R20) -/

/-- The prompt log of a request that resumes: a continuation appends its tokens in a new turn. -/
def resumedLog (l : PromptLog) (evicted : Bool) (tokens : List (BitVec 18)) : PromptLog :=
  if evicted then l else { l with turn := if l.turn = 0xFFFF then l.turn else l.turn + 1,
                                  entries := l.entries ++ inputEntries tokens }

/-- The manifest that resumes, before its phase is written. -/
def State.resumedManifest (s : State) (m : Manifest) (l : PromptLog) (evicted : Bool) (gen : BitVec 16) (keep : Bool) :
    Manifest :=
  let n := mWithLog m l
  let n := if evicted then n else mWithFlag { n with w2 := setFld n.w2 27 12 gen.toNat } flKeep keep
  mWithOwner { n with w1 := setFld n.w1 25 20 0, w5 := setFld n.w5 51 0 (mPtAddr m % 2 ^ 42),
                      w6 := setFld n.w6 51 0 (s.logAt (l.id)) } s.fab.node.val 0

/-- The record of a request that resumes. -/
def State.resumedRecord (s : State) (r : ReqRec) (m : Manifest) : ReqRec :=
  { r with phase := 5, node := s.fab.node, part := 0, mft := mWithPhase m Ph.resume s.epoch }

theorem length_inputEntries (l : List (BitVec 18)) : (inputEntries l).length = l.length := by
  cases l with
  | nil => rfl
  | cons t r => simp [inputEntries]

section
variable (s : State) (m : Manifest) (l : PromptLog) (evicted : Bool) (gen : BitVec 16) (keep : Bool)

theorem State.mHops_resumedManifest : mHops (s.resumedManifest m l evicted gen keep) = 0 := by
  show fld (setFld (setFld (setFld _ 25 20 0) 51 42 s.fab.node.val) 55 52 0) 25 20 = 0
  rw [fld_setFld_apart _ _ _ _ _ _ (by omega), fld_setFld_apart _ _ _ _ _ _ (by omega),
    fld_setFld_same _ _ _ _ (by omega)]
  rfl

theorem State.mNextPos_resumedManifest (h : l.entries.length ≤ 16777215) :
    mNextPos (s.resumedManifest m l evicted gen keep) = l.entries.length := by
  have hw : (s.resumedManifest m l evicted gen keep).w3 = (mWithLog m l).w3 := by cases evicted <;> rfl
  rw [mNextPos, hw]
  show fld (setFld (setFld (setFld m.w3 63 48 l.turn.toNat) 47 24 (logInputs l)) 23 0 l.entries.length) 23 0 = _
  rw [fld_setFld_same _ _ _ _ (by omega)]
  exact Nat.mod_eq_of_lt (by omega)

theorem State.mFlag_resumedManifest (h : evicted = false) :
    mFlag (s.resumedManifest m l evicted gen keep) flKeep = keep := by
  rw [h]
  exact mFlag_mWithFlag_same _ flKeep keep (by decide)

end

/-- A parked request resumes: with a continuation, or, evicted, without one. -/
theorem State.continuation_eq {s : State} {id : ReqId} {r : ReqRec} {l : PromptLog} {tokens : List (BitVec 18)}
    (hm : s.isManager = true) (hr : s.request id = some r) (hl : s.logOf id = some l) (hp : r.phase.toNat = Ph.park)
    (he : mFlag r.mft flEvicted = decide (tokens = [])) (hn : l.entries.length + tokens.length ≤ 16777215)
    (gen : BitVec 16) (keep : Bool) {l' : PromptLog} (hl' : resumedLog l (mFlag r.mft flEvicted) tokens = l')
    {r' : ReqRec} (hr' : s.resumedRecord r (s.resumedManifest r.mft l' (mFlag r.mft flEvicted) gen keep) = r') :
    s.continuation id tokens gen keep = (s.entered l' r').mirrorOut [.log l', .request r'] (.admitted r') := by
  have hid : l.id = id := State.id_of_logOf hl
  have hcond : ¬ (s.isManager = false ∨ r.phase.toNat ≠ Ph.park ∨ mFlag r.mft flEvicted = decide (tokens ≠ []) ∨
      16777215 < l.entries.length + tokens.length) := by
    rw [hm, he]
    by_cases ht : tokens = []
    · simp [hp, ht] at hn ⊢
      exact hn
    · simp [hp, ht]
      exact hn
  unfold State.continuation
  simp only [hr, hl]
  rw [if_neg hcond]
  have hlog : (resumedLog l (mFlag r.mft flEvicted) tokens).id = id := by
    unfold resumedLog
    split <;> exact hid
  rw [← hr', ← hl']
  unfold State.resumedManifest
  rw [hlog]
  rfl

/-! ## The end of a parked request (R17, R20) -/

theorem State.onTheWay_releaseSet (s : State) (unit : Nat) (m : Manifest) (k copy upTo : Option Nat) :
    (s.releaseSet unit m k copy upTo).onTheWay =
      s.onTheWay + ((k.bind s.heldSet).map (·.members.length)).getD 0 := by
  unfold State.releaseSet
  split
  · next h => rw [h]; rfl
  · next c h =>
    rw [h, State.onTheWay_foldl _ fun s n => s.onTheWay_sendSeq _ _ _ (by rw [State.hType_ctlFrame]; decide)]
    rfl

/-- A request that the manager does not send, ended other than FAILED: its cache set is released and its end recorded. -/
theorem State.endAtManager_eq {s : State} {r : ReqRec} {ph : Nat} (hs : ∀ x ∈ s.mgr.sends, x.id ≠ r.id)
    (hp : ph ≠ Ph.failed) : s.endAtManager r ph =
      (s.releaseSet unitRk (mWithPhase r.mft ph s.epoch)
        (if mCacheSet r.mft = 0xFFF then none else some (mCacheSet r.mft))).finalAt (mWithPhase r.mft ph s.epoch) := by
  have hnone : (s.mgr.sends.find? fun x => decide (x.id = r.id)) = none := by
    rw [List.find?_eq_none]
    intro x hx
    simpa using hs x hx
  unfold State.endAtManager
  simp only [hnone, if_neg hp]
  rfl

/-- Settles O37: what continuations, closes, leases and evictions do to a parked request. -/
theorem parkedSessions : Obligations.ParkedSessions := by
  unfold Obligations.ParkedSessions
  intro s id r hm hr
  have hid := State.id_of_request hr
  refine ⟨?resume, ?close, ?evict, ?stays⟩
  case resume =>
    intro l tokens gen keep hl hp he hn resumes
    have hexec : exec (.continuationAdmit id tokens gen keep) s = .next (s.continuation id tokens gen keep) := rfl
    generalize hl' : resumedLog l (mFlag r.mft flEvicted) tokens = l'
    generalize hn' : s.resumedManifest r.mft l' (mFlag r.mft flEvicted) gen keep = m'
    generalize hr0 : s.resumedRecord r m' = r0
    rw [State.continuation_eq hm hr hl hp he hn gen keep hl' (by rw [hn', hr0])] at hexec
    have hlid : l'.id = id := by
      rw [← hl', ← State.id_of_logOf hl]
      unfold resumedLog
      split <;> rfl
    have hentries : l'.entries = l.entries ++ inputEntries tokens ∧
        l'.turn = if tokens = [] ∨ l.turn = 0xFFFF then l.turn else l.turn + 1 := by
      rw [← hl', he]
      by_cases ht : tokens = []
      · simp [resumedLog, ht, inputEntries]
      · simp [resumedLog, ht]
    have hlen : l'.entries.length = l.entries.length + tokens.length := by
      rw [hentries.1, List.length_append, length_inputEntries]
    have hmhops : mHops m' = 0 := by rw [← hn', State.mHops_resumedManifest]
    have hmnext : mNextPos m' = l.entries.length + tokens.length := by
      rw [← hn', State.mNextPos_resumedManifest _ _ _ _ _ _ (by omega), hlen]
    have hmkeep : tokens ≠ [] → mFlag m' flKeep = keep := fun ht => by
      rw [← hn', State.mFlag_resumedManifest _ _ _ _ _ _ (by rw [he]; simpa using ht)]
    have hr0id : r0.id = id := by rw [← hr0]; exact hid
    have hr0mft : r0.mft = mWithPhase m' Ph.resume s.epoch := by rw [← hr0]; rfl
    have hr0phase : r0.phase = 5 := by rw [← hr0]; rfl
    have hr0node : r0.node = s.fab.node := by rw [← hr0]; rfl
    have hr0mphase : mPhase r0.mft = r0.phase.toNat := by rw [hr0mft, mPhase_mWithPhase, hr0phase]; rfl
    obtain ⟨hreq, hlog, hparts, -, hreg, hst⟩ := s.entered_spec l' r0
    rw [hlid, ← hr0id] at hlog
    have hresumes : ∀ t r', exec (.continuationAdmit id tokens gen keep) s = .next t → t.request r0.id = some r' →
        Relaunched r0 r' → t.mgr.logs = (s.entered l' r0).mgr.logs → t.parts = (s.entered l' r0).parts →
        resumes t r' := by
      intro t r' ht hreq' hrel hlogs hparts'
      obtain ⟨-, hw2, hw3, -, hphase, hcrc⟩ := hrel.words
      have hsame := hrel.1
      refine ⟨ht, by rw [← hr0id, hreq'], ⟨l', ?_, hentries⟩, ?_, ?_, ?_, ?_, fun hne => ?_, ?_, hparts'.trans hparts⟩
      · rw [State.logOf, hlogs, ← hr0id]
        exact hlog
      · rw [hsame, ← hr0phase]
      · rw [hsame, ← hr0node]
      · rw [hphase hr0mphase, hr0phase]
        rfl
      · rw [mNextPos, hw3, hr0mft]
        exact hmnext
      · rw [mFlag, hw2, hr0mft]
        exact hmkeep hne
      · exact hcrc (by rw [hr0mft, mCrcOk_mWithPhase])
    refine ⟨fun hreg0 => ?_, fun n hstby => ?_⟩
    · obtain ⟨⟨r', hreq', hrel⟩, hlogs, -, hparts'⟩ := State.launched_mirrorOut hreq hlog
        (by rw [hr0mft, mHops_mWithPhase, hmhops, hreg]; exact hreg0) [.log l', .request r0]
      exact ⟨_, r', hresumes _ r' (hexec) hreq' hrel hlogs hparts'⟩
    · obtain ⟨hreq', hlast, hlogs, -, hparts'⟩ := State.mirrorOut_waiting (by rw [hst, hstby]) hreq [.log l', .request r0]
      exact ⟨_, r0, hresumes _ r0 (hexec) hreq' ⟨rfl, .inl rfl⟩ hlogs hparts',
        by rw [hr0mft, mHops_mWithPhase, hmhops], hlast⟩
  case close =>
    intro i hi hp hrid hsends
    have hexec : exec i s = .next (s.endAtManager r Ph.done) := by
      have hdone : s.parkDone id = s.endAtManager r Ph.done := by
        rw [State.parkDone, hr]
        exact if_pos ⟨hm, hp⟩
      rcases hi with rfl | rfl <;> exact congrArg Host.Outcome.next hdone
    rw [State.endAtManager_eq (by rw [hid]; exact hsends) (by decide)] at hexec
    generalize hk : (if mCacheSet r.mft = 0xFFF then none else some (mCacheSet r.mft)) = k at hexec
    generalize hmd : mWithPhase r.mft Ph.done s.epoch = m at hexec
    have hmid : mReqId m = id := by rw [← hmd, mReqId_mWithPhase, hrid]
    have hmph : mPhase m = 6 := by rw [← hmd, mPhase_mWithPhase]; rfl
    have hrel := s.sends_releaseSet unitRk m k none none
    have hcount := s.onTheWay_releaseSet unitRk m k none none
    generalize s.releaseSet unitRk m k = u at hexec hrel hcount
    have hum : u.isManager = true := by rw [State.isManager, hrel.mgr]; exact hm
    have hur : u.request id = some r := by rw [State.request, hrel.mgr]; exact hr
    obtain ⟨hfinal, -, hlog, honly, -⟩ := u.finalAt_spec hum m
    rw [hmid, hur, Option.map_some] at hfinal
    have hfab : (u.finalAt m).fab = u.fab := by rw [honly]
    refine ⟨_, _, hexec, hrel.only.onlyMgr.trans ?_, hfinal, ?_, ?_, ?_, ?_⟩
    · unfold State.OnlyMgr
      rw [honly]
    · rw [hmph]
      rfl
    · rw [mPhase_mMerge, hmph]
      rfl
    · rw [hlog, if_pos hmid.symm]
    · show (u.finalAt m).onTheWay = s.onTheWay + _
      rw [State.onTheWay, hfab, ← State.onTheWay, hcount, ← hk]
      split
      · rfl
      · rfl
  case evict =>
    intro hs ht hp hroom
    refine ⟨s.sendCtl r.node (.evict id) (ctlTagM r.mft), ?_, (s.sends_sendCtl ..).only, State.sentCtl_sendCtl _ _ hroom⟩
    show execManagerEvict id s = _
    rw [execManagerEvict, State.evict, hr]
    dsimp only
    rw [if_neg (by simp [hm, hs, ht, hp])]
  case stays =>
    intro hs
    show execManagerEvict id s = _
    rw [execManagerEvict, State.evict, hr]
    dsimp only
    rw [if_pos (.inr (.inl hs))]

end Sys2Proof.Machine
end

