-- ==== Sys2Proof/Proofs/Admissions.lean ====
section
/-! PROOFS. Admissions, mirrors and the manager's table (O35). -/

namespace Sys2Proof.Machine

/-! ## Mirroring what nothing waits for -/

theorem State.mirrorOut_nothing (s : State) (l : List Mirror) : s.mirrorOut l .nothing = s.mirrorSend l .nothing := by
  unfold State.mirrorOut
  exact ite_self _

/-- With neither a standby nor a candidate nothing is mirrored. -/
theorem State.mirrorSend_none {s : State} (hs : s.stby = none) (hc : s.mgr.copyStarted = false) (l : List Mirror)
    (a : AfterMirror) : s.mirrorSend l a = s := by
  unfold State.mirrorSend
  simp only [hc, hs, Bool.false_eq_true, if_false]

/-! ## The manifest of a new request -/

section
variable (s : State) (a : Admission) (id : ReqId) (set : Nat)

theorem State.mReqId_newManifest : mReqId (s.newManifest a id set) = id := by
  show (setFld (id.setWidth 64 : Word) 63 48 a.tenant.toNat).setWidth 48 = id
  rw [setWidth_setFld _ _ _ _ (by omega)]
  simp

theorem State.mTenant_newManifest : mTenant (s.newManifest a id set) = a.tenant.toNat := by
  show fld (setFld (id.setWidth 64 : Word) 63 48 a.tenant.toNat) 63 48 = _
  rw [fld_setFld_same _ _ _ _ (by omega)]
  exact Nat.mod_eq_of_lt a.tenant.isLt

/-- The word of a new manifest that names its epoch, classes and owner. -/
theorem State.w1_newManifest : (s.newManifest a id set).w1 =
    BitVec.ofNat 64 (s.epoch.toNat + a.prio.toNat * 2 ^ 26 + a.share.toNat * 2 ^ 29 + a.tclass.toNat * 2 ^ 34 +
      s.fab.node.val * 2 ^ 42 + 2 ^ 56) := rfl

theorem State.mPhase_newManifest : mPhase (s.newManifest a id set) = Ph.atAdmit := by
  have := s.epoch.isLt
  rw [mPhase, State.w1_newManifest, fld_ofNat]
  show _ = 0
  omega

theorem State.mHops_newManifest : mHops (s.newManifest a id set) = 0 := by
  have := s.epoch.isLt
  rw [mHops, State.w1_newManifest, fld_ofNat]
  omega

section
variable (h : a.prompt.length ≤ 16777215)
include h

theorem State.mNextPos_newManifest : mNextPos (s.newManifest a id set) = a.prompt.length := by
  show fld (BitVec.ofNat 64 (a.prompt.length + a.prompt.length * 2 ^ 24 + 2 ^ 48)) 23 0 = _
  rw [fld_ofNat]
  omega

theorem State.mInput_newManifest : mInput (s.newManifest a id set) = a.prompt.length := by
  show fld (BitVec.ofNat 64 (a.prompt.length + a.prompt.length * 2 ^ 24 + 2 ^ 48)) 47 24 = _
  have hword : a.prompt.length + a.prompt.length * 2 ^ 24 + 2 ^ 48 < 2 ^ 64 := by omega
  have hhigh : (a.prompt.length + a.prompt.length * 2 ^ 24 + 2 ^ 48) / 2 ^ 24 = a.prompt.length + 2 ^ 24 := by omega
  rw [fld_ofNat, Nat.mod_eq_of_lt hword, hhigh]
  omega

end

theorem State.mOutput_newManifest : mOutput (s.newManifest a id set) = 0 := by
  show fld (BitVec.ofNat 64 (set * 2 ^ 40)) 23 0 = _
  rw [fld_ofNat]
  omega

end

/-! ## Admissions (R34, R35, R38) -/

/-- The manager with the next id taken and a cache set picked. -/
def State.numberedFor (s : State) (a : Admission) : State := (s.takeId.2.pickSet a.tclass).2

theorem State.numberedFor_spec (s : State) (a : Admission) :
    (s.numberedFor a).stby = s.stby ∧ (s.numberedFor a).parts = s.parts ∧
      (s.numberedFor a).regFld 0x2000 5 0 = s.regFld 0x2000 5 0 ∧ (s.numberedFor a).fab.node = s.fab.node ∧
      (s.numberedFor a).mgr.nextId = max 1 s.mgr.nextId + 1 := by
  unfold State.numberedFor State.takeId State.pickSet
  extract_lets n s1 l
  have h1 : s.Directs s1 ∧ s1.stby = s.stby := by
    unfold s1
    split
    · rw [State.mirrorOut_nothing]
      exact ⟨s.directs_mirrorSend _ _, s.stby_mirrorSend _ _⟩
    · exact ⟨.refl s, rfl⟩
  obtain ⟨hdir, hst⟩ := h1
  refine ⟨hst, hdir.parts, ?_, hdir.node, rfl⟩
  show s1.regFld 0x2000 5 0 = _
  rw [State.regFld, hdir.regs _ (by unfold sendReg; omega), State.regFld]

/-- The prompt log of a new request. -/
def State.newLog (s : State) (a : Admission) (id : ReqId) : PromptLog :=
  { id := id, tenant := a.tenant, turn := 1, admittedNs := s.now, sampler := fitBytes 128 a.sampler,
    entries := inputEntries a.prompt }

/-- The record of a new request. -/
def State.newRecord (s : State) (a : Admission) (id : ReqId) (m : Manifest) : ReqRec :=
  { id := id, tenant := a.tenant, phase := 0, node := s.fab.node, part := 0, mft := m, parkedNs := 0, host := a.host,
    acked := false, base := 0 }

/-- An admission that a receiver could accept is entered and mirrored under the next id. -/
theorem State.takeAdmission_eq {s : State} {a : Admission} (hm : s.isManager = true)
    (hf : 2 ≤ a.prio.toNat ∧ precisionOk a.precision.toNat = true ∧ a.prompt ≠ [] ∧ a.prompt.length ≤ 16777215)
    {id : ReqId} (hid : BitVec.ofNat 48 (max 1 s.mgr.nextId) = id) {u : State} (hu : s.numberedFor a = u)
    {l : PromptLog} (hl : u.newLog a id = l) {r : ReqRec}
    (hr : u.newRecord a id (u.newManifest a id (s.takeId.2.pickSet a.tclass).1) = r) :
    s.takeAdmission a = (u.entered l r).mirrorOut [.log l, .request r] (.admitted r) := by
  obtain ⟨hp, hpr, hne, hlen⟩ := hf
  unfold State.takeAdmission
  rw [if_neg (by rw [hm]; decide), if_neg (by simp [hpr, hne]; omega), ← hr, ← hl, ← hu, ← hid]
  rfl

/-! ## What the manager keeps while it acts for a request -/

/-- The manager has acted for requests: the partitions, the memories and the notes to the host stand, what waits for the
standby waits on, and an admission acknowledged stays so. -/
structure State.Handles (s t : State) : Prop where
  parts : t.parts = s.parts
  mem : t.mem = s.mem
  notes : t.host.notes = s.host.notes
  mirrors : t.mgr.mirrors = s.mgr.mirrors
  acked : ∀ id x, s.request id = some x → x.acked = true → ∃ y, t.request id = some y ∧ y.acked = true

theorem State.Handles.refl (s : State) : s.Handles s := ⟨rfl, rfl, rfl, rfl, fun _ x hx ha => ⟨x, hx, ha⟩⟩

theorem State.Handles.trans {s t u : State} (h1 : s.Handles t) (h2 : t.Handles u) : s.Handles u where
  parts := h2.parts.trans h1.parts
  mem := h2.mem.trans h1.mem
  notes := h2.notes.trans h1.notes
  mirrors := h2.mirrors.trans h1.mirrors
  acked id x hx ha := by
    obtain ⟨y, hy, hya⟩ := h1.acked id x hx ha
    exact h2.acked id y hy hya

theorem State.OnlyTraffic.handles {s t : State} (h : s.OnlyTraffic t) : s.Handles t where
  parts := h.parts
  mem := h.mem
  notes := by rw [h.host]
  mirrors := by rw [h.mgr]
  acked id x hx ha := ⟨x, by rw [State.request, h.mgr]; exact hx, ha⟩

theorem State.Sends.handles {s t : State} (h : s.Sends t) : s.Handles t := h.only.onlyTraffic.handles

theorem State.OnlyEvents.handles {s t : State} (h : s.OnlyEvents t) : s.Handles t := by
  unfold State.OnlyEvents at h
  have hm : t.mgr = s.mgr := by rw [h]
  exact ⟨by rw [h], by rw [h], by rw [h], by rw [hm], fun id x hx ha => ⟨x, by rw [State.request, hm]; exact hx, ha⟩⟩

/-- A record put in the place of one that is acknowledged has to be acknowledged too. -/
theorem State.handles_putRequest {s : State} {r : ReqRec} (h : ∀ x, s.request r.id = some x → r.acked = x.acked) :
    s.Handles (s.putRequest r) where
  parts := rfl
  mem := rfl
  notes := rfl
  mirrors := rfl
  acked id x hx ha := by
    by_cases hid : id = r.id
    · subst hid
      exact ⟨r, s.request_putRequest r, (h x hx).trans ha⟩
    · exact ⟨x, (s.request_putRequest_apart r hid).trans hx, ha⟩

theorem State.handles_finalAt (s : State) (m : Manifest) : s.Handles (s.finalAt m) := by
  by_cases hm : s.isManager = true
  · obtain ⟨hsame, hother, -, honly, hmgr⟩ := State.finalAt_spec hm m
    refine ⟨by rw [honly], by rw [honly], by rw [honly], by rw [hmgr], fun id x hx ha => ?_⟩
    by_cases hid : id = mReqId m
    · subst hid
      rw [hx, Option.map_some] at hsame
      exact ⟨_, hsame, ha⟩
    · exact ⟨x, (hother id hid).trans hx, ha⟩
  · unfold State.finalAt
    rw [if_pos (by simpa using hm)]
    exact .refl s

theorem State.handles_endAtManager (s : State) (r : ReqRec) (ph : Nat) : s.Handles (s.endAtManager r ph) := by
  unfold State.endAtManager
  extract_lets m s1 s2
  have h1 : s.Handles s1 := by
    unfold s1
    split
    · exact (s.sends_sendCtl ..).handles
    · exact .refl s
  have h2 : s1.Handles s2 := by
    unfold s2
    split
    · exact (s1.onlyEvents_raise ..).handles
    · exact .refl s1
  exact ((h1.trans h2).trans (State.sends_releaseSet ..).handles).trans (State.handles_finalAt ..)

theorem State.handles_launch (s : State) (id : ReqId) (avoid : List NodeId) : s.Handles (s.launch id avoid) := by
  have hdrop : s.Handles (s.modMgr fun g => { g with sends := g.sends.filter fun x => x.id ≠ id }) :=
    ⟨rfl, rfl, rfl, rfl, fun id x hx ha => ⟨x, hx, ha⟩⟩
  unfold State.launch
  split
  · next r l hr hl =>
    dsimp only
    generalize hv : (s.modMgr fun g => { g with sends := g.sends.filter fun x => x.id ≠ id }) = v at hdrop
    have hreq : v.request id = some r := by rw [← hv]; exact hr
    split
    · exact hdrop.trans (State.handles_endAtManager ..)
    · split
      · next u h =>
        have hu : (_ : State) = u := congrArg Prod.snd h
        rw [← hu]
        exact hdrop.trans ⟨rfl, rfl, rfl, rfl, fun id x hx ha => ⟨x, hx, ha⟩⟩
      · next n p u h =>
        have hu : (_ : State) = u := congrArg Prod.snd h
        have hvu : v.Handles u := by
          rw [← hu]
          exact ⟨rfl, rfl, rfl, rfl, fun id x hx ha => ⟨x, hx, ha⟩⟩
        have hur : u.request r.id = some r := by
          rw [← hu, State.id_of_request hr]
          exact hreq
        generalize hr1 : ({ r with mft := _, base := _ } : ReqRec) = r1
        have hput : u.Handles (u.putRequest r1) := by
          refine State.handles_putRequest fun x hx => ?_
          rw [← hr1] at hx ⊢
          obtain rfl := Option.some.inj (hur.symm.trans hx)
          rfl
        have hnote : ∀ f : Mgr → Mgr, (f (u.putRequest r1).mgr).requests = (u.putRequest r1).mgr.requests →
            (f (u.putRequest r1).mgr).mirrors = (u.putRequest r1).mgr.mirrors →
            (u.putRequest r1).Handles ((u.putRequest r1).modMgr f) := by
          intro f h1 h2
          exact ⟨rfl, rfl, rfl, h2, fun id x hx ha => ⟨x, by rw [State.request, State.modMgr, h1]; exact hx, ha⟩⟩
        exact (((hdrop.trans hvu).trans hput).trans (hnote _ rfl rfl)).trans (State.onlyTraffic_sendSeq ..).handles
  · exact .refl s

/-! ## The standby's acknowledgements -/

/-- What acknowledging an admission changes besides the record: what waits for the standby is added to. -/
theorem State.mirrors_ackAdmission (s : State) (id : ReqId) : ∃ more,
    (s.ackAdmission id).mgr.mirrors = s.mgr.mirrors ++ more := by
  unfold State.ackAdmission
  split
  · exact ⟨[], (List.append_nil _).symm⟩
  · next r hr =>
    dsimp only
    split
    · exact ⟨[], (List.append_nil _).symm⟩
    · generalize hr1 : ({ r with acked := true } : ReqRec) = r1
      obtain ⟨honly, -⟩ := (s.putRequest r1).tells_tellHost r.host (.admitted id)
      generalize (s.putRequest r1).tellHost r.host (.admitted id) = v at honly
      have hm : v.mgr.mirrors = s.mgr.mirrors := by rw [honly]; rfl
      rw [State.mgr_mirrorSend]
      show ∃ more, v.mirrorsWith _ _ = _
      unfold State.mirrorsWith
      split
      · exact ⟨_, by rw [hm, List.append_assoc]⟩
      · exact ⟨[], by rw [hm, List.append_nil]⟩

/-- The host of this node is told of an admission that it has not been told of. -/
theorem State.notes_ackAdmission {s : State} {id : ReqId} {r : ReqRec} (hr : s.request id = some r)
    (ha : r.acked = false) (hh : r.host = s.fab.node) :
    (s.ackAdmission id).host.notes = s.host.notes ++ [.admitted id] := by
  unfold State.ackAdmission
  rw [hr]
  dsimp only
  rw [if_neg (by rw [ha]; decide)]
  generalize hr1 : ({ r with acked := true } : ReqRec) = r1
  have htell : (s.putRequest r1).tellHost r.host (.admitted id) = (s.putRequest r1).noteHost (.admitted id) :=
    if_pos hh
  rw [htell, (State.directs_mirrorSend ..).only]
  rfl

theorem State.exec_standbyMirrorAck {s : State} (h : s.accepts = true) {a : AfterMirror} {rest : List AfterMirror}
    (hm : s.mgr.mirrors = a :: rest) :
    exec .standbyMirrorAck s = .next ((s.modMgr fun g => { g with mirrors := rest }).afterMirror a) := by
  show execStandbyMirrorAck s = _
  rw [execStandbyMirrorAck, State.ifTakes, if_pos h, State.mirrorAcked, hm]

/-- Settles O35: what admissions, acknowledgements, notes and final manifests do to the manager's table. -/
theorem admissionsAndNotes : Obligations.AdmissionsAndNotes := by
  unfold Obligations.AdmissionsAndNotes
  refine ⟨fun s => ?_, fun s => ⟨?deaf, ?notes⟩⟩
  · intro fits admits
    have hadmits : ∀ a, s.isManager = true → fits a → ∃ (u : State) (l : PromptLog) (r : ReqRec), exec (.admissionRequest a) s =
        .next ((u.entered l r).mirrorOut [.log l, .request r] (.admitted r)) ∧ r.acked = false ∧ mHops r.mft = 0 ∧
        u.stby = s.stby ∧ u.regFld 0x2000 5 0 = s.regFld 0x2000 5 0 ∧ r.id = l.id ∧
        ∀ t r', exec (.admissionRequest a) s = .next t → t.request r.id = some r' → Relaunched r r' →
          t.mgr.logs = (u.entered l r).mgr.logs → t.mgr.nextId = (u.entered l r).mgr.nextId →
          t.parts = (u.entered l r).parts → admits a t r' := by
      intro a hm hf
      have hexec : exec (.admissionRequest a) s = .next (s.takeAdmission a) := rfl
      obtain ⟨hust, huparts, hureg, hunode, hunext⟩ := s.numberedFor_spec a
      generalize hid : BitVec.ofNat 48 (max 1 s.mgr.nextId) = id
      generalize hu : s.numberedFor a = u at hust huparts hureg hunode hunext
      generalize hset : (s.takeId.2.pickSet a.tclass).1 = set
      have hlen : a.prompt.length ≤ 16777215 := hf.2.2.2
      have hl : u.newLog a id = u.newLog a id := rfl
      rw [State.takeAdmission_eq hm hf hid hu hl (by rw [hset])] at hexec
      refine ⟨u, u.newLog a id, u.newRecord a id (u.newManifest a id set), hexec, rfl, u.mHops_newManifest a id set, hust,
        hureg, rfl, fun t r' ht hreq hrel hlogs hnext hparts => ?_⟩
      obtain ⟨-, hlog, hvparts, hvnext, -, -⟩ := u.entered_spec (u.newLog a id) (u.newRecord a id (u.newManifest a id set))
      obtain ⟨hw0, -, hw3, hw4, hphase, hcrc⟩ := hrel.words
      have hsame := hrel.1
      have hrid : r'.id = id := by rw [hsame]; rfl
      have hreq' : t.request r'.id = some r' := by rw [hrid]; exact hreq
      have hlog' : t.logOf r'.id = some (u.newLog a id) := by rw [State.logOf, hlogs, hrid]; exact hlog
      refine ⟨ht, hrid.trans hid.symm, hreq', ⟨_, hlog', rfl⟩, by rw [hsame]; rfl, by rw [hsame]; exact hunode,
        by rw [hsame]; rfl, by rw [hsame]; rfl, ?_, ?_, ?_, ?_, ?_, ?_, ?_, ?_, ?_⟩
      · rw [mReqId, hw0, hrid]
        exact u.mReqId_newManifest a id set
      · exact hphase (u.mPhase_newManifest a id set)
      · rw [mNextPos, hw3]
        exact u.mNextPos_newManifest a id set hlen
      · rw [mInput, hw3]
        exact u.mInput_newManifest a id set hlen
      · rw [mOutput, hw4]
        exact u.mOutput_newManifest a id set
      · rw [mTenant, hw0]
        exact u.mTenant_newManifest a id set
      · exact hcrc (mCrcOk_mSeal _)
      · rw [hnext, hvnext, hunext]
      · rw [hparts, hvparts, huparts]
    refine ⟨?enter, ?wait, ?misfit, ?forward, ?nowhere, ?deafAck, ?acked, ?told, ?append, ?nothing, ?none⟩
    case enter =>
      intro a hm hf hreg
      obtain ⟨u, l, r, hexec, -, hhops, -, hureg, hid, hadm⟩ := hadmits a hm hf
      obtain ⟨hreq, hlog, -, -, hereg, -⟩ := u.entered_spec l r
      rw [← hid] at hlog
      obtain ⟨⟨r', hreq', hrel⟩, hlogs, hnext, hparts⟩ := State.launched_mirrorOut hreq hlog
        (by rw [hhops, hereg, hureg]; exact hreg) [.log l, .request r]
      exact ⟨_, r', hadm _ r' hexec hreq' hrel hlogs hnext hparts⟩
    case wait =>
      intro a n hm hf hst
      obtain ⟨u, l, r, hexec, hack, hhops, hust, -, -, hadm⟩ := hadmits a hm hf
      obtain ⟨hreq, -, -, -, -, hest⟩ := u.entered_spec l r
      obtain ⟨hreq', hlast, hlogs, hnext, hparts⟩ := State.mirrorOut_waiting (by rw [hest, hust, hst]) hreq
        [.log l, .request r]
      exact ⟨_, r, hadm _ r hexec hreq' ⟨rfl, .inl rfl⟩ hlogs hnext hparts, hack, hhops, hlast⟩
    case misfit =>
      intro a hm hf
      show execAdmissionRequest a s = _
      rw [execAdmissionRequest, State.takeAdmission, if_neg (by rw [hm]; decide), if_pos]
      by_contra hno
      simp only [not_or, not_lt, Bool.not_eq_false] at hno
      obtain ⟨h1, h2, h3, h4⟩ := hno
      exact hf ⟨h1, h2, h3, h4⟩
    case forward =>
      intro a n hm hn hne hroom
      refine ⟨s.sendCtl n (.admission { a with host := s.fab.node }), ?_, (s.sends_sendCtl ..).only,
        State.sentCtl_sendCtl _ ctlTag hroom⟩
      show execAdmissionRequest a s = _
      rw [execAdmissionRequest, State.takeAdmission, if_pos hm, hn]
      dsimp only
      rw [if_neg hne]
    case nowhere =>
      intro a hm hn
      show execAdmissionRequest a s = _
      rw [execAdmissionRequest, State.takeAdmission, if_pos hm]
      rcases hn with hn | hn
      · rw [hn]
      · rw [hn]
        dsimp only
        rw [if_pos rfl]
    case deafAck =>
      intro hacc
      show execStandbyMirrorAck s = _
      rw [execStandbyMirrorAck, State.ifTakes, if_neg (by rw [hacc]; decide)]
    case acked =>
      intro a rest hacc hm
      have hexec := State.exec_standbyMirrorAck hacc hm
      generalize hv : (s.modMgr fun g => { g with mirrors := rest }) = v at hexec
      have hvm : v.mgr.mirrors = rest := by rw [← hv]; rfl
      have hvp : v.parts = s.parts := by rw [← hv]; rfl
      have hvmem : v.mem = s.mem := by rw [← hv]; rfl
      have hkeeps : ∃ more, (v.afterMirror a).mgr.mirrors = v.mgr.mirrors ++ more ∧
          (v.afterMirror a).parts = v.parts ∧ (v.afterMirror a).mem = v.mem := by
        cases a with
        | admitted r =>
          have hlaunch := (v.ackAdmission r.id).handles_launch r.id []
          obtain ⟨more, hmore⟩ := v.mirrors_ackAdmission r.id
          have hack : (v.ackAdmission r.id).parts = v.parts ∧ (v.ackAdmission r.id).mem = v.mem := by
            cases hr : v.request r.id with
            | none =>
              rw [State.ackAdmission, hr]
              exact ⟨rfl, rfl⟩
            | some x =>
              obtain ⟨-, -, -, hp, hmem, -⟩ := State.ackAdmission_spec hr
              exact ⟨hp, hmem⟩
          exact ⟨more, hlaunch.mirrors.trans hmore, hlaunch.parts.trans hack.1, hlaunch.mem.trans hack.2⟩
        | install =>
          refine ⟨[], ?_, v.directs_sendBook.parts, v.directs_sendBook.mem⟩
          show v.sendBook.mgr.mirrors = _
          rw [List.append_nil]
          cases hi : v.mgr.install with
          | none =>
            unfold State.sendBook
            rw [hi]
          | some x => rw [State.mgr_sendBook hi]
        | ackAppend n id k =>
          have hsends := v.sends_sendCtl n (.logAck id k) (ctlTagOf id)
          exact ⟨[], by rw [List.append_nil]; exact congrArg Mgr.mirrors hsends.mgr, hsends.parts, hsends.mem⟩
        | nothing => exact ⟨[], (List.append_nil _).symm, rfl, rfl⟩
      obtain ⟨more, h1, h2, h3⟩ := hkeeps
      exact ⟨_, more, hexec, by rw [h1, hvm], h2.trans hvp, h3.trans hvmem⟩
    case told =>
      intro r x rest hacc hm hx ha hh
      have hexec := State.exec_standbyMirrorAck hacc hm
      generalize hv : (s.modMgr fun g => { g with mirrors := rest }) = v at hexec
      have hvx : v.request r.id = some x := by rw [← hv]; exact hx
      have hvn : v.host.notes = s.host.notes := by rw [← hv]; rfl
      have hnote := State.notes_ackAdmission hvx ha (by rw [hh, ← hv]; rfl)
      obtain ⟨⟨y, hy, hya⟩, -⟩ := State.ackAdmission_spec hvx
      have hlaunch := (v.ackAdmission r.id).handles_launch r.id []
      obtain ⟨z, hz, hza⟩ := hlaunch.acked r.id y hy (by rw [hya])
      exact ⟨_, z, hexec, by rw [← hvn, ← hnote]; exact hlaunch.notes, hz, hza⟩
    case append =>
      intro n id k rest hacc hm hroom
      have hexec := State.exec_standbyMirrorAck hacc hm
      have hsends := (s.modMgr fun g => { g with mirrors := rest }).sends_sendCtl n (.logAck id k) (ctlTagOf id)
      have hsent : (s.modMgr fun g => { g with mirrors := rest }).SentCtl _ n (.logAck id k) :=
        State.sentCtl_sendCtl _ (ctlTagOf id) (hroom.congr rfl)
      exact ⟨_, hexec, (s.directs_modMgr _).only.trans hsends.only.onlyMgr, hsends.mgr,
        hsent.congr (State.modMgr_fab ..) rfl⟩
    case nothing =>
      intro rest hacc hm
      exact State.exec_standbyMirrorAck hacc hm
    case none =>
      intro hm
      show execStandbyMirrorAck s = _
      rw [execStandbyMirrorAck, State.mirrorAcked, hm, State.ifTakes]
      exact congrArg Host.Outcome.next (ite_self _)
  case deaf =>
    intro hacc
    have hno : ∀ t, s.ifTakes t = s := fun t => by rw [State.ifTakes, if_neg (by rw [hacc]; decide)]
    exact ⟨fun id ph n o => congrArg Host.Outcome.next (hno _), fun m => congrArg Host.Outcome.next (hno _)⟩
  case notes =>
    intro hacc hm
    refine ⟨?noted, ?unknown, ?final, ?broken⟩
    case noted =>
      intro id ph n p m r hr r'
      have hid := State.id_of_request hr
      generalize hr2 : (if terminal r.phase.toNat then r else r') = r2
      have hid2 : r2.id = id := by
        rw [← hr2]
        split
        · exact hid
        · exact hid
      have hpark : (if ph.toNat = Ph.park then s.now else r.parkedNs) = if ph = 4 then s.now else r.parkedNs := by
        have hiff : ph.toNat = Ph.park ↔ ph = 4 := by
          constructor
          · exact fun h => BitVec.eq_of_toNat_eq h
          · rintro rfl
            rfl
        simp only [hiff]
      have hexec : exec (.ownershipNote id ph n ⟨p, m⟩) s = .next
          (let u := ((s.putRequest r2).mirrorSend [.request r2] .nothing).sendCtl n (.ownershipAck id) (ctlTagM r2.mft)
           if r.node = n ∨ r.node = u.fab.node then u else u.sendCtl r.node (.ownershipAck id) (ctlTagM r2.mft)) := by
        show execOwnershipNote id ph n ⟨p, m⟩ s = _
        rw [execOwnershipNote, State.ifTakes, if_pos hacc, State.rxOwnership, if_neg (by rw [hm]; decide), hr]
        dsimp only
        rw [hpark, ← hr2, ← State.mirrorOut_nothing]
      have hput : (s.putRequest r2).request id = some r2 := by rw [← hid2, State.request_putRequest]
      have hother : ∀ id', id' ≠ id → (s.putRequest r2).request id' = s.request id' := fun id' h =>
        s.request_putRequest_apart r2 (by rw [hid2]; exact h)
      have hdir := (s.putRequest r2).directs_mirrorSend [.request r2] .nothing
      have hmgr := (s.putRequest r2).mgr_mirrorSend [.request r2] .nothing
      have hnone := fun h1 h2 => State.mirrorSend_none (s := s.putRequest r2) h1 h2 [.request r2] .nothing
      generalize hv : (s.putRequest r2).mirrorSend [.request r2] .nothing = v at hexec hdir hmgr hnone
      have hu := v.sends_sendCtl n (.ownershipAck id) (ctlTagM r2.mft)
      have hsent := fun hroom => State.sentCtl_sendCtl (s := v) (dst := n) (.ownershipAck id) (ctlTagM r2.mft) hroom
      generalize v.sendCtl n (.ownershipAck id) (ctlTagM r2.mft) = u at hexec hu hsent
      dsimp only at hexec
      refine ⟨?_, fun hst hcopy hnode hroom => ?_⟩
      · have hw : ∃ w, exec (.ownershipNote id ph n ⟨p, m⟩) s = .next w ∧ v.Sends w := by
          refine ⟨_, hexec, ?_⟩
          split
          · exact hu
          · exact hu.trans (u.sends_sendCtl ..)
        obtain ⟨w, hexec, hw⟩ := hw
        have hreq : ∀ id', w.request id' = (s.putRequest r2).request id' := by
          intro id'
          rw [State.request, hw.mgr, hmgr]
          rfl
        refine ⟨w, hexec, (hreq id).trans hput, ?_, ?_, ?_, ?_, fun id' h => (hreq id').trans (hother id' h)⟩
        · rw [hw.mgr, hmgr]
          rfl
        · rw [hw.mgr, hmgr]
          rfl
        · rw [hw.parts, hdir.parts]
          rfl
        · rw [hw.mem, hdir.mem]
          rfl
      · rw [if_pos (by rw [hu.node, hdir.node]; exact hnode)] at hexec
        have hvs := hnone hst hcopy
        refine ⟨u, hexec, (State.directs_modMgr s _).only.trans (t := s.putRequest r2) ?_, ?_⟩
        · rw [← hvs]
          exact hu.only.onlyMgr
        · exact (hsent (hroom.congr (by rw [hvs]; rfl))).congr (by rw [hvs]; rfl) rfl
    case unknown =>
      intro id ph n p m hr hroom
      have hexec : exec (.ownershipNote id ph n ⟨p, m⟩) s = .next (s.sendCtl n (.ownershipAck id) (ctlTagOf id)) := by
        show execOwnershipNote id ph n ⟨p, m⟩ s = _
        rw [execOwnershipNote, State.ifTakes, if_pos hacc, State.rxOwnership, if_neg (by rw [hm]; decide), hr]
      exact ⟨_, hexec, (s.sends_sendCtl ..).only, State.sentCtl_sendCtl _ _ hroom⟩
    case final =>
      intro m r hr hcrc
      obtain ⟨hreq, hother, hlog, honly, hmgr⟩ := State.finalAt_spec hm m
      obtain ⟨hreg4, hreg5, hregs⟩ := s.reg_countFinal m
      rw [hr, Option.map_some] at hreq
      generalize hr1 : ({ r with phase := BitVec.ofNat 4 (mPhase m), mft := mMerge m r.mft } : ReqRec) = r1 at hreq
      have hexec : exec (.finalManifest m) s = .next ((s.finalAt m).mirrorSend [.request r1] .nothing) := by
        show execFinalManifest m s = _
        rw [execFinalManifest, State.ifTakes, if_pos hacc, State.rxFinal, if_neg (by rw [hcrc]; decide),
          if_neg (by rw [hm]; decide), ← State.mirrorOut_nothing]
        simp only [hreq]
      generalize s.countFinal m = c at hreg4 hreg5 hregs honly
      generalize s.finalAt m = u at *
      have hureg : ∀ o, u.reg o = c.reg o := by
        intro o
        rw [honly]
        rfl
      have hdir := u.directs_mirrorSend [.request r1] .nothing
      have hmgr' := u.mgr_mirrorSend [.request r1] .nothing
      refine ⟨⟨_, hexec, ?_, ?_, ?_, ?_, ?_, fun id hid => ⟨?_, ?_⟩⟩, fun hst hcopy => ?_⟩
      · rw [State.logOf, hmgr']
        exact (hlog _).trans (if_pos rfl)
      · rw [State.request, hmgr']
        exact hreq
      · rw [hdir.regs _ (by unfold sendReg; omega), hureg, hreg4]
      · rw [hdir.regs _ (by unfold sendReg; omega), hureg, hreg5]
      · rw [hdir.parts, honly]
      · rw [State.request, hmgr']
        exact hother id hid
      · rw [State.logOf, hmgr']
        exact (hlog id).trans (if_neg hid)
      · have hust : u.stby = none := by
          rw [State.stby, State.book, hmgr, honly]
          exact hst
        have hucopy : u.mgr.copyStarted = false := by
          rw [hmgr]
          exact hcopy
        rw [State.mirrorSend_none hust hucopy] at hexec
        refine ⟨u, hexec, ?_, fun o ho => (hureg o).trans (hregs o ho)⟩
        rw [honly]
    case broken =>
      intro m hcrc
      have hexec : exec (.finalManifest m) s = .next (s.raise Ev.manifestCrcRx St.ok 23 s.fab.via (reqWord m)) := by
        show execFinalManifest m s = _
        rw [execFinalManifest, State.ifTakes, if_pos hacc, State.rxFinal, if_pos hcrc]
      exact ⟨_, hexec, s.onlyEvents_raise .., s.raised_raise ..⟩

end Sys2Proof.Machine
end

