-- ==== Sys2Proof/Proofs/Manifests.lean ====
section
/-! PROOFS. The manifest opcodes (O8). -/

namespace Sys2Proof.Machine

/-! ## Writes of the manifest table -/

/-- A write inside hold SRAM notes its regions in the live map, and in no other register. -/
theorem State.regsBut_markLive (s : State) (p : PartId) {off n : Nat} (h : off + n ≤ 12582912) :
    s.RegsBut (s.markLive p off n) (liveRegs p) := by
  intro o ho
  simp only [liveRegs, List.mem_cons, List.not_mem_nil, or_false, not_or] at ho
  refine s.reg_markLive_of_ne p fun r hr => ?_
  have hr' : r / 64 ≤ 2 := by omega
  omega

/-- The manifest of a slot has been written, and nothing else but the live map. -/
structure State.TableWritten (s t : State) (p : PartId) (k : Nat) (m : Manifest) : Prop where
  only : t = { s with parts := t.parts, bar0 := t.bar0 }
  others : ∀ p' : PartId, p' ≠ p → t.part p' = s.part p'
  part : t.part p = { s.part p with hsram := (t.part p).hsram }
  hold : s.HoldWritten t p (s.mftBase p + 64 * k) (mBytes m)
  manifest : t.manifest p k = m
  mftBase : t.mftBase p = s.mftBase p
  regs : s.RegsBut t (liveRegs p)

section
variable {s : State} {p : PartId} {k : Nat} (hk : k < 1024) (hb : s.mftBase p + 65536 ≤ 12582912)
include hk hb

theorem State.tableWritten_setManifest (m : Manifest) : s.TableWritten (s.setManifest p k m) p k m where
  only := s.setManifest_only p k m
  others p' h := by rw [State.part_setManifest, if_neg h]
  part := by rw [State.part_setManifest, if_pos rfl]
  hold := by
    refine ⟨fun i hi => ?_, fun a ha => ?_⟩
    · rw [State.setManifest, State.holdByte_hsWrite, if_pos ⟨rfl, by omega, by omega⟩, Nat.add_sub_cancel_left]
    · exact s.holdByte_setManifest_apart p k m p (by rwa [length_mBytes] at ha)
  manifest := s.manifest_setManifest_same p m hk
  mftBase := s.mftBase_setManifest p m hk
  regs := State.regsBut_markLive (s.modPart p _) p (by rw [length_mBytes]; omega)

/-- Of two writes of one slot the second stands. -/
theorem State.TableWritten.again {t : State} {m : Manifest} (h : s.TableWritten t p k m) (m' : Manifest) :
    s.TableWritten (t.setManifest p k m') p k m' := by
  obtain ⟨honly, hothers, hpart, ⟨-, hrest⟩, -, hbase, hregs⟩ := h
  obtain ⟨honly', hothers', hpart', ⟨hin', hrest'⟩, hmft', hbase', hregs'⟩ :=
    State.tableWritten_setManifest (s := t) hk (by rw [hbase]; exact hb) m'
  rw [hbase] at hin' hrest'
  refine ⟨?_, fun p' hp => (hothers' p' hp).trans (hothers p' hp), ?_, ⟨hin', fun a ha => ?_⟩, hmft',
    hbase'.trans hbase, fun o ho => (hregs' o ho).trans (hregs o ho)⟩
  · rw [honly', honly]
  · rw [hpart', hpart]
  · rw [hrest' a ha, hrest a (by rwa [length_mBytes] at ha ⊢)]

end

/-! ## Issues -/

/-- The context `c` goes on at `pc`: manifests, slots, fault records and frames stand. -/
structure State.Onward (s t : State) (p : PartId) (c : Ctx) (pc : BitVec 14) : Prop where
  ctxPc : (t.drv p).ctxPc c.disp = pc
  manifest : ∀ k, t.manifest p k = s.manifest p k
  slot : ∀ k, t.slot p k = s.slot p k
  faults : (t.drv p).faults = (s.drv p).faults
  faultSeq : (t.drv p).faultSeq = (s.drv p).faultSeq
  fab : t.fab = s.fab

theorem Drover.ctxPc_setPc (d : Drover) (b : Bool) (pc : BitVec 14) :
    ({ d.setPc b pc with stalled := false } : Drover).ctxPc b = pc := by
  cases b <;> rfl

/-- A drover moved on differs in a program counter and the stall mark alone. -/
theorem Drover.setPc_only (d : Drover) (b : Bool) (pc : BitVec 14) : ({ d.setPc b pc with stalled := false } : Drover) =
    { d with mainPc := (d.setPc b pc).mainPc, dispPc := (d.setPc b pc).dispPc, stalled := false } := by
  cases b <;> rfl

theorem fld_low {n : Nat} (w : BitVec n) (hi : Nat) : fld w hi 0 = w.toNat % 2 ^ (hi + 1) := by
  rw [fld, Nat.shiftRight_zero, Nat.sub_zero]

theorem State.mftBase_eq (s : State) (p : PartId) : s.mftBase p = (s.reg (ptBase p + 0x1010)).toNat % 2 ^ 24 := by
  rw [State.mftBase, State.regFld, fld_low]

theorem not_issueRegs {p : PartId} {c : Ctx} (hp : c.p = p) {o : Nat} (ho : o < 0x1100) : ptBase p + o ∉ issueRegs c := by
  rw [issueRegs, hp]
  split <;> simp <;> omega

theorem State.onward_issued (s : State) {p : PartId} {c : Ctx} (hp : c.p = p) (pc : BitVec 14) (clk : Nat) :
    s.Onward (s.issued c pc clk) p c pc := by
  obtain ⟨⟨⟨honly, -⟩, hpart⟩, hdrv, hregs, -⟩ := s.issued_spec p c pc clk hp
  have hbase : (s.issued c pc clk).mftBase p = s.mftBase p := by
    rw [State.mftBase, State.mftBase, State.regFld, State.regFld, hregs _ (not_issueRegs hp (by decide))]
  refine ⟨by rw [hdrv, Drover.ctxPc_setPc], fun k => ?_, fun k => ?_, ?_, ?_, by rw [honly]⟩
  · rw [State.manifest, State.manifest, State.hsRead, State.hsRead, hbase, hpart]
  · rw [State.slot, State.slot, hpart]
  · rw [hdrv, Drover.setPc_only]
  · rw [hdrv, Drover.setPc_only]

/-- An instruction that writes a manifest changes beside it the program counter and the counters of an issue. -/
theorem State.TableWritten.issued {s t : State} {p : PartId} {k : Nat} {m : Manifest} (h : s.TableWritten t p k m)
    {c : Ctx} (hp : c.p = p) (pc : BitVec 14) (clk : Nat) {u : State} (hu : t.issued c pc clk = u) :
    u = { s with parts := u.parts, bar0 := u.bar0 } ∧ (∀ p' : PartId, p' ≠ p → u.part p' = s.part p') ∧
      u.part p = { s.part p with drv := u.drv p, hsram := (u.part p).hsram } ∧
      s.HoldWritten u p (s.mftBase p + 64 * k) (mBytes m) ∧ u.manifest p k = m ∧
      u.drv p = { s.drv p with mainPc := (u.drv p).mainPc, dispPc := (u.drv p).dispPc, stalled := false } ∧
      (u.drv p).ctxPc c.disp = pc ∧ s.RegsBut u (issueRegs c ++ liveRegs p) := by
  obtain ⟨⟨⟨honly, hothers⟩, hpart⟩, hdrv, hregs, -⟩ := t.issued_spec p c pc clk hp
  have hon := t.onward_issued hp pc clk
  rw [hu] at honly hothers hpart hdrv hregs hon
  have hold : (u.part p).hsram = (t.part p).hsram := by rw [hpart]
  have hd : t.drv p = s.drv p := by rw [State.drv, State.drv, h.part]
  refine ⟨?_, fun p' hp' => (hothers p' hp').trans (h.others p' hp'), ?_, ?_, (hon.manifest k).trans h.manifest, ?_,
    hon.ctxPc, fun o ho => ?_⟩
  · rw [honly, h.only]
  · rw [hold, hpart, h.part]
  · obtain ⟨hin, hrest⟩ := h.hold
    have hbyte : ∀ a, u.holdByte p a = t.holdByte p a := fun a => by rw [State.holdByte, State.holdByte, hold]
    exact ⟨fun i hi => (hbyte _).trans (hin i hi), fun a ha => (hbyte a).trans (hrest a ha)⟩
  · rw [hdrv, Drover.setPc_only, hd]
  · rw [List.mem_append, not_or] at ho
    exact (hregs o ho.1).trans (h.regs o ho.2)

/-! ## Faults -/

theorem Drover.pktFaulted_only (d : Drover) (pkt : Option Nat) (st : Status) : d.pktFaulted pkt st =
    { d with pktFault := (d.pktFaulted pkt st).pktFault, ended := (d.pktFaulted pkt st).ended } := by
  unfold Drover.pktFaulted
  split
  · rfl
  · split <;> rfl

/-- The record of a fault as it joins the queue. -/
def State.recordOf (s : State) (p : PartId) (r : FaultRec) : FaultRec :=
  { r with time := BitVec.ofNat 64 s.now, seq := (s.drv p).faultSeq }

/-- A fault record has been queued, or dropped and counted (R97); nothing else but a packet's status, the counters and
the events has changed. -/
structure State.Recorded (s t : State) (p : PartId) (r : FaultRec) : Prop where
  others : ∀ p' : PartId, p' ≠ p → t.part p' = s.part p'
  part : t.part p = { s.part p with drv := t.drv p }
  drv : t.drv p = { s.drv p with
    pktFault := (t.drv p).pktFault, ended := (t.drv p).ended, faultSeq := (s.drv p).faultSeq + 1
    faults := if (s.drv p).faults.length < 16 then (s.drv p).faults ++ [s.recordOf p r] else (s.drv p).faults }
  mem : t.mem = s.mem
  fab : t.fab = s.fab
  mgr : t.mgr = s.mgr
  regs : ∀ o, ¬ eventReg o → t.reg o =
    if o = ptBase p + (if (s.drv p).faults.length < 16 then 0x1018 else 0x1020) then s.reg o + 1 else s.reg o

theorem not_eventReg_ptBase (p : PartId) {o : Nat} (h : o < 0x10000) : ¬ eventReg (ptBase p + o) := by
  have := p.isLt
  unfold eventReg ptBase
  omega

@[simp] theorem State.part_addReg (s : State) (o n : Nat) (p : PartId) : (s.addReg o n).part p = s.part p := rfl

@[simp] theorem State.part_raise (s : State) (ev : BitVec 16) (st : Status) (src unit : Nat) (req : Word) (d : Bytes)
    (p : PartId) : (s.raise ev st src unit req d).part p = s.part p := (State.aside_raise ..).part p

theorem State.keeps_modDrv_addReg (s : State) (p : PartId) (f : Drover → Drover) (o n : Nat) :
    ((s.modDrv p f).addReg o n).mem = s.mem ∧ ((s.modDrv p f).addReg o n).fab = s.fab ∧
      ((s.modDrv p f).addReg o n).mgr = s.mgr := ⟨rfl, rfl, rfl⟩

theorem State.mem_setDrv_addReg (s : State) (p : PartId) (d : Drover) (o n : Nat) :
    ((s.setDrv p d).addReg o n).mem = s.mem := rfl

theorem State.recorded_faultRecord (s : State) (p : PartId) (pkt : Option Nat) (r : FaultRec) :
    s.Recorded (s.faultRecord p pkt r) p r := by
  have hdrv : ∀ e, ((s.drv p).pktFaulted pkt r.status).pushFault { r with time := BitVec.ofNat 64 s.now } = e → e =
      { s.drv p with
        pktFault := e.pktFault, ended := e.ended
        faultSeq := (s.drv p).faultSeq + 1
        faults := if (s.drv p).faults.length < 16 then (s.drv p).faults ++ [s.recordOf p r] else (s.drv p).faults } := by
    intro e he
    have h := (s.drv p).pktFaulted_only pkt r.status
    generalize (s.drv p).pktFaulted pkt r.status = e0 at h he
    rw [← he, h]
    unfold Drover.pushFault State.recordOf
    by_cases hlen : (s.drv p).faults.length < 16
    · rw [if_pos hlen, if_neg (by simpa using hlen)]
    · rw [if_neg hlen, if_pos (by simpa using hlen)]
  unfold State.faultRecord
  dsimp only
  generalize hf : (fun d : Drover => (d.pktFaulted pkt r.status).pushFault { r with time := BitVec.ofNat 64 s.now }) = f
  replace hdrv := hdrv _ (congrFun hf (s.drv p))
  have hrec : ∀ u : State, (∀ p', u.part p' = if p' = p then { s.part p with drv := f (s.drv p) } else s.part p') →
      u.mem = s.mem → u.fab = s.fab → u.mgr = s.mgr → (∀ o, ¬ eventReg o → u.reg o =
        if o = ptBase p + (if (s.drv p).faults.length < 16 then 0x1018 else 0x1020) then s.reg o + 1 else s.reg o) →
      s.Recorded u p r := by
    intro u hpart hmem hfab hmgr hregs
    have hu : u.drv p = f (s.drv p) := by rw [State.drv, hpart, if_pos rfl]
    exact ⟨fun p' h => by rw [hpart, if_neg h], by rw [hu, hpart, if_pos rfl], by rw [hu]; exact hdrv, hmem, hfab, hmgr,
      hregs⟩
  have hadd : ∀ o o', ((s.modDrv p f).addReg o 1).reg o' = if o' = o then s.reg o' + 1 else s.reg o' := by
    intro o o'
    rw [State.reg_addReg]
    split
    · next h => rw [h]; rfl
    · rfl
  by_cases hlen : (s.drv p).faults.length < 16
  · obtain ⟨hmem, hfab, hmgr⟩ := s.keeps_modDrv_addReg p f (ptBase p + 0x1018) 1
    rw [if_neg (by omega)]
    refine hrec _ (fun p' => by simp) hmem hfab hmgr fun o _ => ?_
    rw [if_pos hlen, hadd]
  · obtain ⟨hmem, hfab, hmgr⟩ := s.keeps_modDrv_addReg p f (ptBase p + 0x1020) 1
    rw [if_pos (by omega)]
    refine hrec _ (fun p' => by simp) ((State.mem_raise ..).trans hmem) ((State.fab_raise ..).trans hfab)
      ((State.mgr_raise ..).trans hmgr) fun o ho => ?_
    rw [if_neg hlen, State.reg_raise_apart _ _ _ _ _ _ _ ho, hadd]

/-- A packet is what the dispatch context fetches from. -/
theorem State.pkt_of_fetch {s : State} {p : PartId} {c : Ctx} (h : s.fetch p = .word c) (hd : c.disp = true) :
    (s.drv p).dstate = .dispatch ∧ ∃ k, (s.drv p).pkt = some k := by
  unfold State.fetch at h
  dsimp only at h
  split at h
  · split at h
    · cases h; cases hd
    · cases h
  · next hst =>
    split at h
    · cases h
    · next k hk => exact ⟨hst, k, hk⟩
  · cases h

/-- An instruction that names a slot or an address out of range is a drover fault (R120, R127). -/
theorem State.droverFaulted_droverFault {s : State} {p : PartId} {c : Ctx} (h : s.fetch p = .word c) (st : Status)
    (d0 d1 : Nat) : s.DroverFaulted (s.droverFault c st d0 d1) p c st := by
  have hp := State.fetch_part h
  unfold State.droverFault
  extract_lets eng r s1 s2
  have hr : s.Recorded s1 p r := by
    unfold s1
    rw [hp]
    exact s.recorded_faultRecord p _ r
  have hpart2 : ∀ p', s2.part p' = s1.part p' := fun p' => State.part_raise ..
  have hdrv2 : s2.drv p = s1.drv p := by rw [State.drv, State.drv, hpart2]
  have hmem2 : s2.mem = s.mem := (State.mem_raise ..).trans hr.mem
  have hregs2 : ∀ o, o < 0x10000 → s2.reg (ptBase p + o) = s1.reg (ptBase p + o) :=
    fun o ho => State.reg_raise_apart _ _ _ _ _ _ _ (not_eventReg_ptBase p ho)
  clear_value s2
  have hfault : ∀ u : State, (∀ p', p' ≠ p → u.part p' = s2.part p') → u.part p = { s2.part p with drv := u.drv p } →
      u.mem = s2.mem → (∀ o, o < 0x1100 → u.reg (ptBase p + o) = s2.reg (ptBase p + o)) →
      u.drv p = { s2.drv p with
        dstate := if c.disp then (s.drv p).resume else .faulted
        pkt := if c.disp then none else (s.drv p).pkt
        pktFault := (u.drv p).pktFault, pktStarted := (u.drv p).pktStarted, stalled := (u.drv p).stalled
        fenceMain := (u.drv p).fenceMain, fenceDisp := (u.drv p).fenceDisp, waitRaised := (u.drv p).waitRaised
        waitAt := (u.drv p).waitAt, ended := (u.drv p).ended, stack := (u.drv p).stack } →
      s.DroverFaulted u p c st := by
    intro u hothers hpart hmem hregs hu
    rw [hdrv2, hr.drv] at hu
    refine ⟨⟨s.recordOf p r, rfl, rfl, rfl, rfl, rfl, by rw [hu]⟩, by rw [hu], by rw [hu], fun h => ?_, fun h => ?_,
      by rw [hu], by rw [hu], by rw [hu], by rw [hu], by rw [hu], by rw [hu], by rw [hu], ?_,
      fun p' h => (hothers p' h).trans ((hpart2 p').trans (hr.others p' h)), hmem.trans hmem2, ?_⟩
    · rw [hu, h]; rfl
    · rw [hu, h]; rfl
    · rw [hpart, hpart2, hr.part]
    · dsimp only
      have ho : (if (s.drv p).faults.length < 16 then 0x1018 else 0x1020) < 0x1100 := by split <;> decide
      rw [hregs _ ho, hregs2 _ (by omega), hr.regs _ (not_eventReg_ptBase p (by omega)), if_pos rfl]
  cases hc : c.disp with
  | false =>
    rw [if_neg (by decide), hp]
    refine hfault _ (fun p' h => by simp [h]) (by simp) rfl (fun _ _ => rfl) ?_
    simp only [State.drv_modDrv, if_true, hc, Bool.false_eq_true, if_false]
    rw [hdrv2, hr.drv]
  | true =>
    obtain ⟨-, k, hk⟩ := State.pkt_of_fetch h hc
    have hk2 : (s2.drv p).pkt = some k := by rw [hdrv2, hr.drv]; exact hk
    rw [if_pos rfl, hp]
    unfold State.endPacket
    dsimp only
    rw [hk2]
    dsimp only
    rw [if_neg (fun h => Bool.noConfusion h.2)]
    refine hfault _ (fun p' h => by simp [h]) (by simp) (State.mem_setDrv_addReg ..) (fun o ho => ?_) ?_
    · rw [State.reg_addReg, if_neg (by omega)]
      rfl
    · rw [State.drv, State.part_addReg, State.part_setDrv, if_pos rfl, hdrv2, hr.drv, hc]
      rfl

/-- An instruction that names a slot or an address out of range (R120, R127). -/
theorem State.droverFaulted_rangeFault {s : State} {p : PartId} {c : Ctx} {key : Nat} (h : s.Ready p key c) (a : Nat) :
    s.DroverFaulted (s.rangeFault c a) p c St.operandRange := State.droverFaulted_droverFault h.1 ..

/-! ## The end of a request -/

section
variable {s : State} {p : PartId} {k : Nat} (hk : k < 1024)
include hk

/-- The phase in which a request ends stands in its manifest. -/
theorem State.manifest_endRequest (ph : Nat) : mPhase ((s.endRequest p k ph).manifest p k) = ph % 16 := by
  unfold State.endRequest
  extract_lets u
  rw [(State.closeRequest_spec _ p k).1.manifest, State.stamp, State.manifest_setManifest_same _ p _ hk,
    mPhase_mWithPhase]

/-- A request that is not being sent ends with the phase and the epoch in its manifest, which goes to the manager. -/
theorem State.endRequest_spec (hout : s.outgoingOf p k = none) (ph : Nat) :
    (s.endRequest p k ph).manifest p k = mWithPhase (s.manifest p k) ph s.epoch ∧
      (∀ j, (s.endRequest p k ph).slot p j = s.slot p j) ∧ (s.endRequest p k ph).drv p = s.drv p ∧
      ∀ n, s.mgrNode = some n → (s.endRequest p k ph).Posted n (.finalManifest (mWithPhase (s.manifest p k) ph s.epoch)) := by
  have heq : s.endRequest p k ph = (s.stamp p k ph).closeRequest p k := by
    unfold State.endRequest
    rw [hout]
    rfl
  have hmft : (s.stamp p k ph).manifest p k = mWithPhase (s.manifest p k) ph s.epoch :=
    State.manifest_setManifest_same _ p _ hk
  have hpart : (s.stamp p k ph).part p = { s.part p with hsram := ((s.stamp p k ph).part p).hsram } := by
    rw [State.stamp, State.part_setManifest, if_pos rfl]
  have hmgr : (s.stamp p k ph).mgrNode = s.mgrNode := by
    rw [State.stamp, State.setManifest_only]
    rfl
  obtain ⟨hside, hposted⟩ := (s.stamp p k ph).closeRequest_spec p k
  rw [heq]
  refine ⟨(hside.manifest p k).trans hmft, fun j => (hside.slot p j).trans ?_, (hside.drv p).trans ?_, fun n hn => ?_⟩
  · rw [State.slot, State.slot, hpart]
  · rw [State.drv, State.drv, hpart]
  · rw [← hmft]
    exact hposted n (hmgr.trans hn)

/-- A manifest that fails its CRC ends a request FAILED that is owned here and has not ended (R59). -/
theorem State.mPhase_crcFailed (howns : s.owns p k = true) (hterm : terminal (mPhase (s.manifest p k)) = false) :
    mPhase ((s.crcFailed p k).manifest p k) = 8 := by
  unfold State.crcFailed
  extract_lets u
  have hu : s.Aside u := State.aside_raise ..
  have howns' : u.owns p k = true := by rw [State.owns, hu.slot]; exact howns
  rw [if_neg (by rw [hu.manifest, hterm, howns']; decide), State.manifest_endRequest hk]
  rfl

end

/-! ## Writes of a phase (Table 1.2) -/

theorem State.ownMove_cancelled (s : State) (p : PartId) (k a : Nat) :
    s.ownMove p k a 7 = (decide (a ≤ 5) && (s.slot p k).cancel) :=
  match a with
  | 0 | 1 | 2 | 3 | 4 | 5 => rfl
  | _ + 6 => rfl

theorem State.ownMove_failed (s : State) (p : PartId) (k a : Nat) : s.ownMove p k a 8 = decide (a ≤ 5) :=
  match a with
  | 0 | 1 | 2 | 3 | 4 | 5 => rfl
  | _ + 6 => rfl

/-- Of the pairs that Table 1.2 does not list for a partition, none is a move of it. -/
theorem State.ownMove_of_unlisted {s : State} {p : PartId} {k a b : Nat} (h8 : b ≠ 8)
    (h7 : b = 7 → (s.slot p k).cancel = false)
    (h : (a, b) ∉ [(1, 2), (1, 3), (2, 3), (3, 4), (3, 6), (5, 1), (5, 3)]) : s.ownMove p k a b = false := by
  unfold State.ownMove
  dsimp only
  split
  · exact absurd (by simp) h
  · exact absurd (by simp) h
  · exact absurd (by simp) h
  · exact absurd (by simp) h
  · exact absurd (by simp) h
  · exact absurd (by simp) h
  · exact absurd (by simp) h
  · rw [h7 rfl, Bool.and_false]
  · exact absurd rfl h8
  · rfl

section
variable {s : State} {c : Ctx} {k ph : Nat} (hcrc : mCrcOk (s.manifest c.p k) = true) (howns : s.owns c.p k = true)
  (hterm : terminal (mPhase (s.manifest c.p k)) = false)
include hcrc howns hterm

/-- A phase that Table 1.2 allows is written, and ends the request where it is terminal. -/
theorem State.mfPhase_of_allowed
    (hmove : (if (s.slot c.p k).done then ph == Ph.done else s.ownMove c.p k (mPhase (s.manifest c.p k)) ph) = true)
    (hfetch : (((s.part c.p).fetches.any fun f => f.slot = k) && (ph == Ph.prefill || ph == Ph.decode)) = false) :
    s.mfPhase c k ph =
      let u := if ph = Ph.decode then s.setManifest c.p k (mWithFlag (s.manifest c.p k) flEvicted false) else s
      if terminal ph then
        (u.answerCancels c.p k (if ph = Ph.cancelled then St.cancelled else St.alreadyDone)).endRequest c.p k ph
      else u.stamp c.p k ph := by
  unfold State.mfPhase
  dsimp only
  rw [if_neg (by rw [hcrc]; decide), howns, hterm, hmove, hfetch]
  rfl

/-- Any other phase is a request fault, and the request ends FAILED. -/
theorem State.mfPhase_of_refused (hdone : (s.slot c.p k).done = false)
    (hmove : s.ownMove c.p k (mPhase (s.manifest c.p k)) ph = false)
    (howns' : (s.phaseFault c k (mPhase (s.manifest c.p k)) ph).owns c.p k = true) :
    s.mfPhase c k ph = (s.phaseFault c k (mPhase (s.manifest c.p k)) ph).endRequest c.p k 8 := by
  unfold State.mfPhase
  dsimp only
  rw [if_neg (by rw [hcrc]; decide), howns, hterm, hdone, hmove, if_neg (by simp), if_pos ⟨howns', rfl⟩]
  rfl

end

/-! ## The opcodes -/

theorem State.slotOk_of_held {s : State} {p : PartId} {k : Nat} (h : k < 1024 ∧ (s.slot p k).held = true) :
    s.slotOk p k = true := by
  rw [State.slotOk, decide_eq_true h.1, h.2]
  rfl

theorem State.owns_of_held {s : State} {p : PartId} {k : Nat} (h : k < 1024 ∧ (s.slot p k).held = true)
    (hgone : (s.slot p k).gone = false) : s.owns p k = true := by
  rw [State.owns, h.2, hgone]
  rfl

theorem Drover.sreg_setSreg (d : Drover) (disp : Bool) {k : Nat} (hk : k < 64) (v : Word) (x : Bool) (j : Nat) :
    (d.setSreg disp k v).sreg x j = if j = k ∧ (k < 56 ∨ x = disp) then v else d.sreg x j := by
  unfold Drover.setSreg Drover.sreg
  by_cases hb : disp = true ∧ 56 ≤ k
  · obtain ⟨rfl, hk'⟩ := hb
    rw [if_pos (c := true = true ∧ 56 ≤ k) ⟨rfl, hk'⟩]
    by_cases hx : x = true ∧ 56 ≤ j
    · rw [if_pos hx, if_pos hx, vget_vset]
      exact if_congr ⟨fun h => ⟨by omega, Or.inr hx.1⟩, fun h => by omega⟩ rfl rfl
    · rw [if_neg hx, if_neg hx, if_neg fun h => hx ⟨h.2.resolve_left (by omega), by omega⟩]
  · rw [if_neg hb]
    by_cases hx : x = true ∧ 56 ≤ j
    · rw [if_pos hx, if_pos hx, if_neg fun h => hb ⟨(h.2.resolve_left (by omega)).symm.trans hx.1, by omega⟩]
    · rw [if_neg hx, if_neg hx, vget_vset]
      refine if_congr ⟨fun h => ⟨h.1.symm, ?_⟩, fun h => ⟨h.1.symm, hk⟩⟩ rfl rfl
      by_cases hk' : k < 56
      · exact Or.inl hk'
      · cases x <;> cases disp <;> simp_all

/-- A register written, as either context reads it. -/
theorem Drover.wroteScalar_setSreg (d : Drover) (disp : Bool) {k : Nat} (hk : k < 64) (v : Word) (pc : BitVec 14) :
    d.WroteScalar { (d.setSreg disp k v).setPc disp pc with stalled := false } disp k v := by
  refine ⟨?_, fun x j => Eq.trans (b := (d.setSreg disp k v).sreg x j) ?_ (d.sreg_setSreg disp hk v x j)⟩
  · rw [Drover.OnlyScalars, Drover.setPc_only]
    unfold Drover.setSreg
    split <;> rfl
  · cases disp <;> rfl

theorem Drover.pcs_setSreg (d : Drover) (disp : Bool) (k : Nat) (v : Word) :
    (d.setSreg disp k v).mainPc = d.mainPc ∧ (d.setSreg disp k v).dispPc = d.dispPc := by
  unfold Drover.setSreg
  split <;> exact ⟨rfl, rfl⟩

theorem State.addReg_addReg_only (s : State) (f o o' n n' : Nat) :
    (({ s with freeCount := f } : State).addReg o n).addReg o' n' =
      { s with freeCount := f, bar0 := ((({ s with freeCount := f } : State).addReg o n).addReg o' n').bar0 } := rfl

/-- An access of the drover's own port counts in two registers. -/
theorem State.hsramUse_spec (s : State) (p : PartId) (a n : Nat) :
    s.hsramUse p a n = { s with freeCount := s.freeCount + 1, bar0 := (s.hsramUse p a n).bar0 } ∧
      s.RegsBut (s.hsramUse p a n) [ptBase p + 0x1028, ptBase p + 0x1030] := by
  refine ⟨State.addReg_addReg_only .., fun o ho => ?_⟩
  simp only [List.mem_cons, List.not_mem_nil, or_false, not_or] at ho
  rw [State.hsramUse, State.hsramCounts, State.reg_addReg, if_neg ho.2, State.reg_addReg, if_neg ho.1]
  rfl

/-- MF_RD reads a word of the table. -/
theorem State.mfRd_spec {s : State} {p : PartId} {c : Ctx} (h : s.Ready p 0x60 c) {k : Nat}
    (hk : k = ((s.drv p).sreg c.disp (iSrcA c.w)).toNat) (hheld : k < 1024 ∧ (s.slot p k).held = true)
    (hcrc : mCrcOk (s.manifest p k) = true) : ∃ t, exec (.mfRd p) s = .next t ∧
      ({ s with freeCount := t.freeCount } : State).Advanced t p c c.next [ptBase p + 0x1028, ptBase p + 0x1030] ∧
      (s.drv p).WroteScalar (t.drv p) c.disp (iDst c.w)
        (wordOf ((List.range 8).map fun i => s.holdByte p (s.mftBase p + 64 * k + 8 * (c.w.toNat % 8) + i))) := by
  have hp := State.fetch_part h.1
  have hexec : exec (.mfRd p) s = .next (((s.hsramUse p (s.mftBase p + 64 * k + 8 * fld c.w 2 0) 8).modDrv p fun d =>
      d.setSreg c.disp (iDst c.w) (s.hsWord p (s.mftBase p + 64 * k + 8 * fld c.w 2 0))).issued c c.next 1) := by
    show execMfRd p s = _
    rw [execMfRd, State.begin_of_ready h]
    dsimp only
    rw [← hk, if_pos (State.slotOk_of_held hheld), State.checkOwn, if_pos hcrc]
  have hword : s.hsWord p (s.mftBase p + 64 * k + 8 * fld c.w 2 0) =
      wordOf ((List.range 8).map fun i => s.holdByte p (s.mftBase p + 64 * k + 8 * (c.w.toNat % 8) + i)) := by
    rw [State.hsWord, State.hsRead, memRead_eq_map, fld_low]
    rfl
  rw [hword] at hexec
  obtain ⟨hvonly, hvregs⟩ := s.hsramUse_spec p (s.mftBase p + 64 * k + 8 * fld c.w 2 0) 8
  generalize s.hsramUse p (s.mftBase p + 64 * k + 8 * fld c.w 2 0) 8 = v at hexec hvonly hvregs
  generalize wordOf _ = w at hexec ⊢
  have hvpart : ∀ p', v.part p' = s.part p' := fun p' => by rw [hvonly]; rfl
  have hvdrv : v.drv p = s.drv p := by rw [State.drv, State.drv, hvpart]
  obtain ⟨⟨⟨⟨honly, hothers⟩, hpart⟩, hst, hpc, hregs, hcount⟩, hdrv⟩ := v.advanced_issued p c
    (fun d => d.setSreg c.disp (iDst c.w) w) c.next 1 hp (Drover.pcs_setSreg ..).1 (Drover.pcs_setSreg ..).2
  refine ⟨_, hexec, ⟨⟨⟨?_, fun p' h => (hothers p' h).trans (hvpart p')⟩, ?_⟩, hst, ?_, fun o ho => ?_, ?_⟩, ?_⟩
  · rw [honly, hvonly]
  · rw [hpart, hvpart]
    rfl
  · rw [hvdrv] at hpc
    exact hpc
  · rw [List.mem_append, not_or] at ho
    exact (hregs o (by simpa using ho.1)).trans (hvregs o ho.2)
  · rw [hcount, hvregs]
    · rfl
    · simp
  · rw [hdrv, hvdrv]
    exact (s.drv p).wroteScalar_setSreg c.disp (Nat.mod_lt _ (by decide)) w _

/-- MF_FLAG writes a flag. -/
theorem State.mfFlag_spec {s : State} {p : PartId} {c : Ctx} (h : s.Ready p 0x62 c) {k : Nat}
    (hk : k = ((s.drv p).sreg c.disp (iSrcA c.w)).toNat) (hheld : k < 1024 ∧ (s.slot p k).held = true) :
    exec (.mfFlag p) s = .next ((if mCrcOk (s.manifest p k) then
      s.setManifest p k (mWithFlag (s.manifest p k) (c.w.toNat % 16) (!c.w.getLsbD 8)) else s.crcFailed p k).issued c
        c.next 1) := by
  show execMfFlag p s = _
  rw [execMfFlag, State.begin_of_ready h]
  dsimp only
  rw [← hk, if_pos (State.slotOk_of_held hheld), fld_low]
  rfl

/-- MF_PHASE is the write of a phase, and issues. -/
theorem State.exec_mfPhase {s : State} {p : PartId} {c : Ctx} (h : s.Ready p 0x61 c) {k : Nat}
    (hk : k = ((s.drv p).sreg c.disp (iSrcA c.w)).toNat) (hheld : k < 1024 ∧ (s.slot p k).held = true) :
    exec (.mfPhase p) s = .next ((s.mfPhase c k (c.w.toNat % 16)).issued c c.next 1) := by
  show execMfPhase p s = _
  rw [execMfPhase, State.begin_of_ready h]
  dsimp only
  rw [← hk, if_pos (State.slotOk_of_held hheld), fld_low]
  rfl

/-- A fault of a request leaves its slot marked, and its record as the last of the queue. -/
theorem State.phaseFault_spec {s : State} {c : Ctx} {k old ph : Nat} {u : State} (hu : s.phaseFault c k old ph = u) :
    (∀ j, u.slot c.p j = if j = k then { s.slot c.p k with faulted := true } else s.slot c.p j) ∧
      u.manifest c.p k = s.manifest c.p k ∧ u.outgoingOf c.p k = s.outgoingOf c.p k ∧ u.epoch = s.epoch ∧
      u.mgrNode = s.mgrNode ∧ (u.drv c.p).faultSeq = (s.drv c.p).faultSeq + 1 ∧
      ((s.drv c.p).faults.length < 16 → ∃ r, (u.drv c.p).faults = (s.drv c.p).faults ++ [r] ∧
        r.status = St.phaseIllegal ∧ r.tag = k ∧ r.pc = c.pc ∧ r.detail0 = BitVec.ofNat 64 (old + 16 * ph)) := by
  unfold State.phaseFault State.ownFault at hu
  extract_lets r pk at hu
  have hr := s.recorded_faultRecord c.p pk r
  generalize s.faultRecord c.p pk r = v at hr hu
  have hpart : v.part c.p = { s.part c.p with drv := v.drv c.p } := hr.part
  have hbase : v.mftBase c.p = s.mftBase c.p := by
    rw [State.mftBase, State.mftBase, State.regFld, State.regFld, hr.regs _ (not_eventReg_ptBase _ (by decide)),
      if_neg (by split <;> omega)]
  have hdrv : u.drv c.p = v.drv c.p := by
    rw [← hu, State.drv, State.part_setSlot, if_pos rfl]
    rfl
  rw [hdrv]
  have hmgr : u.mgr = s.mgr := by
    rw [← hu, ← hr.mgr]
    rfl
  refine ⟨fun j => ?_, ?_, ?_, by rw [State.epoch, State.epoch, hmgr], ?_, by rw [hr.drv], fun hlen => ?_⟩
  · rw [← hu, State.slot_setSlot, State.slot, hpart]
    rfl
  · rw [← hu, State.manifest_setSlot, State.manifest, State.manifest, State.hsRead, State.hsRead, hbase, hpart]
  · rw [← hu, State.outgoingOf, State.part_setSlot, if_pos rfl, hpart]
    rfl
  · rw [State.mgrNode, State.mgrNode, State.book, State.book, hmgr]
  · rw [hr.drv]
    exact ⟨s.recordOf c.p r, if_pos hlen, rfl, rfl, rfl, rfl⟩

/-- The pairs of phases that a request does not end with are moves once their trigger has come. -/
theorem State.ownMove_of_listed {s : State} {p : PartId} {k a b : Nat}
    (h : (a, b) ∈ [(1, 2), (1, 3), (2, 3), (3, 4), (5, 1), (5, 3)]) (htoken : a = 1 → (s.slot p k).tokenHere = true)
    (hprompt : b = 2 → (s.part p).role = .prompt) (hgen : b = 3 → (s.part p).role = .generate)
    (hrow : a = 2 → (s.convoyRowOf p k).isSome = true)
    (hturn : b = 4 → (((s.slot p k).turnEnded && mFlag (s.manifest p k) 6) || mFlag (s.manifest p k) 7) = true)
    (hevict : a = 5 → mFlag (s.manifest p k) 7 = decide (b = 3)) : s.ownMove p k a b = true := by
  simp only [List.mem_cons, Prod.mk.injEq, List.not_mem_nil, or_false] at h
  obtain ⟨rfl, rfl⟩ | ⟨rfl, rfl⟩ | ⟨rfl, rfl⟩ | ⟨rfl, rfl⟩ | ⟨rfl, rfl⟩ | ⟨rfl, rfl⟩ := h
  · simp [State.ownMove, htoken, hprompt]
  · simp [State.ownMove, htoken, hgen]
  · simp [State.ownMove, hgen, hrow]
  · exact hturn rfl
  · simp [State.ownMove, flEvicted, hevict]
  · simp [State.ownMove, flEvicted, hevict, hgen]

/-- A phase in which no request ends is written with the current epoch; EVICTED goes with DECODE. -/
theorem State.tableWritten_mfPhase {s : State} {p : PartId} {k ph : Nat} (hk : k < 1024)
    (hb : s.mftBase p + 65536 ≤ 12582912) :
    s.TableWritten ((if ph = Ph.decode then s.setManifest p k (mWithFlag (s.manifest p k) flEvicted false) else s).stamp p k
      ph) p k (mWithPhase (if ph = 3 then mWithFlag (s.manifest p k) 7 false else s.manifest p k) ph s.epoch) := by
  by_cases h : ph = 3
  · have h1 := State.tableWritten_setManifest hk hb (mWithFlag (s.manifest p k) flEvicted false)
    have h2 : (s.setManifest p k (mWithFlag (s.manifest p k) flEvicted false)).epoch = s.epoch := by
      rw [State.setManifest_only]
      rfl
    rw [if_pos h, if_pos (show ph = Ph.decode from h), State.stamp, h2, h1.manifest]
    exact State.TableWritten.again hk hb h1 _
  · rw [if_neg h, if_neg (show ¬ ph = Ph.decode from h)]
    exact State.tableWritten_setManifest hk hb _

/-- A phase in which a request ends is written, and the final manifest goes to the manager. -/
theorem State.answered_endRequest {s : State} {p : PartId} {k : Nat} (hk : k < 1024) (hout : s.outgoingOf p k = none)
    (st : Status) (ph : Nat) :
    ((s.answerCancels p k st).endRequest p k ph).manifest p k = mWithPhase (s.manifest p k) ph s.epoch ∧
      ∀ n, s.mgrNode = some n → ((s.answerCancels p k st).endRequest p k ph).Posted n
        (.finalManifest (mWithPhase (s.manifest p k) ph s.epoch)) := by
  obtain ⟨v, hv, heq⟩ := s.answerCancels_spec p k st
  rw [heq]
  have hmft : (v.setSlot p k { v.slot p k with cancellers := [] }).manifest p k = s.manifest p k := by
    rw [State.manifest_setSlot, hv.manifest]
  have hep : (v.setSlot p k { v.slot p k with cancellers := [] }).epoch = s.epoch := hv.aside.epoch
  have hmgr : (v.setSlot p k { v.slot p k with cancellers := [] }).mgrNode = s.mgrNode := hv.mgrNode
  have hnone : (v.setSlot p k { v.slot p k with cancellers := [] }).outgoingOf p k = none := by
    rw [State.outgoingOf, State.part_setSlot, if_pos rfl, ← hout, State.outgoingOf, hv.part]
  obtain ⟨h1, -, -, h2⟩ := State.endRequest_spec hk hnone ph
  rw [hmft, hep] at h1 h2
  exact ⟨h1, fun n hn => h2 n (hmgr.trans hn)⟩

/-- An instruction refers to the slot that it names by its tag, as a member, or through its convoy. -/
theorem State.refersTo_of_named {s : State} {p : PartId} {k : Nat} {e : QEntry} (h : e.tag = k ∨ k ∈ e.members ∨
    ∃ n, e.convoy = some n ∧ ∃ x ∈ s.cvMembers p n, x.2 = k) : s.refersTo p k e = true := by
  unfold State.refersTo
  obtain h | h | ⟨n, hn, x, hx, hk⟩ := h
  · simp [h]
  · simp [h]
  · have hany : ((s.cvMembers p n).any fun m => m.2 == k) = true := List.any_eq_true.2 ⟨x, hx, by simp [hk]⟩
    simp [hn, hany]

/-- A stall that no counter counts marks the drover alone. -/
theorem State.stall_spec {s : State} {p : PartId} {c : Ctx} (hp : c.p = p) :
    s.OnlyDrv (s.stall c none) p ∧ (s.stall c none).drv p = { s.drv p with stalled := true } := by
  subst hp
  unfold State.stall
  cases c.disp
  · exact ⟨⟨⟨rfl, fun p' h => by simp [h]⟩, by simp⟩, by simp⟩
  · exact ⟨⟨⟨State.eq_but_parts_bar0 (by simp), fun p' h => by simp [h]⟩, by simp⟩, by simp⟩

/-- Settles O8: what each of the manifest opcodes comes to. -/
theorem manifestOpcodes : Obligations.ManifestOpcodes := by
  unfold Obligations.ManifestOpcodes
  intro s p c d k base m ph next held writes hbase
  have hb : s.mftBase p = base := s.mftBase_eq p
  rw [← hb] at hbase
  have hwrites : ∀ {t u : State} {m' : Manifest}, s.TableWritten t p k m' → c.p = p → t.issued c c.next 1 = u →
      writes u m' := by
    intro t u m' ht hp hu
    have h := ht.issued hp c.next 1 hu
    rw [hb] at h
    exact h
  refine ⟨?mfRd, ?mfFlag, ?flagCrc, ?phase, ?terminal, ?illegal, ?mfFree, ?freeStalls, ?range⟩
  case mfRd =>
    intro hready hheld hcrc
    rw [← hb]
    exact State.mfRd_spec hready rfl hheld hcrc
  case mfFlag =>
    intro hready hheld hcrc
    have hexec := State.mfFlag_spec hready rfl hheld
    rw [if_pos hcrc] at hexec
    exact ⟨_, hexec, hwrites (State.tableWritten_setManifest hheld.1 hbase _) (State.fetch_part hready.1) rfl⟩
  case flagCrc =>
    intro hready hheld hcrc hgone hterm
    have hexec := State.mfFlag_spec hready rfl hheld
    rw [if_neg (by rw [hcrc]; decide)] at hexec
    have hon := (s.crcFailed p k).onward_issued (State.fetch_part hready.1) c.next 1
    refine ⟨_, hexec, ?_, hon.ctxPc⟩
    rw [hon.manifest]
    exact State.mPhase_crcFailed hheld.1 (State.owns_of_held hheld hgone) hterm
  case phase =>
    intro hready hheld hgone hdone hcrc hpair htoken hprompt hgen hrow hturn hevict hfetch
    obtain rfl := State.fetch_part hready.1
    have hmove := State.ownMove_of_listed hpair htoken hprompt hgen hrow hturn hevict
    have hexec := State.exec_mfPhase hready rfl hheld
    have hnot : terminal (mPhase m) = false ∧ terminal ph = false := by
      simp only [List.mem_cons, Prod.mk.injEq, List.not_mem_nil, or_false] at hpair
      obtain ⟨h1, h2⟩ | ⟨h1, h2⟩ | ⟨h1, h2⟩ | ⟨h1, h2⟩ | ⟨h1, h2⟩ | ⟨h1, h2⟩ := hpair <;> rw [h1, h2] <;> decide
    have hnone : ((s.part c.p).fetches.any fun f => f.slot = k) = false :=
      List.any_eq_false.2 fun f hf => by simpa using hfetch f hf
    rw [State.mfPhase_of_allowed hcrc (State.owns_of_held hheld hgone) hnot.1 (by rw [hdone]; exact hmove)
      (by rw [hnone]; rfl)] at hexec
    dsimp only at hexec
    rw [if_neg (by rw [hnot.2]; decide)] at hexec
    exact ⟨_, hexec, hwrites (State.tableWritten_mfPhase hheld.1 hbase) rfl rfl⟩
  case terminal =>
    intro hready hheld hgone hcrc hout hend
    obtain rfl := State.fetch_part hready.1
    have hexec := State.exec_mfPhase hready rfl hheld
    have hph : mPhase m ≤ 5 ∧ (ph = 6 ∨ ph = 7 ∨ ph = 8) := by omega
    have hmove : (if (s.slot c.p k).done then ph == Ph.done else s.ownMove c.p k (mPhase m) ph) = true := by
      obtain ⟨ha, hb6, hturn, hkeep⟩ | ⟨ha, hdone, ⟨hb7, hcancel⟩ | hb8⟩ := hend
      · split
        · exact beq_iff_eq.2 hb6
        · rw [ha, hb6]
          show ((s.slot c.p k).turnEnded && !mFlag m 6) = true
          rw [hturn, hkeep]
          rfl
      · rw [hdone, hb7, State.ownMove_cancelled, decide_eq_true ha, hcancel]
        rfl
      · rw [hdone, hb8, State.ownMove_failed, decide_eq_true ha]
        rfl
    have hnot : terminal (mPhase m) = false ∧ terminal ph = true := by
      simp only [terminal, Bool.and_eq_false_iff, Bool.and_eq_true, decide_eq_true_eq, decide_eq_false_iff_not]
      omega
    rw [State.mfPhase_of_allowed hcrc (State.owns_of_held hheld hgone) hnot.1 hmove] at hexec
    · dsimp only at hexec
      rw [if_neg (c := ph = Ph.decode) (by have : Ph.decode = 3 := rfl; omega), if_pos hnot.2] at hexec
      obtain ⟨hmft, hposted⟩ := State.answered_endRequest hheld.1 hout
        (if ph = Ph.cancelled then St.cancelled else St.alreadyDone) ph
      have hon := ((s.answerCancels c.p k (if ph = Ph.cancelled then St.cancelled else St.alreadyDone)).endRequest c.p k ph).onward_issued (c := c) rfl c.next 1
      exact ⟨_, hexec, (hon.manifest k).trans hmft, hon.ctxPc, fun n hn => (hposted n hn).congr hon.fab⟩
    · obtain ⟨-, h | h | h⟩ := hph <;> rw [h] <;> exact Bool.and_false _
  case illegal =>
    intro hready hheld hgone hcrc hout hold hdone h8 h7 hpair
    obtain rfl := State.fetch_part hready.1
    have hexec := State.exec_mfPhase hready rfl hheld
    have hterm : terminal (mPhase m) = false := by
      simp only [terminal, Bool.and_eq_false_iff, decide_eq_false_iff_not]
      omega
    have hrefused := State.mfPhase_of_refused hcrc (State.owns_of_held hheld hgone) hterm hdone
      (State.ownMove_of_unlisted h8 h7 hpair)
    generalize hu : s.phaseFault c k (mPhase m) ph = u at hrefused
    obtain ⟨hslot, hmft, hout', hep, hmgr, hseq, hrec⟩ := State.phaseFault_spec hu
    rw [hrefused] at hexec
    · obtain ⟨h1, h2, h3, h4⟩ := State.endRequest_spec hheld.1 (hout'.trans hout) 8
      rw [hmft, hep] at h1 h4
      have hon := (u.endRequest c.p k 8).onward_issued (c := c) rfl c.next 1
      refine ⟨_, hexec, (hon.manifest k).trans h1, hon.ctxPc, ?_, ?_, ?_, fun n hn => ?_⟩
      · rw [hon.slot, h2, hslot, if_pos rfl]
      · rw [hon.faultSeq, h3, hseq]
      · rw [hon.faults, h3]
        exact hrec
      · exact (h4 n (hmgr.trans hn)).congr hon.fab
    · rw [State.owns, hslot, if_pos rfl]
      exact State.owns_of_held hheld hgone
  case mfFree =>
    intro hready hheld hfree hend
    have hp := State.fetch_part hready.1
    have hexec : exec (.mfFree p) s = .next ((s.setSlot p k {}).issued c c.next 1) := by
      show execMfFree p s = _
      rw [execMfFree, State.begin_of_ready hready]
      dsimp only
      have hnone : (s.drv p).entries.any (s.refersTo p k) = false :=
        List.any_eq_false.2 fun e he => by rw [hfree e he]; decide
      have hended : ¬ (s.owns p k = true ∧ terminal (mPhase (s.manifest p k)) = false) := by
        rintro ⟨howns, hterm⟩
        obtain hgone | ⟨h1, h2⟩ := hend
        · rw [State.owns, hgone, Bool.not_true, Bool.and_false] at howns
          exact Bool.noConfusion howns
        · rw [terminal, decide_eq_true h1, decide_eq_true h2] at hterm
          exact Bool.noConfusion hterm
      rw [if_neg (by rw [State.slotOk_of_held hheld]; decide), if_neg (by rw [hnone]; decide), if_neg hended]
    obtain ⟨⟨⟨honly, hothers⟩, hpart⟩, -⟩ := (s.setSlot p k {}).issued_spec p c c.next 1 hp
    have hon := (s.setSlot p k {}).onward_issued hp c.next 1
    refine ⟨_, hexec, ?_, fun p' h => (hothers p' h).trans ?_, ?_, fun j => ?_, hon.ctxPc⟩
    · rw [honly]
      rfl
    · rw [State.part_setSlot, if_neg h]
    · rw [hpart, State.part_setSlot, if_pos rfl]
    · rw [hon.slot, State.slot_setSlot]
  case freeStalls =>
    intro hready hheld hrefers
    have hp := State.fetch_part hready.1
    have hexec : exec (.mfFree p) s = .next (s.stall c none) := by
      show execMfFree p s = _
      rw [execMfFree, State.begin_of_ready hready]
      dsimp only
      have hany : (s.drv p).entries.any (s.refersTo p k) = true := by
        obtain ⟨e, he, hrefer⟩ := hrefers
        exact List.any_eq_true.2 ⟨e, he, State.refersTo_of_named hrefer⟩
      rw [if_neg (by rw [State.slotOk_of_held hheld]; decide), if_pos hany]
    exact ⟨_, hexec, State.stall_spec hp⟩
  case range =>
    intro i key hi hready hheld
    have hslot : ¬ s.slotOk p k = true := fun h => hheld (by simpa [State.slotOk] using h)
    refine ⟨s.rangeFault c k, ?_, State.droverFaulted_rangeFault hready k⟩
    simp only [List.mem_cons, Prod.mk.injEq, List.not_mem_nil, or_false] at hi
    obtain ⟨rfl, rfl⟩ | ⟨rfl, rfl⟩ | ⟨rfl, rfl⟩ | ⟨rfl, rfl⟩ | ⟨rfl, rfl⟩ := hi
    · show execMfRd p s = _
      rw [execMfRd, State.begin_of_ready hready]
      exact congrArg _ (if_neg hslot)
    · show execMfPhase p s = _
      rw [execMfPhase, State.begin_of_ready hready]
      exact congrArg _ (if_neg hslot)
    · show execMfFlag p s = _
      rw [execMfFlag, State.begin_of_ready hready]
      exact congrArg _ (if_neg hslot)
    · show execMfFree p s = _
      rw [execMfFree, State.begin_of_ready hready]
      exact congrArg _ (if_pos (by simpa using hslot))
    · show execSmpCancel p s = _
      rw [execSmpCancel, State.begin_of_ready hready]
      exact congrArg _ (if_neg hslot)

end Sys2Proof.Machine
end

