-- ==== Sys2Proof/Proofs/PromptLogs.lean ====
section
/-! PROOFS. Appends to a prompt log and their refusals (O36). -/

namespace Sys2Proof.Machine

/-! ## Appends at the manager (R74) -/

/-- A prompt log with the entries of an append at `i` that lie beyond those it holds. -/
def appendedLog (l : PromptLog) (i : Nat) (es : List (BitVec 32)) : PromptLog :=
  { l with entries := l.entries ++ es.drop (l.entries.length - i) }

/-- An append is compared over the entries that both it and the log hold. -/
theorem take_length_overlap (held es : List (BitVec 32)) (i : Nat) :
    es.take ((held.drop i).take es.length).length = es.take (held.length - i) := by
  rw [List.length_take, List.length_drop, Nat.min_comm, ← List.take_eq_take_min]

theorem State.exec_promptLogAppend {s : State} (h : s.accepts = true) (src : NodeId) (id : ReqId) (i : Nat)
    (es : List (BitVec 32)) : exec (.promptLogAppend src id i es) s = .next (s.rxAppend src id i es) := by
  show execPromptLogAppend src id i es s = _
  rw [execPromptLogAppend, State.ifTakes, if_pos h]

theorem State.rxAppend_worker {s : State} (h : s.isManager = false) (src : NodeId) (id : ReqId) (i : Nat)
    (es : List (BitVec 32)) : s.rxAppend src id i es = s := by
  unfold State.rxAppend
  rw [if_neg (by rw [h]; decide)]

section
variable {s : State} {id : ReqId} {l : PromptLog} {i : Nat} (hm : s.isManager = true) (hl : s.logOf id = some l)
include hm hl

theorem State.rxAppend_beyond (h : l.entries.length < i) (src : NodeId) (es : List (BitVec 32)) :
    s.rxAppend src id i es = s.sendCtl src (.logRefuse id l.entries.length) (ctlTagOf id) := by
  unfold State.rxAppend
  simp only [if_pos hm, hl, if_pos h]

theorem State.rxAppend_differing {es : List (BitVec 32)} (h : i ≤ l.entries.length)
    (hdiff : (l.entries.drop i).take es.length ≠ es.take (l.entries.length - i)) (src : NodeId) :
    ∃ w, s.rxAppend src id i es = (s.raise Ev.logOverlapMismatch St.ok 16 0xFF w).sendCtl src
      (.logRefuse id l.entries.length) (ctlTagOf id) := by
  unfold State.rxAppend
  simp only [if_pos hm, hl, if_neg (Nat.not_lt.mpr h), take_length_overlap]
  rw [if_pos hdiff]
  exact ⟨_, rfl⟩

/-- An append that agrees with the log lengthens it and is mirrored; of the rest of the state only the request table, where
the request may be marked RECOMPUTED, and the memories have changed before. -/
theorem State.rxAppend_agreeing {es : List (BitVec 32)} (h : i ≤ l.entries.length)
    (hsame : (l.entries.drop i).take es.length = es.take (l.entries.length - i)) (src : NodeId) :
    ∃ v : State, s.rxAppend src id i es =
        v.mirrorOut [.log (appendedLog l i es)] (.ackAppend src id (appendedLog l i es).entries.length) ∧
      v.logOf id = some (appendedLog l i es) ∧ v.parts = s.parts ∧ v.fab = s.fab ∧
      v.mgr = { s.mgr with requests := v.mgr.requests, logs := v.mgr.logs } := by
  have hid : (appendedLog l i es).id = id := show l.id = id from State.id_of_logOf hl
  have htaken : ∀ u : State, u = { s with mgr := { s.mgr with requests := u.mgr.requests } } →
      let v := (u.putLog (appendedLog l i es)).storeLog (appendedLog l i es) (appendedLog l i es).sampler
      v.logOf id = some (appendedLog l i es) ∧ v.parts = s.parts ∧ v.fab = s.fab ∧
        v.mgr = { s.mgr with requests := v.mgr.requests, logs := v.mgr.logs } := by
    intro u hu v
    have hst : (u.putLog (appendedLog l i es)).Stores v := State.stores_storeLog ..
    refine ⟨?_, ?_, ?_, ?_⟩
    · rw [State.logOf, hst.mgr, ← hid]
      exact u.logOf_putLog _
    · rw [hst.parts, hu]
      rfl
    · rw [hst.fab, hu]
      rfl
    · rw [hst.mgr, hu]
      rfl
  unfold State.rxAppend
  simp only [if_pos hm, hl, if_neg (Nat.not_lt.mpr h), take_length_overlap]
  rw [if_neg (not_not_intro hsame)]
  refine ⟨_, rfl, htaken _ ?_⟩
  split
  · split
    · rfl
    · rfl
  · rfl

end

/-- What a mirrored append leaves: its log, the partitions, and the acknowledgement to its sender, or what waits for it. -/
theorem State.mirrorOut_append (s : State) (l : PromptLog) (src : NodeId) (id : ReqId) (n : Nat) :
    (s.mirrorOut [.log l] (.ackAppend src id n)).mgr =
        { s.mgr with mirrors := s.mirrorsWith [.log l] (.ackAppend src id n) } ∧
      (s.mirrorOut [.log l] (.ackAppend src id n)).parts = s.parts := by
  have hmgr := s.mgr_mirrorSend [.log l] (.ackAppend src id n)
  have hparts := (s.directs_mirrorSend [.log l] (.ackAppend src id n)).parts
  cases hs : s.stby with
  | some m =>
    rw [State.mirrorOut_standby hs]
    exact ⟨hmgr, hparts⟩
  | none =>
    rw [State.mirrorOut_alone hs]
    have hack := (s.mirrorSend [.log l] (.ackAppend src id n)).sends_sendCtl src (.logAck id n) (ctlTagOf id)
    exact ⟨hack.mgr.trans hmgr, hack.parts.trans hparts⟩

/-! ## Refusals at the owner (R74) -/

theorem State.exec_appendRefusal {s : State} (h : s.accepts = true) (id : ReqId) (n : Nat) :
    exec (.appendRefusal id n) s = .next (s.rxLogRefuse id n) := by
  show execAppendRefusal id n s = _
  rw [execAppendRefusal, State.ifTakes, if_pos h]

/-- A refusal that no instruction waits for: the owner appends again from the entry that the manager asks for, if it has
sent more. -/
theorem State.rxLogRefuse_unawaited {s : State} {id : ReqId} {p : PartId} {k : Nat} (hf : s.findReq id = some (p, k))
    (hw : ∀ e ∈ (s.drv p).queue 5, e.phase ≠ .waiting) (n : Nat) : s.rxLogRefuse id n =
      if n < max (s.slot p k).logged (s.slot p k).sentLog then
        (s.setSlot p k { s.slot p k with logged := min (s.slot p k).logged n, sentLog := n }).appendFrom p k n
      else s := by
  have hdrv : ∀ x, (s.setSlot p k x).drv p = s.drv p := fun x => by
    rw [State.drv, State.part_setSlot, if_pos rfl, State.drv]
  have hnone : ∀ f : QEntry → Prop, ∀ [DecidablePred f],
      (((s.drv p).queue 5).filter fun e => decide (e.phase = .waiting ∧ f e)) = [] := fun f _ => by
    rw [List.filter_eq_nil_iff]
    intro e he
    simp [hw e he]
  unfold State.rxLogRefuse
  rw [hf]
  by_cases h : n < max (s.slot p k).logged (s.slot p k).sentLog
  · simp only [decide_eq_true h, if_true, hdrv, hnone, and_self, if_pos h]
  · simp only [decide_eq_false h, Bool.false_eq_true, if_false, hnone, false_and, if_neg h, List.foldl_nil]

/-- A refusal that a FAB_LOG waits for, of an append that started within the log: its overlap differs. -/
theorem State.rxLogRefuse_awaited {s : State} {id : ReqId} {p : PartId} {k n : Nat} {e : QEntry}
    (hf : s.findReq id = some (p, k)) (hn : max (s.slot p k).logged (s.slot p k).sentLog ≤ n)
    (hq : (s.drv p).queue 5 = [e]) (hw : e.phase = .waiting) (ht : e.tag = k) (ho : iOp e.insn = 0x74) :
    s.rxLogRefuse id n = s.reqFault p 5 e St.operandRange n 2 := by
  unfold State.rxLogRefuse
  rw [hf]
  simp [Nat.not_lt.mpr hn, hq, hw, ht, ho]

theorem State.appendFrom_unmanaged {s : State} (h : s.mgrNode = none) (p : PartId) (k lo : Nat) :
    s.appendFrom p k lo = s := by
  unfold State.appendFrom
  rw [h]

/-- The entries that can be read go to the manager, and the slot notes how far they reach. -/
theorem State.appendFrom_managed {s u : State} {p : PartId} {k lo : Nat} {n : NodeId} {l : List (BitVec 32)}
    (hn : s.mgrNode = some n) (hu : s.unlogged p k lo = (.ok l, u)) (hl : l ≠ []) (hroom : u.Room p.val n) :
    u.SentCtl (s.appendFrom p k lo) n (.logAppend (mReqId (u.manifest p k)) lo l) ∧
      (s.appendFrom p k lo).slot p k = { u.slot p k with sentLog := lo + l.length } := by
  have hframe : IsCtl (u.appendFrame p (u.manifest p k) n lo l) p.val n (.logAppend (mReqId (u.manifest p k)) lo l) :=
    u.isCtl_ctlFrame p.val n _ _ none (by omega)
  have hunit : p.val ≠ unitComb := by unfold unitComb; omega
  have hsent := State.sentCtl_sendSeq hframe hunit hroom
  have hsends := u.sends_sendSeq (u.appendFrame p (u.manifest p k) n lo l) none 0 hframe.type_ne
  unfold State.appendFrom
  simp only [hn, hu, if_neg hl]
  generalize u.sendSeq (u.appendFrame p (u.manifest p k) n lo l) = v at hsent hsends
  exact ⟨hsent.congr rfl (State.setSlot_fab ..), by rw [State.slot_setSlot, if_pos rfl, hsends.slot]⟩

/-! ## Faults at request scope (R94) -/

/-- A fault at request scope of the one instruction in its queue: it is done and posts normally, its request is marked
as faulted, and one fault more is counted. -/
theorem State.reqFault_spec {s : State} {p : PartId} {q : Nat} {e : QEntry} (hq : q < 9) (hone : (s.drv p).queue q = [e])
    (st : Status) (a b : Nat) :
    (s.reqFault p q e st a b).head p q = some { e with phase := .done, faultPost := false, wbOk := false } ∧
      (s.reqFault p q e st a b).slot p e.tag = { s.slot p e.tag with faulted := true } ∧
      ((s.reqFault p q e st a b).drv p).faultSeq = (s.drv p).faultSeq + 1 := by
  unfold State.reqFault State.slotFault State.engRecord
  generalize hr : FaultRec.mk .. = r
  have hrec := s.recorded_faultRecord p e.pkt r
  generalize s.faultRecord p e.pkt r = v at hrec
  have hqueue : (v.drv p).queue q = [e] := by rw [Drover.queue, hrec.drv]; exact hone
  have hslot : v.slot p e.tag = s.slot p e.tag := by rw [State.slot, State.slot, hrec.part]
  have hseq : (v.drv p).faultSeq = (s.drv p).faultSeq + 1 := by rw [hrec.drv]
  have hdrv : ∀ x, (v.setSlot p e.tag x).drv p = v.drv p := fun x => by
    rw [State.drv, State.part_setSlot, if_pos rfl, State.drv]
  refine ⟨?_, ?_, ?_⟩
  · rw [State.head, State.setEntryOf, State.drv_modDrv, if_pos rfl, hdrv, hqueue, Drover.queue, Drover.setQueue, vget_vset]
    simp [hq]
  · rw [State.slot, State.setEntryOf, State.part_modDrv, if_pos rfl, ← hslot]
    exact (State.slot_setSlot ..).trans (if_pos rfl)
  · rw [State.setEntryOf, State.drv_modDrv, if_pos rfl, hdrv]
    exact hseq

/-- Settles O36: an append that agrees with the log is taken, mirrored and acknowledged, any other refused; a refused append
is sent again or faults the FAB_LOG that waits for it. -/
theorem promptLogAppends : Obligations.PromptLogAppends := by
  unfold Obligations.PromptLogAppends
  intro s src id
  refine ⟨fun hacc i es => ?deaf, fun hacc => ⟨?taken, ?beyond, ?differing, ?worker, ?unawaited, ?awaited⟩⟩
  case deaf =>
    have hno : ∀ t, s.ifTakes t = s := fun t => by rw [State.ifTakes, if_neg (by rw [hacc]; decide)]
    exact ⟨congrArg Host.Outcome.next (hno _), congrArg Host.Outcome.next (hno _)⟩
  case taken =>
    intro l i es hm hl hi hsame
    obtain ⟨v, hv, hlog, hparts, hfab, hmgr⟩ := State.rxAppend_agreeing hm hl hi hsame src
    have hexec := State.exec_promptLogAppend hacc src id i es
    rw [hv] at hexec
    have hstby : v.stby = s.stby := by rw [State.stby, State.stby, State.book, State.book, hmgr, hfab]
    have hcopy : v.mgr.copyStarted = s.mgr.copyStarted := by rw [hmgr]
    have hmirrors : v.mgr.mirrors = s.mgr.mirrors := by rw [hmgr]
    obtain ⟨htmgr, htparts⟩ := v.mirrorOut_append (appendedLog l i es) src id (appendedLog l i es).entries.length
    refine ⟨⟨_, hexec, ?_, htparts.trans hparts⟩, fun n hs hc hroom => ⟨_, hexec, ?_, ?_⟩,
      fun hs hc hroom => ⟨_, hexec, ?_, ?_⟩⟩
    · rw [State.logOf, htmgr]
      exact hlog
    · rw [State.mirrorOut_standby (hstby.trans hs), State.mirrorSend_standby (hcopy.trans hc) (hstby.trans hs),
        List.foldl_cons, List.foldl_nil]
      exact (State.sentCtl_sendCtl _ ctlTag (hroom.congr hfab)).congr hfab (State.modMgr_fab ..)
    · rw [htmgr, State.mirrorsWith, hstby, hs, hmirrors]
      exact congrArg (· ++ _) (List.append_nil _)
    · rw [htmgr, State.mirrorsWith, hstby, hs, hmirrors]
      rfl
    · rw [State.mirrorOut_alone (hstby.trans hs), State.mirrorSend_none (hstby.trans hs) (hcopy.trans hc)]
      exact (State.sentCtl_sendCtl _ (ctlTagOf id) (hroom.congr hfab)).congr hfab rfl
  case beyond =>
    intro l i es hm hl hi hroom
    refine ⟨_, State.exec_promptLogAppend hacc src id i es, ?_⟩
    rw [State.rxAppend_beyond hm hl hi]
    exact ⟨(s.sends_sendCtl ..).only, State.sentCtl_sendCtl _ _ hroom⟩
  case differing =>
    intro l i es hm hl hi hdiff hroom
    obtain ⟨w, hw⟩ := State.rxAppend_differing hm hl hi hdiff src
    refine ⟨_, State.exec_promptLogAppend hacc src id i es, ?_⟩
    rw [hw]
    have hraised := s.raised_raise Ev.logOverlapMismatch St.ok 16 0xFF w []
    have hfab := s.fab_raise Ev.logOverlapMismatch St.ok 16 0xFF w []
    have hsends := (s.raise Ev.logOverlapMismatch St.ok 16 0xFF w).sends_sendCtl src (.logRefuse id l.entries.length)
      (ctlTagOf id)
    exact ⟨hsends.mgr.trans (State.mgr_raise ..), hsends.mem.trans (State.mem_raise ..), hraised.sends hsends,
      (State.sentCtl_sendCtl _ _ (hroom.congr hfab)).congr hfab rfl⟩
  case worker =>
    intro i es hm
    rw [State.exec_promptLogAppend hacc, State.rxAppend_worker hm]
  case unawaited =>
    intro p k n hf hw x y
    have hexec := State.exec_appendRefusal hacc id n
    rw [State.rxLogRefuse_unawaited hf hw] at hexec
    refine ⟨fun hn hnone => ?_, fun mgr l s1 hn hmgr hread hl hroom => ?_, fun hn => ?_⟩
    · rw [if_pos hn, State.appendFrom_unmanaged (s := s.setSlot p k _) hnone] at hexec
      refine ⟨_, hexec, rfl, fun p' hp => ?_, ?_, fun j => State.slot_setSlot ..⟩
      · rw [State.part_setSlot, if_neg hp]
      · rw [State.part_setSlot, if_pos rfl]
    · rw [if_pos hn] at hexec
      exact ⟨_, hexec, State.appendFrom_managed hmgr hread hl hroom⟩
    · rwa [if_neg (Nat.not_lt.mpr hn)] at hexec
  case awaited =>
    intro p k n e hf hn hq hw ht ho
    have hexec := State.exec_appendRefusal hacc id n
    rw [State.rxLogRefuse_awaited hf hn hq hw ht ho] at hexec
    obtain ⟨hhead, hslot, hseq⟩ := State.reqFault_spec (by decide) hq St.operandRange n 2
    rw [ht] at hslot
    exact ⟨_, _, hexec, hhead, rfl, rfl, rfl, rfl, by rw [hslot], by rw [hslot], hseq⟩

end Sys2Proof.Machine
end
